-- ==== Sys2Proof/Word.lean ====
section
/-!
DEFINITION. The word types of the E960 and their plainest arithmetic (02 R22, 00 R6).
-/

namespace Sys2Proof

/-- One byte, the unit of every memory (00 R6). -/
abbrev Byte := BitVec 8
/-- A 32-bit register (03 R49). -/
abbrev Word := BitVec 32
/-- A 64-bit register or register pair (02 R30). -/
abbrev DWord := BitVec 64

end Sys2Proof
end

