-- ==== Sys2Proof/Syntax/Operand.lean ====
section
/-!
DEFINITION. Operands and modifiers of the instruction words (02 R23 to R33): the 9-bit operand name space, type codes,
guards, and the modifier codes of every chapter. A code the spec reserves is kept as `rsv code`, so that the parse of a word
is total and the checks of R41 can be made in their order.
-/

namespace Sys2Proof

/-- A guard `?k` or `?!k` (02 R23, R32, R44). -/
structure Guard where
  depth : Nat
  neg   : Bool
  deriving DecidableEq, Repr

/-- The fields every word carries: the switch marker and the guard (02 R23). -/
structure Head where
  w     : Bool := false
  guard : Option Guard := none
  deriving DecidableEq, Repr

/-- The three lengths (02 R22, R23). -/
inductive Len | l64 | l96 | l128
  deriving DecidableEq, Repr

/-- Type codes (02 R27). -/
inductive Ty
  | b8 | b16 | b32 | b64 | i8 | i16 | i32 | i64 | n8 | n16 | n32 | n64
  | f16 | bf16 | f32 | f64 | e4m3 | e5m2 | e2m1 | e8m0 | mxe4m3 | mxe2m1
  | rsv (code : Nat)
  deriving DecidableEq, Repr

/-- The special registers, indices 384 to 424 (03 R50). -/
inductive SReg
  | exec | gslot | pred | pc | win | srs | gstat | prio | fid | cfid | crew | core | comp | die | unitid | nfib | rank | ctx
  | clock | emu | xop | xd | xa | xb | xc | ximm | xpc | route | rngv
  | baseS | limS | baseC | limC | baseN | limN | baseG | limG | baseK | limK | baseF | limF
  deriving DecidableEq, Repr

/-- The 9-bit operand name space (02 R28). In Outrider code index `n` below 16 names o(n) (06 R137), and `v n` stands for it. -/
inductive Opnd
  | v (n : Nat)             -- 0 to 319
  | s (n : Nat)             -- 320 to 383
  | special (r : SReg)      -- 384 to 424
  | unassigned (idx : Nat)  -- 425 to 447
  | const (k : Int)         -- 448 to 479, value k = index - 456
  | reserved (idx : Nat)    -- 480 to 511
  deriving DecidableEq, Repr

/-- The last source of a form: its register field, or IMM32 in the 96-bit form (04 R71). -/
inductive Src
  | op (o : Opnd)
  | imm (w : Word)
  deriving DecidableEq, Repr

/-- Condition codes of `cmp` and `fcmp` (04 R89). -/
inductive Cond | eq | ne | lt | le | gt | ge | ord | uno | rsv (code : Nat)
  deriving DecidableEq, Repr

/-- Rounding modes (05 R103). -/
inductive Rnd | rne | rtz | rdn | rup | sr | rsv (code : Nat)
  deriving DecidableEq, Repr

/-- `vote` modes (04 R93). -/
inductive VoteMode | ballot | any | all | member
  deriving DecidableEq, Repr

/-- `shfl` modes (04 R93). -/
inductive ShflMode | idx | up | down | xor
  deriving DecidableEq, Repr

/-- `scan` and `fold` operators (04 R93). -/
inductive ScanOp | add | min | max | and | or | xor | rsv (code : Nat)
  deriving DecidableEq, Repr

/-- Scopes (09 R193), codes of 10 R210. -/
inductive Scope | dev | fib | crew | party | comp | pod | clu | sys
  deriving DecidableEq, Repr

/-- Ordering classes (09 R194), codes of 10 R210. -/
inductive Ord | relaxed | acq | rel | ar | sc | rsv (code : Nat)
  deriving DecidableEq, Repr

/-- Address spaces (08 R173), codes of 10 R210. -/
inductive Space | g | s | c | n | k | f | rsv (code : Nat)
  deriving DecidableEq, Repr

/-- Path classes of `xfence` (10 R225). -/
inductive PathClass | core | mill | port | ol | fab | rsv (code : Nat)
  deriving DecidableEq, Repr

/-- Atomic operations (10 R219). -/
inductive Aop | add | sub | min | max | and | or | xor | exch | inc | dec | rsv (code : Nat)
  deriving DecidableEq, Repr

/-- `iadd` and `isub` modifiers (04 R77). -/
structure AddMod where
  sat  : Bool := false
  cin  : Bool := false
  cout : Bool := false
  deriving DecidableEq, Repr

/-- Where `cmp` and `fcmp` put their result (04 R89, R90). -/
structure CmpDst where
  set  : Bool := false
  comb : Nat := 0
  d    : Opnd := .v 0
  deriving DecidableEq, Repr

/-- The field of `bfe` and `bfi`: immediate position and length, or a register that holds them (04 R83, R87). -/
inductive BitField
  | imm (pos len : Nat)
  | reg (p : Opnd)
  deriving DecidableEq, Repr

/-- Modifiers of groups 0x3 and 0x4 (05 R110). -/
structure FMod where
  rnd : Rnd := .rne
  sat : Bool := false
  na  : Bool := false
  nb  : Bool := false
  nc  : Bool := false
  aa  : Bool := false
  ab  : Bool := false
  deriving DecidableEq, Repr

/-- Fields of group 0x5 (05 R115): result type, source type, rounding, SATF or SAT, and the element field (POS, K, DEC). -/
structure CvtMod where
  dt   : Ty
  st   : Ty := .b8
  rnd  : Rnd := .rne
  sat  : Bool := false
  elem : Nat := 0
  deriving DecidableEq, Repr

/-- What a branch tests (06 R121, R122). -/
structure BrCond where
  u    : Bool := false
  cond : Nat := 0
  reg  : Opnd := .v 0
  deriving DecidableEq, Repr

/-- The target of `bra` and `call`: OFF in the 64-bit form, IMM32 in the 96-bit form (06 R121). -/
inductive BrTarget
  | off (o : BitVec 16)
  | imm (w : Word)
  deriving DecidableEq, Repr

/-- X of `ld`, `st`, `pref`, `atom` and `atomcas` (10 R210). -/
structure MemMod where
  ty    : Ty
  sp    : Space := .g
  ord   : Ord := .relaxed
  scope : Scope := .dev
  cache : Nat := 0
  vec   : Nat := 0
  nr    : Bool := false
  deriving DecidableEq, Repr

/-- The length of a memory form, its offset and its status register (10 R209). -/
inductive MemExt
  | short
  | imm (off : Word)
  | wide (off : Word) (se : Bool) (sd : Opnd)
  deriving DecidableEq, Repr

/-- Engine queues of the Outrider's forms (06 R138). -/
inductive PostQ | mill | port | record | bad
  deriving DecidableEq, Repr

/-- A lane of the device: die, logical core, lane (01 R10, R13). -/
structure LaneRef where
  die  : Nat
  core : Nat
  lane : Nat
  deriving DecidableEq, Repr

/-- A core of the device: die and logical core (01 R11). -/
structure CoreRef where
  die  : Nat
  core : Nat
  deriving DecidableEq, Repr

end Sys2Proof
end

