-- ==== Sys2Proof/Syntax/Event.lean ====
section
/-!
DEFINITION. What the event rows of the opcode table carry: the raw fields of a word that is no instruction, packets, messages,
replies, error sites and host requests. What arrives from outside the device is an argument of the event that brings it.
-/

namespace Sys2Proof

namespace Machine

/-- Who makes an access (09 R188): the path class of its agent, its party, crew and fibre, its place, and its rank if it is another device's. -/
structure Issuer where
  cls    : PathClass := .core
  uid    : Nat := 0
  crew   : Nat := 0
  fid    : Nat := 0
  core   : CoreRef := ⟨0, 0⟩
  remote : Option Nat := none
  deriving DecidableEq, Repr

/-- Bytes [lo, lo + len) are known as they stood at `stamp` or later: the write that happens-before (09 R196). -/
structure Fact where
  lo    : Nat
  len   : Nat
  stamp : Nat
  deriving DecidableEq, Repr

abbrev View := List Fact

/-- A release: its scope, its issuer and what happens-before it (09 R195). -/
structure Release where
  scope : Scope
  src   : Issuer
  view  : View
  deriving DecidableEq, Repr

end Machine

/-- The fields of a word by the layout of 02 R23, each as its code. -/
structure Raw where
  len : Nat
  w   : Nat
  gn  : Nat
  gd  : Nat
  ge  : Nat
  op  : Nat
  d   : Nat
  a   : Nat
  b   : Nat
  x   : Nat
  imm : Nat := 0
  c   : Nat := 0
  ext : Nat := 0
  deriving DecidableEq, Repr

/-- Causes of the checks of 02 R41, and the Outrider's own cause ILLEGAL (06 R137). -/
inductive Cause
  | fetchSplit | illegalLen | reservedGroup | priv | unassignedOp | badOperand | reservedMod | illegal
  deriving DecidableEq, Repr

/-- Who fetches: a lane's chosen gang, or a core's Outrider (16 R425, 06 R137). -/
inductive Fetcher
  | lane (l : LaneRef)
  | outrider (c : CoreRef)
  deriving DecidableEq, Repr

/-- The two units of a Mill (07 R145). -/
inductive MillUnit | loading | streaming
  deriving DecidableEq, Repr

/-- The engines with queues (12 R263). -/
inductive Engine | mill | porter
  deriving DecidableEq, Repr

/-- A reply to an access sent to another device (16 R362): the bytes read, the status and the releases of the write that was read; or a
negative acknowledgement. -/
inductive Reply
  | data (bytes : List Byte) (status : Nat) (rels : List Machine.Release := [])
  | nack (cls : Nat)
  deriving DecidableEq, Repr

/-- What a packet asks for at the device that holds the page (10 R220, R222; 15 R338). -/
inductive PktOp
  | read (len : Nat)
  | write (data : List Byte) (poisoned : Bool)
  | scatter (runs : List (Nat × List Byte)) (poisoned : Bool) (coll : Option (Nat × Nat) := none)
      -- a piece of several runs, by offset from the packet's; of an exchange, with its COLL and SEQ (13 R293)
  | atom (op : Aop) (ty : Ty) (b : DWord)
  | cas (ty : Ty) (b c : DWord)
  | cnt (cop num : Nat) (v : DWord)
  | fence                                                        -- a sequential fence takes its place (09 R197)
  deriving DecidableEq, Repr

/-- An inbound or outbound packet (14 R315 to R317): `src` is who sends it, `rels` makes it a release, and `before` is what happens-before it at the device it goes to (09 R195),
which only that device's own stamps can name: an inbound packet brings it. -/
structure Packet where
  job    : Nat
  init   : Nat
  hops   : Nat := 0
  region : Nat
  offset : Nat
  op     : PktOp
  count  : Option Nat := none   -- arrival counter to advance when the piece is placed (13 R284, 07 R155)
  target : Option Nat := none   -- the rank whose counter that is, where a remote leaf has sent the piece on (13 R284)
  tag    : Nat := 0
  scope  : Scope := .pod
  ord    : Ord := .relaxed
  src    : Machine.Issuer := {}
  rels   : List Scope := []     -- the scopes at which it is a release
  before : Machine.View := []
  unit   : Nat := 0             -- of an engine's read: the bytes of its atomic units (09 R189)
  via    : List (Nat × Nat) := []   -- the devices that have sent it on, each with the tag by which it learns of its end (14 R313)
  deriving DecidableEq, Repr

/-- The home of a replicated page as it asks a replica: its rank and the tag that its message is answered under (09 R206). -/
structure HomeAsk where
  rank : Nat
  tag  : Nat
  deriving DecidableEq, Repr

/-- The names every collective message carries (13 R287): the job, COLL, SEQ, and the sender's grid index and rank. -/
structure MsgHead where
  job  : Nat
  coll : Nat
  seq  : Nat
  src  : Nat
  rank : Nat := 0
  deriving DecidableEq, Repr

/-- What a handshake compares (13 R287): `kind` 0 for `tcopy`, 1 for `a2av`. -/
structure Handshake where
  kind   : Nat
  mode   : Nat
  red    : Nat
  det    : Bool
  ty     : Nat
  origin : Nat
  rstep  : Nat
  gx     : Nat
  gy     : Nat
  gz     : Nat
  tpp    : Nat
  nt     : Nat
  deriving DecidableEq, Repr

/-- A tile in a message: its index, the contributors' bitmap, its bytes, and the poison of each element (13 R286 to R290). -/
structure TileMsg where
  tile   : Nat
  bitmap : Nat
  bytes  : List Byte
  poison : List Bool
  deriving DecidableEq, Repr

/-- Where an uncorrectable error is found (08 R186, 15 R337). -/
inductive ErrSite
  | device (p : Nat)
  | near (die off : Nat)
  | scratch (die core off : Nat)
  | cacheClean (p : Nat)         -- a clean line of device memory at this physical address
  | cacheDirty (p : Nat)
  | register (l : LaneRef) (blk r : Nat)
  | arena (die entry row : Nat)
  | counter (die idx : Nat)
  | write (loc : Nat)          -- the next write to this location's unit (10 R216, R220)
  deriving DecidableEq, Repr

/-- The kinds of corrected errors, in the order of the registers 0x0310 to 0x0314 (15 R346). -/
inductive ScrubKind | hbm | sram | scratch | cache | rf
  deriving DecidableEq, Repr

/-- A request of the host through the bridge: of this device, or of the one of its pod that `dev` names (17 R381, R382). -/
inductive HostReq
  | window (dev : Option Nat) (off : Nat) (data : List Byte)       -- a write into the control window
  | windowRead (dev : Option Nat) (off len : Nat)
  | memory (dev : Option Nat) (ctx : Nat) (region offset : Nat) (op : PktOp) (tag : Nat)
  deriving DecidableEq, Repr

/-- The LINKID of each direction of a port (17 R378). -/
structure LinkIds where
  tx : BitVec 32 := 0
  rx : BitVec 32 := 0
  deriving DecidableEq, Repr

/-- One direction of a gateway conversion (17 R377). -/
inductive GatewayDir | toEthernet | toStation
  deriving DecidableEq, Repr

end Sys2Proof
end

