-- ==== Sys2Proof/Syntax.lean ====
section
/-!
DEFINITION. The one inductive of steps: a constructor for every row of spec/opcode_table.json, in its order. Rows 0 to 143 are the
instruction words of 02 R39 (a row that shares an opcode with another is told apart by a modifier), rows 144 to 242 the device's
events. An instruction carries its decoded fields, an event what it concerns and what arrives from outside.
-/

namespace Sys2Proof

/-- Every step of the E960, one constructor per row of the opcode table. -/
inductive Instr
  | iadd (h : Head) (t : Ty) (d a : Opnd) (b : Src) (m : AddMod)   -- IADD (R78)
  | isub (h : Head) (t : Ty) (d a : Opnd) (b : Src) (m : AddMod)   -- ISUB (R78)
  | imul (h : Head) (t : Ty) (d a : Opnd) (b : Src) (sat wide : Bool)   -- IMUL (R79)
  | imulhi (h : Head) (t : Ty) (d a : Opnd) (b : Src)   -- IMULHI (R79)
  | imad (h : Head) (t : Ty) (d a b c : Opnd) (sat wide : Bool)   -- IMAD (R79)
  | idiv (h : Head) (t : Ty) (d a : Opnd) (b : Src)   -- IDIV (R80)
  | irem (h : Head) (t : Ty) (d a : Opnd) (b : Src)   -- IREM (R80)
  | imin (h : Head) (t : Ty) (d a : Opnd) (b : Src)   -- IMIN (R81)
  | imax (h : Head) (t : Ty) (d a : Opnd) (b : Src)   -- IMAX (R81)
  | iabs (h : Head) (t : Ty) (d a : Opnd) (sat : Bool)   -- IABS (R81)
  | ineg (h : Head) (t : Ty) (d a : Opnd) (sat : Bool)   -- INEG (R81)
  | isad (h : Head) (t : Ty) (d a b c : Opnd) (sat : Bool)   -- ISAD (R81)
  | mov (h : Head) (t : Ty) (d : Opnd) (a : Src)   -- MOV (R82)
  | sel (h : Head) (t : Ty) (d a : Opnd) (b : Src) (depth : Nat) (neg : Bool)   -- SEL (R82)
  | and (h : Head) (t : Ty) (d a : Opnd) (b : Src)   -- AND (R84)
  | or (h : Head) (t : Ty) (d a : Opnd) (b : Src)   -- OR (R84)
  | xor (h : Head) (t : Ty) (d a : Opnd) (b : Src)   -- XOR (R84)
  | not (h : Head) (t : Ty) (d a : Opnd)   -- NOT (R84)
  | shl (h : Head) (t : Ty) (d a : Opnd) (b : Src) (wrap : Bool)   -- SHL (R85)
  | shr (h : Head) (t : Ty) (d a : Opnd) (b : Src) (wrap : Bool)   -- SHR (R85)
  | sar (h : Head) (t : Ty) (d a : Opnd) (b : Src) (wrap : Bool)   -- SAR (R85)
  | rotl (h : Head) (t : Ty) (d a : Opnd) (b : Src)   -- ROTL (R85)
  | popc (h : Head) (t : Ty) (d a : Opnd)   -- POPC (R86)
  | clz (h : Head) (t : Ty) (d a : Opnd)   -- CLZ (R86)
  | brev (h : Head) (t : Ty) (d a : Opnd)   -- BREV (R86)
  | bfe (h : Head) (t : Ty) (d a : Opnd) (f : BitField)   -- BFE (R87)
  | bfi (h : Head) (t : Ty) (d a b : Opnd) (f : BitField)   -- BFI (R87)
  | lea (h : Head) (t : Ty) (d a : Opnd) (b : Src) (sh : Nat)   -- LEA (R88)
  | lop3 (h : Head) (t : Ty) (d a b c : Opnd) (tt : Nat)   -- LOP3 (R84)
  | cmp (h : Head) (t : Ty) (a : Opnd) (b : Src) (cond : Cond) (p : CmpDst)   -- CMP (R90)
  | fcmp (h : Head) (t : Ty) (a : Opnd) (b : Src) (cond : Cond) (p : CmpDst)   -- FCMP (R90)
  | ppush (h : Head) (a : Opnd)   -- PPUSH (R91)
  | ppop (h : Head) (n : Nat) (set : Bool) (d : Opnd)   -- PPOP (R91)
  | pmov (h : Head) (k : Nat) (neg : Bool)   -- PMOV (R91)
  | pset (h : Head) (k : Nat) (a : Opnd)   -- PSET (R91)
  | plop (h : Head) (i j tt : Nat) (rep : Bool)   -- PLOP (R91)
  | fadd (h : Head) (t : Ty) (d a : Opnd) (b : Src) (m : FMod)   -- FADD (R111)
  | fsub (h : Head) (t : Ty) (d a : Opnd) (b : Src) (m : FMod)   -- FSUB (R111)
  | fmul (h : Head) (t : Ty) (d a : Opnd) (b : Src) (m : FMod)   -- FMUL (R111)
  | ffma (h : Head) (t : Ty) (d a b c : Opnd) (m : FMod)   -- FFMA (R111)
  | fmin (h : Head) (t : Ty) (d a : Opnd) (b : Src) (m : FMod)   -- FMIN (R112)
  | fmax (h : Head) (t : Ty) (d a : Opnd) (b : Src) (m : FMod)   -- FMAX (R112)
  | fdiv (h : Head) (t : Ty) (d a : Opnd) (b : Src) (m : FMod)   -- FDIV (R113)
  | frcp (h : Head) (t : Ty) (d a : Opnd) (m : FMod)   -- FRCP (R113)
  | frsq (h : Head) (t : Ty) (d a : Opnd) (m : FMod)   -- FRSQ (R113)
  | fsqrt (h : Head) (t : Ty) (d a : Opnd) (m : FMod)   -- FSQRT (R113)
  | fexp2 (h : Head) (t : Ty) (d a : Opnd) (m : FMod)   -- FEXP2 (R114)
  | flog2 (h : Head) (t : Ty) (d a : Opnd) (m : FMod)   -- FLOG2 (R114)
  | fsin (h : Head) (t : Ty) (d a : Opnd) (m : FMod)   -- FSIN (R114)
  | fcos (h : Head) (t : Ty) (d a : Opnd) (m : FMod)   -- FCOS (R114)
  | faddF64 (h : Head) (t : Ty) (d a b : Opnd) (m : FMod)   -- FADD_F64 (R111)
  | fsubF64 (h : Head) (t : Ty) (d a b : Opnd) (m : FMod)   -- FSUB_F64 (R111)
  | fmulF64 (h : Head) (t : Ty) (d a b : Opnd) (m : FMod)   -- FMUL_F64 (R111)
  | ffmaF64 (h : Head) (t : Ty) (d a b c : Opnd) (m : FMod)   -- FFMA_F64 (R111)
  | fminF64 (h : Head) (t : Ty) (d a b : Opnd) (m : FMod)   -- FMIN_F64 (R112)
  | fmaxF64 (h : Head) (t : Ty) (d a b : Opnd) (m : FMod)   -- FMAX_F64 (R112)
  | fdivF64 (h : Head) (t : Ty) (d a b : Opnd) (m : FMod)   -- FDIV_F64 (R113)
  | frcpF64 (h : Head) (t : Ty) (d a : Opnd) (m : FMod)   -- FRCP_F64 (R113)
  | frsqF64 (h : Head) (t : Ty) (d a : Opnd) (m : FMod)   -- FRSQ_F64 (R113)
  | fsqrtF64 (h : Head) (t : Ty) (d a : Opnd) (m : FMod)   -- FSQRT_F64 (R113)
  | cvt (h : Head) (d a : Opnd) (m : CvtMod)   -- CVT (R116)
  | dot2 (h : Head) (d a b c : Opnd) (m : CvtMod)   -- DOT2 (R118)
  | dot4 (h : Head) (d a b c : Opnd) (m : CvtMod)   -- DOT4 (R118)
  | padd (h : Head) (d a : Opnd) (b : Src) (m : CvtMod)   -- PADD (R119)
  | pmax (h : Head) (d a : Opnd) (b : Src) (m : CvtMod)   -- PMAX (R119)
  | pmin (h : Head) (d a : Opnd) (b : Src) (m : CvtMod)   -- PMIN (R119)
  | pack (h : Head) (d a b : Opnd) (m : CvtMod)   -- PACK (R117)
  | unpack (h : Head) (d a : Opnd) (m : CvtMod)   -- UNPACK (R117)
  | seed (h : Head) (a : Src) (mix : Bool)   -- SEED (R106)
  | vote (h : Head) (d a : Opnd) (mode : VoteMode) (psrc : Bool) (pdepth : Nat) (pneg : Bool)   -- VOTE (R94)
  | shfl (h : Head) (t : Ty) (d a : Opnd) (b : Src) (mode : ShflMode) (seg : Nat)   -- SHFL (R95)
  | bcast (h : Head) (t : Ty) (d a : Opnd) (last : Bool)   -- BCAST (R96)
  | scan (h : Head) (t : Ty) (d a : Opnd) (op : ScanOp) (excl sat : Bool)   -- SCAN (R97)
  | fold (h : Head) (t : Ty) (d a : Opnd) (op : ScanOp) (sat : Bool)   -- FOLD (R97)
  | bra (h : Head) (tgt : BrTarget) (c : BrCond)   -- BRA (R122)
  | brx (h : Head) (a : Opnd) (c : BrCond)   -- BRX (R122)
  | call (h : Head) (d : Opnd) (tgt : BrTarget) (c : BrCond)   -- CALL (R122)
  | ret (h : Head) (a : Opnd) (c : BrCond)   -- RET (R122)
  | exit (h : Head)   -- EXIT (R128)
  | spawn (h : Head) (a : Opnd) (entry : Word) (tmo blk : Nat)   -- SPAWN (R132)
  | meet (h : Head) (a : Opnd)   -- MEET (R129)
  | xgrow (h : Head)   -- XGROW (R59)
  | xshrink (h : Head)   -- XSHRINK (R60)
  | fetchw (h : Head) (a : Opnd)   -- FETCHW (R134)
  | launch (h : Head) (d a b : Opnd)   -- LAUNCH (R135)
  | nop (h : Head) (len : Len)   -- NOP (R36)
  | rqpop (h : Head) (d : Opnd)   -- RQPOP (R136)
  | olfor (h : Head) (d a : Opnd) (exit : Word)   -- OLFOR (R138)
  | olnext (h : Head)   -- OLNEXT (R138)
  | olpostMill (h : Head) (a b : Opnd) (op : Nat)   -- OLPOST_MILL (R138)
  | olpostPort (h : Head) (a b : Opnd) (op : Nat)   -- OLPOST_PORT (R138)
  | olpostRec (h : Head) (a b : Opnd)   -- OLPOST_REC (R138)
  | olpermit (h : Head) (q : PostQ) (a : Src)   -- OLPERMIT (R138)
  | ld (h : Head) (d a : Opnd) (m : MemMod) (e : MemExt)   -- LD (R215)
  | st (h : Head) (a b : Opnd) (m : MemMod) (e : MemExt)   -- ST (R216)
  | pref (h : Head) (a : Opnd) (m : MemMod) (off : Option Word)   -- PREF (R217)
  | cflush (h : Head) (a b : Opnd) (level : Nat)   -- CFLUSH (R218)
  | cinval (h : Head) (a b : Opnd) (level : Nat)   -- CINVAL (R218)
  | atom (h : Head) (d a b : Opnd) (m : MemMod) (e : MemExt)   -- ATOM (R220)
  | atomcas (h : Head) (d a b c : Opnd) (m : MemMod) (off : Word) (se : Bool) (sd : Opnd)   -- ATOMCAS (R220)
  | fence (h : Head) (ord : Ord) (scope : Scope)   -- FENCE (R224)
  | xfence (h : Head) (a b : PathClass)   -- XFENCE (R225)
  | mload (h : Head) (t : Ty) (d : Opnd) (a : Src) (nh : Bool)   -- MLOAD (R149)
  | mswap (h : Head) (d : Opnd) (nh : Bool)   -- MSWAP (R156)
  | mrun (h : Head) (t : Ty) (d : Opnd) (a : Src) (nh : Bool)   -- MRUN (R151)
  | mchainLink (h : Head) (d : Opnd) (nh : Bool) (len : Nat)   -- MCHAIN_LINK (R159)
  | mchainJoin (h : Head) (d a : Opnd) (nh : Bool)   -- MCHAIN_JOIN (R159)
  | mchainUnlink (h : Head) (d : Opnd) (nh : Bool)   -- MCHAIN_UNLINK (R159)
  | mepi (h : Head) (t : Ty) (d : Opnd) (a : Src) (nh : Bool)   -- MEPI (R154)
  | maccz (h : Head) (d : Opnd) (nh : Bool) (mask : Nat)   -- MACCZ (R157)
  | maccrd (h : Head) (d a : Opnd) (acc mem : Nat)   -- MACCRD (R158)
  | mdelta (h : Head) (t : Ty) (d : Opnd) (a : Src) (nh : Bool)   -- MDELTA (R233)
  | slotbind (h : Head) (d : Opnd) (a : Src)   -- SLOTBIND (R245)
  | slotdrop (h : Head) (d : Opnd) (a : Src)   -- SLOTDROP (R245)
  | slotq (h : Head) (d : Opnd) (a : Src)   -- SLOTQ (R246)
  | lseal (h : Head) (d a b : Opnd) (k : Bool)   -- LSEAL (R279)
  | tcopy (h : Head) (d : Opnd) (a : Src) (nh urg : Bool)   -- TCOPY (R283)
  | a2av (h : Head) (d : Opnd) (a : Src) (nh urg : Bool)   -- A2AV (R294)
  | bseal (h : Head) (d : Opnd) (a : Src) (record : Bool)   -- BSEAL (R298)
  | bwait (h : Head) (a : Src)   -- BWAIT (R300)
  | cntRd (h : Head) (d a : Opnd) (ord : Ord) (scope : Scope)   -- CNT_RD (R338)
  | cntAdd (h : Head) (d a : Opnd) (b : Src) (nr : Bool) (ord : Ord) (scope : Scope)   -- CNT_ADD (R338)
  | cntSet (h : Head) (d a : Opnd) (b : Src) (nr : Bool) (ord : Ord) (scope : Scope)   -- CNT_SET (R338)
  | cntwait (h : Head) (d a : Opnd) (b : Src) (ord : Ord) (scope : Scope) (tmo : Nat)   -- CNTWAIT (R339)
  | trigTcopy (h : Head) (d a b c : Opnd) (urg : Bool) (scope : Scope)   -- TRIG_TCOPY (R341)
  | trigA2av (h : Head) (d a b c : Opnd) (urg : Bool) (scope : Scope)   -- TRIG_A2AV (R341)
  | trigAdd (h : Head) (d a b c : Opnd) (scope : Scope) (amount : Word)   -- TRIG_ADD (R341)
  | trigCancel (h : Head) (d a : Opnd)   -- TRIG_CANCEL (R341)
  | ftest (h : Head) (d a : Opnd)   -- FTEST (R165)
  | fwait (h : Head) (d a : Opnd)   -- FWAIT (R165)
  | fcancel (h : Head) (d a : Opnd)   -- FCANCEL (R165)
  | trap (h : Head) (code : Nat)   -- TRAP (R357)
  | sysrd (h : Head) (d : Opnd) (a : Src)   -- SYSRD (R357)
  | eret (h : Head)   -- ERET (R355)
  | syswr (h : Head) (a : Src) (b : Opnd)   -- SYSWR (R357)
  | segwr (h : Head) (d a b : Opnd) (sp : Space)   -- SEGWR (R359)
  | rngwr (h : Head) (d a : Opnd) (idx ctx : Nat)   -- RNGWR (R308)
  | rngwrClr (h : Head) (d : Opnd) (idx ctx : Nat)   -- RNGWR_CLR (R308)
  | tcinvRange (h : Head) (d a b : Opnd) (ctx : Nat)   -- TCINV_RANGE (R313)
  | tcinvRegion (h : Head) (d a : Opnd) (ctx : Nat)   -- TCINV_REGION (R313)
  | tcinvCtx (h : Head) (d : Opnd) (ctx : Nat)   -- TCINV_CTX (R313)
  | tcinvRank (h : Head) (d : Opnd) (ctx : Nat)   -- TCINV_RANK (R313)
  | mspill (h : Head) (d a : Opnd)   -- MSPILL (R368)
  | mfill (h : Head) (d a : Opnd)   -- MFILL (R368)
  | illegalEncoding (cause : Cause) (raw : Raw)   -- ILLEGAL_ENCODING (R41)
  | instructionFetch (f : Fetcher)   -- INSTRUCTION_FETCH (R425)
  | resultReturn (id : Nat)   -- RESULT_RETURN (R58)
  | gangMerge (l : LaneRef)   -- GANG_MERGE (R125)
  | gangNumberGrant (uid crew : Nat)   -- GANG_NUMBER_GRANT (R124)
  | classAging (uid gid : Nat)   -- CLASS_AGING (R126)
  | meetRelease (uid crew : Nat)   -- MEET_RELEASE (R130)
  | xgrowGrant (l : LaneRef)   -- XGROW_GRANT (R59)
  | binTimerExpiry (uid bin : Nat)   -- BIN_TIMER_EXPIRY (R261)
  | binRelease (uid bin : Nat)   -- BIN_RELEASE (R133)
  | storeDrain (uid crew : Nat)   -- STORE_DRAIN (R267)
  | remoteReply (id : Nat) (r : Reply)   -- REMOTE_REPLY (R362)
  | remoteTimeout (id : Nat)   -- REMOTE_TIMEOUT (R223)
  | hold (id : Nat)   -- HOLD (R325)
  | holdInterval (token : Nat)   -- HOLD_INTERVAL (R325)
  | holdExpired (token : Nat)   -- HOLD_EXPIRED (R325)
  | heraldDelivery (die : Nat)   -- HERALD_DELIVERY (R12)
  | engineQueueGrant (c : CoreRef) (e : Engine)   -- ENGINE_QUEUE_GRANT (R263)
  | millCommandStart (c : CoreRef) (u : MillUnit)   -- MILL_COMMAND_START (R144)
  | millCommandResolve (c : CoreRef) (u : MillUnit)   -- MILL_COMMAND_RESOLVE (R163)
  | chainLinkForms (c : CoreRef)   -- CHAIN_LINK_FORMS (R159)
  | transferStart (c : CoreRef)   -- TRANSFER_START (R265)
  | piecePlacement (c : CoreRef) (slot piece : Nat)   -- PIECE_PLACEMENT (R284)
  | transferRetire (c : CoreRef) (slot : Nat)   -- TRANSFER_RETIRE (R284)
  | batchFinish (uid stream : Nat)   -- BATCH_FINISH (R299)
  | handshake (m : MsgHead) (body : Handshake)   -- HANDSHAKE (R287)
  | contribution (m : MsgHead) (t : TileMsg)   -- CONTRIBUTION (R288)
  | final (m : MsgHead) (t : TileMsg)   -- FINAL (R290)
  | abortNotice (m : MsgHead)   -- ABORT_NOTICE (R291)
  | messageAcknowledgement (m : MsgHead) (id : Nat)   -- MESSAGE_ACKNOWLEDGEMENT (R287)
  | collectiveAckTimeout (c : CoreRef) (slot id : Nat)   -- COLLECTIVE_ACK_TIMEOUT (R291)
  | countMessage (m : MsgHead) (n : Nat)   -- COUNT_MESSAGE (R294)
  | offsetReply (m : MsgHead) (off : Option Nat)   -- OFFSET_REPLY (R294)
  | counterOperation (id : Nat)   -- COUNTER_OPERATION (R334)
  | cntwaitTimeout (uid gid : Nat)   -- CNTWAIT_TIMEOUT (R339)
  | launchRequest (id : Nat)   -- LAUNCH_REQUEST (R253)
  | doorbell (ctx q v : Nat)   -- DOORBELL (R251)
  | packetRead   -- PACKET_READ (R255)
  | bufferListApplication (lt : Nat)   -- BUFFER_LIST_APPLICATION (R257)
  | unitPlacement (lt : Nat) (c : CoreRef) (base : Nat)   -- UNIT_PLACEMENT (R258)
  | companyReservation (lt die comp : Nat)   -- COMPANY_RESERVATION (R258)
  | fetchwAnswer (uid : Nat)   -- FETCHW_ANSWER (R271)
  | partyRetirement (uid : Nat)   -- PARTY_RETIREMENT (R259)
  | launchCompletion (lt : Nat)   -- LAUNCH_COMPLETION (R260)
  | inboundPacket (p : Packet)   -- INBOUND_PACKET (R316)
  | walk (id : Nat)   -- WALK (R311)
  | cachedRequest (job region page rank : Nat) (write : Bool)   -- CACHED_REQUEST (R319)
  | revocation (job region page home : Nat)   -- REVOCATION (R207)
  | revocationAcknowledgement (job region page rank : Nat)   -- REVOCATION_ACKNOWLEDGEMENT (R207)
  | replicaLock (job region offset : Nat) (home : HomeAsk) (data : List Byte)   -- REPLICA_LOCK (R321)
  | replicaUnlock (job region offset : Nat) (home : HomeAsk)   -- REPLICA_UNLOCK (R206)
  | freplyResume (token : Nat)   -- FREPLY_RESUME (R325)
  | freplyNack (token cls : Nat)   -- FREPLY_NACK (R325)
  | tableRead (v : DWord)   -- TABLE_READ (R305)
  | regionAttributeWrite (v : DWord)   -- REGION_ATTRIBUTE_WRITE (R309)
  | windowWrite (v : DWord)   -- WINDOW_WRITE (R306)
  | contextEntryWrite (v : DWord)   -- CONTEXT_ENTRY_WRITE (R315)
  | replicaDescriptorWrite (v : DWord)   -- REPLICA_DESCRIPTOR_WRITE (R321)
  | cmaccInstall (v : DWord)   -- CMACC_INSTALL (R333)
  | cmaccRemove (v : DWord)   -- CMACC_REMOVE (R333)
  | cmaccRead (v : DWord)   -- CMACC_READ (R333)
  | vwinWrite (v : DWord)   -- VWIN_WRITE (R344)
  | nearcarveWrite (die : Nat) (v : DWord)   -- NEARCARVE_WRITE (R179)
  | ngrantWrite (ctx die : Nat) (v : DWord)   -- NGRANT_WRITE (R180)
  | arenaWrite (die : Nat) (v : DWord)   -- ARENA_WRITE (R181)
  | launchQueueDescriptorWrite (ctx q w : Nat) (v : DWord)   -- LAUNCH_QUEUE_DESCRIPTOR_WRITE (R250)
  | errorCounterClear (die reg : Nat) (v : DWord)   -- ERROR_COUNTER_CLEAR (R346)
  | pctlSuspend (v : DWord)   -- PCTL_SUSPEND (R365)
  | pctlRestore (v : DWord)   -- PCTL_RESTORE (R367)
  | pctlEnd (v : DWord)   -- PCTL_END (R364)
  | pctlAbortx (v : DWord)   -- PCTL_ABORTX (R364)
  | ctxctlCreate (v : DWord)   -- CTXCTL_CREATE (R370)
  | ctxctlRetire (v : DWord)   -- CTXCTL_RETIRE (R370)
  | ctxctlSetrank (v : DWord)   -- CTXCTL_SETRANK (R370)
  | uncorrectableError (site : ErrSite)   -- UNCORRECTABLE_ERROR (R186)
  | patrolScrub (die : Nat) (kind : Option ScrubKind)   -- PATROL_SCRUB (R186)
  | spareTakeover (c : CoreRef) (lost : List Nat)   -- SPARE_TAKEOVER (R371)
  | companyRetirement (die comp : Nat) (failed : List Nat) (targets : List CoreRef)   -- COMPANY_RETIREMENT (R11)
  | deviceReset   -- DEVICE_RESET (R8)
  | bootImageLoad (i : Nat) (image : List Byte) (sig : List Byte)   -- BOOT_IMAGE_LOAD (R386)
  | linkStart (port : Nat) (verified : Bool) (keyTx keyRx : BitVec 256) (linkids : LinkIds) (prot : Bool) (width : Nat)   -- LINK_START (R380)
  | linkDown (port cause : Nat)   -- LINK_DOWN (R377)
  | laneLoss (port good : Nat)   -- LANE_LOSS (R376)
  | diePairFailure (dieA dieB : Nat)   -- DIE_PAIR_FAILURE (R374)
  | flitTransmit (port : Nat) (header payload : List Byte)   -- FLIT_TRANSMIT (R379)
  | flitReceive (port : Nat) (crcGood : Bool) (header payload tag : List Byte)   -- FLIT_RECEIVE (R379)
  | gatewayConversion (iod : Nat) (dir : GatewayDir) (p : Packet) (rank : Nat)   -- GATEWAY_CONVERSION (R377)
  | hostRequest (r : HostReq)   -- HOST_REQUEST (R381)
  | negotiate   -- NEGOTIATE (R385)
  | extend   -- EXTEND (R383)
  | powercap   -- POWERCAP (R383)
  | challenge (nonce : BitVec 256)   -- CHALLENGE (R388)
  | unlock   -- UNLOCK (R388)
  | spdm   -- SPDM (R387)
  | nstatLostClear   -- NSTAT_LOST_CLEAR (R382)
  | powerEstimate (watts : Nat)   -- POWER_ESTIMATE (R389)
  | withdrawal (m : MsgHead)   -- WITHDRAWAL (R302)
  | unknown   -- UNKNOWN (R383)
  | fuseProgramming (lc : Nat)   -- FUSE_PROGRAMMING (R373)
  deriving DecidableEq, Repr

end Sys2Proof
end

