-- ==== Sys2Proof/WellFormed.lean ====
section
/-!
DEFINITION. Which instruction terms are words of the E960: the operand rules of 02 R28 to R31 (`Instr.operandsOk`, check 6 of R41
without its window part) and the modifier and guard rules of 02 R26, R27, R33 and of each form's description
(`Instr.modifiersOk`, check 7). The decoder and the encoder rest on both.
-/

namespace Sys2Proof

/-- Width in bits of one element of a type (02 R27); the mx types and reserved codes count as 32-bit operands. -/
def Ty.width : Ty → Nat
  | .b8 | .i8 | .n8 | .e4m3 | .e5m2 | .e8m0 => 8
  | .b16 | .i16 | .n16 | .f16 | .bf16 => 16
  | .b64 | .i64 | .n64 | .f64 => 64
  | .e2m1 => 4
  | .b32 | .i32 | .n32 | .f32 | .mxe4m3 | .mxe2m1 | .rsv _ => 32

/-- A type whose operands are register pairs (02 R30). -/
def Ty.is64 (t : Ty) : Bool := t.width == 64

/-- i types are signed (04 R72). -/
def Ty.signed : Ty → Bool
  | .i8 | .i16 | .i32 | .i64 => true
  | _ => false

def Ty.isI : Ty → Bool := Ty.signed
def Ty.isN : Ty → Bool
  | .n8 | .n16 | .n32 | .n64 => true
  | _ => false
def Ty.isB : Ty → Bool
  | .b8 | .b16 | .b32 | .b64 => true
  | _ => false
def Ty.isInt (t : Ty) : Bool := t.isI || t.isN
def Ty.isRaw (t : Ty) : Bool := t.isI || t.isN || t.isB
/-- The types of group 0x3 (05 R110). -/
def Ty.isF3 : Ty → Bool
  | .f32 | .f16 | .bf16 => true
  | _ => false
/-- The scalar float types that inline constants have values in (02 R29). -/
def Ty.isFloat : Ty → Bool
  | .f64 | .f32 | .f16 | .bf16 => true
  | _ => false
/-- The 8-bit and 4-bit floats and e8m0, and the mx types: no inline constants (02 R29). -/
def Ty.isSmallFloat : Ty → Bool
  | .e4m3 | .e5m2 | .e2m1 | .e8m0 | .mxe4m3 | .mxe2m1 => true
  | _ => false
/-- The 32-bit and 64-bit raw and integer types. -/
def Ty.isWideRaw : Ty → Bool
  | .b32 | .i32 | .n32 | .b64 | .i64 | .n64 => true
  | _ => false

/-- The register field an operand stands in; `e` is SD of the 128-bit memory forms (10 R209). -/
inductive Fld | d | a | b | c | e
  deriving DecidableEq, Repr

/-- What a field may name: anything R28 allows, only a v register, only an s register, an s register whose number is a
multiple of four, anything but a v register, or index zero. -/
inductive Kind | any | v | s | quad | uniform | zero
  deriving DecidableEq, Repr

/-- One used register field: how many 32-bit registers it names, whether they are pairs, and its kind. -/
structure Use where
  fld     : Fld
  o       : Opnd
  n       : Nat := 1
  pair    : Bool := false
  kind    : Kind := .any
  noConst : Bool := false
  deriving DecidableEq, Repr

/-- Special registers that instructions may write (03 R50). -/
def SReg.writable : SReg → Bool
  | .exec | .pred | .gstat | .prio | .emu | .route => true
  | _ => false

/-- 64-bit special registers (03 R50). -/
def SReg.is64 : SReg → Bool
  | .clock | .route | .baseS | .limS | .baseC | .limC | .baseN | .limN | .baseG | .limG | .baseK | .limK | .baseF | .limF => true
  | _ => false

/-- Special registers held per fibre (03 R49, R51), `$exec` among them, though a read of it yields the gang's mask (R52). DEDUCED:
log 10. -/
def SReg.perFibre : SReg → Bool
  | .exec | .gslot | .pred | .pc | .win | .srs | .fid | .cfid | .crew => true
  | _ => false

def Opnd.isS : Opnd → Bool
  | .s _ => true
  | _ => false
def Opnd.isV : Opnd → Bool
  | .v _ => true
  | _ => false

/-- Sources that are fetched once per gang (03 R51). -/
def Opnd.isUniform : Opnd → Bool
  | .v _ => false
  | .special r => !r.perFibre
  | _ => true

def Src.isUniform : Src → Bool
  | .op o => o.isUniform
  | .imm _ => true

/-- The operand rules of 02 R28 to R31 for one used field, the window check left out. A constant or a special register is taken whatever the
number of values the field names (DEDUCED, log 56), and a 32-bit special register takes the low word of a 64-bit result (DEDUCED, log 73). -/
def Use.ok (u : Use) : Bool :=
  let dst := u.fld == .d || u.fld == .e
  let free := u.kind == .any || u.kind == .uniform
  match u.o with
  | .reserved _ | .unassigned _ => false
  | .const k => !dst && free && !u.noConst && decide (-8 ≤ k ∧ k ≤ 23)
  | .special r => free && (!dst || (r.writable && (u.pair || !r.is64)))
  | .v n => (u.kind == .any || u.kind == .v || (u.kind == .zero && n == 0)) &&
      decide (n + u.n ≤ 320) && !(u.pair && n % 2 == 1)
  | .s n => (u.kind == .any || u.kind == .s || u.kind == .uniform || (u.kind == .quad && n % 4 == 0)) &&
      decide (n + u.n ≤ 64) && !(u.pair && n % 2 == 1)

/-- A destination of type `t`. -/
def useD (o : Opnd) (t : Ty) : Use := ⟨.d, o, if t.is64 then 2 else 1, t.is64, .any, false⟩
/-- A source of type `t` in field `f`. Whether it must be a pair is told by the type as encoded, also where the form does not accept
that type (DEDUCED, log 74). -/
def useT (f : Fld) (o : Opnd) (t : Ty) : Use := ⟨f, o, if t.is64 then 2 else 1, t.is64, .any, t.isSmallFloat⟩
/-- A last source: nothing is used when it is IMM32. -/
def useS (f : Fld) (x : Src) (t : Ty) : List Use :=
  match x with
  | .op o => [useT f o t]
  | .imm _ => []
/-- A 32-bit uniform operand, or IMM32. -/
def useU (f : Fld) (x : Src) (pair : Bool := false) : List Use :=
  match x with
  | .op o => [⟨f, o, if pair then 2 else 1, pair, .uniform, false⟩]
  | .imm _ => []
def useK (f : Fld) (o : Opnd) (k : Kind) (pair : Bool := false) (n : Nat := 1) : Use :=
  ⟨f, o, if pair then 2 * n else n, pair, k, false⟩

/-- The element count of VEC (10 R210). -/
def vecCount : Nat → Nat
  | 1 => 2
  | 2 => 4
  | _ => 1

/-- The register that a branch tests (06 R122); with U = 0 a nonzero field breaks its rule, BAD_OPERAND (log 104). -/
def BrCond.uses (c : BrCond) (f : Fld) : List Use :=
  if c.cond == 0 then [useK f c.reg .zero] else if c.u then [useK f c.reg .uniform] else []

/-- A handle destination: an s register, or field zero with NH (07 R147). -/
def useH (d : Opnd) (nh : Bool) : Use := useK .d d (if nh then .zero else .s)

/-- An address operand: a 64-bit operand for `.g`, a 32-bit operand for every other space (10 R211). -/
def useAddr (a : Opnd) (m : MemMod) : Use := if m.sp == .g then useT .a a .b64 else useT .a a .b32

/-- The status register of a memory form: a v register for a per-fibre form, an s register for a gang-wide one (10 R211). -/
def useSd (se : Bool) (sd : Opnd) (gang : Bool) : List Use := if se then [useK .e sd (if gang then .s else .v)] else []

def MemExt.uses (e : MemExt) (gang : Bool) : List Use :=
  match e with
  | .wide _ se sd => useSd se sd gang
  | _ => []

/-- The destination of a load or an atomic: a v or an s register. -/
def useMemD (d : Opnd) (t : Ty) (n : Nat) : Use := ⟨.d, d, if t.is64 then 2 * n else n, t.is64, if d.isS then .s else .v, false⟩

/-- The value of an s-register counter destination: an even s register, or field zero with NR (15 R338). -/
def useCntD (d : Opnd) (nr : Bool) : Use := if nr then useK .d d .zero else useK .d d .s true

/-- Every register field an instruction uses, for the operand checks and for the window check (02 R28 to R31). -/
def Instr.uses : Instr → List Use
  | .iadd _ t d a b _ | .isub _ t d a b _ => [useD d t, useT .a a t] ++ useS .b b t
  | .imul _ t d a b _ w => [useD d (if w then .i64 else t), useT .a a t] ++ useS .b b t
  | .imulhi _ t d a b | .idiv _ t d a b | .irem _ t d a b | .imin _ t d a b | .imax _ t d a b =>
      [useD d t, useT .a a t] ++ useS .b b t
  | .imad _ t d a b c _ w => [useD d (if w then .i64 else t), useT .a a t, useT .b b t, useT .c c (if w then .i64 else t)]
  | .iabs _ t d a _ | .ineg _ t d a _ => [useD d t, useT .a a t]
  | .isad _ t d a b c _ => [useD d t, useT .a a t, useT .b b t, useT .c c t]
  | .mov _ t d a => useD d t :: useS .a a t
  | .sel _ t d a b _ _ => [useD d t, useT .a a t] ++ useS .b b t
  | .and _ t d a b | .or _ t d a b | .xor _ t d a b => [useD d t, useT .a a t] ++ useS .b b t
  | .not _ t d a | .brev _ t d a => [useD d t, useT .a a t]
  | .shl _ t d a b _ | .shr _ t d a b _ | .sar _ t d a b _ | .rotl _ t d a b => [useD d t, useT .a a t] ++ useS .b b .n32
  | .popc _ t d a | .clz _ t d a => [useD d .n32, useT .a a t]
  | .bfe _ t d a f => [useD d t, useT .a a t] ++ (match f with | .reg p => [useT .b p .n32] | .imm _ _ => [])
  | .bfi _ t d a b f => [useD d t, useT .a a t, useT .b b t] ++ (match f with | .reg p => [useT .c p .n32] | .imm _ _ => [])
  | .lea _ t d a b _ => [useD d .b64, useT .a a .b64] ++ useS .b b t
  | .lop3 _ t d a b c _ => [useD d t, useT .a a t, useT .b b t, useT .c c t]
  | .cmp _ t a b _ p | .fcmp _ t a b _ p => (if p.set then [useD p.d .n32] else []) ++ [useT .a a t] ++ useS .b b t
  | .ppush _ a => [useT .a a .n32]
  | .ppop _ _ set d => if set then [useD d .n32] else []
  | .pmov _ _ _ => []
  | .pset _ _ a => [useT .a a .n32]
  | .plop _ _ _ _ _ => []
  | .fadd _ t d a b _ | .fsub _ t d a b _ | .fmul _ t d a b _ | .fmin _ t d a b _ | .fmax _ t d a b _ | .fdiv _ t d a b _ =>
      [useD d t, useT .a a t] ++ useS .b b t
  | .ffma _ t d a b c _ | .ffmaF64 _ t d a b c _ => [useD d t, useT .a a t, useT .b b t, useT .c c t]
  | .frcp _ t d a _ | .frsq _ t d a _ | .fsqrt _ t d a _ | .fexp2 _ t d a _ | .flog2 _ t d a _ | .fsin _ t d a _
  | .fcos _ t d a _ => [useD d t, useT .a a t]
  | .faddF64 _ t d a b _ | .fsubF64 _ t d a b _ | .fmulF64 _ t d a b _ | .fminF64 _ t d a b _ | .fmaxF64 _ t d a b _
  | .fdivF64 _ t d a b _ => [useD d t, useT .a a t, useT .b b t]
  | .frcpF64 _ t d a _ | .frsqF64 _ t d a _ | .fsqrtF64 _ t d a _ => [useD d t, useT .a a t]
  | .cvt _ d a m => [useD d m.dt, useT .a a m.st]
  | .dot2 _ d a b c m | .dot4 _ d a b c m =>
      [useD d .b32, ⟨.a, a, 1, false, .any, m.st.isSmallFloat⟩, ⟨.b, b, 1, false, .any, m.st.isSmallFloat⟩, useT .c c .b32]
  | .padd _ d a b _ | .pmax _ d a b _ | .pmin _ d a b _ => [useD d .b32, useT .a a .b32] ++ useS .b b .b32
  | .pack _ d a b _ => [useD d .b32, useT .a a .b32, useT .b b .b32]
  | .unpack _ d a m => [useD d .b32, ⟨.a, a, 1, false, .any, m.st.isSmallFloat⟩]
  | .seed _ a _ => useS .a a .n32
  | .vote _ d a mode psrc _ _ =>
      useK .d d (match mode with | .ballot | .member => .quad | .any | .all => .s) :: (if psrc then [] else [useT .a a .n32])
  | .shfl _ t d a b _ _ => [useD d t, useT .a a t] ++ useS .b b .n32
  | .bcast _ t d a _ => [useK .d d .v t.is64, useT .a a t]
  | .scan _ t d a _ _ _ | .fold _ t d a _ _ => [useD d t, useT .a a t]
  | .bra _ _ c => c.uses .a
  | .brx _ a c | .ret _ a c => (if c.u then useK .a a .uniform else useT .a a .n32) :: c.uses .b
  | .call _ d _ c => useK .d d (if c.u then .s else .v) :: c.uses .a
  | .exit _ => []
  | .spawn _ a _ _ _ => [useT .a a .n32]
  | .meet _ a => [useK .a a .quad]
  | .xgrow _ | .xshrink _ => []
  | .fetchw _ a => [useT .a a .n32]
  | .launch _ d a b => [useK .d d .s, useK .a a .uniform true, useT .b b .n32]
  | .nop _ _ => []
  | .rqpop _ d => [useK .d d .quad]
  | .olfor _ d a _ => [useT .d d .b32, useT .a a .b32]
  | .olnext _ => []
  | .olpostMill _ a b _ | .olpostPort _ a b _ | .olpostRec _ a b => [useT .a a .b32, useT .b b .b32]
  | .olpermit _ _ a => useS .a a .b32
  | .ld _ d a m e => [useMemD d m.ty (vecCount m.vec), useAddr a m] ++ e.uses d.isS
  | .st _ a b m e =>
      [useAddr a m, ⟨.b, b, (if m.ty.is64 then 2 else 1) * vecCount m.vec, m.ty.is64, .any, false⟩] ++ e.uses false
  | .pref _ a m _ => [useAddr a m]
  | .cflush _ a b _ | .cinval _ a b _ => [useK .a a .uniform true, useK .b b .uniform]
  | .atom _ d a b m e =>
      [if m.nr then useK .d d .zero else useMemD d m.ty 1, useAddr a m, useT .b b m.ty] ++ e.uses d.isS
  | .atomcas _ d a b c m _ se sd => [useMemD d m.ty 1, useAddr a m, useT .b b m.ty, useT .c c m.ty] ++ useSd se sd d.isS
  | .fence _ _ _ | .xfence _ _ _ => []
  | .mload _ _ d a nh | .mrun _ _ d a nh | .mepi _ _ d a nh | .mdelta _ _ d a nh => useH d nh :: useU .a a
  | .mswap _ d nh | .mchainLink _ d nh _ | .mchainUnlink _ d nh | .maccz _ d nh _ => [useH d nh]
  | .mchainJoin _ d a nh => [useH d nh, useK .a a .uniform]
  | .maccrd _ d a _ _ => [useK .d d .v false 4, useK .a a .uniform]
  | .slotbind _ d a | .slotdrop _ d a => useK .d d .s :: useU .a a
  | .slotq _ d a => useK .d d .quad :: useU .a a
  | .lseal _ d a b _ => [useK .d d .s, useK .a a .uniform, useK .b b .uniform]
  | .tcopy _ d a nh _ | .a2av _ d a nh _ => useH d nh :: useU .a a
  | .bseal _ d a record => useK .d d .s :: (if record then useU .a a else [])
  | .bwait _ a => useU .a a
  | .cntRd _ d a _ _ => [useCntD d false, useK .a a .uniform]
  | .cntAdd _ d a b nr _ _ | .cntSet _ d a b nr _ _ => [useCntD d nr, useK .a a .uniform] ++ useU .b b true
  | .cntwait _ d a b _ _ _ => [useCntD d false, useK .a a .uniform] ++ useU .b b true
  | .trigTcopy _ d a b c _ _ | .trigA2av _ d a b c _ _ | .trigAdd _ d a b c _ _ =>
      [useK .d d .s, useK .a a .uniform, useK .b b .uniform true, useK .c c .uniform]
  | .trigCancel _ d a => [useK .d d .s, useK .a a .uniform]
  | .ftest _ d a | .fwait _ d a | .fcancel _ d a => [useK .d d .s, useK .a a .uniform]
  | .trap _ _ | .eret _ => []
  | .sysrd _ d a => useK .d d .s true :: useU .a a
  | .syswr _ a b => useU .a a ++ [useK .b b .uniform true]
  | .segwr _ d a b _ => [useK .d d .s, useK .a a .uniform true, useK .b b .uniform true]
  | .rngwr _ d a _ _ => [useK .d d .s, useK .a a .uniform]
  | .rngwrClr _ d _ _ => [useK .d d .s]
  | .tcinvRange _ d a b _ => [useK .d d .s, useK .a a .uniform true, useK .b b .uniform]
  | .tcinvRegion _ d a _ => [useK .d d .s, useK .a a .uniform true]
  | .tcinvCtx _ d _ | .tcinvRank _ d _ => [useK .d d .s]
  | .mspill _ d a | .mfill _ d a => [useK .d d .s, useK .a a .uniform true]
  | _ => []

/-- Check 6 of 02 R41 without the window: every used field obeys R28 to R31. -/
def Instr.operandsOk (i : Instr) : Bool := i.uses.all Use.ok

/-- The same check in Outrider code: a register index names o0 to o15, and a source may be an inline constant (06 R137); the condition
register of a branch without condition is zero (06 R122). -/
def Instr.outriderOperandsOk (i : Instr) : Bool :=
  i.uses.all fun u => match u.o with
    | .v n => decide (n < 16) && (u.kind != .zero || n == 0)
    | .const k => u.kind != .zero && (u.fld == .a || u.fld == .b) && decide (-8 ≤ k ∧ k ≤ 23)
    | _ => false

/-- The same of a word whose mnemonic the Outrider has in no form: every register field still names o0 to o15 or an inline constant (log 106). -/
def Instr.outriderIndicesOk (i : Instr) : Bool :=
  i.uses.all fun u => match u.o with
    | .v n => decide (n < 16) && (u.kind != .zero || n == 0)
    | .const k => u.kind != .zero && u.fld != .d && decide (-8 ≤ k ∧ k ≤ 23)
    | _ => false

/-- A destination that makes a form gang-wide whatever its sources are: an s register, or a special register held per gang,
crew, party or context (03 R51). -/
def Opnd.gangDst : Opnd → Bool
  | .s _ => true
  | .special .gstat | .special .prio | .special .emu | .special .route => true
  | _ => false

/-- A form with destination `d` is gang-wide by 03 R51; `uni` says that every source is uniform, for a write of `$exec`. -/
def gangForm (d : Opnd) (uni : Bool) : Bool := d.gangDst || (d == .special .exec && uni)

/-- Gang-wide forms (02 R33, 03 R51, 04 R73): they take effect once whatever `$exec` holds, and they take no guard. -/
def Instr.gangWide : Instr → Bool
  | .iadd _ _ d a b m | .isub _ _ d a b m => gangForm d (a.isUniform && b.isUniform && !m.cin)
  | .imul _ _ d a b _ _ => gangForm d (a.isUniform && b.isUniform)
  | .imulhi _ _ d a b | .idiv _ _ d a b | .irem _ _ d a b | .imin _ _ d a b | .imax _ _ d a b | .and _ _ d a b | .or _ _ d a b
  | .xor _ _ d a b | .rotl _ _ d a b => gangForm d (a.isUniform && b.isUniform)
  | .imad _ _ d a b c _ _ => gangForm d (a.isUniform && b.isUniform && c.isUniform)
  | .iabs _ _ d a _ | .ineg _ _ d a _ => gangForm d a.isUniform
  | .isad _ _ d a b c _ | .lop3 _ _ d a b c _ => gangForm d (a.isUniform && b.isUniform && c.isUniform)
  | .mov _ _ d a => gangForm d a.isUniform
  | .sel _ _ d _ _ _ _ => d.gangDst
  | .not _ _ d a | .popc _ _ d a | .clz _ _ d a | .brev _ _ d a => gangForm d a.isUniform
  | .shl _ _ d a b _ | .shr _ _ d a b _ | .sar _ _ d a b _ | .lea _ _ d a b _ => gangForm d (a.isUniform && b.isUniform)
  | .bfe _ _ d a f => gangForm d (a.isUniform && (match f with | .reg p => p.isUniform | .imm _ _ => true))
  | .bfi _ _ d a b f => gangForm d (a.isUniform && b.isUniform && (match f with | .reg p => p.isUniform | .imm _ _ => true))
  | .cmp _ _ a b _ p | .fcmp _ _ a b _ p => p.set && gangForm p.d (a.isUniform && b.isUniform)
  | .ppop _ _ set d => set && d.gangDst
  | .fadd _ _ d a b _ | .fsub _ _ d a b _ | .fmul _ _ d a b _ | .fmin _ _ d a b _ | .fmax _ _ d a b _ | .fdiv _ _ d a b _ =>
      gangForm d (a.isUniform && b.isUniform)
  | .ffma _ _ d a b c _ | .ffmaF64 _ _ d a b c _ => gangForm d (a.isUniform && b.isUniform && c.isUniform)
  | .frcp _ _ d a _ | .frsq _ _ d a _ | .fsqrt _ _ d a _ | .fexp2 _ _ d a _ | .flog2 _ _ d a _ | .fsin _ _ d a _ | .fcos _ _ d a _
  | .frcpF64 _ _ d a _ | .frsqF64 _ _ d a _ | .fsqrtF64 _ _ d a _ => gangForm d a.isUniform
  | .faddF64 _ _ d a b _ | .fsubF64 _ _ d a b _ | .fmulF64 _ _ d a b _ | .fminF64 _ _ d a b _ | .fmaxF64 _ _ d a b _
  | .fdivF64 _ _ d a b _ => gangForm d (a.isUniform && b.isUniform)
  | .cvt _ d a _ | .unpack _ d a _ => gangForm d a.isUniform
  | .dot2 _ d a b c _ | .dot4 _ d a b c _ => gangForm d (a.isUniform && b.isUniform && c.isUniform)
  | .padd _ d a b _ | .pmax _ d a b _ | .pmin _ d a b _ => gangForm d (a.isUniform && b.isUniform)
  | .pack _ d a b _ => gangForm d (a.isUniform && b.isUniform && d.isUniform)   -- it reads D (05 R117; log 10)
  | .vote _ _ _ _ _ _ _ => true
  | .shfl _ _ d a b _ _ => gangForm d (a.isUniform && b.isUniform)
  | .scan _ _ d a _ _ _ | .fold _ _ d a _ _ => gangForm d a.isUniform
  | .bra _ _ c | .brx _ _ c | .call _ _ _ c | .ret _ _ c => c.u
  | .fetchw _ _ | .launch _ _ _ _ | .rqpop _ _ => true
  | .olfor _ _ _ _ | .olnext _ | .olpostMill _ _ _ _ | .olpostPort _ _ _ _ | .olpostRec _ _ _ | .olpermit _ _ _ => true
  | .ld _ d _ _ _ => d.isS
  | .atom _ d _ _ _ _ => d.isS
  | .atomcas _ d _ _ _ _ _ _ _ => d.isS
  | .cflush _ _ _ _ | .cinval _ _ _ _ | .fence _ _ _ | .xfence _ _ _ => true
  | .mload _ _ _ _ _ | .mswap _ _ _ | .mrun _ _ _ _ _ | .mchainLink _ _ _ _ | .mchainJoin _ _ _ _ | .mchainUnlink _ _ _
  | .mepi _ _ _ _ _ | .maccz _ _ _ _ | .maccrd _ _ _ _ _ | .mdelta _ _ _ _ _ | .slotbind _ _ _ | .slotdrop _ _ _
  | .slotq _ _ _ | .lseal _ _ _ _ _ | .tcopy _ _ _ _ _ | .a2av _ _ _ _ _ | .bseal _ _ _ _ | .bwait _ _ => true
  | .cntRd _ _ _ _ _ | .cntAdd _ _ _ _ _ _ _ | .cntSet _ _ _ _ _ _ _ | .cntwait _ _ _ _ _ _ _ | .trigTcopy _ _ _ _ _ _ _
  | .trigA2av _ _ _ _ _ _ _ | .trigAdd _ _ _ _ _ _ _ | .trigCancel _ _ _ | .ftest _ _ _ | .fwait _ _ _ | .fcancel _ _ _ => true
  | .trap _ _ | .sysrd _ _ _ | .eret _ | .syswr _ _ _ | .segwr _ _ _ _ _ | .rngwr _ _ _ _ _ | .rngwrClr _ _ _ _
  | .tcinvRange _ _ _ _ _ | .tcinvRegion _ _ _ _ | .tcinvCtx _ _ _ | .tcinvRank _ _ _ | .mspill _ _ _ | .mfill _ _ _ => true
  | _ => false

/-- The head of an instruction word; events have none and answer the empty head. -/
def Instr.head : Instr → Head
  | .iadd h _ _ _ _ _ | .isub h _ _ _ _ _ | .imul h _ _ _ _ _ _ | .imulhi h _ _ _ _ | .imad h _ _ _ _ _ _ _ | .idiv h _ _ _ _ => h
  | .irem h _ _ _ _ | .imin h _ _ _ _ | .imax h _ _ _ _ | .iabs h _ _ _ _ | .ineg h _ _ _ _ | .isad h _ _ _ _ _ _ => h
  | .mov h _ _ _ | .sel h _ _ _ _ _ _ | .and h _ _ _ _ | .or h _ _ _ _ | .xor h _ _ _ _ | .not h _ _ _ => h
  | .shl h _ _ _ _ _ | .shr h _ _ _ _ _ | .sar h _ _ _ _ _ | .rotl h _ _ _ _ | .popc h _ _ _ | .clz h _ _ _ => h
  | .brev h _ _ _ | .bfe h _ _ _ _ | .bfi h _ _ _ _ _ | .lea h _ _ _ _ _ | .lop3 h _ _ _ _ _ _ | .cmp h _ _ _ _ _ => h
  | .fcmp h _ _ _ _ _ | .ppush h _ | .ppop h _ _ _ | .pmov h _ _ | .pset h _ _ | .plop h _ _ _ _ => h
  | .fadd h _ _ _ _ _ | .fsub h _ _ _ _ _ | .fmul h _ _ _ _ _ | .ffma h _ _ _ _ _ _ | .fmin h _ _ _ _ _ | .fmax h _ _ _ _ _ => h
  | .fdiv h _ _ _ _ _ | .frcp h _ _ _ _ | .frsq h _ _ _ _ | .fsqrt h _ _ _ _ | .fexp2 h _ _ _ _ | .flog2 h _ _ _ _ => h
  | .fsin h _ _ _ _ | .fcos h _ _ _ _ | .faddF64 h _ _ _ _ _ | .fsubF64 h _ _ _ _ _ | .fmulF64 h _ _ _ _ _ | .ffmaF64 h _ _ _ _ _ _ => h
  | .fminF64 h _ _ _ _ _ | .fmaxF64 h _ _ _ _ _ | .fdivF64 h _ _ _ _ _ | .frcpF64 h _ _ _ _ | .frsqF64 h _ _ _ _ | .fsqrtF64 h _ _ _ _ => h
  | .cvt h _ _ _ | .dot2 h _ _ _ _ _ | .dot4 h _ _ _ _ _ | .padd h _ _ _ _ | .pmax h _ _ _ _ | .pmin h _ _ _ _ => h
  | .pack h _ _ _ _ | .unpack h _ _ _ | .seed h _ _ | .vote h _ _ _ _ _ _ | .shfl h _ _ _ _ _ _ | .bcast h _ _ _ _ => h
  | .scan h _ _ _ _ _ _ | .fold h _ _ _ _ _ | .bra h _ _ | .brx h _ _ | .call h _ _ _ | .ret h _ _ => h
  | .exit h | .spawn h _ _ _ _ | .meet h _ | .xgrow h | .xshrink h | .fetchw h _ => h
  | .launch h _ _ _ | .nop h _ | .rqpop h _ | .olfor h _ _ _ | .olnext h | .olpostMill h _ _ _ => h
  | .olpostPort h _ _ _ | .olpostRec h _ _ | .olpermit h _ _ | .ld h _ _ _ _ | .st h _ _ _ _ | .pref h _ _ _ => h
  | .cflush h _ _ _ | .cinval h _ _ _ | .atom h _ _ _ _ _ | .atomcas h _ _ _ _ _ _ _ _ | .fence h _ _ | .xfence h _ _ => h
  | .mload h _ _ _ _ | .mswap h _ _ | .mrun h _ _ _ _ | .mchainLink h _ _ _ | .mchainJoin h _ _ _ | .mchainUnlink h _ _ => h
  | .mepi h _ _ _ _ | .maccz h _ _ _ | .maccrd h _ _ _ _ | .mdelta h _ _ _ _ | .slotbind h _ _ | .slotdrop h _ _ => h
  | .slotq h _ _ | .lseal h _ _ _ _ | .tcopy h _ _ _ _ | .a2av h _ _ _ _ | .bseal h _ _ _ | .bwait h _ => h
  | .cntRd h _ _ _ _ | .cntAdd h _ _ _ _ _ _ | .cntSet h _ _ _ _ _ _ | .cntwait h _ _ _ _ _ _ | .trigTcopy h _ _ _ _ _ _ | .trigA2av h _ _ _ _ _ _ => h
  | .trigAdd h _ _ _ _ _ _ | .trigCancel h _ _ | .ftest h _ _ | .fwait h _ _ | .fcancel h _ _ | .trap h _ => h
  | .sysrd h _ _ | .eret h | .syswr h _ _ | .segwr h _ _ _ _ | .rngwr h _ _ _ _ | .rngwrClr h _ _ _ => h
  | .tcinvRange h _ _ _ _ | .tcinvRegion h _ _ _ | .tcinvCtx h _ _ | .tcinvRank h _ _ | .mspill h _ _ | .mfill h _ _ => h
  | _ => {}

/-- Rounding fields other than `.sr` (05 R103). -/
def Rnd.plain : Rnd → Bool
  | .rne | .rtz | .rdn | .rup => true
  | _ => false

def Ord.known : Ord → Bool
  | .rsv _ => false
  | _ => true

/-- The modifiers that `fadd`, `fsub`, `fmul`, `fdiv` accept (05 R110): NC and, for one source, NB and AB stay clear. -/
def FMod.ok (m : FMod) (rnd sat nc two : Bool) : Bool :=
  (m.rnd == .rne || (rnd && m.rnd.plain)) && (sat || !m.sat) && (nc || !m.nc) && (two || (!m.nb && !m.ab))

/-- A 96-bit float immediate: for f16 and bf16 bits [31:16] are zero (05 R108, 04 R90), and f64 has none (02 R25). -/
def Src.floatOk (x : Src) (t : Ty) : Bool :=
  match x with
  | .op _ => true
  | .imm w => match t with
    | .f64 => false
    | .f16 | .bf16 => decide (w.toNat < 65536)
    | _ => true

/-- Types `cvt` accepts (05 R115). -/
def Ty.cvtOk (t : Ty) : Bool := t.isInt || t.isFloat || (match t with | .e4m3 | .e5m2 | .e2m1 | .e8m0 => true | _ => false)
def Ty.isCvtFloat (t : Ty) : Bool := t.cvtOk && !t.isInt
/-- Pairs that `.sr` accepts (05 R103). -/
def srPair (dt st : Ty) : Bool :=
  st.isFloat && (match dt with | .f16 | .bf16 | .e4m3 | .e5m2 | .e2m1 => true | _ => false) && dt != st

/-- The fields of `cvt` (05 R115, R116). -/
def CvtMod.cvtOk (m : CvtMod) : Bool :=
  m.dt.cvtOk && m.st.cvtOk && m.elem == 0 &&
  (if m.dt.isInt then
     if m.st.isInt then m.rnd == .rne else m.rnd.plain && !m.sat
   else m.rnd.plain || (m.rnd == .sr && srPair m.dt m.st))

/-- The result and source types of `dot2` and `dot4` (05 R115). -/
def CvtMod.dotOk (m : CvtMod) (four : Bool) : Bool :=
  m.elem == 0 &&
  match m.dt with
  | .f32 => m.rnd.plain && !m.sat && (if four then m.st == .e4m3 || m.st == .e5m2 else m.st == .f16 || m.st == .bf16)
  | .i32 => m.rnd == .rne && m.st == (if four then .i8 else .i16)
  | .n32 => m.rnd == .rne && m.st == (if four then .n8 else .n16)
  | _ => false

def CvtMod.packedTy (m : CvtMod) : Bool :=
  m.st == .b8 && (match m.dt with | .f16 | .bf16 | .i16 | .n16 => true | _ => false)

/-- `padd` (05 R115). -/
def CvtMod.paddOk (m : CvtMod) : Bool :=
  m.packedTy && m.elem == 0 && (if m.dt.isInt then m.rnd == .rne else m.rnd.plain && !m.sat)
/-- `pmax` and `pmin`: DEC is bit 14, the low bit of the element field (05 R115). -/
def CvtMod.pminOk (m : CvtMod) : Bool := m.packedTy && decide (m.elem ≤ 1) && m.rnd == .rne && !m.sat
/-- `pack` (05 R115, R117). -/
def CvtMod.packOk (m : CvtMod) : Bool :=
  m.st == .f32 &&
  (match m.dt with
   | .f16 | .bf16 => m.elem == 0
   | .e4m3 | .e5m2 => decide (m.elem ≤ 1)
   | .e2m1 => decide (m.elem ≤ 3)
   | _ => false) &&
  (m.rnd.plain || (m.rnd == .sr && srPair m.dt m.st))
/-- `unpack` (05 R115, R117): K below 32 / w. -/
def CvtMod.unpackOk (m : CvtMod) : Bool :=
  (match m.dt with
   | .f32 => (match m.st with | .f16 | .bf16 | .e4m3 | .e5m2 | .e2m1 => true | _ => false)
   | .i32 => m.st == .i8 || m.st == .i16
   | .n32 => m.st == .n8 || m.st == .n16
   | _ => false) &&
  decide (m.elem * m.st.width < 32) && m.rnd == .rne && !m.sat

/-- Operators, types and modifiers of `scan` and `fold` (04 R93). -/
def scanOk (t : Ty) (op : ScanOp) (sat : Bool) : Bool :=
  (match op with
   | .add | .min | .max => t == .i32 || t == .n32 || t == .i64 || t == .n64 || t == .f32 || t == .f64
   | .and | .or | .xor => t.isWideRaw
   | .rsv _ => false) && (!sat || (op == .add && t.isInt))

def bigInt (t : Ty) : Bool := t == .i32 || t == .n32 || t == .i64 || t == .n64

/-- The types each atomic operation accepts (10 R219). -/
def Aop.accepts : Aop → Ty → Bool
  | .add, t | .min, t | .max, t => bigInt t || t == .f32 || t == .f64
  | .sub, t => bigInt t
  | .and, t | .or, t | .xor, t => t.isWideRaw
  | .exch, t => t.isWideRaw || t == .f32 || t == .f64
  | .inc, t | .dec, t => t == .n32 || t == .n64
  | .rsv _, _ => false

/-- AOP, from bits [17:14] of X (10 R219). -/
def MemMod.aop (m : MemMod) : Aop :=
  match m.vec * 4 + m.cache with
  | 0 => .add | 1 => .sub | 2 => .min | 3 => .max | 4 => .and | 5 => .or | 6 => .xor | 7 => .exch | 8 => .inc | 9 => .dec
  | n => .rsv n

def Space.known : Space → Bool
  | .rsv _ => false
  | _ => true

/-- `ld` and `st` (10 R210). -/
def MemMod.ldstOk (m : MemMod) (load : Bool) : Bool :=
  m.ty.isRaw && m.sp.known && !m.nr && decide (m.cache ≤ 2) && decide (m.vec ≤ 2) &&
  (m.ord == .relaxed || m.ord == .sc || m.ord == (if load then .acq else .rel)) &&
  (m.ord != .relaxed || m.scope == .dev) &&
  (m.vec == 0 || (decide (32 ≤ m.ty.width) && m.ord == .relaxed))

def MemMod.atomOk (m : MemMod) : Bool :=
  m.sp.known && m.ord.known && m.aop.accepts m.ty && decide (m.cache ≤ 3) && !(m.sp == .f && m.ty.is64)

def MemMod.casOk (m : MemMod) : Bool :=
  m.sp.known && m.ord.known && m.ty.isWideRaw && !m.nr && m.vec == 0 && m.cache == 0 && !(m.sp == .f && m.ty.is64)

/-- SD is zero when SE = 0 (10 R209). -/
def MemExt.ok : MemExt → Bool
  | .wide _ se sd => se || sd == .v 0
  | _ => true

/-- Plane and activation formats (07 R147). -/
def Ty.isPlane : Ty → Bool
  | .f16 | .bf16 | .e4m3 | .e5m2 | .i8 | .mxe4m3 | .mxe2m1 | .f64 => true
  | _ => false
/-- Result formats of `mepi` (07 R147). -/
def Ty.isResult : Ty → Bool
  | .f32 | .f16 | .bf16 | .e4m3 | .e5m2 | .i8 | .i32 | .f64 | .mxe4m3 | .mxe2m1 => true
  | _ => false
/-- Input types of `mdelta` (11 R230). -/
def Ty.isDeltaIn : Ty → Bool
  | .f32 | .f16 | .bf16 | .e4m3 | .e5m2 => true
  | _ => false

/-- SCOPE is zero when ORD is relaxed (15 R338, R339). -/
def cntOrd (o : Ord) (sc : Scope) (allowed : List Ord) : Bool := allowed.contains o && (o != .relaxed || sc == .dev)

/-- Branch conditions (06 R122, R123): COND below 3, zero for a per-fibre form; IMM32 a multiple of 4. -/
def BrCond.ok (c : BrCond) : Bool := decide (c.cond ≤ 2) && (c.u || c.cond == 0)
def BrTarget.ok : BrTarget → Bool
  | .off _ => true
  | .imm w => w.toNat % 4 == 0

/-- Check 7 of 02 R41 for what the instruction says: types, modifier codes and the guard of a gang-wide form. Unassigned bits
are told by the encoder: a word with one set is not the encoding of its parse. -/
def Instr.modifiersOk (i : Instr) : Bool :=
  (match i.head.guard with | none => true | some g => !i.gangWide && decide (g.depth ≤ 7)) &&
  match i with
  | .iadd _ t _ _ _ m | .isub _ t _ _ _ m => t.isInt && !(m.sat && (m.cin || m.cout))
  | .imul _ t _ _ _ sat wide => t.isInt && !(sat && wide) && (!wide || t == .i32 || t == .n32)
  | .imulhi _ t _ _ _ | .idiv _ t _ _ _ | .irem _ t _ _ _ | .imin _ t _ _ _ | .imax _ t _ _ _ => t.isInt
  | .imad _ t _ _ _ _ _ wide => t.isInt && (!wide || t == .i32 || t == .n32)
  | .iabs _ t _ _ _ | .ineg _ t _ _ _ => t.isI
  | .isad _ t _ _ _ _ _ => t.isInt
  | .mov _ t _ _ => t.isRaw
  | .sel _ t _ _ _ depth _ => t.isRaw && decide (depth ≤ 15)
  | .and _ t _ _ _ | .or _ t _ _ _ | .xor _ t _ _ _ | .rotl _ t _ _ _ => t.isRaw
  | .not _ t _ _ | .popc _ t _ _ | .clz _ t _ _ | .brev _ t _ _ => t.isRaw
  | .shl _ t _ _ _ _ | .shr _ t _ _ _ _ | .sar _ t _ _ _ _ => t.isRaw
  | .bfe _ t _ _ f => t.isWideRaw && (match f with | .imm pos len => decide (pos ≤ 63) && decide (len ≤ 64) | .reg _ => true)
  | .bfi _ t _ _ _ f =>
      (t == .b32 || t == .b64) && (match f with | .imm pos len => decide (pos ≤ 63) && decide (len ≤ 64) | .reg _ => true)
  | .lea _ t _ _ _ sh => (t == .i32 || t == .n32 || t == .b64) && decide (sh ≤ 7)
  | .lop3 _ t _ _ _ _ tt => (t == .b32 || t == .b64) && decide (tt ≤ 255)
  | .cmp _ t _ _ cond p =>
      t.isRaw && (match cond with | .ord | .uno | .rsv _ => false | _ => true) && decide (p.comb ≤ 2) &&
      (!p.set || p.comb == 0) && (p.set || p.d == .v 0)
  | .fcmp _ t _ b cond p =>
      t.isFloat && b.floatOk t && (match cond with | .rsv _ => false | _ => true) && decide (p.comb ≤ 2) &&
      (!p.set || p.comb == 0) && (p.set || p.d == .v 0)
  | .ppush _ _ => true
  | .ppop _ n set d => decide (1 ≤ n ∧ n ≤ 16) && (set || d == .v 0)
  | .pmov _ k _ => decide (k ≤ 15)
  | .pset _ k _ => decide (k ≤ 15)
  | .plop _ x y tt _ => decide (x ≤ 15) && decide (y ≤ 15) && decide (tt ≤ 15)
  | .fadd _ t _ _ b m | .fsub _ t _ _ b m | .fmul _ t _ _ b m | .fdiv _ t _ _ b m =>
      t.isF3 && b.floatOk t && m.ok true true false true
  | .fmin _ t _ _ b m | .fmax _ t _ _ b m => t.isF3 && b.floatOk t && m.ok false false false true
  | .ffma _ t _ _ _ _ m => t.isF3 && m.ok true true true true
  | .frcp _ t _ _ m | .frsq _ t _ _ m | .fsqrt _ t _ _ m => t.isF3 && m.ok true true false false
  | .fexp2 _ t _ _ m | .flog2 _ t _ _ m | .fsin _ t _ _ m | .fcos _ t _ _ m => t.isF3 && m.ok false true false false
  | .faddF64 _ t _ _ _ m | .fsubF64 _ t _ _ _ m | .fmulF64 _ t _ _ _ m | .fdivF64 _ t _ _ _ m =>
      t == .f64 && m.ok true true false true
  | .fminF64 _ t _ _ _ m | .fmaxF64 _ t _ _ _ m => t == .f64 && m.ok false false false true
  | .ffmaF64 _ t _ _ _ _ m => t == .f64 && m.ok true true true true
  | .frcpF64 _ t _ _ m | .frsqF64 _ t _ _ m | .fsqrtF64 _ t _ _ m => t == .f64 && m.ok true true false false
  | .cvt _ _ _ m => m.cvtOk
  | .dot2 _ _ _ _ _ m => m.dotOk false
  | .dot4 _ _ _ _ _ m => m.dotOk true
  | .padd _ _ _ _ m => m.paddOk
  | .pmax _ _ _ _ m | .pmin _ _ _ _ m => m.pminOk
  | .pack _ _ _ _ m => m.packOk
  | .unpack _ _ _ m => m.unpackOk
  | .seed _ _ _ => true
  | .vote _ _ a _ psrc pdepth _ => decide (pdepth ≤ 15) && (!psrc || a == .v 0)
  | .shfl _ t _ _ _ _ seg => (t == .b32 || t == .b64) && decide (seg ≤ 5)
  | .bcast _ t _ _ _ => t == .b32 || t == .b64
  | .scan _ t _ _ op _ sat => scanOk t op sat
  | .fold _ t _ _ op sat => scanOk t op sat
  | .bra _ tgt c | .call _ _ tgt c => tgt.ok && c.ok
  | .brx _ _ c | .ret _ _ c => c.ok
  | .exit _ | .meet _ _ | .xgrow _ | .xshrink _ | .fetchw _ _ | .launch _ _ _ _ | .nop _ _ | .rqpop _ _ => true
  | .spawn _ _ entry tmo blk => entry.toNat % 4 == 0 && decide (tmo ≤ 15) && decide (blk ≤ 5)
  | .olfor h _ _ _ | .olnext h | .olpostRec h _ _ => !h.w
  | .olpostMill h _ _ op | .olpostPort h _ _ op => !h.w && decide (op < 1024)
  | .olpermit h _ _ => !h.w
  | .ld _ _ _ m e => m.ldstOk true && e.ok
  | .st _ _ _ m e => m.ldstOk false && e.ok
  | .pref _ _ m _ =>
      m.ty == .b8 && m.ord == .relaxed && m.scope == .dev && !m.nr && m.vec == 0 && decide (m.cache ≤ 2) &&
      (m.sp == .g || m.sp == .k || m.sp == .f)
  | .cflush _ _ _ level | .cinval _ _ _ level => decide (level ≤ 2)
  | .atom _ _ _ _ m e => m.atomOk && e.ok
  | .atomcas _ _ _ _ _ m _ se sd => m.casOk && (se || sd == .v 0)
  | .fence _ ord _ => ord.known && ord != .relaxed
  | .xfence _ a b => (match a with | .ol | .rsv _ => false | _ => true) && (match b with | .rsv _ => false | _ => true)
  | .mload _ t _ _ _ | .mrun _ t _ _ _ => t.isPlane
  | .mepi _ t _ _ _ => t.isResult
  | .mdelta _ t _ _ _ => t.isDeltaIn
  | .mswap _ _ _ | .mchainJoin _ _ _ _ | .mchainUnlink _ _ _ => true
  | .mchainLink _ _ _ len => decide (1 ≤ len ∧ len ≤ 4)
  | .maccz _ _ _ mask => decide (1 ≤ mask ∧ mask ≤ 15)
  | .maccrd _ _ _ acc mem => decide (acc ≤ 3) && decide (mem ≤ 3)
  | .slotbind _ _ _ | .slotdrop _ _ _ | .slotq _ _ _ => true
  | .lseal _ _ _ _ _ | .tcopy _ _ _ _ _ | .a2av _ _ _ _ _ | .bwait _ _ => true
  | .bseal _ _ a record => record || (match a with | .op o => o == .v 0 | .imm w => w == 0)
  | .cntRd _ _ _ o sc => cntOrd o sc [.relaxed, .acq]
  | .cntAdd _ _ _ _ _ o sc => cntOrd o sc [.relaxed, .acq, .rel, .ar]
  | .cntSet _ _ _ _ _ o sc => cntOrd o sc [.relaxed, .rel]
  | .cntwait _ _ _ _ o sc tmo => cntOrd o sc [.relaxed, .acq] && decide (tmo ≤ 15)
  | .trigTcopy _ _ _ _ _ _ _ | .trigA2av _ _ _ _ _ _ _ | .trigAdd _ _ _ _ _ _ _ | .trigCancel _ _ _ => true
  | .ftest _ _ _ | .fwait _ _ _ | .fcancel _ _ _ => true
  | .trap _ code => decide (code ≤ 255)
  | .sysrd _ _ _ | .eret _ | .syswr _ _ _ | .mspill _ _ _ | .mfill _ _ _ => true
  | .segwr _ _ _ _ sp => sp.known
  | .rngwr _ _ _ idx ctx | .rngwrClr _ _ idx ctx => decide (idx ≤ 7) && decide (ctx ≤ 63)
  | .tcinvRange _ _ _ _ ctx | .tcinvRegion _ _ _ ctx | .tcinvCtx _ _ ctx | .tcinvRank _ _ ctx => decide (ctx ≤ 63)
  | _ => true

/-- The operand codes an instruction holds lie in the name space of 02 R28, so that it has an encoding. -/
def Opnd.inRange : Opnd → Bool
  | .v n => decide (n < 320)
  | .s n => decide (n < 64)
  | .special _ => true
  | .unassigned i => decide (425 ≤ i ∧ i ≤ 447)
  | .const k => decide (-8 ≤ k ∧ k ≤ 23)
  | .reserved i => decide (480 ≤ i ∧ i ≤ 511)

/-- Rows 0 to 143 of the opcode table: instruction words, not events. -/
def Instr.isWord : Instr → Bool
  | .illegalEncoding _ _ | .instructionFetch _ | .resultReturn _ | .gangMerge _ | .gangNumberGrant _ _ | .classAging _ _
  | .meetRelease _ _ | .xgrowGrant _ | .binTimerExpiry _ _ | .binRelease _ _ | .storeDrain _ _ | .remoteReply _ _
  | .remoteTimeout _ | .hold _ | .holdInterval _ | .holdExpired _ | .heraldDelivery _ | .engineQueueGrant _ _
  | .millCommandStart _ _ | .millCommandResolve _ _ | .chainLinkForms _ | .transferStart _ | .piecePlacement _ _ _
  | .transferRetire _ _ | .batchFinish _ _ | .handshake _ _ | .contribution _ _ | .final _ _ | .abortNotice _
  | .messageAcknowledgement _ _ | .collectiveAckTimeout _ _ _ | .countMessage _ _ | .offsetReply _ _ | .counterOperation _
  | .cntwaitTimeout _ _ | .launchRequest _ | .doorbell _ _ _ | .packetRead | .bufferListApplication _ | .unitPlacement _ _ _
  | .companyReservation _ _ _ | .fetchwAnswer _ | .partyRetirement _ | .launchCompletion _ | .inboundPacket _ | .walk _
  | .cachedRequest _ _ _ _ _ | .revocation _ _ _ _ | .revocationAcknowledgement _ _ _ _ | .replicaLock _ _ _ _ _
  | .replicaUnlock _ _ _ _ | .freplyResume _ | .freplyNack _ _ | .tableRead _ | .regionAttributeWrite _ | .windowWrite _
  | .contextEntryWrite _ | .replicaDescriptorWrite _ | .cmaccInstall _ | .cmaccRemove _ | .cmaccRead _ | .vwinWrite _
  | .nearcarveWrite _ _ | .ngrantWrite _ _ _ | .arenaWrite _ _ | .launchQueueDescriptorWrite _ _ _ _
  | .errorCounterClear _ _ _ | .pctlSuspend _ | .pctlRestore _ | .pctlEnd _ | .pctlAbortx _ | .ctxctlCreate _
  | .ctxctlRetire _ | .ctxctlSetrank _ | .uncorrectableError _ | .patrolScrub _ _ | .spareTakeover _ _
  | .companyRetirement _ _ _ _ | .deviceReset | .bootImageLoad _ _ _ | .linkStart _ _ _ _ _ _ _ | .linkDown _ _ | .laneLoss _ _
  | .diePairFailure _ _ | .flitTransmit _ _ _ | .flitReceive _ _ _ _ _ | .gatewayConversion _ _ _ _ | .hostRequest _
  | .negotiate | .extend | .powercap | .challenge _ | .unlock | .spdm | .nstatLostClear | .powerEstimate _ | .withdrawal _
  | .unknown | .fuseProgramming _ => false
  | _ => true

/-- Only the Outrider executes these (06 R137, R138). -/
def Instr.outriderOnly : Instr → Bool
  | .olfor _ _ _ _ | .olnext _ | .olpostMill _ _ _ _ | .olpostPort _ _ _ _ | .olpostRec _ _ _ | .olpermit _ _ _ => true
  | _ => false

/-- A well-formed instruction of a gang: a word whose fields obey checks 6 and 7 of 02 R41, the window left to the state. -/
def Instr.wf (i : Instr) : Bool := i.isWord && !i.outriderOnly && i.operandsOk && i.modifiersOk

/-- The forms the Outrider accepts and how (06 R137, R138); there is no predicate register for CIN and COUT, so these are no form of it (log 105). -/
def Instr.outriderForm : Instr → Bool
  | .mov h t _ _ => h.guard.isNone && !h.w && (t == .b64 || t == .i64 || t == .n64)
  | .iadd h t _ _ _ m | .isub h t _ _ _ m => h.guard.isNone && !h.w && (t == .i64 || t == .n64) && !m.cin && !m.cout
  | .imul h t _ _ _ _ wide => h.guard.isNone && !h.w && (t == .i64 || t == .n64) && !wide
  | .and h t _ _ _ | .or h t _ _ _ => h.guard.isNone && !h.w && (t == .b64 || t == .i64 || t == .n64)
  | .shl h t _ _ _ _ | .shr h t _ _ _ _ => h.guard.isNone && !h.w && (t == .b64 || t == .i64 || t == .n64)
  | .bra h _ c => h.guard.isNone && !h.w && c.u
  | .nop h _ | .exit h => h.guard.isNone && !h.w
  | .olfor _ _ _ e => e.toNat % 4 == 0
  | .olnext _ => true
  | .olpostMill _ _ _ op => decide (640 ≤ op ∧ op ≤ 646)
  | .olpostPort _ _ _ op => decide (op = 769 ∨ op = 770)
  | .olpostRec _ _ _ => true
  | .olpermit _ q _ => q != .bad
  | _ => false

/-- A well-formed instruction of the Outrider. -/
def Instr.wfOutrider (i : Instr) : Bool :=
  i.isWord && i.outriderOperandsOk && i.modifiersOk && i.outriderForm

end Sys2Proof
end

