-- ==== Sys2Proof/Decode.lean ====
section
/-!
DEFINITION. From instruction bits to `Instr` and back (02 R22 to R42). `Raw.ofNat` takes a word apart by R23; `parse` reads every
assigned opcode and length; `decode` makes the checks of R41 in their order and rejects by name; `Instr.raw` is the encoder,
written from the same tables, and a word with an unassigned bit set is told by not being the encoding of its own parse (R26).
-/

namespace Sys2Proof

/-! ### Bits and bytes -/

/-- `x[hi:lo]` (00 R5). -/
def bits (x hi lo : Nat) : Nat := x / 2 ^ lo % 2 ^ (hi + 1 - lo)
/-- `x[k]`. -/
def bit (x k : Nat) : Bool := x / 2 ^ k % 2 == 1
def b2n (b : Bool) : Nat := if b then 1 else 0

/-- The little-endian value of bytes (00 R6). -/
def leNat : List Byte → Nat
  | [] => 0
  | b :: bs => b.toNat + 256 * leNat bs

/-- The `n` little-endian bytes of a value (00 R6). -/
def leBytes : Nat → Nat → List Byte
  | 0, _ => []
  | n + 1, x => BitVec.ofNat 8 x :: leBytes n (x / 256)

/-- Take a word apart (02 R23): the 64 low bits, then IMM32 in a 96-bit word, or C and EXT in a 128-bit word. -/
def Raw.ofNat (n : Nat) : Raw :=
  { len := bits n 1 0, w := bits n 2 2, gn := bits n 3 3, gd := bits n 6 4, ge := bits n 7 7, op := bits n 17 8
    d := bits n 26 18, a := bits n 35 27, b := bits n 44 36, x := bits n 63 45
    imm := if bits n 1 0 = 2 then bits n 95 64 else 0
    c := if bits n 1 0 = 3 then bits n 72 64 else 0
    ext := if bits n 1 0 = 3 then bits n 127 73 else 0 }

/-- Put a word together (02 R23). -/
def Raw.toNat (r : Raw) : Nat :=
  r.len + r.w * 2 ^ 2 + r.gn * 2 ^ 3 + r.gd * 2 ^ 4 + r.ge * 2 ^ 7 + r.op * 2 ^ 8 + r.d * 2 ^ 18 + r.a * 2 ^ 27 + r.b * 2 ^ 36 +
    r.x * 2 ^ 45 + (if r.len = 2 then r.imm * 2 ^ 64 else if r.len = 3 then r.c * 2 ^ 64 + r.ext * 2 ^ 73 else 0)

/-- The length in bytes of a word by its LEN; an illegal LEN counts as 8 (02 R24). -/
def lenBytes : Nat → Nat
  | 2 => 12
  | 3 => 16
  | _ => 8

def Raw.bytes (r : Raw) : List Byte := leBytes (lenBytes r.len) r.toNat

/-! ### Codes -/

/-- Type codes (02 R27). -/
def Ty.ofCode : Nat → Ty
  | 0 => .b8 | 1 => .b16 | 2 => .b32 | 3 => .b64 | 4 => .i8 | 5 => .i16 | 6 => .i32 | 7 => .i64
  | 8 => .n8 | 9 => .n16 | 10 => .n32 | 11 => .n64 | 12 => .f16 | 13 => .bf16 | 14 => .f32 | 15 => .f64
  | 16 => .e4m3 | 17 => .e5m2 | 18 => .e2m1 | 19 => .e8m0 | 20 => .mxe4m3 | 21 => .mxe2m1
  | n => .rsv n

def Ty.code : Ty → Nat
  | .b8 => 0 | .b16 => 1 | .b32 => 2 | .b64 => 3 | .i8 => 4 | .i16 => 5 | .i32 => 6 | .i64 => 7
  | .n8 => 8 | .n16 => 9 | .n32 => 10 | .n64 => 11 | .f16 => 12 | .bf16 => 13 | .f32 => 14 | .f64 => 15
  | .e4m3 => 16 | .e5m2 => 17 | .e2m1 => 18 | .e8m0 => 19 | .mxe4m3 => 20 | .mxe2m1 => 21
  | .rsv n => n

/-- Special-register indices less 384 (03 R50). -/
def SReg.all : List SReg :=
  [.exec, .gslot, .pred, .pc, .win, .srs, .gstat, .prio, .fid, .cfid, .crew, .core, .comp, .die, .unitid, .nfib, .rank, .ctx,
   .clock, .emu, .xop, .xd, .xa, .xb, .xc, .ximm, .xpc, .route, .rngv,
   .baseS, .limS, .baseC, .limC, .baseN, .limN, .baseG, .limG, .baseK, .limK, .baseF, .limF]

def SReg.code : SReg → Nat
  | .exec => 0 | .gslot => 1 | .pred => 2 | .pc => 3 | .win => 4 | .srs => 5 | .gstat => 6 | .prio => 7 | .fid => 8 | .cfid => 9
  | .crew => 10 | .core => 11 | .comp => 12 | .die => 13 | .unitid => 14 | .nfib => 15 | .rank => 16 | .ctx => 17 | .clock => 18
  | .emu => 19 | .xop => 20 | .xd => 21 | .xa => 22 | .xb => 23 | .xc => 24 | .ximm => 25 | .xpc => 26 | .route => 27
  | .rngv => 28 | .baseS => 29 | .limS => 30 | .baseC => 31 | .limC => 32 | .baseN => 33 | .limN => 34 | .baseG => 35
  | .limG => 36 | .baseK => 37 | .limK => 38 | .baseF => 39 | .limF => 40

/-- The operand that an index of the 9-bit name space names (02 R28, 03 R50). -/
def Opnd.ofIdx (n : Nat) : Opnd :=
  if n < 320 then .v n
  else if n < 384 then .s (n - 320)
  else if n < 425 then .special (SReg.all.getD (n - 384) .exec)
  else if n < 448 then .unassigned n
  else if n < 480 then .const ((n : Int) - 456)
  else .reserved n

def Opnd.idx : Opnd → Nat
  | .v n => n
  | .s n => 320 + n
  | .special r => 384 + r.code
  | .unassigned n => n
  | .const k => (k + 456).toNat
  | .reserved n => n

/-- Condition codes (04 R89). -/
def Cond.ofCode : Nat → Cond
  | 0 => .eq | 1 => .ne | 2 => .lt | 3 => .le | 4 => .gt | 5 => .ge | 6 => .ord | 7 => .uno | n => .rsv n
def Cond.code : Cond → Nat
  | .eq => 0 | .ne => 1 | .lt => 2 | .le => 3 | .gt => 4 | .ge => 5 | .ord => 6 | .uno => 7 | .rsv n => n

/-- RND (05 R103). -/
def Rnd.ofCode : Nat → Rnd
  | 0 => .rne | 1 => .rtz | 2 => .rdn | 3 => .rup | 4 => .sr | n => .rsv n
def Rnd.code : Rnd → Nat
  | .rne => 0 | .rtz => 1 | .rdn => 2 | .rup => 3 | .sr => 4 | .rsv n => n

def VoteMode.ofCode : Nat → VoteMode
  | 0 => .ballot | 1 => .any | 2 => .all | _ => .member
def VoteMode.code : VoteMode → Nat
  | .ballot => 0 | .any => 1 | .all => 2 | .member => 3

def ShflMode.ofCode : Nat → ShflMode
  | 0 => .idx | 1 => .up | 2 => .down | _ => .xor
def ShflMode.code : ShflMode → Nat
  | .idx => 0 | .up => 1 | .down => 2 | .xor => 3

def ScanOp.ofCode : Nat → ScanOp
  | 0 => .add | 1 => .min | 2 => .max | 3 => .and | 4 => .or | 5 => .xor | n => .rsv n
def ScanOp.code : ScanOp → Nat
  | .add => 0 | .min => 1 | .max => 2 | .and => 3 | .or => 4 | .xor => 5 | .rsv n => n

/-- SCOPE, ORD and SPACE codes (10 R210). -/
def Scope.ofCode : Nat → Scope
  | 0 => .dev | 1 => .fib | 2 => .crew | 3 => .party | 4 => .comp | 5 => .pod | 6 => .clu | _ => .sys
def Scope.code : Scope → Nat
  | .dev => 0 | .fib => 1 | .crew => 2 | .party => 3 | .comp => 4 | .pod => 5 | .clu => 6 | .sys => 7

def Ord.ofCode : Nat → Ord
  | 0 => .relaxed | 1 => .acq | 2 => .rel | 3 => .ar | 4 => .sc | n => .rsv n
def Ord.code : Ord → Nat
  | .relaxed => 0 | .acq => 1 | .rel => 2 | .ar => 3 | .sc => 4 | .rsv n => n

def Space.ofCode : Nat → Space
  | 0 => .g | 1 => .s | 2 => .c | 3 => .n | 4 => .k | 5 => .f | x => .rsv x
def Space.code : Space → Nat
  | .g => 0 | .s => 1 | .c => 2 | .n => 3 | .k => 4 | .f => 5 | .rsv x => x

/-- Path classes (10 R225). -/
def PathClass.ofCode : Nat → PathClass
  | 0 => .core | 1 => .mill | 2 => .port | 3 => .ol | 4 => .fab | n => .rsv n
def PathClass.code : PathClass → Nat
  | .core => 0 | .mill => 1 | .port => 2 | .ol => 3 | .fab => 4 | .rsv n => n

def PostQ.ofCode : Nat → PostQ
  | 0 => .mill | 1 => .port | 2 => .record | _ => .bad
def PostQ.code : PostQ → Nat
  | .mill => 0 | .port => 1 | .record => 2 | .bad => 3

/-! ### Parts of a word -/

def Raw.head (r : Raw) : Head := ⟨r.w == 1, if r.ge = 1 then some ⟨r.gd, r.gn == 1⟩ else none⟩
def Raw.ty (r : Raw) : Ty := Ty.ofCode (bits r.x 4 0)
def Raw.oD (r : Raw) : Opnd := Opnd.ofIdx r.d
def Raw.oA (r : Raw) : Opnd := Opnd.ofIdx r.a
def Raw.oB (r : Raw) : Opnd := Opnd.ofIdx r.b
def Raw.oC (r : Raw) : Opnd := Opnd.ofIdx r.c
/-- The last source: IMM32 in a 96-bit word (04 R71). -/
def Raw.sA (r : Raw) : Src := if r.len = 2 then .imm (BitVec.ofNat 32 r.imm) else .op r.oA
def Raw.sB (r : Raw) : Src := if r.len = 2 then .imm (BitVec.ofNat 32 r.imm) else .op r.oB
/-- X fields of group 0x3 and 0x4 (05 R110). -/
def Raw.fmod (r : Raw) : FMod :=
  ⟨Rnd.ofCode (bits r.x 12 10), bit r.x 13, bit r.x 14, bit r.x 15, bit r.x 16, bit r.x 17, bit r.x 18⟩
/-- X fields of group 0x5 (05 R115). -/
def Raw.cvt (r : Raw) : CvtMod :=
  ⟨r.ty, Ty.ofCode (bits r.x 9 5), Rnd.ofCode (bits r.x 12 10), bit r.x 13, bits r.x 16 14⟩
/-- X of the memory forms (10 R210). -/
def Raw.mem (r : Raw) : MemMod :=
  ⟨r.ty, Space.ofCode (bits r.x 7 5), Ord.ofCode (bits r.x 10 8), Scope.ofCode (bits r.x 13 11), bits r.x 15 14, bits r.x 17 16,
   bit r.x 18⟩
/-- The offset and status fields of the memory forms (10 R209). -/
def Raw.mext (r : Raw) : MemExt :=
  if r.len = 1 then .short
  else if r.len = 2 then .imm (BitVec.ofNat 32 r.imm)
  else .wide (BitVec.ofNat 32 (bits r.ext 41 10)) (bit r.ext 9) (Opnd.ofIdx (bits r.ext 8 0))
def Raw.brTarget (r : Raw) : BrTarget :=
  if r.len = 2 then .imm (BitVec.ofNat 32 r.imm) else .off (BitVec.ofNat 16 (bits r.x 18 3))
def Raw.brCond (r : Raw) (o : Opnd) : BrCond := ⟨bit r.x 2, bits r.x 1 0, o⟩
def Raw.cmpDst (r : Raw) : CmpDst := ⟨bit r.x 9, bits r.x 11 10, r.oD⟩
def Raw.bitField (r : Raw) (p : Opnd) : BitField := if bit r.x 18 then .reg p else .imm (bits r.x 10 5) (bits r.x 17 11)
def Raw.ord (r : Raw) : Ord := Ord.ofCode (bits r.x 10 8)
def Raw.scope (r : Raw) : Scope := Scope.ofCode (bits r.x 13 11)

/-- A form and the lengths it accepts, as LEN codes (02 R25). -/
def Raw.accept (r : Raw) (lens : List Nat) (i : Instr) : Option Instr := if lens.contains r.len then some i else none

/-! ### The opcode map (02 R39), group by group -/

/-- Group 0x0 (04 R77). -/
def parseInteger (r : Raw) : Option Instr :=
  let h := r.head; let t := r.ty; let d := r.oD; let a := r.oA; let b := r.sB
  let addMod : AddMod := ⟨bit r.x 5, bit r.x 6, bit r.x 7⟩
  match r.op % 64 with
  | 0x00 => r.accept [1, 2] (.iadd h t d a b addMod)
  | 0x01 => r.accept [1, 2] (.isub h t d a b addMod)
  | 0x02 => r.accept [1, 2] (.imul h t d a b (bit r.x 5) (bit r.x 8))
  | 0x03 => r.accept [1, 2] (.imulhi h t d a b)
  | 0x04 => r.accept [3] (.imad h t d a r.oB r.oC (bit r.x 5) (bit r.x 8))
  | 0x05 => r.accept [1, 2] (.idiv h t d a b)
  | 0x06 => r.accept [1, 2] (.irem h t d a b)
  | 0x07 => r.accept [1, 2] (.imin h t d a b)
  | 0x08 => r.accept [1, 2] (.imax h t d a b)
  | 0x09 => r.accept [1] (.iabs h t d a (bit r.x 5))
  | 0x0A => r.accept [1] (.ineg h t d a (bit r.x 5))
  | 0x0B => r.accept [3] (.isad h t d a r.oB r.oC (bit r.x 5))
  | 0x0C => r.accept [1, 2] (.mov h t d r.sA)
  | 0x0D => r.accept [1, 2] (.sel h t d a b (bits r.x 8 5) (bit r.x 9))
  | _ => none

/-- Group 0x1 (04 R83). -/
def parseBits (r : Raw) : Option Instr :=
  let h := r.head; let t := r.ty; let d := r.oD; let a := r.oA; let b := r.sB
  match r.op % 64 with
  | 0x00 => r.accept [1, 2] (.and h t d a b)
  | 0x01 => r.accept [1, 2] (.or h t d a b)
  | 0x02 => r.accept [1, 2] (.xor h t d a b)
  | 0x03 => r.accept [1] (.not h t d a)
  | 0x04 => r.accept [1, 2] (.shl h t d a b (bit r.x 5))
  | 0x05 => r.accept [1, 2] (.shr h t d a b (bit r.x 5))
  | 0x06 => r.accept [1, 2] (.sar h t d a b (bit r.x 5))
  | 0x07 => r.accept [1, 2] (.rotl h t d a b)
  | 0x08 => r.accept [1] (.popc h t d a)
  | 0x09 => r.accept [1] (.clz h t d a)
  | 0x0A => r.accept [1] (.brev h t d a)
  | 0x0B => r.accept [1] (.bfe h t d a (r.bitField r.oB))
  | 0x0C => r.accept [1, 3] (.bfi h t d a r.oB (r.bitField r.oC))
  | 0x0D => r.accept [1, 2] (.lea h t d a b (bits r.x 7 5))
  | 0x0E => r.accept [3] (.lop3 h t d a r.oB r.oC (bits r.x 12 5))
  | _ => none

/-- Group 0x2 (04 R89). -/
def parsePred (r : Raw) : Option Instr :=
  let h := r.head; let a := r.oA
  match r.op % 64 with
  | 0x00 => r.accept [1, 2] (.cmp h r.ty a r.sB (Cond.ofCode (bits r.x 8 5)) r.cmpDst)
  | 0x01 => r.accept [1, 2] (.fcmp h r.ty a r.sB (Cond.ofCode (bits r.x 8 5)) r.cmpDst)
  | 0x02 => r.accept [1] (.ppush h a)
  | 0x03 => r.accept [1] (.ppop h (bits r.x 8 5 + 1) (bit r.x 9) r.oD)
  | 0x04 => r.accept [1] (.pmov h (bits r.x 8 5) (bit r.x 9))
  | 0x05 => r.accept [1] (.pset h (bits r.x 8 5) a)
  | 0x06 => r.accept [1] (.plop h (bits r.x 8 5) (bits r.x 12 9) (bits r.x 16 13) (bit r.x 17))
  | _ => none

/-- Group 0x3 (05 R110). -/
def parseFloat (r : Raw) : Option Instr :=
  let h := r.head; let t := r.ty; let d := r.oD; let a := r.oA; let b := r.sB; let m := r.fmod
  match r.op % 64 with
  | 0x00 => r.accept [1, 2] (.fadd h t d a b m)
  | 0x01 => r.accept [1, 2] (.fsub h t d a b m)
  | 0x02 => r.accept [1, 2] (.fmul h t d a b m)
  | 0x03 => r.accept [3] (.ffma h t d a r.oB r.oC m)
  | 0x04 => r.accept [1, 2] (.fmin h t d a b m)
  | 0x05 => r.accept [1, 2] (.fmax h t d a b m)
  | 0x06 => r.accept [1, 2] (.fdiv h t d a b m)
  | 0x07 => r.accept [1] (.frcp h t d a m)
  | 0x08 => r.accept [1] (.frsq h t d a m)
  | 0x09 => r.accept [1] (.fsqrt h t d a m)
  | 0x0A => r.accept [1] (.fexp2 h t d a m)
  | 0x0B => r.accept [1] (.flog2 h t d a m)
  | 0x0C => r.accept [1] (.fsin h t d a m)
  | 0x0D => r.accept [1] (.fcos h t d a m)
  | _ => none

/-- Group 0x4 (05 R110). -/
def parseDouble (r : Raw) : Option Instr :=
  let h := r.head; let t := r.ty; let d := r.oD; let a := r.oA; let b := r.oB; let m := r.fmod
  match r.op % 64 with
  | 0x00 => r.accept [1] (.faddF64 h t d a b m)
  | 0x01 => r.accept [1] (.fsubF64 h t d a b m)
  | 0x02 => r.accept [1] (.fmulF64 h t d a b m)
  | 0x03 => r.accept [3] (.ffmaF64 h t d a b r.oC m)
  | 0x04 => r.accept [1] (.fminF64 h t d a b m)
  | 0x05 => r.accept [1] (.fmaxF64 h t d a b m)
  | 0x06 => r.accept [1] (.fdivF64 h t d a b m)
  | 0x07 => r.accept [1] (.frcpF64 h t d a m)
  | 0x08 => r.accept [1] (.frsqF64 h t d a m)
  | 0x09 => r.accept [1] (.fsqrtF64 h t d a m)
  | _ => none

/-- Group 0x5 (05 R106, R115). -/
def parseConvert (r : Raw) : Option Instr :=
  let h := r.head; let d := r.oD; let a := r.oA; let m := r.cvt
  match r.op % 64 with
  | 0x00 => r.accept [1] (.cvt h d a m)
  | 0x01 => r.accept [3] (.dot2 h d a r.oB r.oC m)
  | 0x02 => r.accept [3] (.dot4 h d a r.oB r.oC m)
  | 0x03 => r.accept [1, 2] (.padd h d a r.sB m)
  | 0x04 => r.accept [1, 2] (.pmax h d a r.sB m)
  | 0x05 => r.accept [1, 2] (.pmin h d a r.sB m)
  | 0x06 => r.accept [1] (.pack h d a r.oB m)
  | 0x07 => r.accept [1] (.unpack h d a m)
  | 0x08 => r.accept [1, 2] (.seed h r.sA (bit r.x 5))
  | _ => none

/-- Group 0x6 (04 R93). -/
def parseCross (r : Raw) : Option Instr :=
  let h := r.head; let d := r.oD; let a := r.oA; let t := r.ty
  match r.op % 64 with
  | 0x00 => r.accept [1] (.vote h d a (VoteMode.ofCode (bits r.x 6 5)) (bit r.x 7) (bits r.x 11 8) (bit r.x 12))
  | 0x01 => r.accept [1, 2] (.shfl h t d a r.sB (ShflMode.ofCode (bits r.x 6 5)) (bits r.x 9 7))
  | 0x02 => r.accept [1] (.bcast h t d a (bit r.x 5))
  | 0x03 => r.accept [1] (.scan h t d a (ScanOp.ofCode (bits r.x 7 5)) (bit r.x 8) (bit r.x 9))
  | 0x04 => r.accept [1] (.fold h t d a (ScanOp.ofCode (bits r.x 7 5)) (bit r.x 9))
  | _ => none

/-- Group 0x7 (06 R121 to R138). -/
def parseControl (r : Raw) : Option Instr :=
  let h := r.head; let d := r.oD; let a := r.oA
  match r.op % 64 with
  | 0x00 => r.accept [1, 2] (.bra h r.brTarget (r.brCond a))
  | 0x01 => r.accept [1] (.brx h a (r.brCond r.oB))
  | 0x02 => r.accept [1, 2] (.call h d r.brTarget (r.brCond a))
  | 0x03 => r.accept [1] (.ret h a (r.brCond r.oB))
  | 0x04 => r.accept [1] (.exit h)
  | 0x05 => r.accept [2] (.spawn h a (BitVec.ofNat 32 r.imm) (bits r.x 8 5) (bits r.x 11 9))
  | 0x06 => r.accept [1] (.meet h a)
  | 0x07 => r.accept [1] (.xgrow h)
  | 0x08 => r.accept [1] (.xshrink h)
  | 0x09 => r.accept [1] (.fetchw h a)
  | 0x0A => r.accept [1] (.launch h d a r.oB)
  | 0x0B => r.accept [1, 2, 3] (.nop h (if r.len = 1 then .l64 else if r.len = 2 then .l96 else .l128))
  | 0x0C => r.accept [1] (.rqpop h d)
  | 0x10 => r.accept [2] (.olfor h d a (BitVec.ofNat 32 r.imm))
  | 0x11 => r.accept [1] (.olnext h)
  | 0x12 => r.accept [3] (match PostQ.ofCode (bits r.x 6 5) with
      | .port => .olpostPort h a r.oB (bits r.ext 9 0)
      | .record => .olpostRec h a r.oB
      | _ => .olpostMill h a r.oB (bits r.ext 9 0))
  | 0x13 => r.accept [1, 2] (.olpermit h (PostQ.ofCode (bits r.x 6 5)) r.sA)
  | _ => none

/-- Groups 0x8 and 0x9 (10 R209). -/
def parseMemory (r : Raw) : Option Instr :=
  let h := r.head; let d := r.oD; let a := r.oA; let b := r.oB; let m := r.mem
  match r.op % 64 with
  | 0x00 => r.accept [1, 2, 3] (.ld h d a m r.mext)
  | 0x01 => r.accept [1, 2, 3] (.st h a b m r.mext)
  | 0x02 => r.accept [1, 2] (.pref h a m (if r.len = 2 then some (BitVec.ofNat 32 r.imm) else none))
  | 0x03 => r.accept [1] (.cflush h a b (bits r.x 15 14))
  | 0x04 => r.accept [1] (.cinval h a b (bits r.x 15 14))
  | _ => none

def parseAtomic (r : Raw) : Option Instr :=
  let h := r.head; let d := r.oD; let a := r.oA; let b := r.oB; let m := r.mem
  match r.op % 64 with
  | 0x00 => r.accept [1, 2, 3] (.atom h d a b m r.mext)
  | 0x01 => r.accept [3] (.atomcas h d a b r.oC m (BitVec.ofNat 32 (bits r.ext 41 10)) (bit r.ext 9) (Opnd.ofIdx (bits r.ext 8 0)))
  | 0x02 => r.accept [1] (.fence h r.ord r.scope)
  | 0x03 => r.accept [1] (.xfence h (PathClass.ofCode (bits r.x 7 5)) (PathClass.ofCode (bits r.x 10 8)))
  | _ => none

/-- Group 0xA (07 R147, R156 to R159). Under the reserved MODE 3 the register fields of `mchain.link` count as used (DEDUCED, log 75). -/
def parseMill (r : Raw) : Option Instr :=
  let h := r.head; let d := r.oD; let t := r.ty; let nh := bit r.x 5
  match r.op % 64 with
  | 0x00 => r.accept [1, 2] (.mload h t d r.sA nh)
  | 0x01 => r.accept [1] (.mswap h d nh)
  | 0x02 => r.accept [1, 2] (.mrun h t d r.sA nh)
  | 0x03 => r.accept [1] (match bits r.x 7 6 with
      | 1 => .mchainJoin h d r.oA nh
      | 2 => .mchainUnlink h d nh
      | _ => .mchainLink h d nh (bits r.x 9 8 + 1))
  | 0x04 => r.accept [1, 2] (.mepi h t d r.sA nh)
  | 0x05 => r.accept [1] (.maccz h d nh (bits r.x 9 6))
  | 0x06 => r.accept [1] (.maccrd h d r.oA (bits r.x 6 5) (bits r.x 8 7))
  | _ => none

/-- Group 0xB (11 R230, R244). -/
def parseSlot (r : Raw) : Option Instr :=
  match r.op % 64 with
  | 0x00 => r.accept [1, 2] (.mdelta r.head r.ty r.oD r.sA (bit r.x 5))
  | 0x01 => r.accept [1, 2] (.slotbind r.head r.oD r.sA)
  | 0x02 => r.accept [1, 2] (.slotdrop r.head r.oD r.sA)
  | 0x03 => r.accept [1, 2] (.slotq r.head r.oD r.sA)
  | _ => none

/-- Group 0xC (13 R273). -/
def parsePorter (r : Raw) : Option Instr :=
  let h := r.head; let d := r.oD
  match r.op % 64 with
  | 0x00 => r.accept [1] (.lseal h d r.oA r.oB (bit r.x 5))
  | 0x01 => r.accept [1, 2] (.tcopy h d r.sA (bit r.x 5) (bit r.x 6))
  | 0x02 => r.accept [1, 2] (.a2av h d r.sA (bit r.x 5) (bit r.x 6))
  | 0x03 => r.accept [1, 2] (.bseal h d r.sA (bit r.x 5))
  | 0x04 => r.accept [1, 2] (.bwait h r.sA)
  | _ => none

/-- Group 0xD (15 R338 to R340, 07 R165). Under a reserved COP or KIND the register fields of `cnt.rd` or `trig.cancel` count as used (DEDUCED,
log 75). -/
def parseCounter (r : Raw) : Option Instr :=
  let h := r.head; let d := r.oD; let a := r.oA
  match r.op % 64 with
  | 0x00 => r.accept [1, 2] (match bits r.x 6 5 with
      | 1 => .cntAdd h d a r.sB (bit r.x 7) r.ord r.scope
      | 2 => .cntSet h d a r.sB (bit r.x 7) r.ord r.scope
      | _ => .cntRd h d a r.ord r.scope)
  | 0x01 => r.accept [3] (match bits r.x 7 5 with
      | 0 => .trigTcopy h d a r.oB r.oC (bit r.x 8) r.scope
      | 1 => .trigA2av h d a r.oB r.oC (bit r.x 8) r.scope
      | 2 => .trigAdd h d a r.oB r.oC r.scope (BitVec.ofNat 32 (bits r.ext 31 0))
      | _ => .trigCancel h d a)
  | 0x02 => r.accept [1, 2] (.cntwait h d a r.sB r.ord r.scope (bits r.x 17 14))
  | 0x03 => r.accept [1] (.ftest h d a)
  | 0x04 => r.accept [1] (.fwait h d a)
  | 0x05 => r.accept [1] (.fcancel h d a)
  | _ => none

/-- Group 0xE (16 R357, 14 R308, R313). -/
def parseSystem (r : Raw) : Option Instr :=
  let h := r.head; let d := r.oD; let a := r.oA
  match r.op % 64 with
  | 0x00 => r.accept [1] (.trap h (bits r.x 12 5))
  | 0x01 => r.accept [1, 2] (.sysrd h d r.sA)
  | 0x02 => r.accept [1] (.eret h)
  | 0x20 => r.accept [1, 2] (.syswr h r.sA r.oB)
  | 0x21 => r.accept [1] (.segwr h d a r.oB (Space.ofCode (bits r.x 7 5)))
  | 0x22 => r.accept [1] (if bit r.x 14 then .rngwrClr h d (bits r.x 7 5) (bits r.x 13 8)
      else .rngwr h d a (bits r.x 7 5) (bits r.x 13 8))
  | 0x23 => r.accept [1] (match bits r.x 6 5 with
      | 0 => .tcinvRange h d a r.oB (bits r.x 12 7)
      | 1 => .tcinvRegion h d a (bits r.x 12 7)
      | 2 => .tcinvCtx h d (bits r.x 12 7)
      | _ => .tcinvRank h d (bits r.x 12 7))
  | 0x24 => r.accept [1] (.mspill h d a)
  | 0x25 => r.accept [1] (.mfill h d a)
  | _ => none

/-- The opcode map of 02 R39: none for an unassigned opcode or a length it does not accept. -/
def parse (r : Raw) : Option Instr :=
  match r.op / 64 with
  | 0x0 => parseInteger r
  | 0x1 => parseBits r
  | 0x2 => parsePred r
  | 0x3 => parseFloat r
  | 0x4 => parseDouble r
  | 0x5 => parseConvert r
  | 0x6 => parseCross r
  | 0x7 => parseControl r
  | 0x8 => parseMemory r
  | 0x9 => parseAtomic r
  | 0xA => parseMill r
  | 0xB => parseSlot r
  | 0xC => parsePorter r
  | 0xD => parseCounter r
  | 0xE => parseSystem r
  | _ => none

/-! ### The encoder -/

/-- A word with its head and opcode; the other fields zero. -/
def enc (h : Head) (op len : Nat) : Raw :=
  { len := len, w := b2n h.w, gn := (match h.guard with | some g => b2n g.neg | none => 0)
    gd := (match h.guard with | some g => g.depth | none => 0), ge := b2n h.guard.isSome, op := op, d := 0, a := 0, b := 0, x := 0 }

def Src.len : Src → Nat
  | .op _ => 1
  | .imm _ => 2
def Src.fld : Src → Nat
  | .op o => o.idx
  | .imm _ => 0
def Src.immNat : Src → Nat
  | .op _ => 0
  | .imm w => w.toNat

/-- Two sources, the second of which may be IMM32. -/
def enc2 (h : Head) (op : Nat) (d a : Opnd) (b : Src) (x : Nat) : Raw :=
  { enc h op b.len with d := d.idx, a := a.idx, b := b.fld, x := x, imm := b.immNat }
/-- A destination and one source, which may be IMM32. -/
def enc1 (h : Head) (op : Nat) (d : Opnd) (a : Src) (x : Nat) : Raw :=
  { enc h op a.len with d := d.idx, a := a.fld, x := x, imm := a.immNat }
/-- Three register sources: a 128-bit word. -/
def enc3 (h : Head) (op : Nat) (d a b c : Opnd) (x : Nat) : Raw :=
  { enc h op 3 with d := d.idx, a := a.idx, b := b.idx, c := c.idx, x := x }
/-- A 64-bit word with the fields D, A, B. -/
def encR (h : Head) (op d a b x : Nat) : Raw := { enc h op 1 with d := d, a := a, b := b, x := x }

def FMod.bits (m : FMod) : Nat :=
  m.rnd.code * 2 ^ 10 + b2n m.sat * 2 ^ 13 + b2n m.na * 2 ^ 14 + b2n m.nb * 2 ^ 15 + b2n m.nc * 2 ^ 16 + b2n m.aa * 2 ^ 17 +
    b2n m.ab * 2 ^ 18
def CvtMod.bits (m : CvtMod) : Nat :=
  m.dt.code + m.st.code * 2 ^ 5 + m.rnd.code * 2 ^ 10 + b2n m.sat * 2 ^ 13 + m.elem * 2 ^ 14
def MemMod.bits (m : MemMod) : Nat :=
  m.ty.code + m.sp.code * 2 ^ 5 + m.ord.code * 2 ^ 8 + m.scope.code * 2 ^ 11 + m.cache * 2 ^ 14 + m.vec * 2 ^ 16 + b2n m.nr * 2 ^ 18
def AddMod.bits (m : AddMod) : Nat := b2n m.sat * 2 ^ 5 + b2n m.cin * 2 ^ 6 + b2n m.cout * 2 ^ 7
def CmpDst.bits (p : CmpDst) : Nat := b2n p.set * 2 ^ 9 + p.comb * 2 ^ 10
def BrCond.bits (c : BrCond) : Nat := c.cond + b2n c.u * 2 ^ 2
def BitField.bits : BitField → Nat
  | .imm pos len => pos * 2 ^ 5 + len * 2 ^ 11
  | .reg _ => 2 ^ 18
def memExt (off : Word) (se : Bool) (sd : Opnd) : Nat := sd.idx + b2n se * 2 ^ 9 + off.toNat * 2 ^ 10

/-- The offset of a memory form, in the field its length gives it (10 R209). -/
def encMem (h : Head) (op : Nat) (d a b : Nat) (m : MemMod) (e : MemExt) : Raw :=
  match e with
  | .short => { enc h op 1 with d := d, a := a, b := b, x := m.bits }
  | .imm w => { enc h op 2 with d := d, a := a, b := b, x := m.bits, imm := w.toNat }
  | .wide off se sd => { enc h op 3 with d := d, a := a, b := b, x := m.bits, ext := memExt off se sd }

/-- A branch: OFF in X of the 64-bit form, IMM32 in the 96-bit form (06 R121). -/
def encBr (h : Head) (op d a : Nat) (t : BrTarget) (c : BrCond) : Raw :=
  match t with
  | .off o => { enc h op 1 with d := d, a := a, x := c.bits + o.toNat * 2 ^ 3 }
  | .imm w => { enc h op 2 with d := d, a := a, x := c.bits, imm := w.toNat }

def cntBits (cop : Nat) (nr : Bool) (o : Ord) (sc : Scope) : Nat := cop * 2 ^ 5 + b2n nr * 2 ^ 7 + o.code * 2 ^ 8 + sc.code * 2 ^ 11

/-- The encoding of an instruction, from the tables of each form; an event has none and answers the word of all zeros. -/
def Instr.raw : Instr → Raw
  | .iadd h t d a b m => enc2 h 0x000 d a b (t.code + m.bits)
  | .isub h t d a b m => enc2 h 0x001 d a b (t.code + m.bits)
  | .imul h t d a b sat wide => enc2 h 0x002 d a b (t.code + b2n sat * 2 ^ 5 + b2n wide * 2 ^ 8)
  | .imulhi h t d a b => enc2 h 0x003 d a b t.code
  | .imad h t d a b c sat wide => enc3 h 0x004 d a b c (t.code + b2n sat * 2 ^ 5 + b2n wide * 2 ^ 8)
  | .idiv h t d a b => enc2 h 0x005 d a b t.code
  | .irem h t d a b => enc2 h 0x006 d a b t.code
  | .imin h t d a b => enc2 h 0x007 d a b t.code
  | .imax h t d a b => enc2 h 0x008 d a b t.code
  | .iabs h t d a sat => encR h 0x009 d.idx a.idx 0 (t.code + b2n sat * 2 ^ 5)
  | .ineg h t d a sat => encR h 0x00A d.idx a.idx 0 (t.code + b2n sat * 2 ^ 5)
  | .isad h t d a b c sat => enc3 h 0x00B d a b c (t.code + b2n sat * 2 ^ 5)
  | .mov h t d a => enc1 h 0x00C d a t.code
  | .sel h t d a b depth neg => enc2 h 0x00D d a b (t.code + depth * 2 ^ 5 + b2n neg * 2 ^ 9)
  | .and h t d a b => enc2 h 0x040 d a b t.code
  | .or h t d a b => enc2 h 0x041 d a b t.code
  | .xor h t d a b => enc2 h 0x042 d a b t.code
  | .not h t d a => encR h 0x043 d.idx a.idx 0 t.code
  | .shl h t d a b wrap => enc2 h 0x044 d a b (t.code + b2n wrap * 2 ^ 5)
  | .shr h t d a b wrap => enc2 h 0x045 d a b (t.code + b2n wrap * 2 ^ 5)
  | .sar h t d a b wrap => enc2 h 0x046 d a b (t.code + b2n wrap * 2 ^ 5)
  | .rotl h t d a b => enc2 h 0x047 d a b t.code
  | .popc h t d a => encR h 0x048 d.idx a.idx 0 t.code
  | .clz h t d a => encR h 0x049 d.idx a.idx 0 t.code
  | .brev h t d a => encR h 0x04A d.idx a.idx 0 t.code
  | .bfe h t d a f => encR h 0x04B d.idx a.idx (match f with | .reg p => p.idx | .imm _ _ => 0) (t.code + f.bits)
  | .bfi h t d a b f => (match f with
      | .reg p => enc3 h 0x04C d a b p (t.code + f.bits)
      | .imm _ _ => encR h 0x04C d.idx a.idx b.idx (t.code + f.bits))
  | .lea h t d a b sh => enc2 h 0x04D d a b (t.code + sh * 2 ^ 5)
  | .lop3 h t d a b c tt => enc3 h 0x04E d a b c (t.code + tt * 2 ^ 5)
  | .cmp h t a b cond p => enc2 h 0x080 p.d a b (t.code + cond.code * 2 ^ 5 + p.bits)
  | .fcmp h t a b cond p => enc2 h 0x081 p.d a b (t.code + cond.code * 2 ^ 5 + p.bits)
  | .ppush h a => encR h 0x082 0 a.idx 0 0
  | .ppop h n set d => encR h 0x083 d.idx 0 0 ((n - 1) * 2 ^ 5 + b2n set * 2 ^ 9)
  | .pmov h k neg => encR h 0x084 0 0 0 (k * 2 ^ 5 + b2n neg * 2 ^ 9)
  | .pset h k a => encR h 0x085 0 a.idx 0 (k * 2 ^ 5)
  | .plop h i j tt rep => encR h 0x086 0 0 0 (i * 2 ^ 5 + j * 2 ^ 9 + tt * 2 ^ 13 + b2n rep * 2 ^ 17)
  | .fadd h t d a b m => enc2 h 0x0C0 d a b (t.code + m.bits)
  | .fsub h t d a b m => enc2 h 0x0C1 d a b (t.code + m.bits)
  | .fmul h t d a b m => enc2 h 0x0C2 d a b (t.code + m.bits)
  | .ffma h t d a b c m => enc3 h 0x0C3 d a b c (t.code + m.bits)
  | .fmin h t d a b m => enc2 h 0x0C4 d a b (t.code + m.bits)
  | .fmax h t d a b m => enc2 h 0x0C5 d a b (t.code + m.bits)
  | .fdiv h t d a b m => enc2 h 0x0C6 d a b (t.code + m.bits)
  | .frcp h t d a m => encR h 0x0C7 d.idx a.idx 0 (t.code + m.bits)
  | .frsq h t d a m => encR h 0x0C8 d.idx a.idx 0 (t.code + m.bits)
  | .fsqrt h t d a m => encR h 0x0C9 d.idx a.idx 0 (t.code + m.bits)
  | .fexp2 h t d a m => encR h 0x0CA d.idx a.idx 0 (t.code + m.bits)
  | .flog2 h t d a m => encR h 0x0CB d.idx a.idx 0 (t.code + m.bits)
  | .fsin h t d a m => encR h 0x0CC d.idx a.idx 0 (t.code + m.bits)
  | .fcos h t d a m => encR h 0x0CD d.idx a.idx 0 (t.code + m.bits)
  | .faddF64 h t d a b m => encR h 0x100 d.idx a.idx b.idx (t.code + m.bits)
  | .fsubF64 h t d a b m => encR h 0x101 d.idx a.idx b.idx (t.code + m.bits)
  | .fmulF64 h t d a b m => encR h 0x102 d.idx a.idx b.idx (t.code + m.bits)
  | .ffmaF64 h t d a b c m => enc3 h 0x103 d a b c (t.code + m.bits)
  | .fminF64 h t d a b m => encR h 0x104 d.idx a.idx b.idx (t.code + m.bits)
  | .fmaxF64 h t d a b m => encR h 0x105 d.idx a.idx b.idx (t.code + m.bits)
  | .fdivF64 h t d a b m => encR h 0x106 d.idx a.idx b.idx (t.code + m.bits)
  | .frcpF64 h t d a m => encR h 0x107 d.idx a.idx 0 (t.code + m.bits)
  | .frsqF64 h t d a m => encR h 0x108 d.idx a.idx 0 (t.code + m.bits)
  | .fsqrtF64 h t d a m => encR h 0x109 d.idx a.idx 0 (t.code + m.bits)
  | .cvt h d a m => encR h 0x140 d.idx a.idx 0 m.bits
  | .dot2 h d a b c m => enc3 h 0x141 d a b c m.bits
  | .dot4 h d a b c m => enc3 h 0x142 d a b c m.bits
  | .padd h d a b m => enc2 h 0x143 d a b m.bits
  | .pmax h d a b m => enc2 h 0x144 d a b m.bits
  | .pmin h d a b m => enc2 h 0x145 d a b m.bits
  | .pack h d a b m => encR h 0x146 d.idx a.idx b.idx m.bits
  | .unpack h d a m => encR h 0x147 d.idx a.idx 0 m.bits
  | .seed h a mix => { enc h 0x148 a.len with a := a.fld, x := b2n mix * 2 ^ 5, imm := a.immNat }
  | .vote h d a mode psrc pdepth pneg =>
      encR h 0x180 d.idx a.idx 0 (mode.code * 2 ^ 5 + b2n psrc * 2 ^ 7 + pdepth * 2 ^ 8 + b2n pneg * 2 ^ 12)
  | .shfl h t d a b mode seg => enc2 h 0x181 d a b (t.code + mode.code * 2 ^ 5 + seg * 2 ^ 7)
  | .bcast h t d a last => encR h 0x182 d.idx a.idx 0 (t.code + b2n last * 2 ^ 5)
  | .scan h t d a op excl sat => encR h 0x183 d.idx a.idx 0 (t.code + op.code * 2 ^ 5 + b2n excl * 2 ^ 8 + b2n sat * 2 ^ 9)
  | .fold h t d a op sat => encR h 0x184 d.idx a.idx 0 (t.code + op.code * 2 ^ 5 + b2n sat * 2 ^ 9)
  | .bra h tgt c => encBr h 0x1C0 0 c.reg.idx tgt c
  | .brx h a c => encR h 0x1C1 0 a.idx c.reg.idx c.bits
  | .call h d tgt c => encBr h 0x1C2 d.idx c.reg.idx tgt c
  | .ret h a c => encR h 0x1C3 0 a.idx c.reg.idx c.bits
  | .exit h => encR h 0x1C4 0 0 0 0
  | .spawn h a entry tmo blk => { enc h 0x1C5 2 with a := a.idx, x := tmo * 2 ^ 5 + blk * 2 ^ 9, imm := entry.toNat }
  | .meet h a => encR h 0x1C6 0 a.idx 0 0
  | .xgrow h => encR h 0x1C7 0 0 0 0
  | .xshrink h => encR h 0x1C8 0 0 0 0
  | .fetchw h a => encR h 0x1C9 0 a.idx 0 0
  | .launch h d a b => encR h 0x1CA d.idx a.idx b.idx 0
  | .nop h len => enc h 0x1CB (match len with | .l64 => 1 | .l96 => 2 | .l128 => 3)
  | .rqpop h d => encR h 0x1CC d.idx 0 0 0
  | .olfor h d a ex => { enc h 0x1D0 2 with d := d.idx, a := a.idx, imm := ex.toNat }
  | .olnext h => encR h 0x1D1 0 0 0 0
  | .olpostMill h a b op => { enc h 0x1D2 3 with a := a.idx, b := b.idx, ext := op }
  | .olpostPort h a b op => { enc h 0x1D2 3 with a := a.idx, b := b.idx, x := 2 ^ 5, ext := op }
  | .olpostRec h a b => { enc h 0x1D2 3 with a := a.idx, b := b.idx, x := 2 * 2 ^ 5 }
  | .olpermit h q a => { enc h 0x1D3 a.len with a := a.fld, x := q.code * 2 ^ 5, imm := a.immNat }
  | .ld h d a m e => encMem h 0x200 d.idx a.idx 0 m e
  | .st h a b m e => encMem h 0x201 0 a.idx b.idx m e
  | .pref h a m off => encMem h 0x202 0 a.idx 0 m (match off with | some w => .imm w | none => .short)
  | .cflush h a b level => encR h 0x203 0 a.idx b.idx (level * 2 ^ 14)
  | .cinval h a b level => encR h 0x204 0 a.idx b.idx (level * 2 ^ 14)
  | .atom h d a b m e => encMem h 0x240 d.idx a.idx b.idx m e
  | .atomcas h d a b c m off se sd => { encMem h 0x241 d.idx a.idx b.idx m (.wide off se sd) with c := c.idx }
  | .fence h ord scope => encR h 0x242 0 0 0 (ord.code * 2 ^ 8 + scope.code * 2 ^ 11)
  | .xfence h a b => encR h 0x243 0 0 0 (a.code * 2 ^ 5 + b.code * 2 ^ 8)
  | .mload h t d a nh => enc1 h 0x280 d a (t.code + b2n nh * 2 ^ 5)
  | .mswap h d nh => encR h 0x281 d.idx 0 0 (b2n nh * 2 ^ 5)
  | .mrun h t d a nh => enc1 h 0x282 d a (t.code + b2n nh * 2 ^ 5)
  | .mchainLink h d nh len => encR h 0x283 d.idx 0 0 (b2n nh * 2 ^ 5 + (len - 1) * 2 ^ 8)
  | .mchainJoin h d a nh => encR h 0x283 d.idx a.idx 0 (b2n nh * 2 ^ 5 + 1 * 2 ^ 6)
  | .mchainUnlink h d nh => encR h 0x283 d.idx 0 0 (b2n nh * 2 ^ 5 + 2 * 2 ^ 6)
  | .mepi h t d a nh => enc1 h 0x284 d a (t.code + b2n nh * 2 ^ 5)
  | .maccz h d nh mask => encR h 0x285 d.idx 0 0 (b2n nh * 2 ^ 5 + mask * 2 ^ 6)
  | .maccrd h d a acc mem => encR h 0x286 d.idx a.idx 0 (acc * 2 ^ 5 + mem * 2 ^ 7)
  | .mdelta h t d a nh => enc1 h 0x2C0 d a (t.code + b2n nh * 2 ^ 5)
  | .slotbind h d a => enc1 h 0x2C1 d a 0
  | .slotdrop h d a => enc1 h 0x2C2 d a 0
  | .slotq h d a => enc1 h 0x2C3 d a 0
  | .lseal h d a b k => encR h 0x300 d.idx a.idx b.idx (b2n k * 2 ^ 5)
  | .tcopy h d a nh urg => enc1 h 0x301 d a (b2n nh * 2 ^ 5 + b2n urg * 2 ^ 6)
  | .a2av h d a nh urg => enc1 h 0x302 d a (b2n nh * 2 ^ 5 + b2n urg * 2 ^ 6)
  | .bseal h d a record => enc1 h 0x303 d a (b2n record * 2 ^ 5)
  | .bwait h a => { enc h 0x304 a.len with a := a.fld, imm := a.immNat }
  | .cntRd h d a o sc => encR h 0x340 d.idx a.idx 0 (cntBits 0 false o sc)
  | .cntAdd h d a b nr o sc => enc2 h 0x340 d a b (cntBits 1 nr o sc)
  | .cntSet h d a b nr o sc => enc2 h 0x340 d a b (cntBits 2 nr o sc)
  | .cntwait h d a b o sc tmo => enc2 h 0x342 d a b (cntBits 0 false o sc + tmo * 2 ^ 14)
  | .trigTcopy h d a b c urg sc => enc3 h 0x341 d a b c (b2n urg * 2 ^ 8 + sc.code * 2 ^ 11)
  | .trigA2av h d a b c urg sc => enc3 h 0x341 d a b c (1 * 2 ^ 5 + b2n urg * 2 ^ 8 + sc.code * 2 ^ 11)
  | .trigAdd h d a b c sc amount => { enc3 h 0x341 d a b c (2 * 2 ^ 5 + sc.code * 2 ^ 11) with ext := amount.toNat }
  | .trigCancel h d a => { enc h 0x341 3 with d := d.idx, a := a.idx, x := 3 * 2 ^ 5 }
  | .ftest h d a => encR h 0x343 d.idx a.idx 0 0
  | .fwait h d a => encR h 0x344 d.idx a.idx 0 0
  | .fcancel h d a => encR h 0x345 d.idx a.idx 0 0
  | .trap h code => encR h 0x380 0 0 0 (code * 2 ^ 5)
  | .sysrd h d a => enc1 h 0x381 d a 0
  | .eret h => encR h 0x382 0 0 0 0
  | .syswr h a b => { enc h 0x3A0 a.len with a := a.fld, b := b.idx, imm := a.immNat }
  | .segwr h d a b sp => encR h 0x3A1 d.idx a.idx b.idx (sp.code * 2 ^ 5)
  | .rngwr h d a idx ctx => encR h 0x3A2 d.idx a.idx 0 (idx * 2 ^ 5 + ctx * 2 ^ 8)
  | .rngwrClr h d idx ctx => encR h 0x3A2 d.idx 0 0 (idx * 2 ^ 5 + ctx * 2 ^ 8 + 2 ^ 14)
  | .tcinvRange h d a b ctx => encR h 0x3A3 d.idx a.idx b.idx (ctx * 2 ^ 7)
  | .tcinvRegion h d a ctx => encR h 0x3A3 d.idx a.idx 0 (1 * 2 ^ 5 + ctx * 2 ^ 7)
  | .tcinvCtx h d ctx => encR h 0x3A3 d.idx 0 0 (2 * 2 ^ 5 + ctx * 2 ^ 7)
  | .tcinvRank h d ctx => encR h 0x3A3 d.idx 0 0 (3 * 2 ^ 5 + ctx * 2 ^ 7)
  | .mspill h d a => encR h 0x3A4 d.idx a.idx 0 0
  | .mfill h d a => encR h 0x3A5 d.idx a.idx 0 0
  | _ => { len := 0, w := 0, gn := 0, gd := 0, ge := 0, op := 0, d := 0, a := 0, b := 0, x := 0 }

/-- The bytes of an instruction in memory (02 R22). -/
def encode (i : Instr) : List Byte := i.raw.bytes

/-! ### The checks of 02 R41 -/

/-- The outcome of decoding: an instruction; a rejection; or a breach of check 7, which the window part of check 6 still
precedes, so that the instruction is kept for it. -/
inductive Decoded
  | ok (i : Instr)
  | reject (c : Cause)
  | badMod (i : Instr)
  deriving DecidableEq, Repr

/-- Register fields that a form leaves unused and whose own rule still gives BAD_OPERAND: D, B and C of the memory forms (10 R211), a v register in
a field of a Mill, slot, Porter, counter, trigger or group 0xE form, and a D that must be zero (07 R147, 11 R230, R244, 13 R273, 15 R338 to R340,
16 R357). Index 0 is the empty field. Every other unused field is left to check 7 (02 R26). -/
def Raw.fieldsOk (r : Raw) : Bool :=
  let free := fun (x : Nat) => decide (x = 0 ∨ 320 ≤ x)
  if r.op = 0x200 then r.b == 0 && r.c == 0
  else if r.op = 0x201 then r.d == 0 && r.c == 0
  else if r.op = 0x240 then r.c == 0
  else if r.op = 0x280 ∨ r.op = 0x282 ∨ r.op = 0x284 ∨ r.op / 64 = 11 then free r.a
  else if r.op / 64 = 12 then free r.a && free r.b && (r.op != 0x304 || r.d == 0)
  else if r.op = 0x340 ∨ r.op = 0x341 ∨ r.op = 0x342 then free r.a && free r.b && free r.c
  else if r.op / 64 = 14 then free r.a && free r.b && free r.c && ((r.op != 0x380 && r.op != 0x382 && r.op != 0x3A0) || r.d == 0)
  else true

/-- Checks 2 to 7 of 02 R41 for a gang; `priv` says that it runs at level S. The window part of check 6 needs the fibres and is
made when the instruction issues. Check 8 never fails, since no register index is reserved to level S (03 R50). -/
def decode (priv : Bool) (r : Raw) : Decoded :=
  if r.len = 0 then .reject .illegalLen
  else if r.op / 64 = 15 then .reject .reservedGroup
  else if r.op / 64 = 14 ∧ bit r.op 5 ∧ !priv then .reject .priv
  else match parse r with
    | none => .reject .unassignedOp
    | some i =>
      if i.outriderOnly then .reject .unassignedOp
      else if !(i.operandsOk && r.fieldsOk) then .reject .badOperand
      else if i.modifiersOk && decide (i.raw = r) then .ok i
      else .badMod i

/-- The mnemonics the Outrider executes in some form (06 R137). -/
def Instr.outriderMnemonic : Instr → Bool
  | .mov _ _ _ _ | .iadd _ _ _ _ _ _ | .isub _ _ _ _ _ _ | .imul _ _ _ _ _ _ _ | .and _ _ _ _ _ | .or _ _ _ _ _
  | .shl _ _ _ _ _ _ | .shr _ _ _ _ _ _ | .bra _ _ _ | .nop _ _ | .exit _ => true
  | i => i.outriderOnly

/-- An `olpost` with its unassigned queue Q = 3 read as Q = 0 (06 R138); any other word as it stands. -/
def Raw.withoutQ3 (r : Raw) : Raw := if r.op = 0x1D2 ∧ bits r.x 6 5 = 3 then { r with x := r.x - 96 } else r

/-- The same checks in Outrider code (06 R137, R138). The Outrider runs at level U; GE and W must be zero; a word that passes the
checks and is no form the Outrider executes gives ILLEGAL. An `olpost` with Q = 3 passes check 7 on its other bits before it gives ILLEGAL;
an index above 15 gives BAD_OPERAND in every word (log 106). -/
def decodeOutrider (r : Raw) : Decoded :=
  if r.len = 0 then .reject .illegalLen
  else if r.op / 64 = 15 then .reject .reservedGroup
  else if r.op / 64 = 14 ∧ bit r.op 5 then .reject .priv
  else match parse r with
    | none => .reject .unassignedOp
    | some i =>
      if i.outriderMnemonic then
        if !i.outriderOperandsOk then .reject .badOperand
        else if !(i.modifiersOk && i.head.guard.isNone && !i.head.w && decide (i.raw = r.withoutQ3)) then .badMod i
        else if !i.outriderForm || r.withoutQ3 != r then .reject .illegal
        else .ok i
      else if !(i.outriderIndicesOk && r.fieldsOk) then .reject .badOperand
      else if !(i.modifiersOk && decide (i.raw = r)) then .badMod i
      else .reject .illegal

/-- The bytes at a program counter as a word: the fetch unit reads LEN first and takes the length from it (02 R24). -/
def Raw.ofBytes (bs : List Byte) : Raw :=
  let r := Raw.ofNat (leNat (bs.take 16))
  if r.len = 1 ∨ r.len = 0 then Raw.ofNat (leNat (bs.take 8)) else if r.len = 2 then Raw.ofNat (leNat (bs.take 12)) else r

/-- The instruction a gang at level S reads from bytes, or the Outrider where a gang reads none. -/
def decodeBytes (bs : List Byte) : Option Instr :=
  match decode true (Raw.ofBytes bs) with
  | .ok i => some i
  | _ => match decodeOutrider (Raw.ofBytes bs) with
    | .ok i => some i
    | _ => none

/-- The host's question: the instruction whose bits are `w`, `nbits` of them given and the rest zero. The device stores a word
little-endian, so bit 0 of `w` is bit 0 of the byte at the lowest address (02 R22). -/
def decodeTableWord (nbits w : Nat) : Option Instr := decodeBytes (leBytes 16 (w % 2 ^ nbits))

end Sys2Proof
end

