-- ==== Sys2Proof/Config.lean ====
section
/-!
DEFINITION. What the spec leaves open: free values and free choices, and the functions whose values it does not give.
Each is an opaque constant without a body, so that no statement can rest on its value (log 7, log 11).
-/

namespace Sys2Proof.Config

/-- A free choice among the outcomes a "may" lists (00 R2): draw `k` picks one. Log 7. -/
opaque choice : Nat → Nat

/-- A free 64-bit value: unpredictable within 00 R3. Log 7. -/
opaque freeWord : Nat → BitVec 64

/-- Whether an ECDSA P-256 signature over a digest verifies with the key of a lifecycle state (17 R386, R388). Log 11. -/
opaque ecdsaVerify : (lifecycle : Nat) → (digest : BitVec 256) → (sig : List Byte) → Bool

/-- AES-256-GCM of a flit: ciphertext of the payload and 128-bit tag (17 R378). Log 11. -/
opaque gcmSeal : (key : BitVec 256) → (iv : BitVec 96) → (header payload : List Byte) → List Byte × BitVec 128

/-- AES-256-GCM opening of a received flit: the payload if the tag is good (17 R378, R379). Log 11. -/
opaque gcmOpen : (key : BitVec 256) → (iv : BitVec 96) → (header payload tag : List Byte) → Option (List Byte)

/-- What follows the header of the Steward's answer to an SPDM 1.3 request, where the standard alone gives it (17 R387). Log 11. -/
opaque spdmBody : (request : List Byte) → (measurements : List (BitVec 256)) → List Byte

/-- An ECDSA P-256 signature over a digest with the device key, which is bound to the device identifier (17 R387). Log 11. -/
opaque deviceSign : (device : BitVec 64) → (digest : BitVec 256) → List Byte

/-- The home slice of a line among the 16 of its company: a fixed hash of IA[44:6] (08 R172). Log 11. -/
opaque sliceHash : Nat → Nat

/-- The device identifier, burnt in at manufacture (17 R388). Log 5. -/
opaque deviceId : BitVec 64

end Sys2Proof.Config
end

