-- ==== Sys2Proof/Machine/State.lean ====
section
/-!
DEFINITION. The state of one E960 as plain data: everything the inventory tables of the spec list, the model's own few fields,
and the state after device reset. A table whose entries are free or invalid at reset lists only the others; `Sparse` is a list of
(key, value) pairs with strictly rising keys and no default value listed.
-/

namespace Sys2Proof.Machine

/-- A table by number with a default for what is not listed. -/
abbrev Sparse (α : Type) := List (Nat × α)

/-! ### Order of memory: past writes and fences (09) -/

/-- A write that has been performed: its place in the modification order, what it replaced, who made it and with what view,
the releases it carries, its scope if it is an atomic, and the earlier reads of its fibre that have yet to take their values
(09 R190, R195, R205). -/
structure Past where
  stamp : Nat
  lo    : Nat
  old   : List Byte
  src   : Issuer
  view  : View := []
  rels  : List Release := []
  atom  : Option Scope := none
  preds : List Nat := []
  deriving DecidableEq, Repr

/-- A sequential fence that has been performed (09 R197). -/
structure ScFence where
  src   : Issuer
  scope : Scope
  view  : View
  deriving DecidableEq, Repr

/-- What a counter's increments carry for its readers (09 R201). -/
structure CntEdge where
  src  : Issuer
  view : View
  deriving DecidableEq, Repr

/-! ### Outstanding results and accesses (02 R34, 03 R58, 10 R212 to R223) -/

/-- A lane block with the generation it had (03 R58). -/
structure BlockRef where
  lane : LaneRef
  blk  : Nat
  gen  : BitVec 8
  deriving DecidableEq, Repr

/-- One 32-bit destination register of an outstanding result. -/
inductive DestReg
  | v (b : BlockRef) (r : Nat) (crew : Nat)
  | s (n : Nat)
  | special (r : SReg) (k : Nat)     -- word `k` of a special register
  deriving DecidableEq, Repr

/-- What an outstanding item does when it is performed. -/
inductive AccOp
  | value (ws : List Word)
  | later (slot : Nat)               -- words that a Mill command gives when it runs, by gang slot (07 R158, 11 R244)
  | load (ty : Ty) (n : Nat)
  | store (data : List Byte)
  | atom (op : Aop) (ty : Ty) (b : DWord)
  | cas (ty : Ty) (b c : DWord)
  | cnt (cop num : Nat) (v : DWord)
  | seal (dst : Nat)
  | copy (ctx q : Nat)
  deriving DecidableEq, Repr

/-- Where a part of an access is: not yet translated; at a location, with the version-store entry of a weight page (11 R240) and
the replica descriptor of a replicated one (14 R321); at another device's region and offset, with the hops the packet will carry; or answered from there, with a status (10 R221). -/
inductive Place
  | todo
  | loc (l : Nat) (weight repl : Option Nat)
  | remote (rank region off hops : Nat)
  | got (bytes : List Byte) (status : Nat)
  deriving DecidableEq, Repr

/-- A part of an access that lies in one page: its virtual address of 46 bits, its length, its place. -/
structure Part where
  va    : Nat
  len   : Nat
  place : Place := .todo
  deriving DecidableEq, Repr

/-- How far an outstanding item has come. -/
inductive Stage
  | toWalk                            -- at the memory side, not yet translated
  | held (token : Nat)                -- its fault is held for the supervisor (14 R323)
  | ready                             -- every part has a place
  | sent (deadline : Nat)             -- parts at other devices await their responses (10 R223)
  | locked (ws : List Word) (status : Nat)   -- written at its home, and not yet at every replica of the page (09 R206)
  | done (ws : List Word) (status : Nat)
  | refused (cls sub : Nat)           -- a fault its gang will take (10 R222): class and SUB of 16 R352
  deriving DecidableEq, Repr

/-- What the log records for one fibre (16 R354). -/
structure LoggedFibre where
  fid  : Nat
  srcs : List DWord
  addr : DWord
  gens : List BlockRef
  deriving DecidableEq, Repr

/-- An outstanding result or access of one fibre, or of a whole gang. -/
structure Access where
  id    : Nat
  insn  : Nat                -- the instruction it belongs to
  uid   : Nat
  gid   : Nat
  fid   : Option Nat         -- none: gang-wide
  fibs  : List Nat := []     -- the fibres it counts for (10 R213); a fibre that ends leaves it
  crew  : Nat
  lvl   : Bool := false      -- issued at level S
  ctx   : Nat := 0           -- the context it translates in
  pc    : Word
  raw   : Raw
  op    : AccOp
  sp    : Space
  addr  : DWord              -- the address as computed (16 R354)
  parts : List Part
  dest  : List DestReg
  sd    : Option DestReg
  se    : Bool
  ord   : Ord
  scope : Scope
  srcs  : List DWord
  view  : View := []                   -- what happens-before it (log 8)
  rels  : List Scope := []             -- the scopes at which it is a release
  heard : List Release := []           -- the releases other devices' answers brought
  early : View := []                   -- what later accesses of its fibres have read before it took its value (09 R196)
  after : List Nat := []               -- open reads of its core that happen before it through a write it follows (09 R191)
  mates : List LoggedFibre := []       -- what its instruction took on each fibre (16 R354)
  regs  : List DestReg := []           -- what its instruction writes on any fibre (10 R222)
  limit : Nat := 1250                  -- the response limit it was sent under (16 R362)
  aside : Bool := false                -- set aside with a release that waits for a fault's replay (10 R222)
  stage : Stage
  deriving DecidableEq, Repr

/-! ### Engine commands -/

/-- What a Mill command does (07 R145, 11 R244). -/
inductive MillOp
  | load (ty : Ty) (off : Nat)
  | run (ty : Ty) (off : Nat)
  | epi (ty : Ty) (off : Nat)
  | delta (ty : Ty) (off : Nat)
  | swap
  | zero (mask : Nat)
  | read (acc mem row : Nat)
  | link (len : Nat)
  | join (head : Nat)
  | unlink
  | bind (off : Nat)
  | drop (n : Nat)
  | query (n : Nat)
  deriving DecidableEq, Repr

/-- An entry of the Mill queue (12 R249): the command, its party, its future, and the register result it will give. -/
structure MillCmd where
  id     : Nat
  op     : MillOp
  uid    : Nat
  ctx    : Nat
  seen   : View := []              -- what its block read follows (07 R144)
  view   : View := []              -- what its data reads follow (09 R201)
  owed   : List Nat := []          -- its crew's stores that were queued when it was issued (07 R144)
  future : Option Nat := none
  posted : Bool := false
  item   : Option Nat := none      -- the instruction whose outstanding results it will give
  unbound : Option Nat := none     -- the slot number it waited for when another command dropped that slot (11 R247)
  deriving DecidableEq, Repr

/-- A command that a unit runs: its parameter block and the classes its page faults were refused with (07 R144, R162). -/
structure MillRun where
  cmd     : MillCmd
  block   : List Byte := []
  slot    : Option Nat := none       -- the slot-table entry it holds (11 R247)
  cores   : List CoreRef := []       -- the chain it drives, as it stood at start (07 R160)
  after   : List Nat := []           -- earlier commands of the other unit that had not resolved at start (07 R145)
  offered : Bool := false            -- an offered join (07 R159)
  member  : Nat := 0                 -- the member whose tile retires now (07 R154)
  begun   : Bool := false            -- it has begun: `$route` has been read, and `dest` is where its rows go (07 R155)
  dest    : List (List Part) := []
  poison  : Bool := false            -- some element stored was poisoned
  fault   : Nat := 0                 -- the cause its stores have met so far
  reads   : List (List Part) := []   -- the extents as checked at start
  writes  : List (List Part) := []
  bias    : List (List Part) := []
  count   : Option Nat := none       -- the arrival counter of a routed tile (07 R155)
  live    : Option DWord := none     -- the version sampled before the input is read (11 R233)
  pz      : Bool := false            -- the slot's PZ when the command took it (11 R243)
  wrote   : View := []
  refused : List (Nat × Nat) := []   -- (page address, class)
  deriving DecidableEq, Repr

/-- A Porter command (13 R273, R276, 15 R342). -/
structure PortCmd where
  id     : Nat
  a2av   : Bool
  uid    : Nat
  ctx    : Nat
  off    : Nat
  future : Option Nat := none
  posted : Bool := false
  urg    : Bool := false
  stream : Nat := 0
  batch  : Option Nat := none
  pos    : Nat := 0
  owed   : List Nat := []          -- its crew's stores that were queued when it was issued (07 R144)
  seen   : View := []              -- what its record reads follow (07 R144)
  saw    : View := []              -- placements its issuers saw finished: its record reads follow them too (13 R275)
  view   : View := []              -- what its data reads follow (09 R201)
  deriving DecidableEq, Repr

/-- A request waiting for an engine queue entry (12 R263): a fired trigger, a saved or posted entry, or a gang at its instruction. -/
inductive EngineReq
  | port (c : PortCmd)
  | mill (c : MillCmd)
  | gang (e : Engine) (uid gid : Nat) (i : Instr)
  deriving DecidableEq, Repr

/-! ### Fibres, gangs, crews, parties (03, 06) -/

/-- The emulation-field registers (03 R69). -/
structure Emu where
  xop  : Word := 0
  xd   : Word := 0
  xa   : Word := 0
  xb   : Word := 0
  xc   : Word := 0
  ximm : Word := 0
  xpc  : Word := 0
  deriving DecidableEq, Repr

/-- A meet record (06 R120, R129). -/
structure Meet where
  addr  : Word
  mask  : BitVec 128
  sregs : List Word
  emu   : Emu
  deriving DecidableEq, Repr

/-- A fibre (03 R49). Its v registers lie in the lane file through `blocks`; `$win` is the length of `blocks`. -/
structure Fibre where
  fid     : Nat
  cfid    : Nat
  crew    : Nat
  pc      : Word
  pred    : BitVec 16 := 0
  exec    : Bool := true
  srs     : Word
  blocks  : List Nat
  meet    : Option Meet := none
  view    : View := []
  relNext : Option Scope := none      -- a fence.rel that makes the next store or atomic a release (09 R194)
  lastRead : Nat := 0                 -- the instruction of its last load or atomic that has taken its value
  lastRel : List Release := []        -- the releases that one read, for a later fence.acq
  base    : View := []                -- the view without what that one acquired: a fence.acq replaces its scope (09 R194)
  after   : List Nat := []            -- open reads of its core that happen before its next access (09 R191)
  millSeen : View := []               -- writes of Mill commands whose status it obtained (09 R200)
  portSeen : View := []
  cntSeen  : List (PathClass × View) := []
  engView  : View := []               -- what its later engine commands follow (09 R201)
  deriving DecidableEq, Repr

/-- What a replay by `eret` re-performs (16 R355). -/
inductive Redo
  | none
  | access (as : List Access)
  | mill (c : MillCmd) (d : List DestReg)
  | cntwait (num : Nat) (thresh : DWord) (limit : Nat) (dest : Nat) (acq : Bool) (scope : Scope)
  | reissue (i : Instr) (srcs : List DWord)
  deriving DecidableEq, Repr

/-- An entry of the operand log (16 R354, R356). -/
structure LogEntry where
  raw    : Raw
  pc     : Word
  cls    : Nat
  sub    : Nat
  replay : Bool
  addr   : DWord
  fmask  : Word
  fibres : List LoggedFibre := []
  redo   : Redo := .none
  deriving DecidableEq, Repr

/-- Why a gang is not ready (06 R126). `marker` ends with the outstanding results; `again`, `spawn`, `futureFull` and `score` are tried again
once the device has changed since the count they hold; the others are ended by an event. -/
inductive Wait
  | marker
  | again (mark : Nat)
  | xgrow (fids : List Nat) (h : Head)
  | spawn (placed : List Nat) (entry : Word) (since mark : Nat)   -- the fibres whose records are placed; when it began to wait
  | future (idx : Nat) (dest : Nat)
  | futureFull (mark : Nat)
  | score (since mark : Nat)           -- for entries of the range scoreboard: when it began to wait (08 R183)
  | engine (e : Engine)
  | counter (num : Nat) (thresh : DWord) (since limit : Nat) (dest : Nat) (acq : Bool) (scope : Scope) (raw : Raw)
  | launch (id : Nat)
  | rqpop (since mark : Nat)
  | held (token : Nat)
  deriving DecidableEq, Repr

/-- A gang (03 R49, 06 R120, 16 R349). `fibres` lists fids by ascending `$cfid`: a position is a gang slot (03 R52). -/
structure Gang where
  gid      : Nat
  crew     : Nat
  number   : Option Nat                 -- none: a held side (06 R124)
  fibres   : List Nat
  sregs    : List Word
  emu      : Emu := {}
  ready    : Nat := 0                   -- ready stamp
  cls      : Nat := 0                   -- effective class
  age      : Nat := 0                   -- clk in which it was ready without being chosen (06 R126)
  boundary : Bool := true               -- stands at a fetch boundary (06 R125)
  level    : Bool := false              -- true: level S
  sprev    : Bool := false              -- SSTAT.SPREV
  sepc     : Word := 0
  ssave    : List DWord := [0, 0, 0, 0]
  slog     : List LogEntry := []
  wait     : Option Wait := none
  entered  : Bool := true               -- it is in its lane's gang-ready set (12 R262)
  starting : Bool := false              -- its launch has placed it, and its lane has yet to take it up (06 R125, log 101)
  walkView : View := []                 -- what the walk of its resumed fetch sees (14 R325)
  redoWait : Bool := false              -- its wait belongs to a replayed instruction: `$pc` stays when it ends (16 R355)
  replaying : Bool := false             -- an `eret` has begun to replay the log
  newlog   : List LogEntry := []        -- the replays that faulted again
  freed    : Bool := false              -- it gave a Mill up: refused posts are made again when it returns (07 R168)
  deriving DecidableEq, Repr

/-- A crew (03 R49). Its store queue (12 R267) lists, for each instruction, its accesses still queued, in slot order. -/
structure Crew where
  num    : Nat
  gstat  : Word := 0
  gstatAt : DWord × Word := (0, 0)     -- the fields set in a clk (03 R56): when, and which
  prio   : Nat
  storeq : List (List Nat) := []
  deriving DecidableEq, Repr

inductive BinState | free | filling | releasing
  deriving DecidableEq, Repr

/-- A record of a bin (12 R249). -/
structure BinRec where
  entry  : Word
  arg    : Word
  blocks : Nat
  deriving DecidableEq, Repr

/-- A bin (12 R249, R261); `expiry` is the `$clock` at which its timer reaches 0; while the party is off its core, what TIMER then holds. -/
structure Bin where
  state  : BinState := .free
  key    : Word := 0
  tmo    : Nat := 0
  expiry : Nat := 0
  recs   : List BinRec := []
  order  : Nat := 0             -- when it began releasing: the clk, and the event in it
  deriving DecidableEq, Repr

inductive FutState | free | pending | done | faulted
  deriving DecidableEq, Repr

/-- A future-table entry (07 R163, 14 R328); `view` is what the command wrote. -/
structure Future where
  state  : FutState := .free
  cause  : Nat := 0
  poison : Bool := false
  gen    : BitVec 8 := 0
  drop   : Bool := false
  engine : Engine := .mill
  view   : View := []
  deriving DecidableEq, Repr

/-- A valid range-scoreboard entry (08 R182); `owner` is the transfer that claimed it. -/
structure Score where
  idx   : Nat
  gang  : Nat
  batch : Nat
  start : Nat
  stop  : Nat
  near  : Bool
  owner : Nat
  deriving DecidableEq, Repr

/-- A batch, open or sealed (13 R272, R297 to R299). -/
structure Batch where
  num   : Nat
  count : Nat := 0
  left  : Nat := 0
  flags : Nat := 0
  cause : Nat := 0
  first : Nat := 0
  roff  : Option Nat := none
  view  : View := []            -- placements of its retired transfers
  deriving DecidableEq, Repr

/-- A batch stream of the producer crew, by gang number (13 R297). -/
structure Stream where
  openB  : Option Batch := none
  next   : Nat := 0
  sealed : List Batch := []
  view   : View := []           -- placements of its finished batches
  deriving DecidableEq, Repr

/-- A chain link (07 R139). -/
structure Link where
  head : Nat
  pos  : Nat
  len  : Nat
  uid  : Nat          -- the head's party: the chain unlinks when it ends
  deriving DecidableEq, Repr

/-- A loop-stack entry of the Outrider (06 R120). -/
structure Loop where
  idx   : Nat
  count : DWord
  body  : Word
  exit  : Word
  deriving DecidableEq, Repr

/-- A permit pool (12 R270): AVAIL is LIMIT less OUT. -/
structure Permit where
  limit : Nat
  out   : Nat := 0
  deriving DecidableEq, Repr

/-- An Outrider (06 R120, R137). -/
structure Outrider where
  running : Bool := false
  uid     : Nat := 0
  opc     : Word := 0
  o       : List DWord := []
  loops   : List Loop := []
  mill    : Permit := ⟨16, 0⟩
  port    : Permit := ⟨32, 0⟩
  recs    : Permit := ⟨64, 0⟩
  waiting : Bool := false
  post    : Option Nat := none       -- the posted command that waits for a queue entry
  deriving DecidableEq, Repr

/-- A party (03 R49, 08 R175, 12 R249, R259, 16 R349). -/
structure Party where
  uid      : Nat
  core     : CoreRef
  slot     : Nat
  ctx      : Nat
  rank     : Nat
  launch   : Option Nat
  unitid   : Nat
  nfib     : Nat
  blocks   : Nat
  prio     : Nat
  producer : Nat
  code     : DWord
  segBase  : List DWord            -- s, c, n, g, k, f
  segLim   : List DWord
  route    : DWord := 0
  scrBase  : Nat := 0
  scrSize  : Nat := 0
  company  : Bool := false
  placed   : Nat := 0              -- placement order (12 R262)
  fibres   : List Fibre
  gangs    : List Gang
  crews    : List Crew
  bins     : Sparse Bin := []
  futures  : Sparse Future := []
  score    : List Score := []
  streams  : Sparse Stream := []
  records  : List (BitVec 128) := []
  withdraw : List Nat := []
  outrider : Bool := false
  olFault  : Bool := false         -- its Outrider stopped on a fault
  halted   : Bool := false
  suspended : Bool := false        -- off its core; it waits for RESTORE or END (16 R365)
  ended    : Bool := false         -- ended with a contained error (16 R372)
  retired  : Bool := false         -- retired; its company's scratch ranges are still held (08 R176)
  saved    : List EngineReq := []
  image    : Option Nat := none    -- while off its core: the CRC of its save image (16 R366)
  savedOl  : Option Outrider := none   -- its Outrider while off its core (16 R366)
  links    : List (Nat × Link) := []   -- while off its core: the links of its Mill's chain, by logical core (07 R160)
  returning : Bool := false        -- placed again, and not resumed: its saved entries wait for room (12 R266)
  entering : Option Nat := none    -- the area a RESTORE in progress has placed it from (16 R367)
  millView : View := []            -- writes ordered before its Mill commands' reads (09 R200)
  portView : View := []
  born     : Nat := 0              -- the stamp at its launch: code is fetched as it stood then or later (02 R38)
  known    : View := []            -- writes that every access of the party follows (08 R184, 09 R203)
  kept     : List Past := []       -- while off its core: the history of its scratch range (09 R192)
  keptAt   : Nat := 0              -- and the stamp at its save
  deriving DecidableEq, Repr

/-! ### A core's engines (06, 07, 12, 13) -/

/-- A weight plane and its tag (07 R139, R140): element codes by n × 512 + k, scales by n × 16 + b; FMT none is reset. -/
structure Plane where
  fmt    : Option Ty := none
  wgrp   : Nat := 0xFFF
  wver   : DWord := 0
  data   : Sparse Nat := []
  scale  : Sparse Nat := []
  poison : List Nat := []
  deriving DecidableEq, Repr

inductive TileFmt | none | f32 | i32 | f64
  deriving DecidableEq, Repr

/-- An accumulator tile (07 R142): element codes by i × 128 + n. -/
structure Tile where
  fmt    : TileFmt := .none
  data   : Sparse Nat := []
  poison : List Nat := []
  deriving DecidableEq, Repr

/-- A Mill (07 R139, R145). -/
structure Mill where
  active    : Plane := {}
  shadow    : Plane := {}
  tiles     : Sparse Tile := []
  link      : Option Link := none
  owner     : Option Nat := none
  queue     : List MillCmd := []
  view      : View := []               -- writes of its earlier commands (07 R146)
  spilling  : Option Nat := none       -- the party whose `mspill` holds new acceptances (16 R368)
  loading   : Option MillRun := none
  streaming : Option MillRun := none
  deriving DecidableEq, Repr

/-- A message of a collective that its receiver has not yet acknowledged (13 R287). -/
structure Unacked where
  id       : Nat
  deadline : Nat
  limit    : Nat := 1250      -- what it was sent under (16 R362)
  deriving DecidableEq, Repr

/-- A running transfer (13 R272): its records as read at start, the pieces placed, the tiles that failed. -/
structure Transfer where
  slot    : Nat
  cmd     : PortCmd
  shape   : List Byte
  src     : List Byte := []
  dst     : List Byte := []
  placed  : List Nat := []
  failed  : List Nat := []          -- source tiles
  causes  : List Nat := []          -- causes of failed blocks of an exchange; of one's own block for member q, 16 * (q + 1) more
  poison  : Bool := false
  refused : List (Nat × Nat) := []
  segBase : List DWord := []        -- the segments as they stood at start (07 R144, 13 R275)
  segLim  : List DWord := []
  start   : View := []
  writes  : View := []
  heard   : List CntEdge := []      -- what other members placed here (13 R295)
  held    : Bool := false           -- started, and waits for a store, the range scoreboard or a collective-table entry (07 R144, 08 R184, 13 R287)
  coll    : Option Nat := none      -- collective-table entry
  abort   : Option Nat := none      -- ACAUSE
  deriving DecidableEq, Repr

/-- A performance counter (15 R348). -/
structure Pmc where
  count : BitVec 48 := 0
  sel   : BitVec 16 := 0
  ctx   : Nat := 0
  deriving DecidableEq, Repr

/-- A core's engines and counters. -/
structure Core where
  mill     : Mill := {}
  urgent   : List PortCmd := []
  normal   : List PortCmd := []
  run      : Nat := 0              -- consecutive URGENT starts while NORMAL held an entry (12 R265)
  waiting  : List EngineReq := []
  barred   : Bool := false         -- a restored command met another context's Mill: it waits for the supervisor's return (07 R168, log 30)
  xfers    : List Transfer := []
  outrider : Outrider := {}
  olView   : View := []            -- writes ordered before every Outrider fetch of the core (09 R200)
  pmcs     : Sparse Pmc := []
  deriving DecidableEq, Repr

/-! ### Dies: counters, slots, collectives (11, 13, 15) -/

/-- A counter (15 R330). -/
structure Counter where
  value  : DWord := 0
  poison : Bool := false
  edges  : List CntEdge := []
  rels   : List Release := []
  deriving DecidableEq, Repr

/-- An armed trigger (15 R330, R340). -/
structure Trigger where
  idx     : Nat
  ctx     : Nat
  uid     : Nat
  counter : Nat
  thresh  : DWord
  kind    : Nat
  urg     : Bool
  scope   : Scope
  opnd    : Word
  amount  : Word
  order   : Nat
  seen    : View := []       -- its crew's stores before it was armed, and those of them still queued: its records are read after them (13 R275)
  owed    : List Nat := []
  deriving DecidableEq, Repr

/-- A bound reuse slot with its progress and its arena contents (11 R226): segment records (G, E, P) by i × 4 + s,
X by i × 512 + k, y and its poison by (j × 128 + i) × 128 + n. -/
structure Slot where
  idx    : Nat
  ctx    : Nat
  slot   : Nat
  key    : Word
  wgrp   : Nat
  unchk  : Bool
  k      : Nat
  m      : Nat
  klen   : Nat
  l      : Nat
  base   : Nat
  size   : Nat
  filled : Bool := false
  pz     : Bool := false
  nf     : Bool := false
  last   : Nat := 0
  cnt    : Nat := 0
  ver    : DWord := 0
  segG   : Sparse Nat := []
  segE   : Sparse Nat := []
  segP   : List Nat := []
  xhat   : Sparse Int := []
  y      : Sparse Nat := []
  ypois  : List Nat := []
  rotten : List Nat := []      -- rows whose storage met an uncorrectable error (11 R243)
  waiting : List Nat := []     -- commands that wait at start for the slot, in order (11 R247)
  deriving DecidableEq, Repr

/-- A chunk whose new value is on its way to a page of another device (13 R285, R290): the message that brought it, the contributors it holds, and
whether it is final. -/
structure Settling where
  tile   : Nat
  chunk  : Nat
  srcs   : List Nat                           -- whose message it was, by grid index: those that await its acknowledgement
  bitmap : Nat
  last   : Bool
  bytes  : List Byte
  poison : List Bool
  deriving DecidableEq, Repr

/-- A collective-table entry (13 R272). -/
structure Collective where
  idx     : Nat
  ctx     : Nat
  coll    : Nat
  seq     : Nat
  core    : CoreRef
  xfer    : Nat                               -- transfer id; 0 until this rank's own transfer starts
  self    : Nat := 0                          -- own grid index
  mine    : Option Handshake := none
  hands   : Sparse Handshake := []            -- received, by grid index
  arrived : Sparse Nat := []                  -- tile index to bitmap
  staged  : List (Nat × Nat × List Byte × List Bool) := []   -- (tile, contributor, bytes, poison)
  pois    : List (Nat × Nat) := []            -- poisoned (tile, element)
  finals  : List Nat := []                    -- tiles final here, owned or received
  settling : List Settling := []
  sentC   : List Nat := []                    -- tiles contributed
  begun   : Bool := false                     -- every handshake has been received and agrees
  unacked : List Unacked := []
  mineC   : List Nat := []                    -- a2av counts sent
  counts  : Sparse Nat := []                  -- a2av counts received
  replies : List (Nat × Option Nat) := []     -- a2av offset replies received
  blocks  : List Nat := []                    -- a2av senders whose block has been placed or failed here
  abort   : Option Nat := none
  deriving DecidableEq, Repr

/-- An announcement on a die's Herald (01 R12): when it was sent, by which core, or 64 for an L2 slice or a UCIe port, and the access it is for. -/
structure Announcement where
  at_    : Nat
  sender : Nat
  what   : Nat
  deriving DecidableEq, Repr

/-- What a die holds beyond its cores (01, 08, 11, 13, 15). -/
structure Die where
  coreMap  : List Nat                  -- physical index of each logical core, by 16 × company + core (01 R11)
  avail    : List Bool                 -- company availability
  spare    : List Bool                 -- the spare core of each company is free (01 R11)
  nearcarve : Nat := 0                 -- UNITS
  nearBusy : Bool := false
  arenaBase : Nat := 0                 -- physical address / 2 MiB
  arenaSize : Nat := 0                 -- in 2 MiB units
  arenaBusy : Bool := false
  counters : Sparse Counter := []
  triggers : List Trigger := []
  trigGen  : Sparse Nat := []
  slots    : List Slot := []
  colls    : List Collective := []
  errs     : Sparse Nat := []          -- CE_HBM, CE_SRAM, CE_SCRATCH, CE_CACHE, CE_RF, UE_TOTAL
  herald   : List Announcement := []   -- announcements on their way (01 R12)
  deriving DecidableEq, Repr

/-! ### Contexts and tables (12, 14, 15, 16) -/

/-- A window (14 R306); also the copy a range register holds. -/
structure Window where
  ctx    : Nat
  region : Nat
  va     : Nat
  ia     : Nat
  size   : Nat
  deriving DecidableEq, Repr

structure RangeReg where
  win  : Nat
  copy : Window
  deriving DecidableEq, Repr

/-- A region-attribute entry that is PRESENT (14 R309). -/
structure Region where
  r      : Bool
  w      : Bool
  x      : Bool
  inb    : Bool
  psize  : Nat
  levels : Nat
  mthr   : Nat
  root   : Nat
  limit  : Nat
  deriving DecidableEq, Repr

/-- A launch queue descriptor (12 R250). -/
structure LaunchQueue where
  en   : Bool := false
  mode : Bool := false
  size : Nat := 0
  base : DWord := 0
  head : Word := 0
  tail : Word := 0
  stop : Option Nat := none      -- a held fault on its read (12 R255): the token, plus 2^32 for a buffer list's; refused: 0, or 2^33
  deriving DecidableEq, Repr

/-- A hardware context (03, 12, 14, 15, 16). -/
structure Context where
  num     : Nat
  rank    : Nat := 0
  emu     : Word := 0
  ranges  : Sparse RangeReg := []
  regions : Sparse Region := []
  job     : Option Nat := none           -- context entry VALID and JOB (14 R315)
  rtbase  : Nat := 0
  queues  : Sparse LaunchQueue := []
  cmap    : Sparse (Nat × Nat) := []     -- counter map: group to (DIE, PGRP)
  vbase   : Nat := 0
  vsize   : Nat := 0
  ngrant  : Sparse (Nat × Nat) := []     -- die to (BASE, SIZE), in 64 KiB units
  ngBusy  : List Nat := []               -- dies whose last NGRANT write was refused
  done    : Sparse (List Nat) := []      -- the parties of the last launch of each ID that has completed (12 R256)
  deriving DecidableEq, Repr

/-- A replica descriptor that is VALID (14 R321). -/
structure Replica where
  role  : Bool                           -- true: replica
  ctx   : Nat
  home  : Nat
  ranks : List Nat
  deriving DecidableEq, Repr

/-- A sharer-directory entry (14 R303, R319). -/
structure Sharer where
  ctx     : Nat
  region  : Nat
  page    : Nat
  write   : Bool
  holders : List Nat
  pending : List Nat := []               -- holders a revocation was sent to
  deriving DecidableEq, Repr

/-- A pending-fault entry (14 R323). -/
structure Pending where
  token   : Nat
  ctx     : Nat
  region  : Nat
  page    : Nat
  since   : Nat
  local_  : List Nat := []               -- accesses of this device, by id
  inbound : List Packet := []
  engines : List Nat := []               -- Mill commands and transfers, by id
  fetches : List Nat := []               -- gangs, by gid
  queues  : List (Nat × Nat) := []       -- launch queues whose reads wait, (ctx, q), launches whose records wait, (64, entry), and copies, (66, id)
  locks   : List (Nat × Nat × HomeAsk × List Byte) := []   -- replica locks: region, offset, home, new bytes (14 R321)
  lastHold : Nat := 0
  deriving DecidableEq, Repr

/-- A page access counter (15 R345). -/
structure PageCount where
  ctx    : Nat
  region : Nat
  page   : Nat
  count  : Nat
  sent   : Bool
  deriving DecidableEq, Repr

/-- A page that a replica holds locked (09 R206, 14 R321). -/
structure Locked where
  ctx    : Nat
  region : Nat
  page   : Nat
  home   : Nat
  deriving DecidableEq, Repr

/-- A replicated write in progress at the home (09 R206): its page, the replicas, and the tags of the locks, then of the unlocks, that wait for
their answers. -/
structure Update where
  ctx    : Nat
  region : Nat
  offset : Nat
  page   : Nat
  ranks  : List Nat
  acks   : List (Nat × Nat)              -- the tags that await an answer, and the replica of each
  open_  : Bool := false                 -- every replica holds the new value: the unlocks have been sent
  begun  : Bool := true                  -- its locks have been sent: the writes to a page take their phases one after the other
  data   : List Byte := []
  src    : Issuer := {}
  accs   : List Nat := []                -- the accesses performed when every replica holds the new value
  replies : List (Packet × Reply) := []  -- the answers sent then
  deriving DecidableEq, Repr

/-- A page of another device that this one holds under a CACHED grant (09 R207): the context's own page (its region, its first unit of 64 KiB) and
the home's; asked for WRITE, or for READ; under revocation its accesses stall. -/
structure Held where
  ctx     : Nat
  ownReg  : Nat
  ownPage : Nat
  region  : Nat
  page    : Nat
  home    : Nat
  write   : Bool
  revoked : Bool := false
  granted : Bool := false                -- its home has granted it (14 R319)
  deriving DecidableEq, Repr

/-! ### Launches (12) -/

inductive LaunchState | waiting | buffers | placing | running | completing
  deriving DecidableEq, Repr

/-- An edge of a live launch: the predecessor's ID, its live-table entry if it waits, and its buffer list (12 R254, R256). -/
structure Edge where
  pid   : Nat
  waits : Option Nat
  nbuf  : Nat
  blist : DWord
  ranges : List (Nat × Nat) := []        -- the buffers listed: address, length
  preds  : List Nat := []                -- the parties of the predecessor, once it has completed (09 R203)
  deriving DecidableEq, Repr

/-- A live-table entry (12 R249). -/
structure Launch where
  idx     : Nat
  ctx     : Nat
  id      : Nat
  packet  : List Byte
  state   : LaunchState := .waiting
  edges   : List Edge := []
  next    : Nat := 0
  placed  : Nat := 0
  ended   : Nat := 0
  err     : Bool := false
  status  : Nat := 0
  cause   : Nat := 0
  read    : Nat := 0                     -- order of reading
  ready   : Nat := 0                     -- `$clock` at which it was first in the dispatch order
  reserve : Option (Nat × Nat) := none   -- company reserved for it
  withdrawn : List (Nat × Nat) := []     -- (unit, party that withdrew it)
  lost    : Nat := 0                     -- the class its record's write was refused with (12 R260)
  view    : View := []                   -- the predecessors' writes to the listed buffers (09 R203)
  parties : List Nat := []
  deriving DecidableEq, Repr

/-- A `launch` request on its way to the command processor (12 R252, R253). -/
structure LaunchReq where
  id   : Nat
  uid  : Nat
  gid  : Nat
  ctx  : Nat
  q    : Nat
  addr : DWord
  core : CoreRef
  lane : Nat
  owed : List Nat := []    -- what the party's store queues held at issue (06 R135)
  seen : View := []        -- the writes of those that have been performed since
  deriving DecidableEq, Repr

/-- A counter operation on its way to its home (15 R334). -/
inductive CntOp
  | read
  | add (v : DWord)
  | set (v : DWord)
  | arm (t : Trigger)
  | cancel (die idx gen : Nat) (uid : Nat)
  deriving DecidableEq, Repr

/-- A counter operation in flight; `access` is the outstanding result it answers. -/
structure CntReq where
  id     : Nat
  ctx    : Nat
  num    : Nat
  op     : CntOp
  access : Option Nat
  src    : Issuer
  ord    : Ord := .relaxed
  scope  : Scope := .dev
  view   : View := []
  more   : List CntEdge := []            -- what it carries besides (13 R295)
  deriving DecidableEq, Repr

/-! ### Links, host and Steward (15, 17) -/

/-- A port (17 R373, 15 R347, 17 R378). -/
structure Port where
  up       : Bool := false
  width    : Nat := 0
  prot     : Bool := false
  cause    : Nat := 0
  keyTx    : Option (BitVec 256) := none
  keyRx    : Option (BitVec 256) := none
  linkids  : LinkIds := {}
  down     : Bool := false               -- it has gone down and not come back: its next link start is recorded (17 R377)
  txseq    : DWord := 0
  rxseq    : DWord := 0
  authfail : Nat := 0
  fails    : List Nat := []              -- the slots of the last 2^20 that failed authentication (17 R377)
  deriving DecidableEq, Repr

/-- How far an SPDM requester on the mailbox has come (17 R387): what has been told, in the standard's order, and its secure session. -/
structure Spdm where
  stage   : Nat := 0         -- 1 the version, 2 the capabilities too, 3 the algorithms too
  opening : Bool := false    -- KEY_EXCHANGE has been answered, and FINISH has not
  open_   : Bool := false
  deriving DecidableEq, Repr

/-- The Steward's state (17 R373, R382 to R389). -/
structure Steward where
  devfeat  : BitVec 256
  drvfeat  : BitVec 256 := 0
  negfeat  : BitVec 256 := 0
  negDone  : Bool := false
  m        : List (BitVec 256)
  lifecycle : Nat
  dbgopen  : Bool := false
  debugPort : Bool := false
  pwrcap   : Nat := 3200
  throttle : Bool := false
  nonce    : Option (BitVec 256) := none
  tenantKeys : Bool := true              -- keys held for tenants, wiped by an unlock (17 R388)
  boot     : Nat := 0                    -- images loaded, in order (17 R386)
  offline  : Bool := false
  spdm     : Spdm := {}
  cmd      : Word := 0
  status   : Word := 0
  len      : Nat := 0
  rlen     : Nat := 0
  request  : Sparse Byte := []
  reply    : Sparse Byte := []
  nhead    : Word := 0
  ntail    : Word := 0
  lost     : Bool := false
  notices  : Sparse Byte := []           -- the notice ring's bytes
  deriving DecidableEq, Repr

/-- What the device hands to the outside: packets, collective messages, answers, holds, reads of the host (17 R375). -/
inductive Sent
  | packet (rank : Nat) (p : Packet)
  | reply (rank tag : Nat) (r : Reply)
  | hold (rank tag : Nat)
  | handshake (rank : Nat) (m : MsgHead) (h : Handshake)
  | contribution (rank : Nat) (m : MsgHead) (t : TileMsg)
  | final (rank : Nat) (m : MsgHead) (t : TileMsg)
  | abort (rank : Nat) (m : MsgHead)
  | withdraw (rank : Nat) (m : MsgHead)
  | ack (rank : Nat) (m : MsgHead) (id : Nat)
  | count (rank : Nat) (m : MsgHead) (n : Nat)
  | offset (rank : Nat) (m : MsgHead) (off : Option Nat)
  | cached (rank ctx region page : Nat) (write : Bool)
  | grant (rank ctx region page : Nat) (write : Bool)
  | revoke (rank ctx region page : Nat)
  | revoked (rank ctx region page : Nat)
  | lock (rank ctx region offset : Nat) (data : List Byte) (tag : Nat)
  | unlock (rank ctx region offset tag : Nat)
  | flit (port : Nat) (slot : DWord) (payload : List Byte) (tag : BitVec 128)
  | passed (port : Nat) (payload : List Byte)
  | ethernet (rank : Nat) (p : Packet)
  | station (rank : Nat) (p : Packet)
  | hostRead (data : List Byte)
  | hostReply (tag : Nat) (r : Reply)
  | host (rank : Nat) (r : HostReq)                    -- the bridge passes a request of the host on (17 R381)
  | fence (ctx : Nat) (src : Issuer) (scope : Scope)   -- to the job's other devices: a sequential fence takes its place (09 R197)
  deriving DecidableEq, Repr

/-! ### The device -/

/-- Registers of the supervisor (14 R304, 15 R333, R344, 16 R349, 17 R373). -/
structure SysRegs where
  tacc      : DWord := 0
  tdat      : List DWord := [0, 0, 0, 0]
  fqbase    : DWord := 0
  fqhead    : Word := 0
  fqtail    : Word := 0
  freply    : DWord := 0
  fhold     : Nat := 1250000
  cmacc     : DWord := 0
  vwin      : DWord := 0
  vsel      : DWord := 0
  scode     : DWord := 0
  sentry    : Word := 0
  sctx      : Nat := 0
  rdeadline : Nat := 5000
  eqbase    : DWord := 0
  eqhead    : DWord := 0
  eqtail    : Word := 0
  eqwake    : DWord := 0
  pctl      : DWord := 0
  pstat     : DWord := 0
  ctxctl    : DWord := 0
  ctxstat   : DWord := 0
  hbmask    : DWord := 0
  deriving DecidableEq, Repr

/-- A page of a context and region through which a frame of 64 KiB is reached: a window being one to one, it stands for the intermediate page (14 R306). -/
structure Mapping where
  frame  : Nat
  ctx    : Nat
  region : Nat
  page   : Nat
  deriving DecidableEq, Repr

/-- What a save image stands for beyond the bytes whose places the manual gives (16 R366, log 29): the party as it was saved, its faults still to be
taken, under the image's CRC. -/
structure SavedParty where
  crc    : Nat
  party  : Party
  flight : List Access
  deriving DecidableEq, Repr

/-- An inbound packet sent on through a remote leaf and not yet performed: the tag that its end comes under, and the range it reaches here (14 R313). -/
structure Forwarded where
  tag    : Nat
  ctx    : Nat
  region : Nat
  offset : Nat
  len    : Nat
  deriving DecidableEq, Repr

/-- Tables of the device (14 R303, 15 R330). -/
structure Tables where
  windows  : Sparse Window := []
  contexts : Sparse Context := []        -- by number; listed: VALID (16 R370)
  idle     : Sparse Context := []        -- what contexts that are not VALID hold in the supervisor's tables
  replicas : Sparse Replica := []
  sharers  : List Sharer := []
  pending  : List Pending := []
  lastTok  : Nat := 0
  fqWait   : List (List Byte) := []      -- fault records that wait for room (14 R323)
  eqWait   : List (List Byte × Nat) := []  -- event records that wait for room, and the unit that waits with each (16 R361)
  pages    : Sparse PageCount := []
  locked   : List Locked := []
  updates  : List Update := []           -- replicated writes in progress here (09 R206)
  lines    : List Held := []             -- pages held here under a CACHED grant (09 R207)
  inbound  : View := []                  -- writes ordered before inbound reads (09 R200)
  early    : List (MsgHead × Handshake) := []   -- handshakes received before the rank's own transfer started
  versions : Sparse DWord := []
  links    : Sparse Nat := []            -- link event counters 0x0318 to 0x031D
  raw      : Sparse (List DWord) := []   -- what entries that are not VALID or PRESENT hold (14 R305), by table, context and index
  mapped   : List Mapping := []          -- the pages that frames are reached through (14 R306)
  touches  : List (Nat × Nat) := []      -- engine accesses already counted on their page: command and place (15 R345)
  walkCut  : List (Nat × Nat × Nat × Nat × Nat) := []  -- (ctx, region, lo, hi, stamp): walks see writes up to stamp (14 R313)
  resumed  : List ((Nat × Nat) × View) := []   -- what the walks of resumed accesses see (14 R325): by queue, launch (64, n), engine command (65, id) or `launch` request (66, id)
  forwarded : List Forwarded := []             -- inbound packets sent on through a remote leaf here, not yet performed (14 R313)
  rankCut  : Sparse Nat := []            -- per context: lookups see writes up to stamp (14 R327)
  images   : List SavedParty := []       -- the save images written (16 R366)
  deriving DecidableEq, Repr

/-- An occurrence of the agenda: how many clk after the last one, and what happens. Log 2. -/
structure Occurrence where
  after : Nat
  what  : Instr
  deriving DecidableEq, Repr

/-- What several agents may ask for in one clk, in an order the spec gives (01 R12, 12 R253, R261, R263, R269). -/
inductive Contest
  | engine (c : CoreRef) (e : Engine)
  | bins (uid : Nat)
  | records (uid : Nat)
  | queue (ctx q : Nat)
  | herald (die : Nat)
  deriving DecidableEq, Repr

/-- On whose behalf an instruction runs. Log 2. -/
inductive Agent
  | none
  | gang (uid gid : Nat)
  | outrider (c : CoreRef)
  deriving DecidableEq, Repr

/-- The whole device. -/
structure State where
  clock    : DWord
  mem      : List Host.Cell            -- every byte memory; locations are laid out in Store (08 R170)
  poison   : List Nat                  -- poisoned 64-byte units: location / 64, strictly rising
  failing  : List Nat                  -- units whose next write meets an uncorrectable error (10 R216, R220)
  regs     : Sparse Word               -- the lane register files (08 R170), by lane, block and register
  gens     : Sparse (BitVec 8)         -- block generations (03 R58), by lane and block
  issued   : List LaneRef              -- lanes that have started an issue in this clk (12 R262)
  served   : List (Contest × Nat)      -- the requests of this clk, each with its place in the spec's order
  growq    : List (LaneRef × Nat × Nat)   -- waiting `xgrow` requests: lane, party, gang, in order of arrival
  parties  : List Party                -- in order of placement
  flight   : List Access               -- outstanding results and accesses, in order of issue
  cores    : Sparse Core               -- by die × 64 + core
  dies     : List Die
  tables   : Tables
  sys      : SysRegs
  live     : List Launch               -- the live table
  requests : List LaunchReq
  cntReqs  : List CntReq
  ports    : Sparse Port
  steward  : Steward
  turn     : Nat                       -- the command processor's turn: context × 16 + queue (12 R255)
  sent     : List Sent                 -- newest first
  stamp    : Nat
  past     : List Past                 -- newest first
  fences   : List ScFence
  changes  : Nat                       -- events and issues so far. Log 2
  draws    : Nat
  nextId   : Nat
  agent    : Agent
  latch    : Option (Agent × List Byte)   -- the instruction just fetched
  agenda   : List Occurrence
  deferred : List Instr                -- occurrences that could not go on yet, and come again. Log 38
  deriving DecidableEq, Repr

/-- Why the machine stops with a fault. None of the spec's faults stops the device: each is an exception it takes (16 R350, R352), and every address
is checked before it is used (10 R212, 14 R311). -/
inductive Fault
  | addressOutsideMemory   -- raised by nobody: kept so that the type has a name for what the checks rule out; safe
  deriving DecidableEq, Repr

/-- Why an instruction is refused. -/
inductive Refusal
  | notModelled (mnemonic : String)   -- raised by a dispatch arm without a meaning; safe
  | noIssuer                          -- raised by every instruction word when no gang or Outrider of the state runs it; safe
  deriving DecidableEq, Repr

/-- A die at device reset: the identity core map and four whole companies (DESIGN CHOICE, log 5), all else empty. -/
def Die.reset : Die :=
  { coreMap := (List.range 64).map (· % 16), avail := [true, true, true, true], spare := [true, true, true, true] }

/-- DEVFEAT at device reset: ISAREV 1, 256 cores, 16 companies, LINK_PROT and SWITCH_MERGE and HOST_BRIDGE clear
(17 R385; fuses: DESIGN CHOICE, log 5). -/
def devfeatReset : BitVec 256 := BitVec.ofNat 256 (0x01 + 256 * 2 ^ 8 + 0xFFFF * 2 ^ 17)

/-- The Steward at device reset. -/
def Steward.reset : Steward :=
  { devfeat := devfeatReset, m := List.replicate 16 0, lifecycle := 0 }

/-- The device right after device reset (00 R8): every item at the value its inventory table gives, tables empty, memory with
nothing listed. -/
def State.reset : State where
  clock := 0
  mem := []
  poison := []
  failing := []
  regs := []
  gens := []
  issued := []
  served := []
  growq := []
  parties := []
  flight := []
  cores := []
  dies := [Die.reset, Die.reset, Die.reset, Die.reset]
  tables := {}
  sys := {}
  live := []
  requests := []
  cntReqs := []
  ports := []
  steward := Steward.reset
  turn := 0
  sent := []
  stamp := 0
  past := []
  fences := []
  changes := 0
  draws := 0
  nextId := 1
  agent := .none
  latch := none
  agenda := []
  deferred := []

end Sys2Proof.Machine
end

