-- ==== Sys2Proof/Machine/Store.lean ====
section
/-!
DEFINITION. Reading and writing the parts of the state: sparse tables, the one byte memory with its poison bits and its write
history, registers of the lane files, and the look-up of parties, gangs, fibres, cores, dies and contexts by number.
-/

namespace Sys2Proof.Machine

/-! ### Sparse tables -/

/-- The value at a key, or the default. -/
def sget {α : Type} (d : α) : Sparse α → Nat → α
  | [], _ => d
  | (k, v) :: t, n => if k = n then v else if n < k then d else sget d t n

/-- The value at a key, if one is listed. -/
def sfind {α : Type} : Sparse α → Nat → Option α
  | [], _ => none
  | (k, v) :: t, n => if k = n then some v else if n < k then none else sfind t n

/-- Remove a key. -/
def sdel {α : Type} : Sparse α → Nat → Sparse α
  | [], _ => []
  | (k, v) :: t, n => if k = n then t else if n < k then (k, v) :: t else (k, v) :: sdel t n

/-- List a value at a key, keeping the keys strictly rising. -/
def sput {α : Type} : Sparse α → Nat → α → Sparse α
  | [], n, x => [(n, x)]
  | (k, v) :: t, n, x => if k = n then (n, x) :: t else if n < k then (n, x) :: (k, v) :: t else (k, v) :: sput t n x

/-- Set a value: the default is not listed. -/
def sset {α : Type} [DecidableEq α] (d : α) (m : Sparse α) (n : Nat) (x : α) : Sparse α :=
  if x = d then sdel m n else sput m n x

/-- Keys strictly rising, every key at or above a bound. -/
def sortedFrom {α : Type} : Nat → Sparse α → Bool
  | _, [] => true
  | lo, (k, _) :: t => decide (lo ≤ k) && sortedFrom (k + 1) t

/-- The canonical form of a sparse table: strictly rising keys and no default value listed. -/
def swf {α : Type} [DecidableEq α] (d : α) (m : Sparse α) : Bool := sortedFrom 0 m && m.all fun c => decide (c.2 ≠ d)

/-- Add a number to a strictly rising list. -/
def natAdd : List Nat → Nat → List Nat
  | [], n => [n]
  | k :: t, n => if n < k then n :: k :: t else if n = k then k :: t else k :: natAdd t n

/-- Take a number out of a strictly rising list. -/
def natDel (l : List Nat) (n : Nat) : List Nat := l.filter (· != n)

/-! ### Locations (08 R170): device memory by physical address, then the scratchpads, then near memory -/

/-- Device memory: 512 GiB (08 R172). -/
def devTop : Nat := 2 ^ 39
def locScratch (c : CoreRef) (off : Nat) : Nat := 2 ^ 39 + (c.die * 64 + c.core) * 2 ^ 20 + off
def locNear (die off : Nat) : Nat := 2 ^ 40 + die * 2 ^ 29 + off

def isScratch (loc : Nat) : Bool := decide (2 ^ 39 ≤ loc ∧ loc < 2 ^ 40)
def isNear (loc : Nat) : Bool := decide (2 ^ 40 ≤ loc)
def isDevice (loc : Nat) : Bool := decide (loc < 2 ^ 39)

/-- The die whose memory a location is in (08 R172). -/
def dieOf (loc : Nat) : Nat :=
  if loc < 2 ^ 39 then loc / 2 ^ 37 else if loc < 2 ^ 40 then (loc - 2 ^ 39) / 2 ^ 26 else (loc - 2 ^ 40) / 2 ^ 29

/-- What an unlisted location reads as (08 R170, R175, R179; device memory: log 1). -/
def emptyByte : Byte := 0

/-- The byte at a location as the last write in its modification order left it. -/
def State.byteAt (s : State) (loc : Nat) : Byte := sget emptyByte s.mem loc

/-- `n` bytes from a location, lowest address first. -/
def State.bytesAt (s : State) (loc : Nat) : Nat → List Byte
  | 0 => []
  | n + 1 => s.byteAt loc :: s.bytesAt (loc + 1) n

/-- The canonical form of memory: strictly rising addresses, no byte listed that an unlisted address reads as. -/
def Memory.wf (m : List Host.Cell) : Bool := swf emptyByte m

/-- Write bytes upwards from a location. -/
def memPut (m : List Host.Cell) (loc : Nat) : List Byte → List Host.Cell
  | [] => m
  | b :: bs => memPut (sset emptyByte m loc b) (loc + 1) bs

/-- Whether a location lies in a poisoned 64-byte unit (08 R187). -/
def State.poisonAt (s : State) (loc : Nat) : Bool := s.poison.contains (loc / 64)
def State.poisonIn (s : State) (loc len : Nat) : Bool :=
  s.poison.any fun u => decide (u * 64 < loc + len ∧ loc < u * 64 + 64)

/-- The units that a write of `len` bytes covers wholly. -/
def fullUnits (loc len : Nat) : List Nat :=
  let first := (loc + 63) / 64
  (List.range ((loc + len) / 64 - first)).map (first + ·)

/-- The units that a write of `len` bytes touches. -/
def touchedUnits (loc len : Nat) : List Nat :=
  if len = 0 then [] else
  let first := loc / 64
  (List.range ((loc + len - 1) / 64 - first + 1)).map (first + ·)

/-! ### Order of memory (09) -/

/-- The oldest state a view lets a byte range be read in: the newest write in it that happens-before. -/
def View.bound (v : View) (lo len : Nat) : Nat :=
  v.foldl (fun b f => if f.lo < lo + len ∧ lo < f.lo + f.len then max b f.stamp else b) 0

/-- Take in what another view knows. -/
def View.join (v w : View) : View := w.foldl (fun acc f => if acc.contains f then acc else f :: acc) v

/-- A write with its history: the bytes it replaces, under a fresh stamp; whole units written are unpoisoned (08 R187). -/
def State.write (s : State) (src : Issuer) (view : View) (rels : List Release) (atom : Option Scope) (loc : Nat)
    (bs : List Byte) (preds : List Nat := []) : State :=
  { s with
    mem := memPut s.mem loc bs
    poison := (fullUnits loc bs.length).foldl natDel s.poison
    stamp := s.stamp + 1
    past := ⟨s.stamp + 1, loc, s.bytesAt loc bs.length, src, view, rels, atom, preds⟩ :: s.past }

/-- A write that clears or loads memory outside any order: placement, carving, restore. Every agent sees it. -/
def State.poke (s : State) (loc : Nat) (bs : List Byte) : State :=
  { s with mem := memPut s.mem loc bs, poison := (fullUnits loc bs.length).foldl natDel s.poison
           past := s.past.filter fun w => !decide (w.lo < loc + bs.length ∧ loc < w.lo + w.old.length) }

/-- Keep the cells outside a range. -/
def memClear (m : List Host.Cell) (loc len : Nat) : List Host.Cell :=
  m.filter fun c => !decide (loc ≤ c.1 ∧ c.1 < loc + len)

/-- Clear a range to zero with poison 0 (08 R175, R179 to R181). -/
def State.clearRange (s : State) (loc len : Nat) : State :=
  { s with mem := memClear s.mem loc len
           poison := s.poison.filter fun u => !decide (loc ≤ u * 64 ∧ u * 64 + 64 ≤ loc + len)
           past := s.past.filter fun w => !decide (w.lo < loc + len ∧ loc < w.lo + w.old.length) }

/-- Poison every unit of a range (08 R187). -/
def State.taint (s : State) (loc len : Nat) : State := { s with poison := (touchedUnits loc len).foldl natAdd s.poison }

/-- Undo past writes newer than `t` on a byte list that starts at `loc`. -/
def rewind (t loc : Nat) (bs : List Byte) : List Past → List Byte
  | [] => bs
  | w :: ws =>
    if w.stamp ≤ t then bs
    else
      let bs' := bs.mapIdx fun i b => if w.lo ≤ loc + i ∧ loc + i < w.lo + w.old.length then w.old.getD (loc + i - w.lo) b else b
      rewind t loc bs' ws

/-- The bytes of a range as they stood at a stamp. -/
def State.bytesAsOf (s : State) (t loc n : Nat) : List Byte := rewind t loc (s.bytesAt loc n) s.past

/-- The stamps a read of one atomic unit may choose among, newest first (09 R196): now, or just before any write newer than the
view's bound. -/
def State.readStamps (s : State) (v : View) (loc n : Nat) : List Nat :=
  let b := v.bound loc n
  s.stamp :: (s.past.filter fun w => decide (b < w.stamp) && decide (w.lo < loc + n ∧ loc < w.lo + w.old.length)).map (·.stamp - 1)

/-- The newest write to a range at or before a stamp: the write the read takes. -/
def State.writeAt (s : State) (t loc n : Nat) : Option Past :=
  s.past.find? fun w => decide (w.stamp ≤ t) && decide (w.lo < loc + n ∧ loc < w.lo + w.old.length)

/-! ### Free choices (00 R2, log 7) -/

/-- Pick one of `n` outcomes: no draw is made when there is but one. -/
def State.draw (s : State) (n : Nat) : Nat × State :=
  if n ≤ 1 then (0, s) else (Config.choice s.draws % n, { s with draws := s.draws + 1 })

/-- A free 64-bit value. -/
def State.drawWord (s : State) : DWord × State := (Config.freeWord s.draws, { s with draws := s.draws + 1 })

/-- Read one atomic unit: a value some write the view allows left, the stamp it stood at, and the write that was taken. -/
def State.readUnit (s : State) (v : View) (loc n : Nat) : List Byte × Nat × Option Past × State :=
  let ts := s.readStamps v loc n
  let (k, s) := s.draw ts.length
  let t := ts.getD k s.stamp
  (s.bytesAsOf t loc n, t, s.writeAt t loc n, s)

/-- Free bytes. -/
def State.freeBytes (s : State) (n : Nat) : List Byte × State :=
  ((List.range n).map fun j => BitVec.ofNat 8 ((Config.freeWord (s.draws + j / 8)).toNat / 2 ^ (8 * (j % 8))), { s with draws := s.draws + n / 8 + 1 })

/-- A location whose frame is mapped through more than one intermediate page: it holds free values (14 R306). -/
def State.wild (s : State) (loc : Nat) : Bool := isDevice loc && decide (1 < (s.tables.mapped.filter fun m => m.frame == loc / 65536).length)

/-- The bytes a read takes at a location. -/
def State.wildBytes (s : State) (loc : Nat) (bs : List Byte) : List Byte × State := if s.wild loc then s.freeBytes bs.length else (bs, s)

/-- A fresh name. -/
def State.fresh (s : State) : Nat × State := (s.nextId, { s with nextId := s.nextId + 1 })

/-! ### Parties, gangs, fibres, crews -/

def State.party? (s : State) (uid : Nat) : Option Party := s.parties.find? (·.uid == uid)
def State.setParty (s : State) (p : Party) : State :=
  { s with parties := s.parties.map fun q => if q.uid == p.uid then p else q }

def Party.gang? (p : Party) (gid : Nat) : Option Gang := p.gangs.find? (·.gid == gid)
def Party.setGang (p : Party) (g : Gang) : Party := { p with gangs := p.gangs.map fun h => if h.gid == g.gid then g else h }
def Party.fibre? (p : Party) (fid : Nat) : Option Fibre := p.fibres.find? (·.fid == fid)
def Party.setFibre (p : Party) (f : Fibre) : Party := { p with fibres := p.fibres.map fun h => if h.fid == f.fid then f else h }
def Party.crew? (p : Party) (n : Nat) : Option Crew := p.crews.find? (·.num == n)
def Party.setCrew (p : Party) (c : Crew) : Party := { p with crews := p.crews.map fun h => if h.num == c.num then c else h }

/-- The fibres of a gang in slot order (03 R52). -/
def Party.members (p : Party) (g : Gang) : List Fibre := g.fibres.filterMap p.fibre?

def Party.onCrew (p : Party) (n : Nat) (f : Crew → Crew) : Party := { p with crews := p.crews.map fun c => if c.num == n then f c else c }

/-- Take accesses out of a crew's store queue. -/
def Crew.unqueue (c : Crew) (out : Nat → Bool) : Crew :=
  { c with storeq := (c.storeq.map fun ids => ids.filter fun i => !out i).filter fun ids => !ids.isEmpty }

/-- Set `$gstat` fields of a crew: they are sticky (03 R56). -/
def Crew.orGstat (c : Crew) (now : DWord) (m : Word) : Crew :=
  { c with gstat := c.gstat ||| m, gstatAt := (now, if c.gstatAt.1 = now then c.gstatAt.2 ||| m else m) }

/-- A write clears the fields whose bits it holds, but for those set in the same clk (03 R56). -/
def Crew.clearGstat (c : Crew) (now : DWord) (v : Word) : Crew :=
  { c with gstat := c.gstat &&& ~~~(if c.gstatAt.1 = now then v &&& ~~~c.gstatAt.2 else v) }

def Party.orGstat (p : Party) (now : DWord) (crew : Nat) (m : Word) : Party := p.onCrew crew fun c => c.orGstat now m

/-- A fibre comes to know more (09 R195). -/
def Fibre.know (f : Fibre) (v : View) : Fibre := { f with view := View.join f.view v, base := View.join f.base v }

def State.onParty (s : State) (uid : Nat) (f : Party → Party) : State :=
  { s with parties := s.parties.map fun q => if q.uid == uid then f q else q }
def Party.onGang (p : Party) (gid : Nat) (f : Gang → Gang) : Party :=
  { p with gangs := p.gangs.map fun h => if h.gid == gid then f h else h }
def Party.onFibre (p : Party) (fid : Nat) (f : Fibre → Fibre) : Party :=
  { p with fibres := p.fibres.map fun h => if h.fid == fid then f h else h }
def State.onGang (s : State) (uid gid : Nat) (f : Gang → Gang) : State := s.onParty uid (·.onGang gid f)
def State.onFibre (s : State) (uid fid : Nat) (f : Fibre → Fibre) : State := s.onParty uid (·.onFibre fid f)

def State.gang? (s : State) (uid gid : Nat) : Option Gang := (s.party? uid).bind (·.gang? gid)

/-! ### Cores, dies, contexts -/

def coreKey (c : CoreRef) : Nat := c.die * 64 + c.core
def State.core (s : State) (c : CoreRef) : Core := sget {} s.cores (coreKey c)
def State.setCore (s : State) (c : CoreRef) (k : Core) : State := { s with cores := sset {} s.cores (coreKey c) k }
def State.onCore (s : State) (c : CoreRef) (f : Core → Core) : State := s.setCore c (f (s.core c))
def State.onMill (s : State) (c : CoreRef) (f : Mill → Mill) : State := s.onCore c fun k => { k with mill := f k.mill }

def State.die (s : State) (d : Nat) : Die := s.dies.getD d Die.reset
def State.onDie (s : State) (d : Nat) (f : Die → Die) : State := { s with dies := s.dies.modify d f }

def State.ctx? (s : State) (n : Nat) : Option Context := sfind s.tables.contexts n
def State.onTables (s : State) (f : Tables → Tables) : State := { s with tables := f s.tables }
def State.setCtx (s : State) (c : Context) : State := s.onTables fun t => { t with contexts := sput t.contexts c.num c }
def State.onCtx (s : State) (n : Nat) (f : Context → Context) : State :=
  match s.ctx? n with
  | some c => s.setCtx (f c)
  | none => s

/-- The context a JOB tag selects (14 R316). -/
def State.jobCtx? (s : State) (job : Nat) : Option Context :=
  (s.tables.contexts.find? fun c => c.2.job == some job).map (·.2)

/-- The company a logical core lies in (01 R11). -/
def companyOf (core : Nat) : Nat := core / 16

/-! ### Lane files (03 R57, R58) -/

def laneKey (l : LaneRef) : Nat := (l.die * 64 + l.core) * 16 + l.lane
def regKey (l : LaneRef) (blk r : Nat) : Nat := (laneKey l * 256 + blk) * 64 + r
def genKey (l : LaneRef) (blk : Nat) : Nat := laneKey l * 256 + blk

def State.regAt (s : State) (l : LaneRef) (blk r : Nat) : Word := sget 0 s.regs (regKey l blk r)
def State.setReg (s : State) (l : LaneRef) (blk r : Nat) (w : Word) : State := { s with regs := sset 0 s.regs (regKey l blk r) w }
def State.genAt (s : State) (l : LaneRef) (blk : Nat) : BitVec 8 := sget 0 s.gens (genKey l blk)

/-- The lane a fibre's crew runs on: the crew number is the lane number (03 R63). -/
def Party.laneOf (p : Party) (crew : Nat) : LaneRef := ⟨p.core.die, p.core.core, crew⟩

/-- A v register of a fibre's window; a register outside the window reads 0 and is never reached past R31. -/
def State.vreg (s : State) (p : Party) (f : Fibre) (n : Nat) : Word :=
  match f.blocks[n / 64]? with
  | some b => s.regAt (p.laneOf f.crew) b (n % 64)
  | none => 0
def State.setVreg (s : State) (p : Party) (f : Fibre) (n : Nat) (w : Word) : State :=
  match f.blocks[n / 64]? with
  | some b => s.setReg (p.laneOf f.crew) b (n % 64) w
  | none => s

/-- Clear a block to zero, as every grant does (03 R57). -/
def State.clearBlock (s : State) (l : LaneRef) (blk : Nat) : State :=
  { s with regs := s.regs.filter fun c => !decide (regKey l blk 0 ≤ c.1 ∧ c.1 < regKey l blk 0 + 64) }

/-- Release a block: its generation advances (03 R58). -/
def State.releaseBlock (s : State) (l : LaneRef) (blk : Nat) : State :=
  { s with gens := sset 0 s.gens (genKey l blk) (s.genAt l blk + 1) }

/-- The lane blocks that fibres of a lane hold. -/
def State.heldBlocks (s : State) (l : LaneRef) : List Nat :=
  (s.parties.filter fun p => p.core == ⟨l.die, l.core⟩).flatMap fun p =>
    (p.fibres.filter fun f => f.crew == l.lane).flatMap (·.blocks)

/-- A released block stays out of the pool while a result in flight to it carries its present generation (03 R58). -/
def DestReg.pins (s : State) (l : LaneRef) (blk : Nat) : DestReg → Bool
  | .v b _ _ => b.lane == l && b.blk == blk && b.gen == s.genAt l blk
  | .s _ | .special _ _ => false

/-- The free pool of a lane, lowest block first (03 R57). -/
def State.freeBlocks (s : State) (l : LaneRef) : List Nat :=
  let held := s.heldBlocks l
  let inFlight := s.flight.flatMap fun a => a.dest ++ a.sd.toList
  (List.range 256).filter fun b => !held.contains b && !inFlight.any (DestReg.pins s l b)

/-- Where a v register lies, with the generation of its block, for a result that returns later (03 R58). -/
def State.blockRef (s : State) (p : Party) (f : Fibre) (n : Nat) : DestReg :=
  let l := p.laneOf f.crew
  let b := f.blocks.getD (n / 64) 0
  .v ⟨l, b, s.genAt l b⟩ (n % 64) f.crew

/-- Outgoing messages, newest first. -/
def State.emit (s : State) (m : Sent) : State := { s with sent := m :: s.sent }

end Sys2Proof.Machine
end

