-- ==== Sys2Proof/Machine/Ops.lean ====
section
/-!
DEFINITION. Shared operations on gangs and parties: outcomes, advancing and waiting, event records (16 R361), the end of a party
(16 R372), entry to level S and to the emulation handler (16 R350 to R354, 02 R42), and the return by `eret`'s control part.
-/

namespace Sys2Proof.Machine

abbrev Out := Host.Outcome State Fault Refusal

/-! ### Bytes and words -/

/-- The little-endian bytes of a value. -/
def bytesOf (n : Nat) (x : Nat) : List Byte := leBytes n x
def w32 (x : Nat) : Word := BitVec.ofNat 32 x
def w64 (x : Nat) : DWord := BitVec.ofNat 64 x
/-- Field [hi:lo] of a 64-bit word. -/
def fld (x : DWord) (hi lo : Nat) : Nat := bits x.toNat hi lo
/-- Field [hi:lo] of the little-endian value of bytes from `off`. -/
def leAt (bs : List Byte) (off n : Nat) : Nat := leNat ((bs.drop off).take n)

/-- Divide rounding up. -/
def ceilDiv (a b : Nat) : Nat := (a + b - 1) / b

/-! ### Counters as named by contexts (15 R331, R334) -/

/-- The home die and physical counter of a number of a context; none is unmapped. -/
def State.counterHome (s : State) (ctx num : Nat) : Option (Nat × Nat) :=
  (s.ctx? ctx).bind fun c => (sfind c.cmap (num / 64 % 64)).map fun e => (e.1, 64 * e.2 + num % 64)

/-- Send an increment of 1 towards a counter of this device. -/
def State.countUp (s : State) (ctx num : Nat) (src : Issuer) (scope : Scope) (view : View) (more : List CntEdge := []) : State :=
  let (id, s) := s.fresh
  { s with cntReqs := s.cntReqs ++ [{ id := id, ctx := ctx, num := num, op := .add 1, access := none, src := src, scope := scope
                                      view := view, more := more }] }

/-- A 32-bit counter of the device's link events (15 R346): numbered from 0x0318; it saturates. -/
def State.linkEvent (s : State) (reg : Nat) : State :=
  s.onTables fun t => { t with links := sset 0 t.links reg (min (sget 0 t.links reg + 1) (2 ^ 32 - 1)) }

/-- An error counter of a die (15 R346): 0 CE_HBM, 1 CE_SRAM, 2 CE_SCRATCH, 3 CE_CACHE, 4 CE_RF, 5 UE_TOTAL; they saturate. -/
def State.errCount (s : State) (die k : Nat) : State :=
  s.onDie die fun d => { d with errs := sset 0 d.errs k (min (sget 0 d.errs k + 1) (2 ^ 32 - 1)) }

/-! ### Performance counters (15 R348) -/

/-- A counter that counts lane beats, misses of L1 or waits on the range scoreboard: the spec gives no number for any clk (log 7). -/
def Pmc.timing (m : Pmc) : Bool := m.sel.getLsbD 15 && [0x03, 0x08, 0x09].contains (m.sel.toNat % 256)

/-- Count `n` events of a kind at a core, for a context. -/
def State.count (s : State) (c : CoreRef) (ev n ctx : Nat) : State :=
  let k := s.core c
  if k.pmcs.isEmpty then s
  else
    let add := fun (e : Nat × Pmc) =>
      if e.2.sel.getLsbD 15 && e.2.sel.toNat % 256 == ev && (!e.2.sel.getLsbD 14 || e.2.ctx == ctx)
      then (e.1, { e.2 with count := e.2.count + BitVec.ofNat 48 n }) else e
    s.setCore c { k with pmcs := k.pmcs.map add }

/-- Count events of a party. -/
def State.countParty (s : State) (uid ev n : Nat) : State :=
  match s.party? uid with
  | some p => s.count p.core ev n p.ctx
  | none => s

/-! ### The event queue (16 R361) -/

/-- The unit that waits with a record: a Mill unit, the Porter or the Outrider of a core; 0 is none. -/
def unitKey (c : CoreRef) (k : Nat) : Nat := 1 + 4 * coreKey c + k

/-- The Steward, the command processor, and what finds the errors of a die's storage, as units that wait with their records (16 R361). -/
def unitSteward : Nat := 2 ^ 16
def unitCommand : Nat := 2 ^ 16 + 1
def unitErrors (die : Nat) : Nat := 2 ^ 16 + 2 + die

/-- Where a record comes from: its context, place, party slot and unit index. -/
structure EventSrc where
  ctx    : Nat := 0
  core   : CoreRef := ⟨0, 0⟩
  slot   : Nat := 0
  unitid : Nat := 0
  pc     : Word := 0
  deriving DecidableEq, Repr

/-- The 32 bytes of an event record. -/
def eventBytes (addr : DWord) (cls sub : Nat) (e : EventSrc) : List Byte :=
  bytesOf 8 addr.toNat ++ bytesOf 4 (cls * 2 ^ 24 + sub % 256 * 2 ^ 16 + e.ctx * 2 ^ 10) ++
  bytesOf 4 (e.core.die * 2 ^ 14 + e.core.core * 2 ^ 8 + e.slot * 2 ^ 4) ++ bytesOf 4 e.unitid ++ bytesOf 4 e.pc.toNat ++
  bytesOf 8 0

/-- Records of the supervisor's rings are written by the device itself, outside every party. -/
def deviceIssuer : Issuer := { cls := .fab }

/-- Whether the event ring takes another record. -/
def SysRegs.eqRoom (r : SysRegs) : Bool :=
  r.eqbase.getLsbD 63 && decide ((r.eqtail - r.eqhead.setWidth 32).toNat < 2 ^ fld r.eqbase 62 58)

/-- Write one record to the event ring and count it on EQWAKE. -/
def State.eventWrite (s : State) (rec32 : List Byte) : State :=
  let base := fld s.sys.eqbase 38 0
  let slot := s.sys.eqtail.toNat % 2 ^ fld s.sys.eqbase 62 58
  let s := s.write deviceIssuer [] [] none (base + 32 * slot) rec32
  let s := { s with sys := { s.sys with eqtail := s.sys.eqtail + 1 } }
  if s.sys.eqwake.getLsbD 63 then s.countUp s.sys.sctx (fld s.sys.eqwake 11 0) deviceIssuer .dev [] else s

/-- Post an event record; without room it waits, and its unit with it. -/
def State.event (s : State) (unit : Nat) (addr : DWord) (cls sub : Nat) (e : EventSrc) : State :=
  let r := eventBytes addr cls sub e
  if s.tables.eqWait.isEmpty && s.sys.eqRoom then s.eventWrite r
  else s.onTables fun t => { t with eqWait := t.eqWait ++ [(r, unit)] }

/-- Write waiting event records while there is room, at most one for each that waits. -/
def State.drainEvents (s : State) : State :=
  s.tables.eqWait.foldl (fun s r =>
    if s.sys.eqRoom then (s.onTables fun t => { t with eqWait := t.eqWait.drop 1 }).eventWrite r.1 else s) s

/-- Whether a unit waits with a record that found no room. -/
def State.unitBlocked (s : State) (unit : Nat) : Bool := s.tables.eqWait.any fun r => r.2 == unit

/-- A notice to the host's mailbox: dropped, with LOST, when the ring holds 16 (17 R384). -/
def State.notice (s : State) (kind arg0 arg1 : Nat) : State :=
  let w := s.steward
  if (w.ntail - w.nhead).toNat = 16 then { s with steward := { w with lost := true } }
  else
    let bs := bytesOf 4 kind ++ bytesOf 4 arg0 ++ bytesOf 8 arg1 ++ bytesOf 8 s.clock.toNat ++ bytesOf 8 0
    let at_ := 32 * (w.ntail.toNat % 16)
    let ring := (List.range 32).foldl (fun (m : Sparse Byte) i => sset 0 m (at_ + i) (bs.getD i 0)) w.notices
    { s with steward := { w with notices := ring, ntail := w.ntail + 1 } }

/-- The bits [hi:lo] of a register, for the fields it has (00 R7). -/
def fieldMask (fs : List (Nat × Nat)) : DWord := w64 (fs.map fun f => 2 ^ (f.1 + 1) - 2 ^ f.2).sum

/-- A memory error record, which also goes to the Steward (08 R186, 16 R361, 17 R384). -/
def State.memRecord (s : State) (sub addr : Nat) (e : EventSrc) : State :=
  (s.event (unitErrors (if sub = 1 then dieOf addr else e.core.die)) (w64 addr) 0x34 sub e).notice 4 sub addr

def Party.source (p : Party) : EventSrc := ⟨p.ctx, p.core, p.slot, p.unitid, 0⟩

/-- The `$pc` of the lowest live fibre of a party. -/
def Party.lowestPc (p : Party) : Word :=
  match p.fibres.foldl (fun (b : Option Fibre) f => match b with
    | none => some f
    | some g => if f.fid < g.fid then some f else b) none with
  | some f => f.pc
  | none => 0

/-! ### Fibres leave -/

/-- Take fibres out of their gang; a gang left empty dissolves (06 R124). -/
def Party.leave (p : Party) (gid : Nat) (fids : List Nat) : Party :=
  { p with gangs := (p.gangs.map fun g => if g.gid == gid then { g with fibres := g.fibres.filter fun i => !fids.contains i } else g).filter
                      fun g => !g.fibres.isEmpty }

/-- A fibre ends: an access no longer counts for it. What was set aside for it alone is never made. -/
def Access.lose (a : Access) (uid fid : Nat) : Option Access :=
  if a.uid == uid && a.fibs.contains fid then
    let fibs := a.fibs.filter (· != fid)
    if a.aside && fibs.isEmpty then none else some { a with fibs := fibs }
  else some a

/-- End a fibre (03 R62): its blocks are released at once, so that its outstanding register results will be discarded; its
accesses go on as orphans. -/
def State.endFibre (s : State) (uid fid : Nat) : State :=
  match s.party? uid with
  | none => s
  | some p => match p.fibre? fid with
    | none => s
    | some f =>
      let s := f.blocks.foldl (fun s b => s.releaseBlock (p.laneOf f.crew) b) s
      let s : State := { s with flight := s.flight.filterMap fun a => a.lose uid fid }
      s.onParty uid fun p => { p with fibres := p.fibres.filter fun h => h.fid != fid }

/-! ### The dispatch order of launches (12 R254, R258) -/

/-- A 32-bit word of a launch packet, its PRIO, its NUNITS. -/
def pkW (b : List Byte) (off : Nat) : Nat := leAt b off 4
def pkPrio (b : List Byte) : Nat := bits (pkW b 0) 22 21
def pkNunits (b : List Byte) : Nat := pkW b 8

/-- Ready launches in dispatch order: higher PRIO first, then earlier read (12 R258). -/
def Launch.before (a b : Launch) : Bool :=
  let p := pkPrio a.packet
  let q := pkPrio b.packet
  decide (q < p) || (p == q && decide (a.read < b.read))
def Launch.left (l : Launch) : Bool := l.state == .placing && !l.err && decide (l.next < pkNunits l.packet)
def State.firstLaunch (s : State) : Option Launch :=
  (s.live.filter Launch.left).foldl (fun b l => match b with
    | none => some l
    | some f => if Launch.before l f then some l else some f) none

/-- Note when a launch comes to stand first in the dispatch order: `$clock` + 1 (12 R258). -/
def State.markFirst (s : State) : State :=
  let first := s.firstLaunch.map (·.idx)
  { s with live := s.live.map fun l =>
      if first = some l.idx then { l with ready := if l.ready = 0 then s.clock.toNat + 1 else l.ready } else { l with ready := 0 } }

/-! ### The end of a party by a contained error (16 R372) -/

def EngineReq.uid : EngineReq → Nat
  | .port c => c.uid
  | .mill c => c.uid
  | .gang _ uid _ _ => uid

/-- ACAUSE codes (13 R291). -/
def abortContained : Nat := 6

/-- The CONTAINED SUB codes (16 R352). -/
inductive EndCause | rfError | stateLost | supervisorFault | retired | ended
  deriving DecidableEq, Repr

def EndCause.code : EndCause → Nat
  | .rfError => 1 | .stateLost => 2 | .supervisorFault => 3 | .retired => 4 | .ended => 5

/-- Commands that leave give up their places in the lines for slots (11 R247). -/
def State.leaveSlots (s : State) (ids : List Nat) : State :=
  let slot := fun (x : Slot) => if x.waiting.any ids.contains then { x with waiting := x.waiting.filter fun i => !ids.contains i } else x
  { s with dies := s.dies.map fun d => { d with slots := d.slots.map slot } }

/-- The result of an accepted command that has still to run. -/
def AccOp.isLater : AccOp → Bool
  | .later _ => true
  | _ => false

/-- End a party with a contained error: its fibres stop, its queued engine entries and triggers go, the collectives it takes part
in abort, its launch will complete CONTAINED, and a record is written (16 R372). Its `fetchw` requests are still answered (12 R260). -/
def State.endParty (s : State) (uid : Nat) (cause : EndCause) : State :=
  match s.party? uid with
  | none => s
  | some p =>
    if p.ended then s else
    let s := p.fibres.foldl (fun s f => s.endFibre uid f.fid) s
    let s := s.onParty uid fun p => { p with gangs := [], bins := [], saved := [], ended := true, suspended := false, returning := false }
    let s := { s with growq := s.growq.filter fun w => w.2.1 != uid }
    let queued := (s.core p.core).mill.queue.filter fun c => c.uid == uid
    let owed := queued.filterMap (·.item)
    let asked := (s.requests.filter fun r => r.uid == uid && p.gangs.any fun g => g.wait == some (.launch r.id)).map (·.id)
    let s := { s with requests := s.requests.filter fun r => !asked.contains r.id
                      flight := s.flight.filter fun a => !(asked.contains a.id || (a.uid == uid && a.op.isLater && owed.contains a.insn)) }
    let s := s.leaveSlots (queued.map (·.id))
    let s := s.onCore p.core fun k =>
      { k with
        mill := { k.mill with queue := k.mill.queue.filter fun c => c.uid != uid
                              spilling := if k.mill.spilling == some uid then none else k.mill.spilling }
        urgent := k.urgent.filter fun c => c.uid != uid
        normal := k.normal.filter fun c => c.uid != uid
        waiting := k.waiting.filter fun r => r.uid != uid
        outrider := if k.outrider.uid == uid then { k.outrider with running := false, loops := [], waiting := false } else k.outrider
        xfers := k.xfers.map fun x => if x.cmd.uid == uid && (x.coll.isSome || x.held) && x.abort.isNone
          then { x with abort := some abortContained } else x }
    let s : State := { s with
      dies := s.dies.map fun d => { d with triggers := d.triggers.filter fun t => t.uid != uid }
      live := s.live.map fun l => if p.launch == some l.idx then { l with err := true, status := 2 } else l }
    s.markFirst.event 0 0 0x35 cause.code { p.source with pc := 0 }

/-! ### Party faults (16 R350, R352) -/

/-- A party fault halts the party: none of its gangs issue, and an event record is written. -/
def State.partyFault (s : State) (uid cls : Nat) : State :=
  match s.party? uid with
  | none => s
  | some p =>
    if p.halted || p.ended then s else
    (s.onParty uid fun p => { p with halted := true }).event 0 0 cls 0 { p.source with pc := p.lowestPc }

/-! ### Gangs: advancing and waiting -/

/-- The `$pc` of a gang: all its fibres stand at one (06 R124). -/
def Party.pcOf (p : Party) (g : Gang) : Word := ((p.members g).head?.map (·.pc)).getD 0

/-- Put every fibre of a gang at an address. -/
def Party.setPc (p : Party) (g : Gang) (pc : Word) : Party :=
  { p with fibres := p.fibres.map fun f => if g.fibres.contains f.fid then { f with pc := pc } else f }

/-- The address of the instruction after one of the given raw form. -/
def nextPc (pc : Word) (r : Raw) : Word := pc + w32 (lenBytes r.len)

/-- Something has changed: gangs that wait to try again may. -/
def State.tick (s : State) : State := { s with changes := s.changes + 1 }

/-- The lane of a crew of a party: crew number and lane number are one (03 R63). -/
def State.laneIssued (s : State) (uid gid : Nat) : List LaneRef :=
  match s.party? uid with
  | none => s.issued
  | some p => match p.gang? gid with
    | some g => if s.issued.contains (p.laneOf g.crew) then s.issued else p.laneOf g.crew :: s.issued
    | none => s.issued

/-- What an issue does to the Sieve's state: the ready stamp and the effective class restart (06 R120, R126), and the lane has issued in this clk. -/
def State.stampIssue (s : State) (uid gid : Nat) : State :=
  ({ s.tick with issued := s.laneIssued uid gid } : State).onParty uid fun p => p.onGang gid fun g =>
    { g with ready := s.clock.toNat, age := 0, wait := none, boundary := false
             cls := ((p.crew? g.crew).map (·.prio)).getD 0 }

/-- A gang goes on past an instruction. -/
def State.advance (s : State) (uid gid : Nat) (r : Raw) : State :=
  let s := (s.stampIssue uid gid).countParty uid 0x02 1
  s.onParty uid fun p => match p.gang? gid with
    | none => p
    | some g => p.setPc g (nextPc (p.pcOf g) r)

/-- One of this clk's requests for the same thing stands behind this place in the spec's order and has been served: this one reaches it a clk later. -/
def State.overtaken (s : State) (k : Contest) (place : Nat) : Bool := s.served.any fun x => x.1 == k && decide (place < x.2)
def State.serve (s : State) (k : Contest) (place : Nat) : State := { s with served := (k, place) :: s.served }

/-- A wait that is tried again when the device has changed. -/
def State.holdAgain (s : State) (uid gid : Nat) : State := s.onGang uid gid fun g => { g with wait := some (.again s.changes) }

/-- A gang does not issue: it stays at the instruction, with what holds it back. -/
def State.hold (s : State) (uid gid : Nat) (w : Wait) : State := s.onGang uid gid fun g => { g with wait := some w }

/-- A wait that an event ends: the gang goes on past its instruction, or, for a replayed one, stays where it is. -/
def State.endWait (s : State) (uid gid : Nat) (r : Raw) : State :=
  match s.gang? uid gid with
  | none => s
  | some g =>
    if g.redoWait then s.onGang uid gid fun g => { g with wait := none, redoWait := false, ready := s.clock.toNat, age := 0 }
    else s.advance uid gid r

/-! ### Outstanding results of a gang (02 R34, 10 R222) -/

/-- An access of memory: not a result, a counter operation or a launch's read. -/
def AccOp.isMem : AccOp → Bool
  | .load _ _ | .store _ | .atom _ _ _ | .cas _ _ _ | .seal _ => true
  | .value _ | .later _ | .cnt _ _ _ | .copy _ _ => false

def Access.reads (a : Access) : Bool :=
  match a.op with
  | .load _ _ | .atom _ _ _ | .cas _ _ _ | .cnt _ _ _ | .seal _ => true
  | _ => false
def Access.stores (a : Access) : Bool :=
  match a.op with
  | .store _ | .atom _ _ _ | .cas _ _ _ | .seal _ => true
  | _ => false
/-- An access of memory or of a counter, not only a result to come. -/
def Access.isAccess (a : Access) : Bool := a.reads || a.stores
/-- Not yet performed, and not refused. -/
def Access.open_ (a : Access) : Bool :=
  match a.stage with
  | .done _ _ | .refused _ _ => false
  | _ => true

/-- The outstanding items that a gang waits for: those of its fibres, wherever they were issued. -/
def Access.ofGang (a : Access) (uid : Nat) (g : Gang) : Bool := a.uid == uid && a.fibs.any g.fibres.contains

/-- Whether an outstanding item will still write a register. -/
def Access.writesReg (a : Access) : Bool := !a.dest.isEmpty || a.sd.isSome

def Stage.isRefused : Stage → Bool
  | .refused _ _ => true
  | _ => false

/-- The outstanding items of a gang. -/
def State.itemsOf (s : State) (uid : Nat) (g : Gang) : List Access := s.flight.filter fun a => a.ofGang uid g

/-- The register results a W marker waits for (02 R34): not yet written, discarded, found faulty, or set aside until a fault's handler returns. -/
def State.outstanding (s : State) (uid : Nat) (g : Gang) : Bool :=
  (s.itemsOf uid g).any fun a => a.writesReg && !a.stage.isRefused && !a.aside

/-- Results still aimed at s registers of the gang (03 R54). -/
def State.scalarPending (s : State) (uid : Nat) (g : Gang) : Bool :=
  (s.itemsOf uid g).any fun a => !a.stage.isRefused && (a.dest ++ a.sd.toList).any fun d => match d with
    | .s _ => true
    | .v _ _ _ | .special _ _ => false

/-- Faults found after issue that the gang has still to take, in order of their instructions (10 R222, 16 R354). A fault of an
access made at level U waits while the gang is at level S (DEDUCED, log 12). -/
def State.pendingFaults (s : State) (uid : Nat) (g : Gang) : List Access :=
  (s.itemsOf uid g).filter fun a => a.stage.isRefused && (a.lvl || !g.level)

/-- Distinct instructions of a list of accesses, in order. -/
def insns (as : List Access) : List Nat := as.foldl (fun l a => if l.contains a.insn then l else l ++ [a.insn]) []

/-- Whether a fault class is replayed by `eret` (the REPLAY column of 16 R352). -/
def replayable (cls : Nat) : Bool := cls == 0x0A || cls == 0x0B || cls == 0x0D || cls == 0x0E || cls == 0x0F

/-- The position of a fibre among the slots of a gang (03 R52). -/
def Gang.slotOf (g : Gang) (fid : Nat) : Nat := g.fibres.idxOf fid

/-- The 32-bit mask of some slots. -/
def maskOf (slots : List Nat) : Word := slots.foldl (fun m i => m ||| (1#32 <<< i)) 0

/-- The lane blocks of some destinations, with the generations they carry. -/
def blockRefs (ds : List DestReg) : List BlockRef := ds.filterMap fun d => match d with
  | .v b _ _ => some b
  | .s _ | .special _ _ => none

/-- What a refused access raises: its instruction, class and SUB. An instruction writes an entry for each class that its accesses met (log 82). -/
def Access.fault (a : Access) : Nat × Nat × Nat :=
  match a.stage with
  | .refused c b => (a.insn, c, b)
  | _ => (a.insn, 0, 0)

/-- The faults of some accesses, in order. -/
def faultsOf (as : List Access) : List (Nat × Nat × Nat) :=
  as.foldl (fun l a => if l.contains a.fault then l else l ++ [a.fault]) []

/-- What the log records of the fibres of an access: its own, or all those of a gang-wide one (16 R354). -/
def Access.logged (a : Access) : List LoggedFibre :=
  (a.fid.elim a.fibs fun f => [f]).map fun f => ⟨f, a.srcs, a.addr, blockRefs (a.dest ++ a.sd.toList)⟩

/-- The log entry of one fault of an instruction's accesses (16 R354). -/
def logOf (g : Gang) (as : List Access) : Option LogEntry :=
  match as with
  | [] => none
  | a :: _ =>
    let (_, cls, sub) := a.fault
    let fids := as.filterMap (·.fid)
    some { raw := a.raw, pc := a.pc, cls := cls, sub := sub, replay := replayable cls, addr := a.addr
           fmask := if a.fid.isNone then 0 else maskOf (fids.map g.slotOf)
           fibres := if a.mates.isEmpty then as.flatMap Access.logged else a.mates
           redo := .access as }

/-- The first four log entries of a gang's pending faults, and the accesses they use up. -/
def State.pendingLog (s : State) (uid : Nat) (g : Gang) : List LogEntry × List Nat :=
  let fs := s.pendingFaults uid g
  let ks := (faultsOf fs).take 4
  (ks.filterMap fun k => logOf g (fs.filter fun a => a.fault == k), (fs.filter fun a => ks.contains a.fault).map (·.id))

/-! ### Taking an exception (16 R350, R353, R354, 02 R42): the one shared operation -/

/-- Enter level S: SPREV takes the old level, SEPC the continuation address, the log holds the faults, every fibre goes to SENTRY.
A gang at level S that takes any fault but an encoding trap ends its party (16 R351). -/
def State.enterS (s : State) (uid gid : Nat) (sepc : Word) (entries : List LogEntry) : State :=
  match s.party? uid with
  | none => s
  | some p => match p.gang? gid with
    | none => s
    | some g =>
      if g.level && !(entries.all fun e => e.cls == 0x01) then s.endParty uid .supervisorFault
      else
        let s := s.stampIssue uid gid
        let s := { s with growq := s.growq.filter fun w => !(w.2.1 == uid && w.2.2 == gid) }
        (s.onParty uid fun p => (p.setPc g s.sys.sentry)).onGang uid gid fun g =>
          { g with level := true, sprev := g.level, sepc := sepc, slog := entries, redoWait := false, replaying := false
                   newlog := [] }

/-- Two accesses of one fibre for program order (10 R213): a gang-wide access is one of every fibre of the gang that issued it. -/
def Access.sameFibre (a b : Access) : Bool := a.uid == b.uid && a.fibs.any b.fibs.contains

/-- Two parts touch a common 64-byte unit. -/
def Part.meetsUnit (p q : Part) : Bool := decide (p.va / 64 ≤ (q.va + q.len - 1) / 64 ∧ q.va / 64 ≤ (p.va + p.len - 1) / 64)
def partsMeetUnit (ps qs : List Part) : Bool := ps.any fun p => qs.any p.meetsUnit

/-- Neither performed nor on its way to another device. -/
def Stage.isQueued : Stage → Bool
  | .toWalk | .held _ | .ready => true
  | _ => false

/-- An access that was issued before an earlier one of its fibre was refused, and that overlaps a 64-byte unit of it: it waits for the replay
(10 R222 point 3, log 82). -/
def Access.shadows (r a : Access) : Bool :=
  r.op.isMem && r.stage.isQueued && !r.aside && r.sameFibre a && decide (a.insn < r.insn) && partsMeetUnit r.parts a.parts &&
  (match a.stage with | .refused c _ => replayable c | _ => false)

/-- A release in a store queue covers an access that was refused; or an access waits behind it. -/
def Access.covers (r a : Access) : Bool :=
  (!r.rels.isEmpty && r.stage == .ready && !r.aside && r.sameFibre a && decide (a.insn < r.insn)) || r.shadows a

/-- An access already issued waits for one whose fault the gang has still to take (10 R222 points 3 and 4). -/
def State.releaseStuck (s : State) (uid : Nat) (g : Gang) : Bool :=
  (s.pendingFaults uid g).any fun a => s.flight.any fun r => r.covers a

/-- A fault is taken at a release, or an overlapping access, that has been issued (10 R222 points 3 and 4): it, and what its fibres issued after it,
wait until the handler has returned (log 82). -/
def State.setAside (s : State) (uid crew : Nat) (taken : List Access) : State :=
  let rels := s.flight.filter fun r => taken.any r.covers
  let waits := fun (a : Access) => rels.any fun r => r.sameFibre a && decide (r.insn ≤ a.insn) && a.op.isMem && a.stage.isQueued
  let ids := (s.flight.filter waits).map (·.id)
  let s : State := { s with flight := s.flight.map fun a => if ids.contains a.id then { a with aside := true } else a }
  if ids.isEmpty then s else s.onParty uid fun p => p.onCrew crew fun c => c.unqueue ids.contains

/-- The handler has returned to level U: what was set aside goes on, in the order it was issued. -/
def State.bringBack (s : State) (uid : Nat) (g : Gang) : State :=
  let back := s.flight.filter fun a => a.aside && a.ofGang uid g
  let ids := back.map (·.id)
  let queue := (insns back).map fun i => (back.filter fun a => a.insn == i && a.stores).map (·.id)
  let s : State := { s with flight := s.flight.map fun a => if ids.contains a.id then { a with aside := false } else a }
  if ids.isEmpty then s else s.onParty uid fun p => p.onCrew g.crew fun c => { c with storeq := c.storeq ++ queue.filter fun l => !l.isEmpty }

/-- A gang takes the faults found after issue, at the instruction at `pc`, which has not issued (10 R222, 16 R353). -/
def State.takePending (s : State) (uid gid : Nat) (pc : Word) (more : List LogEntry := []) : State :=
  match s.gang? uid gid with
  | none => s
  | some g =>
    let (log, used) := s.pendingLog uid g
    let s := s.setAside uid g.crew (s.flight.filter fun a => used.contains a.id)
    let s := { s with flight := s.flight.filter fun a => !used.contains a.id }
    s.enterS uid gid pc ((log ++ more).take 4)

/-- A precise fault found at issue: entries already pending are taken with it, ahead of it (16 R353); the instruction has issued (15 R348). -/
def State.faultAt (s : State) (uid gid : Nat) (sepc : Word) (e : LogEntry) : State := (s.takePending uid gid sepc [e]).countParty uid 0x02 1

/-- A fault of a fetch, with the entries already pending ahead of it (16 R425). -/
def State.fetchFault (s : State) (uid gid : Nat) (sepc : Word) (e : LogEntry) : State := s.takePending uid gid sepc [e]

/-- `$xop` of an encoding trap (02 R42); an ILLEGAL_LEN trap shows the LEN of the word, 0 (DEDUCED, log 76). -/
def xopOf (cause : Nat) (r : Raw) : Word :=
  w32 (cause * 2 ^ 18 + r.ge * 2 ^ 17 + r.gd * 2 ^ 14 + r.gn * 2 ^ 13 + r.w * 2 ^ 12 + r.len * 2 ^ 10 + r.op)

/-- CAUSE codes (02 R42) and the classes that go to the supervisor (02 R41). -/
def Cause.emulate? : Cause → Option Nat
  | .illegalLen => some 0
  | .reservedGroup => some 1
  | .unassignedOp => some 2
  | .badOperand => some 3
  | .reservedMod => some 4
  | .fetchSplit | .priv | .illegal => none

/-- The emulation-field registers at entry (02 R42). -/
def emuFields (cause : Nat) (r : Raw) (pc : Word) : Emu :=
  { xop := xopOf cause r, xd := w32 r.d, xa := w32 r.a, xb := w32 r.b, xc := w32 (if r.len = 3 then r.c else 0)
    ximm := w32 (if r.len = 2 then r.imm else r.x), xpc := pc }

/-- What the log holds of an instruction that faults at issue. -/
def issueLog (r : Raw) (pc : Word) (cls sub : Nat) (addr : DWord := 0) (fmask : Word := 0) (redo : Redo := .none)
    (fibres : List LoggedFibre := []) : LogEntry :=
  { raw := r, pc := pc, cls := cls, sub := sub, replay := replayable cls, addr := addr, fmask := fmask, fibres := fibres, redo := redo }

/-- What the log records of an instruction that took effect on all the fibres of a gang, with its source operands and its address (16 R354). -/
def Gang.logged (g : Gang) (srcs : List DWord := []) (addr : DWord := 0) : List LoggedFibre := g.fibres.map fun f => ⟨f, srcs, addr, []⟩

/-- An encoding that is no instruction of the gang (02 R41, R42): every earlier instruction completes first, as under a W marker;
then PRIV and FETCH_SPLIT go to the supervisor and the others to the emulation entry, or to the supervisor where that is zero or
the gang is at level S. -/
def State.encodingTrap (s : State) (uid gid : Nat) (cause : Cause) (r : Raw) : State :=
  match s.party? uid with
  | none => s
  | some p => match p.gang? gid with
    | none => s
    | some g =>
      let pc := p.pcOf g
      if !(s.pendingFaults uid g).isEmpty then s.takePending uid gid pc
      else if s.outstanding uid g then s.hold uid gid .marker
      else match Cause.emulate? cause with
        | none =>
          if cause == .fetchSplit then s.enterS uid gid pc [issueLog r pc 0x02 0 0 0 .none g.logged]
          else s.enterS uid gid (nextPc pc r) [issueLog r pc 0x03 0 0 0 .none g.logged]
        | some k =>
          let s := s.onGang uid gid fun g => { g with emu := emuFields k r pc }
          let entry := ((s.ctx? p.ctx).map (·.emu)).getD 0
          if g.level || entry == 0 then s.enterS uid gid (nextPc pc r) [issueLog r pc 0x01 k 0 0 .none g.logged]
          else
            let s := s.stampIssue uid gid
            s.onParty uid fun p => p.setPc g entry

/-! ### The return (16 R357): `eret` -/

/-- The control part of `eret` at level S: the log empties, the level becomes SPREV and the gang resumes at SEPC. -/
def State.resumeS (s : State) (uid gid : Nat) : State :=
  match s.gang? uid gid with
  | none => s
  | some g =>
    let s := (s.stampIssue uid gid).countParty uid 0x02 1
    let s := if g.sprev then s else s.bringBack uid g
    (s.onParty uid fun p => p.setPc g g.sepc).onGang uid gid fun g => { g with level := g.sprev, slog := [], replaying := false, newlog := [] }

/-- `eret` at level U: resume after the instruction that trapped (02 R42). -/
def State.resumeU (s : State) (uid gid : Nat) : State :=
  match s.gang? uid gid with
  | none => s
  | some g =>
    let len := lenBytes (bits g.emu.xop.toNat 11 10)
    let s := (s.stampIssue uid gid).countParty uid 0x02 1
    (s.onParty uid fun p => p.setPc g (g.emu.xpc + w32 len)).onGang uid gid fun g => { g with boundary := true }

end Sys2Proof.Machine
end

