-- ==== Sys2Proof/Machine/Operands.lean ====
section
/-!
DEFINITION. Every operand form of the register instructions: the take-effect set (02 R32), the fibre that supplies a gang-wide form
(03 R51), reading special registers (03 R50), `read_src` and `write_dst` (04 R72), and the window check (02 R31).
-/

namespace Sys2Proof.Machine

/-! ### Who takes part -/

/-- Entry k of a fibre's predicate shift register (03 R53). -/
def Fibre.predAt (f : Fibre) (k : Nat) : Bool := f.pred.getLsbD k

/-- A guard holds on a fibre (02 R32). -/
def guardHolds (g : Option Guard) (f : Fibre) : Bool :=
  match g with
  | none => true
  | some g => xor (f.predAt g.depth) g.neg

/-- The fibres on which a per-fibre instruction takes effect (02 R32), in slot order. -/
def takeEffect (h : Head) (ms : List Fibre) : List Fibre := ms.filter fun f => f.exec && guardHolds h.guard f

/-- The fibre that supplies the per-fibre sources of a gang-wide form (03 R51): the lowest slot whose execute bit is set, else
slot 0. -/
def supplier (ms : List Fibre) : Option Fibre :=
  match ms.find? (·.exec) with
  | some f => some f
  | none => ms.head?

/-! ### Special registers (03 R49, R50, R52) -/

/-- `$exec` as the gang reads it. -/
def execMask (ms : List Fibre) : Word :=
  (ms.mapIdx fun i f => if f.exec then 1#32 <<< i else 0).foldl (· ||| ·) 0

/-- `$rngv`: which range registers of the context are valid (03 R67). -/
def Context.rngv (c : Context) : Nat := c.ranges.foldl (fun m e => m + 2 ^ e.1) 0

def ctxWord (s : State) (p : Party) (f : Context → Nat) : DWord := w64 (((s.ctx? p.ctx).map f).getD 0)

/-- The crew of a gang. -/
def crewOf (p : Party) (g : Gang) : Crew := (p.crew? g.crew).getD { num := g.crew, prio := 0 }

/-- A special register, zero-extended to 64 bits. -/
def readSpecial (s : State) (p : Party) (g : Gang) (f : Fibre) : SReg → DWord
  | .exec => (execMask (p.members g)).zeroExtend 64
  | .gslot => w64 (g.slotOf f.fid)
  | .pred => f.pred.zeroExtend 64
  | .pc => f.pc.zeroExtend 64
  | .win => w64 f.blocks.length
  | .srs => f.srs.zeroExtend 64
  | .gstat => (crewOf p g).gstat.zeroExtend 64
  | .prio => w64 (crewOf p g).prio
  | .fid => w64 f.fid
  | .cfid => w64 f.cfid
  | .crew => w64 f.crew
  | .core => w64 p.core.core
  | .comp => w64 (companyOf p.core.core)
  | .die => w64 p.core.die
  | .unitid => w64 p.unitid
  | .nfib => w64 p.nfib
  | .rank => w64 p.rank
  | .ctx => w64 p.ctx
  | .clock => s.clock
  | .emu => ctxWord s p fun c => c.emu.toNat
  | .xop => g.emu.xop.zeroExtend 64
  | .xd => g.emu.xd.zeroExtend 64
  | .xa => g.emu.xa.zeroExtend 64
  | .xb => g.emu.xb.zeroExtend 64
  | .xc => g.emu.xc.zeroExtend 64
  | .ximm => g.emu.ximm.zeroExtend 64
  | .xpc => g.emu.xpc.zeroExtend 64
  | .route => p.route
  | .rngv => ctxWord s p Context.rngv
  | .baseS => p.segBase.getD 0 0
  | .limS => p.segLim.getD 0 0
  | .baseC => p.segBase.getD 1 0
  | .limC => p.segLim.getD 1 0
  | .baseN => p.segBase.getD 2 0
  | .limN => p.segLim.getD 2 0
  | .baseG => p.segBase.getD 3 0
  | .limG => p.segLim.getD 3 0
  | .baseK => p.segBase.getD 4 0
  | .limK => p.segLim.getD 4 0
  | .baseF => p.segBase.getD 5 0
  | .limF => p.segLim.getD 5 0

/-! ### Reading (04 R72) -/

/-- The 64 raw bits an operand gives a type: an inline constant in two's complement, a pair for a 64-bit type, else one register. -/
def rawOpnd (s : State) (p : Party) (g : Gang) (f : Fibre) (wide : Bool) : Opnd → DWord
  | .v n => if wide then s.vreg p f (n + 1) ++ s.vreg p f n else (s.vreg p f n).zeroExtend 64
  | .s n => if wide then g.sregs.getD (n + 1) 0 ++ g.sregs.getD n 0 else (g.sregs.getD n 0).zeroExtend 64
  | .special r => readSpecial s p g f r
  | .const k => BitVec.ofInt 64 k
  | .unassigned _ | .reserved _ => 0

/-- IMM32 is sign-extended for i and b types and zero-extended otherwise. -/
def rawSrc (s : State) (p : Party) (g : Gang) (f : Fibre) (t : Ty) : Src → DWord
  | .op o => rawOpnd s p g f t.is64 o
  | .imm w => if t.isI || t.isB then w.signExtend 64 else w.zeroExtend 64

/-- The low w bits of a raw value, as an unsigned number. -/
def lowBits (t : Ty) (x : DWord) : Nat := x.toNat % 2 ^ t.width

/-- The value of w bits under a type: signed for an i type. -/
def tyVal (t : Ty) (u : Nat) : Int := if t.signed && decide (2 ^ (t.width - 1) ≤ u) then (u : Int) - 2 ^ t.width else u

/-- `read_src` as an unsigned number of w bits. -/
def readU (s : State) (p : Party) (g : Gang) (f : Fibre) (t : Ty) (x : Src) : Nat := lowBits t (rawSrc s p g f t x)

/-- `read_src` (04 R72). -/
def readSrc (s : State) (p : Party) (g : Gang) (f : Fibre) (t : Ty) (x : Src) : Int := tyVal t (readU s p g f t x)

/-- A 32-bit operand: `read_src(field, n32)`. -/
def read32 (s : State) (p : Party) (g : Gang) (f : Fibre) (x : Src) : Nat := readU s p g f .n32 x

/-- A 64-bit operand. -/
def read64 (s : State) (p : Party) (g : Gang) (f : Fibre) (x : Src) : DWord := rawSrc s p g f .n64 x

/-! ### Results (04 R72) -/

/-- The words `write_dst` writes for an exact result: t modulo 2^w, extended by the type. -/
def dstWords (t : Ty) (x : Int) : List Word :=
  let u := (x % 2 ^ t.width).toNat
  if t.is64 then [w32 u, w32 (u / 2 ^ 32)]
  else if t.isI then [BitVec.ofInt 32 (if 2 ^ (t.width - 1) ≤ u then (u : Int) - 2 ^ t.width else u)]
  else [w32 u]

/-- `sat(t, T)` (04 R72). -/
def satTo (t : Ty) (x : Int) : Int :=
  if t.signed then max (-(2 ^ (t.width - 1))) (min x (2 ^ (t.width - 1) - 1)) else max 0 (min x (2 ^ t.width - 1))

/-- Write words to consecutive registers of a fibre's window. -/
def State.setVregs (s : State) (p : Party) (f : Fibre) (n : Nat) : List Word → State
  | [] => s
  | w :: ws => (s.setVreg p f n w).setVregs p f (n + 1) ws

/-- Write words to consecutive s registers. -/
def setSregs (l : List Word) (n : Nat) : List Word → List Word
  | [] => l
  | w :: ws => setSregs (l.set n w) (n + 1) ws

def word64 (ws : List Word) : DWord := ws.getD 1 0 ++ ws.getD 0 0

/-- The effective class: each 1,024 clk of readiness raise it, up to 3 (06 R126). -/
def Gang.effective (g : Gang) : Nat := max g.cls (min 3 (g.cls + g.age / 1024))

/-- A write to `$prio` (03 R65, 06 R126): clamped to the launch's class; every gang of the crew takes the larger of its effective class and the new one,
and its aging count runs on. -/
def Party.writePrio (p : Party) (crew : Nat) (v : Word) : Party :=
  let k := min (v.toNat % 4) p.prio
  { p with
    crews := p.crews.map fun c => if c.num == crew then { c with prio := k } else c
    gangs := p.gangs.map fun g => if g.crew == crew then { g with cls := max g.effective k, age := g.age % 1024 } else g }

/-- A write of `$emu` (03 R69): bits [1:0] are stored as zero. -/
def State.writeEmu (s : State) (ctx : Nat) (v : Word) : State := s.onCtx ctx fun c => { c with emu := v &&& 0xFFFFFFFC }

/-- Word `k` of a gang-wide write to a special register that a crew, party or context holds (03 R56, R65, R68, R69). Of a 64-bit result a 32-bit
register takes the low word (DEDUCED, log 73); a `$gstat` field that is set in the same clk ends set. -/
def State.writeShared (s : State) (uid crew : Nat) (r : SReg) (k : Nat) (v : Word) : State :=
  match r, k with
  | .gstat, 0 => s.onParty uid fun p => p.onCrew crew fun c => c.clearGstat s.clock v
  | .prio, 0 => s.onParty uid fun p => p.writePrio crew v
  | .emu, 0 => match s.party? uid with
    | some p => s.writeEmu p.ctx v
    | none => s
  | .route, 0 => s.onParty uid fun p => { p with route := p.route.extractLsb' 32 32 ++ v }
  | .route, 1 => s.onParty uid fun p => { p with route := v ++ p.route.extractLsb' 0 32 }
  | _, _ => s

/-- A gang-wide write of a special register (03 R51, R52); a 32-bit value is zero-extended to `$route` (03 R50). -/
def State.writeSpecialGang (s : State) (uid gid : Nat) (r : SReg) (ws : List Word) : State :=
  match s.gang? uid gid with
  | none => s
  | some g =>
    let v := ws.getD 0 0
    match r with
    | .exec => s.onParty uid fun p =>
        { p with fibres := p.fibres.map fun f => if g.fibres.contains f.fid then { f with exec := v.getLsbD (g.slotOf f.fid) } else f }
    | r => (s.writeShared uid g.crew r 0 v).writeShared uid g.crew r 1 (ws.getD 1 0)

/-- A per-fibre write of a special register (03 R52, R53): only `$exec` and `$pred` are written so. Of a 64-bit result they take the low word
(DEDUCED, log 73). -/
def Fibre.writeSpecial (f : Fibre) (r : SReg) (w : Word) : Fibre :=
  match r with
  | .exec => { f with exec := w.getLsbD 0 }
  | .pred => { f with pred := w.setWidth 16 }
  | _ => f

/-- Write the result of a per-fibre form to one fibre's D. -/
def State.writeFibre (s : State) (uid : Nat) (f : Fibre) (d : Opnd) (ws : List Word) : State :=
  match d with
  | .v n => match s.party? uid with
    | some p => s.setVregs p f n ws
    | none => s
  | .special r => match ws with
    | [] => s
    | w :: _ => s.onFibre uid f.fid fun f => f.writeSpecial r w
  | _ => s

/-- Write the result of a gang-wide form to its D, once. -/
def State.writeGang (s : State) (uid gid : Nat) (d : Opnd) (ws : List Word) : State :=
  match d with
  | .s n => s.onGang uid gid fun g => { g with sregs := setSregs g.sregs n ws }
  | .special r => if ws.isEmpty then s else s.writeSpecialGang uid gid r ws
  | _ => s

/-! ### The window check (02 R31) -/

/-- The highest v register a used field names, plus one; 0 when it names none. -/
def useTop (u : Use) : Nat :=
  match u.o with
  | .v n => n + u.n
  | _ => 0

/-- Every v register an instruction names lies inside a fibre's window. -/
def insideWindow (i : Instr) (f : Fibre) : Bool := i.uses.all fun u => decide (useTop u ≤ 64 * f.blocks.length)

/-- The fibres whose windows are checked: the take-effect set; for a gang-wide form the supplier; for `vote` and the cross-fibre
forms made gang-wide every participant, and the supplier, whose registers `shfl` then gives (04 R92, R73); for `maccrd` the first
gang members (07 R158). -/
def windowFibres (i : Instr) (ms : List Fibre) : List Fibre :=
  if !i.gangWide then takeEffect i.head ms
  else match i with
    | .vote _ _ _ _ _ _ _ | .scan _ _ _ _ _ _ _ | .fold _ _ _ _ _ _ => ms.filter (·.exec)
    | .shfl _ _ _ _ _ _ _ => if (ms.filter (·.exec)).isEmpty then ms.take 1 else ms.filter (·.exec)
    | .maccrd _ _ _ _ _ => ms
    | _ => (supplier ms).toList

def windowOk (i : Instr) (ms : List Fibre) : Bool := (windowFibres i ms).all (insideWindow i)

/-! ### Where an outstanding result goes -/

/-- The destinations of a result written to consecutive registers of a fibre or of the gang. -/
def State.destOf (s : State) (p : Party) (f : Fibre) (d : Opnd) (n : Nat) : List DestReg :=
  match d with
  | .v k => (List.range n).map fun j => s.blockRef p f (k + j)
  | .s k => (List.range n).map fun j => .s (k + j)
  | .special r => (List.range (if r == .route then 2 else 1)).map fun j => .special r j
  | _ => []

end Sys2Proof.Machine
end

