-- ==== Sys2Proof/Machine/Flags.lean ====
section
/-!
DEFINITION. The device keeps no arithmetic flags (04 R74); its flags are the entries of `$pred`. Pushes and pops (03 R53, 04 R76),
the carry and borrow of 04 R78, the comparisons of 04 R89, and what one register form does to one fibre.
-/

namespace Sys2Proof.Machine

/-- `push_pred` (03 R53): entry 15 is lost. -/
def pushPred (p : BitVec 16) (v : Bool) : BitVec 16 := (p <<< 1) ||| (if v then 1 else 0)

/-- `pop_pred` (04 R76): entry 15 becomes 0. -/
def popPred (p : BitVec 16) : BitVec 16 := p >>> 1

def popPreds : Nat → BitVec 16 → BitVec 16
  | 0, p => p
  | n + 1, p => popPreds n (popPred p)

/-- Set entry k without a shift (04 R90, R91). -/
def setEntry (p : BitVec 16) (k : Nat) (v : Bool) : BitVec 16 :=
  if v then p ||| (1#16 <<< k) else p &&& ~~~(1#16 <<< k)

/-- What a form does to `$pred`: pops, then an entry set in place, then one push or two. -/
structure PredFx where
  pops  : Nat := 0
  entry : Option (Nat × Bool) := none
  first : Option Bool := none
  push  : Option Bool := none
  deriving DecidableEq, Repr

def PredFx.apply (x : PredFx) (p : BitVec 16) : BitVec 16 :=
  let p := popPreds x.pops p
  let p := match x.entry with
    | some (k, v) => setEntry p k v
    | none => p
  let p := match x.first with
    | some v => pushPred p v
    | none => p
  match x.push with
  | some v => pushPred p v
  | none => p

/-- What a register form does on one fibre: the words for D, the change of `$pred`, the new `$srs`; `late` says that D is written
before `$pred` changes. -/
structure Effect where
  ws   : List Word := []
  pred : PredFx := {}
  srs  : Option Word := none
  late : Bool := false
  deriving DecidableEq, Repr

/-- Carry of the w-bit sum of two numbers and a carry in (04 R78). -/
def carryOut (t : Ty) (a b c : Nat) : Bool := decide (2 ^ t.width ≤ a + b + c)
/-- Borrow of the w-bit difference (04 R78). -/
def borrowOut (a b c : Nat) : Bool := decide (a < b + c)

/-- `cmp` on the values of a type (04 R89). -/
def intCompare (c : Cond) (a b : Int) : Bool :=
  match c with
  | .eq => decide (a = b)
  | .ne => decide (a ≠ b)
  | .lt => decide (a < b)
  | .le => decide (a ≤ b)
  | .gt => decide (b < a)
  | .ge => decide (b ≤ a)
  | .ord | .uno | .rsv _ => false

/-- Where `cmp` and `fcmp` put their result (04 R90). -/
def placeCompare (f : Fibre) (d : CmpDst) (p : Bool) : Effect :=
  if d.set then { ws := dstWords .n32 (if p then 1 else 0) }
  else match d.comb with
    | 0 => { pred := { push := some p } }
    | 1 => { pred := { entry := some (0, f.predAt 0 && p) } }
    | _ => { pred := { entry := some (0, f.predAt 0 || p) } }

/-- Change one fibre's own predicate and generator registers. -/
def Fibre.fx (f : Fibre) (e : Effect) : Fibre := { f with pred := e.pred.apply f.pred, srs := e.srs.getD f.srs }

/-- Apply a per-fibre effect. -/
def State.applyFibre (s : State) (uid : Nat) (f : Fibre) (d : Opnd) (e : Effect) : State :=
  if e.late then (s.writeFibre uid f d e.ws).onFibre uid f.fid (·.fx e)
  else (s.onFibre uid f.fid (·.fx e)).writeFibre uid f d e.ws

/-- Apply a gang-wide effect: D is written once, `$srs` advances on the supplier, and every fibre of the gang pops and pushes as
the supplier does (04 R73; so too where a special register makes the form gang-wide: DEDUCED, log 77). -/
def State.applyGang (s : State) (uid gid : Nat) (ms : List Fibre) (f0 : Fibre) (d : Opnd) (e : Effect) : State :=
  let s := ms.foldl (fun s f => s.onFibre uid f.fid fun f =>
    { f with pred := e.pred.apply f.pred, srs := if f.fid == f0.fid then e.srs.getD f.srs else f.srs }) s
  s.writeGang uid gid d e.ws

end Sys2Proof.Machine
end

