-- ==== Sys2Proof/Machine/Issue.lean ====
section
/-!
DEFINITION. How a gang issues an instruction: the points at which it takes faults found earlier (10 R222, 16 R354), the switch
marker (02 R34), the window check (02 R31), and then the instruction's own effect.
-/

namespace Sys2Proof.Machine

/-- The gang that issues, with its party, its fibres in slot order and its `$pc`. -/
structure Turn where
  uid : Nat
  gid : Nat
  p   : Party
  g   : Gang
  ms  : List Fibre
  pc  : Word
  deriving DecidableEq, Repr

/-- `pack` reads its D (05 R117). -/
def readsDst : Instr → Bool
  | .pack _ _ _ _ _ => true
  | _ => false

/-- The registers an instruction reads on a fibre, as destinations of earlier results. -/
def State.readRegs (s : State) (p : Party) (f : Fibre) (i : Instr) : List DestReg :=
  i.uses.flatMap fun u =>
    if u.fld == .e || (u.fld == .d && !readsDst i) then [] else
    match u.o with
    | .v n => (List.range u.n).map fun j => s.blockRef p f (n + j)
    | .s n => (List.range (if u.kind == .quad then 4 else u.n)).map fun j => .s (n + j)
    | .special r => [.special r 0, .special r 1]
    | _ => []

/-- The gang must take its pending faults before this instruction (10 R222 points 1, 2 and, for an access that waits behind one, 3 and 4; 16 R354, the
fourth entry). -/
def State.mustTake (s : State) (i : Instr) (t : Turn) : Bool :=
  let fs := s.pendingFaults t.uid t.g
  !fs.isEmpty && (i.head.w || decide (4 ≤ (faultsOf fs).length) || s.releaseStuck t.uid t.g ||
    ((windowFibres i t.ms).any fun f =>
      (s.readRegs t.p f i).any fun d => fs.any fun a => (a.dest ++ a.sd.toList ++ a.regs).contains d))

/-- The turn of the agent, if it is a gang of the state. -/
def State.turnOf (s : State) : Option Turn :=
  match s.agent with
  | .gang uid gid => match s.party? uid with
    | some p => match p.gang? gid with
      | some g => some { uid := uid, gid := gid, p := p, g := g, ms := p.members g, pc := p.pcOf g }
      | none => none
    | none => none
  | _ => none

/-- Issue an instruction for the gang the state names. -/
def State.issue (s : State) (i : Instr) (go : Turn → Out) : Out :=
  match s.turnOf with
  | none => .refused .noIssuer
  | some t =>
    if s.mustTake i t then .next (s.takePending t.uid t.gid t.pc)
    else if i.head.w && s.outstanding t.uid t.g then .next (s.hold t.uid t.gid .marker)
    else if !windowOk i t.ms then .next (s.encodingTrap t.uid t.gid .badOperand i.raw)
    else go t

/-- What an instruction comes to at its turn, at issue or performed again by `eret` (16 R355): it faults with a log entry, takes faults found earlier,
waits, or takes effect. -/
inductive Issued
  | fault (e : LogEntry) (s : State)
  | pending
  | wait
  | go (s : State)
  deriving DecidableEq, Repr

/-- What an issue does with it. -/
def State.conclude (s : State) (t : Turn) (i : Instr) : Issued → State
  | .fault e s' => s'.faultAt t.uid t.gid (nextPc t.pc i.raw) e
  | .pending => s.takePending t.uid t.gid t.pc
  | .wait => s.holdAgain t.uid t.gid
  | .go s' => s'.advance t.uid t.gid i.raw

/-- The log entry of an instruction that faults at issue, of all the fibres of its gang; `eret` may perform it again from its operands (16 R354). -/
def Turn.faultLog (t : Turn) (i : Instr) (cls : Nat) (srcs : List DWord) (addr : DWord := 0) : LogEntry :=
  issueLog i.raw t.pc cls 0 addr 0 (.reissue i srcs) (t.g.logged srcs addr)

/-- Issue an instruction that always takes effect and goes on to the next. -/
def State.issueNext (s : State) (i : Instr) (f : Turn → State) : Out :=
  s.issue i fun t => .next ((f t).advance t.uid t.gid i.raw)

/-- What a register form does to the state: per fibre on the take-effect set, or once for the gang (04 R73). -/
def State.applyForm (s : State) (i : Instr) (t : Turn) (d : Opnd) (fx : Fibre → Effect) : State :=
  if i.gangWide then match supplier t.ms with
    | some f0 => s.applyGang t.uid t.gid t.ms f0 d (fx f0)
    | none => s
  else (takeEffect i.head t.ms).foldl (fun s' f => s'.applyFibre t.uid f d (fx f)) s

/-- A register form with a fixed-latency result. -/
def State.regForm (s : State) (i : Instr) (d : Opnd) (fx : Turn → Fibre → Effect) : Out :=
  s.issueNext i fun t => s.applyForm i t d (fx t)

/-- The raw word and place an outstanding item records. -/
def State.newAccess (s : State) (t : Turn) (i : Instr) (insn : Nat) (fid : Option Nat) (op : AccOp) (dest : List DestReg) : Access × State :=
  let (id, s) := s.fresh
  ({ id := id, insn := insn, uid := t.uid, gid := t.gid, fid := fid, fibs := fid.elim t.g.fibres fun f => [f], crew := t.g.crew, lvl := t.g.level, ctx := t.p.ctx, pc := t.pc, raw := i.raw
     op := op, sp := .g, addr := 0, parts := [], dest := dest, sd := none, se := false, ord := .relaxed, scope := .dev, srcs := []
     stage := .ready }, s)

/-- Add an outstanding register result whose value is known. -/
def State.owe (s : State) (t : Turn) (i : Instr) (insn : Nat) (fid : Option Nat) (dest : List DestReg) (ws : List Word) : State :=
  let (a, s) := s.newAccess t i insn fid (.value ws) dest
  { s with flight := s.flight ++ [{ a with stage := .done ws 0 }] }

/-- The outstanding item that an instruction leaves when the wait of its gang ends: a result that returns later, or a fault to take (02 R34). -/
def State.waitResult (s : State) (p : Party) (g : Gang) (raw : Raw) (dest : List DestReg) (stage : Stage) (srcs : List DWord := []) : State :=
  let (id, s) := s.fresh
  { s with flight := s.flight ++ [{ id := id, insn := id, uid := p.uid, gid := g.gid, fid := none, fibs := g.fibres, crew := g.crew, lvl := g.level, ctx := p.ctx, pc := p.pcOf g
                                    raw := raw, op := .value [], sp := .g, addr := 0, parts := [], dest := dest, sd := none, se := false, ord := .relaxed
                                    scope := .dev, srcs := srcs, stage := stage }] }

/-- The bit of a `$exec` value that a fibre of the gang takes (03 R52). -/
def Gang.execBit (g : Gang) (w : Word) (f : Fibre) : Word := if w.getLsbD (g.slotOf f.fid) then 1 else 0

/-- The results a form owes (04 R80), per fibre on the take-effect set, or once for the gang. Of a gang-wide `$exec` each fibre is owed its bit, so that
the slots are those of the issue (log 13). -/
def State.oweAll (s : State) (i : Instr) (t : Turn) (d : Opnd) (ws : Fibre → List Word) : State :=
  let (insn, s') := s.fresh
  if i.gangWide then match supplier t.ms with
    | none => s'
    | some f0 =>
      if d == .special .exec then t.ms.foldl (fun s' f => s'.owe t i insn (some f.fid) [.special .exec 0] [t.g.execBit ((ws f0).getD 0 0) f]) s'
      else s'.owe t i insn none (s.destOf t.p f0 d (ws f0).length) (ws f0)
  else (takeEffect i.head t.ms).foldl (fun s' f => s'.owe t i insn (some f.fid) (s.destOf t.p f d (ws f).length) (ws f)) s'

/-- A register form whose result is outstanding (04 R80): it is written when it returns. -/
def State.oweForm (s : State) (i : Instr) (d : Opnd) (fx : Turn → Fibre → List Word) : Out :=
  s.issueNext i fun t => s.oweAll i t d (fx t)

end Sys2Proof.Machine
end

