-- ==== Sys2Proof/Machine/Outrider.lean ====
section
/-!
DEFINITION. The Outrider's registers and how it goes on, waits and stops (06 R120, R137).
-/

namespace Sys2Proof.Machine

/-- The Outrider the state names, if it runs. -/
def State.olOf (s : State) : Option (CoreRef × Outrider) :=
  match s.agent with
  | .outrider c => if (s.core c).outrider.running then some (c, (s.core c).outrider) else none
  | _ => none

def State.onOutrider (s : State) (c : CoreRef) (f : Outrider → Outrider) : State := s.onCore c fun k => { k with outrider := f k.outrider }

/-- SUB codes of OUTRIDER_FAULT (16 R352). -/
inductive OlFault
  | illegal | badOperand | badPermit | loopDepth | loopEmpty | reservedMod | unassignedOp | fetchSplit | illegalLen
  | reservedGroup | priv | fetch
  deriving DecidableEq, Repr

def OlFault.code : OlFault → Nat
  | .illegal => 1 | .badOperand => 2 | .badPermit => 3 | .loopDepth => 4 | .loopEmpty => 5 | .reservedMod => 6
  | .unassignedOp => 7 | .fetchSplit => 8 | .illegalLen => 9 | .reservedGroup => 10 | .priv => 11 | .fetch => 12

/-- A check of 02 R41 that fails in Outrider code gives the SUB of the same name (06 R137). -/
def olCause : Cause → OlFault
  | .fetchSplit => .fetchSplit
  | .illegalLen => .illegalLen
  | .reservedGroup => .reservedGroup
  | .priv => .priv
  | .unassignedOp => .unassignedOp
  | .badOperand => .badOperand
  | .reservedMod => .reservedMod
  | .illegal => .illegal

/-- The Outrider stops on a fault; its party's gangs go on, and the loop stack empties (06 R120, R137). -/
def State.olFault (s : State) (c : CoreRef) (cause : OlFault) (addr : DWord := 0) : State :=
  let uid := (s.core c).outrider.uid
  let s := s.onOutrider c fun o => { o with running := false, loops := [], waiting := false }
  let s := s.onParty uid fun p => { p with olFault := true }
  match s.party? uid with
  | some p => s.event (unitKey c 3) addr 0x32 cause.code p.source
  | none => s

/-- An operand of Outrider code: an o register, an inline constant, or IMM32 by its type (06 R137). -/
def olRead (o : Outrider) (t : Ty) : Src → DWord
  | .op (.v n) => o.o.getD n 0
  | .op (.const k) => BitVec.ofInt 64 k
  | .op _ => 0
  | .imm w => if t.isI || t.isB then w.signExtend 64 else w.zeroExtend 64

def olVal (o : Outrider) (t : Ty) (x : Src) : Int := tyVal t (lowBits t (olRead o t x))

/-- The Outrider goes on past an instruction. -/
def olAdvance (r : Raw) (o : Outrider) : Outrider := { o with opc := nextPc o.opc r, waiting := false }

def olSet (o : Outrider) (d : Opnd) (v : DWord) : Outrider :=
  match d with
  | .v n => { o with o := o.o.set n v }
  | _ => o

/-- Run one instruction of the Outrider. -/
def State.olRun (s : State) (f : CoreRef → Outrider → State) : Out :=
  match s.olOf with
  | none => .refused .noIssuer
  | some (c, o) => .next (f c o)

/-- An integer form of the Outrider: the result modulo 2^64 to its D. -/
def State.olForm (s : State) (i : Instr) (d : Opnd) (v : Outrider → Int) : Out :=
  s.olRun fun c o => s.onOutrider c fun _ => olAdvance i.raw (olSet o d (BitVec.ofInt 64 (v o)))

/-- Whether the state runs Outrider code. -/
def State.inOutrider (s : State) : Bool :=
  match s.agent with
  | .outrider _ => true
  | _ => false

end Sys2Proof.Machine
end

