-- ==== Sys2Proof/Machine/Integer.lean ====
section
/-!
DEFINITION. Group 0x0: integer instructions (04 R77 to R82).
-/

namespace Sys2Proof.Machine

def satIf (sat : Bool) (t : Ty) (x : Int) : Int := if sat then satTo t x else x

/-- The 64-bit type of a `.wide` result (04 R79). -/
def wideTy (t : Ty) : Ty := if t.signed then .i64 else .n64

/-- A two-source form: a value of type `t` from the values of its sources. -/
def State.binForm (s : State) (i : Instr) (t : Ty) (d a : Opnd) (b : Src) (f : Int → Int → Int) : Out :=
  s.regForm i d fun x fib => { ws := dstWords t (f (readSrc s x.p x.g fib t (.op a)) (readSrc s x.p x.g fib t b)) }

/-- `iadd` (04 R78). -/
def addEffect (t : Ty) (m : AddMod) (c0 : Bool) (a b : Nat) : Effect :=
  let c := b2n (m.cin && c0)
  { ws := dstWords t (satIf m.sat t (tyVal t a + tyVal t b + c))
    pred := { pops := b2n m.cin, push := if m.cout then some (carryOut t a b c) else none } }

/-- `isub` (04 R78). -/
def subEffect (t : Ty) (m : AddMod) (c0 : Bool) (a b : Nat) : Effect :=
  let c := b2n (m.cin && c0)
  { ws := dstWords t (satIf m.sat t (tyVal t a - tyVal t b - c))
    pred := { pops := b2n m.cin, push := if m.cout then some (borrowOut a b c) else none } }

def execIadd (h : Head) (t : Ty) (d a : Opnd) (b : Src) (m : AddMod) (s : State) : Out :=
  let i := Instr.iadd h t d a b m
  if s.inOutrider then s.olForm i d fun o => satIf m.sat t (olVal o t (.op a) + olVal o t b)
  else s.regForm i d fun x f => addEffect t m (f.predAt 0) (readU s x.p x.g f t (.op a)) (readU s x.p x.g f t b)

def execIsub (h : Head) (t : Ty) (d a : Opnd) (b : Src) (m : AddMod) (s : State) : Out :=
  let i := Instr.isub h t d a b m
  if s.inOutrider then s.olForm i d fun o => satIf m.sat t (olVal o t (.op a) - olVal o t b)
  else s.regForm i d fun x f => subEffect t m (f.predAt 0) (readU s x.p x.g f t (.op a)) (readU s x.p x.g f t b)

/-- `imul` (04 R79). -/
def execImul (h : Head) (t : Ty) (d a : Opnd) (b : Src) (sat wide : Bool) (s : State) : Out :=
  let i := Instr.imul h t d a b sat wide
  if s.inOutrider then s.olForm i d fun o => satIf sat t (olVal o t (.op a) * olVal o t b)
  else s.regForm i d fun x f =>
    let v := readSrc s x.p x.g f t (.op a) * readSrc s x.p x.g f t b
    { ws := if wide then dstWords (wideTy t) v else dstWords t (satIf sat t v) }

/-- `imulhi`: floor towards minus infinity (04 R79). -/
def execImulhi (h : Head) (t : Ty) (d a : Opnd) (b : Src) (s : State) : Out :=
  s.binForm (.imulhi h t d a b) t d a b fun u v => (u * v) / 2 ^ t.width

/-- `imad` (04 R79). -/
def execImad (h : Head) (t : Ty) (d a b c : Opnd) (sat wide : Bool) (s : State) : Out :=
  s.regForm (.imad h t d a b c sat wide) d fun x f =>
    let t' := if wide then wideTy t else t
    let v := readSrc s x.p x.g f t (.op a) * readSrc s x.p x.g f t (.op b) + readSrc s x.p x.g f t' (.op c)
    { ws := dstWords t' (satIf sat t' v) }

/-- The quotient and remainder of 04 R80. -/
def divVal (t : Ty) (a b : Int) : Int := if b = 0 then (if t.isI then -1 else 2 ^ t.width - 1) else a.tdiv b
def remVal (a b : Int) : Int := if b = 0 then a else a.tmod b

def execIdiv (h : Head) (t : Ty) (d a : Opnd) (b : Src) (s : State) : Out :=
  s.oweForm (.idiv h t d a b) d fun x f =>
    dstWords t (divVal t (readSrc s x.p x.g f t (.op a)) (readSrc s x.p x.g f t b))

def execIrem (h : Head) (t : Ty) (d a : Opnd) (b : Src) (s : State) : Out :=
  s.oweForm (.irem h t d a b) d fun x f =>
    dstWords t (remVal (readSrc s x.p x.g f t (.op a)) (readSrc s x.p x.g f t b))

/-- `imin` and `imax` (04 R81). -/
def execImin (h : Head) (t : Ty) (d a : Opnd) (b : Src) (s : State) : Out := s.binForm (.imin h t d a b) t d a b min
def execImax (h : Head) (t : Ty) (d a : Opnd) (b : Src) (s : State) : Out := s.binForm (.imax h t d a b) t d a b max

/-- `iabs` and `ineg` (04 R81). -/
def execIabs (h : Head) (t : Ty) (d a : Opnd) (sat : Bool) (s : State) : Out :=
  s.regForm (.iabs h t d a sat) d fun x f =>
    { ws := dstWords t (satIf sat t (Int.natAbs (readSrc s x.p x.g f t (.op a)))) }
def execIneg (h : Head) (t : Ty) (d a : Opnd) (sat : Bool) (s : State) : Out :=
  s.regForm (.ineg h t d a sat) d fun x f => { ws := dstWords t (satIf sat t (-readSrc s x.p x.g f t (.op a))) }

/-- `isad` (04 R81). -/
def execIsad (h : Head) (t : Ty) (d a b c : Opnd) (sat : Bool) (s : State) : Out :=
  s.regForm (.isad h t d a b c sat) d fun x f =>
    let v : Int := Int.natAbs (readSrc s x.p x.g f t (.op a) - readSrc s x.p x.g f t (.op b))
    { ws := dstWords t (satIf sat t (v + readSrc s x.p x.g f t (.op c))) }

/-- `mov` (04 R82). -/
def execMov (h : Head) (t : Ty) (d : Opnd) (a : Src) (s : State) : Out :=
  let i := Instr.mov h t d a
  if s.inOutrider then s.olForm i d fun o => olVal o t a
  else s.regForm i d fun x f => { ws := dstWords t (readSrc s x.p x.g f t a) }

/-- `sel` (04 R82). -/
def execSel (h : Head) (t : Ty) (d a : Opnd) (b : Src) (depth : Nat) (neg : Bool) (s : State) : Out :=
  s.regForm (.sel h t d a b depth neg) d fun x f =>
    { ws := dstWords t (if xor (f.predAt depth) neg then readSrc s x.p x.g f t (.op a) else readSrc s x.p x.g f t b) }

end Sys2Proof.Machine
end

