-- ==== Sys2Proof/Machine/BitAddr.lean ====
section
/-!
DEFINITION. Group 0x1: bit and address instructions (04 R83 to R88).
-/

namespace Sys2Proof.Machine

/-- A form on the w-bit patterns of its two sources. -/
def State.bitForm (s : State) (i : Instr) (t : Ty) (d a : Opnd) (b : Src) (f : Nat → Nat → Nat) : Out :=
  s.regForm i d fun x fib => { ws := dstWords t (f (readU s x.p x.g fib t (.op a)) (readU s x.p x.g fib t b)) }

/-- Logical forms (04 R84). -/
def execAnd (h : Head) (t : Ty) (d a : Opnd) (b : Src) (s : State) : Out :=
  let i := Instr.and h t d a b
  if s.inOutrider then s.olForm i d fun o => ((olRead o t (.op a) &&& olRead o t b).toNat : Int)
  else s.bitForm i t d a b (· &&& ·)
def execOr (h : Head) (t : Ty) (d a : Opnd) (b : Src) (s : State) : Out :=
  let i := Instr.or h t d a b
  if s.inOutrider then s.olForm i d fun o => ((olRead o t (.op a) ||| olRead o t b).toNat : Int)
  else s.bitForm i t d a b (· ||| ·)
def execXor (h : Head) (t : Ty) (d a : Opnd) (b : Src) (s : State) : Out := s.bitForm (.xor h t d a b) t d a b (· ^^^ ·)
def execNot (h : Head) (t : Ty) (d a : Opnd) (s : State) : Out :=
  s.regForm (.not h t d a) d fun x f => { ws := dstWords t (2 ^ t.width - 1 - readU s x.p x.g f t (.op a) : Nat) }

/-- Bit k of the result is TT[(a_k << 2) | (b_k << 1) | c_k] (04 R84). -/
def lop3Val (w tt a b c : Nat) : Nat :=
  (List.range w).foldl (fun r k => r + b2n (bit tt (4 * b2n (bit a k) + 2 * b2n (bit b k) + b2n (bit c k))) * 2 ^ k) 0

def execLop3 (h : Head) (t : Ty) (d a b c : Opnd) (tt : Nat) (s : State) : Out :=
  s.regForm (.lop3 h t d a b c tt) d fun x f =>
    { ws := dstWords t (lop3Val t.width tt (readU s x.p x.g f t (.op a)) (readU s x.p x.g f t (.op b)) (readU s x.p x.g f t (.op c))) }

/-- The shifts of 04 R85 on w-bit patterns; the amount stays below 2^32, so a shift past the width is decided first. -/
def shlVal (w : Nat) (wrap : Bool) (u n : Nat) : Nat :=
  let n := if wrap then n % w else n
  if w ≤ n then 0 else u * 2 ^ n % 2 ^ w
def shrVal (w : Nat) (wrap : Bool) (u n : Nat) : Nat :=
  let n := if wrap then n % w else n
  if w ≤ n then 0 else u / 2 ^ n
def sarVal (w : Nat) (wrap : Bool) (u n : Nat) : Int :=
  let n := if wrap then n % w else n
  let v : Int := if 2 ^ (w - 1) ≤ u then (u : Int) - 2 ^ w else u
  v / 2 ^ min n (w - 1)
def rotlVal (w u n : Nat) : Nat := let n := n % w; (u * 2 ^ n + u / 2 ^ (w - n)) % 2 ^ w

/-- A shift: the amount is a 32-bit operand (04 R85). -/
def State.shiftForm (s : State) (i : Instr) (t : Ty) (d a : Opnd) (b : Src) (f : Nat → Nat → Int) : Out :=
  s.regForm i d fun x fib => { ws := dstWords t (f (readU s x.p x.g fib t (.op a)) (read32 s x.p x.g fib b)) }

def olAmount (o : Outrider) (b : Src) : Nat := (olRead o .n32 b).toNat % 2 ^ 32

def execShl (h : Head) (t : Ty) (d a : Opnd) (b : Src) (wrap : Bool) (s : State) : Out :=
  let i := Instr.shl h t d a b wrap
  if s.inOutrider then s.olForm i d fun o => (shlVal 64 wrap (olRead o t (.op a)).toNat (olAmount o b) : Int)
  else s.shiftForm i t d a b fun u n => shlVal t.width wrap u n
def execShr (h : Head) (t : Ty) (d a : Opnd) (b : Src) (wrap : Bool) (s : State) : Out :=
  let i := Instr.shr h t d a b wrap
  if s.inOutrider then s.olForm i d fun o => (shrVal 64 wrap (olRead o t (.op a)).toNat (olAmount o b) : Int)
  else s.shiftForm i t d a b fun u n => shrVal t.width wrap u n
def execSar (h : Head) (t : Ty) (d a : Opnd) (b : Src) (wrap : Bool) (s : State) : Out :=
  s.shiftForm (.sar h t d a b wrap) t d a b fun u n => sarVal t.width wrap u n
def execRotl (h : Head) (t : Ty) (d a : Opnd) (b : Src) (s : State) : Out :=
  s.shiftForm (.rotl h t d a b) t d a b fun u n => rotlVal t.width u n

/-- Counts and reversal (04 R86). -/
def popcVal (w u : Nat) : Nat := (List.range w).countP fun k => bit u k
def clzVal (u : Nat) : Nat → Nat
  | 0 => 0
  | k + 1 => if bit u k then 0 else 1 + clzVal u k
def brevVal (w u : Nat) : Nat := (List.range w).foldl (fun r k => r + b2n (bit u k) * 2 ^ (w - 1 - k)) 0

def execPopc (h : Head) (t : Ty) (d a : Opnd) (s : State) : Out :=
  s.regForm (.popc h t d a) d fun x f => { ws := dstWords .n32 (popcVal t.width (readU s x.p x.g f t (.op a)) : Nat) }
def execClz (h : Head) (t : Ty) (d a : Opnd) (s : State) : Out :=
  s.regForm (.clz h t d a) d fun x f => { ws := dstWords .n32 (clzVal (readU s x.p x.g f t (.op a)) t.width : Nat) }
def execBrev (h : Head) (t : Ty) (d a : Opnd) (s : State) : Out :=
  s.regForm (.brev h t d a) d fun x f => { ws := dstWords t (brevVal t.width (readU s x.p x.g f t (.op a)) : Nat) }

/-- Position and length of a field, the length cut to w (04 R87). -/
def fieldOf (w : Nat) (rd : Opnd → Nat) : BitField → Nat × Nat
  | .imm pos len => (pos, min len w)
  | .reg p => (rd p % 256, min (rd p / 256 % 256) w)

/-- `bfe` (04 R87). -/
def bfeVal (t : Ty) (a pos len : Nat) : Int :=
  let w := t.width
  let f := (List.range len).foldl (fun r k =>
    r + b2n (if pos + k < w then bit a (pos + k) else t.isI && bit a (w - 1)) * 2 ^ k) 0
  if t.isI && decide (0 < len) && bit f (len - 1) then (f : Int) - 2 ^ len else f

/-- `bfi`: bits beyond w are dropped (04 R87). -/
def bfiVal (w a v pos len : Nat) : Nat :=
  (List.range w).foldl (fun r k => r + b2n (if pos ≤ k ∧ k < pos + len then bit v (k - pos) else bit a k) * 2 ^ k) 0

def execBfe (h : Head) (t : Ty) (d a : Opnd) (fl : BitField) (s : State) : Out :=
  s.regForm (.bfe h t d a fl) d fun x f =>
    let (pos, len) := fieldOf t.width (fun o => read32 s x.p x.g f (.op o)) fl
    { ws := dstWords t (bfeVal t (readU s x.p x.g f t (.op a)) pos len) }
def execBfi (h : Head) (t : Ty) (d a b : Opnd) (fl : BitField) (s : State) : Out :=
  s.regForm (.bfi h t d a b fl) d fun x f =>
    let (pos, len) := fieldOf t.width (fun o => read32 s x.p x.g f (.op o)) fl
    { ws := dstWords t (bfiVal t.width (readU s x.p x.g f t (.op a)) (readU s x.p x.g f t (.op b)) pos len : Nat) }

/-- `lea` (04 R88). -/
def execLea (h : Head) (t : Ty) (d a : Opnd) (b : Src) (sh : Nat) (s : State) : Out :=
  s.regForm (.lea h t d a b sh) d fun x f =>
    { ws := dstWords .b64 (readSrc s x.p x.g f .b64 (.op a) + readSrc s x.p x.g f t b * 2 ^ sh) }

end Sys2Proof.Machine
end

