-- ==== Sys2Proof/Machine/Checksum.lean ====
section
/-!
DEFINITION. The checksums the spec names: CRC-32C of layout records (13 R277) and SHA-256 of boot images and measurements
(17 R386, R387).
-/

namespace Sys2Proof.Machine

/-! ### CRC-32C (13 R277): RFC 3720, reflected -/

/-- One bit of the division by the reflected polynomial. -/
def crcBit (c : Word) : Word := if c.getLsbD 0 then (c >>> 1) ^^^ 0x82F63B78#32 else c >>> 1

def crcByte (c : Word) (b : Byte) : Word :=
  crcBit (crcBit (crcBit (crcBit (crcBit (crcBit (crcBit (crcBit (c ^^^ b.zeroExtend 32))))))))

def crc32c (bs : List Byte) : Word := bs.foldl crcByte 0xFFFFFFFF#32 ^^^ 0xFFFFFFFF#32

/-! ### SHA-256 (FIPS 180-4, named by 17 R386) -/

/-- The first 32 bits of the fractions of the square roots of the first 8 primes. -/
def shaInit : List Word :=
  [0x6A09E667, 0xBB67AE85, 0x3C6EF372, 0xA54FF53A, 0x510E527F, 0x9B05688C, 0x1F83D9AB, 0x5BE0CD19]

/-- The first 32 bits of the fractions of the cube roots of the first 64 primes. -/
def shaK : List Word :=
  [0x428A2F98, 0x71374491, 0xB5C0FBCF, 0xE9B5DBA5, 0x3956C25B, 0x59F111F1, 0x923F82A4, 0xAB1C5ED5,
   0xD807AA98, 0x12835B01, 0x243185BE, 0x550C7DC3, 0x72BE5D74, 0x80DEB1FE, 0x9BDC06A7, 0xC19BF174,
   0xE49B69C1, 0xEFBE4786, 0x0FC19DC6, 0x240CA1CC, 0x2DE92C6F, 0x4A7484AA, 0x5CB0A9DC, 0x76F988DA,
   0x983E5152, 0xA831C66D, 0xB00327C8, 0xBF597FC7, 0xC6E00BF3, 0xD5A79147, 0x06CA6351, 0x14292967,
   0x27B70A85, 0x2E1B2138, 0x4D2C6DFC, 0x53380D13, 0x650A7354, 0x766A0ABB, 0x81C2C92E, 0x92722C85,
   0xA2BFE8A1, 0xA81A664B, 0xC24B8B70, 0xC76C51A3, 0xD192E819, 0xD6990624, 0xF40E3585, 0x106AA070,
   0x19A4C116, 0x1E376C08, 0x2748774C, 0x34B0BCB5, 0x391C0CB3, 0x4ED8AA4A, 0x5B9CCA4F, 0x682E6FF3,
   0x748F82EE, 0x78A5636F, 0x84C87814, 0x8CC70208, 0x90BEFFFA, 0xA4506CEB, 0xBEF9A3F7, 0xC67178F2]

def rotr (x : Word) (n : Nat) : Word := x.rotateRight n

/-- The message schedule: 64 words from a block's 16, newest first while it grows. -/
def shaSchedule : Nat → List Word → List Word
  | 0, w => w
  | n + 1, w =>
    let g := fun k => w.getD (k - 1) 0
    let s0 := rotr (g 15) 7 ^^^ rotr (g 15) 18 ^^^ (g 15 >>> 3)
    let s1 := rotr (g 2) 17 ^^^ rotr (g 2) 19 ^^^ (g 2 >>> 10)
    shaSchedule n ((g 16 + s0 + g 7 + s1) :: w)

def shaRound (h : List Word) (kw : Word) : List Word :=
  match h with
  | [a, b, c, d, e, f, g, h] =>
    let s1 := rotr e 6 ^^^ rotr e 11 ^^^ rotr e 25
    let t1 := h + s1 + ((e &&& f) ^^^ (~~~e &&& g)) + kw
    let s0 := rotr a 2 ^^^ rotr a 13 ^^^ rotr a 22
    let t2 := s0 + ((a &&& b) ^^^ (a &&& c) ^^^ (b &&& c))
    [t1 + t2, a, b, c, d + t1, e, f, g]
  | l => l

/-- The big-endian words of a block. -/
def beWord (bs : List Byte) : Word := BitVec.ofNat 32 (bs.foldl (fun n b => n * 256 + b.toNat) 0)

def shaBlock (h : List Word) (b : List Byte) : List Word :=
  let w := (List.range 16).map fun i => beWord ((b.drop (4 * i)).take 4)
  let w := (shaSchedule 48 w.reverse).reverse
  let h' := (List.zipWith (· + ·) shaK w).foldl shaRound h
  List.zipWith (· + ·) h h'

/-- The padded message: a one bit, zeros, and the length in bits. -/
def shaPad (m : List Byte) : List Byte :=
  let z := (119 - m.length % 64) % 64
  m ++ [0x80] ++ List.replicate z 0 ++ (List.range 8).map fun i => BitVec.ofNat 8 (m.length * 8 / 256 ^ (7 - i))

def shaBlocks (h : List Word) : Nat → List Byte → List Word
  | 0, _ => h
  | n + 1, m => shaBlocks (shaBlock h (m.take 64)) n (m.drop 64)

def sha256 (m : List Byte) : BitVec 256 :=
  let p := shaPad m
  BitVec.ofNat 256 ((shaBlocks shaInit (p.length / 64) p).foldl (fun n w => n * 2 ^ 32 + w.toNat) 0)

end Sys2Proof.Machine
end

