-- ==== Sys2Proof/Machine/Num.lean ====
section
/-!
DEFINITION. Number formats and rounding (05 R98 to R105): exact values, decoding and encoding of every format, the five rounding
modes, exact sums, products, quotients and roots, comparison.
-/

namespace Sys2Proof.Machine

/-- An extended real (-1)^neg × m × 2^e, with the sign of a zero kept, an infinity, or NaN. -/
inductive XVal
  | nan
  | inf (neg : Bool)
  | fin (neg : Bool) (m : Nat) (e : Int)
  deriving DecidableEq, Repr

/-- A format of 05 R99: `big` is the code of the largest finite value, without sign; `inf` the code of infinity where there is one;
`nan` the canonical NaN, where there is one. -/
structure Fmt where
  width : Nat
  man   : Nat
  bias  : Int
  big   : Nat
  inf   : Option Nat
  nan   : Option Nat
  deriving DecidableEq, Repr

def fmtF64 : Fmt := ⟨64, 52, 1023, 0x7FEFFFFFFFFFFFFF, some 0x7FF0000000000000, some 0x7FF8000000000000⟩
def fmtF32 : Fmt := ⟨32, 23, 127, 0x7F7FFFFF, some 0x7F800000, some 0x7FC00000⟩
def fmtF16 : Fmt := ⟨16, 10, 15, 0x7BFF, some 0x7C00, some 0x7E00⟩
def fmtBf16 : Fmt := ⟨16, 7, 127, 0x7F7F, some 0x7F80, some 0x7FC0⟩
def fmtE4m3 : Fmt := ⟨8, 3, 7, 0x7E, none, some 0x7F⟩
def fmtE5m2 : Fmt := ⟨8, 2, 15, 0x7B, some 0x7C, some 0x7E⟩
def fmtE2m1 : Fmt := ⟨4, 1, 1, 7, none, none⟩

def fmtOf : Ty → Fmt
  | .f64 => fmtF64
  | .f16 => fmtF16
  | .bf16 => fmtBf16
  | .e4m3 | .mxe4m3 => fmtE4m3
  | .e5m2 => fmtE5m2
  | .e2m1 | .mxe2m1 => fmtE2m1
  | _ => fmtF32

/-- The exponent of the last place of a subnormal (05 R98). -/
def Fmt.emin (f : Fmt) : Int := 1 - f.bias - f.man
def Fmt.signBit (f : Fmt) : Nat := 2 ^ (f.width - 1)

/-- The value of a code (05 R98, R99). -/
def Fmt.value (f : Fmt) (code : Nat) : XVal :=
  let neg := decide (f.signBit ≤ code % 2 ^ f.width)
  let body := code % f.signBit
  if f.big < body then (if f.inf = some body then .inf neg else .nan)
  else if body < 2 ^ f.man then .fin neg body f.emin
  else .fin neg (body % 2 ^ f.man + 2 ^ f.man) (f.emin + (body / 2 ^ f.man : Nat) - 1)

/-- e8m0 (05 R99). -/
def e8m0Value (code : Nat) : XVal := if code % 256 = 255 then .nan else .fin false 1 ((code % 256 : Nat) - 127)

/-- The value of a code of a scalar type, floating or integer (05 R116). -/
def valueOf (t : Ty) (code : Nat) : XVal :=
  if t == .e8m0 then e8m0Value code
  else if t.isRaw then (let v := tyVal t (code % 2 ^ t.width); .fin (decide (v < 0)) v.natAbs 0)
  else (fmtOf t).value code

def Fmt.withSign (f : Fmt) (neg : Bool) (body : Nat) : Nat := body + if neg then f.signBit else 0
def Fmt.nanCode (f : Fmt) : Nat := f.nan.getD 0

/-- m × 2^e cut to a format's precision: the code of the value next below towards zero, on an unbounded exponent above, with the
remainder and the size of one step in units of the same scale (1 where the value is exact). -/
def Fmt.cut (f : Fmt) (m : Nat) (e : Int) : Nat × Nat × Nat :=
  if m = 0 then (0, 0, 1) else
  let q := max f.emin (e + (Nat.log2 m : Nat) - f.man)
  let base := (q - f.emin).toNat * 2 ^ f.man
  if q ≤ e then (base + m * 2 ^ (e - q).toNat, 0, 1)
  else
    let s := (q - e).toNat
    (base + m / 2 ^ s, m % 2 ^ s, 2 ^ s)

/-- Whether a mode moves a value away from zero: `r` of `u` parts of a step remain above an even or odd code (05 R103). -/
def roundsUp (mode : Rnd) (neg odd : Bool) (r u : Nat) : Bool :=
  r != 0 && (match mode with
    | .rne => decide (u < 2 * r) || (decide (2 * r = u) && odd)
    | .rdn => neg
    | .rup => !neg
    | _ => false)

/-- What becomes of a finite value whose rounded code lies beyond the largest finite value (05 R104). -/
def Fmt.overflow (f : Fmt) (mode : Rnd) (satf neg : Bool) : Nat :=
  let toBig := satf || f.nan.isNone || (match mode with
    | .rtz => true
    | .rdn => !neg
    | .rup => neg
    | _ => false)
  if toBig then f.withSign neg f.big
  else match f.inf with
    | some k => f.withSign neg k
    | none => f.nanCode

/-- An exactly infinite value (05 R104). -/
def Fmt.infinite (f : Fmt) (satf neg : Bool) : Nat :=
  if satf || f.nan.isNone then f.withSign neg f.big
  else match f.inf with
    | some k => f.withSign neg k
    | none => f.nanCode

/-- `round(x, F, mode, satf)` for a format with a sign (05 R104). -/
def Fmt.round (f : Fmt) (mode : Rnd) (satf : Bool) : XVal → Nat
  | .nan => f.nanCode
  | .inf neg => f.infinite satf neg
  | .fin neg m e =>
    let (c, r, u) := f.cut m e
    let c := if roundsUp mode neg (c % 2 == 1) r u then c + 1 else c
    if c ≤ f.big then f.withSign neg c else f.overflow mode satf neg

/-- The rule of an e8m0 target (05 R104). -/
def roundE8m0 (mode : Rnd) (satf : Bool) : XVal → Nat
  | .nan => 255
  | .inf neg => if neg then 255 else if satf then 254 else 255
  | .fin neg m e =>
    if neg ∨ m = 0 then 255 else
    let l := Nat.log2 m
    let up := match mode with
      | .rup => m != 2 ^ l
      | .rne => decide (3 * 2 ^ l ≤ 2 * m)
      | _ => false
    let j := e + l + b2n up
    if 127 < j then (if satf then 254 else 255) else if j < -127 then 0 else (j + 127).toNat

/-- Round to any scalar float type. -/
def roundTo (t : Ty) (mode : Rnd) (satf : Bool) (x : XVal) : Nat :=
  if t == .e8m0 then roundE8m0 mode satf x else (fmtOf t).round mode satf x

/-- `xorshift32` (05 R105). -/
def xorshift32 (x : Word) : Word :=
  let x := x ^^^ (x <<< 13)
  let x := x ^^^ (x >>> 17)
  x ^^^ (x <<< 5)

/-- `sr_round` with the generator's state after its draw (05 R105). -/
def Fmt.srRound (f : Fmt) (satf : Bool) (srs : Word) : XVal → Nat
  | .fin neg m e =>
    let (c, r, u) := f.cut m e
    let c := if decide (srs.toNat / 2 ^ 16 < r * 2 ^ 16 / u) then c + 1 else c
    if c ≤ f.big then f.withSign neg c else f.overflow .rne satf neg
  | x => f.round .rne satf x

/-! ### Exact arithmetic -/

def XVal.neg : XVal → XVal
  | .nan => .nan
  | .inf n => .inf !n
  | .fin n m e => .fin (!n) m e

def XVal.abs : XVal → XVal
  | .nan => .nan
  | .inf _ => .inf false
  | .fin _ m e => .fin false m e

/-- A signed mantissa at a common exponent. -/
def XVal.at (neg : Bool) (m : Nat) (e lo : Int) : Int :=
  let v : Int := m * 2 ^ (e - lo).toNat
  if neg then -v else v

/-- The exact sum; a zero sum of operands of opposite sign is +0, or −0 under `rdn` (05 R104). -/
def xadd (mode : Rnd) : XVal → XVal → XVal
  | .nan, _ | _, .nan => .nan
  | .inf a, .inf b => if a == b then .inf a else .nan
  | .inf a, _ | _, .inf a => .inf a
  | .fin a m e, .fin b n k =>
    let lo := min e k
    let v := XVal.at a m e lo + XVal.at b n k lo
    if v = 0 then .fin (if a == b then a else mode == .rdn) 0 0
    else .fin (decide (v < 0)) v.natAbs lo

/-- The exact product (05 R111). -/
def xmul : XVal → XVal → XVal
  | .nan, _ | _, .nan => .nan
  | .inf a, .inf b => .inf (xor a b)
  | .inf a, .fin b m _ | .fin b m _, .inf a => if m = 0 then .nan else .inf (xor a b)
  | .fin a m e, .fin b n k => .fin (xor a b) (m * n) (e + k)

/-- Bits kept of an irrational or infinite quotient; a sticky bit below them makes every rounding of 05 R104 exact. -/
def quotBits : Nat := 128

/-- The quotient, exact or cut with a sticky last bit (05 R113). -/
def xdiv : XVal → XVal → XVal
  | .nan, _ | _, .nan => .nan
  | .inf _, .inf _ => .nan
  | .inf a, .fin b _ _ => .inf (xor a b)
  | .fin a _ _, .inf b => .fin (xor a b) 0 0
  | .fin a m e, .fin b n k =>
    if n = 0 then (if m = 0 then .nan else .inf (xor a b))
    else
      let num := m * 2 ^ quotBits
      .fin (xor a b) (2 * (num / n) + b2n (num % n != 0)) (e - k - quotBits - 1)

/-- The integer square root, by bits from the top. -/
def isqrtBits (n : Nat) : Nat → Nat → Nat
  | 0, r => r
  | k + 1, r => let r' := r + 2 ^ k; isqrtBits n k (if r' * r' ≤ n then r' else r)
def isqrt (n : Nat) : Nat := isqrtBits n (Nat.log2 n / 2 + 1) 0

/-- The square root, exact or cut with a sticky last bit (05 R113). -/
def xsqrt : XVal → XVal
  | .nan => .nan
  | .inf neg => if neg then .nan else .inf false
  | .fin neg m e =>
    if m = 0 then .fin neg 0 0
    else if neg then .nan
    else
      let odd := e % 2 == 1
      let n := (if odd then 2 * m else m) * 2 ^ (2 * quotBits)
      let r := isqrt n
      .fin false (2 * r + b2n (r * r != n)) ((if odd then e - 1 else e) / 2 - quotBits - 1)

/-- 1 / √a (05 R113): the root of a fraction cut to an integer, with a sticky bit. -/
def xrsqrt : XVal → XVal
  | .nan => .nan
  | .inf neg => if neg then .nan else .fin false 0 0
  | .fin neg m e =>
    if m = 0 then .inf neg
    else if neg then .nan
    else
      let odd := e % 2 == 1
      let m' := if odd then 2 * m else m
      let n := 2 ^ (2 * quotBits + 2 * (Nat.log2 m' / 2 + 1)) / m'
      let r := isqrt n
      let exact := r * r * m' == 2 ^ (2 * quotBits + 2 * (Nat.log2 m' / 2 + 1))
      .fin false (2 * r + b2n !exact) (-((if odd then e - 1 else e) / 2) - quotBits - (Nat.log2 m' / 2 + 1 : Nat) - 1)

/-! ### Comparison (04 R89, 05 R112) -/

/-- The order of two numbers; none when either is NaN. Zeros are equal. -/
def xcompare : XVal → XVal → Option Ordering
  | .nan, _ | _, .nan => none
  | .inf a, .inf b => some (if a == b then .eq else if a then .lt else .gt)
  | .inf a, _ => some (if a then .lt else .gt)
  | _, .inf b => some (if b then .gt else .lt)
  | .fin a m e, .fin b n k =>
    let lo := min e k
    some (compare (XVal.at a m e lo) (XVal.at b n k lo))

def XVal.isNan : XVal → Bool
  | .nan => true
  | _ => false
def XVal.isNeg : XVal → Bool
  | .nan => false
  | .inf n => n
  | .fin n _ _ => n

/-- `fcmp` (04 R89). -/
def floatCompare (c : Cond) (a b : XVal) : Bool :=
  match c, xcompare a b with
  | .eq, some .eq => true
  | .ne, o => o != some .eq
  | .lt, some .lt => true
  | .le, some o => o != .gt
  | .gt, some .gt => true
  | .ge, some o => o != .lt
  | .ord, some _ => true
  | .uno, none => true
  | _, _ => false

/-- Whether b wins strictly over a in `fmin` (or `fmax`): −0 counts below +0; a NaN loses (05 R112, R119). -/
def takesSecond (isMin : Bool) (a b : XVal) : Bool :=
  match a, b with
  | .nan, _ => true
  | _, .nan => false
  | a, b => match xcompare a b with
    | some .lt => !isMin
    | some .gt => isMin
    | _ => if isMin then b.isNeg && !a.isNeg else a.isNeg && !b.isNeg

/-- `fmin` and `fmax` on codes of a type: the result is an operand after modification, or the canonical NaN (05 R112). -/
def xminmax (isMin : Bool) (a b : XVal) : XVal := if takesSecond isMin a b then b else a

/-- Round to an integer under a mode (05 R116): none for NaN and infinities. -/
def XVal.toInt (mode : Rnd) : XVal → Option Int
  | .nan | .inf _ => none
  | .fin neg m e =>
    let (q, r, u) := if 0 ≤ e then (m * 2 ^ e.toNat, 0, 1) else (m / 2 ^ (-e).toNat, m % 2 ^ (-e).toNat, 2 ^ (-e).toNat)
    let q := if roundsUp mode neg (q % 2 == 1) r u then q + 1 else q
    some (if neg then -(q : Int) else q)

/-- Float to integer (05 R116): clamped to the target's range, NaN gives 0. -/
def toIntType (t : Ty) (mode : Rnd) (x : XVal) : Int :=
  match x with
  | .nan => 0
  | .inf neg => satTo t (if neg then -(2 ^ 80) else 2 ^ 80)
  | x => satTo t ((x.toInt mode).getD 0)

/-- An integer as a value. -/
def XVal.ofInt (v : Int) : XVal := .fin (decide (v < 0)) v.natAbs 0

/-- SAT of groups 0x3 and 0x4 (05 R111): NaN and what is not above 0 give +0, and 1 bounds the rest. -/
def satUnit (f : Fmt) (code : Nat) : Nat :=
  match f.value code with
  | .nan => 0
  | x => match xcompare x (.ofInt 0), xcompare x (.ofInt 1) with
    | some .gt, some .gt => f.round .rne false (.ofInt 1)
    | some .gt, _ => code
    | _, _ => 0

/-! ### Microscaled blocks (05 R102) -/

/-- The largest of some magnitudes. -/
def xmaxAbs (xs : List XVal) : XVal := xs.foldl (fun a x => if takesSecond false a x.abs then x.abs else a) (.fin false 0 0)

/-- The scale and elements of a block of exact values. -/
def mxBlock (f : Fmt) (mode : Rnd) (xs : List XVal) : Nat × List Nat :=
  if xs.any fun x => match x with | .fin _ _ _ => false | _ => true then (0xFF, xs.map fun _ => 0)
  else match xmaxAbs xs with
    | .fin _ m e =>
      if m = 0 then (0, xs.map fun _ => 0)
      else
        let emax : Int := if f.width = 4 then 2 else 8
        let k := max (-127) (min 127 (e + (Nat.log2 m : Nat) - emax))
        ((k + 127).toNat, xs.map fun x => match x with
          | .fin n m e => f.round mode true (.fin n m (e - k))
          | _ => 0)
    | _ => (0xFF, xs.map fun _ => 0)

end Sys2Proof.Machine
end

