-- ==== Sys2Proof/Machine/Elementary.lean ====
section
/-!
DEFINITION. The functions whose exact results are irrational: `fexp2`, `flog2`, `fsin`, `fcos` (05 R114). Each is computed in fixed point
with far more bits than any format holds and cut with a sticky bit, which gives the two values of the format that bracket it.
-/

namespace Sys2Proof.Machine

/-- Fraction bits of the fixed-point numbers here. -/
def fixBits : Nat := 800

/-- π × 2^800, cut. -/
def fixPi : Nat :=
  0x3243F6A88 * 2 ^ 768 +
  0x85A308D313198A2E03707344A4093822299F31D0082EFA98EC4E6C89452821E6 * 2 ^ 512 +
  0x38D01377BE5466CF34E90C6CC0AC29B7C97C50DD3F84D5B5B54709179216D5D9 * 2 ^ 256 +
  0x8979FB1BD1310BA698DFB5AC2FFD72DBD01ADFB7B8E1AFED6A267E96BA7C9045

/-- ln 2 × 2^800, cut. -/
def fixLn2 : Nat :=
  0xB17217F7 * 2 ^ 768 +
  0xD1CF79ABC9E3B39803F2F6AF40F343267298B62D8A0D175B8BAAFA2BE7B87620 * 2 ^ 512 +
  0x6DEBAC98559552FB4AFA1B10ED2EAE35C138214427573B291169B8253E96CA16 * 2 ^ 256 +
  0x224AE8C51ACBDA11317C387EB9EA9BC3B136603B256FA0EC7657F74B72CE87B1

/-- A product of fixed-point numbers. -/
def fixMul (a b : Int) : Int := a * b / 2 ^ fixBits

/-- Terms of a power series: `t` is the last term, `f n` divides the next, after a multiplication by `x`. -/
def fixSeries (x : Int) (f : Nat → Int) : Nat → Nat → Int → Int
  | 0, _, _ => 0
  | fuel + 1, n, t => t + fixSeries x f fuel (n + 1) (fixMul t x / f n)

/-- e^x for |x| ≤ 1. -/
def fixExp (x : Int) : Int := fixSeries x (fun n => n + 1) 150 0 (2 ^ fixBits)
/-- sin x and cos x for |x| ≤ 1. -/
def fixSin (x : Int) : Int := fixSeries (fixMul x x) (fun n => -((2 * n + 2) * (2 * n + 3) : Nat)) 90 0 x
def fixCos (x : Int) : Int := fixSeries (fixMul x x) (fun n => -((2 * n + 1) * (2 * n + 2) : Nat)) 90 0 (2 ^ fixBits)
/-- The terms of atanh z: z^(2n+1) / (2n+1). -/
def fixAtanh (z2 : Int) : Nat → Nat → Int → Int
  | 0, _, _ => 0
  | fuel + 1, n, t => t / (2 * n + 1) + fixAtanh z2 fuel (n + 1) (fixMul t z2)

/-- A fixed-point number that is not exact, with a sticky last bit. -/
def fixVal (v : Int) : XVal := .fin (decide (v < 0)) (2 * v.natAbs + 1) (-(fixBits : Int) - 1)

/-- A value in fixed point. -/
def toFix (neg : Bool) (m : Nat) (e : Int) : Int :=
  let v : Int := if 0 ≤ e + fixBits then m * 2 ^ (e + fixBits).toNat else m / 2 ^ (-(e + fixBits)).toNat
  if neg then -v else v

/-- 2^x (05 R114): exact for an integer x. -/
def xexp2 : XVal → XVal
  | .nan => .nan
  | .inf neg => if neg then .fin false 0 0 else .inf false
  | .fin neg m e =>
    if m = 0 then .fin false 1 0
    else if 16 < e + (Nat.log2 m : Nat) then (if neg then .fin false 1 (-70000) else .fin false 1 70000)
    else
      let v := toFix neg m e
      let n := v / 2 ^ fixBits
      let f := v % 2 ^ fixBits
      if f = 0 then .fin false 1 n
      else match fixVal (fixExp (fixMul f fixLn2)) with
        | .fin s m' e' => .fin s m' (e' + n)
        | x => x

/-- log2 x for x above zero (05 R114): exact for a power of two. -/
def xlog2 : XVal → XVal
  | .nan => .nan
  | .inf neg => if neg then .nan else .inf false
  | .fin neg m e =>
    if m = 0 then .inf true
    else if neg then .nan
    else
      let l := Nat.log2 m
      if m = 2 ^ l then .ofInt (e + l)
      else
        let z : Int := (m - 2 ^ l : Nat) * 2 ^ fixBits / (m + 2 ^ l : Nat)
        let ln := 2 * fixAtanh (fixMul z z) 260 0 z
        fixVal ((e + l) * 2 ^ fixBits + ln * 2 ^ fixBits / fixLn2)

/-- sin (x + k π / 2) for 0 < |x| ≤ 65,536: the quarter turn nearest to x is taken off first. -/
def xsinTurn (k : Int) (neg : Bool) (m : Nat) (e : Int) : XVal :=
  let v := toFix neg m e
  let q := (2 * v + fixPi / 2) / fixPi
  let r := v - q * fixPi / 2
  match (q + k) % 4 with
  | 0 => fixVal (fixSin r)
  | 1 => fixVal (fixCos r)
  | 2 => fixVal (-fixSin r)
  | _ => fixVal (-fixCos r)

/-- The result of a function of 05 R114: a value to bracket, or any value of the format in [-1, 1]. -/
inductive Approx
  | near (x : XVal)
  | unit
  deriving DecidableEq, Repr

def approxSin (x : XVal) : Approx :=
  match x with
  | .nan | .inf _ => .near .nan
  | .fin neg m e => if m = 0 then .near x else if decide (xcompare x.abs (.ofInt 65536) = some .gt) then .unit else .near (xsinTurn 0 neg m e)
def approxCos (x : XVal) : Approx :=
  match x with
  | .nan | .inf _ => .near .nan
  | .fin neg m e =>
    if m = 0 then .near (.ofInt 1) else if decide (xcompare x.abs (.ofInt 65536) = some .gt) then .unit else .near (xsinTurn 1 neg m e)

/-- The two values that bracket x: next towards zero, and next away (05 R114); equal where x is a value of the format. A value
beyond the largest finite is rounded by `rne`, as the row of 05 R104 says (DEDUCED: log 69). -/
def Fmt.bracket (f : Fmt) (x : XVal) : Nat × Nat :=
  match x with
  | .fin neg m e =>
    let (c, r, _) := f.cut m e
    if r = 0 ∨ f.big ≤ c then (f.round .rne false x, f.round .rne false x)
    else (f.withSign neg c, f.withSign neg (c + 1))
  | x => (f.round .rne false x, f.round .rne false x)

/-- A result of 05 R114, with a free choice among those allowed. -/
def Fmt.choose (f : Fmt) (a : Approx) (pick : Nat) : Nat :=
  match a with
  | .near x => if pick % 2 = 0 then (f.bracket x).1 else (f.bracket x).2
  | .unit =>
    let one := f.round .rne false (.ofInt 1)
    f.withSign (decide (one < pick % (2 * one + 2))) (if one < pick % (2 * one + 2) then pick % (2 * one + 2) - one - 1 else pick % (2 * one + 2))

end Sys2Proof.Machine
end

