-- ==== Sys2Proof/Machine/Float.lean ====
section
/-!
DEFINITION. Groups 0x3 and 0x4 and `fcmp`: floating-point instructions (05 R107 to R114, 04 R89, R90).
-/

namespace Sys2Proof.Machine

/-- The code a source gives a float type: an inline constant is the exact value (02 R29, 05 R108). -/
def readF (s : State) (p : Party) (g : Gang) (f : Fibre) (t : Ty) (x : Src) : Nat :=
  match x with
  | .op (.const k) => (fmtOf t).round .rne false (.ofInt k)
  | _ => readU s p g f t x

/-- A modified operand (05 R111). -/
def fopnd (s : State) (x : Turn) (f : Fibre) (t : Ty) (o : Src) (abs neg : Bool) : XVal :=
  let v := (fmtOf t).value (readF s x.p x.g f t o)
  let v := if abs then v.abs else v
  if neg then v.neg else v

/-- The words of a float result (05 R108). -/
def codeWords (t : Ty) (code : Nat) : List Word := if t.is64 then [w32 code, w32 (code / 2 ^ 32)] else [w32 code]

/-- One rounding, then SAT (05 R111). -/
def finish (t : Ty) (m : FMod) (x : XVal) : List Word :=
  let y := (fmtOf t).round m.rnd false x
  codeWords t (if m.sat then satUnit (fmtOf t) y else y)

/-- The exact results of 05 R111 to R113 under a rounding mode, which decides the sign of an exact zero sum. -/
def xsub (mode : Rnd) (a b : XVal) : XVal := xadd mode a b.neg
def xfma (mode : Rnd) (a b c : XVal) : XVal := xadd mode (xmul a b) c
def xrcp (a : XVal) : XVal := xdiv (.ofInt 1) a

/-- The words of a two-source form. -/
def fbin (s : State) (t : Ty) (a : Opnd) (b : Src) (m : FMod) (op : XVal → XVal → XVal) (x : Turn) (f : Fibre) : List Word :=
  finish t m (op (fopnd s x f t (.op a) m.aa m.na) (fopnd s x f t b m.ab m.nb))
/-- The words of a one-source form. -/
def fun1 (s : State) (t : Ty) (a : Opnd) (m : FMod) (op : XVal → XVal) (x : Turn) (f : Fibre) : List Word :=
  finish t m (op (fopnd s x f t (.op a) m.aa m.na))
def fma3 (s : State) (t : Ty) (a b c : Opnd) (m : FMod) (x : Turn) (f : Fibre) : List Word :=
  finish t m (xfma m.rnd (fopnd s x f t (.op a) m.aa m.na) (fopnd s x f t (.op b) m.ab m.nb) (fopnd s x f t (.op c) false m.nc))

def State.fForm (s : State) (i : Instr) (d : Opnd) (ws : Turn → Fibre → List Word) : Out := s.regForm i d fun x f => { ws := ws x f }

def execFadd (h : Head) (t : Ty) (d a : Opnd) (b : Src) (m : FMod) (s : State) : Out :=
  s.fForm (.fadd h t d a b m) d (fbin s t a b m (xadd m.rnd))
def execFsub (h : Head) (t : Ty) (d a : Opnd) (b : Src) (m : FMod) (s : State) : Out :=
  s.fForm (.fsub h t d a b m) d (fbin s t a b m (xsub m.rnd))
def execFmul (h : Head) (t : Ty) (d a : Opnd) (b : Src) (m : FMod) (s : State) : Out :=
  s.fForm (.fmul h t d a b m) d (fbin s t a b m xmul)
def execFfma (h : Head) (t : Ty) (d a b c : Opnd) (m : FMod) (s : State) : Out :=
  s.fForm (.ffma h t d a b c m) d (fma3 s t a b c m)
def execFmin (h : Head) (t : Ty) (d a : Opnd) (b : Src) (m : FMod) (s : State) : Out :=
  s.fForm (.fmin h t d a b m) d (fbin s t a b m (xminmax true))
def execFmax (h : Head) (t : Ty) (d a : Opnd) (b : Src) (m : FMod) (s : State) : Out :=
  s.fForm (.fmax h t d a b m) d (fbin s t a b m (xminmax false))
def execFdiv (h : Head) (t : Ty) (d a : Opnd) (b : Src) (m : FMod) (s : State) : Out :=
  s.oweForm (.fdiv h t d a b m) d (fbin s t a b m xdiv)
def execFrcp (h : Head) (t : Ty) (d a : Opnd) (m : FMod) (s : State) : Out :=
  s.oweForm (.frcp h t d a m) d (fun1 s t a m xrcp)
def execFrsq (h : Head) (t : Ty) (d a : Opnd) (m : FMod) (s : State) : Out :=
  s.oweForm (.frsq h t d a m) d (fun1 s t a m xrsqrt)
def execFsqrt (h : Head) (t : Ty) (d a : Opnd) (m : FMod) (s : State) : Out :=
  s.oweForm (.fsqrt h t d a m) d (fun1 s t a m xsqrt)

/-- The f64 forms (05 R110). -/
def execFaddF64 (h : Head) (t : Ty) (d a b : Opnd) (m : FMod) (s : State) : Out :=
  s.fForm (.faddF64 h t d a b m) d (fbin s t a (.op b) m (xadd m.rnd))
def execFsubF64 (h : Head) (t : Ty) (d a b : Opnd) (m : FMod) (s : State) : Out :=
  s.fForm (.fsubF64 h t d a b m) d (fbin s t a (.op b) m (xsub m.rnd))
def execFmulF64 (h : Head) (t : Ty) (d a b : Opnd) (m : FMod) (s : State) : Out :=
  s.fForm (.fmulF64 h t d a b m) d (fbin s t a (.op b) m xmul)
def execFfmaF64 (h : Head) (t : Ty) (d a b c : Opnd) (m : FMod) (s : State) : Out :=
  s.fForm (.ffmaF64 h t d a b c m) d (fma3 s t a b c m)
def execFminF64 (h : Head) (t : Ty) (d a b : Opnd) (m : FMod) (s : State) : Out :=
  s.fForm (.fminF64 h t d a b m) d (fbin s t a (.op b) m (xminmax true))
def execFmaxF64 (h : Head) (t : Ty) (d a b : Opnd) (m : FMod) (s : State) : Out :=
  s.fForm (.fmaxF64 h t d a b m) d (fbin s t a (.op b) m (xminmax false))
def execFdivF64 (h : Head) (t : Ty) (d a b : Opnd) (m : FMod) (s : State) : Out :=
  s.oweForm (.fdivF64 h t d a b m) d (fbin s t a (.op b) m xdiv)
def execFrcpF64 (h : Head) (t : Ty) (d a : Opnd) (m : FMod) (s : State) : Out :=
  s.oweForm (.frcpF64 h t d a m) d (fun1 s t a m xrcp)
def execFrsqF64 (h : Head) (t : Ty) (d a : Opnd) (m : FMod) (s : State) : Out :=
  s.oweForm (.frsqF64 h t d a m) d (fun1 s t a m xrsqrt)
def execFsqrtF64 (h : Head) (t : Ty) (d a : Opnd) (m : FMod) (s : State) : Out :=
  s.oweForm (.fsqrtF64 h t d a m) d (fun1 s t a m xsqrt)

/-- A function of 05 R114: each fibre makes its own free choice between the values that bracket the exact result; the slots of a gang use
up its draws. -/
def State.approxForm (s : State) (i : Instr) (t : Ty) (d a : Opnd) (m : FMod) (op : XVal → Approx) : Out :=
  s.issue i fun x => .next { (s.oweAll i x d fun f =>
    let y := (fmtOf t).choose (op (fopnd s x f t (.op a) m.aa m.na)) (Config.choice (s.draws + x.g.slotOf f.fid))
    codeWords t (if m.sat then satUnit (fmtOf t) y else y)).advance x.uid x.gid i.raw with draws := s.draws + 32 }

def execFexp2 (h : Head) (t : Ty) (d a : Opnd) (m : FMod) (s : State) : Out :=
  s.approxForm (.fexp2 h t d a m) t d a m fun x => .near (xexp2 x)
def execFlog2 (h : Head) (t : Ty) (d a : Opnd) (m : FMod) (s : State) : Out :=
  s.approxForm (.flog2 h t d a m) t d a m fun x => .near (xlog2 x)
def execFsin (h : Head) (t : Ty) (d a : Opnd) (m : FMod) (s : State) : Out := s.approxForm (.fsin h t d a m) t d a m approxSin
def execFcos (h : Head) (t : Ty) (d a : Opnd) (m : FMod) (s : State) : Out := s.approxForm (.fcos h t d a m) t d a m approxCos

/-- `fcmp` (04 R90). -/
def execFcmp (h : Head) (t : Ty) (a : Opnd) (b : Src) (cond : Cond) (p : CmpDst) (s : State) : Out :=
  s.regForm (.fcmp h t a b cond p) p.d fun x f =>
    placeCompare f p (floatCompare cond (fopnd s x f t (.op a) false false) (fopnd s x f t b false false))

end Sys2Proof.Machine
end

