-- ==== Sys2Proof/Machine/Sieve.lean ====
section
/-!
DEFINITION. The Sieve (06 R124 to R133, 03 R54, R55, R59 to R61): gang numbers, splits, merges, readiness and choice, parking and release,
bins, and the deadlocks of windows, meets, spawns and futures.
-/

namespace Sys2Proof.Machine

/-! ### Gang numbers (06 R124) -/

/-- The numbers the gangs of a crew hold. -/
def Party.numbers (p : Party) (crew : Nat) : List Nat := (p.gangs.filter fun g => g.crew == crew).filterMap (·.number)

/-- The free gang numbers of a crew, lowest first, and its held sides, oldest hold first. -/
def Party.freeNumbers (p : Party) (crew : Nat) : List Nat := (List.range 16).filter fun n => !(p.numbers crew).contains n
def Party.held (p : Party) (crew : Nat) : List Gang := p.gangs.filter fun g => g.crew == crew && g.number.isNone

/-- The gang number that a newly formed gang of a crew takes: the lowest that no held side is to have before it. -/
def Party.freeNumber (p : Party) (crew : Nat) : Option Nat := ((p.freeNumbers crew).drop (p.held crew).length).head?

/-- Set `$gstat` bits: 0 UDIV, 1 SPLITWAIT, 2 STALEDROP (03 R56). -/
def udiv : Word := 1
def splitWait : Word := 2
def staleDrop : Word := 4

/-- Add a newly formed gang: it takes the lowest free number, or is held and sets SPLITWAIT (03 R54, 06 R124). -/
def Party.addGang (p : Party) (now : DWord) (g : Gang) : Party :=
  match p.freeNumber g.crew with
  | some n => { p with gangs := p.gangs ++ [{ g with number := some n }] }
  | none => ({ p with gangs := p.gangs ++ [{ g with number := none }] }).orGstat now g.crew splitWait

/-- Fibre numbers by ascending `$cfid` (03 R52). -/
def Party.cfidOf (p : Party) (fid : Nat) : Nat := ((p.fibre? fid).map (·.cfid)).getD 0
def insertBy (key : Nat → Nat) (x : Nat) : List Nat → List Nat
  | [] => [x]
  | y :: ys => if key x < key y then x :: y :: ys else y :: insertBy key x ys
def sortBy (key : Nat → Nat) (l : List Nat) : List Nat := l.foldr (insertBy key) []

/-- Cut a list into pieces of 32, the remainder last (06 R125). -/
def cut32 (fuel : Nat) (l : List Nat) : List (List Nat) :=
  match fuel with
  | 0 => []
  | n + 1 => if l.isEmpty then [] else l.take 32 :: cut32 n (l.drop 32)

/-- A gang as it is formed (06 R120). -/
def State.newGang (s : State) (p : Party) (gid crew : Nat) (fibres : List Nat) (sregs : List Word) (emu : Emu) : Gang :=
  { gid := gid, crew := crew, number := none, fibres := fibres, sregs := sregs, emu := emu, ready := s.clock.toNat
    cls := ((p.crew? crew).map (·.prio)).getD 0, boundary := true, entered := false }

/-- Form several gangs in order. -/
def State.formGangs (s : State) (uid : Nat) : List (Nat → Gang) → State
  | [] => s
  | form :: rest =>
    let (gid, s) := s.fresh
    let s := s.onParty uid fun p => p.addGang s.clock (form gid)
    let held := (s.gang? uid gid).any fun g => g.number.isNone
    ((if held then s.countParty uid 0x06 1 else s).formGangs uid rest)

/-! ### Splits (06 R124, 03 R54) -/

/-- The distinct `$pc` values of a gang's fibres, in order of first occurrence: the first belongs to the lowest `$cfid`. -/
def pcsOf (ms : List Fibre) : List Word := ms.foldl (fun l f => if l.contains f.pc then l else l ++ [f.pc]) []

/-- Split a gang by the `$pc` of its fibres: the side with the lowest `$cfid` keeps the gang and its number. -/
def State.split (s : State) (uid gid : Nat) : State :=
  match s.party? uid with
  | none => s
  | some p => match p.gang? gid with
    | none => s
    | some g =>
      let ms := p.members g
      match pcsOf ms with
      | [] | [_] => s
      | pc :: pcs =>
        let side := fun pc => (ms.filter fun f => f.pc == pc).map (·.fid)
        let s := (s.onGang uid gid fun g => { g with fibres := side pc, boundary := true }).countParty uid 0x04 pcs.length
        s.formGangs uid (pcs.map fun pc gid' => s.newGang p gid' g.crew (side pc) g.sregs g.emu)

/-! ### Merges (06 R125, 03 R55) -/

/-- A gang stands at a fetch boundary (06 R125). -/
def Party.atBoundary (p : Party) (g : Gang) : Bool := g.boundary || g.number.isNone || (p.pcOf g).toNat % 32 == 0

/-- A gang may merge: it has come to its lane, it stands at a boundary at level U (log 102), and no outstanding result aims at its s registers
(03 R54). A gang that waits at an instruction which has not taken effect (16 R365) merges as any other. -/
def State.mayMerge (s : State) (p : Party) (g : Gang) : Bool :=
  p.atBoundary g && !g.level && !g.starting && !s.scalarPending p.uid g && !g.redoWait

/-- What a merged gang waits for: an `xgrow`, an engine entry or a record that one of the gangs has asked for, whose place the merged gang keeps; a
`spawn` goes on with the records that are placed; whatever else held a gang back is looked at again (log 67). -/
def mergedWait (gs : List Gang) : Option Wait :=
  let pick := fun (f : Wait → Bool) => (gs.filterMap (·.wait)).filter f
  match pick (fun w => match w with | .spawn _ _ _ _ => true | _ => false), pick (fun w => match w with | .engine _ => true | _ => false),
      pick (fun w => match w with | .xgrow _ _ => true | _ => false), pick (fun w => match w with | .rqpop _ _ => true | _ => false) with
  | ws@(.spawn _ e t m :: _), _, _, _ =>
    let since := ws.foldl (fun b w => match w with | .spawn _ _ t _ => min b t | _ => b) t
    some (.spawn (ws.flatMap fun w => match w with | .spawn l _ _ _ => l | _ => []) e since m)
  | _, w :: _, _, _ => some w
  | _, _, .xgrow l h :: _, _ => some (.xgrow l h)
  | _, _, _, ws@(.rqpop n m :: _) => some (.rqpop (ws.foldl (fun b w => match w with | .rqpop n _ => min b n | _ => b) n) m)
  | _, _, _, _ => none

/-- What one gang of a merge waits for: an `xgrow` is for the fibres of that gang on which it takes effect (03 R59). -/
def Party.pieceWait (p : Party) (fs : List Nat) : Option Wait → Option Wait
  | some (.xgrow _ h) =>
    let grow := (takeEffect h (fs.filterMap p.fibre?)).map (·.fid)
    if grow.isEmpty then none else some (.xgrow grow h)
  | w => w

/-- A gang waits in `xgrow`. -/
def Gang.growing (g : Gang) : Bool :=
  match g.wait with
  | some (.xgrow _ _) => true
  | _ => false

/-- A list with the first of some entries replaced and the others gone. -/
def replaceFirst {α : Type} (mine : α → Bool) (new : List α) : List α → List α
  | [] => []
  | w :: ws => if mine w then new ++ ws.filter (!mine ·) else w :: replaceFirst mine new ws

/-- The requests of merging gangs pass to the gangs they form, at the oldest place; a `launch` whose request has not been granted asks again. -/
def State.passRequests (s : State) (p : Party) (gids : List Nat) (heir : Nat) (growing : List Nat) : State :=
  let mine := fun (w : LaneRef × Nat × Nat) => w.2.1 == p.uid && gids.contains w.2.2
  let lane := ((s.growq.find? mine).map (·.1)).getD ⟨0, 0, 0⟩
  let req := fun (r : EngineReq) => match r with
    | .gang e uid gid i => if uid = p.uid ∧ gids.contains gid then EngineReq.gang e uid heir i else r
    | r => r
  let asked := (s.requests.filter fun r => r.uid == p.uid && gids.contains r.gid && (p.gang? r.gid).any fun g => g.wait == some (.launch r.id)).map (·.id)
  ({ s with growq := replaceFirst mine (growing.map fun g => (lane, p.uid, g)) s.growq
            requests := s.requests.filter fun r => !asked.contains r.id
            flight := s.flight.filter fun a => !asked.contains a.id } : State).onCore p.core fun k =>
    { k with waiting := (k.waiting.map req).eraseDups }

/-- Merge the gangs of one crew that stand at one `$pc` (03 R55, 06 R124, R125). Where the gang with the lowest `$cfid` is a held side, the merged gang
takes the number of the merging gang that follows (log 67). A piece that is one of the gangs as it stands keeps its count of ready clk (06 R127). -/
def State.mergeAt (s : State) (uid : Nat) (gs : List Gang) : State :=
  match s.party? uid with
  | none => s
  | some p =>
    let fids := sortBy p.cfidOf (gs.flatMap (·.fibres))
    match gs.find? fun g => g.fibres.contains (fids.headD 0) with
    | none => s
    | some g0 =>
      let differ := gs.any fun g => decide (g.sregs ≠ g0.sregs)
      let order := fids.filterMap fun f => gs.find? fun g => g.fibres.contains f
      let wait := mergedWait gs
      let gang : Nat → Option Nat → List Nat → Gang := fun gid number fs =>
        match gs.find? fun g => g.fibres == fs with
        | some g => { g with gid := gid, number := number, sregs := g0.sregs, emu := g0.emu, boundary := true, wait := p.pieceWait fs wait }
        | none => { s.newGang p gid g0.crew fs g0.sregs g0.emu with number := number, wait := p.pieceWait fs wait }
      let others := (gs.filter fun g => g.gid != g0.gid).map (·.gid)
      let pieces := cut32 128 fids
      let gids := g0.gid :: (List.range (pieces.length - 1)).map (s.nextId + ·)
      let growing := (gids.zip pieces).filter fun x => (gang x.1 none x.2).growing
      let s := s.passRequests p (gs.map (·.gid)) g0.gid (growing.map (·.1))
      let s := s.onParty uid fun p =>
        { p with gangs := (p.gangs.filter fun g => !others.contains g.gid).map fun g =>
                   if g.gid == g0.gid then gang g0.gid (order.findSome? (·.number)) (pieces.headD []) else g }
      let s := s.formGangs uid ((pieces.drop 1).map fun fs gid => { gang gid none fs with wait := match p.pieceWait fs wait with
        | some (.engine _) => none
        | w => w })
      let s := s.countParty uid 0x05 1
      if differ then s.onParty uid fun p => p.orGstat s.clock g0.crew udiv else s

/-- The gangs are already what merging them would give: cuts of 32 with the remainder last, with one copy of the scalars. -/
def Party.merged (p : Party) (gs : List Gang) : Bool :=
  let pieces := cut32 128 (sortBy p.cfidOf (gs.flatMap (·.fibres)))
  decide (pieces.length = gs.length) && (pieces.all fun fs => gs.any fun g => g.fibres == fs) &&
  (match gs with
   | [] => true
   | g :: _ => gs.all fun h => decide (h.sregs = g.sregs ∧ h.emu = g.emu))

/-- The sets of gangs of a crew that merge now, each at one `$pc`. -/
def State.mergeSets (s : State) (p : Party) (crew : Nat) : List (List Gang) :=
  let gs := (p.gangs.filter fun g => g.crew == crew).filter (s.mayMerge p)
  let pcs := gs.foldl (fun l g => if l.contains (p.pcOf g) then l else l ++ [p.pcOf g]) []
  (pcs.map fun pc => gs.filter fun g => p.pcOf g == pc).filter fun l => decide (2 ≤ l.length) && !p.merged l

/-- Merge on one crew; a gang with faults still to take takes them first and does not take part (16 R354);
a party on its way off the core merges nothing (16 R365). -/
def State.mergeCrew (s : State) (uid crew : Nat) : State :=
  match s.party? uid with
  | none => s
  | some p => if p.suspended || p.ended then s else (s.mergeSets p crew).foldl (fun s gs =>
      let s : State := gs.foldl (fun (s : State) g => if (s.pendingFaults uid g).isEmpty then s else s.takePending uid g.gid (p.pcOf g)) s
      let gs : List Gang := gs.filter fun g => (s.gang? uid g.gid).any fun h => !h.level
      if 2 ≤ gs.length then s.mergeAt uid gs else s) s

/-- The parties on a core. -/
def State.partiesOn (s : State) (c : CoreRef) : List Party := s.parties.filter fun p => p.core == c

def laneCore (l : LaneRef) : CoreRef := ⟨l.die, l.core⟩

/-! ### Readiness and choice (06 R126, 12 R262) -/

/-- A gang could issue but for what it waits for. -/
def Party.mayIssue (p : Party) (g : Gang) : Bool := g.number.isSome && !g.starting && !p.halted && !p.ended && !p.suspended

/-- Nothing holds a gang back (06 R126). -/
def State.gangFree (s : State) (p : Party) (g : Gang) : Bool :=
  p.mayIssue g && (match g.wait with
   | none => true
   | some .marker => !s.outstanding p.uid g || !(s.pendingFaults p.uid g).isEmpty
   | some _ => false)

/-- A gang that a lane may try: nothing holds it back, or what did may have ended since it was tried last, or it has a fault to take at a release that
it has issued (10 R222). -/
def State.gangReady (s : State) (p : Party) (g : Gang) : Bool :=
  s.gangFree p g || (p.mayIssue g && (match g.wait with
   | some (.again m) | some (.futureFull m) | some (.score _ m) => decide (m < s.changes) || s.releaseStuck p.uid g
   | some (.spawn _ _ _ m) | some (.rqpop _ m) => decide (m < s.changes)
   | some .marker | some (.counter _ _ _ _ _ _ _ _) | some (.future _ _) => s.releaseStuck p.uid g
   | _ => false))

/-- The order of choice: higher class, older stamp, lower `$cfid`, earlier placement (06 R126, 12 R262). -/
def betterGang (p q : Party) (g h : Gang) : Bool :=
  if g.effective ≠ h.effective then decide (h.effective < g.effective)
  else if g.ready ≠ h.ready then decide (g.ready < h.ready)
  else if p.cfidOf (g.fibres.headD 0) ≠ q.cfidOf (h.fibres.headD 0) then decide (p.cfidOf (g.fibres.headD 0) < q.cfidOf (h.fibres.headD 0))
  else decide (p.placed < q.placed)

/-- The gang a lane issues from, of those in its gang-ready set: none where it has started an issue in this clk (12 R262). -/
def State.chooseGang (s : State) (l : LaneRef) : Option (Party × Gang) :=
  if s.issued.contains l then none else
  ((s.partiesOn (laneCore l)).flatMap fun p => ((p.gangs.filter fun g => g.crew == l.lane && g.entered && s.gangReady p g).map fun g => (p, g))).foldl
    (fun best x => match best with
      | none => some x
      | some b => if betterGang x.1 b.1 x.2 b.2 then some x else some b) none

/-- The gangs of a lane that a launch has placed come to it, each at a time of its own (06 R125, log 101): of those that have not, any may come now; one
does where the lane has no gang to issue from, and each does by the time in which a ready gang reaches class 3 (06 R127). -/
def State.startGangs (s : State) (l : LaneRef) : State :=
  let gs := (s.partiesOn (laneCore l)).flatMap fun p => (p.gangs.filter fun g => g.crew == l.lane).map fun g => (p.uid, g)
  let start := fun (s : State) (x : Nat × Gang) => s.onGang x.1 x.2.gid fun g => { g with starting := false }
  let late := gs.filter (·.2.starting)
  let idle := gs.all fun x => x.2.starting || !(x.2.entered && (s.party? x.1).any fun p => s.gangReady p x.2)
  let due := fun (x : Nat × Gang) => decide (x.2.ready + 3072 ≤ s.clock.toNat)
  let first := if idle then late.take 1 else []
  let s := first.foldl start s
  (late.drop first.length).foldl (fun s x => let (k, s) := s.draw 2; if k = 0 || due x then start s x else s) s

/-- Merge every crew of a lane: crew number and lane number are one (03 R63). -/
def State.mergeLane (s : State) (l : LaneRef) : State :=
  (s.partiesOn (laneCore l)).foldl (fun s p => s.mergeCrew p.uid l.lane) (s.startGangs l)

/-! ### Parking and release (06 R129 to R131) -/

/-- Whether a parked fibre's cohort is complete (06 R130). -/
def Party.meetDone (p : Party) (crew : Nat) (m : Meet) : Bool :=
  (List.range 128).all fun i => !m.mask.getLsbD i ||
    (p.fibres.all fun f => f.crew != crew || f.cfid != i || (f.meet.any fun n => n.addr == m.addr))

/-- Fibres released, grouped by address. -/
def Party.released (p : Party) (crew : Nat) : List (Fibre × Meet) :=
  p.fibres.filterMap fun f => if f.crew != crew then none else
    match f.meet with
    | some m => if p.meetDone crew m then some (f, m) else none
    | none => none

/-- Every live fibre of a crew is parked. -/
def Party.allParked (p : Party) (crew : Nat) : Bool :=
  (p.fibres.any fun f => f.crew == crew) && p.fibres.all fun f => f.crew != crew || f.meet.isSome

/-- `evaluate_release` (06 R130): those whose cohorts are complete go on as gangs cut by R125, scalars by 03 R55; if every live fibre is
parked and none is released the crew takes MEET_DEADLOCK (06 R131). -/
def State.evaluateRelease (s : State) (uid crew : Nat) : State :=
  match s.party? uid with
  | none => s
  | some p =>
    let rs := p.released crew
    if rs.isEmpty then (if p.allParked crew then s.partyFault uid 0x20 else s)
    else
      let addrs := rs.foldl (fun (l : List Word) r => if l.contains r.2.addr then l else l ++ [r.2.addr]) []
      let fids := rs.map fun r => r.1.fid
      let free := fun (f : Fibre) =>
        if fids.contains f.fid then { f with pc := ((f.meet.map (·.addr)).getD f.pc) + 8, meet := none } else f
      let s := s.onParty uid fun p => { p with fibres := p.fibres.map free }
      addrs.foldl (fun s a =>
        let here := rs.filter fun r => r.2.addr == a
        let order := sortBy p.cfidOf (here.map fun r => r.1.fid)
        match here.find? (fun r => r.1.fid == order.headD 0) with
        | none => s
        | some (_, m) =>
          let s := s.formGangs uid ((cut32 4 order).map fun fs gid => s.newGang p gid crew fs m.sregs m.emu)
          if here.any (fun r => decide (r.2.sregs ≠ m.sregs)) then s.onParty uid fun p => p.orGstat s.clock crew udiv else s) s

/-! ### Windows (03 R59, R61) -/

/-- Blocks an `xgrow` needs: one for each fibre on which it takes effect and whose window is not full. -/
def growNeed (fs : List Fibre) : Nat := (fs.filter fun f => f.blocks.length < 5).length

/-- Grant an `xgrow` to the fibres on which it takes effect (03 R59). -/
def State.grow (s : State) (uid : Nat) (l : LaneRef) (fs : List Fibre) : State :=
  fs.foldl (fun s f =>
    if f.blocks.length < 5 then
      let b := (s.freeBlocks l).headD 0
      (s.clearBlock l b).onFibre uid f.fid fun f => { f with blocks := f.blocks ++ [b], pred := pushPred f.pred true }
    else s.onFibre uid f.fid fun f => { f with pred := pushPred f.pred false }) s

def Party.laneRef (p : Party) (crew : Nat) : LaneRef := ⟨p.core.die, p.core.core, crew⟩

/-- The fibres for which a gang waits in `xgrow`. -/
def Party.growers (p : Party) (g : Gang) : List Fibre :=
  match g.wait with
  | some (.xgrow fids _) => fids.filterMap p.fibre?
  | _ => []

/-- Every live fibre of every crew of a lane waits in `xgrow` or is parked. -/
def State.laneStuck (s : State) (l : LaneRef) : Bool :=
  (s.partiesOn (laneCore l)).all fun p =>
    p.fibres.all fun f => f.crew != l.lane || f.meet.isSome || (p.gangs.any fun g => g.growing && g.fibres.contains f.fid)

/-- WINDOW_DEADLOCK (03 R61): the oldest waiting gang takes it, its `xgrow` without effect; a crew that is wholly parked takes
MEET_DEADLOCK first, which its own evaluation raises. -/
def State.windowDeadlock (s : State) (l : LaneRef) : State :=
  match s.growq.find? fun w => w.1 == l with
  | none => s
  | some (_, uid, gid) =>
    match s.party? uid with
    | none => s
    | some p => match p.gang? gid with
      | none => s
      | some g =>
        if s.laneStuck l && decide ((s.freeBlocks l).length < growNeed (p.growers g)) then
          let fs := p.growers g
          let raw := match g.wait with
            | some (.xgrow _ h) => (Instr.xgrow h).raw
            | _ => (Instr.xgrow {}).raw
          s.faultAt uid gid (p.pcOf g) (issueLog raw (p.pcOf g) 0x12 0 0 (maskOf (fs.map fun f => g.slotOf f.fid)) .none
            (fs.map fun f => ⟨f.fid, [], 0, []⟩))
        else s

/-! ### Bins (06 R132, R133, 12 R261) -/

/-- The timer of a bin (06 R132). -/
def binTimer (tmo : Nat) : Nat := if tmo = 0 then 256 else 2 ^ (tmo + 3)

/-- Bins whose state is not free, by number. -/
def Party.binAt (p : Party) (b : Nat) : Bin := sget {} p.bins b
def Party.binFor (p : Party) (entry : Word) : Option Nat :=
  match (List.range 8).find? fun b => (p.binAt b).state != .free && (p.binAt b).key == entry with
  | some b => some b
  | none => (List.range 8).find? fun b => (p.binAt b).state == .free

/-- A filling bin whose timer has reached 0: it releases in the clk after, so that a record of the same clk is part of the release (12 R261). -/
def Bin.expired (k : Bin) (now : Nat) : Bool := k.state == .filling && decide (k.expiry < now)

/-- The order in which bins began releasing (12 R261): by the clk, then by the event in it. -/
def releaseOrder (clk event : Nat) : Nat := clk * 2 ^ 64 + event

/-- Place one record: none when no bin takes it now (06 R132, 12 R261). -/
def Party.placeRecord (p : Party) (now event : Nat) (r : BinRec) (tmo : Nat) : Option Party :=
  match p.binFor r.entry with
  | none => none
  | some b =>
    let k := p.binAt b
    match k.state with
    | .releasing => none
    | .free =>
      some { p with bins := sput p.bins b { state := .filling, key := r.entry, tmo := tmo
                                            expiry := now + binTimer tmo, recs := [r] } }
    | .filling =>
      if k.expired now then none
      else
        let recs := k.recs ++ [r]
        some { p with bins := sput p.bins b { k with recs := recs, state := if recs.length = 32 then .releasing else .filling
                                                     order := if recs.length = 32 then releaseOrder now event else k.order } }

/-- Another gang began to wait earlier to place a record of this key (12 R261). -/
def Party.spawnBefore (p : Party) (gid : Nat) (entry : Word) (since : Option Nat) : Bool :=
  p.gangs.any fun h => h.gid != gid && (match h.wait with
    | some (.spawn _ e t _) => e == entry && since.all fun x => decide (t < x)
    | _ => false)

/-- A crew that can take a bin's gang (06 R133): a free gang number, `$cfid` and `$fid` values, and lane blocks. -/
def State.crewFits (s : State) (p : Party) (k : Bin) (crew : Nat) : Bool :=
  (p.freeNumber crew).isSome &&
  decide ((p.fibres.filter fun f => f.crew == crew).length + k.recs.length ≤ 128) &&
  decide (p.fibres.length + k.recs.length ≤ 2048) &&
  decide ((k.recs.map (·.blocks)).sum ≤ (s.freeBlocks (p.laneRef crew)).length)

/-- The lowest number from 0 that a list does not hold. -/
def lowestFree (bound : Nat) (used : List Nat) : Nat := ((List.range bound).find? fun n => !used.contains n).getD bound

/-- The rounding generator of a new fibre (03 R49). -/
def srsReset (c : CoreRef) (fid : Nat) : Word := w32 (2 * (c.die * 131072 + c.core * 2048 + fid) + 1)

/-- Take `n` blocks from the pool of a lane, cleared (03 R57). -/
def State.takeBlocks (s : State) (l : LaneRef) (n : Nat) : List Nat × State :=
  let bs := (s.freeBlocks l).take n
  (bs, bs.foldl (fun s b => s.clearBlock l b) s)

/-- Create a fibre with the lowest free `$fid` and `$cfid` of its party and crew (03 R63, 06 R133). -/
def State.spawnFibre (s : State) (uid crew : Nat) (r : BinRec) : Nat × State :=
  match s.party? uid with
  | none => (0, s)
  | some p =>
    let fid := lowestFree 2048 (p.fibres.map (·.fid))
    let cfid := lowestFree 128 ((p.fibres.filter fun f => f.crew == crew).map (·.cfid))
    let (bs, s) := s.takeBlocks (p.laneRef crew) r.blocks
    let f : Fibre := { fid := fid, cfid := cfid, crew := crew, pc := r.entry, srs := srsReset p.core fid, blocks := bs }
    let s := s.onParty uid fun p => { p with fibres := p.fibres ++ [f] }
    (fid, s.setVreg p f 0 r.arg)

/-- Create the fibres of a bin's records, in record order. -/
def State.spawnAll (s : State) (uid crew : Nat) : List BinRec → List Nat × State
  | [] => ([], s)
  | r :: rs =>
    let (fid, s) := s.spawnFibre uid crew r
    let (fids, s) := s.spawnAll uid crew rs
    (fid :: fids, s)

/-- A bin releases: it has begun to, or its timer has reached 0. -/
def Bin.leaving (k : Bin) (now : Nat) : Bool := k.state == .releasing || k.expired now
/-- When a leaving bin began to release. -/
def Bin.since (k : Bin) : Nat := if k.state == .releasing then k.order else releaseOrder (k.expiry + 1) 0

/-- The releasing bins of a party, in the order they began releasing (12 R261). -/
def Party.releasing (p : Party) (now : Nat) : List Nat :=
  sortBy (fun b => (p.binAt b).since) ((List.range 8).filter fun b => (p.binAt b).leaving now)

/-- The crew a releasing bin's gang goes to: the lowest-numbered that fits (06 R133). -/
def State.crewFor (s : State) (p : Party) (bin : Nat) : Option Nat := (List.range 16).find? (s.crewFits p (p.binAt bin))

/-- The releasing bin that is served now: the first to begin releasing of those that find a crew (12 R261). -/
def State.binToServe (s : State) (p : Party) : Option Nat := (p.releasing s.clock.toNat).find? fun b => (s.crewFor p b).isSome

/-- A releasing bin's gang is created (06 R133). -/
def State.releaseBin (s : State) (uid bin : Nat) : State :=
  match s.party? uid with
  | none => s
  | some p =>
    let k := p.binAt bin
    if !k.leaving s.clock.toNat || p.halted || p.ended || p.suspended then s else
    match s.crewFor p bin with
    | none => s
    | some crew =>
      let (fids, s) := s.spawnAll uid crew k.recs
      let s := s.onParty uid fun p => { p with bins := sdel p.bins bin }
      match s.party? uid with
      | none => s
      | some p => s.formGangs uid [fun gid => s.newGang p gid crew (sortBy p.cfidOf fids) (List.replicate 64 0) {}]

/-- A gang waits in `spawn`. -/
def Gang.spawning (g : Gang) : Bool :=
  match g.wait with
  | some (.spawn _ _ _ _) => true
  | _ => false

/-- SPAWN_DEADLOCK (06 R133): every live fibre of the party waits in `spawn` or is parked, no bin fills, no releasing bin finds a crew. -/
def State.spawnDeadlock (s : State) (uid : Nat) : State :=
  match s.party? uid with
  | none => s
  | some p =>
    let stuck := p.fibres.all fun f => f.meet.isSome || (p.gangs.any fun g => g.spawning && g.fibres.contains f.fid)
    let bins := (List.range 8).map p.binAt
    if (p.gangs.any (·.spawning)) && stuck && !(bins.any fun k => k.state == .filling) &&
        !((bins.filter fun k => k.state == .releasing).any fun k => (List.range 16).any (s.crewFits p k))
    then s.partyFault uid 0x21 else s

/-- A gang waits at an engine issue for a future entry. -/
def Gang.wantsFuture (g : Gang) : Bool :=
  match g.wait with
  | some (.futureFull _) => true
  | _ => false

/-- FUTURE_EXHAUST (07 R166): every live fibre of the party is parked or waits for a free future entry, and every entry is resolved. -/
def State.futureExhaust (s : State) (uid : Nat) : State :=
  match s.party? uid with
  | none => s
  | some p =>
    let stuck := p.fibres.all fun f => f.meet.isSome || (p.gangs.any fun g => g.wantsFuture && g.fibres.contains f.fid)
    if (p.gangs.any (·.wantsFuture)) && stuck && (p.futures.all fun e => e.2.state == .done || e.2.state == .faulted) && decide (64 ≤ p.futures.length)
    then s.partyFault uid 0x22 else s

/-- The deadlocks a party may have run into (03 R61, 06 R131, R133, 07 R166). -/
def State.deadlocks (s : State) (uid crew : Nat) : State :=
  match s.party? uid with
  | none => s
  | some p => ((s.windowDeadlock (p.laneRef crew)).spawnDeadlock uid).futureExhaust uid

end Sys2Proof.Machine
end

