-- ==== Sys2Proof/Machine/Order.lean ====
section
/-!
DEFINITION. Memory consistency (09): which agents a scope reaches, what a read may return and what it makes known, releases and
acquires, fences. Happens-before is kept as views: the writes that happen before what an issuer does next (log 8).
-/

namespace Sys2Proof.Machine

/-! ### Scopes (09 R193, R198) -/

/-- The pod of a rank (01 R17). -/
def podOf (rank : Nat) : Nat := rank / 1024

/-- The host agents behind a bridge send packets under a name that is no rank (17 R381). -/
def hostInit : Nat := 2 ^ 17

/-- A host agent. -/
def Issuer.isHost (a : Issuer) : Bool := a.remote == some hostInit

/-- The path class of what an issuer does at this device: all of another device's is inbound fabric (09 R188). -/
def Issuer.path (a : Issuer) : PathClass := if a.remote.isSome then .fab else a.cls

/-- An engine or Outrider of a core. -/
def Issuer.isEngine (a : Issuer) : Bool := a.cls == .mill || a.cls == .port || a.cls == .ol

/-- Whether the agents a scope of issuer `a` reaches include issuer `b`; `own` is this device's rank in the job. A party keeps its name wherever it
runs, and its engines' earlier writes with it (09 R192). -/
def scopeReaches (own : Nat) (sc : Scope) (a b : Issuer) : Bool :=
  let here := a.remote == b.remote
  let fibre := b.cls == .core && a.uid == b.uid
  match sc with
  | .fib => here && fibre && a.cls == .core && a.fid == b.fid
  | .crew => here && fibre && a.cls == .core && a.crew == b.crew
  | .party => here && (fibre || (b.isEngine && (a.core == b.core || a.uid == b.uid)))
  | .comp => here && (b.cls == .core || b.isEngine) &&
      ((a.core.die == b.core.die && companyOf a.core.core == companyOf b.core.core) || a.uid == b.uid)
  | .dev => here
  | .pod => !b.isHost && podOf (a.remote.getD own) == podOf (b.remote.getD own)
  | .clu => !b.isHost
  | .sys => true

/-- Two scopes each of which includes the other's issuer. -/
def mutualScope (own : Nat) (sa : Scope) (a : Issuer) (sb : Scope) (b : Issuer) : Bool :=
  scopeReaches own sa a b && scopeReaches own sb b a

/-! ### Ordering classes (09 R194) -/

def ordAcquires : Ord → Bool
  | .acq | .ar | .sc => true
  | _ => false
def ordReleases : Ord → Bool
  | .rel | .ar | .sc => true
  | _ => false
def ordSequential : Ord → Bool
  | .sc => true
  | _ => false

/-! ### What a read takes and makes known (09 R191, R195, R196) -/

/-- The facts a write is known by. -/
def Past.fact (w : Past) : Fact := ⟨w.lo, w.old.length, w.stamp⟩

/-- Same core, core path, on this device (09 R191); a party restored on another core keeps its order (09 R192). -/
def sameCore (a b : Issuer) : Bool :=
  a.cls == .core && b.cls == .core && a.remote.isNone && b.remote.isNone && (a.core == b.core || a.uid == b.uid)

/-- What an acquire of an issuer at a scope takes in of some releases (09 R195, R198). -/
def View.acquire (v : View) (own : Nat) (src : Issuer) (sc : Scope) (rels : List Release) : View :=
  rels.foldl (fun v r => if mutualScope own r.scope r.src sc src then View.join v r.view else v) v

/-- What a reader knows after it has read `n` bytes at `loc` as they stood at stamp `t`, taking write `w`: condition 3 of R196; for a
write of its own core what that write happens after, and the core's earlier writes, which all its fibres see in one order; and by
an acquire the views of the releases it reads. -/
def State.learn (s : State) (own : Nat) (src : Issuer) (v : View) (loc n t : Nat) (w : Option Past) (acq : Option Scope) : View :=
  let v : View := v.join [⟨loc, n, t⟩]
  match w with
  | none => v
  | some w =>
    let v := if sameCore src w.src then
        View.join (View.join v w.view) ((s.past.filter fun p => decide (p.stamp ≤ w.stamp) && sameCore src p.src).map Past.fact)
      else v
    match acq with
    | none => v
    | some sc => v.acquire own src sc w.rels

/-- Atomic units of a core-path access (09 R189): the whole when aligned to its size, else its aligned words, else bytes. -/
def coreUnits (loc n : Nat) : List (Nat × Nat) :=
  if (n == 1 || n == 2 || n == 4 || n == 8) && loc % n == 0 then [(loc, n)] else go n loc n
where
  go : Nat → Nat → Nat → List (Nat × Nat)
  | 0, _, _ => []
  | fuel + 1, loc, n =>
    if n = 0 then [] else if loc % 4 = 0 ∧ 4 ≤ n then (loc, 4) :: go fuel (loc + 4) (n - 4) else (loc, 1) :: go fuel (loc + 1) (n - 1)

/-- Aligned words, else bytes: parameter blocks and engine pieces (09 R189). -/
def wordUnits (loc n : Nat) : List (Nat × Nat) := coreUnits.go n loc n

/-- Read units one after the other, each from the writes the reader's view allows. -/
def State.readUnits (s : State) (own : Nat) (src : Issuer) (acq : Option Scope) :
    List (Nat × Nat) → View → List Byte × View × List Release × State
  | [], v => ([], v, [], s)
  | (loc, n) :: us, v =>
    let (bs, t, w, s) := s.readUnit v loc n
    let (bs, s) := s.wildBytes loc bs
    let v := s.learn own src v loc n t w acq
    let (bs', v, rels, s) := s.readUnits own src acq us v
    (bs ++ bs', v, (w.map (·.rels)).getD [] ++ rels, s)

/-- A read by an engine, the command processor or the host, with what its own path knows. -/
def State.readRange (s : State) (v : View) (units : List (Nat × Nat)) : List Byte × State :=
  let (bs, _, _, s) := s.readUnits 0 deviceIssuer none units v
  (bs, s)

/-! ### Fences (09 R194, R197) -/

/-- A sequential fence: it synchronises with every earlier one of mutual scope, and takes its place in the order. -/
def State.scFence (s : State) (own : Nat) (src : Issuer) (sc : Scope) (v : View) : View × State :=
  let v := s.fences.foldl (fun v f => if mutualScope own f.scope f.src sc src then View.join v f.view else v) v
  (v, { s with fences := ⟨src, sc, v⟩ :: s.fences })

/-- A scope that reaches other devices. -/
def scopeWide : Scope → Bool
  | .pod | .clu | .sys => true
  | _ => false

/-- A scope of which a sequential fence orders a fibre's stores before its later loads (09 R191 item 3). -/
def scopeFences : Scope → Bool
  | .fib | .crew => false
  | _ => true

/-- What a fibre's later accesses follow once its earlier stores have taken effect in the one order of its core (09 R191): the core's writes up to
the fibre's own last. -/
def State.coreOrder (s : State) (src : Issuer) (fibs : List Nat) : View :=
  match s.past.find? fun w => sameCore src w.src && w.src.uid == src.uid && fibs.contains w.src.fid with
  | none => []
  | some w => (s.past.filter fun p => decide (p.stamp ≤ w.stamp) && sameCore src p.src).map Past.fact

/-- The issuer of a fibre's core-path accesses. -/
def fibreIssuer (p : Party) (f : Fibre) : Issuer := { cls := .core, uid := p.uid, crew := f.crew, fid := f.fid, core := p.core }

/-- The scope at which a store or atomic is a release: its own class, or that of a `fence.rel` before it, whose scope replaces its own; an atomic's
`.sc` acquires only (09 R194). -/
def releaseOf (f : Fibre) (ord : Ord) (sc : Scope) (atom : Bool) : Option Scope :=
  match f.relNext with
  | some fs => some fs
  | none => if ordReleases ord && !(atom && ordSequential ord) then some sc else none

end Sys2Proof.Machine
end

