-- ==== Sys2Proof/Machine/Walk.lean ====
section
/-!
DEFINITION. Translation where the page lives (14): range registers and windows, the page walk, permissions, peers, replicas and
sharers, the rank table, page access counters, and faults held for the supervisor.
-/

namespace Sys2Proof.Machine

/-- What an access does to a page (14 R311). -/
inductive AccKind | read | write | atom | fetch
  deriving DecidableEq, Repr

/-- ACC of a fault record, where no engine makes the access (14 R324). -/
def AccKind.accCode : AccKind → Nat
  | .read => 0 | .write => 1 | .atom => 2 | .fetch => 3

/-- Fault classes (14 R322). -/
inductive XFault | notMapped | perm | malformed | noRegion | ptPoison | noContext | loop | destBusy | holdExpired | migrateReq
  deriving DecidableEq, Repr

def XFault.code : XFault → Nat
  | .notMapped => 1 | .perm => 2 | .malformed => 3 | .noRegion => 4 | .ptPoison => 5 | .noContext => 6 | .loop => 7
  | .destBusy => 8 | .holdExpired => 9 | .migrateReq => 0x10

/-! ### Ranks (01 R17, 14 R326, R327) -/

/-- The rank that names the issuing device (01 R17). -/
def rankSelf : Nat := 0x1FFFF

/-- Whether the decisive entry of the rank table resolves a rank of another device. -/
def rankEntryOk (own r : Nat) (bs : List Byte) : Bool :=
  let e := leAt bs 0 8
  let paths := (List.range 16).any fun k => bit (leAt bs (32 + 2 * k) 2) 15
  let spare := decide (leAt bs 8 8 = 0 ∧ leAt bs 16 8 = 0 ∧ leAt bs 24 8 = 0)
  bit e 63 && paths && spare &&
  (if podOf r == podOf own then decide (bits e 61 50 = 0 ∧ bits e 39 0 = 0)
   else decide (bits e 51 32 = 0 ∧ r % 1024 < bits e 62 52))

/-- Look a rank up (14 R327): each lookup sees the entry as it stood at or after the last `tcinv.rank`. -/
def State.rankOk (s : State) (c : Context) (own r : Nat) : Bool × State :=
  if r = rankSelf ∨ r = own then (false, s) else
  let loc := if podOf r == podOf own then c.rtbase + 8192 + 64 * (r % 1024) else c.rtbase + 64 * podOf r
  if s.poisonIn loc 64 then (false, s) else
  let (bs, _, _, s) := s.readUnit [⟨loc, 64, sget 0 s.tables.rankCut c.num⟩] loc 64
  (rankEntryOk own r bs, s)

/-! ### Range registers (14 R307) -/

/-- The range register of a context that an offset of a region matches. -/
def Context.rangeOf (c : Context) (region off : Nat) : Option RangeReg :=
  (c.ranges.find? fun e => e.2.copy.region == region && decide (e.2.copy.va ≤ off ∧ off < e.2.copy.va + e.2.copy.size)).map (·.2)

/-- Whether a virtual address of 46 bits passes the range check. -/
def Context.inRange (c : Context) (va : Nat) : Bool := (c.rangeOf (va / 2 ^ 40) (va % 2 ^ 40)).isSome

/-- A window of a context and region that holds an offset (14 R316 step 4). -/
def State.windowOf (s : State) (ctx region off : Nat) : Bool :=
  s.tables.windows.any fun e => e.2.ctx == ctx && e.2.region == region && decide (e.2.va ≤ off ∧ off < e.2.va + e.2.size)

/-! ### The walk (14 R309 to R312) -/

/-- Page offset bits of a region. -/
def Region.pageBits (r : Region) : Nat := match r.psize with | 0 => 16 | 1 => 21 | _ => 30
/-- Index bits of the top node. -/
def Region.topBits (r : Region) : Nat := 40 - r.pageBits - 9 * (r.levels - 1)

/-- A physical range touches the reuse arena of a die (08 R181). -/
def State.inArena (s : State) (p len : Nat) : Bool :=
  s.dies.any fun d => decide (d.arenaBase * 2 ^ 21 < p + len ∧ p < (d.arenaBase + d.arenaSize) * 2 ^ 21 ∧ 0 < d.arenaSize)

def ptPointerBad (s : State) (e : DWord) : Bool :=
  decide (fld e 62 39 ≠ 0 ∨ fld e 11 0 ≠ 0) || s.inArena (fld e 38 12 * 4096) 4096

def localLeafBad (s : State) (c : Context) (pb : Nat) (e : DWord) : Bool :=
  let frame := fld e 38 16 * 65536
  decide (fld e 44 39 ≠ 0 ∨ fld e 3 0 ≠ 0 ∨ frame % 2 ^ pb ≠ 0) || s.inArena frame (2 ^ pb) ||
  (!e.getLsbD 58 && decide (fld e 56 45 ≠ 0)) ||
  (e.getLsbD 57 && match sfind s.tables.replicas (fld e 15 4) with
    | some r => r.ctx != c.num
    | none => true)

/-- A remote leaf whose PEER the job holds is well formed if its fields are. -/
def remoteLeafBad (pb : Nat) (e : DWord) : Bool :=
  decide (fld e 10 0 ≠ 0 ∨ fld e 59 58 = 3 ∨ fld e 34 11 * 65536 % 2 ^ pb ≠ 0)

inductive WalkEnd
  | leaf (e : DWord)
  | fault (f : XFault)
  deriving DecidableEq, Repr

/-- Walk the levels from a node: `left` levels follow this one. Each entry is read as it stood at or after the last invalidation. -/
def walkLevels (c : Context) (v : View) (cut pb va : Nat) : Nat → Nat → Nat → State → WalkEnd × State
  | 0, _, _, s => (.fault .noRegion, s)
  | left + 1, node, width, s =>
    let loc := node + 8 * (va / 2 ^ (pb + 9 * left) % 2 ^ width)
    if s.poisonAt loc then (.fault .ptPoison, s.memRecord 1 (loc / 64 * 64) { ctx := c.num })
    else
      let (bs, _, _, s) := s.readUnit (⟨loc, 8, cut⟩ :: v) loc 8
      let e := w64 (leNat bs)
      if !e.getLsbD 63 then (.fault .notMapped, s)
      else if left ≠ 0 then
        if ptPointerBad s e then (.fault .malformed, s) else walkLevels c v cut pb va left (fld e 38 12 * 4096) 9 s
      else if !e.getLsbD 62 then (if localLeafBad s c pb e then (.fault .malformed, s) else (.leaf e, s))
      else
        let (held, s) := s.rankOk c c.rank (fld e 57 41)
        if remoteLeafBad pb e || !held then (.fault .malformed, s) else (.leaf e, s)

/-- The stamp from which walks of an offset must see page-table writes (14 R312, R313). -/
def State.walkBound (s : State) (ctx region va : Nat) : Nat :=
  s.tables.walkCut.foldl (fun b w => if w.1 == ctx && w.2.1 == region && decide (w.2.2.1 ≤ va ∧ va < w.2.2.2.1) then max b w.2.2.2.2 else b) 0

/-- `walk` (14 R311). -/
def State.walk (s : State) (c : Context) (region va : Nat) (v : View) : WalkEnd × State :=
  match sfind c.regions region with
  | none => (.fault .noRegion, s)
  | some r =>
    if r.limit ≤ va then (.fault .noRegion, s)
    else walkLevels c v (s.walkBound c.num region va) r.pageBits va r.levels r.root r.topBits s

/-- The permission check after the walk (14 R311): the region's bits, then the leaf's. -/
def permitted (r : Region) (e : DWord) (k : AccKind) : Bool :=
  let lr := e.getLsbD 61
  let lw := e.getLsbD 60
  match k with
  | .read => r.r && lr
  | .write => r.w && lw
  | .atom => r.r && r.w && lr && lw
  | .fetch => r.x && !e.getLsbD 62 && e.getLsbD 59

/-- The page of an offset, by its first 64 KiB unit. -/
def Context.pageOf (c : Context) (region va : Nat) : Nat :=
  let pb := ((sfind c.regions region).map Region.pageBits).getD 16
  va / 2 ^ pb * 2 ^ (pb - 16)

/-! ### Sharers, migration, replicas (09 R207, 14 R319 to R321, 15 R345) -/

/-- The JOB tag of a context, which its messages to other devices carry (14 R315). -/
def State.jobOf (s : State) (ctx : Nat) : Nat := ((s.ctx? ctx).bind (·.job)).getD 0

/-- Recall a page that other devices hold, before an access of its home performs: true when nothing stands in the way. -/
def State.recall (s : State) (ctx region page : Nat) (wr : Bool) (by_ : Option Nat) : Bool × State :=
  match s.tables.sharers.find? fun h => h.ctx == ctx && h.region == region && h.page == page with
  | none => (true, s)
  | some h =>
    let others := h.holders.filter fun r => by_ != some r
    if others.isEmpty || !(wr || h.write) then (true, s)
    else
      let ask := others.filter fun r => !h.pending.contains r
      let s := ask.foldl (fun s r => s.emit (.revoke r (s.jobOf ctx) region page)) s
      (false, s.onTables fun t => { t with sharers := t.sharers.map fun g => if g == h then { h with pending := h.pending ++ ask } else g })

/-- The 32 bytes of a fault record (14 R324). -/
def faultBytes (addr cls acc : Nat) (inb : Bool) (ctx init token : Nat) : List Byte :=
  bytesOf 8 addr ++ bytesOf 4 (cls * 2 ^ 24 + acc * 2 ^ 21 + b2n inb * 2 ^ 20 + ctx * 2 ^ 14) ++ bytesOf 4 (init * 2 ^ 15) ++
  bytesOf 4 token ++ bytesOf 12 0

def SysRegs.fqRoom (r : SysRegs) : Bool :=
  r.fqbase.getLsbD 63 && decide ((r.fqtail - r.fqhead).toNat ≠ 2 ^ fld r.fqbase 62 58)

def State.faultWrite (s : State) (rec32 : List Byte) : State :=
  let base := fld s.sys.fqbase 38 0
  let slot := s.sys.fqtail.toNat % 2 ^ fld s.sys.fqbase 62 58
  let s := s.write deviceIssuer [] [] none (base + 32 * slot) rec32
  { s with sys := { s.sys with fqtail := s.sys.fqtail + 1 } }

/-- Post a fault record; without room it waits (14 R323). -/
def State.faultPost (s : State) (rec32 : List Byte) : State :=
  if s.tables.fqWait.isEmpty && s.sys.fqRoom then s.faultWrite rec32
  else s.onTables fun t => { t with fqWait := t.fqWait ++ [rec32] }

/-- Write waiting fault records while there is room. -/
def State.drainFaults (s : State) : State :=
  s.tables.fqWait.foldl (fun s r =>
    if s.sys.fqRoom then (s.onTables fun t => { t with fqWait := t.fqWait.drop 1 }).faultWrite r else s) s

/-- Count an access to a MIGRATE page; the threshold writes one record, with the ACC of the access that reached it (14 R320, R324, 15 R345). -/
def State.pageTouch (s : State) (c : Context) (region va mthr acc : Nat) : State :=
  let t := s.tables.pages
  let page := c.pageOf region va
  let (i, e) : Nat × PageCount := match t.find? fun e => e.2.ctx == c.num && e.2.region == region && e.2.page == page with
    | some e => e
    | none =>
      let fresh : PageCount := ⟨c.num, region, page, 0, false⟩
      match (List.range 1024).find? fun i => (sfind t i).isNone with
      | some i => (i, fresh)
      | none => ((t.foldl (fun (b : Option (Nat × PageCount)) e => match b with
          | none => some e
          | some f => if e.2.count < f.2.count then some e else some f) none).elim 0 (·.1), fresh)
  let n := min (e.count + 1) (2 ^ 32 - 1)
  let fire := !e.sent && decide (2 ^ (mthr + 4) ≤ n)
  let s := s.onTables fun t => { t with pages := sput t.pages i { e with count := n, sent := e.sent || fire } }
  if fire then s.faultPost (faultBytes (region * 2 ^ 40 + va) XFault.migrateReq.code acc false c.num c.rank 0) else s

/-- The tag under which a home answers a request for a page (14 R319): the answer of a grant or of none. -/
def grantTag (job region page : Nat) (wr : Bool) : Nat := 2 ^ 66 + ((job * 64 + region) * 2 ^ 24 + page) * 2 + b2n wr

/-- An access to a peer's CACHED page (14 R319): what is not held, or not with the right to write, is asked for, and held once the home has granted it;
under revocation the access stalls (09 R207), which is answered with false. Lines are kept clean: each access goes to the home, with the same outcomes
(09 R208, log 80). -/
def State.cachedMiss (s : State) (ctx : Nat) (own : Nat × Nat) (peer region page : Nat) (wr : Bool) : Bool × State :=
  let here := fun (k : Held) => k.ctx == ctx && (k.ownReg, k.ownPage) == own && k.region == region && k.page == page && k.home == peer
  match s.tables.lines.find? here with
  | none =>
    let asked : Held := { ctx := ctx, ownReg := own.1, ownPage := own.2, region := region, page := page, home := peer, write := wr }
    (true, (s.emit (.cached peer (s.jobOf ctx) region page wr)).onTables fun t => { t with lines := t.lines ++ [asked] })
  | some k =>
    if k.revoked then (false, s)
    else if k.write || !wr then (true, s)
    else (true, (s.emit (.cached peer (s.jobOf ctx) region page true)).onTables fun t =>
      { t with lines := t.lines.map fun h => if here h then { h with write := true } else h })

/-- The home has answered a request for a page: it is held now; or no grant could be recorded, and the next miss asks again (14 R319). -/
def State.grantHeard (s : State) (tag : Nat) (r : Reply) : State :=
  let mine := fun (k : Held) => [true, false].any fun wr => grantTag (s.jobOf k.ctx) k.region k.page wr == tag
  s.onTables fun t => { t with lines := match r with
    | .data _ _ _ => t.lines.map fun k => if mine k then { k with granted := true } else k
    | .nack _ => t.lines.filter fun k => !mine k || k.granted || k.revoked }

/-- A page is locked: at a replica, or at its home while a replicated write goes on (09 R206). -/
def State.pageLocked (s : State) (c : Context) (region va : Nat) : Bool :=
  (s.tables.locked.any fun x => x.ctx == c.num && x.region == region && x.page == c.pageOf region va) ||
  (s.tables.updates.any fun x => x.ctx == c.num && x.region == region && x.page == c.pageOf region va)

/-- What translation gives. -/
inductive Where
  | loc (l : Nat) (weight repl : Option Nat)
  | peer (rank region off : Nat)
  | fault (f : XFault)
  | stall
  deriving DecidableEq, Repr

/-- The version-store entry of a weight page (15 R344). -/
def Context.weightOf (c : Context) (e : DWord) : Option Nat :=
  if e.getLsbD 58 && decide (fld e 56 45 < c.vsize) then some (c.vbase + fld e 56 45) else none

/-- The offset in the host aperture that a window of the context maps an offset to: IA[47:45] = 0 and IA[44:40] = 0x1F (17 R381). -/
def State.apertureAt (s : State) (ctx region off : Nat) : Option Nat :=
  (s.tables.windows.find? fun e => e.2.ctx == ctx && e.2.region == region && decide (e.2.va ≤ off ∧ off < e.2.va + e.2.size)).bind fun e =>
    let ia := e.2.ia + (off - e.2.va)
    if 0x1F * 2 ^ 40 ≤ ia ∧ ia < 0x20 * 2 ^ 40 then some (ia % 2 ^ 40) else none

/-- A region's own rights, for host memory, which has no leaf (log 34). -/
def Region.permits (r : Region) (k : AccKind) : Bool :=
  match k with
  | .read => r.r
  | .write => r.w
  | .atom => r.r && r.w
  | .fetch => false

/-- A frame is reached through a page (14 R306). -/
def State.mapFrame (s : State) (c : Context) (region va l : Nat) : State :=
  let m : Mapping := ⟨l / 65536, c.num, region, va / 65536⟩
  if s.tables.mapped.contains m then s else s.onTables fun t => { t with mapped := m :: t.mapped }

/-- Steps 3 to 8 of 14 R316: `by_` is the initiator of an inbound packet; the walk sees at least what `v` knows; `acc` is the ACC of an engine's access,
`counted` that it has been counted on its page before. -/
def State.translate (s : State) (c : Context) (region va : Nat) (k : AccKind) (by_ : Option Nat) (v : View) (acc : Option Nat := none)
    (counted : Bool := false) : Where × State :=
  match sfind c.regions region with
  | none => (.fault .noRegion, s)
  | some r =>
    if r.limit ≤ va then (.fault .noRegion, s)
    else if !s.windowOf c.num region va then (.fault .notMapped, s)
    else match s.apertureAt c.num region va with
    | some o => (if r.permits k then .peer hostInit 0 o else .fault .perm, s)
    | none => match s.walk c region va v with
      | (.fault f, s) => (.fault f, s)
      | (.leaf e, s) =>
        if !permitted r e k then (.fault .perm, s)
        else
          let wr := k == .write || k == .atom
          let o := va % 2 ^ r.pageBits
          if e.getLsbD 62 then
            let peer := fld e 57 41
            let preg := fld e 40 35
            let poff := fld e 34 11 * 65536 + o
            let (ok, s) := match fld e 59 58 with
              | 1 => if by_.isNone then s.cachedMiss c.num (region, c.pageOf region va) peer preg (fld e 34 11) wr else (true, s)
              | 2 => (true, if by_.isNone && !counted then s.pageTouch c region va r.mthr (acc.getD k.accCode) else s)
              | _ => (true, s)
            (if ok then .peer peer preg poff else .stall, s)
          else
            let l := fld e 38 16 * 65536 + o
            let repl := if e.getLsbD 57 then some (fld e 15 4) else none
            match repl.bind (sfind s.tables.replicas) with
            | some d =>
              if d.role then
                if wr then (.peer d.home region va, s)
                else if s.pageLocked c region va then (.stall, s)
                else (.loc l (c.weightOf e) repl, s)
              else if s.pageLocked c region va then (.stall, s)
              else
                let (ok, s) := s.recall c.num region (c.pageOf region va) wr by_
                (if ok then .loc l (c.weightOf e) repl else .stall, s)
            | none =>
              let (ok, s) := s.recall c.num region (c.pageOf region va) wr by_
              if ok then (.loc l (c.weightOf e) none, s.mapFrame c region va l) else (.stall, s)

/-! ### Faults held for the supervisor (14 R323 to R325) -/

/-- The TOKEN after the last one. -/
def nextToken (n : Nat) : Nat := if (n + 1) % 2 ^ 32 = 0 then 1 else (n + 1) % 2 ^ 32

/-- Hold a fault: it joins its page's entry, or takes a new one and posts a record; a full table refuses it (none). -/
def State.holdFault (s : State) (c : Context) (region va : Nat) (f : XFault) (acc : Nat) (inb : Bool) (init : Nat)
    (join : Pending → Pending) : Option Nat × State :=
  let page := c.pageOf region va
  match s.tables.pending.find? fun e => e.ctx == c.num && e.region == region && e.page == page with
  | some e => (some e.token, s.onTables fun t => { t with pending := t.pending.map fun g => if g.token == e.token then join g else g })
  | none =>
    if 256 ≤ s.tables.pending.length then (none, s)
    else
      let tok := nextToken s.tables.lastTok
      let now := s.clock.toNat
      let e := join { token := tok, ctx := c.num, region := region, page := page, since := now, lastHold := now }
      let s := s.onTables fun t => { t with pending := t.pending ++ [e], lastTok := tok }
      (some tok, s.faultPost (faultBytes (region * 2 ^ 40 + va) f.code acc inb c.num init tok))

def State.setPending (s : State) (tok : Nat) (f : Pending → Pending) : State :=
  s.onTables fun t => { t with pending := t.pending.map fun g => if g.token == tok then f g else g }

/-! ### Who owns a frame (08 R186) -/

/-- Whether a page-table word lies in a tree: `left` levels stand below this node. -/
def State.inTree (s : State) (target : Nat) : Nat → Nat → Nat → Bool
  | 0, _, _ => false
  | left + 1, node, width =>
    if left = 0 then decide (node ≤ target ∧ target < node + 8 * 2 ^ width)
    else s.mem.any fun c =>
      decide (c.1 % 8 = 7 ∧ node ≤ c.1 ∧ c.1 < node + 8 * 2 ^ width) &&
      (let e := w64 (leNat (s.bytesAt (c.1 - 7) 8))
       e.getLsbD 63 && s.inTree target left (fld e 38 12 * 4096) 9)

/-- A context whose page tables map a physical address. -/
def State.frameOwner (s : State) (p : Nat) : Nat :=
  let maps := fun (c : Context) (r : Region) => s.mem.any fun b =>
    decide (b.1 % 8 = 7) &&
    (let e := w64 (leNat (s.bytesAt (b.1 - 7) 8))
     let frame := fld e 38 16 * 65536
     e.getLsbD 63 && !e.getLsbD 62 && decide (frame ≤ p ∧ p < frame + 2 ^ r.pageBits) && s.inTree (b.1 - 7) r.levels r.root r.topBits &&
     decide (c.num < 64))
  ((s.tables.contexts.find? fun c => c.2.regions.any fun r => maps c.2 r.2).map (·.1)).getD 0

end Sys2Proof.Machine
end

