-- ==== Sys2Proof/Machine/Memory.lean ====
section
/-!
DEFINITION. Memory accesses of fibres: addresses and the checks at issue (10 R212, 08 R173), what an access waits for, its way
through the store queue (12 R267, R268) and to other devices (10 R214, R220, R223), and its performance (10 R215 to R221).
-/

namespace Sys2Proof.Machine

/-! ### Where an access goes (08 R171 to R177, 10 R212) -/

/-- An address before translation: a virtual address of 46 bits, a location, or another device's region and offset. -/
def vaOfLoc (l : Nat) : Nat := 2 ^ 46 + l
/-- A counter of another device stands at a region no address names. -/
def vaOfCounter (rank num : Nat) : Nat := 2 ^ 80 + rank * 4096 + num
def vaOfRemote (rank va : Nat) : Nat := 2 ^ 48 + rank * 2 ^ 46 + va
/-- A sum that passes the 46 bits of a local address: no range register matches it (08 R173). -/
def vaBeyond (va : Nat) : Nat := 2 ^ 100 + va
def placeOfVa (va : Nat) : Place :=
  if va < 2 ^ 46 ∨ 2 ^ 100 ≤ va then .todo
  else if va < 2 ^ 48 then .loc (va - 2 ^ 46) none none
  else if 2 ^ 80 ≤ va then .remote ((va - 2 ^ 80) / 4096) 64 (va % 4096) 0
  else .remote ((va - 2 ^ 48) / 2 ^ 46) (va / 2 ^ 40 % 64) (va % 2 ^ 40) 0
def partAt (va len : Nat) : Part := ⟨va, len, placeOfVa va⟩
def Part.again (p : Part) : Part := partAt p.va p.len
def Part.isLocal (p : Part) : Bool := decide (p.va < 2 ^ 46 ∨ 2 ^ 100 ≤ p.va)
/-- A part at an exact sum of a base and an offset. -/
def Part.exact (p : Part) : Part := if p.va < 2 ^ 46 then p else partAt (vaBeyond p.va) p.len

/-- Cut a virtual range at aligned 64 KiB boundaries. -/
def cutPages : Nat → Nat → Nat → List Part
  | 0, _, _ => []
  | fuel + 1, va, len =>
    if len = 0 then [] else
    let n := min len (65536 - va % 65536)
    partAt va n :: cutPages fuel (va + n) (len - n)

/-- The words of a private access (08 R177); a word that lies across two pages is cut there. -/
def privateParts (base nfib fid a size : Nat) : List Part :=
  (List.range ((a + size - 1) / 4 - a / 4 + 1)).flatMap fun j =>
    let w := a / 4 + j
    let lo := max a (4 * w)
    let hi := min (a + size) (4 * w + 4)
    (cutPages 2 (base + w * 4 * nfib + 4 * fid + lo % 4) (hi - lo)).map Part.exact

/-- Whether an offset range passes the limit of a space. -/
def segOk (lim : DWord) (a : Int) (size : Nat) : Bool := decide (0 ≤ a ∧ a < 2 ^ 32 ∧ a + size ≤ lim.toNat)

/-- The context an access translates in (16 R350). -/
def State.accessCtx (s : State) (p : Party) (lvl : Bool) (sp : Space) : Nat := if lvl && sp == .g then s.sys.sctx else p.ctx

/-- The checks of 10 R212: the number of the first that fails, or 0 with the parts of the access. -/
def State.checkMem (s : State) (p : Party) (f : Fibre) (lvl : Bool) (sp : Space) (a : Int) (size : Nat) (wr strict : Bool) :
    Nat × List Part × State :=
  let lim := fun k => p.segLim.getD k 0
  let base := fun k => (p.segBase.getD k 0).toNat
  let n := a.toNat
  let misaligned := (strict && a % size != 0) || n / 65536 != (n + size - 1) / 65536
  let ctx := s.ctx? (s.accessCtx p lvl sp)
  let close := fun (parts : List Part) (s : State) =>
    if misaligned then (5, [], s)
    else if parts.all fun q => !q.isLocal || (ctx.any fun c => c.inRange q.va) then (0, parts, s)
    else (6, parts, s)
  match sp with
  | .g =>
    let x := BitVec.ofInt 64 a
    let va := fld x 45 0
    let rank := fld x 62 46
    let seg := lvl || decide (fld (p.segBase.getD 3 0) 45 0 ≤ va ∧ va + size ≤ fld (p.segBase.getD 3 0) 45 0 + (lim 3).toNat)
    let misaligned := (strict && va % size != 0) || va / 65536 != (va + size - 1) / 65536
    if !x.getLsbD 63 && rank != 0 then (1, [], s)
    else if !x.getLsbD 63 || rank == rankSelf || rank == p.rank then
      if !seg then (3, [], s) else if misaligned then (5, [], s)
      else if ctx.any fun c => c.inRange va then (0, [partAt va size], s) else (6, [partAt va size], s)
    else
      let (held, s) := match ctx with
        | some c => s.rankOk c p.rank rank
        | none => (false, s)
      if !held then (2, [], s) else if !seg then (3, [], s) else if misaligned then (5, [], s)
      else (0, [partAt (vaOfRemote rank va) size], s)
  | .s =>
    if segOk (lim 0) a size then close [partAt (vaOfLoc (locScratch p.core (base 0 + n))) size] s else (3, [], s)
  | .c =>
    let off : Nat := n % 2 ^ 20
    let core : CoreRef := ⟨p.core.die, companyOf p.core.core * 16 + n / 2 ^ 20⟩
    if decide (0 ≤ a ∧ a < 2 ^ 24) && segOk (lim 1) (off : Int) size then close [partAt (vaOfLoc (locScratch core (base 1 + off))) size] s
    else (3, [], s)
  | .n =>
    if segOk (lim 2) a size then close [partAt (vaOfLoc (locNear p.core.die (base 2 + n))) size] s else (3, [], s)
  | .k =>
    if !segOk (lim 4) a size then (3, [], s) else if wr then (4, [], s)
    else close ((cutPages 3 (base 4 + n) size).map Part.exact) s
  | .f =>
    if !segOk (lim 5) a size || decide (p.nfib ≤ f.fid) then (3, [], s)
    else close (privateParts (base 5) p.nfib f.fid n size) s
  | .rsv _ => (3, [], s)

/-- The fault class of a check of 10 R212. -/
def checkClass : Nat → Nat
  | 1 => 0x08 | 2 => 0x09 | 3 => 0x05 | 4 => 0x06 | 5 => 0x07 | _ => 0x0A

/-! ### Accesses in flight -/

/-- A part of another device's, unanswered. -/
def Part.isRemote (p : Part) : Bool :=
  match p.place with
  | .remote _ _ _ _ => true
  | _ => false

def rangesMeet (a n b m : Nat) : Bool := decide (a < b + m ∧ b < a + n ∧ n ≠ 0 ∧ m ≠ 0)

/-- Two parts may touch a common byte: they do if their addresses in one context, their locations or their places at another device meet; of a part
that is not yet translated any device memory may be the frame (09 R188). -/
def Part.meets (ctx : Bool) (p q : Part) : Bool :=
  (ctx && rangesMeet p.va p.len q.va q.len) ||
  (match p.place, q.place with
   | .loc l _ _, .loc m _ _ => rangesMeet l p.len m q.len
   | .remote r g o _, .remote r' g' o' _ => r == r' && g == g' && rangesMeet o p.len o' q.len
   | .todo, .loc l _ _ | .loc l _ _, .todo => isDevice l
   | .todo, .todo | .todo, .remote _ _ _ _ | .remote _ _ _ _, .todo => true
   | _, _ => false)
def Access.meets (a b : Access) : Bool := a.parts.any fun p => b.parts.any (p.meets (a.ctx == b.ctx))

def Part.meetsRemote (p q : Part) : Bool :=
  match p.place, q.place with
  | .remote r g o _, .remote r' g' o' _ =>
    r == r' && g == g' && decide (o / 64 ≤ (o' + q.len - 1) / 64 ∧ o' / 64 ≤ (o + p.len - 1) / 64)
  | _, _ => false

def Stage.isSent : Stage → Bool
  | .sent _ => true
  | _ => false

/-- An earlier access of the same fibre to an overlapping unit of the same device awaits its response (10 R214), or that of an earlier slot of the same
instruction to the same bytes (10 R213). -/
def State.awaits (s : State) (a : Access) : Bool :=
  s.flight.any fun b => b.stage.isSent &&
    ((decide (b.insn < a.insn) && a.sameFibre b && a.parts.any fun p => b.parts.any p.meetsRemote) ||
     (b.insn == a.insn && b.uid == a.uid && decide (b.id < a.id) && (a.stores || b.stores) && a.meets b))

/-- A store waits at its instruction while an earlier store of the same fibre to an overlapping unit of the same device has still to be answered, sent
or not (10 R214). -/
def State.awaitsStore (s : State) (a : Access) : Bool :=
  a.stores && s.flight.any fun b => b.stores && b.open_ && decide (b.insn < a.insn) && a.sameFibre b && a.parts.any fun p => b.parts.any p.meetsRemote

/-- An access waits behind an earlier one of its fibre that has been refused. -/
def State.behind (s : State) (a : Access) : Bool := s.flight.any fun b => a.shadows b

/-- A page that one of an access's parts lies in is locked by a replicated write (09 R206). -/
def State.lockedParts (s : State) (a : Access) : Bool :=
  a.parts.any fun q => match q.place with
    | .loc _ _ (some _) => (s.ctx? a.ctx).any fun c => s.pageLocked c (q.va / 2 ^ 40) (q.va % 2 ^ 40)
    | _ => false

/-- The issuer recorded with an access. -/
def Access.issuer (a : Access) (p : Party) : Issuer := { cls := .core, uid := a.uid, crew := a.crew, fid := a.fid.getD (a.fibs.headD 0), core := p.core }

/-- The releases an access carries, once all it covers has been performed. -/
def Access.releases (a : Access) (p : Party) : List Release := a.rels.map fun sc => ⟨sc, a.issuer p, a.view⟩

/-- The range of a party's own scratch or near window that a part lies in (08 R184): near flag and offset. -/
def Party.ownOffset (p : Party) (q : Part) : Option (Bool × Nat) :=
  match q.place with
  | .loc l _ _ =>
    let bs := locScratch p.core (p.segBase.getD 0 0).toNat
    let bn := locNear p.core.die (p.segBase.getD 2 0).toNat
    if bs ≤ l ∧ l < bs + (p.segLim.getD 0 0).toNat then some (false, l - bs)
    else if bn ≤ l ∧ l < bn + (p.segLim.getD 2 0).toNat then some (true, l - bn)
    else none
  | _ => none

/-- A part overlaps a valid range-scoreboard entry of its party. -/
def Party.scoreHit (p : Party) (q : Part) : Bool :=
  match p.ownOffset q with
  | none => false
  | some (near, o) => p.score.any fun e => e.near == near && rangesMeet o q.len e.start (e.stop - e.start)

/-! ### Sending to other devices (10 R214, R220, R223) -/

/-- The packet operation of a part of an access; `off` is where the part's bytes begin among the access's. -/
def AccOp.packet (op : AccOp) (off len : Nat) : PktOp :=
  match op with
  | .store d => .write ((d.drop off).take len) false
  | .atom aop t b => .atom aop t b
  | .cas t b c => .cas t b c
  | .cnt k n v => .cnt k n v
  | _ => .read len

/-- The deadline of what is sent now (16 R360). -/
def State.deadline (s : State) : Nat := s.clock.toNat + max s.sys.rdeadline 1250

/-- Emit the packets of the parts that lie at other devices. -/
def State.emitParts (s : State) (a : Access) (job init : Nat) (src : Issuer) : List Part → Nat → Nat → State
  | [], _, _ => s
  | q :: qs, k, off =>
    let s := match q.place with
      | .remote r g o hops => s.emit (.packet r { job := job, init := init, hops := hops, region := g, offset := o
                                                  op := a.op.packet off q.len, tag := a.id * 16 + k, scope := a.scope
                                                  ord := a.ord, src := src, rels := a.rels })
      | _ => s
    s.emitParts a job init src qs (k + 1) (off + q.len)

def State.setAccess (s : State) (a : Access) : State := { s with flight := s.flight.map fun b => if b.id == a.id then a else b }
def State.access? (s : State) (id : Nat) : Option Access := s.flight.find? (·.id == id)
/-- In a list of open reads, one that is settled gives way to what it follows itself. -/
def settleIn (id : Nat) (more l : List Nat) : List Nat := (l.filter (· != id) ++ more).eraseDups

/-- An open read has taken its value, or will take none: whatever follows it knows `v`, and follows `more` in its place (09 R191, R195). -/
def State.settleRead (s : State) (id : Nat) (v : View) (more : List Nat) : State :=
  let write := fun (w : Past) => if w.preds.contains id then { w with preds := settleIn id more w.preds, view := View.join w.view v } else w
  let acc := fun (b : Access) => if b.after.contains id then { b with after := settleIn id more b.after, view := View.join b.view v } else b
  let fibre := fun (f : Fibre) =>
    if f.after.contains id then { f.know v with after := settleIn id more f.after } else f
  { s with past := s.past.map write, flight := s.flight.map acc, parties := s.parties.map fun p => { p with fibres := p.fibres.map fibre } }

def State.dropAccess (s : State) (id : Nat) : State := ({ s with flight := s.flight.filter fun b => b.id != id } : State).settleRead id [] []

def State.sendAccess (s : State) (a : Access) : State :=
  if !(a.parts.any Part.isRemote) then s else
  let job := ((s.ctx? a.ctx).bind (·.job)).getD 0
  let p := s.party? a.uid
  let s := s.emitParts a job ((p.map (·.rank)).getD 0) ((p.map a.issuer).getD {}) a.parts 0 0
  let s := match p with
    | some p => s.count p.core 0x0E 1 p.ctx
    | none => s
  s.setAccess { a with stage := .sent s.deadline, limit := max s.sys.rdeadline 1250 }

/-! ### Results (03 R58, 10 R221) -/

/-- Write one returned word, unless its block's generation has advanced or the block lies free: then STALEDROP. -/
def State.putWord (s : State) (a : Access) (d : DestReg) (w : Word) : State :=
  match d with
  | .v b r crew =>
    if s.genAt b.lane b.blk == b.gen && (s.heldBlocks b.lane).contains b.blk then s.setReg b.lane b.blk r w
    else (s.onParty a.uid fun p => p.orGstat s.clock crew staleDrop).countParty a.uid 0x0F 1
  | .s n => s.onGang a.uid a.gid fun g => { g with sregs := g.sregs.set n w }
  | .special r k => match a.fid with
    | some f => if k = 0 ∧ a.fibs.contains f then s.onFibre a.uid f fun f => f.writeSpecial r w else s
    | none => s.writeShared a.uid a.crew r k w

def State.putWords (s : State) (a : Access) : List (DestReg × Word) → State
  | [] => s
  | (d, w) :: ds => (s.putWord a d w).putWords a ds

/-- An outstanding item ends: its words and its status go to their registers. -/
def State.finish (s : State) (a : Access) (ws : List Word) (status : Nat) : State :=
  let s := s.putWords a (a.dest.zip ws)
  let s := match a.sd with
    | some d => s.putWord a d (w32 status)
    | none => s
  s.dropAccess a.id

/-- The SUB of an ORPHAN record (16 R352): the class that refused the access, or 0x11 for lost or poisoned data. -/
def orphanSub (cls sub : Nat) : Nat := if cls == 0x0E || cls == 0x0F then sub else cls

/-- The fibres of an access have all ended (03 R62). -/
def Access.orphan (a : Access) : Bool := a.fibs.isEmpty

/-- Refuse an access (10 R222): its gang will take the fault; that of ended fibres is an orphan (03 R62). -/
def State.refuse (s : State) (a : Access) (cls sub : Nat) : State :=
  if a.orphan then
    let s := s.dropAccess a.id
    match s.party? a.uid with
    | some p => s.event 0 a.addr 0x33 (orphanSub cls sub) p.source
    | none => s
  else (s.setAccess { a with stage := .refused cls sub }).settleRead a.id [] []

/-- Report a status: to SD, or as DATA_POISON (10 R221). Words are still written after WRITE_LOST. -/
def State.report (s : State) (a : Access) (ws : List Word) (status : Nat) : State :=
  if status = 0 ∨ a.se = true then s.finish a (if status = 1 then [] else ws) status
  else
    let s := if status = 1 then s else s.putWords a (a.dest.zip ws)
    s.refuse a 0x11 status

/-! ### Performing -/

/-- Consecutive elements of a type in bytes. -/
def elemWords (t : Ty) (bs : List Byte) : Nat → List Word
  | 0 => []
  | n + 1 =>
    let k := t.width / 8
    dstWords t (tyVal t (leNat (bs.take k))) ++ elemWords t (bs.drop k) n

/-- The fibres whose access this is. -/
def Party.ownersOf (p : Party) (a : Access) : List Fibre := a.fibs.filterMap p.fibre?

/-- What happens-before an access of some fibres. -/
def Party.viewOf (p : Party) (fs : List Fibre) : View := fs.foldl (fun v f => View.join v f.view) p.known

/-- What an access has made known happens-before every later access of its fibres (09 R195): those still to be issued, and those in flight. -/
def State.passView (s : State) (a : Access) (v : View) : State :=
  let s := s.onParty a.uid fun p => { p with fibres := p.fibres.map fun f => if a.fibs.contains f.fid then f.know v else f }
  { s with flight := s.flight.map fun b => if decide (a.insn < b.insn) && a.sameFibre b then { b with view := View.join b.view v } else b }

/-- The scope of an acquiring access. -/
def acqOf (a : Access) : Option Scope := if ordAcquires a.ord then some a.scope else none

/-- Open reads that happen before an access: the earlier ones of its fibres, and those it follows through a write of its core (09 R191). -/
def State.openBefore (s : State) (a : Access) : List Nat :=
  ((s.flight.filter fun b => b.reads && b.open_ && decide (b.insn < a.insn) && a.sameFibre b).map (·.id) ++ a.after).eraseDups

/-- What an access has found: what it knows now, with what it acquired and without, the releases it read, where it read, and the open reads that happen
before the writes it took. -/
structure Found where
  view  : View := []
  plain : View := []
  rels  : List Release := []
  read  : View := []
  after : List Nat := []
  deriving DecidableEq, Repr

/-- An access has taken its value: its fibres' later accesses follow what it found, and so does what follows it through a write of its core; the
earlier reads that have yet to take their values are bound by where it read. -/
def State.tookValue (s : State) (a : Access) (r : Found) : State :=
  let fibre := fun (f : Fibre) =>
    if !a.fibs.contains f.fid then f
    else
      let g := { f with view := View.join f.view r.view, after := (f.after ++ r.after).eraseDups }
      if decide (f.lastRead ≤ a.insn) then { g with base := View.join f.view r.plain, lastRead := a.insn, lastRel := r.rels }
      else { g with base := View.join f.base r.view }
  let acc := fun (b : Access) =>
    if decide (a.insn < b.insn) && a.sameFibre b then { b with view := View.join b.view r.view, after := (b.after ++ r.after).eraseDups }
    else if b.reads && b.open_ && ((decide (b.insn < a.insn) && a.sameFibre b) || a.after.contains b.id) then { b with early := r.read ++ b.early }
    else b
  let s := s.onParty a.uid fun p => { p with fibres := p.fibres.map fibre }
  ({ s with flight := s.flight.map acc } : State).settleRead a.id r.view r.after

/-- A read takes no write of its core that happens after it (09 R196 condition 1). -/
def Access.maySee (a : Access) (src : Issuer) (w : Option Past) : Bool := w.all fun w => !sameCore src w.src || !w.preds.contains a.id

/-- What an access comes to know leaves what accesses that follow it have read already as new as it must be. -/
def earlyOk (early v : View) : Bool := early.all fun f => decide (v.bound f.lo f.len ≤ f.stamp)

/-- The stamps at which an access may take one atomic unit: those its view allows (09 R196), of a write it may see, and that suit what accesses after it
have read. -/
def State.fitStamps (s : State) (own : Nat) (src : Issuer) (a : Access) (v : View) (loc n : Nat) : List Nat :=
  (s.readStamps v loc n).filter fun t =>
    a.maySee src (s.writeAt t loc n) && earlyOk a.early (s.learn own src v loc n t (s.writeAt t loc n) (acqOf a))

/-- Every located unit of an open read can still be taken. -/
def State.canStill (s : State) (own : Nat) (src : Issuer) (b : Access) : Bool :=
  b.parts.all fun q => match q.place with
    | .loc l _ _ => (coreUnits l q.len).all fun u => !(s.fitStamps own src b b.view u.1 u.2).isEmpty
    | _ => true

/-- What an access comes to know by reading a unit at a stamp leaves every other open read of its fibres, and every one it follows, a value to take. -/
def State.leavesOpen (s : State) (own : Nat) (src : Issuer) (a : Access) (loc n t : Nat) (v : View) : Bool :=
  s.flight.all fun b =>
    if b.id == a.id || !b.reads || !b.open_ then true
    else if decide (a.insn < b.insn) && a.sameFibre b then s.canStill own src { b with view := View.join b.view v }
    else if (decide (b.insn < a.insn) && a.sameFibre b) || a.after.contains b.id then s.canStill own src { b with early := ⟨loc, n, t⟩ :: b.early }
    else true

/-- One atomic unit of a fibre's load, at one of the stamps that suit it and leave the other open reads a value. None where it must wait. -/
def State.loadUnit (s : State) (own : Nat) (src : Issuer) (a : Access) (v : View) (loc n : Nat) : Option (List Byte × Nat × Option Past × State) :=
  let ts := (s.fitStamps own src a v loc n).filter fun t =>
    s.leavesOpen own src a loc n t (s.learn own src v loc n t (s.writeAt t loc n) (acqOf a))
  if ts.isEmpty then none
  else
    let (k, s) := s.draw ts.length
    let t := ts.getD k 0
    some (s.bytesAsOf t loc n, t, s.writeAt t loc n, s)

/-- The open reads that happen before a write that a reader of its core takes. -/
def predsOf (src : Issuer) (w : Option Past) : List Nat := w.elim [] fun w => if sameCore src w.src then w.preds else []

/-- What a fibre's read gives: its bytes, whether any was poisoned, and what it found. -/
structure Loaded extends Found where
  bytes : List Byte := []
  bad   : Bool := false
  deriving DecidableEq, Repr

def State.loadUnits (s : State) (own : Nat) (src : Issuer) (a : Access) : List (Nat × Nat) → Loaded → Option (Loaded × State)
  | [], r => some (r, s)
  | (loc, n) :: us, r =>
    match s.loadUnit own src a r.view loc n with
    | none => none
    | some (bs, t, w, s) =>
      let (bs, s) := s.wildBytes loc bs
      let found : Found := { view := s.learn own src r.view loc n t w (acqOf a), plain := s.learn own src r.plain loc n t w none
                             rels := r.rels ++ (w.map (·.rels)).getD [], read := ⟨loc, n, t⟩ :: r.read, after := (r.after ++ predsOf src w).eraseDups }
      s.loadUnits own src a us { r with toFound := found, bytes := r.bytes ++ bs }

/-- Read the parts of an access. Constant space reads each byte by itself, as it stood at the party's placement or at any later time (08 R178); a
replicated page gives its present bytes (09 R206). -/
def State.loadParts (s : State) (p : Party) (a : Access) : List Part → Loaded → Option (Loaded × State)
  | [], r => some (r, s)
  | q :: qs, r =>
    match q.place with
    | .loc l _ repl =>
      let seen := fun (v : View) => if a.sp == .k then [⟨l, q.len, p.born⟩] else if repl.isSome then ⟨l, q.len, s.stamp⟩ :: v else v
      let r := { r with bad := r.bad || s.poisonIn l q.len, view := seen r.view, plain := seen r.plain }
      let units := if a.sp == .k then (List.range q.len).map fun j => (l + j, 1) else coreUnits l q.len
      match s.loadUnits p.rank (a.issuer p) a units r with
      | none => none
      | some (r, s) => s.loadParts p a qs r
    | .got bs st => s.loadParts p a qs { r with bytes := r.bytes ++ bs, bad := r.bad || st == 1 }
    | _ => s.loadParts p a qs r

/-- The byte of a store at a byte of another access's part, if both name it. -/
def storedByte (same : Bool) (q : Part) (i : Nat) : List Part → List Byte → Option Byte
  | [], _ => none
  | r :: rs, d =>
    let at_ : Option Nat := match q.place, r.place with
      | .loc l _ _, .loc m _ _ => if m ≤ l + i ∧ l + i < m + r.len then some (l + i - m) else none
      | .remote a g o _, .remote a' g' o' _ => if a = a' ∧ g = g' ∧ o' ≤ o + i ∧ o + i < o' + r.len then some (o + i - o') else none
      | _, _ => if same ∧ r.va ≤ q.va + i ∧ q.va + i < r.va + r.len then some (q.va + i - r.va) else none
    match at_ with
    | some j => d[j]?
    | none => storedByte same q i rs (d.drop r.len)

/-- What a load takes from its own fibre's queued stores (12 R268). -/
inductive Forward
  | none
  | wait
  | bytes (bs : List Byte)
  deriving DecidableEq, Repr

def State.forward (s : State) (a : Access) : Forward :=
  match (s.flight.filter fun b => b.stores && b.stage.isQueued && b.aside == a.aside && decide (b.insn < a.insn) && a.sameFibre b && a.meets b).getLast? with
  | none => .none
  | some b =>
    match b.op with
    | .store d =>
      let bs := a.parts.flatMap fun q => (List.range q.len).map fun i => storedByte (a.ctx == b.ctx) q i b.parts d
      if bs.all Option.isSome then .bytes (bs.filterMap id) else .wait
    | _ => .wait

/-- An earlier load of the same fibre from bytes that may overlap has not yet taken its value (09 R190). -/
def State.loadsBefore (s : State) (a : Access) : Bool :=
  s.flight.any fun b => b.reads && b.open_ && decide (b.insn < a.insn) && a.sameFibre b && a.meets b

def Access.atomic (a : Access) : Bool :=
  match a.op with
  | .atom _ _ _ | .cas _ _ _ => true
  | _ => false

/-- An earlier atomic of the same fibre waits in the store queue: no later load is performed before it (09 R191 item 3). -/
def State.atomsBefore (s : State) (a : Access) : Bool :=
  s.flight.any fun b => b.atomic && b.stage.isQueued && b.aside == a.aside && decide (b.insn < a.insn) && a.sameFibre b

/-- Whether any byte of an access lies in a poisoned unit of this device. -/
def State.poisonedParts (s : State) (ps : List Part) : Bool :=
  ps.any fun q => match q.place with
    | .loc l _ _ => s.poisonIn l q.len
    | _ => false

/-- Perform a load whose parts all have a location or an answer, and return it; it stays where an order holds it back. With `keep` it takes its value
now and writes it later, so that of two results in flight to one register either may land last (02 R34). -/
def State.performLoad (s : State) (a : Access) (t : Ty) (n : Nat) (keep : Bool := false) : State :=
  match s.party? a.uid with
  | none => s.dropAccess a.id
  | some p =>
    let give := fun (s : State) (bs : List Byte) (bad : Bool) =>
      if keep && !bad then s.setAccess { a with stage := .done (elemWords t bs n) 0 }
      else s.report a (elemWords t bs n) (if bad then 1 else 0)
    if a.aside || s.loadsBefore a || s.atomsBefore a || s.lockedParts a || s.behind a then s
    else match (if a.sp == .k then .none else s.forward a) with
    | .wait => s
    | .bytes bs => give (s.tookValue a {}) bs (s.poisonedParts a.parts)
    | .none =>
      if a.parts.any Part.isRemote then (if s.awaits a then s else s.sendAccess a)
      else match s.loadParts p a a.parts { view := a.view, plain := a.view } with
        | none => s
        | some (r, s) =>
          let v := if ordAcquires a.ord then r.view.acquire p.rank (a.issuer p) a.scope a.heard else r.view
          give (s.tookValue a { r.toFound with view := v, rels := r.rels ++ a.heard }) r.bytes r.bad

/-- The tag of a lock or unlock that this device sends. -/
def replTag (id : Nat) : Nat := 2 ^ 65 + id

/-- Send a lock, or an unlock, to every replica of a page: the tags that their answers will name. -/
def State.tellReplicas (s : State) (m : Nat → Nat → Sent) : List Nat → List (Nat × Nat) × State
  | [] => ([], s)
  | r :: rs =>
    let (id, s) := s.fresh
    let (ts, s) := (s.emit (m r (replTag id))).tellReplicas m rs
    ((replTag id, r) :: ts, s)

/-- Two writes to one replicated page. -/
def Update.samePage (u v : Update) : Bool := u.ctx == v.ctx && u.region == v.region && u.page == v.page

/-- The phase of a write to a replicated page begins: every replica is told to lock the page and take the new bytes (09 R206). -/
def State.beginUpdate (s : State) (u : Update) : Update × State :=
  let (tags, s) := s.tellReplicas (fun r tag => .lock r (s.jobOf u.ctx) u.region u.offset u.data tag) u.ranks
  ({ u with acks := tags, begun := true }, s)

/-- A write to a replicated page (09 R206): until all replicas have answered its locks, and then its unlocks, the page stays locked here too. The phase of
the next write to the page begins when this one's has ended. -/
def State.replicate (s : State) (src : Issuer) (d : Replica) (va : Nat) (bs : List Byte) : State :=
  let region := va / 2 ^ 40
  let off := va % 2 ^ 40
  let page := ((s.ctx? d.ctx).map fun c => c.pageOf region off).getD 0
  let u : Update := { ctx := d.ctx, region := region, offset := off, page := page, ranks := d.ranks, acks := [], begun := false, data := bs, src := src }
  if d.ranks.isEmpty then s
  else
    let (u, s) := if s.tables.updates.any u.samePage then (u, s) else s.beginUpdate u
    s.onTables fun t => { t with updates := t.updates ++ [u] }

/-- Writes of an engine or fibre that not every replica holds yet: they are not performed (09 R206). -/
def State.replicating (s : State) (src : Issuer) : Bool := s.tables.updates.any fun u => u.src == src && !u.open_

/-- A write of this step went to a replicated page: what `f` notes with it happens when every replica holds it. -/
def State.whenHeld (s : State) (f : Update → Update) : State :=
  s.onTables fun t => { t with updates := t.updates.modify (t.updates.length - 1) f }

/-- A weight page's version advances, once for each write (11 R240). -/
def State.bumpVersion (s : State) (w : Option Nat) (n : Nat) : State :=
  match w with
  | some w => s.onTables fun t => { t with versions := sset 0 t.versions w (sget 0 t.versions w + w64 n) }
  | none => s

/-- A write to one location range, with its weight version, its replicas (a descriptor and the virtual address written) and the errors it meets: the new state, and whether it
was lost (08 R187, 10 R216, 11 R240, 14 R321). -/
def State.store (s : State) (src : Issuer) (view : View) (rels : List Release) (atom : Option Scope) (l : Nat)
    (weight : Option Nat) (repl : Option (Nat × Nat)) (bs : List Byte) (preds : List Nat := []) : Bool × State :=
  let s := s.bumpVersion weight 1
  let bad := (touchedUnits l bs.length).filter s.failing.contains
  if !bad.isEmpty then
    let s := (s.taint l bs.length).errCount (dieOf l) 5
    let s := { s with failing := s.failing.filter fun u => !bad.contains u }
    let sub := if isScratch l then 3 else if isNear l then 2 else 1
    let ctx := if isDevice l then s.frameOwner l else ((s.party? src.uid).map (·.ctx)).getD 0
    (true, s.memRecord sub (bad.headD 0 * 64) { ctx := ctx, core := src.core })
  else
    let s := s.write src view rels atom l bs preds
    (false, match repl.bind fun x => (sfind s.tables.replicas x.1).map fun d => (d, x.2) with
      | some (d, va) => s.replicate src d va bs
      | none => s)

/-- The intermediate address of a byte of device memory, which its window gives (08 R172); where none does, that of its stack. -/
def State.homeIa (s : State) (ctx va l : Nat) : Nat :=
  match s.tables.windows.find? fun e => e.2.ctx == ctx && e.2.region == va / 2 ^ 40 && decide (e.2.va ≤ va % 2 ^ 40 ∧ va % 2 ^ 40 < e.2.va + e.2.size) with
  | some e => e.2.ia + (va % 2 ^ 40 - e.2.va)
  | none => l / 2 ^ 36 * 2 ^ 45 + l % 2 ^ 36

/-- The die that homes a byte: that of the stack its intermediate address names (08 R172). -/
def State.homeDie (s : State) (ctx va l : Nat) : Nat := if isDevice l then s.homeIa ctx va l / 2 ^ 46 % 4 else dieOf l

/-- The place among the senders of a die's Herald of an atomic's announcement (01 R12): that of the core whose L1 executes it, else of its home slice; a
request of another die comes in by a UCIe port. The Customs unit's atomics enter no such order. -/
def State.heraldPlace (s : State) (ctx va l : Nat) (sc : Scope) (c : CoreRef) : Option Nat :=
  let ia := s.homeIa ctx va l
  let home := ia / 2 ^ 46 % 4
  let slice := 64 + (2 * (ia / 2 ^ 45 % 2) + ia / 2 ^ 12 % 2) * 16 + Config.sliceHash (ia % 2 ^ 45 / 64) % 16
  if !isDevice l then none
  else match sc with
  | .fib | .crew | .party => some (if c.die = home then c.core else 128 + c.die)
  | .comp | .dev => some (if c.die = home then slice else 128 + c.die)
  | _ => none

/-- Two atomics to one location are atomic with respect to each other, and an atomic with respect to a plain store (09 R205); `home` is the die that
homes the location. -/
def atomicWith (own l home : Nat) (sc : Scope) (src : Issuer) (w : Past) : Bool :=
  !isDevice l || (src.remote.isNone && w.src.remote.isNone && src.core.die == w.src.core.die && home == src.core.die) ||
  (match w.atom with
   | some sc' => mutualScope own sc src sc' w.src
   | none => scopeReaches own sc src w.src)

/-- The stamps an atomic's read may take: now, or before writes it is not atomic with (09 R196 condition 5, R205). -/
def atomStamps (own l home : Nat) (sc : Scope) (src : Issuer) (bound : Nat) : List Past → List Nat
  | [] => []
  | w :: ws => if w.stamp ≤ bound || atomicWith own l home sc src w then [] else (w.stamp - 1) :: atomStamps own l home sc src bound ws

/-- The stamps at which an atomic of `n` bytes at a location may read, newest first. -/
def State.atomTimes (s : State) (own : Nat) (src : Issuer) (v : View) (sc : Scope) (l home n : Nat) : List Nat :=
  s.stamp :: atomStamps own l home sc src (v.bound l n) (s.past.filter fun w => rangesMeet w.lo w.old.length l n)

/-- The new value of an atomic operation (10 R219); float codes are those of 05. -/
def atomValue (op : Aop) (t : Ty) (o b : Nat) : Nat :=
  let m := 2 ^ t.width
  let fl := fun (f : XVal → XVal → XVal) => (fmtOf t).round .rne false (f ((fmtOf t).value o) ((fmtOf t).value b))
  match op with
  | .add => if t.isFloat then fl (xadd .rne) else (o + b) % m
  | .sub => (o + m - b) % m
  | .min => if t.isFloat then fl (xminmax true) else if tyVal t b < tyVal t o then b else o
  | .max => if t.isFloat then fl (xminmax false) else if tyVal t o < tyVal t b then b else o
  | .and => o &&& b
  | .or => o ||| b
  | .xor => o ^^^ b
  | .exch => b
  | .inc => if b ≤ o then 0 else o + 1
  | .dec => if o = 0 ∨ b < o then b else o - 1
  | .rsv _ => o

/-- What an atomic gives: the old value, the status, and what it found. -/
structure Swapped extends Found where
  old    : Nat := 0
  status : Nat := 0
  deriving DecidableEq, Repr

/-- An atomic at a location of this device, as one step at one of the times `ts` (10 R220). -/
def State.atomicAt (s : State) (ts : List Nat) (own : Nat) (src : Issuer) (v : View) (ord : Ord) (sc : Scope) (rels : Release → List Release) (l : Nat)
    (weight : Option Nat) (repl : Option (Nat × Nat)) (n : Nat) (new : Nat → Nat) (preds : List Nat := []) : Swapped × State :=
  if s.poisonIn l n then ({ status := 1, view := v, plain := v }, s)
  else
    let (k, s) := s.draw ts.length
    let t := ts.getD k s.stamp
    let (bs, s) := s.wildBytes l (s.bytesAsOf t l n)
    let o := leNat bs
    let w := s.writeAt t l n
    let v' := s.learn own src v l n t w (if ordAcquires ord then some sc else none)
    let seen := (w.map (·.rels)).getD []
    let mine := rels ⟨sc, src, v'⟩
    let (lost, s) := s.store src v' (seen ++ mine) (some sc) l weight repl (leBytes n (new o)) preds
    let wrote : View := [⟨l, n, s.stamp⟩]
    ({ old := o, status := if lost then 2 else 0, view := v'.join wrote, plain := (s.learn own src v l n t w none).join wrote
       rels := seen, read := [⟨l, n, t⟩], after := predsOf src w }, s)

/-- A command reads its block after a store that its crew had queued when it was issued (07 R144). -/
def MillCmd.follow (id : Nat) (v : View) (c : MillCmd) : MillCmd := if c.owed.contains id then { c with seen := View.join c.seen v } else c
def PortCmd.follow (id : Nat) (v : View) (c : PortCmd) : PortCmd := if c.owed.contains id then { c with seen := View.join c.seen v } else c
def LaunchReq.follow (id : Nat) (v : View) (r : LaunchReq) : LaunchReq := if r.owed.contains id then { r with seen := View.join r.seen v } else r
def Trigger.follow (id : Nat) (v : View) (t : Trigger) : Trigger := if t.owed.contains id then { t with seen := View.join t.seen v } else t
def CntReq.follow (id : Nat) (v : View) (r : CntReq) : CntReq :=
  match r.op with
  | .arm t => { r with op := .arm (t.follow id v) }
  | _ => r
def EngineReq.follow (id : Nat) (v : View) : EngineReq → EngineReq
  | .mill c => .mill (c.follow id v)
  | .port c => .port (c.follow id v)
  | r => r

/-- What the engine commands, triggers and launch requests of an access's party know of it once it has been performed. -/
def State.followStore (s : State) (a : Access) (v : View) : State :=
  match s.party? a.uid with
  | none => s
  | some p =>
    let core := fun (k : Core) => { k with mill := { k.mill with queue := k.mill.queue.map (MillCmd.follow a.id v) }
                                           urgent := k.urgent.map (PortCmd.follow a.id v), normal := k.normal.map (PortCmd.follow a.id v)
                                           waiting := k.waiting.map (EngineReq.follow a.id v) }
    let s : State := { s with requests := s.requests.map (LaunchReq.follow a.id v), cntReqs := s.cntReqs.map (CntReq.follow a.id v)
                              dies := s.dies.map fun d => { d with triggers := d.triggers.map (Trigger.follow a.id v) } }
    (s.onCore p.core core).onParty a.uid fun p => { p with saved := p.saved.map (EngineReq.follow a.id v) }

/-- Announce an atomic on its home die's Herald (01 R12): those of one clk in the order of their senders. What is announced besides of cached lines shows
in no state: caches hold copies only (08 R185, log 84). -/
def State.announce (s : State) (home sender id : Nat) : State :=
  let mine : Announcement := ⟨s.clock.toNat, sender, id⟩
  let behind := fun (a : Announcement) => decide (mine.at_ < a.at_ ∨ (a.at_ = mine.at_ ∧ sender < a.sender))
  (s.onDie home fun d => { d with herald := d.herald.filter (!behind ·) ++ mine :: d.herald.filter behind }).serve (.herald home) sender

/-- An access's own write is known to the later slots of its instruction: they follow it at its bytes (10 R213). -/
def State.passSlots (s : State) (a : Access) (v : View) : State :=
  { s with flight := s.flight.map fun b => if b.insn == a.insn && b.uid == a.uid && decide (a.id < b.id) then { b with view := View.join b.view v } else b }

/-- The words and the status of a performed write: at once, or, when it went to a replicated page (`n` writes to such pages had been under way), once
every replica holds it (09 R206). With `keep` its words are written later (02 R34). -/
def State.giveWrite (s : State) (a : Access) (n : Nat) (ws : List Word) (st : Nat) (keep : Bool := false) : State :=
  if n < s.tables.updates.length then
    (s.setAccess { a with stage := .locked ws st }).whenHeld fun u => { u with accs := u.accs ++ [a.id] }
  else if keep && st == 0 then s.setAccess { a with stage := .done ws 0 }
  else match a.op with
  | .store _ => s.finish a ws st
  | _ => s.report a ws st

/-- An atomic on a word that lies across two pages (08 R177): its bytes change in one step, as they stand now. -/
def State.atomicSplit (s : State) (a : Access) (p : Party) (t : Ty) (new : Nat → Nat) : State :=
  let src := a.issuer p
  let old := a.parts.flatMap fun q => match q.place with
    | .loc l _ _ => s.bytesAt l q.len
    | _ => []
  let n := s.tables.updates.length
  if s.poisonedParts a.parts then s.report a [] 1
  else
    let put := fun (acc : Bool × View × List Byte × State) (q : Part) => match q.place with
      | .loc l w repl =>
        let (lost, s) := acc.2.2.2.store src a.view (a.releases p) (some a.scope) l w (repl.map (·, q.va)) (acc.2.2.1.take q.len) (s.openBefore a)
        (acc.1 || lost, ⟨l, q.len, s.stamp⟩ :: acc.2.1, acc.2.2.1.drop q.len, s)
      | _ => acc
    let (lost, v, _, s) := a.parts.foldl put (false, [], leBytes old.length (new (leNat old)), s)
    let s := ((s.tookValue a { view := View.join v (s.coreOrder src a.fibs), plain := v, read := v }).followStore a v).passSlots a v
    s.giveWrite a n (dstWords t (tyVal t (leNat old))) (if lost then 2 else 0)

/-- Perform an atomic of a fibre at its one location. It waits while no write suits it, and while an announcement of this clk that stands behind its own
has taken effect (01 R12). With `keep` its words are written later. -/
def State.performAtomic (s : State) (a : Access) (t : Ty) (new : Nat → Nat) (keep : Bool := false) : State :=
  match s.party? a.uid, a.parts with
  | some p, [⟨va, n, .loc l weight repl⟩] =>
    let src := a.issuer p
    let home := s.homeDie a.ctx va l
    let place := s.heraldPlace a.ctx va l a.scope p.core
    let fits := s.fitStamps p.rank src a a.view l n
    let ts := (s.atomTimes p.rank src a.view a.scope l home n).filter fits.contains
    if ts.isEmpty || place.any (s.overtaken (.herald home)) then s
    else
      let s := place.elim s fun k => s.announce home k a.id
      let before := s.tables.updates.length
      let (r, s) := s.atomicAt ts p.rank src a.view a.ord a.scope (fun r => a.rels.map fun sc => { r with scope := sc }) l weight (repl.map (·, va)) n new
        (s.openBefore a)
      let wrote : View := [⟨l, n, s.stamp⟩]
      let order := s.coreOrder src a.fibs
      let s := ((s.tookValue a { r.toFound with view := View.join r.view order, plain := View.join r.plain order }).followStore a wrote).passSlots a wrote
      s.giveWrite a before (dstWords t (tyVal t r.old)) r.status keep
  | some p, _ => if a.parts.any Part.isRemote then s.refuse a 0x0F XFault.malformed.code else s.atomicSplit a p t new
  | none, _ => s.dropAccess a.id

/-- Perform the local parts of a store; the parts at other devices have been sent. -/
def State.storeParts (s : State) (a : Access) (src : Issuer) (rels : List Release) (preds : List Nat) : List Part → Nat → Bool × View × State
  | [], _ => (false, [], s)
  | q :: qs, off =>
    match a.op, q.place with
    | .store d, .loc l weight repl =>
      let bs := (d.drop off).take q.len
      let (lost, s) := s.store src a.view rels none l weight (repl.map (·, q.va)) bs preds
      let (lost', v, s) := s.storeParts a src rels preds qs (off + q.len)
      (lost || lost', ⟨l, q.len, s.stamp⟩ :: v, s)
    | _, _ => s.storeParts a src rels preds qs (off + q.len)

/-- The status of a store: to SD, or to nobody (10 R221). -/
def State.performStore (s : State) (a : Access) : State :=
  match s.party? a.uid with
  | none => s.dropAccess a.id
  | some p =>
    let n := s.tables.updates.length
    let (lost, v, s) := s.storeParts a (a.issuer p) (a.releases p) (s.openBefore a) a.parts 0
    let s := ((s.passView a v).followStore a v).passSlots a v
    if a.parts.any Part.isRemote then
      s.sendAccess { a with parts := a.parts.map fun q => match q.place with
        | .loc _ _ _ => { q with place := .got [] (if lost then 2 else 0) }
        | _ => q }
    else s.giveWrite a n [] (if lost then 2 else 0)

/-! ### Translation of an access in flight -/

/-- What an access does to its pages. -/
def Access.kind (a : Access) : AccKind :=
  match a.op with
  | .store _ => .write
  | .atom _ _ _ | .cas _ _ _ => .atom
  | _ => .read
def Access.accCode (a : Access) : Nat := a.kind.accCode

/-- Translate the parts in order until one cannot be: what stops them is a fault at a virtual address, or nothing yet. -/
def State.translateParts (s : State) (c : Context) (k : AccKind) (v : View) : List Part → List Part × Option (Option (XFault × Nat)) × State
  | [] => ([], none, s)
  | q :: qs =>
    if q.place ≠ .todo then
      let (qs, e, s) := s.translateParts c k v qs
      (q :: qs, e, s)
    else match s.translate c (q.va / 2 ^ 40) (q.va % 2 ^ 40) k none v with
      | (.fault f, s) => (q :: qs, some (some (f, q.va)), s)
      | (.stall, s) => (q :: qs, some none, s)
      | (.loc l w r, s) =>
        let (qs, e, s) := s.translateParts c k v qs
        ({ q with place := .loc l w r } :: qs, e, s)
      | (.peer r g o, s) =>
        let (qs, e, s) := s.translateParts c k v qs
        ({ q with place := .remote r g o 1 } :: qs, e, s)

/-- Walk for an access that waits at the memory side (14 R311, R316). -/
def State.walkAccess (s : State) (a : Access) (v : View) : State :=
  match s.ctx? a.ctx with
  | none => s.refuse a 0x0E XFault.noContext.code
  | some c =>
    let (parts, e, s) := s.translateParts c a.kind v a.parts
    let a := { a with parts := parts }
    match e with
    | none => s.setAccess { a with stage := .ready }
    | some none => s.setAccess { a with stage := .toWalk }
    | some (some (f, va)) =>
      match s.holdFault c (va / 2 ^ 40) (va % 2 ^ 40) f a.accCode false c.rank (fun e => { e with local_ := e.local_ ++ [a.id] }) with
      | (some tok, s) => s.setAccess { a with stage := .held tok }
      | (none, s) => s.refuse a 0x0E XFault.destBusy.code

/-! ### The store queue (12 R267) -/

/-- The 64-byte units that some accesses write. -/
def unitCount (as : List Access) : Nat :=
  (as.flatMap fun a => a.parts.flatMap fun q => (touchedUnits q.va q.len)).eraseDups.length

/-- The entries a crew's store queue holds: for each instruction, the units its queued accesses still have to write. -/
def State.queued (s : State) (c : Crew) : Nat := (c.storeq.map fun ids => unitCount (ids.filterMap s.access?)).sum

/-- The head access of a crew's store queue. -/
def Crew.head? (c : Crew) : Option Nat := (c.storeq.head?).bind (·.head?)

def State.popStore (s : State) (uid crew id : Nat) : State := s.onParty uid fun p => p.onCrew crew fun c => c.unqueue (· == id)

/-- An atomic with an order, or an `lseal`, at another device keeps its place at the head until it is performed (12 R267). -/
def Access.staysHead (a : Access) : Bool :=
  (a.atomic && (a.ord != .relaxed || !a.rels.isEmpty)) || (match a.op with | .seal _ => true | _ => false)

/-- A store that has still to be performed at another device, its home or a replica. -/
def Access.awaited (b : Access) : Bool :=
  b.stores && b.open_ && ((b.parts.any Part.isRemote) || (match b.stage with
    | .locked _ _ => true
    | _ => false))

/-- A release at the head of its queue passes once every access it covers has been performed: its fibres' earlier ones, replays included, and the core's
earlier stores to other devices, which it may have seen, and the open reads of its core that happen before it (09 R194, log 16). -/
def State.coveredHead (s : State) (a : Access) : Bool :=
  !(s.flight.any fun b => b.id != a.id && b.isAccess && b.aside == a.aside && decide (b.insn < a.insn) && a.sameFibre b && (b.open_ || b.stage.isRefused)) &&
  a.after.isEmpty &&
  (match s.party? a.uid with
   | none => true
   | some p => !(s.flight.any fun b => decide (b.id < a.id) && b.awaited && (s.party? b.uid).any fun q => q.core == p.core))

/-- The fields of a layout record that `lseal` checks (13 R279). -/
def sealable (rec64 : List Byte) : Bool :=
  decide (bits (leAt rec64 0 4) 31 28 = 7 ∧ bits (leAt rec64 0 4) 17 0 = 0 ∧ leAt rec64 4 4 = 0 ∧ leAt rec64 56 2 = 0)

/-- The sealed record: the version after the destination's old one, and the CRC (13 R279). -/
def sealRecord (rec64 : List Byte) (old : Nat) : Nat × List Byte :=
  let v := if old + 1 = 65536 then 1 else old + 1
  let body := rec64.take 56 ++ bytesOf 2 0 ++ bytesOf 2 v
  (v, body ++ bytesOf 4 (crc32c body).toNat)

/-- Perform an `lseal` (13 R279): the last part is its destination. Its source is read as a load of its space reads. -/
def State.performSeal (s : State) (a : Access) : State :=
  match s.party? a.uid, (a.parts.getLast?).map Part.place with
  | some p, some (.loc l w repl) =>
    match s.loadParts p a a.parts.dropLast { view := a.view, plain := a.view } with
    | none => s
    | some (r, s) =>
      let preds := s.openBefore a
      let s := s.tookValue a r.toFound
      let n := s.tables.updates.length
      if r.bad then s.report a [] 1
      else if !sealable r.bytes then s.finish a [1] 0
      else
        let (v, out) := sealRecord r.bytes (leNat (s.bytesAt (l + 58) 2))
        let (lost, s) := s.store (a.issuer p) (View.join a.view r.view) (a.releases p) none l w (repl.map (·, l)) out preds
        ((s.passView a [⟨l, 64, s.stamp⟩]).followStore a [⟨l, 64, s.stamp⟩]).giveWrite a n [w32 (v * 65536)] (if lost then 2 else 0)
  | _, _ => s.dropAccess a.id

/-- The head of a store queue is sent to another device; an atomic's fibres' later loads follow the stores before it (09 R191 item 3). -/
def State.sendHead (s : State) (a : Access) : State :=
  match a.op, s.party? a.uid with
  | .store _, _ => s.performStore a
  | _, some p => (if a.atomic then s.passView a (s.coreOrder (a.issuer p) a.fibs) else s).sendAccess a
  | _, none => s.dropAccess a.id

/-- Another result in flight aims at a register of this one: either may be the last to land (02 R34). -/
def State.contended (s : State) (a : Access) : Bool :=
  s.flight.any fun b => b.id != a.id && a.sameFibre b && a.dest.any b.dest.contains

/-- Perform the head of a store queue at this device; with `keep` an atomic's words are written later. -/
def State.performHead (s : State) (a : Access) (keep : Bool := false) : State :=
  match a.op with
  | .store _ => s.performStore a
  | .atom op t b => s.performAtomic a t (fun o => atomValue op t o (lowBits t b)) keep
  | .cas t b c => s.performAtomic a t (fun o => if o = lowBits t c then lowBits t b else o) keep
  | .seal _ => s.performSeal a
  | _ => s.dropAccess a.id

/-- Drain the head of a crew's store queue as far as it will go now. -/
def State.drainHead (s : State) (uid crew : Nat) : State :=
  match (s.party? uid).bind (fun p => (p.crew? crew).bind Crew.head?) with
  | none => s
  | some id => match s.access? id with
    | none => s.popStore uid crew id
    | some a => match a.stage with
      | .done _ _ | .refused _ _ | .locked _ _ => s.popStore uid crew id
      | .ready =>
        if s.loadsBefore a || s.lockedParts a || s.behind a || (!a.rels.isEmpty && !s.coveredHead a) then s
        else if a.parts.any Part.isRemote then
          if s.awaits a then s else if a.staysHead then s.sendHead a else (s.sendHead a).popStore uid crew id
        else
          let (k, s) := s.draw (if a.atomic && s.contended a then 2 else 1)
          let s := s.performHead a (k == 1)
          if s.access? id == some a then s else s.popStore uid crew id
      | _ => s

/-! ### Issue (10 R212 to R214) -/

/-- Put accesses on their way, with what now happens-before them: to the store queue, to the memory side, or to another device. -/
def State.depart (s : State) (uid crew : Nat) (as : List Access) : State :=
  let start := fun (a : Access) =>
    { a with stage := if a.parts.any fun q => q.place == .todo then .toWalk else .ready
             view := ((s.party? uid).map fun p => p.viewOf (p.ownersOf a)).getD a.view
             after := ((s.party? uid).map fun p => ((p.ownersOf a).flatMap (·.after)).eraseDups).getD []
             mates := as.flatMap Access.logged, regs := (as.flatMap fun b => b.dest ++ b.sd.toList).eraseDups }
  let as := as.map start
  let s := { s with flight := s.flight ++ as }
  let st := (as.filter (·.stores)).map (·.id)
  let s := if st.isEmpty then s else s.onParty uid fun p => p.onCrew crew fun c => { c with storeq := c.storeq ++ [st] }
  as.foldl (fun s a => match a.stage, a.op with
    | .ready, .load t n => if (a.parts.any Part.isRemote) && s.forward a == .none then s.performLoad a t n else s
    | .ready, .cnt _ _ _ => s.sendAccess a
    | _, _ => s) s

/-- What holds an access back at issue. -/
inductive MemWait | go | fault | wait
  deriving DecidableEq, Repr

/-- Accesses of a gang's fibres that are not yet performed. -/
def State.openAccess (s : State) (uid : Nat) (g : Gang) : Bool := (s.itemsOf uid g).any fun a => a.isAccess && a.open_ && !a.aside
/-- Reads of a gang's fibres that have not yet returned their values (10 R224). -/
def State.openReads (s : State) (uid : Nat) (g : Gang) : Bool := (s.itemsOf uid g).any fun a => a.reads && !a.stage.isRefused && !a.aside
/-- Stores of a core that have still to be performed at other devices: a release covers those it has seen (log 16). -/
def State.openRemote (s : State) (c : CoreRef) : Bool := s.flight.any fun a => a.awaited && (s.party? a.uid).any fun p => p.core == c

/-- Whether a gang's earlier accesses, and the open reads of its core that happen before it, let a fence pass (09 R194, log 16). -/
def State.covered (s : State) (t : Turn) : Bool := !s.openAccess t.uid t.g && !s.openRemote t.p.core && t.ms.all fun f => f.after.isEmpty

/-- What holds the accesses of an instruction back: faults to take first (10 R222 points 3 and 4), the range scoreboard (08 R184), an
unanswered access (10 R214), an earlier acquire, the fence that a `.sc` access begins with, or a full store queue (12 R267). A release waits in the
queue, not here (10 R216). -/
def State.memWait (s : State) (t : Turn) (as : List Access) (ord : Ord) : MemWait :=
  let fs := s.pendingFaults t.uid t.g
  if as.any fun a => fs.any fun b => a.sameFibre b && partsMeetUnit a.parts b.parts then .fault
  else if (ordSequential ord && !fs.isEmpty) || as.any fun a => !a.rels.isEmpty && fs.any a.sameFibre then .fault
  else if (as.any fun a => a.parts.any t.p.scoreHit) || (as.any fun a => s.awaits a || s.awaitsStore a) ||
      ((s.itemsOf t.uid t.g).any fun b => b.open_ && b.reads && ordAcquires b.ord && !b.aside) ||
      (ordSequential ord && (!s.covered t || s.openReads t.uid t.g)) then .wait
  else if (as.any (·.stores)) && decide (64 < s.queued (crewOf t.p t.g) + unitCount (as.filter (·.stores))) then .wait
  else .go

/-- A memory instruction's request: its space, size, ordering and, for each fibre, its address, operation and destinations. -/
structure MemReq where
  sp     : Space
  size   : Nat
  wr     : Bool
  strict : Bool
  ord    : Ord
  scope  : Scope
  se     : Bool := false
  addr   : Fibre → Int
  op     : Fibre → AccOp
  dest   : Fibre → List DestReg := fun _ => []
  sd     : Fibre → Option DestReg := fun _ => none
  srcs   : Fibre → List DWord := fun _ => []

/-- The access of one fibre, or of the gang; where it writes, it is a release at the scopes its fibres ask for. -/
def State.buildAccess (s : State) (t : Turn) (i : Instr) (q : MemReq) (insn : Nat) (f : Fibre) (parts : List Part) : Access × State :=
  let (a, s) := s.newAccess t i insn (if i.gangWide then none else some f.fid) (q.op f) (q.dest f)
  let a := { a with ctx := s.accessCtx t.p t.g.level q.sp, sp := q.sp, addr := BitVec.ofInt 64 (q.addr f), parts := parts, sd := q.sd f, se := q.se
                    ord := q.ord, scope := q.scope, srcs := q.srcs f }
  let rels := ((if i.gangWide then t.ms else [f]).filterMap fun f => releaseOf f q.ord q.scope a.atomic).eraseDups
  ({ a with rels := if q.wr then rels else [] }, s)

/-- Check and build the accesses of some fibres, in slot order. -/
def State.buildAll (s : State) (t : Turn) (i : Instr) (q : MemReq) (insn : Nat) : List Fibre → List (Nat × Access) × State
  | [] => ([], s)
  | f :: fs =>
    let (k, parts, s) := s.checkMem t.p f t.g.level q.sp (q.addr f) q.size q.wr q.strict
    let (a, s) := s.buildAccess t i q insn f parts
    let (as, s) := s.buildAll t i q insn fs
    ((k, a) :: as, s)

/-- The lowest-numbered check that any fibre fails. -/
def worstCheck (as : List (Nat × Access)) : Nat :=
  as.foldl (fun b a => if a.1 ≠ 0 ∧ (b = 0 ∨ a.1 < b) then a.1 else b) 0

/-- A sequential fence of some fibres (09 R194, R197): of a scope that reaches other devices they are told; of party scope or wider it puts the
fibres' later accesses after their earlier stores in the order of the core (09 R191). -/
def State.scFences (s : State) (t : Turn) (sc : Scope) (fs : List Fibre) : State :=
  fs.foldl (fun s f =>
    let src := fibreIssuer t.p f
    let v := ((s.party? t.uid).bind fun p => p.fibre? f.fid).elim f.view (·.view)
    let (v, s) := s.scFence t.p.rank src sc (View.join v t.p.known)
    let v := if scopeFences sc then View.join v (s.coreOrder src [f.fid]) else v
    let s := if scopeWide sc then s.emit (.fence t.p.ctx src sc) else s
    s.onFibre t.uid f.fid fun f => f.know v) s

/-- A log entry of an access instruction that fails a check at issue (16 R354). -/
def checkLog (i : Instr) (t : Turn) (k : Nat) (as : List (Nat × Access)) : LogEntry :=
  let addr := ((as.find? fun a => a.1 == k).map (·.2.addr)).getD 0
  let fmask := if i.gangWide then 0 else maskOf (as.filterMap fun a => a.2.fid.map t.g.slotOf)
  { issueLog i.raw t.pc (checkClass k) 0 addr fmask (.access (as.map (·.2))) with
    fibres := as.flatMap fun a => a.2.logged }

/-- The fibres that perform a memory form (10 R213). -/
def performers (i : Instr) (t : Turn) : List Fibre := if i.gangWide then (supplier t.ms).toList else takeEffect i.head t.ms

/-- The fibres that consume a pending `fence.rel`. -/
def State.useRel (s : State) (uid : Nat) (fs : List Fibre) : State :=
  fs.foldl (fun s f => s.onFibre uid f.fid fun f => { f with relNext := none }) s

/-- The accesses an instruction asks for, each with the number of the check it fails (10 R212). -/
def State.memPlan (s : State) (i : Instr) (t : Turn) (q : MemReq) : List (Nat × Access) × State :=
  let (insn, s) := s.fresh
  s.buildAll t i q insn (performers i t)

/-- What a load, store or atomic does when nothing holds it back: its fence, its releases, and its accesses on their way. -/
def State.memGo (s : State) (i : Instr) (t : Turn) (q : MemReq) (as : List Access) : State :=
  let fs := performers i t
  let fs := if i.gangWide then t.ms else fs
  let s := if ordSequential q.ord then s.scFences t q.scope fs else s
  let s := if q.wr then s.useRel t.uid fs else s
  s.depart t.uid t.g.crew as

/-- Issue a load, store or atomic. -/
def State.memIssue (s : State) (i : Instr) (req : Turn → MemReq) : Out :=
  s.issue i fun t =>
    let q := req t
    if (performers i t).isEmpty then .next (s.advance t.uid t.gid i.raw) else
    let (cas, s1) := s.memPlan i t q
    let bad := worstCheck cas
    if bad ≠ 0 then .next (s1.faultAt t.uid t.gid (nextPc t.pc i.raw) (checkLog i t bad cas))
    else match s.memWait t (cas.map (·.2)) q.ord with
      | .fault => .next (s.takePending t.uid t.gid t.pc)
      | .wait => .next (s.holdAgain t.uid t.gid)
      | .go => .next ((s1.memGo i t q (cas.map (·.2))).advance t.uid t.gid i.raw)

/-! ### Group 0x8 and 0x9 -/

/-- The offset of a memory form (10 R209). -/
def MemOff : MemExt → Int
  | .short => 0
  | .imm w => w.toInt
  | .wide w _ _ => w.toInt
def MemSd : MemExt → Option Opnd
  | .wide _ true sd => some sd
  | _ => none

/-- The computed address: modulo 2^64 in `.g`, exact elsewhere (10 R212). -/
def memAddr (s : State) (t : Turn) (sp : Space) (a : Opnd) (off : Int) (f : Fibre) : Int :=
  if sp == .g then ((read64 s t.p t.g f (.op a)).toInt + off) % 2 ^ 64 else (read32 s t.p t.g f (.op a) : Int) + off

/-- Consecutive elements of a register operand, as bytes. -/
def State.dataBytes (s : State) (t : Turn) (f : Fibre) (ty : Ty) (n : Nat) (b : Opnd) : List Byte :=
  (List.range n).flatMap fun e =>
    let o := match b with
      | .v k => .v (k + e * (if ty.is64 then 2 else 1))
      | .s k => .s (k + e * (if ty.is64 then 2 else 1))
      | o => o
    leBytes (ty.width / 8) (readU s t.p t.g f ty (.op o))

def State.sdOf (s : State) (t : Turn) (f : Fibre) (e : Option Opnd) : Option DestReg := e.bind fun o => (s.destOf t.p f o 1).head?

def execLd (h : Head) (d a : Opnd) (m : MemMod) (e : MemExt) (s : State) : Out :=
  let n := vecCount m.vec
  s.memIssue (.ld h d a m e) fun t =>
    { sp := m.sp, size := m.ty.width / 8 * n, wr := false, strict := m.ord != .relaxed, ord := m.ord, scope := m.scope, se := (MemSd e).isSome
      addr := memAddr s t m.sp a (MemOff e), op := fun _ => .load m.ty n
      dest := fun f => s.destOf t.p f d (n * (if m.ty.is64 then 2 else 1)), sd := fun f => s.sdOf t f (MemSd e)
      srcs := fun f => [rawOpnd s t.p t.g f (m.sp == .g) a] }

def execSt (h : Head) (a b : Opnd) (m : MemMod) (e : MemExt) (s : State) : Out :=
  let n := vecCount m.vec
  s.memIssue (.st h a b m e) fun t =>
    { sp := m.sp, size := m.ty.width / 8 * n, wr := true, strict := m.ord != .relaxed, ord := m.ord, scope := m.scope, se := (MemSd e).isSome
      addr := memAddr s t m.sp a (MemOff e), op := fun f => .store (s.dataBytes t f m.ty n b), sd := fun f => s.sdOf t f (MemSd e)
      srcs := fun f => [rawOpnd s t.p t.g f (m.sp == .g) a, rawOpnd s t.p t.g f m.ty.is64 b] }

/-- The operand code of an atomic: an inline constant of a float type is its exact value (02 R29). -/
def atomOperand (s : State) (t : Turn) (f : Fibre) (ty : Ty) (b : Opnd) : DWord :=
  w64 (if ty.isFloat then readF s t.p t.g f ty (.op b) else readU s t.p t.g f ty (.op b))

def execAtom (h : Head) (d a b : Opnd) (m : MemMod) (e : MemExt) (s : State) : Out :=
  let i := Instr.atom h d a b m e
  let aop := MemMod.aop m
  s.memIssue i fun t =>
    { sp := m.sp, size := m.ty.width / 8, wr := true, strict := true, ord := m.ord, scope := m.scope, se := (MemSd e).isSome
      addr := memAddr s t m.sp a (MemOff e), op := fun f => .atom aop m.ty (atomOperand s t f m.ty b)
      dest := fun f => if m.nr then [] else s.destOf t.p f d (if m.ty.is64 then 2 else 1), sd := fun f => s.sdOf t f (MemSd e)
      srcs := fun f => [rawOpnd s t.p t.g f (m.sp == .g) a, rawOpnd s t.p t.g f m.ty.is64 b] }

def execAtomcas (h : Head) (d a b c : Opnd) (m : MemMod) (off : Word) (se : Bool) (sd : Opnd) (s : State) : Out :=
  let i := Instr.atomcas h d a b c m off se sd
  s.memIssue i fun t =>
    { sp := m.sp, size := m.ty.width / 8, wr := true, strict := true, ord := m.ord, scope := m.scope, se := se
      addr := memAddr s t m.sp a off.toInt
      op := fun f => .cas m.ty (w64 (readU s t.p t.g f m.ty (.op b))) (w64 (readU s t.p t.g f m.ty (.op c)))
      dest := fun f => s.destOf t.p f d (if m.ty.is64 then 2 else 1), sd := fun f => if se then s.sdOf t f (some sd) else none
      srcs := fun f => [rawOpnd s t.p t.g f (m.sp == .g) a, rawOpnd s t.p t.g f m.ty.is64 b, rawOpnd s t.p t.g f m.ty.is64 c] }

/-- `pref` (10 R217): no register, no access, no fault; caches are timing only (08 R185). -/
def execPref (h : Head) (a : Opnd) (m : MemMod) (off : Option Word) (s : State) : Out :=
  s.issueNext (.pref h a m off) fun _ => s

/-- `cflush` and `cinval` of `n` bytes at `x` (10 R218): of their first byte the form, and the range register of a local one; pages elsewhere are
skipped, and what a read may return does not change. -/
def State.cacheTry (s : State) (t : Turn) (i : Instr) (x : DWord) (n : Nat) : Issued :=
  let rank := fld x 62 46
  let fault := fun k => Issued.fault (t.faultLog i (checkClass k) [x, w64 n] x) s
  let here := !x.getLsbD 63 || rank == rankSelf || rank == t.p.rank
  let mapped := (s.ctx? (s.accessCtx t.p t.g.level .g)).any fun c => c.inRange (fld x 45 0)
  if n = 0 then .go s
  else if !x.getLsbD 63 && rank != 0 then fault 1
  else if here && !mapped then fault 6
  else .go s

def State.cacheForm (s : State) (i : Instr) (a b : Opnd) : Out :=
  s.issue i fun t =>
    match supplier t.ms with
    | none => .next s
    | some f => .next (s.conclude t i (s.cacheTry t i (read64 s t.p t.g f (.op a)) (read32 s t.p t.g f (.op b))))

def execCflush (h : Head) (a b : Opnd) (level : Nat) (s : State) : Out := s.cacheForm (.cflush h a b level) a b
def execCinval (h : Head) (a b : Opnd) (level : Nat) (s : State) : Out := s.cacheForm (.cinval h a b level) a b

/-- `fence` (10 R224, 09 R194, R197). -/
def execFence (h : Head) (ord : Ord) (scope : Scope) (s : State) : Out :=
  let i := Instr.fence h ord scope
  s.issue i fun t =>
    let acq := ordAcquires ord
    let rel := ordReleases ord
    if !(s.pendingFaults t.uid t.g).isEmpty then .next (s.takePending t.uid t.gid t.pc)
    else if (acq && s.openReads t.uid t.g) || (rel && !s.covered t) then .next (s.holdAgain t.uid t.gid)
    else
      let s := if ordSequential ord then s.scFences t scope t.ms else s
      let mark := fun (f : Fibre) =>
        { f with view := if ord == .acq || ord == .ar then f.base.acquire t.p.rank (fibreIssuer t.p f) scope f.lastRel else f.view
                 relNext := if ord == .rel || ord == .ar then some scope else f.relNext }
      .next ((t.ms.foldl (fun (s : State) f => s.onFibre t.uid f.fid mark) s).advance t.uid t.gid i.raw)

/-- What a view knows of some writes. -/
def View.ofWrites (v : View) (ws : List Past) : View := (ws.filter fun w => decide (w.stamp ≤ v.bound w.lo w.old.length)).map Past.fact

/-- What all fibres of a gang know of one kind. -/
def Turn.seen (t : Turn) (f : Fibre → View) : View := t.ms.foldl (fun v m => View.join v (f m)) []

/-- The writes an `xfence` orders, by writing class (09 R200). A store of another device's fibre is a core-path access of that fibre too (09 R188). -/
def State.xfenceWrites (s : State) (t : Turn) (a : PathClass) : View :=
  let seen := t.seen fun f => f.cntSeen.foldl (fun v e => if e.1 == a then View.join v e.2 else v) ([] : View)
  match a with
  | .core => View.join ((t.p.viewOf t.ms).ofWrites (s.past.filter fun w => w.src.cls == .core && !w.src.isHost)) seen
  | .mill => View.join (t.seen (·.millSeen)) seen
  | .port => View.join (t.seen (·.portSeen)) seen
  | _ => seen

/-- `xfence` (10 R225, 09 R200). -/
def execXfence (h : Head) (a b : PathClass) (s : State) : Out :=
  let i := Instr.xfence h a b
  s.issue i fun t =>
    if a == b then .next (s.advance t.uid t.gid i.raw)
    else if a == .core && !(s.pendingFaults t.uid t.g).isEmpty then .next (s.takePending t.uid t.gid t.pc)
    else if a == .core && !s.covered t then .next (s.holdAgain t.uid t.gid)
    else
      let v := s.xfenceWrites t a
      let s : State := match b with
        | .core => t.ms.foldl (fun (s : State) f => s.onFibre t.uid f.fid fun f => f.know v) s
        | .mill => s.onParty t.uid fun p => { p with millView := View.join p.millView v }
        | .port => s.onParty t.uid fun p => { p with portView := View.join p.portView v }
        | .ol => s.onCore t.p.core fun k => { k with olView := View.join k.olView v }
        | .fab => s.onTables fun x => { x with inbound := View.join x.inbound v }
        | .rsv _ => s
      .next (s.advance t.uid t.gid i.raw)

end Sys2Proof.Machine
end

