-- ==== Sys2Proof/Machine/Fetch.lean ====
section
/-!
DEFINITION. Fetching an instruction (16 R425, 02 R24, R35, R38): a lane merges gangs at its boundaries, chooses one, and fetches for it
through the range registers and the walker; an Outrider fetches by the same rule (06 R137). What is fetched is latched for the
same step's decoding.
-/

namespace Sys2Proof.Machine

/-- The words that an instruction at `o` of its fetch block can have: its first word tells its length. -/
def fetchLen (word0 : List Byte) : Nat := lenBytes ((leNat word0) % 4)

/-- What a fetch meets. -/
inductive FetchEnd
  | bytes (bs : List Byte)
  | split (bs : List Byte)
  | noRange
  | poison
  | fault (f : XFault)
  | stall
  deriving DecidableEq, Repr

/-- Fetch at a virtual address whose offset in the code is `pc`; the words are as they stood at the party's placement or later (log 65), and the walk sees
what `walks` knows besides. -/
def State.fetchAt (s : State) (ctx : Nat) (va : Nat) (pc : Word) (v : View) (born : Nat) (walks : View := []) : FetchEnd × State :=
  match s.ctx? ctx with
  | none => (.noRange, s)
  | some c =>
    if !c.inRange va then (.noRange, s) else
    match s.translate c (va / 2 ^ 40) (va % 2 ^ 40) .fetch none (View.join v walks) with
    | (.fault f, s) => (.fault f, s)
    | (.stall, s) => (.stall, s)
    | (.peer _ _ _, s) => (.fault .perm, s)
    | (.loc l _ _, s) =>
      if s.poisonIn l 4 then (.poison, s) else
      let v : View := ⟨l, 16, born⟩ :: v
      let (w, s) := s.readRange v [(l, 4)]
      let n := fetchLen w
      let o := pc.toNat % 32
      if 32 < o + n then (.split w, s)
      else if s.poisonIn l n then (.poison, s)
      else
        let (rest, s) := s.readRange v (wordUnits (l + 4) (n - 4))
        (.bytes (w ++ rest), s)

/-- The log entry of a fetch that fails (16 R425). -/
def fetchLog (pc : Word) (cls sub : Nat) (va : Nat) : LogEntry :=
  { issueLog (Raw.ofNat 0) pc cls sub (w64 va) with replay := false }

/-- A gang's fetch. -/
def State.fetchGang (s : State) (p : Party) (g : Gang) : State :=
  let pc := p.pcOf g
  let code := if g.level then s.sys.scode else p.code
  let ctx := if g.level then s.sys.sctx else p.ctx
  let va := (code + pc.zeroExtend 64).toNat
  let fault := fun (s : State) cls sub => s.fetchFault p.uid g.gid pc (fetchLog pc cls sub va)
  match s.fetchAt ctx va pc p.known p.born g.walkView with
  | (.bytes bs, s) => { s.onGang p.uid g.gid fun g => { g with walkView := [] } with latch := some (.gang p.uid g.gid, bs), agent := .gang p.uid g.gid }
  | (.split bs, s) => s.encodingTrap p.uid g.gid .fetchSplit (Raw.ofBytes bs)
  | (.noRange, s) => fault s 0x0A 0
  | (.poison, s) => fault s 0x11 1
  | (.stall, s) => s.holdAgain p.uid g.gid
  | (.fault f, s) =>
    match s.ctx? ctx with
    | none => fault s 0x0E f.code
    | some c =>
      match s.holdFault c (va / 2 ^ 40) (va % 2 ^ 40) f 3 false c.rank (fun e => { e with fetches := e.fetches ++ [g.gid] }) with
      | (some tok, s) => s.hold p.uid g.gid (.held tok)
      | (none, s) => fault s 0x0E XFault.destBusy.code

/-- An Outrider's fetch: any failure stops it (16 R425). -/
def State.fetchOutrider (s : State) (c : CoreRef) : State :=
  let o := (s.core c).outrider
  match s.party? o.uid with
  | none => s
  | some p =>
    let va := (p.code + o.opc.zeroExtend 64).toNat
    match s.fetchAt p.ctx va o.opc (View.join p.known (s.core c).olView) p.born with
    | (.bytes bs, s) => { s with latch := some (.outrider c, bs), agent := .outrider c }
    | (.split _, s) => s.olFault c .fetchSplit
    | (.stall, s) => s
    | (_, s) => s.olFault c .fetch (w64 va)

/-- INSTRUCTION_FETCH (16 R425): what is latched is decoded and runs in the same step. -/
def execInstructionFetch (f : Fetcher) (s : State) : Out :=
  let s := { s with latch := none, agent := .none }
  match f with
  | .lane l =>
    let s := s.mergeLane l
    match s.chooseGang l with
    | none => .next s
    | some (p, g) => .next (s.fetchGang p g)
  | .outrider c =>
    let o := (s.core c).outrider
    let ended := (s.party? o.uid).any fun p => p.ended || p.halted || p.suspended
    if o.running && !o.waiting && !ended && !s.unitBlocked (unitKey c 3) then .next (s.fetchOutrider c) else .next s

end Sys2Proof.Machine
end

