-- ==== Sys2Proof/Machine/Engine.lean ====
section
/-!
DEFINITION. What the Mill and the Porter share: futures (07 R163 to R165), the address checks at start (07 R148), reading and writing
memory on an engine's path with pages that fault and other devices that answer (07 R146, R162, 13 R284, 09 R189), and who waits for
a queue entry (12 R263).
-/

namespace Sys2Proof.Machine

/-! ### Futures (07 R163 to R165) -/

def Engine.code : Engine → Nat
  | .mill => 0 | .porter => 1

/-- A handle (07 R164). -/
def handleOf (e : Engine) (idx : Nat) (gen : BitVec 8) : Word := w32 (Engine.code e * 2 ^ 14 + gen.toNat * 2 ^ 6 + idx)

/-- STATE codes of a status word (07 R164). -/
def futPending : Nat := 0
def futDone : Nat := 1
def futFaulted : Nat := 2
def futCancelled : Nat := 3
def futStale : Nat := 4

def Future.stateCode (f : Future) : Nat :=
  match f.state with
  | .free | .pending => futPending
  | .done => futDone
  | .faulted => futFaulted

def statusWord (st cause : Nat) (poison : Bool) : Word := w32 (b2n poison * 2 ^ 16 + cause * 2 ^ 8 + st)
def Future.word (f : Future) : Word := statusWord f.stateCode f.cause f.poison

def Party.future (p : Party) (i : Nat) : Future := sget {} p.futures i
def Party.setFuture (p : Party) (i : Nat) (f : Future) : Party := { p with futures := sset {} p.futures i f }
/-- Consuming an entry frees it and advances its GEN. -/
def Party.consume (p : Party) (i : Nat) : Party := p.setFuture i { gen := (p.future i).gen + 1 }
def Party.freeFuture (p : Party) : Option Nat := (List.range 64).find? fun i => (p.future i).state == .free

/-- The gangs that wait in `fwait` on an entry, first issued first, with their destination. -/
def Party.fwaiters (p : Party) (i : Nat) : List (Gang × Nat) :=
  let ws := p.gangs.filterMap fun g => match g.wait with
    | some (.future j d) => if j == i then some (g, d) else none
    | _ => none
  (sortBy (fun k => ((ws.getD k ({ gid := 0, crew := 0, number := none, fibres := [], sregs := [] }, 0)).1.ready)) (List.range ws.length)).filterMap
    fun k => ws[k]?

/-- The raw form of a waiting instruction: `fwait` is 64 bits long (07 R165). -/
def raw64 : Raw := Raw.ofNat 1

/-- Change every fibre of a gang. -/
def Party.onMembers (p : Party) (gid : Nat) (f : Fibre → Fibre) : Party :=
  match p.gang? gid with
  | none => p
  | some g => { p with fibres := p.fibres.map fun m => if g.fibres.contains m.fid then f m else m }
def State.onMembers (s : State) (uid gid : Nat) (f : Fibre → Fibre) : State := s.onParty uid fun p => p.onMembers gid f

/-- What a gang's fibres see when it obtains a status (09 R200). -/
def State.seeStatus (s : State) (uid gid : Nat) (f : Future) : State :=
  s.onMembers uid gid fun m => match f.engine with
    | .mill => { m with millSeen := View.join m.millSeen f.view }
    | .porter => { m with portSeen := View.join m.portSeen f.view }

/-- Owe a waiting gang its status word and let it go on. -/
def State.giveStatus (s : State) (uid gid d : Nat) (w : Word) : State :=
  match s.party? uid with
  | none => s
  | some p => match p.gang? gid with
    | none => s
    | some g => (s.waitResult p g raw64 [.s d] (.done [w] 0)).endWait uid gid raw64

/-- All waiters of an entry: the first takes the status and the others STALE. -/
def State.serveWaiters (s : State) (uid : Nat) (f : Future) : List (Gang × Nat) → State
  | [] => s
  | (g, d) :: ws =>
    let s := (s.seeStatus uid g.gid f).giveStatus uid g.gid d f.word
    ws.foldl (fun s x => s.giveStatus uid x.1.gid x.2 (statusWord futStale 0 false)) s

/-- A command resolves its future (07 R163, R165). -/
def State.resolveFuture (s : State) (uid i : Nat) (cause : Nat) (poison : Bool) (view : View) : State :=
  match s.party? uid with
  | none => s
  | some p =>
    let f : Future := { p.future i with state := if cause = 0 then .done else .faulted, cause := cause, poison := poison, view := view }
    let ws := p.fwaiters i
    if !ws.isEmpty then (s.serveWaiters uid f ws).onParty uid (·.consume i)
    else if (p.future i).drop then s.onParty uid (·.consume i)
    else s.onParty uid (·.setFuture i f)

/-! ### Addresses of engine commands (07 R148, 08 R173, R174) -/

/-- SPACE codes of blocks and records. -/
def engineSpace : Nat → Space
  | 0 => .s | 1 => .c | 2 => .n | 3 => .g | 4 => .k | n => .rsv n

/-- Cut a range of virtual addresses of 46 bits at pages; `f` is where each lies. -/
def cutVas (f : Nat → Nat) (va len : Nat) : List Part := (cutPages (len / 65536 + 2) va len).map fun q => partAt (f (q.va % 2 ^ 46)) q.len

/-- The parts of an extent, or none where a check at start fails: form, rank, segment, right to write, range register. An address of a space other
than `.g` has bits [63:32] zero (08 R173). -/
def State.engineParts (s : State) (p : Party) (sp : Space) (addr len : Nat) (wr : Bool) : Option (List Part) × State :=
  let lim := fun k => (p.segLim.getD k 0).toNat
  let base := fun k => (p.segBase.getD k 0).toNat
  let cuts := fun va => cutPages (len / 65536 + 2) va len
  let local_ := fun va => if decide (va + len ≤ 2 ^ 46) && (s.ctx? p.ctx).any fun c => (cutVas id va len).all fun q => c.inRange q.va then some (cutVas id va len) else none
  if sp != .g && decide (2 ^ 32 ≤ addr) then (none, s) else
  match sp with
  | .s => (if addr + len ≤ lim 0 then some (cuts (vaOfLoc (locScratch p.core (base 0 + addr)))) else none, s)
  | .c =>
    let core : CoreRef := ⟨p.core.die, companyOf p.core.core * 16 + addr / 2 ^ 20⟩
    (if addr < 2 ^ 24 ∧ addr % 2 ^ 20 + len ≤ lim 1 then some (cuts (vaOfLoc (locScratch core (base 1 + addr % 2 ^ 20)))) else none, s)
  | .n => (if addr + len ≤ lim 2 then some (cuts (vaOfLoc (locNear p.core.die (base 2 + addr)))) else none, s)
  | .k => (if addr + len ≤ lim 4 ∧ wr = false then local_ (base 4 + addr) else none, s)
  | .g =>
    let x := w64 addr
    let va := fld x 45 0
    let rank := fld x 62 46
    let seg := decide (fld (p.segBase.getD 3 0) 45 0 ≤ va ∧ va + len ≤ fld (p.segBase.getD 3 0) 45 0 + lim 3)
    if !x.getLsbD 63 && rank != 0 then (none, s)
    else if !seg then (none, s)
    else if !x.getLsbD 63 || rank == rankSelf || rank == p.rank then (local_ va, s)
    else
      let (held, s) := match s.ctx? p.ctx with
        | some c => s.rankOk c p.rank rank
        | none => (false, s)
      (if held && decide (va + len ≤ 2 ^ 46) then some (cutVas (vaOfRemote rank) va len) else none, s)
  | .f | .rsv _ => (none, s)

/-- The parts of several extents, each checked. -/
def State.engineAll (s : State) (p : Party) (sp : Space) (wr : Bool) : List (Nat × Nat) → Option (List (List Part)) × State
  | [] => (some [], s)
  | (a, n) :: es =>
    match s.engineParts p sp a n wr with
    | (none, s) => (none, s)
    | (some ps, s) => match s.engineAll p sp wr es with
      | (none, s) => (none, s)
      | (some qs, s) => (some (ps :: qs), s)

/-! ### Pieces at other devices -/

/-- An engine's issuer on its own path (09 R188). -/
def engineIssuer (cls : PathClass) (p : Party) (c : CoreRef) : Issuer := { cls := cls, uid := p.uid, core := c }

/-- The owner of the pieces an engine sends to other devices: no fibre index reaches it. Such an item's `gid` is the command and its
`insn` the piece. -/
def engineFid : Nat := 4097

def State.enginePiece (s : State) (id key : Nat) : Option Access :=
  s.flight.find? fun a => a.gid == id && a.insn == key && a.fid == some engineFid

/-- The owner of what the command processor sends to other devices: no party has this name. -/
def commandUid : Nat := 2 ^ 70

/-- Who sends a piece: an engine on its own path, or the command processor. -/
def State.pieceIssuer (s : State) (p : Party) (id : Nat) : Issuer :=
  if p.uid = commandUid then { cls := .fab }
  else engineIssuer (if (s.core p.core).xfers.any fun x => x.cmd.id == id then .port else .mill) p p.core

/-- Send one piece: a packet that awaits its response (10 R223). -/
def State.sendPiece (s : State) (p : Party) (id key : Nat) (q : Part) (op : PktOp) (count : Option Nat) (unit : Nat := 0) : State :=
  match q.place with
  | .remote r g o hops =>
    let (aid, s) := s.fresh
    let a : Access :=
      { id := aid, insn := key, uid := p.uid, gid := id, fid := some engineFid, fibs := [engineFid], crew := 0, ctx := p.ctx, pc := 0, raw := raw64
        op := .load .b8 q.len, sp := .g, addr := w64 q.va, parts := [q], dest := [], sd := none, se := false, ord := .relaxed
        scope := .sys, srcs := [], stage := .sent s.deadline, limit := max s.sys.rdeadline 1250 }
    let job := ((s.ctx? p.ctx).bind (·.job)).getD 0
    let s := s.emit (.packet r { job := job, init := p.rank, hops := hops, region := g, offset := o, op := op, count := count
                                 target := if count.isSome && hops != 0 then some p.rank else none, unit := unit
                                 tag := aid * 16, scope := .sys, src := s.pieceIssuer p id })
    ({ s with flight := s.flight ++ [a] } : State).countParty p.uid 0x0E 1
  | _ => s

/-- Forget a command's pieces. -/
def State.dropPieces (s : State) (id : Nat) : State :=
  ({ s with flight := s.flight.filter fun a => !(a.gid == id && a.fid == some engineFid) } : State).onTables fun t =>
    { t with touches := t.touches.filter fun k => k.1 != id, resumed := t.resumed.filter fun e => e.1 != (65, id) }

/-- The name of a piece: where it lies. -/
def Part.key (q : Part) : Nat := q.va * 2 ^ 17 + q.len

/-- Whether a command waits for the supervisor's answer to a page fault. -/
def State.engineHeld (s : State) (id : Nat) : Bool := s.tables.pending.any fun e => e.engines.contains id

/-- What stops a piece for good: a page its supervisor refused, or another device's answer (07 R162, 13 R301). -/
inductive PieceEnd | ok | wait | memory (cls : Nat) | timeout
  deriving DecidableEq, Repr

/-- What the walks of an access resumed by the supervisor see (14 R325). -/
def State.resumedView (s : State) (k : Nat × Nat) : View := s.tables.resumed.foldl (fun v e => if e.1 == k then View.join v e.2 else v) []

/-- An access waits for the answer to a held fault: an engine's command, or what `who` names of the command processor's. -/
def Pending.joined (id : Nat) (who : Option (Nat × Nat)) (e : Pending) : Pending :=
  match who with
  | none => { e with engines := if e.engines.contains id then e.engines else e.engines ++ [id] }
  | some k => { e with queues := if e.queues.contains k then e.queues else e.queues ++ [k] }

/-- It waits in this entry for the supervisor's answer. -/
def Pending.holds (id : Nat) (who : Option (Nat × Nat)) (e : Pending) : Bool :=
  match who with
  | none => e.engines.contains id
  | some k => e.queues.contains k

/-- Find the place of one part, on behalf of command `id`; `refused` are the pages whose faults were refused. Looked for again, it counts on a MIGRATE
page once (15 R345). While it waits for the answer to the page's fault nothing walks for it (14 R323, log 38). -/
def State.locatePart (s : State) (p : Party) (id acc : Nat) (refused : List (Nat × Nat)) (k : AccKind) (v : View) (q : Part)
    (who : Option (Nat × Nat) := none) : Part × PieceEnd × State :=
  if q.place ≠ .todo then (q, .ok, s) else
  match s.ctx? p.ctx with
  | none => (q, .memory XFault.noContext.code, s)
  | some c =>
    let region := q.va / 2 ^ 40
    let off := q.va % 2 ^ 40
    if s.tables.pending.any fun e => e.ctx == c.num && e.region == region && e.page == c.pageOf region off && e.holds id who then (q, .wait, s) else
    match s.translate c region off k none (View.join v (s.resumedView (who.getD (65, id)))) (some acc) (s.tables.touches.contains (id, q.key)) with
    | (.loc l w r, s) => ({ q with place := .loc l w r }, .ok, s)
    | (.peer r g o, s) =>
      let mark := fun (t : Tables) => if t.touches.contains (id, q.key) then t else { t with touches := (id, q.key) :: t.touches }
      ({ q with place := .remote r g o 1 }, .ok, s.onTables mark)
    | (.stall, s) => (q, .wait, s)
    | (.fault f, s) =>
      match refused.find? fun x => x.1 == region * 2 ^ 24 + c.pageOf region off with
      | some x => (q, .memory x.2, s)
      | none =>
        match s.holdFault c region off f acc false c.rank (Pending.joined id who) with
        | (some _, s) => (q, .wait, s)
        | (none, s) => (q, .memory XFault.destBusy.code, s)

/-- Bring one part's bytes within reach for a read: another device is asked for what it holds, in atomic units of `unit` bytes (09 R189). -/
def State.fetchPart (s : State) (p : Party) (id acc unit : Nat) (refused : List (Nat × Nat)) (v : View) (q : Part)
    (who : Option (Nat × Nat) := none) : Part × PieceEnd × State :=
  match s.locatePart p id acc refused .read v q who with
  | (q, .ok, s) =>
    if q.isRemote then
      match s.enginePiece id q.key with
      | none => (q, .wait, s.sendPiece p id q.key q (.read q.len) none unit)
      | some a => match a.stage with
        | .ready => ((a.parts.head?).getD q, .ok, s)
        | .refused cls sub => (q, if cls == 0x10 then .timeout else .memory sub, s)
        | _ => (q, .wait, s)
    else (q, .ok, s)
  | r => r

/-- Bring all parts within reach. -/
def State.fetchParts (s : State) (p : Party) (id acc unit : Nat) (refused : List (Nat × Nat)) (v : View) (qs : List Part)
    (who : Option (Nat × Nat) := none) : List (Part × PieceEnd) × State :=
  match qs with
  | [] => ([], s)
  | q :: qs =>
    let (q, e, s) := s.fetchPart p id acc unit refused v q who
    let (qs, s) := s.fetchParts p id acc unit refused v qs who
    ((q, e) :: qs, s)

/-- Bring several extents within reach. -/
def State.fetchAll (s : State) (p : Party) (id acc unit : Nat) (refused : List (Nat × Nat)) (v : View) : List (List Part) →
    List (List (Part × PieceEnd)) × State
  | [] => ([], s)
  | e :: es =>
    let (x, s) := s.fetchParts p id acc unit refused v e
    let (xs, s) := s.fetchAll p id acc unit refused v es
    (x :: xs, s)

def anyWait (ps : List (Part × PieceEnd)) : Bool := ps.any fun x => x.2 == .wait

/-- The first failure of some parts. -/
def firstFail (ps : List (Part × PieceEnd)) : Option PieceEnd := (ps.find? fun x => x.2 != .ok && x.2 != .wait).map (·.2)

/-- Read a located part: its bytes with their poison, in units of an element (09 R189); a replicated page gives its present bytes (09 R206). -/
def State.readPart (s : State) (v : View) (unit : Nat) (q : Part) : List (Byte × Bool) × State :=
  match q.place with
  | .loc l _ repl =>
    let v : View := if repl.isSome then ⟨l, q.len, s.stamp⟩ :: v else v
    let units := (List.range (ceilDiv q.len unit)).map fun j => (l + j * unit, min unit (q.len - j * unit))
    let (bs, s) := s.readRange v units
    (bs.mapIdx fun i b => (b, s.poisonAt (l + i)), s)
  | .got bs st => (bs.map fun b => (b, st == 1), s)
  | _ => (List.replicate q.len (0, false), s)

def State.readAll (s : State) (v : View) (unit : Nat) : List Part → List (Byte × Bool) × State
  | [] => ([], s)
  | q :: qs =>
    let (a, s) := s.readPart v unit q
    let (b, s) := s.readAll v unit qs
    (a ++ b, s)

/-- The place of what lies k bytes on. -/
def Place.shift (p : Place) (k : Nat) : Place :=
  match p with
  | .loc l w r => .loc (l + k) w r
  | .remote r g o h => .remote r g (o + k) h
  | x => x

/-- Aligned 64-byte units of an engine write that lie in a part (09 R189). -/
def cutUnits : Nat → Part → List Part
  | 0, _ => []
  | fuel + 1, q =>
    if q.len = 0 then [] else
    let n := min q.len (64 - q.va % 64)
    ⟨q.va, n, q.place⟩ :: cutUnits fuel ⟨q.va + n, q.len - n, q.place.shift n⟩

/-- The units of a Porter read: whole 64-byte units, else words (09 R189). -/
def portUnits (l n : Nat) : List (Nat × Nat) :=
  (cutUnits (n / 64 + 2) ⟨l, n, .todo⟩).flatMap fun q => if q.len = 64 then [(q.va, 64)] else wordUnits q.va q.len

/-- Write one unit at a location on an engine's path: poisoned data poison it (08 R187). -/
def State.storeUnit (s : State) (src : Issuer) (v : View) (l : Nat) (w : Option Nat) (repl : Option (Nat × Nat))
    (bs : List (Byte × Bool)) : State :=
  let (lost, s) := s.store src v [] none l w repl (bs.map (·.1))
  if !lost && bs.any (·.2) then s.taint l bs.length else s

/-! ### Requests for queue entries (12 R263) -/

def EngineReq.engine : EngineReq → Engine
  | .port _ => .porter
  | .mill _ => .mill
  | .gang e _ _ _ => e

/-- A member of a chain that it does not head. -/
def Mill.isMember (m : Mill) : Bool := m.link.any fun l => l.pos != 0

/-- Another context's command: at a member of a chain it waits until the chain unlinks, and only then takes the owner check (07 R160). -/
def Mill.foreign (m : Mill) (ctx : Nat) : Bool := m.owner.any (· != ctx)

/-- A request that may take an entry once one is free. A restored command waits while another context owns the Mill, and then until the supervisor
has returned; a post that is being made takes the owner check when an entry is free (07 R160, R168, log 30). -/
def Core.admits (k : Core) : EngineReq → Bool
  | .mill cmd => if k.outrider.post == some cmd.id then !(k.mill.foreign cmd.ctx && k.mill.isMember) else !k.mill.foreign cmd.ctx && !k.barred
  | .port _ | .gang _ _ _ _ => true

/-- The requests that wait for an engine of a core and may be granted, in order: none of a party goes ahead of a restored command of its own. -/
def State.engineLine (s : State) (c : CoreRef) (e : Engine) : List EngineReq :=
  let k := s.core c
  let rs := k.waiting.filter fun r => EngineReq.engine r == e
  (rs.zipIdx.filter fun x => k.admits x.1 && !(rs.take x.2).any fun q => EngineReq.uid q == EngineReq.uid x.1 && !k.admits q).map (·.1)

/-- Whether a new request of a party must wait behind others. -/
def State.engineWaits (s : State) (c : CoreRef) (e : Engine) (uid : Nat) : Bool :=
  !(s.engineLine c e).isEmpty || (s.core c).waiting.any fun r => EngineReq.engine r == e && EngineReq.uid r == uid

/-- A restored party goes on once its saved entries are in their queues, or wait for another context's Mill alone (12 R266, log 30). -/
def State.resumeIn (s : State) (uid : Nat) : State :=
  match s.party? uid with
  | none => s
  | some p =>
    let k := s.core p.core
    if !p.returning || k.waiting.any (fun r => EngineReq.uid r == uid && k.admits r) then s
    else s.onParty uid fun p => { p with suspended := false, returning := false, gangs := p.gangs.map fun g => { g with ready := s.clock.toNat } }

/-- A gang begins to wait for an entry, keeping its place if it waits already. -/
def State.awaitEntry (s : State) (c : CoreRef) (e : Engine) (uid gid : Nat) (i : Instr) : State :=
  let r := EngineReq.gang e uid gid i
  let s := if (s.core c).waiting.contains r then s else s.onCore c fun k => { k with waiting := k.waiting ++ [r] }
  s.hold uid gid (.engine e)

/-- Take a gang's request out of the waiting list. -/
def State.unawait (s : State) (c : CoreRef) (uid gid : Nat) : State :=
  s.onCore c fun k => { k with waiting := k.waiting.filter fun r => match r with
    | .gang _ u g _ => !(u == uid && g == gid)
    | _ => true }

/-- The writes of a crew so far: an engine's parameter-block read follows them (07 R144). -/
def State.crewView (s : State) (uid crew : Nat) : View :=
  (s.past.filter fun w => w.src.cls == .core && w.src.remote.isNone && w.src.uid == uid && w.src.crew == crew).map Past.fact

/-- A crew's stores that are still queued: a command that it issues now reads its block after them (07 R144). -/
def Party.queuedStores (p : Party) (crew : Nat) : List Nat := ((p.crew? crew).map fun c => c.storeq.flatten).getD []

/-- One of the stores that a command follows has still to write bytes of a range it reads at start. -/
def State.owes (s : State) (owed : List Nat) (l n : Nat) : Bool :=
  s.flight.any fun a => owed.contains a.id && a.open_ && !a.aside && a.parts.any fun q => match q.place with
    | .loc m _ _ => rangesMeet m q.len l n
    | _ => false

/-- The place of a request among those of its clk (12 R263): by higher class, then by lane; the Outrider is lane 16. -/
def requestPlace (cls lane : Nat) : Nat := (4 - cls) * 32 + lane

/-- Results of a command's instruction: the outstanding items it owes get their words. -/
def State.supply (s : State) (insn : Nat) (uid : Nat) (ws : Access → List Word) : State :=
  let give := fun (a : Access) =>
    if a.insn == insn && a.uid == uid && a.op.isLater then { a with stage := .done (ws a) 0 } else a
  { s with flight := s.flight.map give }

end Sys2Proof.Machine
end

