-- ==== Sys2Proof/Machine/Mill.lean ====
section
/-!
DEFINITION. The Mill (07, 11): accepting a command (R143, R168), its start (R144, R145, R148), the summation order of R151, the epilogue
of R154, reuse slots and delta invocations (11 R227 to R247), chains (R159), and how a command ends (R162).
-/

namespace Sys2Proof.Machine

/-! ### Acceptance (07 R143, R168, 12 R263) -/

/-- What a Mill instruction gives back: a future's handle, nothing, words to its D when it runs, or a tile row to every fibre. -/
inductive MillRes | handle | none | words (n : Nat) | rows
  deriving DecidableEq, Repr

structure MillForm where
  op   : MillOp
  res  : MillRes
  d    : Opnd
  size : Nat := 0
  off  : Nat := 0
  deriving DecidableEq, Repr

/-- The form of an instruction of group 0xA or 0xB, with the value of its operand A. -/
def millFormOf (i : Instr) (a : Nat) : Option MillForm :=
  let h := fun nh => if nh then MillRes.none else .handle
  match i with
  | .mload _ t d _ nh => some { op := .load t a, res := h nh, d := d, size := 32, off := a }
  | .mswap _ d nh => some { op := .swap, res := h nh, d := d }
  | .mrun _ t d _ nh => some { op := .run t a, res := h nh, d := d, size := 32, off := a }
  | .mchainLink _ d nh len => some { op := .link len, res := h nh, d := d }
  | .mchainJoin _ d _ nh => some { op := .join a, res := h nh, d := d }
  | .mchainUnlink _ d nh => some { op := .unlink, res := h nh, d := d }
  | .mepi _ t d _ nh => some { op := .epi t a, res := h nh, d := d, size := 48, off := a }
  | .maccz _ d nh mask => some { op := .zero mask, res := h nh, d := d }
  | .maccrd _ d _ acc mem => some { op := .read acc mem (a % 128), res := .rows, d := d }
  | .mdelta _ t d _ nh => some { op := .delta t a, res := h nh, d := d, size := 32, off := a }
  | .slotbind _ d _ => some { op := .bind a, res := .words 1, d := d, size := 16, off := a }
  | .slotdrop _ d _ => some { op := .drop a, res := .words 1, d := d }
  | .slotq _ d _ => some { op := .query a, res := .words 4, d := d }
  | _ => none

/-- Operand A of a Mill instruction. -/
def millOperand : Instr → Option Src
  | .mload _ _ _ a _ | .mrun _ _ _ a _ | .mepi _ _ _ a _ | .mdelta _ _ _ a _ => some a
  | .slotbind _ _ a | .slotdrop _ _ a | .slotq _ _ a => some a
  | .mchainJoin _ _ a _ | .maccrd _ _ a _ _ => some (.op a)
  | _ => none

/-- A 32-bit uniform operand of a gang-wide form. -/
def uniform32 (s : State) (t : Turn) (x : Src) : Nat := ((supplier t.ms).map fun f => read32 s t.p t.g f x).getD 0
def uniform64 (s : State) (t : Turn) (x : Src) : DWord := ((supplier t.ms).map fun f => read64 s t.p t.g f x).getD 0

/-- The outstanding results of an accepted instruction that runs later: its item, with the gang slot it is for. -/
def State.oweLater (s : State) (t : Turn) (i : Instr) (insn : Nat) (fid : Option Nat) (slot : Nat) (dest : List DestReg) : State :=
  let (a, s) := s.newAccess t i insn fid (.later slot) dest
  { s with flight := s.flight ++ [a] }

/-- The results an accepted command will give: words to s registers, or a tile row to every fibre, whose destinations are `rows`. -/
def State.oweResults (s : State) (t : Turn) (i : Instr) (insn : Nat) (f : MillForm) (rows : Fibre → List DestReg) : State :=
  match f.res with
  | .words n => match supplier t.ms with
    | some f0 => s.oweLater t i insn none 0 (s.destOf t.p f0 f.d n)
    | none => s
  | .rows => t.ms.zipIdx.foldl (fun s' g => s'.oweLater t i insn (some g.1.fid) g.2 (rows g.1)) s
  | _ => s

/-- Accept a command: its future, its handle, its queue entry and the Mill's owner. -/
def State.millAccept (s : State) (i : Instr) (t : Turn) (f : MillForm) (rows : Fibre → List DestReg) : State :=
  let (insn, s) := s.fresh
  let (id, s) := s.fresh
  let idx := if f.res == .handle then t.p.freeFuture else none
  let s := match idx with
    | some k =>
      let e := t.p.future k
      let s := s.onParty t.uid fun p => p.setFuture k { gen := e.gen, state := .pending, engine := .mill }
      match supplier t.ms with
      | some f0 => s.owe t i insn none (s.destOf t.p f0 f.d 1) [handleOf .mill k e.gen]
      | none => s
    | none => s.oweResults t i insn f rows
  let item := match f.res with
    | .words _ | .rows => some insn
    | _ => none
  let cmd : MillCmd := { id := id, op := f.op, uid := t.uid, ctx := t.p.ctx, future := idx, item := item
                         seen := s.crewView t.uid t.g.crew, owed := t.p.queuedStores t.g.crew, view := t.seen (·.engView) }
  s.onMill t.p.core fun m => { m with queue := m.queue ++ [cmd], owner := some (m.owner.getD t.p.ctx) }

/-- The block-offset check of step 2 (07 R143): the fault class, or 0. -/
def blockCheck (p : Party) (f : MillForm) : Nat :=
  if f.size = 0 then 0 else if f.off % 16 ≠ 0 then 0x07
  else if (p.segLim.getD 0 0).toNat < f.off + f.size then 0x05 else 0

/-- The log entry of a Mill form that faults at issue (16 R354), with the blocks a tile row would go to. -/
def State.millLog (s : State) (i : Instr) (t : Turn) (f : MillForm) (cls sub : Nat) : LogEntry :=
  let a := match f.op with
    | .read _ _ r => r
    | .join h => h
    | .drop n | .query n => n
    | _ => f.off
  let addr := if f.size = 0 then 0 else w64 f.off
  let gens := fun (m : Fibre) => if f.res == .rows then blockRefs (s.destOf t.p m f.d 4) else []
  issueLog i.raw t.pc cls sub addr 0 (.reissue i [w64 a]) (t.ms.map fun m => ⟨m.fid, [w64 a], addr, gens m⟩)

/-- The Mill takes no command of a context now. -/
def Mill.full (m : Mill) : Bool := m.spilling.isSome || decide (16 ≤ m.queue.length)

/-- Steps 2 to 5 of 07 R143; `granted` when an entry has been granted. What it answers is whether the command was accepted. -/
def State.millTry (s : State) (i : Instr) (t : Turn) (f : MillForm) (granted : Bool) : Bool × State :=
  let m := (s.core t.p.core).mill
  let fault := fun (s : State) cls sub => (false, (s.unawait t.p.core t.uid t.gid).faultAt t.uid t.gid (nextPc t.pc i.raw)
    (s.millLog i t f cls sub))
  let line := Contest.engine t.p.core .mill
  let place := requestPlace t.g.effective t.g.crew
  if blockCheck t.p f ≠ 0 then fault s (blockCheck t.p f) 0
  else if m.foreign t.p.ctx then
    if m.isMember then (false, (s.unawait t.p.core t.uid t.gid).holdAgain t.uid t.gid) else fault s 0x0D (m.owner.getD 0)
  else if !granted && s.overtaken line place then (false, s.holdAgain t.uid t.gid)
  else if m.full || (!granted && s.engineWaits t.p.core .mill t.uid) then
    (false, (s.serve line place).awaitEntry t.p.core .mill t.uid t.gid i)
  else if f.res == .handle && t.p.freeFuture.isNone then
    (false, ((s.unawait t.p.core t.uid t.gid).hold t.uid t.gid (.futureFull s.changes)).deadlocks t.uid t.g.crew)
  else (true, ((s.serve line place).unawait t.p.core t.uid t.gid).millAccept i t f fun m => s.destOf t.p m f.d 4)

/-- Issue a Mill command. -/
def State.millIssue (s : State) (i : Instr) : Out :=
  s.issue i fun t =>
    match millFormOf i (((millOperand i).map (uniform32 s t)).getD 0) with
    | none => .next s
    | some f =>
      let (ok, s) := s.millTry i t f false
      .next (if ok then s.advance t.uid t.gid i.raw else s)

def execMload (h : Head) (t : Ty) (d : Opnd) (a : Src) (nh : Bool) (s : State) : Out := s.millIssue (.mload h t d a nh)
def execMswap (h : Head) (d : Opnd) (nh : Bool) (s : State) : Out := s.millIssue (.mswap h d nh)
def execMrun (h : Head) (t : Ty) (d : Opnd) (a : Src) (nh : Bool) (s : State) : Out := s.millIssue (.mrun h t d a nh)
def execMchainLink (h : Head) (d : Opnd) (nh : Bool) (len : Nat) (s : State) : Out := s.millIssue (.mchainLink h d nh len)
def execMchainJoin (h : Head) (d a : Opnd) (nh : Bool) (s : State) : Out := s.millIssue (.mchainJoin h d a nh)
def execMchainUnlink (h : Head) (d : Opnd) (nh : Bool) (s : State) : Out := s.millIssue (.mchainUnlink h d nh)
def execMepi (h : Head) (t : Ty) (d : Opnd) (a : Src) (nh : Bool) (s : State) : Out := s.millIssue (.mepi h t d a nh)
def execMaccz (h : Head) (d : Opnd) (nh : Bool) (mask : Nat) (s : State) : Out := s.millIssue (.maccz h d nh mask)
def execMaccrd (h : Head) (d a : Opnd) (acc mem : Nat) (s : State) : Out := s.millIssue (.maccrd h d a acc mem)
def execMdelta (h : Head) (t : Ty) (d : Opnd) (a : Src) (nh : Bool) (s : State) : Out := s.millIssue (.mdelta h t d a nh)
def execSlotbind (h : Head) (d : Opnd) (a : Src) (s : State) : Out := s.millIssue (.slotbind h d a)
def execSlotdrop (h : Head) (d : Opnd) (a : Src) (s : State) : Out := s.millIssue (.slotdrop h d a)
def execSlotq (h : Head) (d : Opnd) (a : Src) (s : State) : Out := s.millIssue (.slotq h d a)

/-! ### Formats (07 R140, R142, R150, R153) -/

/-- Bits of one stored element. -/
def millBits : Ty → Nat
  | .mxe4m3 | .e4m3 | .e5m2 | .i8 => 8
  | .mxe2m1 | .e2m1 => 4
  | .f16 | .bf16 => 16
  | .f64 => 64
  | _ => 32
def isMx : Ty → Bool
  | .mxe4m3 | .mxe2m1 => true
  | _ => false
def planeK : Ty → Nat
  | .f16 | .bf16 => 128
  | .mxe2m1 => 512
  | .f64 => 32
  | _ => 256
def planeN : Ty → Nat
  | .f64 => 32
  | _ => 128
/-- The chunk of 07 R140. -/
def planeChunk : Ty → Nat
  | .f16 | .bf16 => 16
  | _ => 32
/-- The pairs of 07 R150. -/
def millPairs (plane act : Ty) : Bool :=
  match plane with
  | .e4m3 | .e5m2 => act == .e4m3 || act == .e5m2
  | p => p == act
def runFmt : Ty → TileFmt
  | .i8 => .i32
  | .f64 => .f64
  | _ => .f32

/-- The exact value of an element code of a Mill type. -/
def millValue (t : Ty) (code : Nat) : XVal := if t == .i8 then .ofInt (tyVal .i8 code) else (fmtOf t).value code

/-! ### Members of a chain (07 R159, R160) -/

/-- The cores whose Mills a head drives, itself first. -/
def Mill.members (m : Mill) (c : CoreRef) : List CoreRef :=
  match m.link with
  | some l => if l.pos = 0 then (List.range l.len).map fun j => ⟨c.die, c.core + j⟩ else [c]
  | none => [c]

def Plane.code (p : Plane) (n k : Nat) : Nat := sget 0 p.data (n * 512 + k)
def Plane.isPoison (p : Plane) (n k : Nat) : Bool := p.poison.contains (n * 512 + k)
/-- The exact weight, its block scale included. -/
def Plane.weight (p : Plane) (t : Ty) (n k : Nat) : XVal :=
  let v := millValue t (p.code n k)
  if isMx t then xmul v (e8m0Value (sget 0 p.scale (n * 16 + k / 32))) else v

def Mill.tile (m : Mill) (a : Nat) : Tile := sget {} m.tiles a
def Mill.setTile (m : Mill) (a : Nat) (t : Tile) : Mill := { m with tiles := sset {} m.tiles a t }
/-- An element's code; a tile of no format reads as +0 (07 R142). -/
def Tile.code (t : Tile) (i n : Nat) : Nat := if t.fmt == .none then 0 else sget 0 t.data (i * 128 + n)
def Tile.isPoison (t : Tile) (i n : Nat) : Bool := t.poison.contains (i * 128 + n)
def Tile.put (t : Tile) (i n code : Nat) (p : Bool) : Tile :=
  let k := i * 128 + n
  { t with data := sset 0 t.data k code, poison := if p then natAdd t.poison k else natDel t.poison k }

/-! ### The end of a command (07 R162) -/

/-- The units of a core by their keys. -/
def MillUnit.key : MillUnit → Nat
  | .loading => 0
  | .streaming => 1

/-- A permit returns to the Outrider's pool (12 R270). -/
def State.returnPermit (s : State) (c : CoreRef) (uid : Nat) (e : Engine) : State :=
  s.onOutrider c fun o => if o.uid != uid then o else match e with
    | .mill => { o with mill := { o.mill with out := o.mill.out - 1 } }
    | .porter => { o with port := { o.port with out := o.port.out - 1 } }

/-- A Mill command ends: its future, its permit, or the supervisor's record. -/
def State.millDone (s : State) (c : CoreRef) (u : MillUnit) (cmd : MillCmd) (cause : Nat) (poison : Bool) (view : View) : State :=
  let s := s.dropPieces cmd.id
  let s := s.onMill c fun m => { m with view := View.join m.view view }
  let s := if cmd.posted then s.returnPermit c cmd.uid .mill else s
  match cmd.future with
  | some i => s.resolveFuture cmd.uid i cause poison view
  | none =>
    if cause = 0 then s else match s.party? cmd.uid with
      | some p => s.event (unitKey c (MillUnit.key u)) 0 0x30 cause p.source
      | none => s

/-- A running command ends: its unit is free. -/
def State.millEnd (s : State) (c : CoreRef) (u : MillUnit) (cmd : MillCmd) (cause : Nat) (poison : Bool) (view : View) : State :=
  (s.onMill c fun m => match u with
    | .loading => { m with loading := none }
    | .streaming => { m with streaming := none }).millDone c u cmd cause poison view

/-! ### Blocks -/

/-- Fields of a block's word. -/
def blkField (b : List Byte) (off hi lo : Nat) : Nat := bits (leAt b off 4) hi lo
def blkKind (b : List Byte) : Nat := blkField b 0 31 28
def blkSpace (b : List Byte) : Nat := blkField b 0 27 25

/-- What a start finds: a cause, or the extents the command will touch with the right they need. -/
inductive StartEnd
  | fault (cause : Nat)
  | go (sp : Space) (reads writes : List (Nat × Nat))
  deriving DecidableEq, Repr

/-- Bytes that `n` elements take. -/
def elemBytes (t : Ty) (n : Nat) : Nat := ceilDiv (n * millBits t) 8

structure LoadBlock where
  sp : Nat
  kn : Nat
  k0 : Nat
  stride : Nat
  addr : Nat
  saddr : Nat
  sstride : Nat
  deriving DecidableEq, Repr

def loadBlock (b : List Byte) : LoadBlock :=
  ⟨blkSpace b, blkField b 0 24 16 + 1, blkField b 0 15 7, leAt b 4 4, leAt b 8 8, leAt b 16 8, leAt b 24 4⟩

/-- The columns and the scale columns that an `mload` over `l` members reads. -/
def LoadBlock.spans (x : LoadBlock) (t : Ty) (l : Nat) : List (Nat × Nat) × List (Nat × Nat) :=
  let cols := List.range (planeN t * l)
  (cols.map fun c => (x.addr + c * x.stride, elemBytes t x.kn),
   if isMx t then cols.map fun c => (x.saddr + c * x.sstride, x.kn / 32) else [])

/-- Checks of `mload` at start (07 R148, R149). A group of mx elements at a multiple of 16 is taken as it lies, here and in the other block forms: 05
R101 asks for 32 and names no outcome for less (DESIGN CHOICE, log 109). -/
def loadStart (t : Ty) (l : Nat) (b : List Byte) : StartEnd :=
  let x := loadBlock b
  let bad := blkKind b ≠ 1 ∨ blkField b 0 6 0 ≠ 0 ∨ leAt b 28 4 ≠ 0 ∨ 4 < x.sp ∨ x.addr % 16 ≠ 0 ∨ x.stride % 16 ≠ 0 ∨
    planeK t < x.k0 + x.kn ∨ (isMx t ∧ (x.k0 % 32 ≠ 0 ∨ x.kn % 32 ≠ 0 ∨ x.saddr % 16 ≠ 0 ∨ x.sstride % 16 ≠ 0)) ∨
    (isMx t = false ∧ (x.saddr ≠ 0 ∨ x.sstride ≠ 0))
  if bad then .fault 1 else
  let (a, c) := x.spans t l
  .go (engineSpace x.sp) (a ++ c) []

structure RunBlock where
  sp : Nat
  sparse : Bool
  zero : Bool
  acc : Nat
  klen : Nat
  m : Nat
  stride : Nat
  addr : Nat
  saddr : Nat
  maddr : Nat
  deriving DecidableEq, Repr

def runBlock (b : List Byte) : RunBlock :=
  ⟨blkSpace b, bit (leAt b 0 4) 19, bit (leAt b 0 4) 18, blkField b 0 17 16, blkField b 0 15 7 + 1, blkField b 0 6 0 + 1,
   leAt b 4 4, leAt b 8 8, leAt b 16 8, leAt b 24 8⟩

def RunBlock.rowSpan (x : RunBlock) (t : Ty) (i : Nat) : Nat × Nat := (x.addr + i * x.stride, elemBytes t x.klen)
def RunBlock.scaleSpan (x : RunBlock) (i : Nat) : Nat × Nat := (x.saddr + i * (x.klen / 32), x.klen / 32)
def RunBlock.metaSpan (x : RunBlock) (i : Nat) : Nat × Nat := (x.maddr + 4 * i * ceilDiv x.klen 32, 4 * ceilDiv x.klen 32)

def RunBlock.spans (x : RunBlock) (t : Ty) : List (Nat × Nat) :=
  let rows := List.range x.m
  rows.map (x.rowSpan t) ++ (if isMx t then rows.map x.scaleSpan else []) ++ (if x.sparse then rows.map x.metaSpan else [])

/-- Checks of `mrun` at start (07 R148, R150). -/
def runStart (t : Ty) (ms : List Mill) (b : List Byte) : StartEnd :=
  let x := runBlock b
  let tooLong := ms.any fun m => m.active.fmt.any fun f => decide (planeK f < x.klen)
  let bad := blkKind b ≠ 2 ∨ blkField b 0 24 20 ≠ 0 ∨ 4 < x.sp ∨ x.addr % 16 ≠ 0 ∨ x.stride % 16 ≠ 0 ∨ x.maddr % 16 ≠ 0 ∨ tooLong ∨
    (isMx t ∧ (x.klen % 32 ≠ 0 ∨ x.saddr % 16 ≠ 0)) ∨ (isMx t = false ∧ x.saddr ≠ 0) ∨ (x.sparse = false ∧ x.maddr ≠ 0)
  if bad then .fault 1
  else if ms.any fun m => !(m.active.fmt.any fun f => millPairs f t) ||
      (!x.zero && (m.tile x.acc).fmt != .none && (m.tile x.acc).fmt != runFmt t) then .fault 2
  else .go (engineSpace x.sp) (x.spans t) []

structure EpiBlock where
  sp : Nat
  m : Nat
  act : Nat
  clr : Bool
  satf : Bool
  rnd : Nat
  bias : Bool
  acc : Nat
  stride : Nat
  daddr : Nat
  boff : Nat
  rslot : Nat
  lo : Nat
  hi : Nat
  scaddr : Nat
  deriving DecidableEq, Repr

def epiBlock (b : List Byte) : EpiBlock :=
  ⟨blkSpace b, blkField b 0 22 16 + 1, blkField b 0 15 13, bit (leAt b 0 4) 12, bit (leAt b 0 4) 11, blkField b 0 10 8, bit (leAt b 0 4) 7,
   blkField b 0 1 0, leAt b 4 4, leAt b 8 8, leAt b 16 4, leAt b 20 2, leAt b 24 4, leAt b 28 4, leAt b 32 8⟩

/-- Result types and activations by tile format (07 R153). -/
def epiAccepts (f : TileFmt) (t : Ty) (act : Nat) : Bool :=
  match f with
  | .f32 | .none => (match t with
      | .f32 | .f16 | .bf16 | .e4m3 | .e5m2 | .mxe4m3 | .mxe2m1 | .i8 => true
      | _ => false) && decide (act ≤ 4)
  | .i32 => (t == .i32 || t == .i8 || t == .f32) && decide (act ≤ 2)
  | .f64 => (t == .f64 || t == .f32) && decide (act ≤ 2)

def tileN : TileFmt → Nat
  | .f64 => 32
  | _ => 128

/-- What is refused of where a retirement goes, under the `$route` it reads (07 R148, R154, R155). -/
def EpiBlock.refused (x : EpiBlock) (t : Ty) (route : DWord) (past : Bool) : Bool :=
  if route.getLsbD 63 then isMx t || past else decide (3 < x.sp ∨ x.daddr % 16 ≠ 0 ∨ x.stride % 16 ≠ 0)

/-- Where the rows of member j of `l` go when they are not routed. -/
def EpiBlock.rowSpan (x : EpiBlock) (t : Ty) (n j i : Nat) : Nat × Nat := (x.daddr + i * x.stride + elemBytes t (n * j), elemBytes t n)
def EpiBlock.scaleSpan (x : EpiBlock) (n l j i : Nat) : Nat × Nat := (x.scaddr + i * (n * l / 32) + n * j / 32, n / 32)

/-- A routed tile (07 R155): the global address of row i of member j. -/
def routeSpan (route : DWord) (x : EpiBlock) (t : Ty) (n j i : Nat) : Nat × Nat :=
  (2 ^ 63 + fld route 62 46 * 2 ^ 46 + fld route 45 40 * 2 ^ 40 + fld route 39 12 * 4096 + (x.rslot + j) * 65536 + i * elemBytes t n, elemBytes t n)
def routeOver (route : DWord) (x : EpiBlock) (t : Ty) (n l : Nat) : Bool :=
  decide (2 ^ 40 < fld route 39 12 * 4096 + (x.rslot + (l - 1)) * 65536 + x.m * elemBytes t n)

/-- The extents that member j's tile goes to: its rows, then their scales. -/
def EpiBlock.spans (x : EpiBlock) (t : Ty) (route : DWord) (n l j : Nat) : List (Nat × Nat) :=
  if route.getLsbD 63 then (List.range x.m).map (routeSpan route x t n j)
  else (List.range x.m).map (x.rowSpan t n j) ++ (if isMx t then (List.range x.m).map (x.scaleSpan n l j) else [])

/-- The space they lie in. -/
def EpiBlock.space (x : EpiBlock) (route : DWord) : Space := if route.getLsbD 63 then .g else engineSpace x.sp

/-- Checks of `mepi` at start (07 R148, R153 to R155). Every member's tile must take the result type and be as wide as the head's, and the `$route` that
stands now is refused as those that the tiles will read are (DESIGN CHOICE, logs 110 and 43). -/
def epiStart (t : Ty) (ms : List Mill) (route : DWord) (b : List Byte) : StartEnd :=
  let x := epiBlock b
  let f := ((ms.head?).map fun m => (m.tile x.acc).fmt).getD .none
  let n := tileN f
  let l := ms.length
  let fl := ms.any fun m => (m.tile x.acc).fmt != .i32
  let bad := blkKind b ≠ 4 ∨ blkField b 0 24 23 ≠ 0 ∨ blkField b 0 6 2 ≠ 0 ∨ leAt b 22 2 ≠ 0 ∨ leAt b 40 8 ≠ 0 ∨ 4 < x.act ∨ 3 < x.rnd ∨
    x.refused t route (routeOver route x t n l) ∨ (x.bias = false ∧ x.boff ≠ 0) ∨
    (x.satf ∧ (t == .f32 || t == .i32 || t == .f64 || (t == .i8 && fl))) ∨
    (isMx t ∧ x.scaddr % 16 ≠ 0) ∨ (isMx t = false ∧ x.scaddr ≠ 0)
  if bad then .fault 1
  else if ms.any fun m => !epiAccepts (m.tile x.acc).fmt t x.act || tileN (m.tile x.acc).fmt != n then .fault 2
  else .go (x.space route) [] ((List.range l).flatMap (x.spans t route n l))

/-- The bias vector (07 R153). -/
def EpiBlock.biasSpan (x : EpiBlock) (f : TileFmt) (l : Nat) : List (Nat × Nat) :=
  if x.bias then [(x.boff, tileN f * l * (if f == .f64 then 8 else 4))] else []

/-! ### Reuse slots (11) -/

structure DeltaBlock where
  sp : Nat
  force : Bool
  slot : Nat
  acc : Nat
  stride : Nat
  addr : Nat
  key : Nat
  deriving DecidableEq, Repr

def deltaBlock (b : List Byte) : DeltaBlock :=
  ⟨blkSpace b, bit (leAt b 0 4) 24, blkField b 0 23 18, blkField b 0 17 16, leAt b 4 4, leAt b 8 8, leAt b 16 4⟩

/-- The bound slot of a number of a context on a die (11 R227). -/
def State.slotAt (s : State) (die ctx n : Nat) : Option Slot := (s.die die).slots.find? fun x => x.ctx == ctx && x.slot == n

/-- Checks of `mdelta` at start, in order (11 R232); the slot's shape gives the input extent. -/
def deltaStart (t : Ty) (ms : List Mill) (slot : Option Slot) (segment : Slot → Bool) (b : List Byte) : StartEnd :=
  let x := deltaBlock b
  if blkKind b ≠ 5 ∨ blkField b 0 15 0 ≠ 0 ∨ leAt b 20 8 ≠ 0 ∨ leAt b 28 4 ≠ 0 ∨ 4 < x.sp ∨ x.addr % 16 ≠ 0 ∨ x.stride % 16 ≠ 0 then .fault 1
  else match slot with
    | none => .fault 1
    | some v =>
      if v.key.toNat ≠ x.key then .fault 1
      else if !segment v then .fault 5
      else if ms.any fun m => m.active.fmt.all fun f => f == .i8 || f == .f64 then .fault 2
      else if ms.any fun m => m.active.fmt.any fun f => decide (planeK f < v.klen ∨ (isMx f ∧ v.klen % 32 ≠ 0)) then .fault 1
      else if ms.any fun m => (m.tile x.acc).fmt != .none && (m.tile x.acc).fmt != .f32 then .fault 2
      else if !v.unchk && ms.any fun m => m.active.wgrp == 0xFFF || m.active.wgrp != v.wgrp then .fault 2
      else if ms.length ≠ v.l then .fault 4
      else .go (engineSpace x.sp) ((List.range v.m).map fun i => (x.addr + i * x.stride, elemBytes t v.klen)) []

/-- Units of 64 KiB a slot needs (11 R228). -/
def slotUnits (m klen l : Nat) : Nat := ceilDiv (m * klen * 4 + l * m * 128 * 4 + m * 16) 65536

/-- The lowest run of free units of a die's arena. -/
def Die.slotBase (d : Die) (n : Nat) : Option Nat :=
  (List.range (d.arenaSize * 32 + 1 - n)).find? fun b => !(d.slots.any fun x => decide (x.base < b + n ∧ b < x.base + x.size))

/-- STATUS codes (11 R244). -/
def bindOk : Nat := 0

/-- `slotbind` (11 R245): the status, and the new entry. -/
def bindSlot (d : Die) (ctx : Nat) (b : List Byte) : Nat × Option Slot :=
  let slot := blkField b 0 27 22
  let unchk := bit (leAt b 0 4) 21
  let k := blkField b 0 20 13
  let klen := blkField b 0 12 4 + 1
  let l := blkField b 4 8 7 + 1
  let m := blkField b 4 6 0 + 1
  let wgrp := blkField b 12 11 0
  if blkKind b ≠ 6 ∨ k = 0 ∨ blkField b 0 3 0 ≠ 0 ∨ blkField b 4 31 9 ≠ 0 ∨ blkField b 12 31 12 ≠ 0 ∨ (unchk ∧ wgrp ≠ 0xFFF) then (5, none)
  else if d.slots.any fun x => x.ctx == ctx && x.slot == slot then (1, none)
  else if 1024 ≤ d.slots.length ∨ d.arenaSize = 0 then (4, none)
  else match d.slotBase (slotUnits m klen l) with
    | none => (3, none)
    | some base =>
      (0, some { idx := lowestFree 1024 (d.slots.map (·.idx)), ctx := ctx, slot := slot, key := w32 (leAt b 8 4), wgrp := wgrp, unchk := unchk
                 k := k, m := m, klen := klen, l := l, base := base, size := slotUnits m klen l })

/-- The four words of `slotq` (11 R246). -/
def slotWords : Option Slot → List Word
  | none => [0, 0, 0, 0]
  | some x =>
    [w32 (2 ^ 31 + b2n x.filled * 2 ^ 30 + b2n x.pz * 2 ^ 29 + b2n x.unchk * 2 ^ 28 + b2n x.nf * 2 ^ 27 + x.last * 2 ^ 24 + x.cnt * 2 ^ 8 + x.k),
     x.key, w32 ((x.l - 1) * 2 ^ 28 + (x.m - 1) * 2 ^ 21 + (x.klen - 1) * 2 ^ 12 + x.wgrp), x.ver.setWidth 32]

def State.setSlot (s : State) (die : Nat) (x : Slot) : State :=
  s.onDie die fun d => { d with slots := d.slots.map fun y => if y.idx == x.idx then x else y }

/-- The slot number of a command that takes a slot. -/
def slotOfCmd (op : MillOp) (b : List Byte) : Option Nat :=
  match op with
  | .delta _ _ => some (deltaBlock b).slot
  | .drop n | .query n => some n
  | _ => none

/-- Whether another command of the die holds a slot. -/
def State.slotHeld (s : State) (die idx : Nat) : Bool :=
  (List.range 64).any fun k => ((s.core ⟨die, k⟩).mill.streaming.bind (·.slot)) == some idx

/-! ### Start (07 R144, R145, R148) -/

def MillOp.isLoad : MillOp → Bool
  | .load _ _ => true
  | _ => false
def MillOp.isSwap : MillOp → Bool
  | .swap => true
  | _ => false
def MillOp.isChain : MillOp → Bool
  | .link _ | .join _ | .unlink => true
  | _ => false
def MillOp.isEpi : MillOp → Bool
  | .epi _ _ => true
  | _ => false
def MillOp.blockAt : MillOp → Option (Nat × Nat)
  | .load _ o | .run _ o | .delta _ o => some (o, 32)
  | .epi _ o => some (o, 48)
  | .bind o => some (o, 16)
  | _ => none

/-- A command that is a barrier between the units: `mswap`, and `mchain`, which changes what the others drive (07 R145, R160). -/
def MillOp.isBarrier (o : MillOp) : Bool := o.isSwap || o.isChain

/-- The queue entry a unit would start now (07 R145): its position and the command. -/
def Mill.nextFor (m : Mill) (u : MillUnit) : Option (Nat × MillCmd) :=
  if m.isMember then none else
  match u with
  | .loading =>
    if m.loading.isSome || m.streaming.any fun r => r.cmd.op.isBarrier then none
    else
      let k := m.queue.findIdx fun c => c.op.isLoad || c.op.isBarrier
      match m.queue[k]? with
      | some c => if c.op.isLoad then some (k, c) else none
      | none => none
  | .streaming =>
    if m.streaming.isSome then none
    else
      let k := m.queue.findIdx fun c => !c.op.isLoad
      match m.queue[k]? with
      | some c => if c.op.isBarrier && (k != 0 || m.loading.isSome) then none else some (k, c)
      | none => none

/-- The commands of the other unit that are ahead of one and have not resolved when it starts. -/
def Mill.ahead (m : Mill) (u : MillUnit) (k : Nat) : List Nat :=
  let other := match u with
    | .loading => m.streaming.toList
    | .streaming => m.loading.toList
  (m.queue.take k).map (·.id) ++ other.map fun r => r.cmd.id

/-- An earlier `mepi` may write what an `mload` reads, or an earlier `mload` has still to read what an `mepi` writes: the later one resolves after it, so
that the effect is that of queue order (07 R145, R146). Where an `mepi` writes is known as each of its tiles begins: until the last has, a later `mload`
waits. -/
def Mill.mustFollow (m : Mill) (r : MillRun) : Bool :=
  let reads := fun (x : MillRun) => if x.cmd.op.isLoad then x.reads.flatten else []
  let writes := fun (x : MillRun) => if x.cmd.op.isEpi then (x.writes ++ x.dest).flatten else []
  let meet := fun (x : MillRun) (ps qs : List Part) => ps.any fun p => qs.any fun q => p.meets (x.cmd.ctx == r.cmd.ctx) q
  let unset := fun (x : MillRun) => x.cmd.op.isEpi && !(x.begun && decide (x.cores.length ≤ x.member + 1))
  let clash := fun (x : MillRun) => r.after.contains x.cmd.id &&
    ((r.cmd.op.isLoad && unset x) || meet x (reads r) (writes x) || meet x (writes r) (reads x))
  (m.queue.any fun c => r.after.contains c.id && ((r.cmd.op.isLoad && c.op.isEpi) || (r.cmd.op.isEpi && c.op.isLoad))) ||
    m.loading.any clash || m.streaming.any clash

/-- Chain checks at start (07 R159). -/
def chainStart (c : CoreRef) : MillOp → Bool
  | .link len => decide (c.core % 4 + len ≤ 4)
  | .join h => decide (4 * (c.core / 4) ≤ h ∧ h + 1 ≤ c.core)
  | _ => true

/-- The slot of a number that a command finds: none where it waited for that slot and another command dropped it (11 R247). -/
def State.slotFor (s : State) (die : Nat) (cmd : MillCmd) (n : Nat) : Option Slot :=
  if cmd.unbound == some n then none else s.slotAt die cmd.ctx n

/-- A command joins the line for a slot, and stands in no other. -/
def State.lineUp (s : State) (die id : Nat) (x : Slot) : State :=
  let s : State := { s with dies := s.dies.map fun d => { d with slots := d.slots.map fun y => if y.idx == x.idx then y else { y with waiting := y.waiting.filter (· != id) } } }
  s.setSlot die { x with waiting := if x.waiting.contains id then x.waiting else x.waiting ++ [id] }

/-- What a command's start finds, its block read. -/
def State.startOf (s : State) (c : CoreRef) (p : Party) (cmd : MillCmd) (b : List Byte) : StartEnd :=
  let ms := ((s.core c).mill.members c).map fun r => (s.core r).mill
  match cmd.op with
  | .load t _ => loadStart t ms.length b
  | .run t _ => runStart t ms b
  | .epi t _ => epiStart t ms p.route b
  | .delta t _ =>
    let x := deltaBlock b
    deltaStart t ms (s.slotFor c.die cmd x.slot) (fun v =>
      (List.range v.m).all fun i => (s.engineParts p (engineSpace x.sp) (x.addr + i * x.stride) (elemBytes t v.klen) false).1.isSome) b
  | op => if chainStart c op then .go .s [] [] else .fault 4

/-- The status with which a slot command answers a bad block. -/
def State.millStatus (s : State) (cmd : MillCmd) (ws : List Word) : State :=
  match cmd.item with
  | some insn => s.supply insn cmd.uid fun _ => ws
  | none => s

/-- A fault found at start (07 R162): the command leaves the queue and nothing changes. -/
def State.startFault (s : State) (c : CoreRef) (u : MillUnit) (cmd : MillCmd) (cause : Nat) (poison : Bool) : State :=
  let s := s.leaveSlots [cmd.id]
  match cmd.op with
  | .bind _ => (s.millStatus cmd [w32 (if poison then 6 else 5)]).millDone c u cmd 0 false []
  | _ => s.millDone c u cmd cause poison []

/-- Start the command a unit has next, unless it must wait: for its crew's stores to its block (07 R144), for the range scoreboard (08 R184) or for its
slot (11 R247). -/
def State.millStart (s : State) (c : CoreRef) (u : MillUnit) : State :=
  let m := (s.core c).mill
  if s.unitBlocked (unitKey c (MillUnit.key u)) then s else
  match m.nextFor u with
  | none => s
  | some (k, cmd) => match s.party? cmd.uid with
    | none => (s.leaveSlots [cmd.id]).onMill c fun m => { m with queue := m.queue.eraseIdx k }
    | some p =>
      let s0 := s.onMill c fun m => { m with queue := m.queue.eraseIdx k }
      match cmd.op.blockAt with
      | none => begin_ s s0 p k cmd []
      | some (off, n) =>
        if (p.segLim.getD 0 0).toNat < off + n then s0.startFault c u cmd 5 false
        else
          let l := locScratch c ((p.segBase.getD 0 0).toNat + off)
          let v := View.join (View.join (View.join p.known m.view) cmd.seen) (View.join cmd.view p.millView)
          if s.owes cmd.owed l n || p.scoreHit (partAt (vaOfLoc l) n) then s
          else if s.poisonIn l n then s0.startFault c u cmd 3 true
          else
            let (b, s') := s0.readRange v (wordUnits l n)
            begin_ s s' p k cmd b
where
  begin_ (s0 s : State) (p : Party) (k : Nat) (cmd : MillCmd) (b : List Byte) : State :=
    match s0.startOf c p cmd b with
    | .fault cause => s.startFault c u cmd cause false
    | .go sp reads writes =>
      let bias := match cmd.op with
        | .epi _ _ => (epiBlock b).biasSpan ((s0.core c).mill.tile (epiBlock b).acc).fmt ((s0.core c).mill.members c).length
        | _ => []
      match s.engineAll p sp false reads, s.engineAll p sp true writes, s.engineAll p .s false bias with
      | (some rs, s), (some ws, _), (some bs, _) =>
        if (rs ++ ws ++ bs).flatten.any p.scoreHit then s0
        else
          let slot := (slotOfCmd cmd.op b).bind (s0.slotFor c.die cmd)
          let m := (s0.core c).mill
          let r : MillRun := { cmd := { cmd with view := View.join cmd.view p.millView }, block := b, cores := m.members c, after := m.ahead u k
                               offered := (match cmd.op with | .join _ => true | _ => false), reads := rs, writes := ws, bias := bs }
          match slot with
          | none => run (s.leaveSlots [cmd.id]) r
          | some x =>
            if s0.slotHeld c.die x.idx || (x.waiting.headD cmd.id != cmd.id) then s0.lineUp c.die cmd.id x
            else run (s.leaveSlots [cmd.id]) { r with slot := some x.idx, pz := x.pz }
      | (_, s), _, _ => s.startFault c u cmd 5 false
  run (s : State) (r : MillRun) : State :=
    s.onMill c fun m => match u with
      | .loading => { m with loading := some r }
      | .streaming => { m with streaming := some r }

end Sys2Proof.Machine
end

