-- ==== Sys2Proof/Machine/MillRun.lean ====
section
/-!
DEFINITION. What Mill commands do (07 R149 to R160, 11 R233 to R247): each runs in the step that resolves it. A command whose data lie at
another device or on a page without a mapping stays until the answer is there.
-/

namespace Sys2Proof.Machine

/-! ### Elements -/

/-- Bytes with their poison. -/
abbrev Tagged := List (Byte × Bool)

/-- The elements of stored bytes (05 R101). -/
def elems (t : Ty) (bs : Tagged) : List (Nat × Bool) :=
  let w := millBits t
  (List.range (bs.length * 8 / w)).map fun i =>
    if w = 4 then (let b := bs.getD (i / 2) (0, false); (b.1.toNat / 2 ^ (4 * (i % 2)) % 16, b.2))
    else
      let c := (bs.drop (i * (w / 8))).take (w / 8)
      (leNat (c.map (·.1)), c.any (·.2))

/-- The stored form of element codes. -/
def packElems (t : Ty) (es : List (Nat × Bool)) : Tagged :=
  let w := millBits t
  if w = 4 then
    (List.range (es.length / 2)).map fun i =>
      let a := es.getD (2 * i) (0, false)
      let b := es.getD (2 * i + 1) (0, false)
      (BitVec.ofNat 8 (a.1 + 16 * b.1), a.2 || b.2)
  else es.flatMap fun e => (leBytes (w / 8) e.1).map fun b => (b, e.2)

/-- The unit in which a Mill reads a type (09 R189). -/
def elemUnit (t : Ty) : Nat := max 1 (millBits t / 8)

/-- A value that no rule gives: drawn afresh for each index. -/
def freeCode (draws idx w : Nat) : Nat := (Config.freeWord (draws + idx)).toNat % 2 ^ w

/-- The cause of a piece that failed (07 R162). -/
def PieceEnd.cause : PieceEnd → Nat
  | .timeout => 6
  | .ok | .wait => 0
  | .memory _ => 3

def causeOf (ps : List (Part × PieceEnd)) : Nat := ((firstFail ps).map PieceEnd.cause).getD 0

/-- What a Mill command's reads follow (07 R146, 09 R200, R201). -/
def State.millView (s : State) (c : CoreRef) (p : Party) (cmd : MillCmd) : View :=
  View.join (View.join p.known (s.core c).mill.view) cmd.view

/-- A slice of an extent. -/
def sliceParts : List Part → Nat → Nat → List Part
  | [], _, _ => []
  | q :: qs, off, len =>
    if len = 0 then []
    else if q.len ≤ off then sliceParts qs (off - q.len) len
    else
      let n := min len (q.len - off)
      let place := match q.place with
        | .loc l w r => Place.loc (l + off) w r
        | .remote r g o h => .remote r g (o + off) h
        | x => x
      ⟨q.va + off, n, place⟩ :: sliceParts qs 0 (len - n)

/-! ### `mload` (07 R149) -/

def Plane.put (p : Plane) (n k : Nat) (e : Nat × Bool) : Plane :=
  let i := n * 512 + k
  { p with data := sset 0 p.data i e.1, poison := if e.2 then natAdd p.poison i else natDel p.poison i }

def Plane.putCol (p : Plane) (n k : Nat) : List (Nat × Bool) → Plane
  | [] => p
  | e :: es => (p.put n k e).putCol n (k + 1) es

/-- A poisoned scale poisons its 32 elements. -/
def Plane.putScales (p : Plane) (n b : Nat) : Tagged → Plane
  | [] => p
  | e :: es =>
    let hit := if e.2 then (List.range 32).map (fun k => n * 512 + 32 * b + k) else []
    ({ p with scale := sset 0 p.scale (n * 16 + b) e.1.toNat, poison := hit.foldl natAdd p.poison } : Plane).putScales n (b + 1) es

/-- Rows outside [k0, k0 + kn) are cleared when the format changes. -/
def Plane.reform (p : Plane) (t : Ty) (k0 kn : Nat) : Plane :=
  if p.fmt = some t then p else
  let inside := fun i => decide (k0 ≤ i % 512 ∧ i % 512 < k0 + kn)
  { p with data := p.data.filter fun e => inside e.1
           scale := p.scale.filter fun e => decide (k0 ≤ e.1 % 16 * 32 ∧ e.1 % 16 * 32 < k0 + kn)
           poison := p.poison.filter inside }

/-- The weight group of the pages read: none unless all are weight pages of one group (07 R141, 11 R239). -/
def weightGroup (c : Context) (ps : List Part) : Option Nat :=
  match ps with
  | [] => none
  | q :: _ => match q.place with
    | .loc _ (some w) _ => if ps.all fun x => (match x.place with | .loc _ (some v) _ => v == w | _ => false) then some (w - c.vbase) else none
    | _ => none

/-- The loaded columns of one member's shadow plane. -/
def loadPlane (t : Ty) (x : LoadBlock) (cols : List Tagged) (scales : List Tagged) (p : Plane) : Plane :=
  let p := p.reform t x.k0 x.kn
  let p := (List.range (planeN t)).foldl (fun p n => p.putCol n x.k0 (elems t (cols.getD n []))) p
  if isMx t then (List.range (planeN t)).foldl (fun p n => p.putScales n (x.k0 / 32) (scales.getD n [])) p else p

/-- An element of a failed load is old or new (07 R149). -/
def blendPlane (draws : Nat) (t : Ty) (x : LoadBlock) (bad : Nat → Bool) (old new : Plane) : Plane :=
  let cells := (List.range (planeN t)).flatMap fun n => (List.range x.kn).map fun k => (n, x.k0 + k)
  let p := cells.foldl (fun (p : Plane) c =>
    if bad c.1 || Config.choice (draws + c.1 * 512 + c.2) % 2 == 0 then p
    else p.put c.1 c.2 (new.code c.1 c.2, new.isPoison c.1 c.2)) old
  { p with fmt := none, wgrp := 0xFFF }

/-- A command's page faults wait or have been refused: what `fetchAll` found. -/
def State.gather (s : State) (c : CoreRef) (p : Party) (r : MillRun) (unit : Nat) (es : List (List Part)) :
    List (List (Part × PieceEnd)) × State := s.fetchAll p r.cmd.id 4 unit r.refused (s.millView c p r.cmd) es

/-- Read extents that are within reach. -/
def State.readExtents (s : State) (v : View) (unit : Nat) : List (List (Part × PieceEnd)) → List Tagged × State
  | [] => ([], s)
  | e :: es =>
    let (b, s) := s.readAll v unit (e.map (·.1))
    let (bs, s) := s.readExtents v unit es
    (b :: bs, s)

def State.runLoad (s : State) (c : CoreRef) (u : MillUnit) (p : Party) (r : MillRun) (t : Ty) : State :=
  let x := loadBlock r.block
  let ms := r.cores
  let n := planeN t
  let total := n * ms.length
  let (got, s) := s.gather c p r (elemUnit t) r.reads
  if got.any anyWait then s else
  let v := s.millView c p r.cmd
  let (cols, s) := s.readExtents v (elemUnit t) (got.take total)
  let (scales, s) := s.readExtents v 1 (got.drop total)
  let cause := causeOf got.flatten
  let grp := (s.ctx? p.ctx).bind fun k => weightGroup k (got.flatten.map (·.1))
  let ver := match grp, s.ctx? p.ctx with
    | some g, some k => some (sget 0 s.tables.versions (k.vbase + g))
    | _, _ => none
  let failed := fun col => (got.getD col []).any (fun y => y.2 != .ok) || (isMx t && (got.getD (total + col) []).any fun y => y.2 != .ok)
  let new := fun j (m : Mill) => loadPlane t x ((cols.drop (n * j)).take n) ((scales.drop (n * j)).take n) m.shadow
  let put := fun (s : State) j core => s.onMill core fun m =>
    { m with shadow := if cause = 0 then { new j m with fmt := some t, wgrp := grp.getD 0xFFF, wver := ver.getD m.shadow.wver }
                       else blendPlane (s.draws + j * 65536) t x (fun k => failed (n * j + k)) m.shadow (new j m) }
  let s := ms.zipIdx.foldl (fun s e => put s e.2 e.1) s
  let s := if cause = 0 then s else { s with draws := s.draws + 65536 * ms.length }
  s.millEnd c u r.cmd cause ((cols ++ scales).any fun b => b.any (·.2)) []

/-! ### `mrun` (07 R150 to R152) -/

/-- Round to the tile's format: one FMA step or one chunk sum. -/
def roundF32 (x : XVal) : Nat := fmtF32.round .rne false x

/-- The exact sum of some products; +0 when there are none. -/
def exactSum (ps : List XVal) : XVal :=
  match ps with
  | [] => .fin false 0 0
  | q :: qs => qs.foldl (xadd .rne) q

/-- One row's inputs: the value and poison of each element that is present. -/
abbrev RowIn := List (Option (XVal × Bool))

/-- The chunks of a row against a column. -/
def chunkSums (ch : Nat) (row : RowIn) (w : Nat → XVal) : List XVal :=
  (List.range (ceilDiv row.length ch)).map fun c =>
    exactSum ((List.range ch).filterMap fun j => (row.getD (c * ch + j) none).map fun a => xmul a.1 (w (c * ch + j)))

/-- The new code of an F32 element: `acc` none is a first chunk without an old value. -/
def sumF32 (acc : Option Nat) (sums : List XVal) : Nat :=
  (sums.foldl (fun (a : Option Nat) s =>
    let r := roundF32 s
    some (match a with
      | none => r
      | some a => roundF32 (xadd .rne (fmtF32.value a) (fmtF32.value r)))) acc).getD 0

/-- A whole number's value. -/
def intOf : XVal → Int
  | .fin neg m e => if neg then -(m * 2 ^ e.toNat : Int) else m * 2 ^ e.toNat
  | _ => 0

def sumI32 (acc : Int) (sums : List XVal) : Nat := ((sums.foldl (fun a s => a + intOf s) acc) % 2 ^ 32).toNat

def sumF64 (acc : Nat) (row : RowIn) (w : Nat → XVal) : Nat :=
  row.zipIdx.foldl (fun a e => match e.1 with
    | none => a
    | some x => fmtF64.round .rne false (xadd .rne (xmul x.1 (w e.2)) (fmtF64.value a))) acc

/-- The new code of element (i, n) of a run (07 R151); `old` is none with ZERO. -/
def runCode (pt : Ty) (f : TileFmt) (old : Option Nat) (row : RowIn) (pl : Plane) (n : Nat) : Nat :=
  let w := pl.weight pt n
  match f with
  | .f64 => sumF64 (old.getD 0) row w
  | .i32 => sumI32 (tyVal .i32 (old.getD 0)) (chunkSums 32 row w)
  | _ => sumF32 old (chunkSums (planeChunk pt) row w)

def tileWidth : TileFmt → Nat
  | .f64 => 64
  | _ => 32

/-- One row of a run into a tile; a poisoned element's data are unpredictable (07 R142). -/
def runRow (draws : Nat) (pt : Ty) (f : TileFmt) (zero meta_ : Bool) (i : Nat) (row : RowIn) (pl : Plane) (old new : Tile) : Tile :=
  let rowBad := meta_ || row.any fun e => e.any (·.2)
  (List.range (tileN f)).foldl (fun (t : Tile) n =>
    let bad := rowBad || (!zero && old.isPoison i n) || (row.zipIdx.any fun e => e.1.isSome && pl.isPoison n e.2)
    t.put i n (if bad then freeCode draws (i * 128 + n) (tileWidth f)
               else runCode pt f (if zero then none else some (old.code i n)) row pl n) bad) new

/-- Elements of a row that are present, as runs of (first, length). -/
def presentRuns (pres : List Bool) : List (Nat × Nat) :=
  pres.zipIdx.foldl (fun rs e =>
    if e.1 then (match rs.getLast? with
      | some (a, n) => if a + n = e.2 then rs.dropLast ++ [(a, n + 1)] else rs ++ [(e.2, 1)]
      | none => [(e.2, 1)]) else rs) []

/-- The bytes of elements [a, a + n). -/
def elemSlice (t : Ty) (ps : List Part) (a n : Nat) : List Part :=
  let lo := a * millBits t / 8
  sliceParts ps lo (ceilDiv ((a + n) * millBits t) 8 - lo)

/-- The inputs of one row from what was read: codes of its present runs, and the scale bytes. -/
def rowInputs (t : Ty) (klen : Nat) (runs : List ((Nat × Nat) × Tagged)) (scales : Tagged) : RowIn :=
  (List.range klen).map fun k =>
    (runs.find? fun r => decide (r.1.1 ≤ k ∧ k < r.1.1 + r.1.2)).map fun r =>
      let skew := r.1.1 * millBits t % 8 / (millBits t)
      let e := (elems t r.2).getD (skew + (k - r.1.1)) (0, false)
      let v := millValue t e.1
      if isMx t then
        let sc := scales.getD (k / 32) (0, false)
        (xmul v (e8m0Value sc.1.toNat), e.2 || sc.2)
      else (v, e.2)

/-- One row of a run as read: its present runs and scales, or what stopped it. -/
structure RowRead where
  cause  : Nat
  wait   : Bool
  runs   : List ((Nat × Nat) × List (Part × PieceEnd))
  scales : List (Part × PieceEnd)
  mbad   : Bool
  deriving DecidableEq, Repr

/-- Bring the present runs of a row within reach. -/
def State.fetchRuns (s : State) (c : CoreRef) (p : Party) (r : MillRun) (t : Ty) (ps : List Part) : List (Nat × Nat) →
    List ((Nat × Nat) × List (Part × PieceEnd)) × State
  | [] => ([], s)
  | x :: xs =>
    let (e, s) := s.fetchParts p r.cmd.id 4 (elemUnit t) r.refused (s.millView c p r.cmd) (elemSlice t ps x.1 x.2)
    let (es, s) := s.fetchRuns c p r t ps xs
    ((x, e) :: es, s)

/-- Bring the rows of a run within reach: metadata first, since absent elements are not read. -/
def State.fetchRows (s : State) (c : CoreRef) (p : Party) (r : MillRun) (t : Ty) (x : RunBlock) : List Nat → List RowRead × State
  | [] => ([], s)
  | i :: is =>
    let v := s.millView c p r.cmd
    let at_ := fun k => r.reads.getD k []
    let scales := if isMx t then at_ (x.m + i) else []
    let metas := if x.sparse then at_ (x.m * (if isMx t then 2 else 1) + i) else []
    let (me, s) := s.fetchParts p r.cmd.id 4 4 r.refused v metas
    let (sc, s) := s.fetchParts p r.cmd.id 4 1 r.refused v scales
    let (row, s) : RowRead × State :=
      if anyWait me || (firstFail me).isSome then (⟨causeOf me, anyWait me, [], sc, false⟩, s)
      else
        let (mb, s) := s.readAll v 4 (me.map (·.1))
        let pres := (List.range x.klen).map fun k => !x.sparse || bit (mb.getD (k / 8) (0, false)).1.toNat (k % 8)
        let (rs, s) := s.fetchRuns c p r t (at_ i) (presentRuns pres)
        let all := sc ++ rs.flatMap (·.2)
        (⟨causeOf all, anyWait all, rs, sc, mb.any (·.2)⟩, s)
    let (rows, s) := s.fetchRows c p r t x is
    (row :: rows, s)

/-- Read the runs of a row. -/
def State.readRuns (s : State) (v : View) (unit : Nat) : List ((Nat × Nat) × List (Part × PieceEnd)) → List ((Nat × Nat) × Tagged) × State
  | [] => ([], s)
  | x :: xs =>
    let (b, s) := s.readAll v unit (x.2.map (·.1))
    let (bs, s) := s.readRuns v unit xs
    ((x.1, b) :: bs, s)

/-- Read the rows up to the first that failed. -/
def State.readRows (s : State) (c : CoreRef) (p : Party) (r : MillRun) (t : Ty) (klen : Nat) : List RowRead → List (RowIn × Bool) × State
  | [] => ([], s)
  | x :: xs =>
    if x.cause ≠ 0 then ([], s) else
    let v := s.millView c p r.cmd
    let (runs, s) := s.readRuns v (elemUnit t) x.runs
    let (sc, s) := s.readAll v 1 (x.scales.map (·.1))
    let (rows, s) := s.readRows c p r t klen xs
    ((rowInputs t klen runs sc, x.mbad) :: rows, s)

/-- A member's tile after a run of some rows. -/
def runTile (draws : Nat) (m : Mill) (t : Ty) (x : RunBlock) (rows : List (RowIn × Bool)) (whole : Bool) : Tile :=
  let f := runFmt t
  let old := m.tile x.acc
  let base : Tile := if x.zero && old.fmt != f && whole then {} else old
  let base : Tile := if old.fmt == .none then { base with data := [] } else base
  let t' := rows.zipIdx.foldl (fun (y : Tile) e => runRow draws ((m.active.fmt).getD t) f x.zero e.1.2 e.2 e.1.1 m.active old y) base
  { t' with fmt := if rows.isEmpty then old.fmt else f }

def State.runRun (s : State) (c : CoreRef) (u : MillUnit) (p : Party) (r : MillRun) (t : Ty) : State :=
  let x := runBlock r.block
  let (rs, s) := s.fetchRows c p r t x (List.range x.m)
  if rs.any (·.wait) then s else
  let cause := ((rs.find? fun y => y.cause != 0).map (·.cause)).getD 0
  let (rows, s) := s.readRows c p r t x.klen rs
  let ms := r.cores
  let d := s.draws
  let pois := ms.any fun k =>
    let o := (s.core k).mill.tile x.acc
    let n := runTile d (s.core k).mill t x rows (cause == 0)
    n.poison.any fun e => decide (e / 128 < rows.length) && (x.zero || !o.poison.contains e)
  let s := ms.zipIdx.foldl (fun s e => s.onMill e.1 fun m => m.setTile x.acc (runTile (d + 16384 * e.2) m t x rows (cause == 0))) s
  ({ s with draws := d + 16384 * ms.length } : State).millEnd c u r.cmd cause pois []

/-! ### `mepi` (07 R153 to R155) -/

/-- The activations whose exact result the Mill may round to either neighbour (07 R153): gelu by 1 / (1 + e^−2y), and silu. -/
def fixDiv (a b : Int) : Int := a * 2 ^ fixBits / b

/-- e^v of a fixed-point number, by repeated squaring of e^(v / 2^10). -/
def squareN : Nat → Int → Int
  | 0, x => x
  | n + 1, x => squareN n (fixMul x x)
def fixExpWide (v : Int) : Int := squareN 10 (fixExp (v / 2 ^ 10))

/-- x / (1 + e^−y) for |y| bounded; far from zero the quotient is x, or a tiny value of x's sign. -/
def logistic (x : Int) (y : Int) : XVal :=
  if 300 * 2 ^ fixBits < y then .fin (decide (x < 0)) (2 * x.natAbs - 1) (-(fixBits : Int) - 1)
  else if y < -300 * 2 ^ fixBits then .fin (decide (x < 0)) 1 (-1000)
  else
    let e := fixExpWide (-y)
    fixVal (fixDiv x (2 ^ fixBits + e))

/-- 0.79788456 and 0.044715 as fixed-point numbers. -/
def fixGeluA : Int := 79788456 * 2 ^ fixBits / 100000000
def fixGeluB : Int := 44715 * 2 ^ fixBits / 1000000

/-- An f32 above these bounds gives itself, or next to nothing. -/
def bigF32 (m : Nat) (e : Int) : Bool := decide (12 < e + (Nat.log2 m : Nat))

def geluVal : XVal → XVal
  | .fin neg m e =>
    if m = 0 then .fin neg 0 0
    else if bigF32 m e then (if neg then .fin true 1 (-1000) else .fin false (m * 2 ^ 64 - 1) (e - 64))
    else
      let x := toFix neg m e
      let y := 2 * fixMul fixGeluA (x + fixMul fixGeluB (fixMul x (fixMul x x)))
      logistic x y
  | .inf neg => if neg then .fin true 0 0 else .inf false
  | .nan => .nan

def siluVal : XVal → XVal
  | .fin neg m e =>
    if m = 0 then .fin neg 0 0
    else if bigF32 m e then (if neg then .fin true 1 (-1000) else .fin false (m * 2 ^ 64 - 1) (e - 64))
    else logistic (toFix neg m e) (toFix neg m e)
  | .inf neg => if neg then .fin true 0 0 else .inf false
  | .nan => .nan

/-- relu: +0 when x ≤ 0; NaN stays NaN. -/
def reluVal (x : XVal) : XVal := if x.isNan then .nan else if xcompare x (.ofInt 0) == some .gt then x else .fin false 0 0

/-- clamp: a NaN bound imposes none. -/
def clampVal (lo hi x : XVal) : XVal := if x.isNan then .nan else xminmax true (xminmax false x lo) hi

/-- A float activation (07 R153): the code of the tile's format. -/
def actFloat (f : Fmt) (act lo hi pick : Nat) (x : Nat) : Nat :=
  let v := f.value x
  match act with
  | 1 => f.round .rne false (reluVal v)
  | 2 => f.round .rne false (clampVal (fmtF32.value lo) (fmtF32.value hi) v)
  | 3 => f.choose (.near (geluVal v)) pick
  | 4 => f.choose (.near (siluVal v)) pick
  | _ => x

def actInt (act lo hi : Nat) (x : Int) : Int :=
  match act with
  | 1 => max 0 x
  | 2 => min (max x (tyVal .i32 lo)) (tyVal .i32 hi)
  | _ => x

/-- One element of the epilogue before the mx step: its exact value after bias and activation. -/
def epiValue (f : TileFmt) (x : EpiBlock) (pick code : Nat) (bias : Option Nat) : XVal :=
  match f with
  | .i32 =>
    let v := tyVal .i32 code
    let v := match bias with
      | some b => tyVal .i32 ((v + tyVal .i32 b) % 2 ^ 32).toNat
      | none => v
    .ofInt (actInt x.act x.lo x.hi v)
  | f =>
    let g := if f == .f64 then fmtF64 else fmtF32
    let c := match bias with
      | some b => g.round .rne false (xadd .rne (g.value code) (g.value b))
      | none => code
    g.value (actFloat g x.act x.lo x.hi pick c)

/-- The result code (07 R154). -/
def epiCode (f : TileFmt) (t : Ty) (x : EpiBlock) (v : XVal) : Nat :=
  let rnd := Rnd.ofCode x.rnd
  if f == .i32 then
    (match t with
     | .i32 => ((intOf v) % 2 ^ 32).toNat
     | .i8 => ((if x.satf then satTo .i8 (intOf v) else intOf v) % 2 ^ 8).toNat
     | _ => (fmtOf t).round rnd x.satf v)
  else if t == .i8 then ((toIntType .i8 rnd v) % 2 ^ 8).toNat
  else (fmtOf t).round rnd x.satf v

/-- One row of a member: its stored bytes and its scale bytes. -/
def epiRow (draws : Nat) (t : Ty) (x : EpiBlock) (tile : Tile) (bias : List (Nat × Bool)) (i : Nat) : Tagged × Tagged :=
  let f := tile.fmt
  let n := tileN f
  let vals := (List.range n).map fun k =>
    let b := if x.bias then some (bias.getD k (0, false)) else none
    (epiValue f x (Config.choice (draws + i * 128 + k)) (tile.code i k) (b.map (·.1)), tile.isPoison i k || b.any (·.2))
  if isMx t then
    let blocks := (List.range (n / 32)).map fun b =>
      let xs := (vals.drop (32 * b)).take 32
      let bad := xs.any (·.2)
      let (sc, es) := mxBlock (fmtOf t) (Rnd.ofCode x.rnd) (xs.map (·.1))
      (packElems t (es.map fun e => (e, bad)), (BitVec.ofNat 8 sc, bad))
    (blocks.flatMap (·.1), blocks.map (·.2))
  else (packElems t (vals.map fun v => (epiCode f t x v.1, v.2)), [])

/-- Locate every part of an extent for writing. -/
def State.locateParts (s : State) (p : Party) (r : MillRun) (v : View) : List Part → List (Part × PieceEnd) × State
  | [] => ([], s)
  | q :: qs =>
    let (q, e, s) := s.locatePart p r.cmd.id 4 r.refused .write v q
    let (qs, s) := s.locateParts p r v qs
    ((q, e) :: qs, s)

def State.locateAll (s : State) (p : Party) (r : MillRun) (v : View) : List (List Part) → List (List (Part × PieceEnd)) × State
  | [] => ([], s)
  | e :: es =>
    let (x, s) := s.locateParts p r v e
    let (xs, s) := s.locateAll p r v es
    (x :: xs, s)

/-- Store bytes to the located parts of an extent, unit by unit; after a failure each unit is written or not. -/
def State.storeUnits (s : State) (p : Party) (src : Issuer) (id : Nat) (v : View) (count : Option Nat) (free : Bool) :
    List Part → Tagged → View × State
  | [], _ => ([], s)
  | q :: qs, bs =>
    let now := bs.take q.len
    let (skip, s) := if free then s.draw 2 else (1, s)
    let (f, s) : View × State :=
      if skip = 0 then ([], s) else
      match q.place with
      | .loc l w repl =>
        let s := s.storeUnit src v l w (repl.map (·, q.va)) now
        let s := match count with
          | some n => s.countUp p.ctx n src .dev [⟨l, q.len, s.stamp⟩]
          | none => s
        ([⟨l, q.len, s.stamp⟩], s)
      | .remote _ _ _ _ => ([], s.sendPiece p id q.key q (.write (now.map (·.1)) (now.any (·.2))) count)
      | _ => ([], s)
    let (fs, s) := s.storeUnits p src id v count free qs (bs.drop q.len)
    (f ++ fs, s)

/-- Store the rows: those before the first that failed wholly, the others in part. -/
def State.storeRows (s : State) (p : Party) (src : Issuer) (r : MillRun) (v : View) : List (List (Part × PieceEnd) × Tagged) → Bool → View × State
  | [], _ => ([], s)
  | (e, bs) :: es, failed =>
    let failed := failed || (firstFail e).isSome
    let units := e.flatMap fun x => cutUnits (x.1.len / 64 + 2) x.1
    let (f, s) := s.storeUnits p src r.cmd.id v r.count failed units bs
    let (fs, s) := s.storeRows p src r v es failed
    (f ++ fs, s)

/-- The pieces of a command that another device has not answered, and the causes of those refused. -/
def State.pieces (s : State) (id : Nat) : List Access := s.flight.filter fun a => a.gid == id && a.fid == some engineFid
def Access.pieceCause (a : Access) : Nat :=
  match a.stage with
  | .refused cls _ => if cls == 0x10 then 6 else 3
  | _ => 0

def State.setRun (s : State) (c : CoreRef) (u : MillUnit) (f : MillRun → MillRun) : State :=
  s.onMill c fun m => match u with
    | .loading => { m with loading := m.loading.map f }
    | .streaming => { m with streaming := m.streaming.map f }

/-- The end of a retirement: once every piece is answered. -/
def State.epiFinish (s : State) (c : CoreRef) (u : MillUnit) (r : MillRun) : State :=
  let ps := s.pieces r.cmd.id
  if ps.any fun a => a.open_ && a.stage != .ready then s
  else
    let x := epiBlock r.block
    let cause := if r.fault ≠ 0 then r.fault else ((ps.map Access.pieceCause).find? (· != 0)).getD 0
    let s := if cause = 0 && x.clr then r.cores.foldl (fun (s : State) k => s.onMill k fun m => m.setTile x.acc {}) s else s
    s.millEnd c u r.cmd cause r.poison r.wrote

/-- What the beginning of a tile's retirement finds: a cause, a range held in the scoreboard, or where the tile goes. -/
inductive TileBegin
  | fault (cause : Nat)
  | wait
  | go (r : MillRun)
  deriving DecidableEq, Repr

/-- Member j's tile begins to retire: `$route` is read, and with it where its rows go (07 R155, 03 R68). -/
def State.beginTile (s : State) (p : Party) (r : MillRun) (t : Ty) (n : Nat) : TileBegin × State :=
  let x := epiBlock r.block
  let l := r.cores.length
  if x.refused t p.route (routeOver p.route x t n l) then (.fault 1, s)
  else match s.engineAll p (x.space p.route) true (x.spans t p.route n l r.member) with
    | (none, s) => (.fault 5, s)
    | (some ws, s) =>
      if ws.flatten.any p.scoreHit then (.wait, s)
      else (.go { r with begun := true, dest := ws, count := if p.route.getLsbD 63 then some (fld p.route 11 0) else none }, s)

/-- Retire the tile of the member whose turn it is (07 R154); after a fault each unit that follows is written or not. -/
def State.retireTile (s : State) (c : CoreRef) (u : MillUnit) (p : Party) (r : MillRun) (t : Ty) (n : Nat) : State :=
  let x := epiBlock r.block
  let v := s.millView c p r.cmd
  let tile := (s.core (r.cores.getD r.member c)).mill.tile x.acc
  let (dst, s) := s.locateAll p r v r.dest
  if dst.any anyWait then s.setRun c u fun _ => r else
  let bt := if tile.fmt == .f64 then Ty.f64 else .f32
  let (bb, s) := s.readAll v (elemUnit bt) r.bias.flatten
  let bias := ((elems bt bb).drop (n * r.member)).take n
  let rows := (List.range x.m).map (epiRow s.draws t x tile bias)
  let s := { s with draws := s.draws + 16384 }
  let row := fun k => (dst.getD k [], (rows.getD k ([], [])).1)
  let scale := fun k => (dst.getD (x.m + k) [], (rows.getD k ([], [])).2)
  let work := (List.range x.m).flatMap fun k => if isMx t then [row k, scale k] else [row k]
  let bad := ((work.map fun w => causeOf w.1).find? (· != 0)).getD 0
  let (wr, s) := s.storeRows p (engineIssuer .mill p c) r v work (r.fault != 0)
  let poison := rows.any fun y => y.1.any (·.2) || y.2.any (·.2)
  let r := { r with member := r.member + 1, begun := false, dest := [], poison := r.poison || poison, wrote := View.join r.wrote wr
                    fault := if r.fault ≠ 0 then r.fault else bad }
  let s := (s.onMill c fun m => { m with view := View.join m.view wr }).setRun c u fun _ => r
  if r.cores.length ≤ r.member && !s.replicating (engineIssuer .mill p c) then s.epiFinish c u r else s

/-- `mepi` (07 R153 to R155): one tile after another, each under the `$route` of its own beginning; it resolves once its writes are performed, at every
replica of a replicated page too (09 R206). -/
def State.runEpi (s : State) (c : CoreRef) (u : MillUnit) (p : Party) (r : MillRun) (t : Ty) : State :=
  let n := tileN ((s.core c).mill.tile (epiBlock r.block).acc).fmt
  if r.cores.length ≤ r.member then (if s.replicating (engineIssuer .mill p c) then s else s.epiFinish c u r)
  else if r.begun then s.retireTile c u p r t n
  else match s.beginTile p r t n with
    | (.wait, s) => s
    | (.go r, s) =>
      let s := s.setRun c u fun _ => r
      if (s.core c).mill.mustFollow r then s else s.retireTile c u p r t n
    | (.fault cause, s) => s.millEnd c u r.cmd (if r.fault ≠ 0 then r.fault else cause) r.poison r.wrote

/-! ### `maccz`, `mswap`, `maccrd` (07 R156 to R158) -/

def State.runZero (s : State) (c : CoreRef) (u : MillUnit) (r : MillRun) (mask : Nat) : State :=
  let s := r.cores.foldl (fun (s : State) k => s.onMill k fun m =>
    (List.range 4).foldl (fun (m : Mill) a => if bit mask a then m.setTile a {} else m) m) s
  s.millEnd c u r.cmd 0 false []

def State.runSwap (s : State) (c : CoreRef) (u : MillUnit) (r : MillRun) : State :=
  let s := r.cores.foldl (fun (s : State) k => s.onMill k fun m => { m with active := m.shadow, shadow := m.active }) s
  s.millEnd c u r.cmd 0 false []

/-- The words that slot i of the gang receives. -/
def accWords (t : Tile) (row i : Nat) : List Word :=
  match t.fmt with
  | .f64 =>
    let e := if 32 ≤ i then 0 else if t.isPoison row i then 0x7FF8000000000000 else t.code row i
    [w32 e, w32 (e / 2 ^ 32)]
  | f => (List.range 4).map fun q =>
    let n := 4 * i + q
    w32 (if t.isPoison row n then (if f == .i32 then 0x80000000 else 0x7FC00000) else t.code row n)

/-- The gang slot an item is for. -/
def AccOp.slot : AccOp → Nat
  | .later k => k
  | _ => 0

def State.runRead (s : State) (c : CoreRef) (u : MillUnit) (r : MillRun) (acc mem row : Nat) : State :=
  let t := match r.cores[mem]? with
    | some k => (s.core k).mill.tile acc
    | none => {}
  let s := match r.cmd.item with
    | none => s
    | some insn => s.supply insn r.cmd.uid fun a => accWords t row a.op.slot
  s.millEnd c u r.cmd 0 false []

/-! ### `mdelta` (11 R233 to R237) -/

/-- floor(log2 |x|) of a value that is not zero. -/
def xlog : XVal → Option Int
  | .fin _ m e => if m = 0 then none else some (e + (Nat.log2 m : Nat))
  | _ => none

/-- Round to an integer after division by 2^e (rne). -/
def quantise (x : XVal) (e : Int) : Int :=
  match x with
  | .fin n m k => (XVal.toInt .rne (.fin n m (k - e))).getD 0
  | _ => 0

def scaleInt (v : Int) (e : Int) : XVal := .fin (decide (v < 0)) v.natAbs e

def clampInt (lo hi v : Int) : Int := max lo (min hi v)

/-- The inputs of an invocation: row, then element. -/
abbrev Inputs := List (List (XVal × Bool))
def Inputs.at_ (a : Inputs) (i k : Nat) : XVal × Bool := (a.getD i []).getD k (.fin false 0 0, false)
def isFin : XVal → Bool
  | .fin _ _ _ => true
  | _ => false

/-- The elements of segment s. -/
def segRange (klen sg : Nat) : List Nat := (List.range (min 128 (klen - 128 * sg))).map (128 * sg + ·)
def segCount (klen : Nat) : Nat := ceilDiv klen 128
def Slot.gexp (x : Slot) (i sg : Nat) : Int := (sget 0 x.segG (i * 4 + sg) : Nat) - 127
def Slot.eexp (x : Slot) (i sg : Nat) : Int := (sget 0 x.segE (i * 4 + sg) : Nat) - 127
def Slot.xi (x : Slot) (i k : Nat) : Int := sget 0 x.xhat (i * 512 + k)
def Slot.setX (x : Slot) (i k : Nat) (v : Int) : Slot := { x with xhat := sset 0 x.xhat (i * 512 + k) v }
def Slot.segPoison (x : Slot) (i : Nat) : Bool := x.segP.any fun k => k / 4 == i

/-- A full recompute writes the records of one segment (11 R234). -/
def Slot.refreshSeg (x : Slot) (a : Inputs) (i sg : Nat) : Slot :=
  let ks := segRange x.klen sg
  let vals := ks.map fun k => a.at_ i k
  let amax := xmaxAbs ((vals.map (·.1)).filter isFin)
  let g : Int := match xlog amax with
    | none => -127
    | some l => clampInt (-127) 104 (l - 23)
  let bad := vals.any fun v => !isFin v.1
  let x := { x with segG := sset 0 x.segG (i * 4 + sg) (g + 127).toNat, segE := sset 0 x.segE (i * 4 + sg) (g + 127).toNat
                    segP := if vals.any (·.2) then natAdd x.segP (i * 4 + sg) else natDel x.segP (i * 4 + sg), nf := x.nf || bad }
  ks.foldl (fun x k => x.setX i k (if bad then 0 else quantise (a.at_ i k).1 g)) x

def segPairs (x : Slot) : List (Nat × Nat) := (List.range x.m).flatMap fun i => (List.range (segCount x.klen)).map fun sg => (i, sg)

def Slot.refresh (x : Slot) (a : Inputs) : Slot := (segPairs x).foldl (fun x e => x.refreshSeg a e.1 e.2) { x with nf := false }

/-- The exact activations of a row in a full recompute. -/
def Slot.fullRow (x : Slot) (a : Inputs) (i : Nat) : RowIn :=
  let raw := (List.range x.klen).any fun k => !isFin (a.at_ i k).1
  (List.range x.klen).map fun k =>
    some (if raw then (a.at_ i k).1 else scaleInt (x.xi i k) (x.gexp i (k / 128)), (a.at_ i k).2)

/-- The scale exponent of a segment's change (11 R235). -/
def planExp (g : Int) (amax : XVal) : Int :=
  match xlog amax with
  | none => g
  | some l => max g (if decide (xcompare amax (scaleInt 127 (l - 6)) = some .gt) then l - 5 else l - 6)

/-- The plan of a delta invocation: for each segment its exponent and its quanta; none when it is out of range. -/
def Slot.planSeg (x : Slot) (a : Inputs) (i sg : Nat) : Option (Int × List (Nat × Int)) :=
  let g := x.gexp i sg
  let ds := (segRange x.klen sg).map fun k => (k, xadd .rne (a.at_ i k).1 (scaleInt (-(x.xi i k)) g))
  let e := planExp g (xmaxAbs (ds.map (·.2)))
  let qs := ds.map fun d => (d.1, clampInt (-127) 127 (quantise d.2 e))
  if g + 16 < e ∨ (qs.any fun q => decide (2 ^ 30 ≤ (x.xi i q.1 + q.2 * 2 ^ (e - g).toNat).natAbs)) then none else some (e, qs)

def Slot.inRange (x : Slot) (a : Inputs) : Bool := (segPairs x).all fun e => (x.planSeg a e.1 e.2).isSome

/-- The products' left factors of a row of a delta invocation. -/
def Slot.deltaRow (x : Slot) (a : Inputs) (i : Nat) : RowIn :=
  (List.range (segCount x.klen)).flatMap fun sg => match x.planSeg a i sg with
    | some (e, qs) => qs.map fun q => some (scaleInt q.2 e, false)
    | none => []

/-- Move x̂ by the quantised change. -/
def Slot.advanceSeg (x : Slot) (a : Inputs) (i sg : Nat) : Slot :=
  match x.planSeg a i sg with
  | none => x
  | some (e, qs) =>
    let g := x.gexp i sg
    let y := qs.foldl (fun (y : Slot) q => y.setX i q.1 (y.xi i q.1 + q.2 * 2 ^ (e - g).toNat)) x
    { y with segE := sset 0 y.segE (i * 4 + sg) (e + 127).toNat
             segP := if (segRange x.klen sg).any fun k => (a.at_ i k).2 then natAdd y.segP (i * 4 + sg) else y.segP }

def Slot.yKey (j i n : Nat) : Nat := (j * 128 + i) * 128 + n
def Slot.putY (x : Slot) (j i n code : Nat) (bad : Bool) : Slot :=
  let k := Slot.yKey j i n
  { x with y := sset 0 x.y k code, ypois := if bad then natAdd x.ypois k else natDel x.ypois k }

/-- A poisoned weight of a column among the rows in use. -/
def Plane.colPoison (p : Plane) (n klen : Nat) : Bool := (List.range klen).any fun k => p.isPoison n k

/-- One member's rows of y after an invocation. -/
def Slot.newY (x0 x : Slot) (draws : Nat) (full : Bool) (a : Inputs) (pt : Ty) (pl : Plane) (j : Nat) (y : Slot) : Slot :=
  (List.range x.m).foldl (fun y i =>
    let row := if full then x.fullRow a i else x0.deltaRow a i
    (List.range 128).foldl (fun (y : Slot) n =>
      let k := Slot.yKey j i n
      let bad := x.segPoison i || pl.colPoison n x.klen || (!full && (x0.ypois.contains k || x0.rotten.contains i)) ||
        (full && row.any fun e => e.any (·.2))
      let code := sumF32 (if full then none else some (sget 0 x0.y k)) (chunkSums (planeChunk pt) row (pl.weight pt n))
      y.putY j i n (if bad then freeCode draws k 32 else code) bad) y) y

/-- The reason of 11 R233: a delta invocation is 1. `pz` is PZ as the choice finds it, `pls` the planes of the chain. -/
def deltaKind (x : Slot) (b : DeltaBlock) (pz : Bool) (pls : List Plane) (v : DWord) (a : Inputs) : Nat :=
  if !x.filled then 2 else if b.force then 7 else if pz then 6 else if x.nf then 4
  else if !x.unchk && pls.any fun pl => x.ver != pl.wver || pl.wver != v then 5
  else if x.cnt = x.k then 3
  else if (a.any fun r => r.any fun e => !isFin e.1) || !x.inRange a then 4
  else 1

/-- Copy the rows of y to a tile (11 R236). -/
def Slot.toTile (x : Slot) (j : Nat) (t : Tile) : Tile :=
  let t : Tile := if t.fmt == .none then { t with data := [] } else t
  let t := (List.range x.m).foldl (fun t i => (List.range 128).foldl (fun (t : Tile) n =>
    t.put i n (sget 0 x.y (Slot.yKey j i n)) (x.ypois.contains (Slot.yKey j i n))) t) t
  { t with fmt := .f32 }

/-- `mdelta` (11 R233 to R237). The live version is sampled once, before the input is read; an error that the slot's storage has met since the command
took it may have been met before the kind was chosen, or by the invocation's own reads (11 R243). -/
def State.runDelta (s : State) (c : CoreRef) (u : MillUnit) (p : Party) (r : MillRun) (t : Ty) : State :=
  let b := deltaBlock r.block
  match (s.die c.die).slots.find? fun x => some x.idx == r.slot with
  | none => s.millEnd c u r.cmd 1 false []
  | some x =>
    let ms := r.cores
    let pls := ms.map fun k => (s.core k).mill.active
    let pl := (s.core c).mill.active
    let live := r.live.getD (match s.ctx? p.ctx with
      | some k => if pl.wgrp < k.vsize then sget 0 s.tables.versions (k.vbase + pl.wgrp) else 0
      | none => 0)
    let s := s.setRun c u fun y => { y with live := some live }
    let (got, s) := s.gather c p r (elemUnit t) r.reads
    if got.any anyWait then s else
    let cause := causeOf got.flatten
    if cause ≠ 0 then s.millEnd c u r.cmd cause false [] else
    let (rows, s) := s.readExtents (s.millView c p r.cmd) (elemUnit t) got
    let a : Inputs := rows.map fun y => (elems t y).map fun e => ((fmtOf t).value e.1, e.2)
    let (late, s) := s.draw 2
    let why := deltaKind x b (x.pz && (r.pz || late = 0)) pls live a
    let full := why != 1
    let mid := if full then ({ x with rotten := [] } : Slot).refresh a else (segPairs x).foldl (fun y e => y.advanceSeg a e.1 e.2) x
    let d := s.draws
    let y := ms.zipIdx.foldl (fun (y : Slot) e =>
      let m := (s.core e.1).mill
      x.newY mid d full a ((m.active.fmt).getD .bf16) m.active e.2 y) mid
    let bad := !y.ypois.isEmpty
    let y : Slot := { y with filled := true, last := why, cnt := if full then 0 else x.cnt + 1, ver := if full then (if x.unchk then 0 else pl.wver) else x.ver
                             pz := if full then bad else x.pz || bad, nf := if full then mid.nf else x.nf }
    let s : State := { s with draws := d + 65536 }
    let s := s.setSlot c.die y
    let s := ms.zipIdx.foldl (fun (s : State) e => s.onMill e.1 fun m => m.setTile b.acc (y.toTile e.2 (m.tile b.acc))) s
    (s.count c (if full then 0x0D else 0x0C) 1 p.ctx).millEnd c u r.cmd 0 bad []

/-! ### Slots by instruction (11 R245, R246) -/

def State.runBind (s : State) (c : CoreRef) (u : MillUnit) (r : MillRun) : State :=
  let (st, e) := bindSlot (s.die c.die) r.cmd.ctx r.block
  let s := match e with
    | some x => s.onDie c.die fun d => { d with slots := d.slots ++ [x] }
    | none => s
  (s.millStatus r.cmd [w32 st]).millEnd c u r.cmd 0 false []

/-- The slot a command took at its start: none if it was unbound then (11 R227, R247). -/
def State.slotTaken (s : State) (c : CoreRef) (r : MillRun) : Option Slot := (s.die c.die).slots.find? fun x => some x.idx == r.slot

/-- `slotdrop` (11 R247): the commands that wait for the slot will find it unbound, whatever is bound before their turn. -/
def State.runDrop (s : State) (c : CoreRef) (u : MillUnit) (r : MillRun) (n : Nat) : State :=
  let held := s.slotTaken c r
  let st := if 63 < n then 5 else if held.isNone then 2 else 0
  let waiting := (held.map (·.waiting)).getD []
  let find := fun (cmd : MillCmd) => if waiting.contains cmd.id then { cmd with unbound := held.map (·.slot) } else cmd
  let s := s.onDie c.die fun d => { d with slots := d.slots.filter fun x => some x.idx != held.map (·.idx) }
  let s : State := { s with cores := s.cores.map fun e => (e.1, { e.2 with mill := { e.2.mill with queue := e.2.mill.queue.map find } }) }
  (s.millStatus r.cmd [w32 st]).millEnd c u r.cmd 0 false []

def State.runQuery (s : State) (c : CoreRef) (u : MillUnit) (r : MillRun) : State :=
  (s.millStatus r.cmd (slotWords (s.slotTaken c r))).millEnd c u r.cmd 0 false []

/-! ### Chains (07 R159) -/

/-- Dissolve the chain of a head. -/
def State.unlink (s : State) (c : CoreRef) : State :=
  match (s.core c).mill.link with
  | some l => if l.pos = 0 then ((s.core c).mill.members c).foldl (fun (s : State) k => s.onMill k fun m => { m with link := none }) s else s
  | none => s

/-- Link the Mills c, …, c + len − 1. A head's own chain dissolves first; a joiner that heads another chain leaves its old members linked to it (DESIGN
CHOICE, log 46). -/
def State.linkMills (s : State) (c : CoreRef) (len : Nat) : State :=
  let uid := (((s.core c).mill.streaming).map (·.cmd.uid)).getD 0
  (List.range len).foldl (fun (s : State) j => s.onMill ⟨c.die, c.core + j⟩ fun m => { m with link := some ⟨c.core, j, len, uid⟩ }) (s.unlink c)

/-- The chains whose head's party has ended unlink (07 R159): when it is retired (DESIGN CHOICE, log 46). -/
def State.unlinkOf (s : State) (uid : Nat) : State :=
  (s.cores.filter fun e => e.2.mill.link.any fun l => l.pos == 0 && l.uid == uid).foldl (fun (s : State) e => s.unlink ⟨e.1 / 64, e.1 % 64⟩) s

def State.runLink (s : State) (c : CoreRef) (u : MillUnit) (cmd : MillCmd) (len : Nat) : State :=
  if len = 1 then (s.linkMills c 1).millEnd c u cmd 0 false [] else s

/-- The party of a running command has not ended (16 R372). -/
def State.alive (s : State) (r : MillRun) : Bool := (s.party? r.cmd.uid).any fun p => !p.ended

/-- The offered join of a core to head h. -/
def State.offer (s : State) (c : CoreRef) (h : Nat) : Option MillRun :=
  ((s.core c).mill.streaming).filter fun r => match r.cmd.op with
    | .join k => k == h && r.offered && s.alive r
    | _ => false

/-- CHAIN_LINK_FORMS (07 R159): the link of head c forms, or fails with the members whose owner is another context. -/
def execChainLinkForms (c : CoreRef) (s : State) : Out :=
  match (s.core c).mill.streaming with
  | none => .next s
  | some r => match r.cmd.op with
    | .link len =>
      let ks := (List.range (len - 1)).map fun j => (⟨c.die, c.core + 1 + j⟩ : CoreRef)
      if len ≤ 1 || !s.alive r || ks.any fun k => (s.offer k c.core).isNone then .next s
      else
        let bad := ks.filter fun k => (s.core k).mill.owner != (s.core c).mill.owner
        let endOne := fun (cause : Nat) (s : State) (k : CoreRef) => match (s.core k).mill.streaming with
          | some x => s.millEnd k .streaming x.cmd cause false []
          | none => s
        if bad.isEmpty then .next ((c :: ks).foldl (endOne 0) (s.linkMills c len))
        else .next ((c :: bad).foldl (endOne 4) s)
    | _ => .next s

/-! ### The events -/

/-- MILL_COMMAND_START (07 R144, R145). -/
def execMillCommandStart (c : CoreRef) (u : MillUnit) (s : State) : Out := .next (s.millStart c u)

/-- MILL_COMMAND_RESOLVE (07 R149 to R162): a command of a party that has ended writes nothing further (16 R372). -/
def execMillCommandResolve (c : CoreRef) (u : MillUnit) (s : State) : Out :=
  let run := match u with
    | .loading => (s.core c).mill.loading
    | .streaming => (s.core c).mill.streaming
  match run with
  | none => .next s
  | some r =>
    if s.engineHeld r.cmd.id || (s.core c).mill.mustFollow r || s.unitBlocked (unitKey c (MillUnit.key u)) then .next s
    else match s.party? r.cmd.uid with
      | none => .next (s.millEnd c u r.cmd 0 false [])
      | some p =>
        if p.ended then .next (s.millEnd c u r.cmd 0 false []) else
        .next (match r.cmd.op with
          | .load t _ => s.runLoad c u p r t
          | .run t _ => s.runRun c u p r t
          | .epi t _ => s.runEpi c u p r t
          | .delta t _ => s.runDelta c u p r t
          | .swap => s.runSwap c u r
          | .zero mask => s.runZero c u r mask
          | .read acc mem row => s.runRead c u r acc mem row
          | .link len => s.runLink c u r.cmd len
          | .join _ => s
          | .unlink => (s.unlink c).millEnd c u r.cmd 0 false []
          | .bind _ => s.runBind c u r
          | .drop n => s.runDrop c u r n
          | .query _ => s.runQuery c u r)

end Sys2Proof.Machine
end

