-- ==== Sys2Proof/Machine/Layout.lean ====
section
/-!
DEFINITION. The Porter's records and their geometry: layout records and tiles (13 R277, R278), shape records and grids (13 R281, R283),
exchange blocks (13 R293), and the pieces of a placement (13 R284).
-/

namespace Sys2Proof.Machine

/-! ### Layout records (13 R277, R278) -/

structure Layout where
  sp     : Nat
  ty     : Ty
  nd     : Nat
  base   : Nat
  size   : List Nat
  stride : List Nat
  tile   : List Nat
  ver    : Nat
  deriving DecidableEq, Repr

def layoutOf (b : List Byte) : Layout :=
  let w := leAt b 0 4
  ⟨bits w 27 25, Ty.ofCode (bits w 24 20), bits w 19 18 + 1, leAt b 8 8, (List.range 4).map fun d => leAt b (16 + 4 * d) 4,
   (List.range 4).map fun d => leAt b (32 + 4 * d) 4, (List.range 4).map fun d => leAt b (48 + 2 * d) 2, leAt b 58 2⟩

/-- A record is sealed with the version wanted; 0 wants any. -/
def layoutSealed (b : List Byte) (want : Nat) : Bool :=
  let v := leAt b 58 2
  decide (bits (leAt b 0 4) 31 28 = 7 ∧ v ≠ 0 ∧ leAt b 60 4 = (crc32c (b.take 60)).toNat ∧ (want = 0 ∨ v = want))

/-- The types a layout accepts: none of the mx types (13 R277, R293; log 78). -/
def layoutType : Ty → Bool
  | .e2m1 | .e8m0 | .mxe4m3 | .mxe2m1 | .rsv _ => false
  | _ => true

def Layout.es (l : Layout) : Nat := l.ty.width / 8
def Layout.nt (l : Layout) (d : Nat) : Nat := ceilDiv (l.size.getD d 1) (l.tile.getD d 1)
def Layout.tiles (l : Layout) : Nat := l.nt 0 * l.nt 1 * l.nt 2 * l.nt 3
def Layout.tileBytes (l : Layout) : Nat := l.tile.foldl (· * ·) l.es

/-- A record that breaks 13 R277 or R278. -/
def layoutBad (b : List Byte) : Bool :=
  let l := layoutOf b
  let dims := List.range 4
  decide (4 < l.sp ∨ bits (leAt b 0 4) 17 0 ≠ 0 ∨ leAt b 4 4 ≠ 0 ∨ leAt b 56 2 ≠ 0) || !layoutType l.ty ||
  decide (l.base % l.es ≠ 0 ∨ l.stride.getD 0 0 ≠ l.es) ||
  (dims.any fun d => decide (l.size.getD d 0 = 0 ∨ l.tile.getD d 0 = 0 ∨
    (l.nd ≤ d ∧ (l.size.getD d 0 ≠ 1 ∨ l.stride.getD d 0 ≠ 0 ∨ l.tile.getD d 0 ≠ 1)))) ||
  decide (65536 < l.tiles ∨ 2 ^ 18 < l.tileBytes)

/-- The first index and the extent of a tile in a dimension. -/
def Layout.coord (l : Layout) (t d : Nat) : Nat :=
  t / ((List.range d).foldl (fun n j => n * l.nt j) 1) % l.nt d
def Layout.first (l : Layout) (t d : Nat) : Nat := l.coord t d * l.tile.getD d 1
def Layout.extent (l : Layout) (t d : Nat) : Nat := min (l.tile.getD d 1) (l.size.getD d 1 - l.first t d)
def Layout.count (l : Layout) (t : Nat) : Nat := l.extent t 0 * l.extent t 1 * l.extent t 2 * l.extent t 3

/-- Offsets of a box: start, extent and stride of each dimension, the first fastest. -/
def boxOffsets : List (Nat × Nat × Nat) → List Nat
  | [] => [0]
  | (st, n, k) :: ds => (boxOffsets ds).flatMap fun o => (List.range n).map fun i => o + (st + i) * k

/-- Addresses of a tile's elements in order. -/
def Layout.elemsAt (l : Layout) (t : Nat) : List Nat :=
  (boxOffsets ((List.range 4).map fun d => (l.first t d, l.extent t d, l.stride.getD d 0))).map (l.base + ·)

/-- The rows of a tensor: runs along dimension 0. -/
def Layout.rows (l : Layout) : List (Nat × Nat) :=
  (boxOffsets ((List.range 3).map fun d => (0, l.size.getD (d + 1) 1, l.stride.getD (d + 1) 0))).map fun o => (l.base + o, l.size.getD 0 1 * l.es)

/-- Bytes from the first to past the last of a tile, from `base`: its hull. -/
def Layout.tileHull (l : Layout) (t : Nat) : Nat × Nat :=
  let lo := l.base + ((List.range 4).map fun d => l.first t d * l.stride.getD d 0).sum
  (lo, lo + ((List.range 4).map fun d => (l.extent t d - 1) * l.stride.getD d 0).sum + l.es)
/-- The rows of a tile: runs along dimension 0. -/
def Layout.tileRows (l : Layout) (t : Nat) : List (Nat × Nat) :=
  (boxOffsets ((List.range 3).map fun d => (l.first t (d + 1), l.extent t (d + 1), l.stride.getD (d + 1) 0))).map fun o =>
    (l.base + l.first t 0 * l.es + o, l.extent t 0 * l.es)
def Layout.hullLen (l : Layout) : Nat := ((List.range 4).map fun d => (l.size.getD d 1 - 1) * l.stride.getD d 0).sum + l.es

/-! ### Shape records (13 R281) -/

structure Shape where
  mode   : Nat
  red    : Nat
  det    : Bool
  repl   : Nat
  aen    : Bool
  cen    : Bool
  coll   : Nat
  acnt   : Nat
  ccnt   : Nat
  srcl   : Nat
  dstl   : Nat
  dver   : Nat
  sver   : Nat
  origin : Nat
  rstep  : Nat
  gx     : Nat
  gy     : Nat
  gz     : Nat
  tpp    : Nat
  seq    : Nat
  stoff  : Nat
  aboff  : Nat
  stage  : Nat
  stsize : Nat
  deriving DecidableEq, Repr

def shapeOf (b : List Byte) : Shape :=
  let w := leAt b 0 4
  let g := leAt b 24 4
  { mode := bits w 27 26, red := bits w 25 23, det := bit w 22, repl := bits w 21 19, aen := bit w 18, cen := bit w 17, coll := bits w 15 0
    acnt := bits (leAt b 4 4) 31 20, ccnt := bits (leAt b 4 4) 19 8, srcl := leAt b 8 4, dstl := leAt b 12 4, dver := leAt b 18 2, sver := leAt b 16 2
    origin := bits (leAt b 20 4) 31 15, rstep := bits (leAt b 20 4) 14 0, gx := bits g 31 22 + 1, gy := bits g 21 12 + 1, gz := bits g 11 2 + 1
    tpp := bits (leAt b 28 4) 31 16 + 1, seq := leAt b 28 2, stoff := leAt b 32 4, aboff := leAt b 36 4, stage := leAt b 40 4, stsize := leAt b 44 4 }

def Shape.g (h : Shape) : Nat := h.gx * h.gy * h.gz

/-- Check 1 of 13 R282. -/
def shapeBad (b : List Byte) : Bool :=
  let h := shapeOf b
  let w := leAt b 0 4
  decide (bits w 31 28 ≠ 8 ∨ bit w 16 ∨ bits (leAt b 4 4) 7 0 ≠ 0 ∨ bits (leAt b 24 4) 1 0 ≠ 0 ∨ leAt b 48 16 ≠ 0 ∨ h.mode = 3 ∨ h.red = 7 ∨
    h.rstep = 0 ∨ (h.mode = 0 ∧ (h.red ≠ 0 ∨ h.det ∨ h.coll ≠ 0 ∨ h.seq ≠ 0)) ∨ (h.mode ≠ 0 ∧ (h.red = 0 ∨ h.coll = 0 ∨ h.repl ≠ 0)) ∨
    4096 < h.g ∨ (h.mode ≠ 0 ∧ 64 < h.g) ∨ h.srcl % 16 ≠ 0 ∨ h.dstl % 16 ≠ 0 ∨ h.stoff % 8 ≠ 0 ∨ (h.mode ≠ 0 ∧ h.aboff % 16 ≠ 0) ∨
    (h.mode ≠ 0 ∧ h.det ∧ h.stage % 64 ≠ 0))

/-- The distributed coordinates of a grid point as one number, x fastest (13 R283). -/
def Shape.dist (h : Shape) (p : Nat) : Nat :=
  let cs := [(bit h.repl 0, p % h.gx, h.gx), (bit h.repl 1, p / h.gx % h.gy, h.gy), (bit h.repl 2, p / (h.gx * h.gy), h.gz)]
  (cs.foldl (fun (a : Nat × Nat) c => if c.1 then a else (a.1 + c.2.1 * a.2, a.2 * c.2.2)) (0, 1)).1
def Shape.nd (h : Shape) : Nat :=
  (if bit h.repl 0 then 1 else h.gx) * (if bit h.repl 1 then 1 else h.gy) * (if bit h.repl 2 then 1 else h.gz)

/-- The grid points a source tile goes to, and its tile at each (13 R283). -/
def Shape.targets (h : Shape) (t : Nat) : List Nat := (List.range h.g).filter fun p => h.dist p == t / h.tpp % h.nd
def Shape.tileAt (h : Shape) (t : Nat) : Nat := t / (h.tpp * h.nd) * h.tpp + t % h.tpp
/-- The owner of a tile of a reduction (13 R287), and its chunk there: in MODE 2 source and destination are one tensor. -/
def Shape.owner (h : Shape) (t : Nat) : Nat := t / h.tpp % h.g
def Shape.chunk (h : Shape) (t : Nat) : Nat := if h.mode = 2 then t else h.tileAt t
def Shape.owned (h : Shape) (nt self : Nat) : List Nat := (List.range nt).filter fun t => h.owner t == self

def Shape.rankOf (h : Shape) (p : Nat) : Nat := h.origin + h.rstep * p

/-- The types an operator accepts (13 R286). -/
def redAccepts (red : Nat) (t : Ty) : Bool :=
  if red ≤ 3 then (match t with
    | .i32 | .n32 | .i64 | .n64 | .f16 | .bf16 | .f32 | .f64 => true
    | _ => false)
  else t == .b32 || t == .b64

/-- Bytes of the abort record (13 R292). -/
def abortMap (ntile : Nat) : Nat := ceilDiv (4 * ceilDiv ntile 16) 16 * 16

/-! ### Exchange blocks (13 R293) -/

structure Exchange where
  sspace : Nat
  ty     : Ty
  aen    : Bool
  cen    : Bool
  coll   : Nat
  acnt   : Nat
  ccnt   : Nat
  sbase  : Nat
  scnt   : Nat
  out    : Nat
  rbase  : Nat
  rcap   : Nat
  origin : Nat
  rstep  : Nat
  seq    : Nat
  g      : Nat
  deriving DecidableEq, Repr

def exchangeOf (b : List Byte) : Exchange :=
  let w := leAt b 0 4
  { sspace := bits w 27 25, ty := Ty.ofCode (bits w 24 20), aen := bit w 19, cen := bit w 18, coll := bits w 15 0
    acnt := bits (leAt b 4 4) 31 20, ccnt := bits (leAt b 4 4) 19 8, sbase := leAt b 8 8, scnt := leAt b 16 4, out := leAt b 20 4
    rbase := leAt b 24 8, rcap := leAt b 32 4, origin := bits (leAt b 36 4) 31 15, rstep := bits (leAt b 36 4) 14 0
    seq := bits (leAt b 40 4) 31 16, g := bits (leAt b 40 4) 9 0 + 1 }

/-- A malformed field of an exchange block. -/
def exchangeBad (b : List Byte) : Bool :=
  let x := exchangeOf b
  let w := leAt b 0 4
  decide (bits w 31 28 ≠ 9 ∨ bits w 17 16 ≠ 0 ∨ bits (leAt b 4 4) 7 0 ≠ 0 ∨ bits (leAt b 40 4) 15 10 ≠ 0 ∨ leAt b 44 20 ≠ 0 ∨
    x.coll = 0 ∨ x.rstep = 0 ∨ x.rbase / 2 ^ 46 ≠ 0) ||
  !layoutType x.ty || !(x.sspace == 0 || x.sspace == 2 || x.sspace == 3)

def Exchange.es (x : Exchange) : Nat := x.ty.width / 8
def Exchange.rankOf (x : Exchange) (p : Nat) : Nat := x.origin + x.rstep * p

/-! ### Pieces (13 R284) -/

/-- A run of a piece: destination and source addresses and a length. -/
structure Run where
  dst : Nat
  src : Nat
  len : Nat
  deriving DecidableEq, Repr

/-- Join byte pairs that lie side by side. -/
def runsOf : List (Nat × Nat) → List Run
  | [] => []
  | (d, a) :: ps => match runsOf ps with
    | r :: rs => if r.dst = d + 1 ∧ r.src = a + 1 then ⟨d, a, r.len + 1⟩ :: rs else ⟨d, a, 1⟩ :: r :: rs
    | [] => [⟨d, a, 1⟩]

/-- Destination and source of every byte of a tile. -/
def tilePairs (es : Nat) (dst src : List Nat) : List (Nat × Nat) :=
  (dst.zip src).flatMap fun e => (List.range es).map fun j => (e.1 + j, e.2 + j)

/-- The 64-byte blocks that some bytes touch, in order of first appearance. -/
def blocksOf (ds : List Nat) : List Nat := (ds.map (· / 64)).eraseDups

/-- The runs of piece k. -/
def pieceRuns (ps : List (Nat × Nat)) (k : Nat) : List Run :=
  match (blocksOf (ps.map (·.1)))[k]? with
  | none => []
  | some b => runsOf (ps.filter fun e => e.1 / 64 == b)

/-- Pieces of a tile at a layout. -/
def Layout.pieceCount (l : Layout) (t : Nat) : Nat := (blocksOf ((l.elemsAt t).flatMap fun a => (List.range l.es).map (a + ·))).length

end Sys2Proof.Machine
end

