-- ==== Sys2Proof/Machine/Porter.lean ====
section
/-!
DEFINITION. The Porter's instructions: `tcopy` and `a2av` up to their acceptance with batches and scoreboard claims (13 R273, R274, R297,
08 R183), `lseal`, `bseal`, `bwait` (13 R279, R298, R300); the instructions on futures (07 R165); the grants of engine queue
entries (12 R263) and the Outrider's posts (06 R138).
-/

namespace Sys2Proof.Machine

/-! ### Scoreboard claims (08 R183, 13 R274) -/

/-- Read a record from scratch for a command: none beyond the limit. -/
def Party.recordAt (p : Party) (off n : Nat) : Option Nat :=
  if (p.segLim.getD 0 0).toNat < off + n then none else some (locScratch p.core ((p.segBase.getD 0 0).toNat + off))

/-- The ranges of the party's own scratch and near windows that some extents cover: near flag, start, end. -/
def State.ownRanges (s : State) (p : Party) (sp : Space) (es : List (Nat × Nat)) : List (Bool × Nat × Nat) :=
  es.flatMap fun e => match (s.engineParts p sp e.1 e.2 true).1 with
    | some qs => qs.filterMap fun q => (p.ownOffset q).map fun o => (o.1, o.2, o.2 + q.len)
    | none => []

/-- The hull of some ranges of one space, rounded to 64-byte units. -/
def hullOf (near : Bool) (rs : List (Bool × Nat × Nat)) : Option (Bool × Nat × Nat) :=
  let xs := rs.filter fun r => r.1 == near
  match xs with
  | [] => none
  | x :: xs =>
    let lo := xs.foldl (fun m y => min m y.2.1) x.2.1
    let hi := xs.foldl (fun m y => max m y.2.2) x.2.2
    some (near, lo / 64 * 64, ceilDiv hi 64 * 64)

/-- The hulls a transfer's destinations cover, by its records as they stand at acceptance. -/
def State.claims (s : State) (p : Party) (a2av : Bool) (off : Nat) : List (Bool × Nat × Nat) :=
  match p.recordAt off 64 with
  | none => []
  | some l =>
    let b := s.bytesAt l 64
    let rs : List (Bool × Nat × Nat) :=
      if a2av then
        let x := exchangeOf b
        s.ownRanges p .s [(x.out, 4 * (2 * x.g + 1))]
      else
        let h := shapeOf b
        match p.recordAt h.srcl 64, p.recordAt h.dstl 64 with
        | some ls, some ld =>
          let src := layoutOf (s.bytesAt ls 64)
          let bd := s.bytesAt ld 64
          let dst := layoutOf bd
          if layoutBad bd || shapeBad b then [] else
          let self := (List.range h.g).find? fun q => h.rankOf q == p.rank
          let here := match self with
            | some q => (List.range src.tiles).filter fun t => if h.mode = 2 then true else if h.mode = 1 then h.owner t == q else (h.targets t).contains q
            | none => []
          let body := (here.map h.chunk).eraseDups.flatMap dst.tileRows
          let extra := (h.stoff, 8 * ceilDiv src.tiles 64) ::
            (if h.mode = 0 then [] else [(h.aboff, 16 + abortMap dst.tiles + 16 * (match self with | some q => (h.owned src.tiles q).length | none => 0))])
          s.ownRanges p (engineSpace dst.sp) body ++ s.ownRanges p .s extra ++
            (if h.mode ≠ 0 ∧ h.det then s.ownRanges p .n [(h.stage, h.stsize)] else [])
        | _, _ => []
    (hullOf false rs).toList ++ (hullOf true rs).toList

/-- The lowest free scoreboard entries of a party: 16 in all (08 R170). -/
def Party.freeScore (p : Party) : List Nat := (List.range 16).filter fun i => !p.score.any fun e => e.idx == i

/-- Claim entries for a transfer. -/
def Party.claim (p : Party) (gang batch owner : Nat) (cs : List (Bool × Nat × Nat)) : Party :=
  { p with score := p.score ++ (cs.zip p.freeScore).map fun e => ⟨e.2, gang, batch, e.1.2.1, e.1.2.2, e.1.1, owner⟩ }

/-! ### Batch streams (13 R297 to R299) -/

def Party.stream (p : Party) (n : Nat) : Stream := sget {} p.streams n
def Party.setStream (p : Party) (n : Nat) (x : Stream) : Party := { p with streams := sset {} p.streams n x }

/-- Open a batch numbered NEXT. -/
def Stream.opened (x : Stream) : Stream :=
  match x.openB with
  | some _ => x
  | none => { x with openB := some { num := x.next }, next := (x.next + 1) % 65536 }

/-- Seal the open batch. -/
def Stream.close (x : Stream) (roff : Option Nat) : Stream :=
  match x.openB with
  | none => x
  | some b => { x with openB := none, sealed := x.sealed ++ [{ b with roff := roff }] }

/-- Count a transfer in: its batch and its position. -/
def Stream.enter (x : Stream) : Stream × Nat × Nat :=
  let x := if x.openB.any fun b => decide (255 ≤ b.count) then x.close none else x
  let x := x.opened
  match x.openB with
  | some b => ({ x with openB := some { b with count := b.count + 1, left := b.left + 1 } }, b.num, b.count)
  | none => (x, 0, 0)

/-- Change one batch. -/
def Stream.onBatch (x : Stream) (num : Nat) (f : Batch → Batch) : Stream :=
  { x with openB := x.openB.map fun b => if b.num = num then f b else b
           sealed := x.sealed.map fun b => if b.num = num then f b else b }

/-- FLAGS of a batch for a cause (13 R299). -/
def batchFlags (cause : Nat) (poison cancelled : Bool) : Nat :=
  b2n (cause == 8) + 2 * b2n (cause == 9) + 4 * b2n poison + 8 * b2n (cause != 0 && cause != 8 && cause != 9) + 16 * b2n cancelled

/-- A transfer of a batch ends. The first failing transfer is the first in acceptance order. -/
def Batch.leave (b : Batch) (pos cause : Nat) (poison cancelled : Bool) (v : View) : Batch :=
  let first := cause != 0 && (b.cause == 0 || decide (pos < b.first))
  { b with left := b.left - 1, flags := b.flags ||| batchFlags cause poison cancelled, view := View.join b.view v
           cause := if first then cause else b.cause, first := if first then pos else b.first }

/-! ### Acceptance (13 R274, 12 R263, R265) -/

structure PortForm where
  a2av : Bool
  off  : Nat
  d    : Opnd
  nh   : Bool
  urg  : Bool
  deriving DecidableEq, Repr

def portFormOf (i : Instr) (a : Nat) : Option PortForm :=
  match i with
  | .tcopy _ d _ nh urg => some ⟨false, a, d, nh, urg⟩
  | .a2av _ d _ nh urg => some ⟨true, a, d, nh, urg⟩
  | _ => none

def portOperand : Instr → Option Src
  | .tcopy _ _ a _ _ | .a2av _ _ a _ _ => some a
  | _ => none

def Core.portQueued (k : Core) : Nat := k.urgent.length + k.normal.length

/-- Put a transfer in its sub-queue. -/
def State.portPush (s : State) (c : CoreRef) (cmd : PortCmd) : State :=
  s.onCore c fun k => if cmd.urg then { k with urgent := k.urgent ++ [cmd] } else { k with normal := k.normal ++ [cmd] }

def State.portAccept (s : State) (i : Instr) (t : Turn) (f : PortForm) (cs : List (Bool × Nat × Nat)) : State :=
  let (insn, s) := s.fresh
  let (id, s) := s.fresh
  let num := t.g.number.getD 0
  let (st, batch, pos) := (t.p.stream num).enter
  let idx := if f.nh then none else t.p.freeFuture
  let s := match idx with
    | some k =>
      let e := t.p.future k
      let s := s.onParty t.uid fun p => p.setFuture k { gen := e.gen, state := .pending, engine := .porter }
      match supplier t.ms with
      | some f0 => s.owe t i insn none (s.destOf t.p f0 f.d 1) [handleOf .porter k e.gen]
      | none => s
    | none => s
  let s := s.onParty t.uid fun p => (p.setStream num st).claim num batch id cs
  let cmd : PortCmd := { id := id, a2av := f.a2av, uid := t.uid, ctx := t.p.ctx, off := f.off, future := idx, urg := f.urg
                         stream := num, batch := some batch, pos := pos, owed := t.p.queuedStores t.g.crew
                         seen := s.crewView t.uid t.g.crew, saw := t.seen (·.portSeen), view := t.seen (·.engView) }
  s.portPush t.p.core cmd

/-- The offset checks of step 2 (13 R274, 10 R212): the fault class, or 0. -/
def offsetCheck (p : Party) (off n : Nat) : Nat :=
  if off % 16 ≠ 0 then 0x07 else if (p.segLim.getD 0 0).toNat < off + n then 0x05 else if 65536 < off % 65536 + n then 0x07 else 0

/-- A precise fault of a Porter form at issue. -/
def State.portFault (s : State) (i : Instr) (t : Turn) (cls : Nat) (a : Nat) : State :=
  s.faultAt t.uid t.gid (nextPc t.pc i.raw) (t.faultLog i cls [w64 a] (w64 a))

/-- Stores of the issuing crew to the records that a transfer reads are still queued: what it will place is not known yet, and its claim waits for
them (08 R183, 13 R275, log 108). -/
def State.recordsOwed (s : State) (p : Party) (crew : Nat) (a2av : Bool) (off : Nat) : Bool :=
  let owed := p.queuedStores crew
  let at_ := fun o => (p.recordAt o 64).any fun l => s.owes owed l 64
  at_ off || (!a2av && ((p.recordAt off 64).any fun l => at_ (shapeOf (s.bytesAt l 64)).srcl || at_ (shapeOf (s.bytesAt l 64)).dstl))

/-- A further transfer would seal a batch, and the stream holds all the sealed unfinished batches it may (13 R272, R297). -/
def Stream.full (x : Stream) : Bool := (x.openB.any fun b => decide (255 ≤ b.count)) && decide (64 ≤ x.sealed.length)

/-- Another gang began to wait for scoreboard entries earlier (08 R183). -/
def Party.scoreBefore (p : Party) (gid since : Nat) : Bool :=
  p.gangs.any fun g => g.gid != gid && (match g.wait with
    | some (.score n _) => decide (n < since)
    | _ => false)

/-- Steps 1 to 4 of 13 R274; what it answers is whether the transfer was accepted. -/
def State.portTry (s : State) (i : Instr) (t : Turn) (f : PortForm) (granted : Bool) : Bool × State :=
  let free := s.unawait t.p.core t.uid t.gid
  let cs := s.claims t.p f.a2av f.off
  let line := Contest.engine t.p.core .porter
  let place := requestPlace t.g.effective t.g.crew
  let since := match t.g.wait with
    | some (.score n _) => n
    | _ => s.nextId
  if t.g.crew ≠ t.p.producer then (false, free.portFault i t 0x0C f.off)
  else if offsetCheck t.p f.off 64 ≠ 0 then (false, free.portFault i t (offsetCheck t.p f.off 64) f.off)
  else if (!granted && s.overtaken line place) || s.recordsOwed t.p t.g.crew f.a2av f.off then (false, free.holdAgain t.uid t.gid)
  else if decide (32 ≤ (s.core t.p.core).portQueued) || (!granted && s.engineWaits t.p.core .porter t.uid) then
    (false, (s.serve line place).awaitEntry t.p.core .porter t.uid t.gid i)
  else if !f.nh && t.p.freeFuture.isNone then
    (false, (free.hold t.uid t.gid (.futureFull s.changes)).deadlocks t.uid t.g.crew)
  else if decide (t.p.freeScore.length < cs.length) || (!cs.isEmpty && t.p.scoreBefore t.gid since) then
    (false, (free.fresh.2).hold t.uid t.gid (.score since s.changes))
  else if (t.p.stream (t.g.number.getD 0)).full then (false, free.holdAgain t.uid t.gid)
  else (true, (free.serve line place).portAccept i t f cs)

def State.portIssue (s : State) (i : Instr) : Out :=
  s.issue i fun t =>
    match portFormOf i (((portOperand i).map (uniform32 s t)).getD 0) with
    | none => .next s
    | some f =>
      let (ok, s) := s.portTry i t f false
      .next (if ok then s.advance t.uid t.gid i.raw else s)

def execTcopy (h : Head) (d : Opnd) (a : Src) (nh urg : Bool) (s : State) : Out := s.portIssue (.tcopy h d a nh urg)
def execA2av (h : Head) (d : Opnd) (a : Src) (nh urg : Bool) (s : State) : Out := s.portIssue (.a2av h d a nh urg)

/-! ### `lseal`, `bseal`, `bwait` -/

/-- `lseal` from one offset to another (13 R279): core-path accesses of the gang, checked and made as a load and a store. -/
def State.lsealTry (s : State) (t : Turn) (i : Instr) (f : Fibre) (d : Opnd) (k : Bool) (src dst : Nat) : Issued :=
  let fault := fun (s : State) cls (addr : Nat) => Issued.fault (t.faultLog i cls [w64 src, w64 dst] (w64 addr)) s
  let (ks, ps, s1) := s.checkMem t.p f t.g.level (if k then .k else .s) src 64 false false
  let (kd, pd, s1) := s1.checkMem t.p f t.g.level .s dst 64 true false
  if src % 16 ≠ 0 then fault s 0x07 src
  else if dst % 16 ≠ 0 then fault s 0x07 dst
  else if ks ≠ 0 then fault s1 (checkClass ks) src
  else if kd ≠ 0 then fault s1 (checkClass kd) dst
  else
    let (insn, s1) := s1.fresh
    let (x, s1) := s1.newAccess t i insn none (.seal dst) (s1.destOf t.p f d 1)
    let x := { x with sp := if k then .k else .s, addr := w64 src, parts := ps ++ pd, srcs := [w64 src, w64 dst], view := t.p.viewOf t.ms }
    match s1.memWait t [x] .relaxed with
    | .fault => .pending
    | .wait => .wait
    | .go => .go (s1.depart t.uid t.g.crew [x])

def execLseal (h : Head) (d a b : Opnd) (k : Bool) (s : State) : Out :=
  let i := Instr.lseal h d a b k
  s.issue i fun t =>
    match supplier t.ms with
    | none => .next s
    | some f => .next (s.conclude t i (s.lsealTry t i f d k (uniform32 s t (.op a)) (uniform32 s t (.op b))))

/-- `bseal` (13 R298), with the offset of a batch record: it waits while its stream holds 64 sealed unfinished batches. -/
def State.bsealTry (s : State) (t : Turn) (i : Instr) (d : Opnd) (record : Bool) (off : Nat) : Issued :=
  let num := t.g.number.getD 0
  let st := t.p.stream num
  let fault := fun cls => Issued.fault (t.faultLog i cls [w64 off] (w64 off)) s
  if t.g.crew ≠ t.p.producer then fault 0x0C
  else if record && offsetCheck t.p off 16 != 0 then fault (offsetCheck t.p off 16)
  else if 64 ≤ st.sealed.length then .wait
  else
    let st := st.opened
    let n := (st.openB.map (·.num)).getD 0
    let s := s.onParty t.uid fun p => p.setStream num (st.close (if record then some off else none))
    let (insn, s) := s.fresh
    .go (match supplier t.ms with
      | some f => s.owe t i insn none (s.destOf t.p f d 1) [w32 n]
      | none => s)

def execBseal (h : Head) (d : Opnd) (a : Src) (record : Bool) (s : State) : Out :=
  let i := Instr.bseal h d a record
  s.issue i fun t => .next (s.conclude t i (s.bsealTry t i d record (uniform32 s t a)))

/-- `bwait` for at most `n` unfinished batches (13 R300). -/
def State.bwaitTry (s : State) (t : Turn) (i : Instr) (n : Nat) : Issued :=
  let st := t.p.stream (t.g.number.getD 0)
  if t.g.crew ≠ t.p.producer then .fault (t.faultLog i 0x0C [w64 n] (w64 n)) s
  else if n < st.sealed.length then .wait
  else .go (s.onMembers t.uid t.gid fun m => { m with portSeen := View.join m.portSeen st.view })

def execBwait (h : Head) (a : Src) (s : State) : Out :=
  let i := Instr.bwait h a
  s.issue i fun t => .next (s.conclude t i (s.bwaitTry t i (uniform32 s t a)))

/-! ### `ftest`, `fwait`, `fcancel` (07 R165) -/

/-- The entry a handle names, unless it is stale. -/
def Party.handle (p : Party) (w : Nat) : Option Nat :=
  let i := w % 64
  let f := p.future i
  if w / 65536 ≠ 0 ∨ 1 < w / 2 ^ 14 % 4 ∨ f.gen.toNat ≠ w / 64 % 256 then none
  else if f.state == .free then none else some i

/-- Remove an unstarted command from the queues: a Mill command, an offered join, or a transfer (07 R165). -/
def State.cancelMill (s : State) (c : CoreRef) (uid i : Nat) : Option State :=
  let mine := fun (x : MillCmd) => x.uid == uid && x.future == some i
  let k := s.core c
  if k.mill.queue.any mine then some ((s.leaveSlots ((k.mill.queue.filter mine).map (·.id))).onMill c fun m => { m with queue := m.queue.filter fun x => !mine x })
  else if k.mill.streaming.any fun r => r.offered && mine r.cmd then some (s.onMill c fun m => { m with streaming := none })
  else if k.waiting.any fun r => (match r with | .mill x => mine x | _ => false) then
    some (s.onCore c fun k => { k with waiting := k.waiting.filter fun r => !(match r with | .mill x => mine x | _ => false) })
  else none

/-- The batch of a transfer that ends or is cancelled. -/
def State.leaveBatch (s : State) (cmd : PortCmd) (cause : Nat) (poison cancelled : Bool) (v : View) : State :=
  match cmd.batch with
  | none => s
  | some b => s.onParty cmd.uid fun p =>
    p.setStream cmd.stream ((p.stream cmd.stream).onBatch b fun x => x.leave cmd.pos cause poison cancelled v)

/-- Release a transfer's scoreboard entries: what it placed in them is then known to the party (08 R184). -/
def State.releaseScore (s : State) (uid owner : Nat) (wrote : View) : State :=
  s.onParty uid fun p =>
    let mine := p.score.filter fun e => e.owner == owner
    let base := fun near => if near then locNear p.core.die (p.segBase.getD 2 0).toNat else locScratch p.core (p.segBase.getD 0 0).toNat
    let known := wrote.filter fun f => mine.any fun e => rangesMeet f.lo f.len (base e.near + e.start) (e.stop - e.start)
    { p with score := p.score.filter fun e => e.owner != owner, known := View.join p.known known }

def State.cancelPort (s : State) (c : CoreRef) (uid i : Nat) : Option State :=
  let mine := fun (x : PortCmd) => x.uid == uid && x.future == some i
  let k := s.core c
  let found := ((k.urgent ++ k.normal) ++ k.waiting.filterMap fun r => (match r with | .port x => some x | _ => none)).find? mine
  found.map fun cmd =>
    let s := s.onCore c fun k => { k with
      urgent := k.urgent.filter fun x => !mine x
      normal := k.normal.filter fun x => !mine x
      waiting := k.waiting.filter fun r => !(match r with | .port x => mine x | _ => false) }
    (s.leaveBatch cmd 0 false true []).releaseScore uid cmd.id []

def State.cancelCommand (s : State) (c : CoreRef) (uid i : Nat) (e : Engine) : Option State :=
  match e with
  | .mill => s.cancelMill c uid i
  | .porter => s.cancelPort c uid i

/-- A future instruction: what it does with the entry its handle names. -/
def State.futureForm (s : State) (i : Instr) (d a : Opnd) (go : Turn → Nat → Future → Option (Word × State)) : Out :=
  s.issue i fun t =>
    let give := fun (s : State) (w : Word) =>
      let (insn, s) := s.fresh
      match supplier t.ms with
      | some f => (s.owe t i insn none (s.destOf t.p f d 1) [w]).advance t.uid t.gid i.raw
      | none => s.advance t.uid t.gid i.raw
    match t.p.handle (uniform32 s t (.op a)) with
    | none => .next (give s (statusWord futStale 0 false))
    | some k => match go t k (t.p.future k) with
      | some (w, s) => .next (give s w)
      | none =>
        let s := s.stampIssue t.uid t.gid
        .next ((s.hold t.uid t.gid (.future k (match d with | .s n => n | _ => 0))).deadlocks t.uid t.g.crew)

def Future.resolved (f : Future) : Bool := f.state == .done || f.state == .faulted

def execFtest (h : Head) (d a : Opnd) (s : State) : Out :=
  s.futureForm (.ftest h d a) d a fun t k f =>
    some (f.word, if f.resolved then (s.seeStatus t.uid t.gid f).onParty t.uid (·.consume k) else s)

def execFwait (h : Head) (d a : Opnd) (s : State) : Out :=
  s.futureForm (.fwait h d a) d a fun t k f =>
    if f.resolved then some (f.word, (s.seeStatus t.uid t.gid f).onParty t.uid (·.consume k)) else none

def execFcancel (h : Head) (d a : Opnd) (s : State) : Out :=
  s.futureForm (.fcancel h d a) d a fun t k f =>
    if f.resolved then some (f.word, (s.seeStatus t.uid t.gid f).onParty t.uid (·.consume k))
    else match s.cancelCommand t.p.core t.uid k f.engine with
      | some s => some (statusWord futCancelled 0 false,
          (t.p.fwaiters k).foldl (fun (s : State) w => s.giveStatus t.uid w.1.gid w.2 (statusWord futStale 0 false))
            (s.onParty t.uid (·.consume k)))
      | none => some (statusWord futPending 0 false, s.onParty t.uid fun p => p.setFuture k { f with drop := true })

/-! ### Grants (12 R263) -/

/-- Whether a queue has a free entry. -/
def State.queueRoom (s : State) (c : CoreRef) (e : Engine) : Bool :=
  match e with
  | .mill => (s.core c).mill.spilling.isNone && decide ((s.core c).mill.queue.length < 16)
  | .porter => decide ((s.core c).portQueued < 32)

/-- The turn of a gang that waits. -/
def State.turnFor (s : State) (uid gid : Nat) : Option Turn := ({ s with agent := .gang uid gid } : State).turnOf

/-- The Outrider whose post has been granted goes on. -/
def State.postGranted (s : State) (c : CoreRef) (id : Nat) : State :=
  s.onOutrider c fun o => if o.post == some id then { o with post := none, waiting := false, opc := o.opc + 16 } else o

/-- A Mill command accepted outside a gang's issue takes the owner tag; another owner stops a post that is being made (07 R168). -/
def State.millEnter (s : State) (c : CoreRef) (cmd : MillCmd) : State :=
  match (s.core c).mill.owner with
  | some o =>
    if o ≠ cmd.ctx ∧ (s.core c).outrider.post = some cmd.id then
      let s := s.returnPermit c cmd.uid .mill
      let s := s.onOutrider c fun k => if k.post == some cmd.id then { k with post := none, waiting := true } else k
      match s.party? cmd.uid with
      | some p => s.event 0 0 0x0D o p.source
      | none => s
    else (s.onMill c fun m => { m with queue := m.queue ++ [cmd] }).postGranted c cmd.id
  | none => (s.onMill c fun m => { m with queue := m.queue ++ [cmd], owner := some cmd.ctx }).postGranted c cmd.id

/-- A transfer that waits takes an entry: one that was fired or posted claims its scoreboard entries then, and waits for them first. -/
def State.portEnter (s : State) (c : CoreRef) (cmd : PortCmd) : Option State :=
  match s.party? cmd.uid with
  | none => some s
  | some p =>
    let cs := if p.score.any fun x => x.owner == cmd.id then [] else s.claims p cmd.a2av cmd.off
    if p.freeScore.length < cs.length then none
    else some (((s.onParty cmd.uid fun p => p.claim cmd.stream (cmd.batch.getD 0) cmd.id cs).portPush c cmd).postGranted c cmd.id)

/-- A gang's own instruction is granted an entry. -/
def State.grantGang (s : State) (t : Turn) (i : Instr) : State :=
  let a := fun (x : Option Src) => (x.map (uniform32 s t)).getD 0
  match millFormOf i (a (millOperand i)), portFormOf i (a (portOperand i)) with
  | some f, _ =>
    let (ok, s) := s.millTry i t f true
    if ok then s.endWait t.uid t.gid i.raw else s
  | none, some f =>
    let (ok, s) := s.portTry i t f true
    if ok then s.endWait t.uid t.gid i.raw else s
  | none, none => s

/-! ### Posts by the Outrider (06 R138, 13 R276) -/

/-- The engine instruction a post stands for: the modifier word is its X, with NH 1 and URG 0. -/
def postInstr (op x : Nat) (porter : Bool) : Decoded :=
  let x := if porter then 32 + x % 32 + x / 128 * 128 else if op = 646 then x else x ||| 32
  let raw : Raw := { len := 1, w := 0, gn := 0, gd := 0, ge := 0, op := op, d := 0, a := 320, b := 0, x := x }
  match decode false raw with
  | .ok i => .ok i
  | _ => decode false { raw with a := 0 }

/-- The OUTRIDER_FAULT of a command that cannot be posted. -/
def postFault : Decoded → OlFault
  | .reject c => olCause c
  | .badMod _ => .reservedMod
  | .ok _ => .illegal

def execOlpostMill (h : Head) (a b : Opnd) (op : Nat) (s : State) : Out :=
  let i := Instr.olpostMill h a b op
  s.olRun fun c o => match s.party? o.uid with
    | none => s
    | some p =>
      let d := postInstr op ((olRead o .n64 (.op b)).toNat % 2 ^ 19) false
      match d with
      | .ok e => match millFormOf e ((olRead o .n64 (.op a)).toNat % 2 ^ 32) with
        | none => s.olFault c .illegal
        | some f =>
          let m := (s.core c).mill
          let line := Contest.engine c .mill
          let place := requestPlace p.prio 16
          if decide (o.mill.limit ≤ o.mill.out) || s.overtaken line place then s
          else if m.foreign p.ctx then
            if o.waiting || m.isMember then s
            else (s.onOutrider c fun o => { o with waiting := true }).event 0 0 0x0D (m.owner.getD 0) p.source
          else
            let (id, s) := s.fresh
            let cmd : MillCmd := { id := id, op := f.op, uid := p.uid, ctx := p.ctx, posted := true }
            let s := (s.serve line place).onOutrider c fun o => { o with mill := { o.mill with out := o.mill.out + 1 } }
            if s.queueRoom c .mill && !s.engineWaits c .mill p.uid then
              (s.onMill c fun m => { m with queue := m.queue ++ [cmd], owner := some p.ctx }).onOutrider c (olAdvance i.raw)
            else (s.onOutrider c fun o => { o with waiting := true, post := some id }).onCore c fun k =>
              { k with waiting := k.waiting ++ [.mill cmd] }
      | d => s.olFault c (postFault d)

def execOlpostPort (h : Head) (a b : Opnd) (op : Nat) (s : State) : Out :=
  let i := Instr.olpostPort h a b op
  s.olRun fun c o => match s.party? o.uid with
    | none => s
    | some p =>
      match postInstr op ((olRead o .n64 (.op b)).toNat % 2 ^ 19) true with
      | .ok _ =>
        let off := (olRead o .n64 (.op a)).toNat % 2 ^ 32
        let cs := s.claims p (op == 770) off
        let line := Contest.engine c .porter
        let place := requestPlace p.prio 16
        if decide (o.port.limit ≤ o.port.out) || decide (p.freeScore.length < cs.length) || s.overtaken line place then s
        else
          let (id, s) := s.fresh
          let cmd : PortCmd := { id := id, a2av := op == 770, uid := p.uid, ctx := p.ctx, off := off, posted := true }
          let s := (s.serve line place).onOutrider c fun o => { o with port := { o.port with out := o.port.out + 1 } }
          if s.queueRoom c .porter && !s.engineWaits c .porter p.uid then
            ((s.onParty p.uid fun p => p.claim 0 0 id cs).portPush c cmd).onOutrider c (olAdvance i.raw)
          else (s.onOutrider c fun o => { o with waiting := true, post := some id }).onCore c fun k =>
            { k with waiting := k.waiting ++ [.port cmd] }
      | d => s.olFault c (postFault d)

/-- `olpost.rec` (06 R138, 12 R269): the fourth word's bit 31 is 0. -/
def execOlpostRec (h : Head) (a b : Opnd) (s : State) : Out :=
  let i := Instr.olpostRec h a b
  s.olRun fun c o =>
    if o.recs.limit ≤ o.recs.out then s
    else
      let x := olRead o .n64 (.op a)
      let y := olRead o .n64 (.op b)
      let r : BitVec 128 := BitVec.ofNat 128 (x.toNat + y.toNat % 2 ^ 63 * 2 ^ 64)
      (s.onParty o.uid fun p => { p with records := p.records ++ [r] }).onOutrider c fun o =>
        olAdvance i.raw { o with recs := { o.recs with out := o.recs.out + 1 } }

end Sys2Proof.Machine
end

