-- ==== Sys2Proof/Machine/Transfer.lean ====
section
/-!
DEFINITION. The Porter's transfers (13 R275, R282 to R285, R291 to R302): their start, the placement of pieces, their retirement, and the
finish of batches.
-/

namespace Sys2Proof.Machine

/-! ### Ends -/

/-- A Porter command ends (13 R284, R301): its batch, its scoreboard entries, its permit, its future or the supervisor's record. -/
def State.portDone (s : State) (c : CoreRef) (cmd : PortCmd) (cause : Nat) (poison : Bool) (wrote : View) : State :=
  let s := s.dropPieces cmd.id
  let s := s.leaveBatch cmd cause poison false wrote
  let s := s.releaseScore cmd.uid cmd.id wrote
  let s := if cmd.posted then s.returnPermit c cmd.uid .porter else s
  match cmd.future with
  | some i => s.resolveFuture cmd.uid i cause poison wrote
  | none =>
    if cause = 0 then s else match s.party? cmd.uid with
      | some p => s.event (unitKey c 2) 0 0x31 cause p.source
      | none => s

/-- Count a completion (13 R284, R295). -/
def State.completed (s : State) (p : Party) (c : CoreRef) (cen : Bool) (ccnt : Nat) (v : View) (more : List CntEdge := []) : State :=
  if cen then s.countUp p.ctx ccnt (engineIssuer .port p c) .dev v more else s

/-! ### Collective-table entries (13 R272, R287) -/

/-- The entry of a running collective of a context: its die and itself. -/
def State.collFind (s : State) (ctx coll seq : Nat) : Option (Nat × Collective) :=
  (List.range 4).findSome? fun d => ((s.die d).colls.find? fun e => e.ctx == ctx && e.coll == coll && e.seq == seq).map (d, ·)
def State.setColl (s : State) (die : Nat) (e : Collective) : State :=
  s.onDie die fun d => { d with colls := d.colls.map fun x => if x.idx == e.idx then e else x }
def State.collOf (s : State) (c : CoreRef) (x : Transfer) : Option Collective :=
  x.coll.bind fun i => (s.die c.die).colls.find? fun e => e.idx == i

def State.setXfer (s : State) (c : CoreRef) (x : Transfer) : State :=
  s.onCore c fun k => { k with xfers := k.xfers.map fun y => if y.slot == x.slot then x else y }
def State.xferAt (s : State) (c : CoreRef) (slot : Nat) : Option Transfer := (s.core c).xfers.find? fun x => x.slot == slot

/-- The grid of a transfer: its size, the rank of a point, COLL and SEQ. -/
def Transfer.grid (x : Transfer) : Nat := if x.cmd.a2av then (exchangeOf x.shape).g else (shapeOf x.shape).g
def Transfer.rankOf (x : Transfer) (q : Nat) : Nat := if x.cmd.a2av then (exchangeOf x.shape).rankOf q else (shapeOf x.shape).rankOf q

/-- The name a message of this device's carries. -/
def State.headOf (s : State) (e : Collective) : MsgHead :=
  { job := ((s.ctx? e.ctx).bind (·.job)).getD 0, coll := e.coll, seq := e.seq, src := e.self, rank := ((s.ctx? e.ctx).map (·.rank)).getD 0 }

/-- The name of an acknowledged message: unique on the device. -/
def msgId (die idx local_ : Nat) : Nat := (die * 64 + idx + 1) * 2 ^ 64 + local_

/-- A message's name for its sender's deadline: a contribution, a final, a count, an offset reply, an abort notice. -/
def contributionId (t : Nat) : Nat := 4 * t
def finalId (t q : Nat) : Nat := 4 * (t * 4096 + q) + 1
def countId (q : Nat) : Nat := 4 * q + 2
def offsetId (q : Nat) : Nat := 4 * q + 3
def abortId : Nat := 2 ^ 31

/-! ### Start checks (13 R282, R293) -/

/-- A rank is in the job. -/
def State.inJob (s : State) (p : Party) (r : Nat) : Bool :=
  r == p.rank || r == rankSelf || ((s.ctx? p.ctx).any fun c => (s.rankOk c p.rank r).1)

/-- Rows of a tensor pass the segment check for a party: at the issuing rank by every check, elsewhere by `.g`'s segment only. -/
def State.rowsOk (s : State) (p : Party) (sp : Space) (here wr : Bool) (rows : List (Nat × Nat)) : Bool :=
  if here then (s.engineAll p sp wr rows).1.isSome
  else rows.all fun r => decide (fld (p.segBase.getD 3 0) 45 0 ≤ r.1 % 2 ^ 46 ∧
    r.1 % 2 ^ 46 + r.2 ≤ fld (p.segBase.getD 3 0) 45 0 + (p.segLim.getD 3 0).toNat)

/-- Check 4 of 13 R282 beyond the layouts' own form. -/
def State.copyBad (s : State) (p : Party) (h : Shape) (src dst : Layout) : Bool :=
  let points := List.range h.g
  let self := points.find? fun q => h.rankOf q == p.rank
  let tiles := List.range src.tiles
  let tgt := if h.mode = 0 then (tiles.flatMap fun t => h.targets t).eraseDups else points
  let away := tgt.any fun q => h.rankOf q != p.rank
  let own := match self with
    | some q => (h.owned src.tiles q).length
    | none => 0
  (points.any fun q => !s.inJob p (h.rankOf q)) ||
  (tiles.any fun t => decide (dst.tiles ≤ h.chunk t) || dst.count (h.chunk t) != src.count t) ||
  decide (dst.sp = 3 ∧ 2 ^ 40 < dst.base % 2 ^ 40 + dst.hullLen) || decide (dst.sp = 4) || (away && decide (dst.sp ≠ 3 ∨ dst.base / 2 ^ 46 ≠ 0)) ||
  (h.mode != 0 && (self.isNone || decide (4096 < src.tileBytes ∨ 1024 < own))) || decide (h.mode = 2 ∧ h.srcl ≠ h.dstl) ||
  (h.mode != 0 && h.det && decide (h.stsize < (h.g - 1) * 4096 * own))

/-- Check 6 of 13 R282. -/
def State.copySegment (s : State) (p : Party) (h : Shape) (src dst : Layout) : Bool :=
  let lim := fun k => (p.segLim.getD k 0).toNat
  let self := (List.range h.g).find? fun q => h.rankOf q == p.rank
  let own := match self with
    | some q => (h.owned src.tiles q).length
    | none => 0
  s.rowsOk p (engineSpace src.sp) true false src.rows && s.rowsOk p (engineSpace dst.sp) self.isSome true dst.rows &&
  decide (h.stoff + 8 * ceilDiv src.tiles 64 ≤ lim 0) &&
  (h.mode == 0 || decide (h.aboff + 16 + abortMap dst.tiles + 16 * own ≤ lim 0)) &&
  (h.mode == 0 || !h.det || decide (h.stage + h.stsize ≤ lim 2))

/-- A reduction or an exchange, and its COLL and SEQ. -/
def Transfer.isColl (x : Transfer) : Bool := x.cmd.a2av || (shapeOf x.shape).mode != 0
def Transfer.key (x : Transfer) : Nat × Nat :=
  if x.cmd.a2av then ((exchangeOf x.shape).coll, (exchangeOf x.shape).seq) else ((shapeOf x.shape).coll, (shapeOf x.shape).seq)
/-- The send counts of an exchange, read at start. -/
def Transfer.counts (x : Transfer) : List Nat := (List.range (exchangeOf x.shape).g).map fun q => leAt x.src (4 * q) 4

/-- Another running transfer of the context has the COLL and SEQ (13 R287). -/
def State.collBusy (s : State) (id ctx coll seq : Nat) : Bool :=
  (s.collFind ctx coll seq).isSome ||
  s.cores.any fun k => k.2.xfers.any fun x => x.held && x.cmd.id != id && x.isColl && x.cmd.ctx == ctx && x.key == (coll, seq)

/-- The checks of `tcopy` at start, in order: a cause, or 0. -/
def State.copyStart (s : State) (p : Party) (id off : Nat) (b bs bd : List Byte) : Nat :=
  let h := shapeOf b
  let src := layoutOf bs
  let dst := layoutOf bd
  let lim := (p.segLim.getD 0 0).toNat
  if off % 16 ≠ 0 || shapeBad b then 1
  else if lim < h.srcl + 64 ∨ lim < h.dstl + 64 then 5
  else if !layoutSealed bs h.sver || !layoutSealed bd h.dver then 7
  else if layoutBad bs || layoutBad bd || s.copyBad p h src dst then 1
  else if src.ty != dst.ty || (h.mode != 0 && !redAccepts h.red src.ty) then 2
  else if !s.copySegment p h src dst then 5
  else if h.mode ≠ 0 ∧ s.collBusy id p.ctx h.coll h.seq then 1 else 0

/-- The bytes of the send buffer. -/
def Exchange.sendLen (x : Exchange) (counts : List Nat) : Nat := counts.sum * x.es

/-- The checks of `a2av` at start. The send extent depends on the counts. -/
def State.exchangeStart (s : State) (p : Party) (id off : Nat) (b : List Byte) (counts : List Nat) : Nat :=
  let x := exchangeOf b
  let lim := (p.segLim.getD 0 0).toNat
  if off % 16 ≠ 0 || exchangeBad b || ((List.range x.g).any fun q => !s.inJob p (x.rankOf q)) ||
      !((List.range x.g).any fun q => x.rankOf q == p.rank) then 1
  else if lim < x.scnt + 4 * x.g ∨ lim < x.out + 4 * (2 * x.g + 1) then 5
  else if !s.rowsOk p (engineSpace x.sspace) true false [(x.sbase, x.sendLen counts)] || !s.rowsOk p .g true true [(x.rbase, x.rcap * x.es)] then 5
  else if s.collBusy id p.ctx x.coll x.seq then 1 else 0

/-! ### Handshake (13 R287) -/

def Transfer.hand (x : Transfer) : Handshake :=
  if x.cmd.a2av then
    let e := exchangeOf x.shape
    ⟨1, 0, 0, false, Ty.code e.ty, 0, 0, e.g, 1, 1, 0, 0⟩
  else
    let h := shapeOf x.shape
    let l := layoutOf x.src
    ⟨0, h.mode, h.red, h.det, Ty.code l.ty, h.origin, h.rstep, h.gx, h.gy, h.gz, h.tpp, l.tiles⟩

/-- The other grid points of a collective. -/
def peersOf (g self : Nat) : List Nat := (List.range g).filter (· != self)

/-- A collective aborts at this rank: a notice goes to every other participant (13 R291). -/
def State.abortColl (s : State) (die : Nat) (e : Collective) (why : Nat) : State :=
  let s := s.setColl die { e with abort := some (e.abort.getD why) }
  let s := match (s.core e.core).xfers.find? fun x => x.cmd.id == e.xfer with
    | some x => if e.abort.isSome then s else (peersOf x.grid e.self).foldl (fun (s : State) q => s.emit (.abort (x.rankOf q) (s.headOf e))) s
    | none => s
  s.onCore e.core fun k => { k with xfers := k.xfers.map fun x => if x.cmd.id == e.xfer then { x with abort := some (x.abort.getD why) } else x }

/-- A local offset of scratch. -/
def State.scratchLoc (x : Transfer) (c : CoreRef) (off : Nat) : Nat := locScratch c ((x.segBase.getD 0 0).toNat + off)

/-- Porter writes to scratch, in words (09 R189). -/
def State.portWrite (s : State) (p : Party) (c : CoreRef) (x : Transfer) (off : Nat) (bs : List Byte) : Transfer × State :=
  let l := State.scratchLoc x c off
  let s := s.storeUnit (engineIssuer .port p c) x.start l none none (bs.map fun b => (b, false))
  let x := { x with writes := ⟨l, bs.length, s.stamp⟩ :: x.writes }
  (x, s.setXfer c x)

/-- A message that its receiver will acknowledge. -/
def State.await (s : State) (die : Nat) (e : Collective) (local_ : Nat) : Collective × State :=
  let e := { e with unacked := e.unacked ++ [⟨msgId die e.idx local_, s.deadline, max s.sys.rdeadline 1250⟩] }
  (e, s.setColl die e)

/-- Offsets of the blocks a member receives, and whether each fits (13 R294). -/
def Collective.roff (e : Collective) (q : Nat) : Nat := ((List.range q).map fun j => sget 0 e.counts j).sum
def Collective.fits (e : Collective) (cap q : Nat) : Bool := decide (e.roff q + sget 0 e.counts q ≤ cap)

/-- All counts have come: the member writes its counts and offsets, then replies to each sender (13 R294). -/
def State.answerCounts (s : State) (p : Party) (c : CoreRef) (x : Transfer) (e : Collective) : State :=
  let y := exchangeOf x.shape
  if !((List.range y.g).all fun q => (sfind e.counts q).isSome) then s else
  let ws := (List.range y.g).map (fun q => sget 0 e.counts q) ++ (List.range y.g).map fun q => min (e.roff q) (2 ^ 32 - 1)
  let (_, s) := s.portWrite p c x y.out (ws.flatMap (bytesOf 4))
  let reply := fun q => if e.fits y.rcap q || sget 0 e.counts q == 0 then some (e.roff q) else none
  let s := s.setColl c.die { e with replies := e.replies ++ [(e.self, reply e.self)] }
  (peersOf y.g e.self).foldl (fun (s : State) q => match s.collOf c x with
    | none => s
    | some e =>
      let (_, s) := s.await c.die e (offsetId q)
      s.emit (.offset (y.rankOf q) (s.headOf e) (reply q))) s

/-- Every handshake has come: a difference aborts; an exchange then sends its counts (13 R287, R294). -/
def State.beginColl (s : State) (die : Nat) (e : Collective) : State :=
  match (s.core e.core).xfers.find? fun x => x.cmd.id == e.xfer, e.mine with
  | some x, some mine =>
    let others := peersOf x.grid e.self
    if e.begun || e.abort.isSome || !(others.all fun q => (sfind e.hands q).isSome) then s
    else if others.any fun q => sget mine e.hands q != mine then s.abortColl die e 4
    else
      let e := { e with begun := true }
      let s := s.setColl die e
      if !x.cmd.a2av then s else
      match s.party? x.cmd.uid with
      | none => s
      | some p =>
        let y := exchangeOf x.shape
        let e := { e with counts := sput e.counts e.self (e.mineC.getD e.self 0) }
        let s := s.setColl die e
        let s := others.foldl (fun (s : State) q => match s.collOf e.core x with
          | none => s
          | some e =>
            let (_, s) := s.await die e (countId q)
            s.emit (.count (y.rankOf q) (s.headOf e) (e.mineC.getD q 0))) s
        match s.collOf e.core x with
        | some e => s.answerCounts p e.core x e
        | none => s
  | _, _ => s

/-- The table entry a transfer claims, before any handshake has come. -/
def Transfer.entry (x : Transfer) (p : Party) (c : CoreRef) (idx : Nat) : Collective :=
  { idx := idx, ctx := p.ctx, coll := x.key.1, seq := x.key.2, core := c, xfer := x.cmd.id
    self := ((List.range x.grid).find? fun q => x.rankOf q == p.rank).getD 0, mine := some x.hand, mineC := if x.cmd.a2av then x.counts else [] }

/-- Take an entry and send the handshake; early messages of the peers are taken in. -/
def State.enterColl (s : State) (c : CoreRef) (x : Transfer) (p : Party) : State :=
  let idx := lowestFree 64 ((s.die c.die).colls.map (·.idx))
  let e := x.entry p c idx
  let job := ((s.ctx? p.ctx).bind (·.job)).getD 0
  let mineMsg := fun (m : MsgHead × Handshake) => m.1.job == job && m.1.coll == e.coll && m.1.seq == e.seq
  let early := s.tables.early.filter mineMsg
  let hands := early.foldl (fun (h : Sparse Handshake) m => if m.2.kind == 255 then h else sput h m.1.src m.2) []
  let e := { e with hands := hands }
  let s := s.onDie c.die fun d => { d with colls := d.colls ++ [e] }
  let s := s.onTables fun t => { t with early := t.early.filter fun m => !mineMsg m }
  let s := s.setXfer c { x with coll := some idx }
  let s := (peersOf x.grid e.self).foldl (fun (s : State) q => s.emit (.handshake (x.rankOf q) (s.headOf e) x.hand)) s
  if early.any fun m => m.2.kind == 255 then s.abortColl c.die e 1 else s.beginColl c.die e

/-! ### Start (12 R265, 13 R275) -/

/-- The transfer the Porter would start next, and what becomes of `run`. -/
def Core.nextXfer (k : Core) : Option (PortCmd × Nat) :=
  match k.urgent, k.normal with
  | [], [] => none
  | [], n :: _ => some (n, k.run)
  | u :: _, ns => if ns.isEmpty || k.run < 8 then some (u, if ns.isEmpty then 0 else k.run + 1) else (ns.head?).map (·, 0)

/-- The party as its segments stood at the transfer's start. -/
def Transfer.party (x : Transfer) (p : Party) : Party := { p with segBase := x.segBase, segLim := x.segLim }

/-- Bytes a transfer reads or writes at its own device. -/
def Transfer.spans (x : Transfer) (p : Party) : List (Space × List (Nat × Nat)) :=
  if x.cmd.a2av then
    let y := exchangeOf x.shape
    [(engineSpace y.sspace, [(y.sbase, y.sendLen x.counts)]), (.s, [(y.scnt, 4 * y.g), (y.out, 4 * (2 * y.g + 1))])]
  else
    let h := shapeOf x.shape
    let src := layoutOf x.src
    let dst := layoutOf x.dst
    let self := (List.range h.g).find? fun q => h.rankOf q == p.rank
    [(engineSpace src.sp, src.rows), (.s, [(h.stoff, 8 * ceilDiv src.tiles 64)])] ++
    (if self.isSome then [(engineSpace dst.sp, dst.rows)] else []) ++
    (if h.mode = 0 then [] else
      [(.s, [(h.aboff, 16 + abortMap dst.tiles + 16 * (h.owned src.tiles (self.getD 0)).length)])] ++
      if h.det then [(.n, [(h.stage, h.stsize)])] else [])

/-- A range that the transfer reads or writes is still claimed by one accepted earlier (08 R184). -/
def State.blockedBy (s : State) (p : Party) (x : Transfer) : Bool :=
  let p := x.party p
  let earlier := { p with score := p.score.filter fun e => decide (e.owner < x.cmd.id) }
  (x.spans p).any fun e => match (s.engineAll p e.1 false e.2).1 with
    | some ps => ps.flatten.any earlier.scoreHit
    | none => false

/-- Read a record of scratch by words, with whether one is poisoned; none where it passes the limit. -/
def State.readRecord (s : State) (p : Party) (v : View) (off n : Nat) : Option (List Byte × Bool) × State :=
  match p.recordAt off n with
  | none => (none, s)
  | some l =>
    let (b, s) := s.readRange v (wordUnits l n)
    (some (b, s.poisonIn l n), s)

/-- A record may be read: no transfer accepted earlier still claims its range, and no store that the command follows is still to come (08 R184, 07 R144). -/
def State.recordReady (s : State) (p : Party) (cmd : PortCmd) (off n : Nat) : Bool :=
  !(p.score.any fun e => decide (e.owner < cmd.id) && !e.near && rangesMeet off n e.start (e.stop - e.start)) &&
  !((p.recordAt off n).any fun l => s.owes cmd.owed l n)

/-- What the reading of a transfer's records finds: they must wait; a cause, with POISON; or the transfer with its records. -/
inductive RecordEnd
  | wait
  | fail (cause : Nat) (poison : Bool)
  | go (x : Transfer)
  deriving DecidableEq, Repr

/-- Read a transfer's records and check them (13 R275, R282, R293). The send counts of an exchange are data: they follow `xfence`, not the crew's stores
as records do (18 R393). -/
def State.readRecords (s : State) (p : Party) (x : Transfer) : RecordEnd × State :=
  let cmd := x.cmd
  let data := View.join x.start p.known
  let v := View.join data cmd.seen
  let ready := fun off n => s.recordReady p cmd off n
  if !ready cmd.off 64 then (.wait, s) else
  match s.readRecord p v cmd.off 64 with
  | (none, s) => (.fail 5 false, s)
  | (some (b, bad), s) =>
    let x := { x with shape := b }
    if bad then (.fail 3 true, s)
    else if cmd.a2av then
      let y := exchangeOf b
      if !s.recordReady p { cmd with owed := [] } y.scnt (4 * y.g) then (.wait, s) else
      let (cnt, s) := s.readRecord p data y.scnt (4 * y.g)
      let lost := cnt.any (·.2)
      let x := { x with src := (cnt.map (·.1)).getD [] }
      let cause := s.exchangeStart p cmd.id cmd.off b (if lost then [] else x.counts)
      (if cause ≠ 0 then .fail cause false else if lost then .fail 3 true else .go x, s)
    else
      let h := shapeOf b
      if !(ready h.srcl 64 && ready h.dstl 64) then (.wait, s) else
      let (bs, s) := s.readRecord p v h.srcl 64
      let (bd, s) := s.readRecord p v h.dstl 64
      let bytes := fun (r : Option (List Byte × Bool)) => (r.map (·.1)).getD []
      let x := { x with src := bytes bs, dst := bytes bd }
      if !(decide (cmd.off % 16 ≠ 0) || shapeBad b) && ((bs.any (·.2)) || (bd.any (·.2))) then (.fail 3 true, s)
      else
        let cause := s.copyStart p cmd.id cmd.off b x.src x.dst
        (if cause ≠ 0 then .fail cause false else .go x, s)

/-- A transfer whose records stand goes on once the range scoreboard and, for a collective, the table let it (08 R184, 13 R287). -/
def State.xferAdmit (s : State) (c : CoreRef) (x : Transfer) (p : Party) : State :=
  if s.blockedBy p x || (x.isColl && decide (64 ≤ (s.die c.die).colls.length)) then s.setXfer c x
  else
    let x := { x with held := false }
    if x.isColl then (s.setXfer c x).enterColl c x p else s.setXfer c x

/-- Free a transfer's slot and its collective-table entry. -/
def State.freeXfer (s : State) (c : CoreRef) (x : Transfer) : State :=
  let s := s.onCore c fun k => { k with xfers := k.xfers.filter fun y => y.slot != x.slot }
  match x.coll with
  | some i => s.onDie c.die fun d => { d with colls := d.colls.filter fun e => e.idx != i }
  | none => s

/-- A started transfer goes on: it reads its records once it may, then waits for its ranges. -/
def State.xferGo (s : State) (c : CoreRef) (x : Transfer) (p : Party) : State :=
  if !x.shape.isEmpty then s.xferAdmit c x p else
  match s.readRecords (x.party p) x with
  | (.wait, _) => s
  | (.fail cause poison, s) => (s.freeXfer c x).portDone c x.cmd cause poison []
  | (.go x, s) => s.xferAdmit c x p

/-- TRANSFER_START: start the transfer chosen. -/
def State.xferStart (s : State) (c : CoreRef) : State :=
  let k := s.core c
  if 8 ≤ k.xfers.length || s.unitBlocked (unitKey c 2) then s else
  match k.nextXfer with
  | none => s
  | some (cmd, run) =>
    match s.party? cmd.uid with
    | none => s
    | some p =>
      let x : Transfer :=
        { slot := lowestFree 8 (k.xfers.map (·.slot)), cmd := cmd, shape := [], segBase := p.segBase, segLim := p.segLim, held := true
          start := View.join (View.join (View.join p.known p.portView) cmd.view) cmd.saw }
      let s := s.onCore c fun k =>
        { k with urgent := k.urgent.filter fun x => x.id != cmd.id, normal := k.normal.filter fun x => x.id != cmd.id, run := run
                 xfers := k.xfers ++ [x] }
      s.xferGo c x p

def execTransferStart (c : CoreRef) (s : State) : Out := .next (s.xferStart c)

/-! ### Placing one piece (13 R283 to R285) -/

/-- Read some extents within reach. -/
def State.portRead (s : State) (v : View) : List Part → Tagged × State
  | [] => ([], s)
  | q :: qs =>
    let (a, s) : Tagged × State := match q.place with
      | .loc l _ repl =>
        let (bs, s) := s.readRange (if repl.isSome then ⟨l, q.len, s.stamp⟩ :: v else v) (portUnits l q.len)
        (bs.mapIdx fun i b => (b, s.poisonAt (l + i)), s)
      | .got bs st => (bs.map fun b => (b, st == 1), s)
      | _ => (List.replicate q.len (0, false), s)
    let (b, s) := s.portRead v qs
    (a ++ b, s)

def State.portView (x : Transfer) (p : Party) : View := View.join x.start p.known

/-- Bring source extents within reach and read them. -/
def State.portFetch (s : State) (x : Transfer) (p : Party) (v : View) (sp : Space) (es : List (Nat × Nat)) : PieceEnd × List Tagged × State :=
  match s.engineAll (x.party p) sp false es with
  | (none, s) => (.memory XFault.notMapped.code, [], s)
  | (some ps, s) =>
    let (got, s) := s.fetchAll p x.cmd.id 5 64 x.refused v ps
    if got.any anyWait then (.wait, [], s)
    else match firstFail got.flatten with
      | some e => (e, [], s)
      | none =>
        let (bs, s) := got.foldl (fun (a : List Tagged × State) e =>
          let (b, s) := a.2.portRead v (e.map (·.1))
          (a.1 ++ [b], s)) ([], s)
        (.ok, bs, s)

/-- Locate destination extents. -/
def State.portLocate (s : State) (x : Transfer) (p : Party) : List (List Part) → List (List (Part × PieceEnd)) × State
  | [] => ([], s)
  | e :: es =>
    let (a, s) := e.foldl (fun (a : List (Part × PieceEnd) × State) q =>
      let (q, r, s) := a.2.locatePart p x.cmd.id 5 x.refused .write (State.portView x p) q
      (a.1 ++ [(q, r)], s)) ([], s)
    let (as, s) := s.portLocate x p es
    (a :: as, s)

/-- The key of a placement among a transfer's pieces at other devices. -/
def placeKey (code : Nat) : Nat := 2 ^ 90 + code

/-- Give each of some parts its bytes. -/
def splitTagged : List Part → Tagged → List (Part × Tagged)
  | [], _ => []
  | q :: qs, bs => (q, bs.take q.len) :: splitTagged qs (bs.drop q.len)

/-- Join what lies side by side. -/
def joinPieces : List (Part × Tagged) → List (Part × Tagged)
  | [] => []
  | (q, b) :: es => match joinPieces es with
    | (r, d) :: rs => if r.va = q.va + q.len ∧ r.place = q.place.shift q.len then (⟨q.va, q.len + r.len, q.place⟩, b ++ d) :: rs else (q, b) :: (r, d) :: rs
    | [] => [(q, b)]

/-- What is placed, in aligned 64-byte units where it covers them (09 R189). -/
def unitPieces (es : List (Part × Tagged)) : List (Part × Tagged) :=
  (joinPieces es).flatMap fun e => splitTagged (cutUnits (e.1.len / 64 + 2) e.1) e.2

/-- Store pieces here: a weight page's version advances once for each 64-byte unit (11 R240). -/
def State.placeHere (s : State) (src : Issuer) (v : View) : List (Part × Tagged) → List Nat → View × State
  | [], _ => ([], s)
  | (q, bs) :: es, seen => match q.place with
    | .loc l w repl =>
      let s := s.storeUnit src v l (if seen.contains (l / 64) then none else w) (repl.map (·, q.va)) bs
      let f : Fact := ⟨l, q.len, s.stamp⟩
      let (fs, s) := s.placeHere src v es (l / 64 :: seen)
      (f :: fs, s)
    | _ => s.placeHere src v es seen

/-- Send pieces to the devices that hold them: the runs of each 64-byte unit in one packet, keyed from `code` on. -/
def State.placeAway (s : State) (x : Transfer) (p : Party) (code : Nat) (count : Option Nat) (es : List (Part × Tagged)) : State :=
  let coll := if x.cmd.a2av then some ((exchangeOf x.shape).coll, (exchangeOf x.shape).seq) else none
  ((es.map fun e => e.1.va / 64).eraseDups).zipIdx.foldl (fun (s : State) u =>
    let mine := es.filterMap fun e => match e.1.place with
      | .remote r g o h => if e.1.va / 64 = u.1 then some (r, g, o, h, e.2) else none
      | _ => none
    let va := es.foldl (fun m e => if e.1.va / 64 = u.1 then min m e.1.va else m) (u.1 * 64 + 63)
    match mine with
    | [] => s
    | (r, g, o, h, _) :: _ =>
      let base := mine.foldl (fun m e => min m e.2.2.1) o
      let runs := mine.map fun e => (e.2.2.1 - base, e.2.2.2.2.map (·.1))
      let bad := mine.any fun e => e.2.2.2.2.any (·.2)
      s.sendPiece p x.cmd.id (placeKey (code + u.2)) ⟨va, 64 - va % 64, .remote r g base h⟩ (.scatter runs bad coll) count) s

/-- Store the runs of a piece or of a tile: here, or at the devices that hold them. What it answers is what was written here, and whether anything is on
its way elsewhere. A piece placed here advances its arrival counter. -/
def State.placeRuns (s : State) (x : Transfer) (p : Party) (c : CoreRef) (code : Nat) (count : Option Nat) (dst : List (List Part))
    (bs : List Tagged) : View × Bool × State :=
  let qs := unitPieces ((dst.zip bs).flatMap fun e => splitTagged e.1 e.2)
  let (away, here) := qs.partition fun e => e.1.isRemote
  let (v, s) := s.placeHere (engineIssuer .port p c) x.start here []
  let s := match count with
    | some n => if away.isEmpty then s.countUp p.ctx n (engineIssuer .port p c) .dev v else s
    | none => s
  (v, !away.isEmpty, s.placeAway x p code count away)

/-- Where some runs go: at this rank by every check; at another rank of a `tcopy` by the `.g` segment too (13 R282); of an exchange the receiver's own
check of its buffer stands (13 R293). -/
def State.destParts (s : State) (x : Transfer) (p : Party) (sp : Space) (rank : Option Nat) (runs : List Run) : Option (List (List Part)) × State :=
  match rank with
  | none => s.engineAll (x.party p) sp true (runs.map fun r => (r.dst, r.len))
  | some k =>
    if x.cmd.a2av then (some (runs.map fun r => cutVas (vaOfRemote k) (r.dst % 2 ^ 46) r.len), s)
    else s.engineAll (x.party p) sp true (runs.map fun r => (2 ^ 63 + k * 2 ^ 46 + r.dst % 2 ^ 46, r.len))

/-- Place one piece of a transfer: runs with addresses in the source space and in the destination space of rank `rank`. -/
def State.placeOne (s : State) (x : Transfer) (p : Party) (c : CoreRef) (code : Nat) (ssp dsp : Space) (rank : Option Nat) (count : Option Nat)
    (runs : List Run) : PieceEnd × Bool × View × State :=
  match s.portFetch x p (State.portView x p) ssp (runs.map fun r => (r.src, r.len)) with
  | (.ok, bs, s) =>
    match s.destParts x p dsp rank runs with
    | (none, s) => (.memory XFault.notMapped.code, false, [], s)
    | (some ps, s) =>
      let (ds, s) := s.portLocate x p ps
      if ds.any anyWait then (.wait, false, [], s)
      else match firstFail ds.flatten with
        | some e => (e, false, [], s)
        | none =>
          let (v, _, s) := s.placeRuns x p c code count (ds.map fun e => e.map (·.1)) bs
          (.ok, bs.any fun b => b.any (·.2), v, s.count c 0x0B 1 p.ctx)
  | (e, _, s) => (e, false, [], s)

/-- Cause codes of a failed piece. -/
def PieceEnd.portCause : PieceEnd → Nat
  | .timeout => 6
  | _ => 3

/-! ### COPY (13 R283) -/

/-- The code of piece k of tile t at grid point q. -/
def copyCode (t q k : Nat) : Nat := (t * 4096 + q) * 2 ^ 20 + k

/-- Destination and source of the bytes of tile t. -/
def Transfer.pairs (x : Transfer) (t : Nat) : List (Nat × Nat) :=
  let h := shapeOf x.shape
  let src := layoutOf x.src
  let dst := layoutOf x.dst
  tilePairs src.es (dst.elemsAt (h.chunk t)) (src.elemsAt t)

def State.placeCopy (s : State) (c : CoreRef) (x : Transfer) (p : Party) (code : Nat) : State :=
  let h := shapeOf x.shape
  let t := code / 2 ^ 20 / 4096
  let q := code / 2 ^ 20 % 4096
  let src := layoutOf x.src
  if x.placed.contains code || x.failed.contains t || decide (src.tiles ≤ t) || !(h.targets t).contains q then s else
  let runs := pieceRuns (x.pairs t) (code % 2 ^ 20)
  if runs.isEmpty then s else
  let rank := if h.rankOf q == p.rank then none else some (h.rankOf q)
  match s.placeOne x p c code (engineSpace src.sp) (engineSpace (layoutOf x.dst).sp) rank (if h.aen then some h.acnt else none) runs with
  | (.ok, bad, v, s) => s.setXfer c { x with placed := x.placed ++ [code], poison := x.poison || bad, writes := v ++ x.writes }
  | (.wait, _, _, s) => s
  | (_, _, _, s) => s.setXfer c { x with failed := natAdd x.failed t }

/-! ### Reductions (13 R286 to R290) -/

/-- Combine two elements (13 R286). -/
def combine (red : Nat) (t : Ty) (x y : Nat) : Nat :=
  let m := 2 ^ t.width
  match red with
  | 1 => if t.isFloat then (fmtOf t).round .rne false (xadd .rne ((fmtOf t).value x) ((fmtOf t).value y)) else (x + y) % m
  | 2 => if t.isFloat then (fmtOf t).round .rne false (xminmax true ((fmtOf t).value x) ((fmtOf t).value y))
         else if tyVal t y < tyVal t x then y else x
  | 3 => if t.isFloat then (fmtOf t).round .rne false (xminmax false ((fmtOf t).value x) ((fmtOf t).value y))
         else if tyVal t x < tyVal t y then y else x
  | 4 => x &&& y
  | 5 => x ||| y
  | _ => x ^^^ y

/-- The elements of a tile's bytes. -/
def tileElems (es : Nat) (bs : List Byte) : List Nat := (List.range (bs.length / es)).map fun i => leAt bs (i * es) es

def combineTiles (red : Nat) (t : Ty) (x y : List Byte) : List Byte :=
  let es := t.width / 8
  ((tileElems es x).zip (tileElems es y)).flatMap fun e => leBytes es (combine red t e.1 e.2)

/-- Join spans that lie side by side. -/
def joinSpans : List (Nat × Nat) → List (Nat × Nat)
  | [] => []
  | (a, n) :: es => match joinSpans es with
    | (b, m) :: rs => if b = a + n then (a, n + m) :: rs else (a, n) :: (b, m) :: rs
    | [] => [(a, n)]

/-- The spans of a tile's elements in order. -/
def Layout.spansOf (l : Layout) (t : Nat) : List (Nat × Nat) := joinSpans ((l.elemsAt t).map fun a => (a, l.es))

/-- A tile's bytes cut at its elements: poison is an element's. -/
def elemTags (es : Nat) (bs : Tagged) : List Bool := (List.range (bs.length / es)).map fun i => ((bs.drop (i * es)).take es).any (·.2)

/-- Read a tile: its bytes and the poison of each element. -/
def State.readTile (s : State) (x : Transfer) (p : Party) (v : View) (l : Layout) (t : Nat) : PieceEnd × List Byte × List Bool × State :=
  match s.portFetch x p v (engineSpace l.sp) (l.spansOf t) with
  | (.ok, bs, s) => (.ok, bs.flatten.map (·.1), elemTags l.es bs.flatten, s)
  | (e, _, s) => (e, [], [], s)

/-- Read the chunk as it stands: after one's own writes of it, and again at each application where another device holds it. -/
def State.readChunk (s : State) (x : Transfer) (p : Party) (dt : Nat) : PieceEnd × List Byte × List Bool × State :=
  match s.readTile x p (View.join (State.portView x p) x.writes) (layoutOf x.dst) dt with
  | (.ok, bs, bad, s) =>
    let keys := (((s.engineAll (x.party p) (engineSpace (layoutOf x.dst).sp) false ((layoutOf x.dst).spansOf dt)).1).getD []).flatten.map Part.key
    (.ok, bs, bad, { s with flight := s.flight.filter fun a => !(a.gid == x.cmd.id && a.fid == some engineFid && keys.contains a.insn) })
  | r => r

/-- The parts of chunk dt at this rank, located for writing. -/
def State.chunkParts (s : State) (x : Transfer) (p : Party) (dt : Nat) : PieceEnd × List (List Part) × State :=
  let dst := layoutOf x.dst
  match s.engineAll (x.party p) (engineSpace dst.sp) true (dst.spansOf dt) with
  | (none, s) => (.memory XFault.notMapped.code, [], s)
  | (some ps, s) =>
    let (ds, s) := s.portLocate x p ps
    if ds.any anyWait then (.wait, [], s)
    else match firstFail ds.flatten with
      | some e => (e, [], s)
      | none => (.ok, ds.map fun e => e.map (·.1), s)

/-- The key of a unit of chunk dt among placements. -/
def chunkCode (dt k : Nat) : Nat := dt * 2 ^ 20 + k

/-- Write a tile to its parts as one step. -/
def State.writeTile (s : State) (x : Transfer) (p : Party) (c : CoreRef) (dt : Nat) (parts : List (List Part)) (bs : List Byte) (pois : List Bool) :
    View × Bool × State :=
  let es := (layoutOf x.dst).es
  let tagged := bs.mapIdx fun i b => (b, pois.getD (i / es) false)
  let spans := (parts.foldl (fun (a : List Tagged × Tagged) e =>
    let n := (e.map (·.len)).sum
    (a.1 ++ [a.2.take n], a.2.drop n)) ([], tagged)).1
  s.placeRuns x p c (chunkCode dt 0) none parts spans

/-- Count the pieces of a tile that became final here, but for those that were not placed (13 R284, R290). -/
def State.countTile (s : State) (x : Transfer) (p : Party) (c : CoreRef) (dt : Nat) (v : View) (lost : Nat := 0) : State :=
  let h := shapeOf x.shape
  if !h.aen then s
  else (List.range ((layoutOf x.dst).pieceCount dt - lost)).foldl (fun (s : State) _ => s.countUp p.ctx h.acnt (engineIssuer .port p c) .dev v) s

/-- An owned tile has become final: in MODE 2 it goes to every other grid point. -/
def State.tileFinal (s : State) (x : Transfer) (p : Party) (c : CoreRef) (e : Collective) (t dt : Nat) (bs : List Byte) (pois : List Bool) (v : View) : State :=
  let h := shapeOf x.shape
  let s := (s.setColl c.die { e with finals := natAdd e.finals dt }).countTile x p c dt v
  if h.mode ≠ 2 then s else
  (peersOf h.g e.self).foldl (fun (s : State) q => match s.collOf c x with
    | none => s
    | some e =>
      let (_, s) := s.await c.die e (finalId t q)
      s.emit (.final (h.rankOf q) (s.headOf e) ⟨t, 2 ^ h.g - 1, bs, pois⟩)) s

/-- The contributors applied to a chunk so far: in MODE 2 the owner's own tile stands there from the start (13 R288). -/
def Collective.seen (e : Collective) (h : Shape) (dt : Nat) : Nat := sget (if h.mode = 2 then 2 ^ e.self else 0) e.arrived dt

/-- A chunk is being written at another device. -/
def Collective.busy (e : Collective) (dt : Nat) : Bool := e.settling.any fun z => z.chunk == dt

/-- A chunk holds its new value: what the entry notes of it. -/
def Collective.take (e : Collective) (h : Shape) (z : Settling) : Collective :=
  { e with settling := e.settling.filter fun y => y.chunk != z.chunk
           arrived := if h.owner z.tile = e.self then sput e.arrived z.chunk z.bitmap else e.arrived
           pois := if h.owner z.tile = e.self then
               (e.pois.filter fun y => y.1 != z.chunk) ++ (z.poison.zipIdx.filter (·.1)).map fun y => (z.chunk, y.2)
             else e.pois
           finals := if z.last then natAdd e.finals z.chunk else e.finals }

/-- Acknowledge a message to its sender, who may be oneself. -/
def State.ackPeer (s : State) (x : Transfer) (e : Collective) (q id : Nat) : State :=
  if q = e.self then s else s.emit (.ack (x.rankOf q) (s.headOf e) id)

/-- The contributors of a message: each of them awaits its acknowledgement, those of a merged one too (13 R287, R288). -/
def Shape.contributors (h : Shape) (bitmap : Nat) : List Nat := (List.range h.g).filter (bit bitmap)

/-- Acknowledge a contribution to all who made it. -/
def State.ackContribution (s : State) (x : Transfer) (e : Collective) (m : TileMsg) : State :=
  ((shapeOf x.shape).contributors m.bitmap).foldl (fun s q => s.ackPeer x e q (contributionId m.tile)) s

/-- A chunk has its new value: its message is acknowledged; a final one is counted, and one's own goes out (13 R290). -/
def State.settleTile (s : State) (c : CoreRef) (x : Transfer) (p : Party) (e : Collective) (z : Settling) (v : View) : State :=
  let h := shapeOf x.shape
  let own := h.owner z.tile == e.self
  let s := z.srcs.foldl (fun s q => s.ackPeer x e q (if own then contributionId z.tile else finalId z.tile e.self)) s
  let e := e.take h z
  let s := s.setColl c.die e
  if !z.last then s
  else if own then s.tileFinal x p c e z.tile z.chunk z.bytes z.poison v
  else s.countTile x p c z.chunk v

/-- A chunk's new value has been written here or sent to its device, which has still to take it. -/
def State.tileWritten (s : State) (c : CoreRef) (x : Transfer) (p : Party) (e : Collective) (z : Settling) (w : View × Bool) : State :=
  let x := { x with writes := w.1 ++ x.writes, poison := x.poison || z.poison.any id }
  let s := s.setXfer c x
  if w.2 then s.setColl c.die { e with settling := e.settling ++ [z] } else s.settleTile c x p e z w.1

/-- Apply a contribution to an owned tile with DET = 0 (13 R288); it waits where its page must still be found. -/
def State.applyTree (s : State) (x : Transfer) (p : Party) (c : CoreRef) (e : Collective) (m : TileMsg) : PieceEnd × State :=
  let h := shapeOf x.shape
  let l := layoutOf x.dst
  let dt := h.chunk m.tile
  let old := e.seen h dt
  if e.busy dt then (.wait, s)
  else if old &&& m.bitmap ≠ 0 then (.ok, (s.linkEvent 0x031A).ackContribution x e m) else
  match s.chunkParts x p dt with
  | (.ok, parts, s) =>
    let first := decide (old = 0)
    match if first then (.ok, [], [], s) else s.readChunk x p dt with
    | (.ok, was, bad, s) =>
      let bs := if first then m.bytes else combineTiles h.red l.ty was m.bytes
      let pois := (List.range (l.count dt)).map fun i => m.poison.getD i false ||
        (!first && (e.pois.contains (dt, i) || ((sfind e.arrived dt).isNone && bad.getD i false)))
      let (v, away, s) := s.writeTile x p c dt parts bs pois
      let now := old ||| m.bitmap
      (.ok, s.tileWritten c x p e ⟨m.tile, dt, h.contributors m.bitmap, now, decide (now = 2 ^ h.g - 1), bs, pois⟩ (v, away))
    | (r, _, _, s) => (r, s)
  | (r, _, s) => (r, s)

/-- Where a staged contribution lies in the stage (13 R289): DESIGN CHOICE, log 27. -/
def stageAt (h : Shape) (e : Collective) (t src : Nat) : Nat :=
  h.stage + (h.tileAt t * (h.g - 1) + (if e.self < src then src - 1 else src)) * 4096

/-- Put a contribution in the stage: poison goes to the units of its poisoned elements alone (08 R187). -/
def State.stageTile (s : State) (x : Transfer) (p : Party) (c : CoreRef) (e : Collective) (src : Nat) (m : TileMsg) : State :=
  if src = e.self then s else
  let near := locNear c.die ((x.segBase.getD 2 0).toNat + stageAt (shapeOf x.shape) e m.tile src)
  let es := (layoutOf x.dst).es
  let q : Part := ⟨near, m.bytes.length, .loc near none none⟩
  (s.placeHere (engineIssuer .port p c) x.start (unitPieces [(q, m.bytes.mapIdx fun i b => (b, m.poison.getD (i / es) false))]) []).2

/-- All contributions of a tile have been staged: the left fold in grid order is written once (13 R289). -/
def State.foldTile (s : State) (x : Transfer) (p : Party) (c : CoreRef) (e : Collective) (t : Nat) : PieceEnd × State :=
  let h := shapeOf x.shape
  let l := layoutOf x.dst
  let dt := h.chunk t
  match s.chunkParts x p dt with
  | (.ok, parts, s) =>
    match if h.mode = 2 then s.readChunk x p dt else (.ok, [], [], s) with
    | (.ok, was, bad, s) =>
      let part := fun q => if h.mode = 2 ∧ q = e.self then some (was, bad)
        else (e.staged.find? fun y => y.1 == t && y.2.1 == q).map fun y => y.2.2
      match (List.range h.g).filterMap part with
      | [] => (.ok, s)
      | a :: as =>
        let bs := as.foldl (fun b y => combineTiles h.red l.ty b y.1) a.1
        let pois := (List.range (l.count dt)).map fun i => (a :: as).any fun y => y.2.getD i false
        let (v, away, s) := s.writeTile x p c dt parts bs pois
        let e := { e with staged := e.staged.filter fun y => y.1 != t }
        (.ok, s.tileWritten c x p e ⟨t, dt, [], 2 ^ h.g - 1, true, bs, pois⟩ (v, away))
    | (r, _, _, s) => (r, s)
  | (r, _, s) => (r, s)

/-- Stage a contribution with DET = 1, and fold when all have come (13 R289). The last is taken only once the tile's pages are found. -/
def State.applyDet (s : State) (x : Transfer) (p : Party) (c : CoreRef) (e : Collective) (src : Nat) (m : TileMsg) : PieceEnd × State :=
  let h := shapeOf x.shape
  let dt := h.chunk m.tile
  let old := e.seen h dt
  if old &&& m.bitmap ≠ 0 then (.ok, (s.linkEvent 0x031A).ackPeer x e src (contributionId m.tile)) else
  let e' := { e with staged := e.staged ++ [(m.tile, src, m.bytes, m.poison)], arrived := sput e.arrived dt (old ||| m.bitmap) }
  let staged := fun (s : State) => ((s.setColl c.die e').stageTile x p c e src m).ackPeer x e src (contributionId m.tile)
  if old ||| m.bitmap = 2 ^ h.g - 1 then match (s.setColl c.die e').foldTile x p c e' m.tile with
    | (.ok, s) => (.ok, (s.stageTile x p c e src m).ackPeer x e src (contributionId m.tile))
    | (r, s') => (r, if r == .wait then s'.setColl c.die e else s')
  else (.ok, staged s)

def State.applyTile (s : State) (x : Transfer) (p : Party) (c : CoreRef) (e : Collective) (src : Nat) (m : TileMsg) : PieceEnd × State :=
  if (shapeOf x.shape).det then s.applyDet x p c e src m else s.applyTree x p c e m

/-- Whether this rank has source tile t to contribute: every tile, but its own in MODE 2, which stands in place; where it is alone, that tile is
final as it stands. -/
def contributes (h : Shape) (self t : Nat) : Bool := !(h.mode == 2 && h.owner t == self && h.g != 1)

/-- A tile that fails aborts the collective (13 R285, R291). -/
def State.failTile (s : State) (c : CoreRef) (x : Transfer) (e : Collective) (t : Nat) : State :=
  (s.setXfer c { x with failed := natAdd x.failed t }).abortColl c.die e 2

/-- Send source tile t to its owner, or apply it here (13 R287). -/
def State.contribute (s : State) (c : CoreRef) (x : Transfer) (p : Party) (e : Collective) (t : Nat) : State :=
  let h := shapeOf x.shape
  let src := layoutOf x.src
  if !e.begun || e.abort.isSome || e.sentC.contains t || decide (src.tiles ≤ t) || !contributes h e.self t then s else
  match s.readTile x p (State.portView x p) src t with
  | (.ok, bs, bad, s) =>
    let m : TileMsg := ⟨t, 2 ^ e.self, bs, bad⟩
    let x := { x with poison := x.poison || bad.any id }
    let s := s.setXfer c x
    let sent := fun (e : Collective) => { e with sentC := natAdd e.sentC t }
    if h.mode = 2 ∧ h.g = 1 then s.tileFinal x p c (sent e) t t m.bytes m.poison []
    else if h.owner t = e.self then
      match s.applyTile x p c e e.self m with
      | (.ok, s) => ((s.collOf c x).map fun e => s.setColl c.die (sent e)).getD s
      | (.wait, s) => s
      | (_, s) => s.failTile c x e t
    else
      let e := sent e
      let s := s.setColl c.die e
      let (_, s) := s.await c.die e (contributionId t)
      s.emit (.contribution (h.rankOf (h.owner t)) (s.headOf e) m)
  | (.wait, _, _, s) => s
  | (_, _, _, s) => s.failTile c x e t

/-! ### Exchange (13 R294) -/

/-- The code of piece k of the block for member q. -/
def blockCode (q k : Nat) : Nat := q * 2 ^ 40 + k

/-- The runs of the block for member q. -/
def blockPairs (y : Exchange) (counts : List Nat) (q off : Nat) : Nat × Nat × Nat :=
  (y.rbase + off * y.es, y.sbase + (counts.take q).sum * y.es, counts.getD q 0 * y.es)

/-- Piece k of a contiguous block, cut at 64-byte boundaries of the destination. -/
def blockRun (d a n k : Nat) : Option Run :=
  let lo := max d ((d / 64 + k) * 64)
  let hi := min (d + n) ((d / 64 + k + 1) * 64)
  if lo < hi then some ⟨lo, a + (lo - d), hi - lo⟩ else none
def blockPieces (d n : Nat) : Nat := if n = 0 then 0 else (d + n - 1) / 64 - d / 64 + 1

def Collective.replyOf (e : Collective) (q : Nat) : Option (Option Nat) := (e.replies.find? fun r => r.1 == q).map (·.2)

def State.placeBlock (s : State) (c : CoreRef) (x : Transfer) (p : Party) (e : Collective) (code : Nat) : State :=
  let y := exchangeOf x.shape
  let q := code / 2 ^ 40
  if e.abort.isSome || x.placed.contains code || x.failed.contains q || decide (y.g ≤ q) then s else
  match e.replyOf q with
  | some (some off) =>
    let (d, a, n) := blockPairs y e.mineC q off
    match blockRun d a n (code % 2 ^ 40) with
    | none => s
    | some r =>
      let rank := if q = e.self then none else some (y.rankOf q)
      match s.placeOne x p c code (engineSpace y.sspace) .g rank (if y.aen then some y.acnt else none) [r] with
      | (.ok, bad, v, s) => s.setXfer c { x with placed := x.placed ++ [code], poison := x.poison || bad, writes := v ++ x.writes }
      | (.wait, _, _, s) => s
      | (f, _, _, s) => s.setXfer c { x with failed := natAdd x.failed q, causes := x.causes ++ [16 * (q + 1) + f.portCause] }
  | _ => s

/-- PIECE_PLACEMENT: one piece, one contribution, or one piece of a block. -/
def execPiecePlacement (c : CoreRef) (slot piece : Nat) (s : State) : Out :=
  match s.xferAt c slot with
  | none => .next s
  | some x => match s.party? x.cmd.uid with
    | none => .next s
    | some p =>
      if p.ended || x.abort.isSome then .next s
      else if x.held then .next (s.xferGo c x p)
      else match x.coll with
        | none => .next (s.placeCopy c x p piece)
        | some _ => match s.collOf c x with
          | none => .next s
          | some e => .next (if x.cmd.a2av then s.placeBlock c x p e piece else s.contribute c x p e piece)

/-! ### Retirement (13 R284, R285, R290 to R296) -/

/-- Placements at other devices: not yet answered; refused, with code and cause. -/
def State.openPieces (s : State) (id : Nat) : Bool := (s.pieces id).any fun a => decide (2 ^ 90 ≤ a.insn) && a.open_ && a.stage != .ready
/-- The placements of a chunk at other devices. -/
def State.chunkPieces (s : State) (id dt : Nat) : List Access := (s.pieces id).filter fun a => decide (2 ^ 90 ≤ a.insn ∧ (a.insn - 2 ^ 90) / 2 ^ 20 = dt)
def State.lostPieces (s : State) (id : Nat) : List (Nat × Nat) :=
  (s.pieces id).filterMap fun a => if 2 ^ 90 ≤ a.insn ∧ a.pieceCause ≠ 0 then some (a.insn - 2 ^ 90, a.pieceCause) else none

/-- The status bitmap (13 R285). -/
def bitmapBytes (nt : Nat) (failed : List Nat) : List Byte := bytesOf (8 * ceilDiv nt 64) ((failed.map fun t => 2 ^ t).sum)

/-- Every piece of every tile that has not failed has been placed. -/
def copyDone (x : Transfer) : Bool :=
  let h := shapeOf x.shape
  let dst := layoutOf x.dst
  (List.range (layoutOf x.src).tiles).all fun t => x.failed.contains t ||
    (h.targets t).all fun q => (List.range (dst.pieceCount (h.chunk t))).all fun k => x.placed.contains (copyCode t q k)

/-- The state code of a destination tile after an abort (13 R291). -/
def tileState (h : Shape) (e : Collective) (dt : Nat) : Nat :=
  if e.finals.contains dt then 2
  else if h.det then 0
  else if (sfind e.arrived dt).isSome && decide (e.seen h dt ≠ 0) then 1 else 0

/-- The abort record (13 R292). -/
def abortBytes (x : Transfer) (e : Collective) (why : Nat) : List Byte :=
  let h := shapeOf x.shape
  let n := (layoutOf x.dst).tiles
  let codes := (List.range n).map fun t => (t, tileState h e t)
  let parts := codes.filter fun k => k.2 == 1
  bytesOf 4 (why * 2 ^ 16 + h.coll) ++ bytesOf 4 n ++ bytesOf 4 parts.length ++ bytesOf 4 0 ++
  bytesOf (abortMap n) ((codes.map fun k => k.2 * 4 ^ k.1).sum) ++
  parts.flatMap fun k => bytesOf 4 k.1 ++ bytesOf 4 0 ++ bytesOf 8 (e.seen h k.1)

/-- Every placement of a chunk at other devices has been accepted. -/
def State.accepted (s : State) (id : Nat) (z : Settling) : Bool := (s.chunkPieces id z.chunk).all fun a => a.stage == .ready

/-- Chunks whose placements have been answered: they stand, or their tile fails (13 R285, R290). -/
def State.settleAll (s : State) (c : CoreRef) (slot : Nat) (p : Party) (zs : List Settling) : State :=
  zs.foldl (fun (s : State) z => match s.xferAt c slot with
    | none => s
    | some x => match s.collOf c x with
      | none => s
      | some e =>
        let ps := s.chunkPieces x.cmd.id z.chunk
        if e.abort.isSome || (ps.any fun a => a.open_ && a.stage != .ready) then s
        else if ps.any fun a => a.pieceCause != 0 then s.failTile c x e z.tile
        else
          let ids := ps.map (·.id)
          ({ s with flight := s.flight.filter fun a => !ids.contains a.id } : State).settleTile c x p e z []) s

/-- A COPY transfer retires. -/
def State.retireCopy (s : State) (c : CoreRef) (x : Transfer) (p : Party) : State :=
  let h := shapeOf x.shape
  let lost := (s.lostPieces x.cmd.id).map fun e => e.1 / 2 ^ 20 / 4096
  let x := { x with failed := lost.foldl natAdd x.failed }
  if s.openPieces x.cmd.id || !copyDone x then s.setXfer c x else
  let (x, s) := s.portWrite p c x h.stoff (bitmapBytes (layoutOf x.src).tiles x.failed)
  let s := s.completed p c h.cen h.ccnt x.writes
  (s.freeXfer c x).portDone c x.cmd (if x.failed.isEmpty then 0 else 8) x.poison x.writes

/-- An aborted collective: once what it has sent to be placed is answered, its records (13 R291, R292); the pieces of final tiles that were placed
count (13 R284, 15 R334). -/
def State.retireAbort (s : State) (c : CoreRef) (x : Transfer) (p : Party) (e : Collective) (why : Nat) : State :=
  let s := if e.abort.isNone then s.abortColl c.die e why else s
  let zs := e.settling
  let e := (zs.filter (s.accepted x.cmd.id)).foldl (fun e z => e.take (shapeOf x.shape) z) e
  let lost := fun (z : Settling) => ((s.chunkPieces x.cmd.id z.chunk).filter fun a => a.stage != .ready).length
  if s.openPieces x.cmd.id && !p.ended then s
  else if p.ended then (s.freeXfer c x).portDone c x.cmd 9 x.poison [] else
  if x.cmd.a2av then
    let y := exchangeOf x.shape
    ((s.completed p c y.cen y.ccnt x.writes x.heard).freeXfer c x).portDone c x.cmd 9 x.poison x.writes
  else
    let h := shapeOf x.shape
    let (x, s) := s.portWrite p c x h.stoff (bitmapBytes (layoutOf x.src).tiles x.failed)
    let (x, s) := s.portWrite p c x h.aboff (abortBytes x e why)
    let s := (zs.filter (·.last)).foldl (fun s z => s.countTile x p c z.chunk [] (lost z)) s
    ((s.completed p c h.cen h.ccnt x.writes).freeXfer c x).portDone c x.cmd 9 x.poison x.writes

/-- A reduction retires (13 R290). -/
def State.retireReduce (s : State) (c : CoreRef) (x : Transfer) (p : Party) (e : Collective) : State :=
  let h := shapeOf x.shape
  let nt := (layoutOf x.src).tiles
  if !e.settling.isEmpty then s.settleAll c x.slot p e.settling else
  let sent := (List.range nt).all fun t => !contributes h e.self t || e.sentC.contains t
  let acked := e.unacked.all fun u => u.id % 4 != 0
  let finals := if h.mode = 2 then (List.range nt).all fun t => e.finals.contains t
    else (h.owned nt e.self).all fun t => e.finals.contains (h.chunk t)
  if !(e.begun && sent && acked && finals) then s else
  let (x, s) := s.portWrite p c x h.stoff (bitmapBytes nt [])
  let s := s.completed p c h.cen h.ccnt x.writes
  (s.freeXfer c x).portDone c x.cmd 0 x.poison x.writes

/-- Tell members whose blocks have ended; one's own is noted (13 R294, R296). -/
def State.tellBlocks (s : State) (c : CoreRef) (x : Transfer) (e : Collective) : Collective × State :=
  let y := exchangeOf x.shape
  let lost := s.lostPieces x.cmd.id
  let ended := (List.range y.g).filter fun q => !e.finals.contains q && (match e.replyOf q with
    | some (some off) =>
      let (d, _, n) := blockPairs y e.mineC q off
      x.failed.contains q || (List.range (blockPieces d n)).all fun k => x.placed.contains (blockCode q k)
    | some none => true
    | none => false)
  let e := { e with finals := ended.foldl natAdd e.finals, blocks := if ended.contains e.self then natAdd e.blocks e.self else e.blocks }
  let s := s.setColl c.die e
  let cause := fun q =>
    let ks := (lost.filterMap fun l => if l.1 / 2 ^ 40 = q then some l.2 else none) ++
      x.causes.filterMap fun k => if k / 16 = q + 1 then some (k % 16) else none
    if ks.contains 3 then 3 else ks.headD 0
  (e, (ended.filter (· != e.self)).foldl (fun (s : State) q => s.emit (.ack (y.rankOf q) (s.headOf e) (2 ^ 32 + cause q))) s)

/-- An exchange retires (13 R294 to R296). -/
def State.retireExchange (s : State) (c : CoreRef) (x : Transfer) (p : Party) (e : Collective) : State :=
  if !e.begun || s.openPieces x.cmd.id then s else
  let y := exchangeOf x.shape
  let lost := s.lostPieces x.cmd.id
  let (e, s) := s.tellBlocks c x e
  let expected := (List.range y.g).filter fun q => e.fits y.rcap q && decide (0 < sget 0 e.counts q)
  if !((List.range y.g).all fun q => e.finals.contains q && (sfind e.counts q).isSome) || !(expected.all fun q => e.blocks.contains q) then s
  else
    let rtrunc := (List.range y.g).any fun q => !e.fits y.rcap q && decide (0 < sget 0 e.counts q)
    let strunc := (List.range y.g).any fun q => e.replyOf q == some none
    let (x, s) := s.portWrite p c x (y.out + 8 * y.g) (bytesOf 4 (b2n rtrunc * 2 ^ 31 + b2n strunc * 2 ^ 30))
    let causes := x.causes.map (· % 16) ++ lost.map (·.2)
    let cause := if causes.contains 3 then 3 else if causes.contains 6 then 6 else if rtrunc || strunc then 10 else 0
    let s := s.completed p c y.cen y.ccnt x.writes x.heard
    (s.freeXfer c x).portDone c x.cmd cause x.poison x.writes

/-- TRANSFER_RETIRE: not before every replica holds what the transfers of its party have written (09 R206). -/
def execTransferRetire (c : CoreRef) (slot : Nat) (s : State) : Out :=
  match s.xferAt c slot with
  | none => .next s
  | some x =>
    if s.unitBlocked (unitKey c 2) then .next s
    else match s.party? x.cmd.uid with
      | none => .next (s.freeXfer c x)
      | some p => if s.replicating (engineIssuer .port p c) && !p.ended then .next s else match s.collOf c x with
        | none => .next (match x.isColl, x.abort with
          | true, some why => s.retireAbort c x p (x.entry p c 64) why
          | _, _ => if p.ended then (s.freeXfer c x).portDone c x.cmd 0 false [] else if x.held then s else s.retireCopy c x p)
        | some e => .next (match x.abort with
          | some why => s.retireAbort c x p e why
          | none => if x.cmd.a2av then s.retireExchange c x p e else s.retireReduce c x p e)

/-! ### Batches finish (13 R298, R299) -/

/-- The batch record, its DONE word written last. -/
def batchBytes (b : Batch) : List Byte :=
  bytesOf 2 b.num ++ bytesOf 2 b.count ++ bytesOf 1 b.flags ++ bytesOf 1 b.cause ++ bytesOf 2 b.first ++ bytesOf 4 0

/-- BATCH_FINISH: the first sealed batch of a stream, all of whose transfers have left it. -/
def execBatchFinish (uid stream : Nat) (s : State) : Out :=
  match s.party? uid with
  | none => .next s
  | some p =>
    let st := p.stream stream
    match st.sealed with
    | [] => .next s
    | b :: bs =>
      if b.left ≠ 0 ∨ p.image.isSome then .next s else
      let src := engineIssuer .port p p.core
      let (v, s) : View × State := match b.roff with
        | none => ([], s)
        | some o =>
          if p.ended then ([], s) else
          let l := locScratch p.core ((p.segBase.getD 0 0).toNat + o)
          let s := s.storeUnit src b.view l none none ((batchBytes b).map fun y => (y, false))
          let v : View := [⟨l, 12, s.stamp⟩]
          let s := s.storeUnit src (v ++ b.view) (l + 12) none none ((bytesOf 4 1).map fun y => (y, false))
          (⟨l + 12, 4, s.stamp⟩ :: v, s)
      .next (s.onParty uid fun p => p.setStream stream { st with sealed := bs, view := View.join (View.join st.view b.view) v })

end Sys2Proof.Machine
end

