-- ==== Sys2Proof/Machine/Collective.lean ====
section
/-!
DEFINITION. Messages of collectives as they arrive (13 R287 to R294, R302): each finds its entry by the job's context, COLL and SEQ. A
message whose receiver cannot take it yet stays outside: its event changes nothing.
-/

namespace Sys2Proof.Machine

/-- The entry a message is for, with its transfer and its party. -/
def State.collAt (s : State) (m : MsgHead) : Option (Nat × Collective × Transfer × Party) :=
  match s.jobCtx? m.job with
  | none => none
  | some k => match s.collFind k.num m.coll m.seq with
    | none => none
    | some (d, e) => match (s.core e.core).xfers.find? fun x => x.cmd.id == e.xfer with
      | none => none
      | some x => (s.party? x.cmd.uid).map fun p => (d, e, x, p)

/-- Acknowledge a message to its sender. -/
def State.ackTo (s : State) (x : Transfer) (e : Collective) (m : MsgHead) (id : Nat) : State := s.ackPeer x e m.src id

/-- HANDSHAKE: kept until the rank's own transfer starts (13 R287). -/
def execHandshake (m : MsgHead) (body : Handshake) (s : State) : Out :=
  match s.collAt m with
  | some (d, e, _, _) =>
    if e.abort.isSome then .next s else
    let e := { e with hands := sput e.hands m.src body }
    .next ((s.setColl d e).beginColl d e)
  | none =>
    if s.tables.early.contains (m, body) || (s.jobCtx? m.job).isNone then .next s
    else .next (s.onTables fun t => { t with early := t.early ++ [(m, body)] })

/-- CONTRIBUTION (13 R288, R289): applied as one step, or staged. A merged one comes only where SWITCH_MERGE has been negotiated, and never with DET
(00 R4, 17 R375). -/
def execContribution (m : MsgHead) (t : TileMsg) (s : State) : Out :=
  match s.collAt m with
  | none => .next s
  | some (_, e, x, p) =>
    let merged := t.bitmap != 2 ^ m.src
    if e.abort.isSome || p.ended then .next s
    else if merged && (!s.steward.negfeat.getLsbD 33 || (shapeOf x.shape).det) then .next s
    else if !e.begun || x.cmd.a2av || decide ((layoutOf x.src).tiles ≤ t.tile) || (shapeOf x.shape).owner t.tile != e.self then .next s
    else match s.applyTile x p e.core e m.src t with
      | (.ok, s) => .next s
      | (.wait, s) => .next s
      | (_, s) => .next (s.failTile e.core x e t.tile)

/-- FINAL (13 R290): placed over the rank's own chunk, and its pieces counted. -/
def execFinal (m : MsgHead) (t : TileMsg) (s : State) : Out :=
  match s.collAt m with
  | none => .next s
  | some (_, e, x, p) =>
    let h := shapeOf x.shape
    if e.abort.isSome || p.ended || !e.begun || x.cmd.a2av || h.mode != 2 || decide ((layoutOf x.dst).tiles ≤ t.tile) then .next s
    else if e.finals.contains t.tile then .next (s.ackTo x e m (finalId t.tile e.self))
    else if e.busy t.tile then .next s
    else match s.chunkParts x p t.tile with
      | (.ok, parts, s) =>
        let (v, away, s) := s.writeTile x p e.core t.tile parts t.bytes t.poison
        .next (s.tileWritten e.core x p e ⟨t.tile, t.tile, [m.src], t.bitmap, true, t.bytes, t.poison⟩ (v, away))
      | (.wait, _, s) => .next s
      | (_, _, s) => .next (s.failTile e.core x e t.tile)

/-- The same sender of the same collective. -/
def sameSender (a b : MsgHead) : Bool := a.job == b.job && a.coll == b.coll && a.seq == b.seq && a.src == b.src

/-- ABORT_NOTICE (13 R291), which is acknowledged too (R287). One for a collective that has not started here is kept with its sender's handshake; any
other that finds no entry is for a collective that has retired here, and is discarded. -/
def execAbortNotice (m : MsgHead) (s : State) : Out :=
  match s.collAt m with
  | some (d, e, x, _) => .next ((s.abortColl d e 1).ackTo x e m abortId)
  | none => match s.jobCtx? m.job with
    | none => .next s
    | some k =>
      let gone : MsgHead × Handshake := (m, ⟨255, 0, 0, false, 0, 0, 0, 0, 0, 0, 0, 0⟩)
      let s := if (s.tables.early.any fun y => sameSender y.1 m) && !s.tables.early.contains gone
        then s.onTables fun t => { t with early := t.early ++ [gone] } else s
      .next (s.emit (.ack m.rank { m with src := 0, rank := k.rank } abortId))

/-- MESSAGE_ACKNOWLEDGEMENT: a message has been accepted; from 2^32, a sender's word that its block for this member has ended, with the
cause (13 R296). -/
def execMessageAcknowledgement (m : MsgHead) (id : Nat) (s : State) : Out :=
  match s.collAt m with
  | none => .next s
  | some (d, e, x, _) =>
    if 2 ^ 32 ≤ id ∧ x.cmd.a2av then
      let s := s.setColl d { e with blocks := natAdd e.blocks m.src }
      .next (if id = 2 ^ 32 then s else s.setXfer e.core { x with causes := x.causes ++ [id - 2 ^ 32] })
    else .next (s.setColl d { e with unacked := e.unacked.filter fun u => u.id != msgId d e.idx id })

/-- COLLECTIVE_ACK_TIMEOUT (13 R287): an acknowledgement misses its deadline. -/
def execCollectiveAckTimeout (c : CoreRef) (slot id : Nat) (s : State) : Out :=
  match s.xferAt c slot with
  | none => .next s
  | some x => match s.collOf c x with
    | none => .next s
    | some e =>
      if e.unacked.any fun u => u.id == msgId c.die e.idx id && decide (u.deadline ≤ s.clock.toNat) then .next (s.abortColl c.die e 3)
      else .next s

/-- COUNT_MESSAGE (13 R294). -/
def execCountMessage (m : MsgHead) (n : Nat) (s : State) : Out :=
  match s.collAt m with
  | none => .next s
  | some (d, e, x, p) =>
    if e.abort.isSome || !e.begun || !x.cmd.a2av || p.ended || (sfind e.counts m.src).isSome then .next s
    else
      let e := { e with counts := sput e.counts m.src n }
      let s := (s.setColl d e).ackTo x e m (countId e.self)
      .next (s.answerCounts p e.core x e)

/-- OFFSET_REPLY (13 R294). -/
def execOffsetReply (m : MsgHead) (off : Option Nat) (s : State) : Out :=
  match s.collAt m with
  | none => .next s
  | some (d, e, x, p) =>
    if e.abort.isSome || !e.begun || !x.cmd.a2av || p.ended || (e.replyOf m.src).isSome then .next s
    else .next ((s.setColl d { e with replies := e.replies ++ [(m.src, off)] }).ackTo x e m (offsetId e.self))

/-- WITHDRAWAL (13 R302): peers drop the handshake of a collective that is withdrawn. -/
def execWithdrawal (m : MsgHead) (s : State) : Out :=
  match s.collAt m with
  | some (d, e, _, _) => .next (if e.begun then s else s.setColl d { e with hands := sdel e.hands m.src })
  | none => .next (s.onTables fun t => { t with early := t.early.filter fun x => !sameSender x.1 m || x.2.kind == 255 })

end Sys2Proof.Machine
end

