-- ==== Sys2Proof/Machine/Control.lean ====
section
/-!
DEFINITION. Group 0x7 but for the queue instructions: branches, exit, meet, spawn, windows, `nop`, and the Outrider's loops
(06 R121 to R138, 03 R59, R60).
-/

namespace Sys2Proof.Machine

/-- Issue a per-fibre control transfer: at level S it ends the party (16 R351). -/
def State.issueFibre (s : State) (i : Instr) (go : Turn → Out) : Out :=
  s.issue i fun t => if t.g.level then .next (s.endParty t.uid .supervisorFault) else go t

/-- Send every fibre of a gang to its own next address; the gang splits where they differ (06 R124), but takes its faults or waits for
its scalar results first (16 R354, 03 R54). -/
def State.transfer (s s' : State) (t : Turn) (taken : Bool) (target : Fibre → Word) : State :=
  let differ := t.ms.any fun f => decide (target f ≠ target (t.ms.headD f))
  if differ && !(s.pendingFaults t.uid t.g).isEmpty then s.takePending t.uid t.gid t.pc
  else if differ && s.scalarPending t.uid t.g then s.hold t.uid t.gid .marker
  else
    let s' := (s'.stampIssue t.uid t.gid).countParty t.uid 0x02 1
    let s' := t.ms.foldl (fun s f => s.onFibre t.uid f.fid fun h => { h with pc := target f }) s'
    (s'.onGang t.uid t.gid fun g => { g with boundary := taken }).split t.uid t.gid

/-- BAD_TARGET (06 R123): the log holds the target that each fibre computed. -/
def State.badTarget (s : State) (t : Turn) (i : Instr) (fmask : Word) (fs : List LoggedFibre) : State :=
  s.faultAt t.uid t.gid (nextPc t.pc i.raw) (issueLog i.raw t.pc 0x04 0 0 fmask .none fs)

/-- Whether a uniform form transfers (06 R122). -/
def BrCondTaken (c : BrCond) (v : Nat) : Bool :=
  match c.cond with
  | 0 => true
  | 1 => v != 0
  | _ => v == 0

/-- A control transfer of a gang: `tgt` gives the target a fibre computes, `link` is where a `call` puts the return address. -/
def State.branchForm (s : State) (i : Instr) (c : BrCond) (link : Option Opnd) (tgt : Turn → Fibre → Word) : Out :=
  if c.u then
    s.issue i fun t =>
      match supplier t.ms with
      | none => .next s
      | some f0 =>
        let dst := tgt t f0
        if !BrCondTaken c (read32 s t.p t.g f0 (.op c.reg)) then .next (s.advance t.uid t.gid i.raw)
        else if dst.toNat % 4 ≠ 0 then .next (s.badTarget t i 0 (t.g.logged [dst.zeroExtend 64] (dst.zeroExtend 64)))
        else
          let s' := match link with
            | some d => s.writeGang t.uid t.gid d [nextPc t.pc i.raw]
            | none => s
          .next (s.transfer s' t true fun _ => dst)
  else
    s.issueFibre i fun t =>
      let fs := takeEffect i.head t.ms
      let logged := fs.map fun f => (⟨f.fid, [(tgt t f).zeroExtend 64], (tgt t f).zeroExtend 64, []⟩ : LoggedFibre)
      if fs.any fun f => (tgt t f).toNat % 4 != 0 then .next (s.badTarget t i (maskOf (fs.map fun f => t.g.slotOf f.fid)) logged)
      else
        let s' := match link with
          | some d => fs.foldl (fun s f => s.writeFibre t.uid f d [nextPc t.pc i.raw]) s
          | none => s
        .next (s.transfer s' t (!fs.isEmpty) fun f => if fs.contains f then tgt t f else nextPc t.pc i.raw)

/-- The target of `bra` and `call`: an offset from the instruction, modulo 2^32 (06 R121). -/
def BrTargetAt (pc : Word) : BrTarget → Word
  | .off o => pc + o.signExtend 32 * 4
  | .imm w => pc + w

def execBra (h : Head) (tgt : BrTarget) (c : BrCond) (s : State) : Out :=
  let i := Instr.bra h tgt c
  if s.inOutrider then s.olRun fun cr o => s.onOutrider cr fun _ =>
    if BrCondTaken c (olRead o .n64 (.op c.reg)).toNat then { o with opc := BrTargetAt o.opc tgt } else olAdvance i.raw o
  else s.branchForm i c none fun t _ => BrTargetAt t.pc tgt

def execBrx (h : Head) (a : Opnd) (c : BrCond) (s : State) : Out :=
  s.branchForm (.brx h a c) c none fun t f => w32 (read32 s t.p t.g f (.op a))
def execCall (h : Head) (d : Opnd) (tgt : BrTarget) (c : BrCond) (s : State) : Out :=
  s.branchForm (.call h d tgt c) c (some d) fun t _ => BrTargetAt t.pc tgt
def execRet (h : Head) (a : Opnd) (c : BrCond) (s : State) : Out :=
  s.branchForm (.ret h a c) c none fun t f => w32 (read32 s t.p t.g f (.op a))

/-- `nop` (02 R36). -/
def execNop (h : Head) (len : Len) (s : State) : Out :=
  let i := Instr.nop h len
  if s.inOutrider then s.olRun fun c _ => s.onOutrider c (olAdvance i.raw)
  else s.issueNext i fun _ => s

/-- ORPHAN records for the faults of a fibre that exits before its gang took them: of its own accesses, and of the gang's where it is the last (03 R62,
16 R352). -/
def State.orphans (s : State) (uid fid : Nat) : State :=
  let own := fun (a : Access) => a.uid == uid && a.stage.isRefused && (a.fid == some fid || (a.fid.isNone && a.fibs == [fid]))
  let mine := s.flight.filter own
  let s := { s with flight := s.flight.filter fun a => !own a }
  match s.party? uid with
  | none => s
  | some p => mine.foldl (fun s a => match a.stage with
      | .refused cls sub => s.event 0 a.addr 0x33 (if cls == 0x0E || cls == 0x0F then sub else cls) p.source
      | _ => s) s

/-- `exit` (06 R128): the fibres on which it takes effect end; their exit counts toward every meet mask. -/
def execExit (h : Head) (s : State) : Out :=
  let i := Instr.exit h
  if s.inOutrider then s.olRun fun c _ => s.onOutrider c fun o => { o with running := false, loops := [], waiting := false }
  else s.issueFibre i fun t =>
    let fs := takeEffect i.head t.ms
    let s := s.advance t.uid t.gid i.raw
    if fs.isEmpty then .next s
    else
      let s : State := fs.foldl (fun (s : State) f => (s.orphans t.uid f.fid).endFibre t.uid f.fid) s
      let s := s.onParty t.uid fun p => p.leave t.gid (fs.map (·.fid))
      .next ((s.evaluateRelease t.uid t.g.crew).deadlocks t.uid t.g.crew)

/-- The mask of `meet`: s(A) to s(A+3) (06 R129). -/
def meetMask (g : Gang) (a : Opnd) : BitVec 128 :=
  match a with
  | .s n => BitVec.ofNat 128 ((g.sregs.getD n 0).toNat + (g.sregs.getD (n + 1) 0).toNat * 2 ^ 32 +
      (g.sregs.getD (n + 2) 0).toNat * 2 ^ 64 + (g.sregs.getD (n + 3) 0).toNat * 2 ^ 96)
  | _ => 0

/-- `meet` (06 R129). A gang whose fibres park, some or all, takes its faults and waits for its scalar results first (log 14). -/
def execMeet (h : Head) (a : Opnd) (s : State) : Out :=
  let i := Instr.meet h a
  s.issueFibre i fun t =>
    let fs := takeEffect i.head t.ms
    if fs.isEmpty then .next (s.advance t.uid t.gid i.raw)
    else if !(s.pendingFaults t.uid t.g).isEmpty then .next (s.takePending t.uid t.gid t.pc)
    else if s.scalarPending t.uid t.g then .next (s.hold t.uid t.gid .marker)
    else
      let m : Meet := { addr := t.pc, mask := meetMask t.g a, sregs := t.g.sregs, emu := t.g.emu }
      let s := s.advance t.uid t.gid i.raw
      let s := fs.foldl (fun s f => s.onFibre t.uid f.fid fun f => { f with meet := some m, pc := t.pc }) s
      let s := s.onParty t.uid fun p => p.leave t.gid (fs.map (·.fid))
      .next (((s.countParty t.uid 0x07 fs.length).evaluateRelease t.uid t.g.crew).deadlocks t.uid t.g.crew)

/-- Place the records of some fibres: those whose records are not placed (06 R132). -/
def State.placeRecords (s : State) (t : Turn) (entry : Word) (tmo blocks : Nat) (a : Opnd) : List Fibre → List Nat × State
  | [] => ([], s)
  | f :: fs =>
    let r : BinRec := { entry := entry, arg := w32 (read32 s t.p t.g f (.op a)), blocks := blocks }
    match (s.party? t.uid).bind fun p => p.placeRecord s.clock.toNat s.changes r tmo with
    | none => ((f :: fs).map (·.fid), s)
    | some p => (s.setParty p).placeRecords t entry tmo blocks a fs

/-- `spawn` (06 R132): the gang issues past it only when all its records are placed. -/
def execSpawn (h : Head) (a : Opnd) (entry : Word) (tmo blk : Nat) (s : State) : Out :=
  let i := Instr.spawn h a entry tmo blk
  s.issueFibre i fun t =>
    let fs := takeEffect i.head t.ms
    let (done, since) : List Nat × Option Nat := match t.g.wait with
      | some (.spawn l _ since _) => (l, some since)
      | _ => ([], none)
    let todo := fs.filter fun f => !done.contains f.fid
    let line := Contest.bins t.uid
    if s.overtaken line t.g.crew then .next (if since.isSome then s else s.holdAgain t.uid t.gid) else
    let (left, s') := if t.p.spawnBefore t.gid (t.pc + entry) since then (todo.map (·.fid), s)
      else s.placeRecords t (t.pc + entry) tmo (if blk = 0 then t.p.blocks else blk) a todo
    let s' := if left.length < todo.length then s'.serve line t.g.crew else s'
    if left.isEmpty then .next (s'.advance t.uid t.gid i.raw)
    else
      let s' := if left.length < todo.length then s'.tick else s'
      let placed := (fs.map (·.fid)).filter fun f => !left.contains f
      let (new, s') := s'.fresh
      .next ((s'.hold t.uid t.gid (.spawn placed (t.pc + entry) (since.getD new) s'.changes)).deadlocks t.uid t.g.crew)

/-- `xgrow` (03 R59): served strictly in arrival order on a lane. -/
def execXgrow (h : Head) (s : State) : Out :=
  let i := Instr.xgrow h
  s.issue i fun t =>
    let fs := takeEffect i.head t.ms
    let l := t.p.laneRef t.g.crew
    if fs.isEmpty then .next (s.advance t.uid t.gid i.raw)
    else if (s.growq.any fun w => w.1 == l) || decide ((s.freeBlocks l).length < growNeed fs) then
      let s := { s with growq := s.growq ++ [(l, t.uid, t.gid)] }
      .next ((s.hold t.uid t.gid (.xgrow (fs.map (·.fid)) h)).deadlocks t.uid t.g.crew)
    else .next ((s.grow t.uid l fs).advance t.uid t.gid i.raw)

/-- `xshrink` (03 R60). -/
def State.shrink (s : State) (uid : Nat) (l : LaneRef) (fs : List Fibre) : State :=
  fs.foldl (fun s f =>
    if 1 < f.blocks.length then
      (s.releaseBlock l (f.blocks.getLastD 0)).onFibre uid f.fid fun f => { f with blocks := f.blocks.dropLast, pred := pushPred f.pred true }
    else s.onFibre uid f.fid fun f => { f with pred := pushPred f.pred false }) s

def execXshrink (h : Head) (s : State) : Out :=
  let i := Instr.xshrink h
  s.issueNext i fun t => s.shrink t.uid (t.p.laneRef t.g.crew) (takeEffect i.head t.ms)

/-! ### The Outrider's loops (06 R138) -/

def execOlfor (h : Head) (d a : Opnd) (ex : Word) (s : State) : Out :=
  let i := Instr.olfor h d a ex
  s.olRun fun c o =>
    let n := olRead o .n64 (.op a)
    if n = 0 then s.onOutrider c fun _ => { o with opc := o.opc + ex }
    else if 4 ≤ o.loops.length then s.olFault c .loopDepth
    else
      let k := match d with | .v k => k | _ => 0
      s.onOutrider c fun _ => { olSet o d 0 with
        loops := { idx := k, count := n, body := nextPc o.opc i.raw, exit := o.opc + ex } :: o.loops, opc := nextPc o.opc i.raw }

def execOlnext (h : Head) (s : State) : Out :=
  let i := Instr.olnext h
  s.olRun fun c o =>
    match o.loops with
    | [] => s.olFault c .loopEmpty
    | l :: ls =>
      let v := o.o.getD l.idx 0 + 1
      let o := { o with o := o.o.set l.idx v }
      s.onOutrider c fun _ =>
        if v < l.count then { o with opc := l.body } else { o with loops := ls, opc := nextPc o.opc i.raw }

/-- The depth of an engine queue (06 R138). -/
def PostQ.depth : PostQ → Nat
  | .mill => 16
  | .port => 32
  | .record => 64
  | .bad => 0

def execOlpermit (h : Head) (q : PostQ) (a : Src) (s : State) : Out :=
  let i := Instr.olpermit h q a
  s.olRun fun c o =>
    let n := (olRead o .n64 a).toNat
    if n = 0 ∨ PostQ.depth q < n then s.olFault c .badPermit
    else s.onOutrider c fun _ => olAdvance i.raw (match q with
      | .mill => { o with mill := { o.mill with limit := n } }
      | .port => { o with port := { o.port with limit := n } }
      | .record => { o with recs := { o.recs with limit := n } }
      | .bad => o)

end Sys2Proof.Machine
end

