-- ==== Sys2Proof/Machine/Convert.lean ====
section
/-!
DEFINITION. Group 0x5: conversion and packed instructions, and `seed` (05 R106, R115 to R119).
-/

namespace Sys2Proof.Machine

/-- The code of a conversion's source: inline constants take the operand's type (02 R29). -/
def readCode (s : State) (x : Turn) (f : Fibre) (t : Ty) (a : Opnd) : Nat :=
  if t.isRaw then readU s x.p x.g f t (.op a) else readF s x.p x.g f t (.op a)

/-- Round under RND with the generator: `.sr` draws once (05 R104, R105). -/
def convCode (t : Ty) (rnd : Rnd) (satf : Bool) (srs : Word) (x : XVal) : Nat × Word :=
  if rnd == .sr then ((fmtOf t).srRound satf (xorshift32 srs) x, xorshift32 srs) else (roundTo t rnd satf x, srs)

/-- `cvt` (05 R116); between identical float types only a NaN changes (DEDUCED: log 69). -/
def cvtEffect (m : CvtMod) (code : Nat) (srs : Word) : Effect :=
  let x := valueOf m.st code
  if m.dt.isInt then
    if m.st.isInt then
      let v := tyVal m.st (code % 2 ^ m.st.width)
      { ws := dstWords m.dt (if m.sat then satTo m.dt v else v) }
    else { ws := dstWords m.dt (toIntType m.dt m.rnd x) }
  else if m.dt == m.st && !x.isNan then { ws := codeWords m.dt code }
  else
    let (c, srs') := convCode m.dt m.rnd m.sat srs x
    { ws := codeWords m.dt c, srs := if m.rnd == .sr then some srs' else none }

def execCvt (h : Head) (d a : Opnd) (m : CvtMod) (s : State) : Out :=
  s.regForm (.cvt h d a m) d fun x f => cvtEffect m (readCode s x f m.st a) f.srs

/-- A packed operand of elements of type `t`: an inline constant stands in every element (02 R29, 05 R108). -/
def readPacked (s : State) (x : Turn) (f : Fibre) (t : Ty) (b : Src) : Nat :=
  match b with
  | .op (.const k) =>
    let e := if t.isRaw then (k % 2 ^ t.width).toNat else (fmtOf t).round .rne false (.ofInt k)
    (List.range (32 / t.width)).foldl (fun r j => r + e * 2 ^ (t.width * j)) 0
  | _ => readU s x.p x.g f .b32 b

/-- Element k of a packed operand. -/
def elemAt (t : Ty) (w k : Nat) : Nat := w / 2 ^ (t.width * k) % 2 ^ t.width

/-- `dot2` and `dot4` (05 R118): one rounding after the exact sum. -/
def dotWords (n : Nat) (m : CvtMod) (a b : Nat) (c : Nat) : List Word :=
  if m.dt.isInt then
    let v := (List.range n).foldl (fun (r : Int) k =>
      r + tyVal m.st (elemAt m.st a k) * tyVal m.st (elemAt m.st b k)) (tyVal m.dt c)
    dstWords m.dt (satIf m.sat m.dt v)
  else
    let v := (List.range n).foldl (fun r k =>
      xadd m.rnd r (xmul ((fmtOf m.st).value (elemAt m.st a k)) ((fmtOf m.st).value (elemAt m.st b k)))) (fmtF32.value c)
    codeWords m.dt (fmtF32.round m.rnd false v)
where satIf (sat : Bool) (t : Ty) (v : Int) : Int := if sat then satTo t v else v

def State.dotForm (s : State) (i : Instr) (n : Nat) (d a b c : Opnd) (m : CvtMod) : Out :=
  s.regForm i d fun x f =>
    { ws := dotWords n m (readPacked s x f m.st (.op a)) (readPacked s x f m.st (.op b)) (readCode s x f m.dt c) }

def execDot2 (h : Head) (d a b c : Opnd) (m : CvtMod) (s : State) : Out := s.dotForm (.dot2 h d a b c m) 2 d a b c m
def execDot4 (h : Head) (d a b c : Opnd) (m : CvtMod) (s : State) : Out := s.dotForm (.dot4 h d a b c m) 4 d a b c m

/-- One half of `padd` (05 R119). -/
def paddHalf (m : CvtMod) (x y : Nat) : Nat :=
  let t := m.dt
  if t.isInt then
    let v := tyVal t x + tyVal t y
    ((if m.sat then satTo t v else v) % 2 ^ 16).toNat
  else (fmtOf t).round m.rnd false (xadd m.rnd ((fmtOf t).value x) ((fmtOf t).value y))

/-- One half of `pmin` or `pmax`: the result and whether it is taken from y (05 R119). -/
def pminHalf (isMin : Bool) (t : Ty) (x y : Nat) : Nat × Bool :=
  if t.isInt then
    let dec := if isMin then decide (tyVal t y < tyVal t x) else decide (tyVal t x < tyVal t y)
    (if dec then y else x, dec)
  else
    let a := (fmtOf t).value x
    let b := (fmtOf t).value y
    let dec := takesSecond isMin a b
    ((fmtOf t).round .rne false (if dec then b else a), dec)

def execPadd (h : Head) (d a : Opnd) (b : Src) (m : CvtMod) (s : State) : Out :=
  s.regForm (.padd h d a b m) d fun x f =>
    let u := readPacked s x f m.dt (.op a)
    let v := readPacked s x f m.dt b
    { ws := [w32 (paddHalf m (elemAt m.dt u 0) (elemAt m.dt v 0) + 2 ^ 16 * paddHalf m (elemAt m.dt u 1) (elemAt m.dt v 1))] }

/-- `pmin` and `pmax`: with DEC they push dec(0), then dec(1) (05 R119). -/
def State.pminForm (s : State) (i : Instr) (isMin : Bool) (d a : Opnd) (b : Src) (m : CvtMod) : Out :=
  s.regForm i d fun x f =>
    let (r0, d0) := pminHalf isMin m.dt (elemAt m.dt (readPacked s x f m.dt (.op a)) 0) (elemAt m.dt (readPacked s x f m.dt b) 0)
    let (r1, d1) := pminHalf isMin m.dt (elemAt m.dt (readPacked s x f m.dt (.op a)) 1) (elemAt m.dt (readPacked s x f m.dt b) 1)
    { ws := [w32 (r0 + 2 ^ 16 * r1)], late := true
      pred := if m.elem == 1 then { first := some d0, push := some d1 } else {} }

def execPmax (h : Head) (d a : Opnd) (b : Src) (m : CvtMod) (s : State) : Out := s.pminForm (.pmax h d a b m) false d a b m
def execPmin (h : Head) (d a : Opnd) (b : Src) (m : CvtMod) (s : State) : Out := s.pminForm (.pmin h d a b m) true d a b m

/-- `pack` (05 R117). -/
def packEffect (m : CvtMod) (old a b : Nat) (srs : Word) : Effect :=
  let w := m.dt.width
  let (lo, srs1) := convCode m.dt m.rnd m.sat srs (fmtF32.value a)
  let (hi, srs2) := convCode m.dt m.rnd m.sat srs1 (fmtF32.value b)
  { ws := [w32 (bfiVal32 old (lo + hi * 2 ^ w) (2 * w * m.elem) (2 * w))], srs := if m.rnd == .sr then some srs2 else none }
where bfiVal32 (old v pos len : Nat) : Nat := old % 2 ^ pos + v % 2 ^ len * 2 ^ pos + old / 2 ^ (pos + len) * 2 ^ (pos + len)

def execPack (h : Head) (d a b : Opnd) (m : CvtMod) (s : State) : Out :=
  s.regForm (.pack h d a b m) d fun x f =>
    packEffect m (read32 s x.p x.g f (.op d)) (readF s x.p x.g f .f32 (.op a)) (readF s x.p x.g f .f32 (.op b)) f.srs

/-- `unpack` (05 R117). -/
def execUnpack (h : Head) (d a : Opnd) (m : CvtMod) (s : State) : Out :=
  s.regForm (.unpack h d a m) d fun x f =>
    let e := elemAt m.st (readPacked s x f m.st (.op a)) m.elem
    { ws := if m.dt.isInt then dstWords m.dt (tyVal m.st e) else codeWords .f32 (fmtF32.round .rne false ((fmtOf m.st).value e)) }

/-- `seed` (05 R106). -/
def seedVal (p : Party) (f : Fibre) (mix : Bool) (v : Nat) : Word :=
  let m := (p.core.die * 131072 + p.core.core * 2048 + f.fid) * 0x9E3779B1
  let w := if mix then w32 v ^^^ w32 m else w32 v
  if w = 0 then 1 else w

def execSeed (h : Head) (a : Src) (mix : Bool) (s : State) : Out :=
  s.regForm (.seed h a mix) (.v 0) fun x f => { srs := some (seedVal x.p f mix (read32 s x.p x.g f a)) }

end Sys2Proof.Machine
end

