-- ==== Sys2Proof/Machine/Counter.lean ====
section
/-!
DEFINITION. Counters and triggers (15 R331 to R343): `cnt`, `cntwait`, `trig`, the counter unit's step at a counter's home, and the firing
of triggers.
-/

namespace Sys2Proof.Machine

/-! ### What a counter's value carries (09 R201, R202) -/

/-- What an acquire read of a counter by an issuer at a scope makes known. -/
def Counter.learns (c : Counter) (own : Nat) (sc : Scope) (src : Issuer) : View :=
  let v := c.edges.foldl (fun v e => if scopeReaches own sc src e.src then View.join v e.view else v) ([] : View)
  c.rels.foldl (fun v r => if mutualScope own r.scope r.src sc src then View.join v r.view else v) v

/-- What a read of a counter makes known: with an acquire, what its value covers. -/
def Counter.view (c : Counter) (own : Nat) (acq : Option Scope) (src : Issuer) : View := acq.elim [] fun sc => c.learns own sc src

/-- Fibres read a counter: with an acquire all that follows on every path knows what the value covers; either way later xfences may order it
(09 R200, R201). -/
def State.fibresRead (s : State) (p : Party) (fibs : List Nat) (c : Counter) (acq : Option Scope) (src : Issuer) : State :=
  let v := c.view p.rank acq src
  let more := c.edges.map fun e => (e.src.path, e.view)
  let knows := fun (f : Fibre) => { f.know v with cntSeen := f.cntSeen ++ more, engView := View.join f.engView v }
  s.onParty p.uid fun p => { p with fibres := p.fibres.map fun f => if fibs.contains f.fid then knows f else f }

/-- The issuer of a gang-wide access of a gang. -/
def gangIssuer (p : Party) (g : Gang) : Issuer :=
  { cls := .core, uid := p.uid, crew := g.crew, fid := g.fibres.headD 0, core := p.core }

/-! ### The counter unit (15 R334, R341) -/

def Die.counter (d : Die) (k : Nat) : Counter := sget {} d.counters k
def State.setCounter (s : State) (die k : Nat) (c : Counter) : State :=
  s.onDie die fun d => { d with counters := sset {} d.counters k c }

/-- A transfer accepted by a firing joins the waiting requests of its party's core, or the saved ones of a suspended party (15 R342). -/
def State.fireInto (s : State) (cmd : PortCmd) : State :=
  match s.party? cmd.uid with
  | none => s
  | some p =>
    if p.suspended && !p.returning then s.onParty cmd.uid fun p => { p with saved := p.saved ++ [.port cmd] }
    else s.onCore p.core fun k => { k with waiting := k.waiting ++ [.port cmd] }

/-- A counter reference names this device. -/
def refHere (own ref : Nat) : Bool := bits ref 28 12 == rankSelf || bits ref 28 12 == own

/-- What other devices' placements that a counter has counted carry. -/
def Counter.placements (c : Counter) : View := c.edges.foldl (fun v e => if e.src.remote.isSome then View.join v e.view else v) []

/-- A transfer that a trigger starts at the scope of the device or a wider one reads the placements of other devices that its counter has counted, as the
example of 15 R343 has it, though 09 R201 and R202 give `.dev` this device's agents alone (DEDUCED, log 62). -/
def Trigger.learns (t : Trigger) (own : Nat) (c : Counter) (src : Issuer) : View :=
  match t.scope with
  | .fib | .crew | .party | .comp => c.learns own t.scope src
  | _ => View.join (c.learns own t.scope src) (if t.kind < 2 then c.placements else [])

/-- Fire a trigger: its operation is ordered as by an acquire of the counter at its scope (15 R342, 09 R202). -/
def State.fire (s : State) (t : Trigger) (c : Counter) : State :=
  match s.party? t.uid with
  | none => s
  | some p =>
    let src : Issuer := { cls := .port, uid := t.uid, core := p.core }
    let v := t.learns p.rank c src
    if t.kind < 2 then
      let (id, s) := s.fresh
      s.fireInto { id := id, a2av := t.kind == 1, uid := t.uid, ctx := t.ctx, off := t.opnd.toNat, urg := t.urg, seen := View.join t.seen v
                   owed := t.owed, view := v }
    else
      let ref := t.opnd.toNat
      let n := ref % 4096
      if refHere p.rank ref then
        let (id, s) := s.fresh
        { s with cntReqs := s.cntReqs ++ [{ id := id, ctx := t.ctx, num := n, op := .add (t.amount.zeroExtend 64), access := none, src := src
                                            ord := .rel, scope := t.scope, view := v }] }
      else
        let job := ((s.ctx? t.ctx).bind (·.job)).getD 0
        (s.count p.core 0x0E 1 p.ctx).emit (.packet (bits ref 28 12) { job := job, init := p.rank, region := 64, offset := n, op := .cnt 1 n (t.amount.zeroExtend 64), scope := t.scope, ord := .rel, src := src, rels := [t.scope] })

/-- Fire the triggers a counter's value satisfies, in the order in which they were armed (15 R341). -/
def State.fireAll (s : State) (die k : Nat) : State :=
  let c := (s.die die).counter k
  if c.poison then s else
  let hit := (s.die die).triggers.filter fun t => t.counter == k && decide (t.thresh ≤ c.value)
  let order := sortBy (fun i => ((hit[i]?).map (·.order)).getD 0) (List.range hit.length)
  let s := s.onDie die fun d => { d with triggers := d.triggers.filter fun t => !hit.contains t }
  order.foldl (fun (s : State) i => match hit[i]? with
    | some t => s.fire t c
    | none => s) s

/-- End a wait on a counter: its value is owed to D, or a fault where it is poisoned (15 R339). -/
def State.endCntwait (s : State) (p : Party) (g : Gang) (c : Counter) (dest : Nat) (acq : Option Scope) (raw : Raw) : State :=
  if c.poison && g.redoWait then
    let again := g.slog.head?.map fun e => { e with cls := 0x11, sub := 1, replay := false }
    (s.onGang p.uid g.gid fun h => { h with newlog := h.newlog ++ again.toList }).endWait p.uid g.gid raw
  else if c.poison then
    let srcs := match g.wait with
      | some (.counter n th _ _ _ _ _ _) => [w64 (rankSelf * 2 ^ 12 + n), th]
      | _ => []
    (s.waitResult p g raw [.s dest, .s (dest + 1)] (.refused 0x11 1) srcs).endWait p.uid g.gid raw
  else
    let s := s.fibresRead p g.fibres c acq (gangIssuer p g)
    (s.waitResult p g raw [.s dest, .s (dest + 1)] (.done [c.value.setWidth 32, (c.value >>> 32).setWidth 32] 0)).endWait p.uid g.gid raw

/-- Gangs whose wait on a counter ends at its present value. -/
def State.wakeCounter (s : State) (die k : Nat) : State :=
  let c := (s.die die).counter k
  let ready := s.parties.flatMap fun p => p.gangs.filterMap fun g => match g.wait with
    | some (.counter num thresh _ _ dest acq sc raw) =>
      if s.counterHome p.ctx num == some (die, k) && (c.poison || decide (thresh ≤ c.value)) then some (p, g, dest, if acq then some sc else none, raw)
      else none
    | _ => none
  ready.foldl (fun (s : State) e => s.endCntwait e.1 e.2.1 c e.2.2.1 e.2.2.2.1 e.2.2.2.2) s

/-- After a write to a counter (15 R341, R339). -/
def State.counterWritten (s : State) (die k : Nat) : State := (s.fireAll die k).wakeCounter die k

/-- A trigger's handle and status word (15 R340). -/
def trigWord (code : Nat) : Word := w32 code
def trigHandle (die idx gen : Nat) : Word := w32 (gen * 2 ^ 27 + die * 2 ^ 25 + idx * 2 ^ 16)

/-- Arm a trigger at its home (15 R341). -/
def State.arm (s : State) (die k : Nat) (t : Trigger) : Word × State :=
  let held := (s.dies.map fun d => (d.triggers.filter fun x => x.uid == t.uid).length).sum
  let d := s.die die
  let c := d.counter k
  if 64 ≤ held then (trigWord 3, s)
  else if 512 ≤ d.triggers.length then (trigWord 2, s)
  else if !c.poison && decide (t.thresh ≤ c.value) then (trigWord 1, s.fire t c)
  else
    let idx := lowestFree 512 (d.triggers.map (·.idx))
    let gen := (sget 0 d.trigGen idx + 1) % 32
    let (order, s) := s.fresh
    (trigHandle die idx gen, s.onDie die fun d =>
      { d with triggers := d.triggers ++ [{ t with idx := idx, counter := k, order := order }], trigGen := sset 0 d.trigGen idx gen })

/-- Cancel a trigger at its home (15 R341). -/
def State.cancelTrigger (s : State) (die idx gen uid : Nat) : Word × State :=
  let d := s.die die
  if (d.triggers.any fun t => t.idx == idx && t.uid == uid) && sget 0 d.trigGen idx == gen then
    (trigWord 4, s.onDie die fun d => { d with triggers := d.triggers.filter fun t => t.idx != idx })
  else (trigWord 5, s)

/-- Perform a read, an add or a set of a counter (15 R338): the counter as it was read; `counts` is what an increment that counts an event carries. -/
def State.cntStep (s : State) (die k : Nat) (op : CntOp) (src : Issuer) (ord : Ord) (sc : Scope) (v : View) (counts : List CntEdge) : Counter × State :=
  let c := (s.die die).counter k
  let rels := if ordReleases ord then c.rels ++ [⟨sc, src, v⟩] else c.rels
  let edges := c.edges ++ counts
  match op with
  | .add n => (c, (s.setCounter die k { c with value := c.value + n, rels := rels, edges := edges }).counterWritten die k)
  | .set n => (c, (s.setCounter die k { value := n, poison := false, rels := if ordReleases ord then [⟨sc, src, v⟩] else [], edges := [] }).counterWritten die k)
  | _ => (c, s)

/-- An earlier request of the same issuer on the same counter is not yet performed. -/
def State.cntBefore (s : State) (r : CntReq) : Bool :=
  r.src.cls == .core && ((s.cntReqs.takeWhile fun q => q.id != r.id).any fun q => q.src == r.src && q.num == r.num && q.ctx == r.ctx)

/-- Answer the access of a request that has been performed. -/
def State.cntAnswer (s : State) (r : CntReq) (c : Counter) : State :=
  match r.access.bind s.access? with
  | none => s
  | some a => match s.party? a.uid with
    | none => s.dropAccess a.id
    | some p =>
      let acq := if ordAcquires r.ord then some r.scope else none
      let s := (s.fibresRead p a.fibs c acq r.src).passView a (c.view p.rank acq r.src)
      if r.op == .read && c.poison then s.report a [] 1
      else s.finish a [c.value.setWidth 32, (c.value >>> 32).setWidth 32] 0

/-- COUNTER_OPERATION (15 R334, R336). A map entry removed since the issue drops an add or a set, whose D takes a free value, and refuses any other
form with NO_COUNTER (log 88). -/
def execCounterOperation (id : Nat) (s : State) : Out :=
  match s.cntReqs.find? fun r => r.id == id with
  | none => .next s
  | some r =>
    let a? := r.access.bind s.access?
    if s.cntBefore r || a?.any (fun a => a.aside || (!a.rels.isEmpty && !s.coveredHead a)) then .next s else
    let s := { s with cntReqs := s.cntReqs.filter fun q => q.id != id }
    match r.op with
    | .cancel die idx gen uid =>
      let (w, s) := s.cancelTrigger die idx gen uid
      .next (match r.access.bind s.access? with
        | some a => s.finish a [w] 0
        | none => s)
    | _ => match s.counterHome r.ctx r.num with
      | none =>
        let (x, s) := s.drawWord
        .next (match r.op, r.access.bind s.access? with
          | .add _, some a | .set _, some a => (s.linkEvent 0x031C).finish a [x.setWidth 32, (x >>> 32).setWidth 32] 0
          | .add _, none | .set _, none => s.linkEvent 0x031C
          | _, some a => s.refuse a 0x0B 0
          | _, none => s)
      | some (die, k) => match r.op with
        | .arm t =>
          let (w, s) := s.arm die k t
          .next (match r.access.bind s.access? with
            | some a => s.finish a [w] 0
            | none => s)
        | op =>
          let v := (a?.map (·.view)).getD r.view
          let (c, s) := s.cntStep die k op r.src r.ord r.scope v (if r.access.isNone && r.ord == .relaxed then ⟨r.src, r.view⟩ :: r.more else [])
          .next (s.cntAnswer r c)

/-! ### `cnt` (15 R338) -/

/-- The checks of a counter reference: a fault class, or 0. -/
def State.refCheck (s : State) (p : Party) (ref : Nat) : Nat × State :=
  if bits ref 31 29 ≠ 0 then (0x0B, s)
  else if refHere p.rank ref then (if (s.counterHome p.ctx (ref % 4096)).isSome then 0 else 0x0B, s)
  else match s.ctx? p.ctx with
    | some c =>
      let (ok, s) := s.rankOk c p.rank (bits ref 28 12)
      (if ok then 0 else 9, s)
    | none => (9, s)

/-- A 64-bit uniform operand or IMM32 zero-extended. -/
def cntOperand (s : State) (t : Turn) : Src → DWord
  | .imm w => w.zeroExtend 64
  | x => uniform64 s t x

/-- A counter request with the outstanding result it answers. -/
def State.pushCnt (s : State) (a : Access) (num : Nat) (op : CntOp) (src : Issuer) : State :=
  let (id, s) := s.fresh
  { s with flight := s.flight ++ [a]
           cntReqs := s.cntReqs ++ [{ id := id, ctx := a.ctx, num := num, op := op, access := some a.id, src := src, ord := a.ord, scope := a.scope
                                      view := a.view }] }

/-- Put a counter access on its way: to its home here, or to another rank, whose answer ends it (10 R214). -/
def State.cntGo (s : State) (p : Party) (g : Gang) (a : Access) (ref : Nat) (op : CntOp) : State :=
  if refHere p.rank ref then s.pushCnt a (ref % 4096) op (gangIssuer p g)
  else
    let a := { a with parts := [partAt (vaOfCounter (bits ref 28 12) (ref % 4096)) 8] }
    ({ s with flight := s.flight ++ [a] } : State).sendAccess a

/-- A counter operation on the counter that a reference names; `dest` is where the old value goes. -/
def State.cntTry (s : State) (t : Turn) (i : Instr) (dest : List DestReg) (cop : Nat) (ord : Ord) (scope : Scope) (ref : Nat) (v : DWord) : Issued :=
  let (k, s1) := s.refCheck t.p ref
  if k ≠ 0 then .fault (t.faultLog i k [w64 ref, v]) s1
  else
    let (insn, s1) := s1.fresh
    let (x, s1) := s1.newAccess t i insn none (.cnt cop (ref % 4096) v) dest
    let x := { x with ord := ord, scope := scope, srcs := [w64 ref, v], view := t.p.viewOf t.ms
                      rels := if ordReleases ord then [scope] else [] }
    match s1.memWait t [x] ord with
    | .fault => .pending
    | .wait => .wait
    | .go =>
      let op : CntOp := match cop with | 0 => .read | 1 => .add v | _ => .set v
      if !x.rels.isEmpty && !refHere t.p.rank ref && !s1.covered t then .wait else .go (s1.cntGo t.p t.g x ref op)

def State.cntIssue (s : State) (i : Instr) (d a : Opnd) (b : Option Src) (cop : Nat) (nr : Bool) (ord : Ord) (scope : Scope) : Out :=
  s.issue i fun t =>
    let dest := if nr then [] else ((supplier t.ms).map fun f => s.destOf t.p f d 2).getD []
    .next (s.conclude t i (s.cntTry t i dest cop ord scope (uniform32 s t (.op a)) ((b.map (cntOperand s t)).getD 0)))

def execCntRd (h : Head) (d a : Opnd) (ord : Ord) (scope : Scope) (s : State) : Out :=
  s.cntIssue (.cntRd h d a ord scope) d a none 0 false ord scope
def execCntAdd (h : Head) (d a : Opnd) (b : Src) (nr : Bool) (ord : Ord) (scope : Scope) (s : State) : Out :=
  s.cntIssue (.cntAdd h d a b nr ord scope) d a (some b) 1 nr ord scope
def execCntSet (h : Head) (d a : Opnd) (b : Src) (nr : Bool) (ord : Ord) (scope : Scope) (s : State) : Out :=
  s.cntIssue (.cntSet h d a b nr ord scope) d a (some b) 2 nr ord scope

/-! ### `cntwait` (15 R339) -/

/-- The s register an operand names. -/
def sregOf : Opnd → Nat
  | .s n => n
  | _ => 0

/-- Begin a wait, or end it at once where the current value satisfies it. -/
def State.cntwaitGo (s : State) (p : Party) (g : Gang) (num : Nat) (thresh : DWord) (limit dest : Nat) (acq : Bool) (scope : Scope) (raw : Raw) : State :=
  match s.counterHome p.ctx num with
  | none => s
  | some (die, k) =>
    let c := (s.die die).counter k
    let w := Wait.counter num thresh s.clock.toNat limit dest acq scope raw
    if c.poison || decide (thresh ≤ c.value) then s.endCntwait p { g with wait := some w } c dest (if acq then some scope else none) raw
    else s.hold p.uid g.gid w

/-- The limit of a TMO code. -/
def tmoLimit (tmo : Nat) : Nat := if tmo = 0 then 0 else 2 ^ (tmo + 9)

/-- Whether a reference names a counter that this context maps at this device (15 R339, R340). -/
def State.refMapped (s : State) (p : Party) (ref : Nat) : Bool :=
  bits ref 31 29 == 0 && refHere p.rank ref && (s.counterHome p.ctx (ref % 4096)).isSome

/-- `cntwait` of a reference up to a threshold, for gang `g` of the turn. -/
def State.cntwaitTry (s : State) (t : Turn) (i : Instr) (g : Gang) (d : Opnd) (ord : Ord) (scope : Scope) (tmo ref : Nat) (v : DWord) : Issued :=
  if !s.refMapped t.p ref then .fault (t.faultLog i 0x0B [w64 ref, v]) s
  else
    let (x, s1) := s.newAccess t i s.nextId none (.cnt 0 (ref % 4096) 0) []
    match s1.memWait t [x] ord with
    | .fault => .pending
    | .wait => .wait
    | .go => .go (s.cntwaitGo t.p g (ref % 4096) v (tmoLimit tmo) (sregOf d) (ord == .acq) scope i.raw)

def execCntwait (h : Head) (d a : Opnd) (b : Src) (ord : Ord) (scope : Scope) (tmo : Nat) (s : State) : Out :=
  let i := Instr.cntwait h d a b ord scope tmo
  s.issue i fun t => .next (match s.cntwaitTry t i t.g d ord scope tmo (uniform32 s t (.op a)) (cntOperand s t b) with
    | .go s' => s'
    | r => s.conclude t i r)

/-- CNTWAIT_TIMEOUT (15 R339): the limit passes; the value goes to D, relaxed. -/
def execCntwaitTimeout (uid gid : Nat) (s : State) : Out :=
  match s.party? uid with
  | none => .next s
  | some p => match p.gang? gid with
    | none => .next s
    | some g => match g.wait with
      | some (.counter num _ since limit dest _ _ raw) =>
        if limit = 0 ∨ s.clock.toNat < since + limit then .next s
        else match s.counterHome p.ctx num with
          | none =>
            let (x, s) := s.drawWord
            .next (s.endCntwait p g { value := x } dest none raw)
          | some (die, k) => .next (s.endCntwait p g ((s.die die).counter k) dest none raw)
      | _ => .next s

/-! ### `trig` (15 R340) -/

/-- Arm a trigger: a Porter kind needs the producer crew and a record in place (13 R274). -/
def State.trigTry (s : State) (t : Turn) (i : Instr) (d : Opnd) (kind : Nat) (urg : Bool) (scope : Scope) (amount : Word) (ref : Nat) (thresh : DWord)
    (opnd : Nat) : Issued :=
  let srcs := [w64 ref, thresh, w64 opnd]
  let fault := fun cls => Issued.fault (t.faultLog i cls srcs) s
  if kind < 2 ∧ t.g.crew ≠ t.p.producer then fault 0x0C
  else if kind < 2 ∧ offsetCheck t.p opnd 64 ≠ 0 then fault (offsetCheck t.p opnd 64)
  else if !s.refMapped t.p ref then fault 0x0B
  else
    let (insn, s1) := s.fresh
    let dest := ((supplier t.ms).map fun f => s1.destOf t.p f d 1).getD []
    let (x, s1) := s1.newAccess t i insn none (.value []) dest
    let tr : Trigger := { idx := 0, ctx := t.p.ctx, uid := t.uid, counter := 0, thresh := thresh, kind := kind, urg := urg, scope := scope
                          opnd := w32 opnd, amount := amount, order := 0, seen := s.crewView t.uid t.g.crew, owed := t.p.queuedStores t.g.crew }
    .go (s1.pushCnt { x with srcs := srcs } (ref % 4096) (.arm tr) (gangIssuer t.p t.g))

def State.trigIssue (s : State) (i : Instr) (d a b c : Opnd) (kind : Nat) (urg : Bool) (scope : Scope) (amount : Word) : Out :=
  s.issue i fun t => .next (s.conclude t i
    (s.trigTry t i d kind urg scope amount (uniform32 s t (.op a)) (uniform64 s t (.op b)) (uniform32 s t (.op c))))

def execTrigTcopy (h : Head) (d a b c : Opnd) (urg : Bool) (scope : Scope) (s : State) : Out :=
  s.trigIssue (.trigTcopy h d a b c urg scope) d a b c 0 urg scope 0
def execTrigA2av (h : Head) (d a b c : Opnd) (urg : Bool) (scope : Scope) (s : State) : Out :=
  s.trigIssue (.trigA2av h d a b c urg scope) d a b c 1 urg scope 0
def execTrigAdd (h : Head) (d a b c : Opnd) (scope : Scope) (amount : Word) (s : State) : Out :=
  s.trigIssue (.trigAdd h d a b c scope amount) d a b c 2 false scope amount

/-- `trig.cancel`: performed at the home the handle names. -/
def execTrigCancel (h : Head) (d a : Opnd) (s : State) : Out :=
  let i := Instr.trigCancel h d a
  s.issue i fun t =>
    let w := uniform32 s t (.op a)
    let (insn, s1) := s.fresh
    let dest := ((supplier t.ms).map fun f => s1.destOf t.p f d 1).getD []
    let (x, s1) := s1.newAccess t i insn none (.value []) dest
    .next ((s1.pushCnt x 0 (.cancel (bits w 26 25) (bits w 24 16) (bits w 31 27) t.uid) (gangIssuer t.p t.g)).advance t.uid t.gid i.raw)

end Sys2Proof.Machine
end

