-- ==== Sys2Proof/Machine/Cross.lean ====
section
/-!
DEFINITION. Group 0x6: cross-fibre instructions (04 R92 to R97).
-/

namespace Sys2Proof.Machine

/-- The participants (04 R92); a form that a special register makes gang-wide takes those of an s destination (DEDUCED, log 77). -/
def participants (i : Instr) (ms : List Fibre) : List Fibre :=
  if i.gangWide then ms.filter (·.exec) else takeEffect i.head ms

/-- The 128-bit mask of some fibres by `$cfid`, as four words (04 R94). -/
def cfidWords (fs : List Fibre) : List Word :=
  let m := fs.foldl (fun m f => m + 2 ^ f.cfid) 0
  [w32 m, w32 (m / 2 ^ 32), w32 (m / 2 ^ 64), w32 (m / 2 ^ 96)]

/-- `vote` (04 R94). -/
def execVote (h : Head) (d a : Opnd) (mode : VoteMode) (psrc : Bool) (pdepth : Nat) (pneg : Bool) (s : State) : Out :=
  s.regForm (.vote h d a mode psrc pdepth pneg) d fun x _ =>
    let ps := x.ms.filter (·.exec)
    let val := fun f => if psrc then xor (Fibre.predAt f pdepth) pneg else bit (read32 s x.p x.g f (.op a)) 0
    { ws := match mode with
        | .ballot => cfidWords (ps.filter val)
        | .member => cfidWords ps
        | .any => [if ps.any val then 1 else 0]
        | .all => [if ps.all val then 1 else 0] }

/-- The source slot of `shfl` for a fibre, and whether it lies in its segment (04 R95). -/
def shflSource (mode : ShflMode) (seg slot b : Nat) : Nat × Bool :=
  let g := if seg = 0 then 32 else 2 ^ seg
  let lo := slot - slot % g
  match mode with
  | .idx => (lo + b % g, true)
  | .up => (slot - b, decide (lo + b ≤ slot))
  | .down => (slot + b, decide (slot + b < lo + g))
  | .xor => (slot ^^^ b % g, true)

/-- `shfl` (04 R95, R73): D is written, then the push. -/
def execShfl (h : Head) (t : Ty) (d a : Opnd) (b : Src) (mode : ShflMode) (seg : Nat) (s : State) : Out :=
  let i := Instr.shfl h t d a b mode seg
  s.regForm i d fun x f =>
    let ps := participants i x.ms
    let (j, ok) := shflSource mode seg (x.g.slotOf f.fid) (read32 s x.p x.g f b)
    let src := if ok && ps.contains f then (x.ms[j]?).filter ps.contains else none
    { ws := dstWords t (readSrc s x.p x.g (src.getD f) t (.op a)), pred := { push := some src.isSome }, late := true }

/-- `bcast` (04 R96). -/
def execBcast (h : Head) (t : Ty) (d a : Opnd) (last : Bool) (s : State) : Out :=
  let i := Instr.bcast h t d a last
  s.regForm i d fun x f =>
    let ps := participants i x.ms
    let src := (if last then ps.getLast? else ps.head?).getD f
    { ws := dstWords t (readSrc s x.p x.g src t (.op a)) }

/-- `ident(op, T)` as a code (04 R97). -/
def scanIdent (op : ScanOp) (t : Ty) : Nat :=
  if t.isFloat then match op with
    | .min => (fmtOf t).infinite false false
    | .max => (fmtOf t).infinite false true
    | _ => (fmtOf t).signBit
  else match op with
    | .min => if t.signed then 2 ^ (t.width - 1) - 1 else 2 ^ t.width - 1
    | .max => if t.signed then 2 ^ (t.width - 1) else 0
    | .and => 2 ^ t.width - 1
    | _ => 0

/-- `combine(op, acc, x, T)` on codes (04 R97). -/
def scanCombine (op : ScanOp) (t : Ty) (sat : Bool) (acc x : Nat) : Nat :=
  if t.isFloat then
    let f := fmtOf t
    let u := f.value acc
    let v := f.value x
    f.round .rne false (match op with
      | .min => xminmax true u v
      | .max => xminmax false u v
      | _ => xadd .rne u v)
  else
    let wrap := fun (v : Int) => (v % 2 ^ t.width).toNat
    match op with
    | .add => wrap (if sat then satTo t (tyVal t acc + tyVal t x) else tyVal t acc + tyVal t x)
    | .min => wrap (min (tyVal t acc) (tyVal t x))
    | .max => wrap (max (tyVal t acc) (tyVal t x))
    | .and => acc &&& x
    | .or => acc ||| x
    | .xor => acc ^^^ x
    | .rsv _ => acc

/-- The words a result of `scan` or `fold` is written as: a narrow result does not arise. -/
def scanWords (t : Ty) (code : Nat) : List Word := codeWords t code

/-- The code a participant contributes. -/
def scanVal (s : State) (x : Turn) (t : Ty) (a : Opnd) (j : Fibre) : Nat :=
  if t.isFloat then readF s x.p x.g j t (.op a) else readU s x.p x.g j t (.op a)

/-- The accumulated codes of the participants up to a fibre, the fibre itself included or not. -/
def scanUpTo (op : ScanOp) (t : Ty) (sat excl : Bool) (val : Fibre → Nat) (f : Fibre) : List Fibre → Nat → Nat
  | [], acc => acc
  | j :: js, acc =>
    let acc' := scanCombine op t sat acc (val j)
    if j.fid = f.fid then (if excl then acc else acc') else scanUpTo op t sat excl val f js acc'

/-- `scan` (04 R97, R73). -/
def execScan (h : Head) (t : Ty) (d a : Opnd) (op : ScanOp) (excl sat : Bool) (s : State) : Out :=
  let i := Instr.scan h t d a op excl sat
  s.regForm i d fun x f =>
    { ws := scanWords t (scanUpTo op t sat excl (fun j => scanVal s x t a j) f (participants i x.ms) (scanIdent op t)) }

/-- `fold` (04 R97). -/
def execFold (h : Head) (t : Ty) (d a : Opnd) (op : ScanOp) (sat : Bool) (s : State) : Out :=
  let i := Instr.fold h t d a op sat
  s.regForm i d fun x _ =>
    { ws := scanWords t ((participants i x.ms).foldl (fun acc j =>
        scanCombine op t sat acc (scanVal s x t a j)) (scanIdent op t)) }

end Sys2Proof.Machine
end

