-- ==== Sys2Proof/Machine/Customs.lean ====
section
/-!
DEFINITION. The Customs unit and the ends of accesses in flight: inbound packets (14 R315 to R318), answers, deadlines and HOLDs
(10 R223, 14 R325, 16 R362), results that return (03 R58), and the supervisor's answers to held faults (14 R325).
-/

namespace Sys2Proof.Machine

/-! ### Inbound packets (14 R316, R317) -/

/-- Who another device's packet is from (09 R188): a fibre's stores and atomics stay core-path accesses of that fibre. -/
def packetIssuer (p : Packet) : Issuer := { p.src with remote := some p.init }

/-- Answer a packet; a posted one (tag 0) awaits no answer (10 R214). The devices that have sent it on learn that it is done (14 R313, log 89). -/
def State.answer (s : State) (p : Packet) (r : Reply) : State :=
  let s := p.via.foldl (fun (s : State) v => s.emit (.reply v.1 v.2 (.data [] 0))) s
  if p.tag = 0 then s else if p.init = hostInit then s.emit (.hostReply p.tag r) else s.emit (.reply p.init p.tag r)

/-- How many bytes from its offset a packet spans. -/
def pktSpan : PktOp → Nat
  | .read n => n
  | .write d _ => d.length
  | .scatter runs _ _ => runs.foldl (fun m r => max m (r.1 + r.2.length)) 0
  | .atom _ t _ | .cas t _ _ => t.width / 8
  | .cnt _ _ _ => 8
  | .fence => 0

def pktKind : PktOp → AccKind
  | .read _ | .cnt _ _ _ | .fence => .read
  | .write _ _ | .scatter _ _ _ => .write
  | .atom _ _ _ | .cas _ _ _ => .atom

/-- ACC of a fault that an inbound packet meets: that of its unit where an engine sent it (14 R324). -/
def packetAcc (p : Packet) : Nat :=
  match p.src.cls with
  | .mill => 4
  | .port => 5
  | _ => (pktKind p.op).accCode

/-- What happens-before a packet at this device: what it brings, and its issuer's own earlier writes here (09 R190, R195). -/
def State.fabView (s : State) (p : Packet) : View := View.join p.before ((s.past.filter fun w => w.src == (packetIssuer p)).map Past.fact)

/-- The releases a packet makes its write. -/
def State.fabReleases (s : State) (p : Packet) : List Release := p.rels.map fun sc => ⟨sc, (packetIssuer p), s.fabView p⟩

/-- Count a placed piece on its target's arrival counter (13 R284, 15 R334); the target that sent the piece on here is told. -/
def State.countPacket (s : State) (c : Context) (p : Packet) (v : View) : State :=
  match p.count, p.target with
  | some n, some r => s.emit (.packet r { job := p.job, init := p.init, region := 64, offset := n, op := .cnt 1 n 1, src := p.src })
  | some n, none => s.countUp c.num n (packetIssuer p) .pod v
  | none, _ => s

/-- How many writes of a weight page a packet's bytes are: each 64-byte unit placed, or one store of another device's fibre (11 R240). -/
def packetWrites (p : Packet) (l : Nat) (runs : List (Nat × List Byte)) : Nat :=
  if p.src.cls == .core && p.init != hostInit then 1 else ((runs.flatMap fun r => touchedUnits (l + r.1) r.2.length).eraseDups).length

/-- Store the runs of a packet, from its location: whether a write was lost, and what was written. -/
def State.storeRuns (s : State) (p : Packet) (l : Nat) (repl : Option Nat) (bad : Bool) : List (Nat × List Byte) → Bool × View × State
  | [] => (false, [], s)
  | (o, d) :: rs =>
    let (lost, s) := s.store (packetIssuer p) (s.fabView p) (s.fabReleases p) none (l + o) none (repl.map (·, p.region * 2 ^ 40 + p.offset + o)) d
    let s := if bad then s.taint (l + o) d.length else s
    let (lost', v, s) := s.storeRuns p l repl bad rs
    (lost || lost', ⟨l + o, d.length, s.stamp⟩ :: v, s)

/-- The exchange that a piece belongs to takes no more (13 R293): it has aborted here, or has ended. A device that only holds the page of a member's
buffer, to which the member has sent the piece on, takes it. -/
def State.pieceRefused (s : State) (c : Context) (p : Packet) : Bool :=
  match p.op with
  | .scatter _ _ (some k) => p.hops == 0 && (match s.collFind c.num k.1 k.2 with
    | none => true
    | some (_, e) => e.abort.isSome)
  | _ => false

/-- A member's exchange notes what another member has placed in its receive buffer (13 R295). -/
def State.pieceHeard (s : State) (c : Context) (src : Issuer) (k : Nat × Nat) (v : View) : State :=
  match s.collFind c.num k.1 k.2 with
  | none => s
  | some (_, e) => s.onCore e.core fun t =>
      { t with xfers := t.xfers.map fun x => if x.cmd.id == e.xfer then { x with heard := x.heard ++ [⟨src, v⟩] } else x }

/-- The atomic units of an inbound read, by its issuer's path (09 R189). -/
def packetUnits (p : Packet) (l n : Nat) : List (Nat × Nat) :=
  if p.unit = 0 then coreUnits l n else if p.unit = 64 then portUnits l n else (List.range (ceilDiv n p.unit)).map fun j => (l + j * p.unit, min p.unit (n - j * p.unit))

/-- Perform a packet at a location of this device (14 R316 step 7, 10 R220). -/
def State.performPacket (s : State) (c : Context) (p : Packet) (l : Nat) (w repl : Option Nat) : State :=
  let src := packetIssuer p
  let va := p.region * 2 ^ 40 + p.offset
  let v := View.join s.tables.inbound (s.fabView p)
  let updates := s.tables.updates.length
  let answer := fun (s : State) (r : Reply) =>
    if updates < s.tables.updates.length then s.whenHeld fun u => { u with replies := u.replies ++ [(p, r)] } else s.answer p r
  let place := fun (s : State) (runs : List (Nat × List Byte)) (bad : Bool) (k : Option (Nat × Nat)) =>
    if s.pieceRefused c p then s.answer p (.data [] 0) else
    let (lost, v, s) := (s.bumpVersion w (packetWrites p l runs)).storeRuns p l repl bad runs
    let s := k.elim s fun k => s.pieceHeard c src k v
    answer (s.countPacket c p v) (.data [] (if lost then 2 else 0))
  let atom := fun (s : State) (t : Ty) (new : Nat → Nat) =>
    let home := s.homeDie c.num va l
    let n := t.width / 8
    let (r, s) := s.atomicAt (s.atomTimes c.rank src v p.scope l home n) c.rank src v p.ord p.scope
      (fun r => p.rels.map fun sc => { r with scope := sc }) l w (repl.map (·, va)) n new
    answer s (.data (leBytes n r.old) r.status r.rels)
  match p.op with
  | .read n =>
    let bad := s.poisonIn l n
    let v : View := if repl.isSome then ⟨l, n, s.stamp⟩ :: v else v
    let (bs, _, rels, s) := s.readUnits c.rank src none (packetUnits p l n) v
    s.answer p (.data bs (if bad then 1 else 0) rels)
  | .write d bad => place s [(0, d)] bad none
  | .scatter runs bad k => place s runs bad k
  | .atom op t b => atom s t fun o => atomValue op t o (lowBits t b)
  | .cas t b c => atom s t fun o => if o = lowBits t c then lowBits t b else o
  | .cnt _ _ _ | .fence => s

/-- A counter operation of another device, performed at the counter's home (15 R336, R338). -/
def State.countInbound (s : State) (c : Context) (p : Packet) (cop num : Nat) (v : DWord) : State :=
  match s.counterHome c.num num with
  | none => (if cop ≠ 0 then s.linkEvent 0x031C else s).answer p (.nack 1)
  | some (die, k) =>
    let op : CntOp := match cop with | 0 => .read | 1 => .add v | _ => .set v
    let (old, s) := s.cntStep die k op (packetIssuer p) p.ord p.scope (s.fabView p) []
    if cop = 0 ∧ old.poison = true then s.answer p (.data [] 1)
    else s.answer p (.data (leBytes 8 old.value.toNat) 0 (old.rels ++ old.edges.map fun e => ⟨.sys, e.src, e.view⟩))

/-- An occurrence that finds its page locked or recalled happens again later (09 R206, R207). -/
def State.later (s : State) (i : Instr) : State := { s with deferred := s.deferred ++ [i] }

/-- The tags by which this device learns that what it has sent on is done. -/
def forwardTag (id : Nat) : Nat := 2 ^ 67 + id

/-- Send a packet on through a remote leaf (14 R317); it is under way until the device that performs it says so. -/
def State.forwardPacket (s : State) (c : Context) (p : Packet) (r g o : Nat) : State :=
  let (id, s) := s.fresh
  let f : Forwarded := { tag := forwardTag id, ctx := c.num, region := p.region, offset := p.offset, len := pktSpan p.op }
  (s.onTables fun t => { t with forwarded := t.forwarded ++ [f] }).emit
    (.packet r { p with hops := p.hops + 1, region := g, offset := o, target := p.target.orElse fun _ => p.count.map fun _ => c.rank
                        via := p.via ++ [(c.rank, f.tag)] })

/-- Steps 3 to 8 of 14 R316 for an inbound packet of a context; the walk sees at least what `v` knows. -/
def State.inboundAt (s : State) (c : Context) (p : Packet) (v : View) : State :=
  if 65536 < p.offset % 65536 + pktSpan p.op then s.answer p (.nack XFault.malformed.code)
  else if (sfind c.regions p.region).any (fun r => !r.inb && decide (p.offset < r.limit)) then s.answer p (.nack XFault.perm.code)
  else match s.translate c p.region p.offset (pktKind p.op) (some p.init) v with
    | (.loc l w repl, s) => s.performPacket c p l w repl
    | (.peer r g o, s) =>
      if s.pieceRefused c p then s.answer p (.data [] 0) else s.forwardPacket c p r g o
    | (.stall, s) => s.later (.inboundPacket p)
    | (.fault f, s) =>
      let init := if p.init = hostInit then c.rank else p.init
      match s.holdFault c p.region p.offset f (packetAcc p) true init (fun e => { e with inbound := e.inbound ++ [p] }) with
      | (some _, s) => s
      | (none, s) => s.answer p (.nack XFault.destBusy.code)

/-- Handle an inbound packet (14 R316). -/
def State.inbound (s : State) (p : Packet) (v : View) : State :=
  match s.jobCtx? p.job with
  | none => (s.linkEvent 0x0319).answer p (.nack XFault.noContext.code)
  | some c =>
    if 3 ≤ p.hops then (s.linkEvent 0x031D).answer p (.nack XFault.loop.code) else
    match p.op with
    | .cnt cop num x => s.countInbound c p cop num x
    | .fence => (s.scFence c.rank (packetIssuer p) p.scope (s.fabView p)).2.answer p (.data [] 0)
    | _ => s.inboundAt c p v

def execInboundPacket (p : Packet) (s : State) : Out := .next (s.inbound p [])

/-! ### Answers to what this device sent (10 R221 to R223, 16 R362) -/

/-- The worst status of the answered parts. -/
def statusOf (ps : List Part) : Nat := ps.foldl (fun m q => match q.place with
  | .got _ st => max m st
  | _ => m) 0

def gotBytes (ps : List Part) : List Byte := ps.flatMap fun q => match q.place with
  | .got bs _ => bs
  | _ => []

/-- What an access that has been answered elsewhere knows: an acquire takes in the releases that the answers brought (09 R195). -/
def State.heardView (s : State) (a : Access) : View :=
  match s.party? a.uid with
  | some p => if ordAcquires a.ord then a.view.acquire p.rank (a.issuer p) a.scope a.heard else []
  | none => []

/-- The path class here of an engine's write that a counter of another device has counted (09 R188): its own class where this device made it. -/
def heardClass (s : State) (a : Access) (src : Issuer) : PathClass :=
  if (s.party? a.uid).any fun p => src.remote == some p.rank then src.cls else .fab

/-- Every part has been answered: writes and atomics end, loads and reads of engines can be performed. -/
def State.answered (s : State) (a : Access) : State :=
  let bs := gotBytes a.parts
  let st := statusOf a.parts
  if a.fid == some engineFid then s.setAccess { a with stage := .ready } else
  match a.op with
  | .store _ => s.finish a [] st
  | .atom _ t _ | .cas t _ _ => (s.tookValue a { view := s.heardView a, rels := a.heard }).report a (dstWords t (tyVal t (leNat bs))) st
  | .cnt _ _ _ =>
    let v := s.heardView a
    let seen := a.heard.filterMap fun r => if r.src.cls == .core then none else some (heardClass s a r.src, r.view)
    let knows := fun (f : Fibre) =>
      if a.fibs.contains f.fid then { f with engView := View.join f.engView v, cntSeen := f.cntSeen ++ seen } else f
    ((s.passView a v).onParty a.uid fun p => { p with fibres := p.fibres.map knows }).report a [w32 (leAt bs 0 4), w32 (leAt bs 4 4)] st
  | _ => s.setAccess { a with stage := .ready }

/-- An access at another device is refused: a gang's fault, or an engine's (10 R222, 07 R162, 13 R301). -/
def State.refuseSent (s : State) (a : Access) (cls sub : Nat) : State :=
  if a.fid == some engineFid then s.setAccess { a with stage := .refused cls sub } else s.refuse a cls sub

/-- The next write to a page begins its phase (09 R206). -/
def State.nextUpdate (s : State) (u : Update) : State :=
  match s.tables.updates.find? fun x => !x.begun && x.samePage u with
  | none => s
  | some x =>
    let (x', s) := s.beginUpdate x
    let first := s.tables.updates.idxOf x
    s.onTables fun t => { t with updates := t.updates.set first x' }

/-- The instant T(W) of a write to a replicated page (09 R206): every replica holds it, so the accesses that wait for it are performed and its
initiators answered. -/
def State.updateHeld (s : State) (u : Update) : State :=
  let done := fun (s : State) (id : Nat) => match s.access? id with
    | some a => match a.stage, a.op with
      | .locked ws st, .store _ => s.finish a ws st
      | .locked ws st, _ => s.report a ws st
      | _, _ => s
    | none => s
  u.replies.foldl (fun (s : State) r => s.answer r.1 r.2) (u.accs.foldl done s)

/-- A replica has answered a lock or an unlock (09 R206): once all hold the new bytes they are unlocked; once all are unlocked the page is free. One that
has refused its lock is asked again, since no unlock comes before every replica has been updated (14 R321, log 81). -/
def State.replicaAnswer (s : State) (tag : Nat) (r : Reply) : State :=
  match s.tables.updates.find? fun u => u.acks.any fun k => k.1 == tag with
  | none => s
  | some u =>
    let left := u.acks.filter fun k => k.1 != tag
    let put := fun (s : State) (u' : Option Update) =>
      s.onTables fun t => { t with updates := t.updates.filterMap fun x => if x == u then u' else some x }
    match r, u.open_ with
    | .nack _, false =>
      let (tags, s) := s.tellReplicas (fun r tag => .lock r (s.jobOf u.ctx) u.region u.offset u.data tag) ((u.acks.filter fun k => k.1 == tag).map (·.2))
      put s (some { u with acks := left ++ tags })
    | _, opened =>
      if !left.isEmpty then put s (some { u with acks := left })
      else if opened then ((put s none).nextUpdate u).tick
      else
        let (tags, s) := s.tellReplicas (fun r tag => .unlock r (s.jobOf u.ctx) u.region u.offset tag) u.ranks
        ((put s (some { u with acks := tags, open_ := true, accs := [], replies := [] })).updateHeld u).tick

/-- REMOTE_REPLY: `id` is the tag of the packet answered; an answer after the deadline is counted and discarded (10 R223). -/
def execRemoteReply (id : Nat) (r : Reply) (s : State) : Out :=
  let late := s.linkEvent 0x0318
  if 2 ^ 67 ≤ id then .next ((s.onTables fun t => { t with forwarded := t.forwarded.filter fun f => f.tag != id }).tick)
  else if 2 ^ 66 ≤ id then .next (s.grantHeard id r) else if 2 ^ 65 ≤ id then .next (s.replicaAnswer id r) else
  match s.access? (id / 16) with
  | none => .next late
  | some a => match a.stage, a.parts[id % 16]? with
    | .sent d, some q =>
      if !q.isRemote || decide (d < s.clock.toNat) then .next late else
      match r with
      | .nack cls => .next (s.refuseSent a 0x0F cls)
      | .data bs st rels =>
        let ps := a.parts.set (id % 16) { q with place := .got bs st }
        let a := { a with parts := ps, heard := a.heard ++ rels }
        .next (if ps.any Part.isRemote then s.setAccess a else s.answered a)
    | _, _ => .next late

/-- REMOTE_TIMEOUT (10 R223). -/
def execRemoteTimeout (id : Nat) (s : State) : Out :=
  match s.access? id with
  | none => .next s
  | some a => match a.stage with
    | .sent d => .next (if d ≤ s.clock.toNat then s.refuseSent a 0x10 0 else s)
    | _ => .next s

/-- HOLD (14 R325): the deadline of the access, or of the collective message, starts again, with the limit it was sent under (16 R362). -/
def execHold (id : Nat) (s : State) : Out :=
  let unack := fun (u : Unacked) => if u.id = id then { u with deadline := s.clock.toNat + u.limit } else u
  let coll := fun (e : Collective) => { e with unacked := e.unacked.map unack }
  if 2 ^ 64 ≤ id then .next { s with dies := s.dies.map fun x => { x with colls := x.colls.map coll } }
  else match s.access? (id / 16) with
    | none => .next s
    | some a => match a.stage with
      | .sent _ => .next (s.setAccess { a with stage := .sent (s.clock.toNat + a.limit) })
      | _ => .next s

/-! ### Results and the store queue (03 R58, 12 R267, 14 R311) -/

/-- RESULT_RETURN (03 R58): a result whose value is known is written; a load whose data is within reach is performed, and may be written later. -/
def execResultReturn (id : Nat) (s : State) : Out :=
  match s.access? id with
  | none => .next s
  | some a =>
    if a.fid == some engineFid || a.aside then .next s else
    match a.stage, a.op with
    | .done ws st, _ => .next (s.finish a ws st)
    | .ready, .load t n =>
      let (k, s) := s.draw (if s.contended a then 2 else 1)
      .next (s.performLoad a t n (k == 1))
    | _, _ => .next s

/-- STORE_DRAIN (12 R267). -/
def execStoreDrain (uid crew : Nat) (s : State) : Out := .next (s.drainHead uid crew)

/-- A launch's packet is read only when its request is granted (12 R252). -/
def AccOp.isCopy : AccOp → Bool
  | .copy _ _ => true
  | _ => false

/-- WALK (14 R311). -/
def execWalk (id : Nat) (s : State) : Out :=
  match s.access? id with
  | none => .next s
  | some a => .next (if a.stage == .toWalk && !a.op.isCopy && !a.aside then s.walkAccess a [] else s)

/-- HERALD_DELIVERY: the oldest announcement of a die is delivered, exactly 16 clk after it was sent (01 R12); one whose clk has passed was
delivered then. -/
def execHeraldDelivery (die : Nat) (s : State) : Out :=
  match (s.die die).herald.head? with
  | none => .next s
  | some h => .next (if h.at_ + 16 = s.clock.toNat then s.onDie die fun d => { d with herald := d.herald.drop 1 } else s)

/-! ### Held faults (14 R323 to R325) -/

def State.pendingOf (s : State) (tok : Nat) : Option Pending := s.tables.pending.find? fun e => e.token == tok
def State.dropPending (s : State) (tok : Nat) : State :=
  s.onTables fun t => { t with pending := t.pending.filter fun e => e.token != tok }

/-- The address a gang fetches at. -/
def State.fetchVa (s : State) (p : Party) (g : Gang) : Nat :=
  ((if g.level then s.sys.scode else p.code) + (p.pcOf g).zeroExtend 64).toNat

/-- The gangs whose fetch an entry holds. -/
def State.fetchers (s : State) (e : Pending) : List (Party × Gang) :=
  s.parties.flatMap fun p => (p.gangs.filter fun g => e.fetches.contains g.gid && g.wait == some (.held e.token)).map fun g => (p, g)

/-- Tell an engine's command that a page was refused. -/
def State.refuseEngine (s : State) (id page cls : Nat) : State :=
  let run := fun (r : MillRun) => if r.cmd.id = id then { r with refused := (page, cls) :: r.refused } else r
  let xfer := fun (x : Transfer) => if x.cmd.id = id then { x with refused := (page, cls) :: x.refused } else x
  let core := fun (k : Core) => { k with
    mill := { k.mill with loading := k.mill.loading.map run, streaming := k.mill.streaming.map run }, xfers := k.xfers.map xfer }
  { s with cores := s.cores.map fun e => (e.1, core e.2) }

/-- A command-processor access whose fault is refused: the queue's next read fails for good, or the launch's record is lost
(12 R255, R260). -/
def State.refuseQueue (s : State) (cls : Nat) (k : Nat × Nat) : State :=
  let stopped := fun (q : LaunchQueue) => { q with stop := q.stop.map fun t => if t < 2 ^ 32 then 0 else 2 ^ 33 }
  if k.1 < 64 then s.onCtx k.1 fun c => { c with queues := sput c.queues k.2 (stopped (sget {} c.queues k.2)) }
  else if k.1 = 64 then { s with live := s.live.map fun l => if l.idx = k.2 then { l with lost := cls } else l }
  else s

/-- Refuse every access of an entry with a class (14 R325). -/
def State.refuseEntry (s : State) (e : Pending) (cls : Nat) : State :=
  let held := s.fetchers e
  let s := s.dropPending e.token
  let s := e.local_.foldl (fun (s : State) id => match s.access? id with
    | some a => if a.stage == .held e.token then s.refuse a 0x0E cls else s
    | none => s) s
  let s := e.inbound.foldl (fun (s : State) p => s.answer p (.nack cls)) s
  let s := e.locks.foldl (fun (s : State) k => s.emit (.reply k.2.2.1.rank k.2.2.1.tag (.nack cls))) s
  let s := e.engines.foldl (fun (s : State) id => s.refuseEngine id (e.region * 2 ^ 24 + e.page) cls) s
  let s := e.queues.foldl (fun (s : State) k => s.refuseQueue cls k) s
  held.foldl (fun (s : State) x =>
    s.fetchFault x.1.uid x.2.gid (x.1.pcOf x.2) (fetchLog (x.1.pcOf x.2) 0x0E cls (s.fetchVa x.1 x.2))) s

/-- The leaf through which a replica takes a new value (14 R321): its own, local and REPL, with the right to write, in a window. -/
def State.replicaLeaf (s : State) (c : Context) (region offset : Nat) (v : View) : Except XFault DWord × State :=
  match sfind c.regions region with
  | none => (.error .noRegion, s)
  | some r =>
    if r.limit ≤ offset then (.error .noRegion, s)
    else if !s.windowOf c.num region offset then (.error .notMapped, s)
    else match s.walk c region offset v with
      | (.fault f, s) => (.error f, s)
      | (.leaf e, s) => (if e.getLsbD 62 || !e.getLsbD 57 || !permitted r e .write then .error .perm else .ok e, s)

/-- A lock at a replica: the page is locked and its copy takes the new bytes; a fault joins its page's entry or takes one, and a full table refuses it
(09 R206, 14 R321, R323). -/
def State.lockReplica (s : State) (c : Context) (region offset : Nat) (home : HomeAsk) (data : List Byte) (v : View) : State :=
  let lock : Locked := ⟨c.num, region, c.pageOf region offset, home.rank⟩
  let held := fun (s : State) (f : XFault) =>
    match s.holdFault c region offset f 6 true home.rank (fun e => { e with locks := e.locks ++ [(region, offset, home, data)] }) with
    | (some _, s) => s
    | (none, s) => s.emit (.reply home.rank home.tag (.nack XFault.destBusy.code))
  match s.replicaLeaf c region offset v with
  | (.error f, s) => held s f
  | (.ok e, s) =>
    let l := fld e 38 16 * 65536 + offset % 2 ^ (((sfind c.regions region).map Region.pageBits).getD 16)
    let s := s.onTables fun t => { t with locked := if t.locked.contains lock then t.locked else t.locked ++ [lock] }
    (s.store { cls := .fab, remote := some home.rank } [⟨l, data.length, s.stamp⟩] [] none l (c.weightOf e) none data).2.emit
      (.reply home.rank home.tag (.data [] 0))

/-- Every access of an entry translates again, a packet from step 3 of 14 R316; its own walk sees every write that `v` knows (14 R312, R325). -/
def State.resumeEntry (s : State) (e : Pending) (v : View) : State :=
  let held := s.fetchers e
  let s := s.dropPending e.token
  let s := e.local_.foldl (fun (s : State) id => match s.access? id with
    | some a => if a.stage == .held e.token then s.walkAccess a v else s
    | none => s) s
  let s := e.inbound.foldl (fun (s : State) p => match s.ctx? e.ctx with
    | some c => s.inboundAt c p v
    | none => s.answer p (.nack XFault.noContext.code)) s
  let s := e.locks.foldl (fun (s : State) k => match s.ctx? e.ctx with
    | some c => s.lockReplica c k.1 k.2.1 k.2.2.1 k.2.2.2 v
    | none => s.emit (.reply k.2.2.1.rank k.2.2.1.tag (.nack XFault.noContext.code))) s
  let s := s.onTables fun t => { t with resumed := (e.engines.map fun i => ((65, i), v)) ++ (e.queues.map fun k => (k, v)) ++ t.resumed }
  let free := fun (c : Context) (k : Nat × Nat) => if k.1 = c.num then { c with queues := sput c.queues k.2 { sget {} c.queues k.2 with stop := none } } else c
  let s := e.queues.foldl (fun (s : State) k => s.onCtx k.1 fun c => free c k) s
  held.foldl (fun (s : State) x => s.onGang x.1.uid x.2.gid fun g => { g with wait := none, walkView := v }) s.tick

/-- Write FREPLY (14 R325): what the issuing gang knows is `v`. -/
def State.freply (s : State) (x : DWord) (v : View) : State :=
  let s := { s with sys := { s.sys with freply := x &&& fieldMask [(63, 62), (55, 48), (31, 0)] } }
  match s.pendingOf (fld x 31 0) with
  | none => s
  | some e => match fld x 63 62 with
    | 0 => s.resumeEntry e v
    | 1 => s.refuseEntry e (fld x 55 48)
    | _ => s

def execFreplyResume (token : Nat) (s : State) : Out := .next (s.freply (w64 token) [⟨0, 2 ^ 42, s.stamp⟩])
def execFreplyNack (token cls : Nat) (s : State) : Out := .next (s.freply (w64 (2 ^ 62 + cls % 256 * 2 ^ 48 + token)) [])

/-- HOLD_INTERVAL: every 2 µs each remote initiator of an entry is sent a HOLD (14 R325). -/
def execHoldInterval (token : Nat) (s : State) : Out :=
  match s.pendingOf token with
  | none => .next s
  | some e =>
    if s.clock.toNat < e.lastHold + 2500 then .next s
    else
      let s := e.inbound.foldl (fun (s : State) p => if p.init = hostInit ∨ p.tag = 0 then s else s.emit (.hold p.init p.tag)) s
      let s := e.locks.foldl (fun (s : State) k => s.emit (.hold k.2.2.1.rank k.2.2.1.tag)) s
      .next (s.setPending token fun e => { e with lastHold := e.lastHold + 2500 })

/-- HOLD_EXPIRED: an entry older than FHOLD (14 R325). -/
def execHoldExpired (token : Nat) (s : State) : Out :=
  match s.pendingOf token with
  | none => .next s
  | some e => .next (if e.since + s.sys.fhold < s.clock.toNat then s.refuseEntry e XFault.holdExpired.code else s)

/-! ### Peers' pages: grants, revocations, replicas (09 R206, R207, 14 R319, R321) -/

/-- CACHED_REQUEST at the home: record the grant, or perform as DIRECT where none can be recorded (14 R319). The holder hears either as the answer to the
tag of its request. -/
def execCachedRequest (job region page rank : Nat) (write : Bool) (s : State) : Out :=
  let asked := page
  let none_ : Out := Host.Outcome.next (s.emit (.reply rank (grantTag job region asked write) (.nack 0)))
  match s.jobCtx? job with
  | none => none_
  | some c =>
    let page := c.pageOf region (page * 65536)
    match s.tables.sharers.find? fun h => h.ctx == c.num && h.region == region && h.page == page with
    | none =>
      if 65536 ≤ s.tables.sharers.length then none_
      else
        let h : Sharer := { ctx := c.num, region := region, page := page, write := write, holders := [rank] }
        .next ((s.onTables fun t => { t with sharers := t.sharers ++ [h] }).emit (.grant rank job region asked write))
    | some h =>
      let others := h.holders.filter (· != rank)
      if (write || h.write) && !others.isEmpty then
        .next ((s.recall c.num region page write (some rank)).2.later (.cachedRequest job region page rank write))
      else if !h.holders.contains rank && decide (8 ≤ h.holders.length) then none_
      else
        let h' := { h with write := h.write || write, holders := if h.holders.contains rank then h.holders else h.holders ++ [rank] }
        .next ((s.onTables fun t => { t with sharers := t.sharers.map fun g => if g == h then h' else g }).emit (.grant rank job region asked write))

/-- Accesses to a page of another device that still await their answers. -/
def State.pageBusy (s : State) (c : Context) (region page home : Nat) : Bool :=
  s.flight.any fun a => a.stage.isSent && a.parts.any fun q => match q.place with
    | .remote r g o _ => r == home && g == region && (o / 65536 == page || c.pageOf region o == page)
    | _ => false

/-- An access of this device that has not been sent translates again: it meets the revocation, and asks for the page anew (09 R207). -/
def Access.walkAgain (a : Access) (mine : Held → Bool) (lines : List Held) : Access :=
  let hit := fun (q : Part) => q.isRemote && q.isLocal && lines.any fun k => mine k && k.ctx == a.ctx && k.ownReg == q.va / 2 ^ 40 && (match q.place with
    | .remote r g o _ => r == k.home && g == k.region && o / 65536 == k.page
    | _ => false)
  if a.stage == .ready && a.parts.any hit then { a with stage := .toWalk, parts := a.parts.map fun q => if hit q then q.again else q } else a

/-- REVOCATION at the holder (09 R207): accesses to the page stall; once those on their way have been answered its lines are gone, and it
acknowledges. -/
def execRevocation (job region page home : Nat) (s : State) : Out :=
  match s.jobCtx? job with
  | none => .next s
  | some c =>
    let mine := fun (k : Held) => k.ctx == c.num && k.region == region && k.page == page && k.home == home
    let s : State := { s with flight := s.flight.map fun a => a.walkAgain mine s.tables.lines }
    if s.pageBusy c region page home then
      .next ((s.onTables fun t => { t with lines := t.lines.map fun k => if mine k then { k with revoked := true } else k }).later
        (.revocation job region page home))
    else .next ((s.onTables fun t => { t with lines := t.lines.filter fun k => !mine k }).tick.emit (.revoked home job region page))

/-- REVOCATION_ACKNOWLEDGEMENT at the home (09 R207). -/
def execRevocationAcknowledgement (job region page rank : Nat) (s : State) : Out :=
  match s.jobCtx? job with
  | none => .next s
  | some c =>
    let page := c.pageOf region (page * 65536)
    let drop := fun (h : Sharer) => if h.ctx == c.num && h.region == region && h.page == page
      then { h with holders := h.holders.filter (· != rank), pending := h.pending.filter (· != rank) } else h
    .next (s.onTables fun t => { t with sharers := (t.sharers.map drop).filter fun h => !h.holders.isEmpty }).tick

/-- REPLICA_LOCK at a replica (09 R206). -/
def execReplicaLock (job region offset : Nat) (home : HomeAsk) (data : List Byte) (s : State) : Out :=
  .next (match s.jobCtx? job with
  | none => s.emit (.reply home.rank home.tag (.nack XFault.noContext.code))
  | some c => s.lockReplica c region offset home data [])

/-- REPLICA_UNLOCK (09 R206). -/
def execReplicaUnlock (job region offset : Nat) (home : HomeAsk) (s : State) : Out :=
  match s.jobCtx? job with
  | none => .next s
  | some c => .next ((s.onTables fun t => { t with locked := t.locked.filter fun k => k != ⟨c.num, region, c.pageOf region offset, home.rank⟩ }).tick.emit
      (.reply home.rank home.tag (.data [] 0)))

end Sys2Proof.Machine
end

