-- ==== Sys2Proof/Machine/Lanes.lean ====
section
/-!
DEFINITION. What the Sieve does of its own accord: merges, gang numbers, aging, release from `meet`, grants of `xgrow`, and bins
(06 R124 to R133, 03 R59, 12 R261). An occurrence whose condition does not hold changes nothing (log 18).
-/

namespace Sys2Proof.Machine

/-- GANG_MERGE (06 R125). -/
def execGangMerge (l : LaneRef) (s : State) : Out := .next (s.mergeLane l)

/-- GANG_NUMBER_GRANT: the oldest held gang of a crew takes the lowest free number (06 R124). -/
def Party.grantNumber (p : Party) (crew : Nat) : Party :=
  match (p.freeNumbers crew).head?, (p.held crew).head? with
  | some n, some g => p.onGang g.gid fun g => { g with number := some n }
  | _, _ => p

def execGangNumberGrant (uid crew : Nat) (s : State) : Out := .next (s.onParty uid (Party.grantNumber · crew))

/-- CLASS_AGING: each 1,024 clk in which a gang is ready without being chosen raise its effective class, up to 3 (06 R126). -/
def execClassAging (uid gid : Nat) (s : State) : Out :=
  match s.party? uid with
  | none => .next s
  | some p => match p.gang? gid with
    | none => .next s
    | some g =>
      if s.gangFree p g && decide (1024 ≤ g.age) then
        .next (s.onGang uid gid fun g => { g with cls := min (g.cls + 1) 3, age := g.age - 1024 })
      else .next s

/-- MEET_RELEASE (06 R130). -/
def execMeetRelease (uid crew : Nat) (s : State) : Out := .next (s.evaluateRelease uid crew)

/-- XGROW_GRANT: the oldest request of a lane, all or nothing (03 R59); a request that can never be met is a deadlock (03 R61). -/
def execXgrowGrant (l : LaneRef) (s : State) : Out :=
  match s.growq.find? fun w => w.1 == l with
  | none => .next s
  | some (_, uid, gid) => match s.party? uid with
    | none => .next { s with growq := s.growq.erase (l, uid, gid) }
    | some p => match p.gang? gid with
      | none => .next { s with growq := s.growq.erase (l, uid, gid) }
      | some g =>
        let fs := p.growers g
        if (s.freeBlocks l).length < growNeed fs then .next (s.windowDeadlock l)
        else
          let s := { s with growq := s.growq.erase (l, uid, gid) }
          .next ((s.grow uid l fs).endWait uid gid (Instr.xgrow {}).raw)

/-- BIN_TIMER_EXPIRY (12 R261). -/
def execBinTimerExpiry (uid bin : Nat) (s : State) : Out :=
  match s.party? uid with
  | none => .next s
  | some p =>
    let k := p.binAt bin
    if k.expired s.clock.toNat && !p.suspended then
      .next ((s.onParty uid fun p => { p with bins := sput p.bins bin { k with state := .releasing, order := k.since } }).spawnDeadlock uid)
    else .next s

/-- BIN_RELEASE (06 R133): of the bins of one party that find a crew, the first to begin releasing is served. -/
def execBinRelease (uid bin : Nat) (s : State) : Out :=
  match s.party? uid with
  | none => .next s
  | some p => if s.binToServe p == some bin then .next ((s.releaseBin uid bin).spawnDeadlock uid) else .next s

end Sys2Proof.Machine
end

