-- ==== Sys2Proof/Machine/Tables.lean ====
section
/-!
DEFINITION. What the supervisor writes besides the gangs' own registers: the table port (14 R303 to R309, R315, R321, R329), the counter map and the
version windows (15 R333, R344), near memory and the arena (08 R179 to R181), launch queues (12 R250), error counters (15 R346).
-/

namespace Sys2Proof.Machine

/-! ### Items of contexts, VALID or not (16 R370) -/

def State.ctxAny (s : State) (n : Nat) : Context := ((s.ctx? n).orElse fun _ => sfind s.tables.idle n).getD { num := n }
def State.setCtxAny (s : State) (c : Context) : State :=
  if (s.ctx? c.num).isSome then s.setCtx c else s.onTables fun t => { t with idle := sput t.idle c.num c }
def State.allCtxs (s : State) : List Context := (s.tables.contexts ++ s.tables.idle).map (·.2)

/-- Bits [hi:lo] of a 64-bit word are zero. -/
def zeroes (x : DWord) (hi lo : Nat) : Bool := decide (fld x hi lo = 0)
def put (v lo : Nat) : Nat := v * 2 ^ lo

/-! ### Entries that are not VALID or PRESENT (14 R305) -/

/-- The key of an entry by its table, its context and its index. -/
def rawKey (table ctx i : Nat) : Nat := (table * 64 + ctx) * 4096 + i
/-- The entries of a context's region attribute file and its context entry. -/
def rawOfContext (ctx key : Nat) : Bool := key / 4096 == ctx || key / 4096 == 2 * 64 + ctx
/-- What an absent entry reads as. -/
def State.rawWords (s : State) (key : Nat) : List DWord := (sfind s.tables.raw key).getD []
/-- The words of an entry: of one that is VALID or PRESENT from its fields, else as they were written. -/
def State.entryOr (s : State) (key : Nat) (here : Bool) (ws : List DWord) : List DWord := if here then ws else s.rawWords key
/-- An entry has taken words: kept as they are where they do not make it VALID or PRESENT. -/
def State.keepRaw (s : State) (key : Nat) (ws : List DWord) : State :=
  let zero := ws.all (· == 0)
  s.onTables fun t => { t with raw := if (ws.headD 0).getLsbD 63 || zero then sdel t.raw key else sput t.raw key ws }

/-! ### Region attributes (14 R309) -/

/-- The two words of a PRESENT entry. -/
def regionWords : Option Region → List DWord
  | none => []
  | some r => [w64 (put 1 63 + put (b2n r.r) 62 + put (b2n r.w) 61 + put (b2n r.x) 60 + put (b2n r.inb) 59 + put r.psize 57 + put (r.levels - 1) 55 +
      put r.mthr 51 + r.root), w64 r.limit]

/-- The entry that two words give: none refuses the write, whether PRESENT or not (14 R309). -/
def regionOf (w0 w1 : DWord) : Option (Option Region) :=
  if !(zeroes w0 50 39 && zeroes w0 11 0 && zeroes w1 63 41) then none
  else
    let r : Region := { r := w0.getLsbD 62, w := w0.getLsbD 61, x := w0.getLsbD 60, inb := w0.getLsbD 59, psize := fld w0 58 57
                        levels := fld w0 56 55 + 1, mthr := fld w0 54 51, root := fld w0 38 12 * 4096, limit := fld w1 40 0 }
    let p := r.pageBits + 9 * (r.levels - 1)
    if r.psize = 3 ∨ 40 ≤ p ∨ 15 < 40 - p ∨ 2 ^ 40 < r.limit ∨ r.root % max 4096 (8 * 2 ^ (40 - p)) ≠ 0 then none
    else some (if w0.getLsbD 63 then some r else none)

/-- Walks of a range of a region see page-table writes made so far (14 R309, R312). -/
def State.cutWalks (s : State) (ctx region lo hi : Nat) : State :=
  s.onTables fun t => { t with walkCut := (ctx, region, lo, hi, s.stamp) :: t.walkCut
                               mapped := t.mapped.filter fun m => !(m.ctx == ctx && m.region == region && decide (lo ≤ m.page * 65536 + 65535 ∧ m.page * 65536 < hi)) }

def State.writeRegion (s : State) (ctx idx : Nat) (w0 w1 : DWord) : Option State :=
  (regionOf w0 w1).map fun r =>
    let c := s.ctxAny ctx
    ((s.setCtxAny { c with regions := match r with
      | some r => sput c.regions idx r
      | none => sdel c.regions idx }).cutWalks ctx idx 0 (2 ^ 40)).keepRaw (rawKey 0 ctx idx) [w0, w1]

/-! ### Windows (14 R306) -/

def windowWords : Option Window → List DWord
  | none => []
  | some w => [w64 (put 1 63 + put w.ctx 57 + put w.region 51 + w.va), w64 w.ia, w64 w.size]

def windowOfWords (w0 w1 w2 : DWord) : Option Window :=
  if !(zeroes w0 50 40 && zeroes w1 63 48 && zeroes w2 63 41) then none
  else some { ctx := fld w0 62 57, region := fld w0 56 51, va := fld w0 39 0, ia := fld w1 47 0, size := fld w2 40 0 }

/-- The host aperture: IA[47:45] = 0 and IA[44:40] = 0x1F (17 R381). -/
def aperture (lo len : Nat) : Bool := rangesMeet lo len (0x1F * 2 ^ 40) (2 ^ 40)

/-- The shape of a window: its page multiples, its size, its region and its one stack (14 R306). -/
def State.windowShape (s : State) (w : Window) : Bool :=
  let page := 2 ^ (((sfind (s.ctxAny w.ctx).regions w.region).map Region.pageBits).getD 16)
  decide (w.va % page = 0 ∧ w.ia % page = 0 ∧ w.size % page = 0 ∧ w.size ≠ 0 ∧ w.va + w.size ≤ 2 ^ 40 ∧
    w.ia / 2 ^ 45 = (w.ia + w.size - 1) / 2 ^ 45)

/-- A valid window is accepted in entry `idx`; the aperture needs HOST_BRIDGE of the negotiated vector (00 R4, 17 R381, log 87). -/
def State.windowFits (s : State) (idx : Nat) (w : Window) : Bool :=
  let others := (s.tables.windows.filter fun e => e.1 != idx).map (·.2)
  s.windowShape w && (!aperture w.ia w.size || s.steward.negfeat.getLsbD 35) &&
  (others.all fun o => !rangesMeet o.ia o.size w.ia w.size) &&
  others.all fun o => !(o.ctx == w.ctx && o.region == w.region && rangesMeet o.va o.size w.va w.size)

/-- A valid range register of some context copies an entry. -/
def State.windowCopied (s : State) (idx : Nat) : Bool := s.allCtxs.any fun c => c.ranges.any fun e => e.2.win == idx

def State.writeWindow (s : State) (idx : Nat) (w0 w1 w2 : DWord) : Option State :=
  if s.windowCopied idx then none else
  match windowOfWords w0 w1 w2 with
  | none => none
  | some w =>
    let put := fun (ws : Sparse Window) => (s.onTables fun t => { t with windows := ws }).keepRaw (rawKey 1 0 idx) [w0, w1, w2]
    if w0.getLsbD 63 then (if s.windowFits idx w then some (put (sput s.tables.windows idx w)) else none)
    else if s.windowShape w then some (put (sdel s.tables.windows idx)) else none

/-! ### Context entries (14 R315) -/

def contextWords (c : Context) (raw : List DWord) : List DWord :=
  match c.job with
  | none => [raw.headD 0, w64 c.rtbase]
  | some j => [w64 (put 1 63 + put j 32), w64 c.rtbase]

def State.writeContext (s : State) (ctx : Nat) (w0 w1 : DWord) : Option State :=
  let job := fld w0 47 32
  if !(zeroes w0 62 48 && zeroes w0 31 0 && zeroes w1 63 39 && zeroes w1 11 0) then none
  else if w0.getLsbD 63 && (s.tables.contexts.any fun c => c.1 != ctx && c.2.job == some job) then none
  else
    let c := s.ctxAny ctx
    let s := s.setCtxAny { c with job := if w0.getLsbD 63 then some job else none, rtbase := fld w1 38 12 * 4096 }
    some ((s.onTables fun t => { t with rankCut := sset 0 t.rankCut ctx s.stamp }).keepRaw (rawKey 2 ctx 0) [w0])

/-! ### Replica descriptors (14 R321) -/

def replicaWords : Option Replica → List DWord
  | none => []
  | some d =>
    let word := fun k => w64 (((List.range 3).map fun j => put (d.ranks.getD (3 * k + j) 0) (17 * j)).sum)
    [w64 (put 1 63 + put (b2n d.role) 62 + put d.ranks.length 58 + put d.ctx 52 + put d.home 35), word 0, word 1, word 2]

def replicaOf (ws : List DWord) : Option (Option Replica) :=
  let w0 := ws.getD 0 0
  let rank := fun k => fld (ws.getD (1 + k / 3) 0) (17 * (k % 3) + 16) (17 * (k % 3))
  let n := fld w0 61 58
  let spare := (List.range 3).all fun k => zeroes (ws.getD (1 + k) 0) 63 51
  if !(zeroes w0 34 0 && spare) then none
  else
    let role := w0.getLsbD 62
    let unused := ((List.range 9).drop n).all fun k => decide (rank k = 0)
    if !w0.getLsbD 63 then some none
    else if !unused || (role && n != 0) || (!role && (n == 0 || 7 < n || fld w0 51 35 != 0)) then none
    else some (some { role := role, ctx := fld w0 57 52, home := fld w0 51 35, ranks := (List.range n).map rank })

def State.writeReplica (s : State) (idx : Nat) (ws : List DWord) : Option State :=
  (replicaOf ws).map fun d => (s.onTables fun t => { t with replicas := match d with
    | some d => sput t.replicas idx d
    | none => sdel t.replicas idx }).keepRaw (rawKey 3 0 idx) ws

/-! ### The slot table (14 R329) -/

def slotEntryWords : Option Slot → List DWord
  | none => [0, 0, 0, 0]
  | some e => [w64 (put 1 63 + put e.ctx 57 + put e.slot 51 + put e.wgrp 39 + put (b2n e.unchk) 38 + put e.k 30 + put (e.m - 1) 23 + put (e.klen - 1) 14 +
      put (e.l - 1) 12 + put e.size 8), w64 (put e.key.toNat 32 + put e.base 16 + put (b2n e.filled) 15 + put (b2n e.pz) 14 + put (b2n e.nf) 13 +
      put e.last 10 + e.cnt), e.ver, 0]

/-! ### The port (14 R304, R305) -/

/-- The entry a TACC value names, or none where the index or the table does not exist. -/
def State.tableEntry (s : State) (v : DWord) : Option (List DWord) :=
  let ctx := fld v 55 50
  let i := fld v 31 0
  match fld v 60 56 with
  | 0 =>
    let r := sfind (s.ctxAny ctx).regions i
    if i < 64 then some (s.entryOr (rawKey 0 ctx i) r.isSome (regionWords r)) else none
  | 1 =>
    let w := sfind s.tables.windows i
    if i < 256 then some (s.entryOr (rawKey 1 0 i) w.isSome (windowWords w)) else none
  | 2 => if i = 0 then some (contextWords (s.ctxAny ctx) (s.rawWords (rawKey 2 ctx 0))) else none
  | 3 =>
    let d := sfind s.tables.replicas i
    if i < 4096 then some (s.entryOr (rawKey 3 0 i) d.isSome (replicaWords d)) else none
  | 4 => if i < 4096 then some (slotEntryWords ((s.die (i / 1024)).slots.find? fun e => e.idx == i % 1024)) else none
  | _ => none

/-- Write the entry a TACC value names with TDAT0 to TDAT3; words past the entry must be zero. -/
def State.tableWrite (s : State) (v : DWord) : Option State :=
  let ctx := fld v 55 50
  let i := fld v 31 0
  let d := fun k => s.sys.tdat.getD k 0
  let rest := fun n => ((List.range 4).drop n).all fun k => d k == 0
  match fld v 60 56 with
  | 0 => if decide (i < 64) && rest 2 then s.writeRegion ctx i (d 0) (d 1) else none
  | 1 => if decide (i < 256) && rest 3 then s.writeWindow i (d 0) (d 1) (d 2) else none
  | 2 => if decide (i = 0) && rest 2 then s.writeContext ctx (d 0) (d 1) else none
  | 3 => if i < 4096 then s.writeReplica i s.sys.tdat else none
  | _ => none

/-- What a register with BUSY and ERR, both read only, holds of a written value: its fields, and ERR. -/
def statusBits (fs : List (Nat × Nat)) (v : DWord) (err : Bool) : DWord := (v &&& fieldMask fs) ||| (if err then BitVec.ofNat 64 (2 ^ 62) else 0)

/-- The writable fields of TACC, CMACC and VWIN (14 R304, 15 R333, R344). -/
def taccFields : List (Nat × Nat) := [(61, 50), (31, 0)]
def cmaccFields : List (Nat × Nat) := [(61, 40)]
def vwinFields : List (Nat × Nat) := [(61, 56), (43, 28), (11, 0)]

/-- A `syswr` to TACC: one operation of the port. -/
def State.tableAccess (s : State) (v : DWord) : State :=
  let done := fun (s : State) (err : Bool) => { s with sys := { s.sys with tacc := statusBits taccFields v err } }
  if !zeroes v 49 32 then done s true
  else if v.getLsbD 61 then
    match s.tableWrite v with
    | some s => done s false
    | none => done s true
  else match s.tableEntry v with
    | some ws => done { s with sys := { s.sys with tdat := (ws ++ [0, 0, 0, 0]).take 4 } } false
    | none => done s true

/-- An access of a context to a range of a region that has been translated and is not yet performed: of this device's units, or a packet sent on
through a remote leaf (14 R309, R313). -/
def State.translatedOpen (s : State) (ctx region lo hi : Nat) : Bool :=
  let meets := fun (o len : Nat) => decide (o < hi ∧ lo < o + len)
  let hit := fun (q : Part) => q.isLocal && q.place != .todo && q.va / 2 ^ 40 == region && meets (q.va % 2 ^ 40) q.len
  (s.flight.any fun a => a.ctx == ctx && a.open_ && a.parts.any hit) ||
  (s.tables.forwarded.any fun f => f.ctx == ctx && f.region == region && meets f.offset f.len) ||
  s.cores.any fun k => [k.2.mill.loading, k.2.mill.streaming].any fun r => r.any fun m =>
    m.cmd.ctx == ctx && (m.reads ++ m.writes ++ m.bias).any fun ps => ps.any hit

/-- A write of the port to a region attribute completes once the accesses translated under the dropped entries have been performed (14 R309). -/
def State.regionOpen (s : State) (v : DWord) : Bool :=
  v.getLsbD 61 && fld v 60 56 == 0 && s.translatedOpen (fld v 55 50) (fld v 31 0) 0 (2 ^ 40)

/-- An occurrence of the port for one table, read or write. -/
def State.portFor (s : State) (v : DWord) (wr : Bool) (table : Option Nat) : Out :=
  .next (if v.getLsbD 61 == wr && (table.all fun k => fld v 60 56 == k) then s.tableAccess v else s)

def execTableRead (v : DWord) (s : State) : Out := s.portFor v false none
def execRegionAttributeWrite (v : DWord) (s : State) : Out :=
  if s.regionOpen v then .next (s.later (.regionAttributeWrite v)) else s.portFor v true (some 0)
def execWindowWrite (v : DWord) (s : State) : Out := s.portFor v true (some 1)
def execContextEntryWrite (v : DWord) (s : State) : Out := s.portFor v true (some 2)
def execReplicaDescriptorWrite (v : DWord) (s : State) : Out := s.portFor v true (some 3)

/-! ### The counter map (15 R333) -/

def State.cmapEntry (s : State) (v : DWord) : Option (Nat × Nat) := sfind (s.ctxAny (fld v 59 54)).cmap (fld v 53 48)

/-- The value CMACC reads as after reading an entry. -/
def State.cmaccReadValue (s : State) (v : DWord) : DWord :=
  let base := put (fld v 59 54) 54 + put (fld v 53 48) 48
  match s.cmapEntry v with
  | some (die, pgrp) => w64 (base + put 1 60 + put die 46 + put pgrp 40)
  | none => w64 base

def State.cmapInstall (s : State) (v : DWord) : Option State :=
  let c := s.ctxAny (fld v 59 54)
  let e := (fld v 47 46, fld v 45 40)
  if (s.cmapEntry v).isSome || s.allCtxs.any (fun d => d.cmap.any fun x => x.2 == e) then none
  else
    let s := s.setCtxAny { c with cmap := sput c.cmap (fld v 53 48) e }
    some (s.onDie e.1 fun d => { d with counters := d.counters.filter fun k => k.1 / 64 != e.2 })

def State.cmapRemove (s : State) (v : DWord) : Option State :=
  let c := s.ctxAny (fld v 59 54)
  match s.cmapEntry v with
  | none => some s
  | some (die, pgrp) =>
    if (s.die die).triggers.any fun t => t.counter / 64 == pgrp then none
    else some (s.setCtxAny { c with cmap := sdel c.cmap (fld v 53 48) })

/-- A `syswr` to CMACC; a refused write sets ERR and changes nothing else. -/
def State.counterMap (s : State) (v : DWord) : State :=
  let set := fun (s : State) (x : DWord) => { s with sys := { s.sys with cmacc := x } }
  if !v.getLsbD 61 then set s (s.cmaccReadValue v)
  else match (if v.getLsbD 60 then s.cmapInstall v else s.cmapRemove v) with
    | some s => set s (statusBits cmaccFields v false)
    | none => set s (statusBits cmaccFields s.sys.cmacc true)

def execCmaccInstall (v : DWord) (s : State) : Out := .next (if v.getLsbD 61 && v.getLsbD 60 then s.counterMap v else s)
def execCmaccRemove (v : DWord) (s : State) : Out := .next (if v.getLsbD 61 && !v.getLsbD 60 then s.counterMap v else s)
def execCmaccRead (v : DWord) (s : State) : Out := .next (if !v.getLsbD 61 then s.counterMap v else s)

/-! ### Version windows (15 R344) -/

def State.setVwin (s : State) (v : DWord) : State :=
  let ctx := fld v 61 56
  let base := fld v 43 28
  let size := fld v 11 0
  let bound := s.dies.any fun d => d.slots.any fun e => e.ctx == ctx
  let meets := s.allCtxs.any fun c => c.num != ctx && rangesMeet c.vbase c.vsize base size
  if 65536 < base + size ∨ meets = true ∨ bound = true then { s with sys := { s.sys with vwin := statusBits vwinFields s.sys.vwin true } }
  else
    let s := s.setCtxAny { s.ctxAny ctx with vbase := base, vsize := size }
    { s with sys := { s.sys with vwin := w64 (put ctx 56 + put base 28 + size) } }

def execVwinWrite (v : DWord) (s : State) : Out := .next (s.setVwin v)

/-- What 0x0305 reads: the version VSEL names. -/
def State.vselValue (s : State) : DWord :=
  let c := s.ctxAny (fld s.sys.vsel 61 56)
  let g := fld s.sys.vsel 11 0
  if g < c.vsize then sget 0 s.tables.versions (c.vbase + g) else 0

/-! ### Near memory and the arena (08 R179 to R181) -/

def unitNear : Nat := 2 ^ 26
def unitGrant : Nat := 2 ^ 16
def unitArena : Nat := 2 ^ 21

def State.setNearcarve (s : State) (die : Nat) (v : DWord) : State :=
  let n := fld v 3 0
  let d := s.die die
  let top := s.allCtxs.foldl (fun m c => max m (((sfind c.ngrant die).map fun g => (g.1 + g.2) * unitGrant).getD 0)) 0
  if 8 < n ∨ n * unitNear < top then s.onDie die fun d => { d with nearBusy := true }
  else
    let lo := min n d.nearcarve
    let hi := max n d.nearcarve
    (s.clearRange (locNear die (lo * unitNear)) ((hi - lo) * unitNear)).onDie die fun d => { d with nearcarve := n, nearBusy := false }

def State.nearcarveWord (s : State) (die : Nat) : DWord := w64 (put (b2n (s.die die).nearBusy) 63 + (s.die die).nearcarve)
def execNearcarveWrite (die : Nat) (v : DWord) (s : State) : Out := .next (if die < 4 then s.setNearcarve die v else s)

/-- Clear what a range has outside another. -/
def State.clearOutside (s : State) (base lo len lo' len' : Nat) : State :=
  let s := if lo < lo' then s.clearRange (base + lo) (min (lo + len) lo' - lo) else s
  if lo' + len' < lo + len then s.clearRange (base + max lo (lo' + len')) (lo + len - max lo (lo' + len')) else s

def State.setNgrant (s : State) (ctx die : Nat) (v : DWord) : State :=
  let base := fld v 29 16
  let size := fld v 13 0
  let c := s.ctxAny ctx
  let old := (sfind c.ngrant die).getD (0, 0)
  let meets := s.allCtxs.any fun d => d.num != ctx && ((sfind d.ngrant die).any fun g => rangesMeet g.1 g.2 base size)
  let used := s.parties.any fun p => !p.retired && p.image.isNone && p.ctx == ctx && p.core.die == die && p.segLim.getD 2 0 != 0
  if (s.die die).nearcarve * unitNear < (base + size) * unitGrant ∨ meets = true ∨ used = true then
    s.setCtxAny { c with ngBusy := if c.ngBusy.contains die then c.ngBusy else die :: c.ngBusy }
  else
    (s.clearOutside (locNear die 0) (base * unitGrant) (size * unitGrant) (old.1 * unitGrant) (old.2 * unitGrant)).setCtxAny
      { c with ngrant := sset (0, 0) c.ngrant die (base, size), ngBusy := c.ngBusy.filter (· != die) }

def State.ngrantWord (s : State) (ctx die : Nat) : DWord :=
  let c := s.ctxAny ctx
  let g := (sfind c.ngrant die).getD (0, 0)
  w64 (put (b2n (c.ngBusy.contains die)) 63 + put g.1 16 + g.2)
def execNgrantWrite (ctx die : Nat) (v : DWord) (s : State) : Out := .next (if ctx < 64 ∧ die < 4 then s.setNgrant ctx die v else s)

def State.setArena (s : State) (die : Nat) (v : DWord) : State :=
  let base := fld v 38 21
  let size := fld v 20 9
  let d := s.die die
  let inside := decide (die * 2 ^ 37 ≤ base * unitArena ∧ (base + size) * unitArena ≤ (die + 1) * 2 ^ 37)
  if 2048 < size ∨ inside = false ∨ d.slots.isEmpty = false then s.onDie die fun d => { d with arenaBusy := true }
  else (s.clearRange (base * unitArena) (size * unitArena)).onDie die fun d => { d with arenaBase := base, arenaSize := size, arenaBusy := false }

def State.arenaWord (s : State) (die : Nat) : DWord :=
  let d := s.die die
  w64 (put (b2n d.arenaBusy) 63 + put d.arenaBase 21 + put d.arenaSize 9)
def execArenaWrite (die : Nat) (v : DWord) (s : State) : Out := .next (if die < 4 then s.setArena die v else s)

/-! ### Launch queue descriptors (12 R250) -/

def Context.queueAt (c : Context) (q : Nat) : LaunchQueue := sget {} c.queues q
def Context.setQueue (c : Context) (q : Nat) (d : LaunchQueue) : Context := { c with queues := sset {} c.queues q d }

def LaunchQueue.word (d : LaunchQueue) : Nat → DWord
  | 0 => w64 (put (b2n d.en) 63 + put (b2n d.mode) 62 + d.size)
  | 1 => d.base
  | 2 => d.head.zeroExtend 64
  | _ => d.tail.zeroExtend 64

/-- Write one word: enabling needs a ring of the right shape; HEAD is read-only while EN = 1. -/
def LaunchQueue.write (d : LaunchQueue) (w : Nat) (v : DWord) : LaunchQueue :=
  match w with
  | 0 =>
    let size := fld v 4 0
    if v.getLsbD 63 && (decide (16 < size) || d.base.toNat % 256 != 0) then d
    else { d with en := v.getLsbD 63, mode := v.getLsbD 62, size := size }
  | 1 => { d with base := v }
  | 2 => if d.en then d else { d with head := v.setWidth 32 }
  | _ => { d with tail := v.setWidth 32 }

def State.setQueueWord (s : State) (ctx q w : Nat) (v : DWord) : State :=
  let c := s.ctxAny ctx
  (s.setCtxAny (c.setQueue q ((c.queueAt q).write w v))).tick

def execLaunchQueueDescriptorWrite (ctx q w : Nat) (v : DWord) (s : State) : Out :=
  .next (if ctx < 64 ∧ q < 16 ∧ w < 4 then s.setQueueWord ctx q w v else s)

/-! ### Error and link event counters (15 R346) -/

def State.clearError (s : State) (die reg : Nat) (v : DWord) : State :=
  if v ≠ 0 then s
  else if 0x0310 ≤ reg ∧ reg ≤ 0x0315 then s.onDie die fun d => { d with errs := sdel d.errs (reg - 0x0310) }
  else if 0x0318 ≤ reg ∧ reg ≤ 0x031D then s.onTables fun t => { t with links := sdel t.links reg }
  else s

def execErrorCounterClear (die reg : Nat) (v : DWord) (s : State) : Out := .next (s.clearError die reg v)

end Sys2Proof.Machine
end

