-- ==== Sys2Proof/Machine/Launch.lean ====
section
/-!
DEFINITION. Launches (12 R249 to R260, R271, 06 R134 to R136): `launch`, `fetchw`, `rqpop`, the launch packet and its checks, dependency edges,
placement of parties and companies, retirement and completion.
-/

namespace Sys2Proof.Machine

/-! ### Accesses of the command processor -/

/-- The command processor as an issuer. -/
def commandIssuer : Issuer := { cls := .fab }

/-- The command processor's accesses are made as those of an engine whose party has no fibres: in the context of a queue or a launch (12 R255). -/
def commandParty (c : Context) : Party :=
  { uid := commandUid, core := ⟨0, 0⟩, slot := 0, ctx := c.num, rank := c.rank, launch := none, unitid := 0, nfib := 0, blocks := 0, prio := 0
    producer := 0, code := 0, segBase := [], segLim := [], fibres := [], gangs := [], crews := [] }

/-- The command that stands for what the command processor does for a queue (ctx, q), a launch (64, entry) or a `launch` request (66, id). -/
def commandId (who : Nat × Nat) : Nat := 2 ^ 70 + who.1 * 2 ^ 64 + who.2

/-- What an access of the command processor meets: its parts within reach, nothing yet, a held fault, or a fault: its class and SUB of 16 R352. -/
inductive CpEnd
  | ok (parts : List Part)
  | stall
  | held (token : Nat)
  | refused (cls sub : Nat)
  deriving DecidableEq, Repr

/-- What some parts come to. -/
def State.cpEnd (s : State) (who : Nat × Nat) (xs : List (Part × PieceEnd)) : CpEnd :=
  if anyWait xs then match s.tables.pending.find? fun e => e.queues.contains who with
    | some e => .held e.token
    | none => .stall
  else match firstFail xs with
    | some (.memory cls) => .refused 0x0E cls
    | some _ => .refused 0x10 0
    | none => .ok (xs.map (·.1))

/-- The parts of a local range, each within a valid range register of the context: else NO_RANGE (14 R307). -/
def cpParts (c : Context) (va len : Nat) : Option (List Part) :=
  let qs := cutVas id (va % 2 ^ 46) len
  if decide (va % 2 ^ 46 + len ≤ 2 ^ 46) && qs.all fun q => c.inRange q.va then some qs else none

/-- Find where the parts of a write lie. -/
def State.cpPlaces (s : State) (c : Context) (who : Nat × Nat) : List Part → List (Part × PieceEnd) × State
  | [] => ([], s)
  | q :: qs =>
    let (q, e, s) := s.locatePart (commandParty c) (commandId who) AccKind.write.accCode [] .write [] q (some who)
    let (xs, s) := s.cpPlaces c who qs
    ((q, e) :: xs, s)

/-- Bring a range of a context within reach of the command processor: to read it, through packets where another device holds a page (14 R316), or to
write it. -/
def State.cpLocate (s : State) (c : Context) (who : Nat × Nat) (va len : Nat) (wr : Bool) : CpEnd × State :=
  match cpParts c va len with
  | none => (.refused 0x0A 0, s)
  | some qs =>
    let (xs, s) := if wr then s.cpPlaces c who qs else
      s.fetchParts (commandParty c) (commandId who) AccKind.read.accCode 0 [] [] qs (some who)
    (s.cpEnd who xs, s)

/-- Whether a part within reach holds poison. -/
def State.partsPoison (s : State) (qs : List Part) : Bool := qs.any fun q => match q.place with
  | .loc l _ _ => s.poisonIn l q.len
  | .got _ st => st == 1
  | _ => false
/-- The newest bytes of parts within reach. -/
def State.partsBytes (s : State) (qs : List Part) : List Byte := qs.flatMap fun q => match q.place with
  | .loc l _ _ => s.bytesAt l q.len
  | .got bs _ => bs
  | _ => []

/-- Write bytes to located parts in order: here at once, elsewhere by packets that await their answers. Whether a write here was lost. -/
def State.cpStore (s : State) (c : Context) (who : Nat × Nat) (src : Issuer) (v : View) (bs : List Byte) : List Part → Bool × State
  | [] => (false, s)
  | q :: qs =>
    let (lost, s) := match q.place with
      | .loc l w d => s.store src v [] none l w (d.map (·, q.va)) (bs.take q.len)
      | _ => (false, s.sendPiece (commandParty c) (commandId who) q.key q (.write (bs.take q.len) false) none)
    let (more, s) := s.cpStore c who src v (bs.drop q.len) qs
    (lost || more, s)

/-- The packets of an access of the command processor. -/
def State.cpPieces (s : State) (who : Nat × Nat) : List Access := s.flight.filter fun a => a.uid == commandUid && a.gid == commandId who

/-- What the answers to them come to. -/
def State.cpAnswer (s : State) (who : Nat × Nat) : CpEnd :=
  let as := s.cpPieces who
  if as.any fun a => a.stage.isSent then .stall
  else match as.findSome? fun a => match a.stage with
    | .refused cls sub => some (cls, sub)
    | _ => none with
    | some (cls, sub) => .refused cls sub
    | none => .ok (as.flatMap (·.parts))

/-- A write was lost where it was performed (10 R216). -/
def partsLost (qs : List Part) : Bool := statusOf qs == 2

/-- An access of the command processor is over. -/
def State.cpDone (s : State) (who : Nat × Nat) : State :=
  (s.dropPieces (commandId who)).onTables fun t => { t with resumed := t.resumed.filter fun e => e.1 != who }

/-! ### The packet (12 R254) -/

/-- Field accessors of a launch packet of 256 bytes. -/
def pkD (b : List Byte) (off : Nat) : Nat := leAt b off 8
def pkUnit (b : List Byte) : Bool := bit (pkW b 0) 23
def pkProducer (b : List Byte) : Nat := bits (pkW b 0) 20 17
def pkBlocks (b : List Byte) : Nat := bits (pkW b 0) 16 14
def pkNfib (b : List Byte) : Nat := bits (pkW b 0) 10 0 + 1
def pkScratch (b : List Byte) : Nat := bits (pkW b 4) 26 16
def pkNpred (b : List Byte) : Nat := bits (pkW b 4) 15 13
def pkId (b : List Byte) : Nat := pkW b 12
def pkCode (b : List Byte) : Nat := pkD b 16
def pkEntry (b : List Byte) : Nat := pkW b 24
def pkOentry (b : List Byte) : Nat := pkW b 28
def pkNearOff (b : List Byte) : Nat := pkW b 76
def pkNearSize (b : List Byte) : Nat := pkW b 80
def pkDcen (b : List Byte) : Bool := bit (pkW b 84) 31
def pkDonecnt (b : List Byte) : Nat := bits (pkW b 84) 11 0
def pkDoneaddr (b : List Byte) : Nat := pkD b 88
def pkArg (b : List Byte) (k : Nat) : Word := w32 (pkW b (96 + 4 * k))
def pkEdge (b : List Byte) (k : Nat) : List Byte := (b.drop (160 + 16 * k)).take 16

/-- The edge a packet gives in place `k`, unbound. -/
def edgeOf (e : List Byte) : Edge := { pid := leAt e 0 4, waits := none, nbuf := leAt e 4 2, blist := w64 (leAt e 8 8) }
def pkEdges (b : List Byte) : List Edge := (List.range (pkNpred b)).map fun k => edgeOf (pkEdge b k)

/-- Reserved fields and unused edges are zero (12 R255, FORMAT). -/
def pkFormatOk (b : List Byte) : Bool :=
  let used := (List.range (min 4 (pkNpred b))).all fun k => leAt (pkEdge b k) 6 2 == 0
  let unused := ((List.range 4).drop (pkNpred b)).all fun k => (pkEdge b k).all (· == 0)
  bits (pkW b 0) 31 24 == 1 && bits (pkW b 0) 13 11 == 0 && bits (pkW b 4) 31 27 == 0 && bits (pkW b 4) 12 0 == 0 && bits (pkW b 84) 30 12 == 0 &&
  used && unused && (b.drop 224).all (· == 0)

/-- SHAPE (12 R255). -/
def pkShapeOk (b : List Byte) : Bool :=
  decide (1 ≤ pkBlocks b ∧ pkBlocks b ≤ 5 ∧ pkScratch b ≤ 1024 ∧ pkNunits b ≠ 0 ∧ pkCode b % 4096 = 0 ∧ pkEntry b % 4 = 0 ∧ pkOentry b % 4 = 0 ∧
    pkW b 72 % 4 = 0 ∧ pkDoneaddr b % 8 = 0 ∧ pkNearOff b % 64 = 0 ∧ pkNearSize b % 64 = 0)

/-- Some company of the device is available (01 R11). -/
def State.anyCompany (s : State) : Bool := s.dies.any fun d => d.avail.any id

/-- The checks of 12 R255 before any buffer list is read: the first cause that applies, or 0. -/
def State.packetCause (s : State) (c : Context) (b : List Byte) : Nat :=
  let near := pkNearSize b == 0 || (List.range 4).all fun d =>
    decide (pkNearOff b + pkNearSize b ≤ ((sfind c.ngrant d).getD (0, 0)).2 * unitGrant)
  let edge := fun (e : Edge) => e.pid == 0 || e.pid == pkId b || decide (1024 < e.nbuf) || e.blist.toNat % 16 != 0
  if !pkFormatOk b then 1
  else if !pkShapeOk b then 2
  else if 256 < ceilDiv (pkNfib b) 16 * pkBlocks b then 3
  else if !near then 4
  else if pkId b ≠ 0 ∧ (s.live.any fun l => l.ctx == c.num && l.id == pkId b) = true then 5
  else if 4 < pkNpred b ∨ (pkEdges b).any edge = true then 6
  else 0

/-- The buffers of a list: address and length; none where an entry's reserved field is not zero (12 R254). -/
def bufferEntries : Nat → List Byte → Option (List (Nat × Nat))
  | 0, _ => some []
  | n + 1, bs =>
    if leAt bs 12 4 / 2 ≠ 0 then none
    else (bufferEntries n (bs.drop 16)).map fun r => (leAt bs 0 8, leAt bs 8 4) :: r

/-- What the reading of all buffer lists gives: the edges with their ranges and the first cause met (6 or 8), or a held fault. -/
inductive ListEnd
  | done (edges : List Edge) (form read : Bool)
  | stop (token : Option Nat)
  deriving DecidableEq, Repr

/-- Read the buffer lists of some edges; `refused` once the supervisor has refused one. -/
def State.readLists (s : State) (c : Context) (q : Nat) (refused : Bool) : List Edge → ListEnd × State
  | [] => (.done [] true true, s)
  | e :: es =>
    let next := fun (s : State) (e : Edge) (form read : Bool) => match s.readLists c q refused es with
      | (.done es f r, s) => (.done (e :: es) (form && f) (read && r), s)
      | r => r
    if e.nbuf = 0 then next s e true true else
    if refused then next s e true false else
    match s.cpLocate c (c.num, q) e.blist.toNat (16 * e.nbuf) false with
    | (.held tok, s) => (.stop (some tok), s)
    | (.stall, s) => (.stop none, s)
    | (.refused _ _, s) => next s e true false
    | (.ok rs, s) =>
      if s.partsPoison rs then next s e true false
      else match bufferEntries e.nbuf (s.partsBytes rs) with
        | none => next s e false true
        | some ranges => next s { e with ranges := ranges } true true

/-! ### Reading packets (12 R255, R256) -/

/-- A rejected launch completes at once (12 R255): no packet is read before, unless the fault of its record is held. -/
def State.rejecting (s : State) : Bool :=
  s.live.any fun l => l.status == 1 && !s.tables.pending.any fun e => e.queues.contains (64, l.idx)

/-- A queue the command processor may read from now. -/
def State.readable (s : State) (c : Context) (d : LaunchQueue) : Bool :=
  !s.rejecting &&
  d.en && d.head != d.tail && (match d.stop with | none => true | some t => t == 0 || t == 2 ^ 33) &&
  decide (s.live.length < 512 ∧ (s.live.filter fun l => l.ctx == c.num).length < 64) && !s.steward.offline

/-- The next queue in turn: contexts and queues ascending, cyclically from `turn`. -/
def State.nextQueue (s : State) : Option (Context × Nat) :=
  let all := s.tables.contexts.flatMap fun c => ((List.range 16).filter fun q => s.readable c.2 (c.2.queueAt q)).map fun q => (c.2, q)
  (all.find? fun x => decide (s.turn ≤ x.1.num * 16 + x.2)).orElse fun _ => all.head?

/-- Bind an edge: it waits for a live launch of the context with its ID; else the predecessor is the last one of that ID to have completed
(12 R256). -/
def State.bindEdge (s : State) (ctx : Nat) (e : Edge) : Edge :=
  { e with waits := (s.live.find? fun l => l.ctx == ctx && l.id == e.pid).map (·.idx)
           preds := ((s.ctx? ctx).map fun c => sget [] c.done e.pid).getD [] }

/-- HEAD passes a slot. -/
def State.passSlot (s : State) (ctx q : Nat) : State :=
  s.onCtx ctx fun c => c.setQueue q { c.queueAt q with head := (c.queueAt q).head + 1, stop := none }

def State.stopQueue (s : State) (ctx q tok : Nat) : State :=
  s.onCtx ctx fun c => c.setQueue q { c.queueAt q with stop := some tok }

def State.onLaunch (s : State) (idx : Nat) (f : Launch → Launch) : State := { s with live := s.live.map fun l => if l.idx = idx then f l else l }
def State.launch? (s : State) (idx : Nat) : Option Launch := s.live.find? fun l => l.idx == idx

/-- Take a packet into the live table. -/
def State.takePacket (s : State) (c : Context) (q : Nat) (b : List Byte) (edges : List Edge) (cause : Nat) : State :=
  let idx := lowestFree 512 (s.live.map (·.idx))
  let (n, s) := s.fresh
  let l : Launch := { idx := idx, ctx := c.num, id := pkId b, packet := b, edges := edges.map (s.bindEdge c.num), read := n
                      state := if cause = 0 then .waiting else .completing, status := if cause = 0 then 0 else 1, cause := cause }
  { s with live := s.live ++ [l], turn := c.num * 16 + q + 1 }

/-- PACKET_READ (12 R255). -/
def execPacketRead (s : State) : Out :=
  match s.nextQueue with
  | none => .next s
  | some (c, q) =>
    if s.unitBlocked unitCommand then .next s else
    let d := c.queueAt q
    let va := d.base.toNat + 256 * (d.head.toNat % 2 ^ d.size)
    let passed := fun (s : State) => (s.cpDone (c.num, q)).passSlot c.num q
    let lost := fun (s : State) => passed { s with turn := c.num * 16 + q + 1 }
    if d.stop = some 0 then .next (lost s) else
    match s.cpLocate c (c.num, q) va 256 false with
    | (.held tok, s) => .next (s.stopQueue c.num q tok)
    | (.stall, s) => .next s
    | (.refused _ _, s) => .next (lost s)
    | (.ok rs, s) =>
      if s.partsPoison rs then .next (lost s) else
      let b := s.partsBytes rs
      let k := s.packetCause c b
      if k ≠ 0 then .next ((passed s).takePacket c q b [] k)
      else match s.readLists c q (d.stop == some (2 ^ 33)) (pkEdges b) with
        | (.stop (some tok), s) => .next (s.stopQueue c.num q (2 ^ 32 + tok))
        | (.stop none, s) => .next s
        | (.done es form read, s) =>
          let k := if !form then 6 else if pkUnit b && !s.anyCompany then 7 else if !read then 8 else 0
          .next ((passed s).takePacket c q b es k)

/-! ### Doorbells and `launch` (12 R251 to R253, 06 R135) -/

/-- DOORBELL (12 R251): by the value alone, on a queue in host mode, whether EN is 1 or not. -/
def execDoorbell (ctx q v : Nat) (s : State) : Out :=
  let bad := s.linkEvent 0x031B
  match s.ctx? ctx with
  | none => .next bad
  | some c =>
    let d := c.queueAt q
    let step := (w32 v - d.tail).toNat
    if d.mode && decide (q < 16 ∧ 0 < step ∧ step + (d.tail - d.head).toNat ≤ 2 ^ d.size) then
      .next (s.setCtx (c.setQueue q { d with tail := w32 v }))
    else .next bad

/-- Cut a range at its 64 KiB boundary. -/
def cutAt64K (a : Int) (n : Nat) : List (Int × Nat) :=
  let k := (65536 - a % 65536).toNat
  if n ≤ k then [(a, n)] else [(a, k), (a + k, n - k)]

/-- The checks of the packet's address: the first that fails, or 0 with its parts. -/
def State.checkPacket (s : State) (p : Party) (f : Fibre) (lvl : Bool) : List (Int × Nat) → Nat × List Part × State
  | [] => (0, [], s)
  | (a, n) :: cs =>
    let (k, ps, s) := s.checkMem p f lvl .g a n false false
    if k ≠ 0 then (k, ps, s)
    else
      let (k, qs, s) := s.checkPacket p f lvl cs
      (k, ps ++ qs, s)

/-- A launch on its way (06 R135, 12 R252): it waits for what the store queues of its party's crews hold now. -/
def State.launchGo (s : State) (t : Turn) (i : Instr) (x : DWord) (q : Nat) (dest : List DestReg) : State :=
  let (insn, s) := s.fresh
  let (acc, s) := s.newAccess t i insn none (.copy t.p.ctx q) dest
  let acc := { acc with ctx := s.accessCtx t.p t.g.level .g, addr := x, srcs := [x, w64 q], view := t.p.viewOf t.p.fibres, stage := .toWalk }
  let r : LaunchReq := { id := acc.id, uid := t.uid, gid := t.gid, ctx := t.p.ctx, q := q, addr := x, core := t.p.core, lane := t.g.crew
                         owed := t.p.crews.flatMap fun c => c.storeq.flatten }
  ({ s with flight := s.flight ++ [acc], requests := s.requests ++ [r] } : State).hold t.uid t.gid (.launch acc.id)

/-- A queue of the context that takes the program's packets (12 R250, R252). -/
def State.launchable (s : State) (ctx q : Nat) : Bool := (s.ctx? ctx).any fun c => decide (q < 16) && (c.queueAt q).en && !(c.queueAt q).mode

/-- `launch` (06 R135, 12 R252): 2 at once for a number that names no queue; else a request for the queue. -/
def execLaunch (h : Head) (d a b : Opnd) (s : State) : Out :=
  let i := Instr.launch h d a b
  s.issue i fun t =>
    match supplier t.ms with
    | none => .next s
    | some f =>
      let q := read32 s t.p t.g f (.op b)
      let dest := s.destOf t.p f d 1
      let (insn, s1) := s.fresh
      if s.launchable t.p.ctx q then .next (s.launchGo t i (read64 s t.p t.g f (.op a)) q dest)
      else .next ((s1.owe t i insn none dest [2]).advance t.uid t.gid i.raw)

def State.dropRequest (s : State) (id : Nat) : State := { s with requests := s.requests.filter fun r => r.id != id }

/-- The packet is in its slot: TAIL advances (12 R252). -/
def State.copied (s : State) (r : LaunchReq) (a : Access) : State :=
  let s := s.onCtx r.ctx fun c => c.setQueue r.q { c.queueAt r.q with tail := (c.queueAt r.q).tail + 1 }
  ((s.cpDone (66, r.id)).dropRequest r.id).finish a [0] 0

/-- A copy meets a fault. -/
def State.copyRefused (s : State) (r : LaunchReq) (a : Access) (cls sub : Nat) : State :=
  ((s.cpDone (66, r.id)).dropRequest r.id).refuse a cls sub

/-- The packet's bytes are within reach: copy them to the slot, wherever its page lies (12 R252). -/
def State.copyPacket (s : State) (r : LaunchReq) (a : Access) (p : Party) : State :=
  match s.ctx? r.ctx with
  | none => (s.dropRequest r.id).finish a [2] 0
  | some c =>
    let who := (66, r.id)
    if !(s.cpPieces who).isEmpty then match s.cpAnswer who with
      | .ok _ => s.copied r a
      | .refused cls sub => s.copyRefused r a cls sub
      | _ => s
    else
    let d := c.queueAt r.q
    match s.cpLocate c who (d.base.toNat + 256 * (d.tail.toNat % 2 ^ d.size)) 256 true with
    | (.held tok, s) =>
      (s.setPending tok fun e => { e with local_ := if e.local_.contains a.id then e.local_ else e.local_ ++ [a.id] }).setAccess
        { a with stage := .held tok, parts := a.parts.map Part.again }
    | (.stall, s) => s
    | (.refused cls sub, s) => s.copyRefused r a cls sub
    | (.ok qs, s) =>
      match s.loadParts p a a.parts { view := View.join a.view r.seen, plain := View.join a.view r.seen } with
      | none => s
      | some (x, s) =>
        if x.bad then s.copyRefused r a 0x11 1
        else
          let s := (s.cpStore c who (a.issuer p) x.view x.bytes qs).2
          if (s.cpPieces who).isEmpty then s.copied r a else s

/-- A granted request goes on: its pages are walked, then the copy is made. -/
def State.launchCopy (s : State) (r : LaunchReq) (a : Access) (p : Party) : State :=
  match a.stage with
  | .toWalk =>
    let s := s.walkAccess a []
    match s.access? r.id with
    | some b =>
      if b.stage.isRefused then s.dropRequest r.id
      else if b.stage != .ready then s
      else if b.parts.any Part.isRemote then s.sendAccess b
      else s.copyPacket r b p
    | none => s.dropRequest r.id
  | .ready => s.copyPacket r a p
  | .refused _ _ => s.dropRequest r.id
  | _ => s

/-- The packet's address fails a check: the gang takes the fault as a load there would (12 R252); a replay meets it again (16 R355). -/
def State.launchFault (s : State) (r : LaunchReq) (a : Access) (g : Gang) (cls : Nat) : State :=
  let s := (s.dropRequest r.id).dropAccess a.id
  let redo : Redo := match parse a.raw with
    | some i => .reissue i a.srcs
    | none => .none
  let e := issueLog a.raw a.pc cls 0 a.addr 0 redo (g.logged a.srcs a.addr)
  if g.redoWait then (s.onGang r.uid r.gid fun h => { h with newlog := h.newlog ++ [e] }).endWait r.uid r.gid a.raw
  else s.faultAt r.uid r.gid (nextPc a.pc a.raw) e

/-- The grant of a request (12 R252, R253): 2 for a queue no longer the program's, 1 for a full one, nothing read; else the copy. -/
def State.launchGrant (s : State) (r : LaunchReq) (a : Access) (p : Party) (g : Gang) : State :=
  let d := ((s.ctx? r.ctx).map fun c => c.queueAt r.q).getD {}
  let answer := fun (w : Word) => ((s.endWait r.uid r.gid a.raw).dropRequest r.id).finish a [w] 0
  if !s.launchable r.ctx r.q then answer 2
  else if 2 ^ d.size ≤ (d.tail - d.head).toNat then answer 1
  else match supplier (p.ownersOf a) with
    | none => (s.dropRequest r.id).dropAccess a.id
    | some f =>
      let (k, parts, s) := s.checkPacket p f a.lvl (cutAt64K a.addr.toInt 256)
      if k ≠ 0 then s.launchFault r a g (checkClass k)
      else
        let a := { a with parts := parts }
        ((s.endWait r.uid r.gid a.raw).setAccess a).launchCopy r a p

/-- The place of a request in its clk: by die, then logical core, then lane (12 R253). -/
def LaunchReq.place (r : LaunchReq) : Nat := (r.core.die * 64 + r.core.core) * 16 + r.lane

/-- LAUNCH_REQUEST (12 R252, R253): once the stores it waits for have drained, requests to one queue are granted one at a time; a granted one goes on
until its copy is made. -/
def execLaunchRequest (id : Nat) (s : State) : Out :=
  match s.requests.find? (fun r => r.id == id), s.access? id with
  | some r, some a =>
    match s.party? r.uid with
    | none => .next ((s.dropRequest id).dropAccess id)
    | some p =>
      if s.unitBlocked unitCommand then .next s else
      let asks := fun (r : LaunchReq) => ((s.gang? r.uid r.gid).filter fun g => g.wait == some (.launch r.id))
      match asks r with
      | none => .next (s.launchCopy r a p)
      | some g =>
        let busy := s.requests.any fun o => o.id != id && o.ctx == r.ctx && o.q == r.q && (asks o).isNone
        let owed := p.crews.any fun c => c.storeq.flatten.any r.owed.contains
        let line := Contest.queue r.ctx r.q
        if busy || owed || s.overtaken line r.place then .next s
        else .next ((s.serve line r.place).launchGrant r a p g)
  | _, _ => .next (s.dropRequest id)

/-! ### Dependencies (12 R256, R257) -/

/-- The writes that a predecessor's parties, their fibres and engines, have made to a listed range of this device, page by page; no other write is
ordered by the edge (09 R203). -/
def State.rangeView (s : State) (c : Context) (a n : Nat) (preds : List Nat) : View :=
  (cutPages (n / 65536 + 2) (a % 2 ^ 46) n).flatMap fun q =>
    match (s.walk c (q.va / 2 ^ 40) (q.va % 2 ^ 40) []).1 with
    | .leaf e =>
      if e.getLsbD 62 then []
      else
        let pb := ((sfind c.regions (q.va / 2 ^ 40)).map Region.pageBits).getD 16
        let l := fld e 38 16 * 65536 + q.va % 2 ^ pb
        (s.past.filter fun w => w.src.remote.isNone && preds.contains w.src.uid && rangesMeet w.lo w.old.length l q.len).map Past.fact
    | .fault _ => []

/-- A buffer address of this device. -/
def localBuffer (c : Context) (a : Nat) : Bool := bit a 63 == false || bits a 62 46 == rankSelf || bits a 62 46 == c.rank

/-- Whether a page of another device held here lies in a listed range. -/
def Held.inRange (k : Held) (c : Context) (a n : Nat) : Bool :=
  let b := a % 2 ^ 46
  let size := 2 ^ (((sfind c.regions k.ownReg).map Region.pageBits).getD 16)
  k.ctx == c.num && localBuffer c a && rangesMeet (k.ownReg * 2 ^ 40 + k.ownPage * 65536) size b n

/-- BUFFER_LIST_APPLICATION (12 R257, 09 R203): all edges satisfied, so every command of the predecessors has ended. The successor's accesses follow
their writes to the listed buffers; the device's caches give up their copies, which bind nobody else's reads (log 98); its lines of CACHED pages there
are gone, clean as they are (log 80). -/
def execBufferListApplication (lt : Nat) (s : State) : Out :=
  match s.launch? lt with
  | none => .next s
  | some l =>
    if l.state != .waiting || l.edges.any (fun e => e.waits.isSome) || s.unitBlocked unitCommand then .next s
    else match s.ctx? l.ctx with
      | none => .next s
      | some c =>
        let v := l.edges.flatMap fun e => (e.ranges.filter fun r => localBuffer c r.1).flatMap fun r => s.rangeView c r.1 r.2 e.preds
        let listed := l.edges.flatMap (·.ranges)
        let s := s.onTables fun t => { t with lines := t.lines.filter fun k => !listed.any fun r => k.inRange c r.1 r.2 }
        .next (s.onLaunch lt fun l => { l with state := .placing, view := v }).markFirst

/-! ### Placement (12 R258, 01 R15, 08 R175) -/

/-- The core-map entry of a core that was lost with its company (DESIGN CHOICE, log 79). -/
def coreLost : Nat := 31
/-- A logical core that works: its map entry names a physical core, whatever its company's availability bit says (01 R11, log 116). -/
def State.coreWorks (s : State) (c : CoreRef) : Bool := (s.die c.die).coreMap.getD c.core coreLost != coreLost

/-- The free party slot of a core (16 R361). -/
def State.freeSlot (s : State) (c : CoreRef) : Option Nat :=
  let held := (s.partiesOn c).filter fun p => !p.retired
  (List.range 16).find? fun n => !held.any fun p => p.slot == n

/-- A range of a core's scratchpad is free. -/
def State.scratchFree (s : State) (c : CoreRef) (base size : Nat) : Bool :=
  decide (base % 1024 = 0 ∧ base + size ≤ 2 ^ 20) &&
  (s.partiesOn c).all fun p => !rangesMeet base size p.scrBase p.scrSize

def laneFibres (nfib k : Nat) : Nat := (nfib + 15 - k) / 16

/-- One party of a launch fits on a core at a scratch base. -/
def State.partyFits (s : State) (l : Launch) (c : CoreRef) (base : Nat) : Bool :=
  let b := l.packet
  let reserved := s.live.any fun m => m.idx != l.idx && m.reserve == some (c.die, companyOf c.core)
  decide (c.die < 4 ∧ c.core < 64) && s.coreWorks c && !reserved && (s.freeSlot c).isSome && s.scratchFree c base (pkScratch b * 1024) &&
  ((List.range 16).all fun k => decide (laneFibres (pkNfib b) k * pkBlocks b ≤ (s.freeBlocks ⟨c.die, c.core, k⟩).length)) &&
  (pkOentry b == 0 || !(s.partiesOn c).any fun p => p.outrider)

/-- The cores of a company. -/
def companyCores (die comp : Nat) : List CoreRef := (List.range 16).map fun i => ⟨die, 16 * comp + i⟩

/-- A unit fits: a party on a core; a company on the 16 cores of the core's company, at one base. -/
def State.unitFits (s : State) (l : Launch) (c : CoreRef) (base : Nat) : Bool :=
  if pkUnit l.packet then
    (s.die c.die).avail.getD (companyOf c.core) false && (companyCores c.die (companyOf c.core)).all fun k => s.partyFits l k base
  else s.partyFits l c base

/-- Scratch bases that could be taken first: 0 and the ends of the ranges held. -/
def State.baseCandidates (s : State) : List Nat := (0 :: s.parties.map fun p => ceilDiv (p.scrBase + p.scrSize) 1024 * 1024).eraseDups

def allCores : List CoreRef := (List.range 4).flatMap fun d => (List.range 64).map fun k => ⟨d, k⟩

/-- The next unit of a launch fits somewhere. -/
def State.fitsSomewhere (s : State) (l : Launch) : Bool :=
  allCores.any fun c => s.baseCandidates.any fun base => s.unitFits l c base

/-- No launch before this one in the dispatch order could place its next unit. -/
def State.mayPlace (s : State) (l : Launch) : Bool := s.live.all fun m => !(m.left && Launch.before m l && s.fitsSomewhere m)

/-- For each of some fibres, which gang it begins in. -/
def State.drawEach (s : State) (n : Nat) : List Nat → List (Nat × Nat) × State
  | [] => ([], s)
  | f :: fs =>
    let (k, s) := s.draw n
    let (ks, s) := s.drawEach n fs
    ((f, k) :: ks, s)

/-- The gangs in which the fibres of one crew begin: any, of up to 32 fibres and no more than 16 (06 R125, 21 R417; DESIGN CHOICE, log 101). -/
def State.launchCut (s : State) (ids : List Nat) : List (List Nat) × State :=
  if ids.length ≤ 1 then (cut32 8 ids, s) else
  let (xs, s) := s.drawEach 16 ids
  let cuts := (List.range 16).flatMap fun k => cut32 8 ((xs.filter fun x => x.2 == k).map (·.1))
  (if cuts.length ≤ 16 then cuts else cut32 8 ids, s)

def State.launchCuts (s : State) (ids : Nat → List Nat) : List Nat → List (Nat × List Nat) × State
  | [] => ([], s)
  | k :: ks =>
    let (cuts, s) := s.launchCut (ids k)
    let (more, s) := s.launchCuts ids ks
    (cuts.map (fun c => (k, c)) ++ more, s)

/-- Place one party (03 R49, R63, R66, 06 R125, 08 R175). -/
def State.placeParty (s : State) (l : Launch) (c : CoreRef) (base : Nat) : State :=
  match s.ctx? l.ctx with
  | none => s
  | some x =>
    let b := l.packet
    let (uid, s) := s.fresh
    let size := pkScratch b * 1024
    let s := s.clearRange (locScratch c base) size
    let near := ((sfind x.ngrant c.die).getD (0, 0)).1 * unitGrant + pkNearOff b
    let nb := pkBlocks b
    let free := (List.range 16).map fun k => s.freeBlocks ⟨c.die, c.core, k⟩
    let fibre := fun i : Nat =>
      ({ fid := i, cfid := i / 16, crew := i % 16, pc := w32 (pkEntry b), srs := srsReset c i
         blocks := ((free.getD (i % 16) []).drop (i / 16 * nb)).take nb } : Fibre)
    let fs := (List.range (pkNfib b)).map fibre
    let s := fs.foldl (fun (s : State) f => f.blocks.foldl (fun s k => s.clearBlock ⟨c.die, c.core, f.crew⟩ k) s) s
    let comp := pkUnit b
    let p : Party :=
      { uid := uid, core := c, slot := (s.freeSlot c).getD 0, ctx := l.ctx, rank := x.rank, launch := some l.idx, unitid := l.next, nfib := pkNfib b
        blocks := nb, prio := pkPrio b, producer := pkProducer b, code := w64 (pkCode b)
        segBase := [w64 base, w64 (if comp then base else 0), w64 near, w64 (pkD b 32), w64 (pkD b 48), w64 (pkD b 64)]
        segLim := [w64 size, w64 (if comp then size else 0), w64 (pkNearSize b), w64 (pkD b 40), w64 (pkD b 56), w64 (pkW b 72)]
        scrBase := base, scrSize := size, company := comp, placed := uid, fibres := fs, gangs := []
        crews := (List.range 16).map fun k => { num := k, prio := pkPrio b }
        outrider := pkOentry b != 0, born := s.stamp, known := l.view }
    let s := { s with parties := s.parties ++ [p] }
    let sregs := (List.range 16).map (pkArg b) ++ List.replicate 48 0
    let (cuts, s) := s.launchCuts (fun k => (fs.filter fun f => f.crew == k).map (·.fid)) (List.range 16)
    let s := s.formGangs uid (cuts.map fun x gid => { s.newGang p gid x.1 x.2 sregs {} with starting := true })
    let s := s.onLaunch l.idx fun m => { m with parties := m.parties ++ [uid] }
    if pkOentry b = 0 then s
    else s.onOutrider c fun _ =>
      { running := true, uid := uid, opc := w32 (pkOentry b)
        o := (List.range 8).map (fun k => pkArg b (2 * k + 1) ++ pkArg b (2 * k)) ++ List.replicate 8 0 }

/-- A company launch has been first in the dispatch order and unplaced for 65,536 clk, and no company is reserved for it yet (12 R258). -/
def State.reserveDue (s : State) (l : Launch) : Bool :=
  l.left && pkUnit l.packet && (s.firstLaunch.map (·.idx)) == some l.idx && l.reserve.isNone &&
  decide (0 < l.ready ∧ l.ready - 1 + 65536 ≤ s.clock.toNat)

/-- A company that may be reserved: available, and reserved for no launch. -/
def State.reservable (s : State) (die comp : Nat) : Bool :=
  decide (die < 4 ∧ comp < 4) && (s.die die).avail.getD comp false && !s.live.any fun m => m.reserve == some (die, comp)

/-- The companies that may be reserved. -/
def State.reservables (s : State) : List (Nat × Nat) :=
  ((List.range 4).flatMap fun d => (List.range 4).map fun k => (d, k)).filter fun x => s.reservable x.1 x.2

/-- A reservation that is due comes before any other launch is placed. -/
def State.mustReserve (s : State) (l : Launch) : Bool := !s.reservables.isEmpty && s.live.any fun m => m.idx != l.idx && s.reserveDue m

/-- UNIT_PLACEMENT: the next unit of a launch at a core, or at the company of a core, with a scratch base (12 R258). -/
def execUnitPlacement (lt : Nat) (c : CoreRef) (base : Nat) (s : State) : Out :=
  match s.launch? lt with
  | none => .next s
  | some l =>
    if !(l.left && s.unitFits l c base && s.mayPlace l) || s.mustReserve l || s.unitBlocked unitCommand then .next s
    else
      let cores := if pkUnit l.packet then companyCores c.die (companyOf c.core) else [c]
      let s := cores.foldl (fun (s : State) k => s.placeParty l k base) s
      .next (s.onLaunch lt fun m => { m with next := m.next + 1, placed := m.placed + 1, reserve := none, ready := 0 }).markFirst

/-- COMPANY_RESERVATION (12 R258): which company will be the next to become free is the occurrence's own choice among those that may (log 85). -/
def execCompanyReservation (lt die comp : Nat) (s : State) : Out :=
  match s.launch? lt with
  | none => .next s
  | some l =>
    if s.reserveDue l && s.reservable die comp && !s.unitBlocked unitCommand then .next (s.onLaunch lt fun m => { m with reserve := some (die, comp) }) else .next s

/-! ### Work withdrawal (06 R134, 12 R271) -/

/-- `fetchw` of a mailbox at an offset. -/
def State.fetchwTry (s : State) (t : Turn) (i : Instr) (off : Nat) : Issued :=
  let fault := fun cls => Issued.fault (t.faultLog i cls [w64 off] (w64 off)) s
  if off % 16 ≠ 0 then fault 0x07
  else if (t.p.segLim.getD 0 0).toNat < off + 16 then fault 0x05
  else if 4 ≤ t.p.withdraw.length then .wait
  else .go (s.onParty t.uid fun p => { p with withdraw := p.withdraw ++ [off] })

def execFetchw (h : Head) (a : Opnd) (s : State) : Out :=
  let i := Instr.fetchw h a
  s.issue i fun t => .next (s.conclude t i (s.fetchwTry t i (uniform32 s t (.op a))))

/-- FETCHW_ANSWER (12 R271): the oldest request of a party. Where no unit is granted UNIT is written as 0 (DESIGN CHOICE, log 103). -/
def execFetchwAnswer (uid : Nat) (s : State) : Out :=
  match s.party? uid with
  | none => .next s
  | some p => match p.withdraw with
    | [] => .next s
    | off :: rest =>
      if p.suspended || s.unitBlocked unitCommand then .next s else
      let l := p.launch.bind s.launch?
      let (unit, st) := match l with
        | none => (0, 1)
        | some l => if l.err ∨ l.status ≠ 0 then (0, 2) else if l.next < pkNunits l.packet then (l.next, 0) else (0, 1)
      let loc := locScratch p.core ((p.segBase.getD 0 0).toNat + off)
      let s := s.onParty uid fun p => { p with withdraw := rest }
      let (lost, s) := s.store commandIssuer [] [] none loc none none (bytesOf 4 unit ++ bytesOf 4 st ++ bytesOf 4 0)
      if lost then .next (s.event unitCommand (w64 off) 0x33 0x11 p.source)
      else
        let rel : Release := ⟨.dev, commandIssuer, [⟨loc, 12, s.stamp⟩]⟩
        let (_, s) := s.store commandIssuer [⟨loc, 12, s.stamp⟩] [rel] none (loc + 12) none none (bytesOf 4 1)
        .next (match l, st with
          | some l, 0 => (s.onLaunch l.idx fun m => { m with next := m.next + 1, withdrawn := m.withdrawn ++ [(unit, uid)] }).markFirst
          | _, _ => s)

/-! ### Records (06 R136) -/

/-- Whether a party's Outrider runs. -/
def State.outriderRuns (s : State) (p : Party) : Bool := (s.core p.core).outrider.running && (s.core p.core).outrider.uid == p.uid

/-- Another gang began to wait for a record earlier. -/
def Party.rqBefore (p : Party) (gid since : Nat) : Bool :=
  p.gangs.any fun g => g.gid != gid && (match g.wait with
    | some (.rqpop n _) => decide (n < since)
    | _ => false)

def recordWords (r : BitVec 128) : List Word := (List.range 4).map fun k => w32 (r.toNat / 2 ^ (32 * k))

/-- `rqpop` (06 R136, 12 R269): the head, in the order the gangs began to wait; those of one clk by lane. -/
def execRqpop (h : Head) (d : Opnd) (s : State) : Out :=
  let i := Instr.rqpop h d
  s.issue i fun t =>
    match supplier t.ms with
    | none => .next s
    | some f =>
      let (insn, s1) := s.fresh
      let line := Contest.records t.uid
      let (since, new) := match t.g.wait with
        | some (.rqpop n _) => (n, false)
        | _ => (insn, true)
      let give := fun (s : State) (ws : List Word) => Host.Outcome.next ((s.owe t i insn none (s.destOf t.p f d 4) ws).advance t.uid t.gid i.raw)
      if new && s.overtaken line t.g.crew then .next (s.holdAgain t.uid t.gid) else
      let s1 := if new then s1.serve line t.g.crew else s1
      if t.p.rqBefore t.gid since then .next (s1.hold t.uid t.gid (.rqpop since s1.changes))
      else match t.p.records with
        | r :: rs =>
          let s1 := s1.onParty t.uid fun p => { p with records := rs }
          give (s1.onOutrider t.p.core fun o => if o.uid = t.uid then { o with recs := { o.recs with out := o.recs.out - 1 } } else o) (recordWords r)
        | [] =>
          if s.outriderRuns t.p then .next (s1.hold t.uid t.gid (.rqpop since s1.changes))
          else give s1 [0, 0, 0, 0x80000000]

/-! ### Retirement and completion (12 R259, R260, 15 R343) -/

/-- Every command that a party issued or posted has resolved or retired. -/
def State.commandsDone (s : State) (p : Party) : Bool :=
  let k := s.core p.core
  let run := fun (r : Option MillRun) => r.any fun m => m.cmd.uid == p.uid
  !(run k.mill.loading || run k.mill.streaming || (k.mill.queue.any fun c => c.uid == p.uid) || (k.urgent.any fun c => c.uid == p.uid) ||
    (k.normal.any fun c => c.uid == p.uid) || (k.waiting.any fun r => r.uid == p.uid) || (k.xfers.any fun x => x.cmd.uid == p.uid)) &&
  p.saved.isEmpty && (s.dies.all fun d => d.triggers.all fun t => t.uid != p.uid) &&
  s.flight.all fun a => !(a.uid == p.uid && a.open_)

/-- The parties of one unit. -/
def State.unitOf (s : State) (p : Party) : List Party :=
  if p.company then s.parties.filter fun q => q.company && q.launch == p.launch && q.launch.isSome && q.unitid == p.unitid else [p]

/-- A party has ended: its fibres have exited and its bins are empty. -/
def Party.over_ (p : Party) : Bool := p.fibres.isEmpty && p.bins.isEmpty

/-- Take a retired party away; a company's parties stay as holders of their scratch ranges until all have ended (08 R176). -/
def State.removeParty (s : State) (p : Party) : State :=
  let s := s.onParty p.uid fun p => { p with retired := true, gangs := [], futures := [], score := [], streams := [], records := [], withdraw := []
                                             outrider := false }
  let unit := s.unitOf p
  if unit.all Party.over_ then { s with parties := s.parties.filter fun q => !(q.retired && unit.any fun u => u.uid == q.uid) } else s

/-- PARTY_RETIREMENT (12 R259). -/
def execPartyRetirement (uid : Nat) (s : State) : Out :=
  match s.party? uid with
  | none => .next s
  | some p =>
    let olBusy := s.outriderRuns p && !p.ended
    if p.suspended || p.entering.isSome || p.retired || !p.over_ || olBusy || !s.commandsDone p then .next s
    else
      let rest := (s.unitOf p).filter fun q => q.uid != uid && !q.retired
      let s := { s with flight := s.flight.filter fun a => a.uid != uid }
      let s := s.onCore p.core fun k => { k with outrider := if k.outrider.uid == uid && p.outrider then {} else k.outrider }
      let s := (s.unlinkOf uid).removeParty p
      let done := fun (l : Launch) => { l with ended := l.ended + (if rest.isEmpty then 1 else 0) + (l.withdrawn.filter fun w => w.2 == uid).length }
      .next (match p.launch with
        | some l => s.onLaunch l done
        | none => s)

/-- Whether a launch may complete (12 R259, R260). -/
def Launch.finished (l : Launch) : Bool :=
  if l.status == 1 || l.status == 3 then decide (l.ended = l.placed + l.withdrawn.length)
  else if l.err then decide (l.ended = l.placed + l.withdrawn.length)
  else l.state == .placing && decide (l.next = pkNunits l.packet ∧ l.ended = l.placed + l.withdrawn.length)

/-- What a launch's parties have written. -/
def State.launchView (s : State) (l : Launch) : View := (s.past.filter fun w => l.parties.contains w.src.uid && w.src.remote.isNone).map Past.fact

/-- The ORPHAN record of a completion record that could not be written: SUB is the class of 14 R322, or that of 16 R352 where no page was met (log 28). -/
def State.recordLost (s : State) (l : Launch) (cls sub : Nat) : State :=
  (s.cpDone (64, l.idx)).event unitCommand (w64 (pkDoneaddr l.packet)) 0x33 (if sub = 0 then cls else sub) { ctx := l.ctx }

/-- The completion record of a launch (12 R260). -/
def recordBytes (l : Launch) (status : Nat) : List Byte := [BitVec.ofNat 8 status, BitVec.ofNat 8 l.cause, 0, 0] ++ bytesOf 4 l.id

/-- Step 2 of 12 R260: the completion record, and whether the step is over: a held fault and another device's answer are waited for. -/
def State.completionRecord (s : State) (l : Launch) (status : Nat) : Bool × State :=
  let who := (64, l.idx)
  let addr := pkDoneaddr l.packet
  if addr = 0 then (true, s)
  else if s.tables.pending.any fun e => e.queues.contains who then (false, s)
  else if l.lost ≠ 0 then (true, s.recordLost l l.lost l.lost)
  else if !(s.cpPieces who).isEmpty then match s.cpAnswer who with
    | .ok qs => (true, if partsLost qs then s.recordLost l 0x11 0 else s.cpDone who)
    | .refused cls sub => (true, s.recordLost l cls sub)
    | _ => (false, s)
  else match s.ctx? l.ctx with
    | none => (true, s)
    | some c => match s.cpLocate c who addr 8 true with
      | (.ok qs, s) =>
        let (lost, s) := s.cpStore c who commandIssuer (s.launchView l) (recordBytes l status) qs
        if (s.cpPieces who).isEmpty then (true, if lost then s.recordLost l 0x11 0 else s.cpDone who) else (false, s)
      | (.refused cls sub, s) => (true, s.recordLost l cls sub)
      | (_, s) => (false, s)

/-- Step 4: waiting edges become satisfied, or cancel their successors; `ps` are the parties of the launch that completes. -/
def Launch.release (idx status : Nat) (ps : List Nat) (l : Launch) : Launch :=
  if l.edges.any fun e => e.waits == some idx then
    if status ≠ 0 ∧ l.state == .waiting then { l with state := .completing, status := 3 }
    else { l with edges := l.edges.map fun e => if e.waits == some idx then { e with waits := none, preds := ps } else e }
  else l

/-- LAUNCH_COMPLETION (12 R260). -/
def execLaunchCompletion (lt : Nat) (s : State) : Out :=
  match s.launch? lt with
  | none => .next s
  | some l =>
    if !l.finished || s.unitBlocked unitCommand then .next s else
    let status := if l.status ≠ 0 then l.status else if l.err then 2 else 0
    match s.completionRecord l status with
    | (false, s) => .next s
    | (true, s) =>
        let s := if pkDcen l.packet then s.countUp l.ctx (pkDonecnt l.packet) commandIssuer .dev (View.join (s.launchView l)
          ((s.past.take 1).map Past.fact)) else s
        let live := (s.live.filter fun (m : Launch) => m.idx != lt).map (Launch.release lt status l.parties)
        let s := if l.id = 0 then s else s.onCtx l.ctx fun c => { c with done := sput c.done l.id l.parties }
        .next ({ s with live := live } : State).markFirst

end Sys2Proof.Machine
end

