-- ==== Sys2Proof/Machine/Relocate.lean ====
section
/-!
DEFINITION. What is known of memory follows a scratch range to another place (09 R192): suspension and restore remove no happens-before edge, so the
writes made in a party's scratchpad, and every view that names them, move with its bytes (log 107).
-/

namespace Sys2Proof.Machine

/-- A range of locations that moves: from `lo`, `len` bytes, to `new`, with the writes up to `stamp`. -/
structure Move where
  lo    : Nat
  len   : Nat
  new   : Nat
  stamp : Nat
  deriving DecidableEq, Repr

/-- Where a location goes. -/
def Move.loc (m : Move) (l : Nat) : Nat := m.new + (l - m.lo)
/-- Whether something that starts at a location, of a stamp, moves. -/
def Move.takes (m : Move) (l stamp : Nat) : Bool := decide (m.lo ≤ l ∧ l < m.lo + m.len ∧ stamp ≤ m.stamp)

def Fact.moved (m : Move) (f : Fact) : Fact := if m.takes f.lo f.stamp then { f with lo := m.loc f.lo } else f
def View.moved (m : Move) (v : View) : View := v.map (Fact.moved m)
def Release.moved (m : Move) (r : Release) : Release := { r with view := View.moved m r.view }
def CntEdge.moved (m : Move) (e : CntEdge) : CntEdge := { e with view := View.moved m e.view }
/-- What a write is known after; its own place is that of its bytes. -/
def Past.moved (m : Move) (w : Past) : Past := { w with view := View.moved m w.view, rels := w.rels.map (Release.moved m) }
/-- A write whose bytes move. -/
def Past.shifted (m : Move) (w : Past) : Past := if m.takes w.lo w.stamp then { w with lo := m.loc w.lo } else w

def Access.moved (m : Move) (a : Access) : Access :=
  { a with view := View.moved m a.view, heard := a.heard.map (Release.moved m), early := View.moved m a.early }
def MillCmd.moved (m : Move) (c : MillCmd) : MillCmd := { c with seen := View.moved m c.seen, view := View.moved m c.view }
def MillRun.moved (m : Move) (r : MillRun) : MillRun := { r with cmd := r.cmd.moved m, wrote := View.moved m r.wrote }
def PortCmd.moved (m : Move) (c : PortCmd) : PortCmd :=
  { c with seen := View.moved m c.seen, saw := View.moved m c.saw, view := View.moved m c.view }
def EngineReq.moved (m : Move) : EngineReq → EngineReq
  | .port c => .port (c.moved m)
  | .mill c => .mill (c.moved m)
  | .gang e u g i => .gang e u g i
def Transfer.moved (m : Move) (x : Transfer) : Transfer :=
  { x with cmd := x.cmd.moved m, start := View.moved m x.start, writes := View.moved m x.writes, heard := x.heard.map (CntEdge.moved m) }

def Fibre.moved (m : Move) (f : Fibre) : Fibre :=
  { f with view := View.moved m f.view, lastRel := f.lastRel.map (Release.moved m), base := View.moved m f.base
           millSeen := View.moved m f.millSeen, portSeen := View.moved m f.portSeen
           cntSeen := f.cntSeen.map fun e => (e.1, View.moved m e.2), engView := View.moved m f.engView }
def Redo.moved (m : Move) : Redo → Redo
  | .access as => .access (as.map (Access.moved m))
  | .mill c d => .mill (c.moved m) d
  | r => r
def LogEntry.moved (m : Move) (e : LogEntry) : LogEntry := { e with redo := e.redo.moved m }
def Gang.moved (m : Move) (g : Gang) : Gang :=
  { g with walkView := View.moved m g.walkView, slog := g.slog.map (LogEntry.moved m), newlog := g.newlog.map (LogEntry.moved m) }
def Batch.moved (m : Move) (b : Batch) : Batch := { b with view := View.moved m b.view }
def Stream.moved (m : Move) (x : Stream) : Stream :=
  { x with openB := x.openB.map (Batch.moved m), sealed := x.sealed.map (Batch.moved m), view := View.moved m x.view }
def Party.moved (m : Move) (p : Party) : Party :=
  { p with fibres := p.fibres.map (Fibre.moved m), gangs := p.gangs.map (Gang.moved m)
           futures := p.futures.map fun e => (e.1, { e.2 with view := View.moved m e.2.view })
           streams := p.streams.map fun e => (e.1, e.2.moved m), saved := p.saved.map (EngineReq.moved m)
           millView := View.moved m p.millView, portView := View.moved m p.portView, known := View.moved m p.known
           kept := p.kept.map (Past.moved m) }

def Core.moved (m : Move) (k : Core) : Core :=
  { k with
    mill := { k.mill with view := View.moved m k.mill.view, queue := k.mill.queue.map (MillCmd.moved m)
                          loading := k.mill.loading.map (MillRun.moved m), streaming := k.mill.streaming.map (MillRun.moved m) }
    urgent := k.urgent.map (PortCmd.moved m), normal := k.normal.map (PortCmd.moved m), waiting := k.waiting.map (EngineReq.moved m)
    xfers := k.xfers.map (Transfer.moved m), olView := View.moved m k.olView }
def Counter.moved (m : Move) (c : Counter) : Counter :=
  { c with edges := c.edges.map (CntEdge.moved m), rels := c.rels.map (Release.moved m) }
def Trigger.moved (m : Move) (t : Trigger) : Trigger := { t with seen := View.moved m t.seen }
def CntOp.moved (m : Move) : CntOp → CntOp
  | .arm t => .arm (t.moved m)
  | o => o
def Tables.moved (m : Move) (t : Tables) : Tables :=
  { t with inbound := View.moved m t.inbound, resumed := t.resumed.map fun e => (e.1, View.moved m e.2) }

/-- Every view of the state, with the range moved. -/
def State.moveViews (s : State) (m : Move) : State :=
  { s with
    parties := s.parties.map (Party.moved m)
    flight := s.flight.map (Access.moved m)
    cores := s.cores.map fun e => (e.1, e.2.moved m)
    dies := s.dies.map fun d => { d with counters := d.counters.map fun e => (e.1, e.2.moved m), triggers := d.triggers.map (Trigger.moved m) }
    tables := s.tables.moved m
    live := s.live.map fun l => { l with view := View.moved m l.view }
    requests := s.requests.map fun r => { r with seen := View.moved m r.seen }
    cntReqs := s.cntReqs.map fun r => { r with op := r.op.moved m, view := View.moved m r.view, more := r.more.map (CntEdge.moved m) }
    past := s.past.map (Past.moved m)
    fences := s.fences.map fun f => { f with view := View.moved m f.view } }

/-- The history of a range. -/
def State.historyOf (s : State) (lo len : Nat) : List Past := s.past.filter fun w => decide (lo ≤ w.lo ∧ w.lo < lo + len)

/-- Put writes back among the past, newest first. -/
def mergePast : List Past → List Past → List Past
  | [], ws => ws
  | k :: ks, ws => mergePast ks (ws.takeWhile (fun w => decide (k.stamp < w.stamp)) ++ k :: ws.dropWhile fun w => decide (k.stamp < w.stamp))

end Sys2Proof.Machine
end

