-- ==== Sys2Proof/Machine/Party.lean ====
section
/-!
DEFINITION. Operations on parties and contexts (16 R363 to R367, R370): PCTL SUSPEND, RESTORE, END and ABORTX with the save image, CTXCTL CREATE,
RETIRE and SETRANK. A party off its core keeps its entry of the state, with a die number of 4 or more; its register blocks, its scratch bytes and its
futures are read from the image (log 29).
-/

namespace Sys2Proof.Machine

/-! ### Naming a party (16 R364) -/

/-- The fields of PCTL and of CTXCTL; the reserved ones read as zero (00 R7). -/
def pctlFields : List (Nat × Nat) := [(63, 49), (38, 22)]
def ctxctlFields : List (Nat × Nat) := [(63, 62), (22, 0)]

def pctlOp (v : DWord) : Nat := fld v 63 61
def pctlCore (v : DWord) : CoreRef := ⟨fld v 60 59, fld v 58 53⟩
def pctlSlot (v : DWord) : Nat := fld v 52 49
def pctlArea (v : DWord) : Nat := fld v 38 22 * 2 ^ 22
def areaSize : Nat := 2 ^ 22

/-- Result codes of PSTAT. -/
inductive PartyCode | ok | self | atS | noParty | badImg | noRoom | badArea
  deriving DecidableEq, Repr
def PartyCode.code : PartyCode → Nat
  | .ok => 0 | .self => 1 | .atS => 2 | .noParty => 3 | .badImg => 4 | .noRoom => 5 | .badArea => 6

def State.partyAt (s : State) (c : CoreRef) (slot : Nat) : Option Party :=
  (s.partiesOn c).find? fun p => p.slot == slot && !p.retired && p.image.isNone

def State.setPstat (s : State) (v : DWord) (k : PartyCode) (n : Nat) : State :=
  { s with sys := { s.sys with pctl := v &&& fieldMask pctlFields, pstat := w64 (n * 256 + k.code) } }

/-! ### Suspension sets (16 R363) -/

/-- Two cores whose Mills are linked in one chain. -/
def State.chained (s : State) (c d : CoreRef) : Bool :=
  c.die == d.die && (match (s.core c).mill.link, (s.core d).mill.link with
    | some k, some l => k.head == l.head
    | _, _ => false)

def partyBefore (p q : Party) : Bool := decide (coreKey p.core < coreKey q.core ∨ (p.core = q.core ∧ p.slot < q.slot))

/-- The closure of a set of parties, by uid, in `fuel` rounds. -/
def State.closeSet (s : State) : Nat → List Nat → List Nat
  | 0, us => us
  | n + 1, us =>
    let ps := us.filterMap s.party?
    let near := fun (q : Party) => ps.any fun p => p.uid == q.uid || (s.unitOf p).any (fun u => u.uid == q.uid) || (p.core != q.core && s.chained p.core q.core) ||
      (p.core == q.core && (s.core p.core).mill.link.isSome)
    s.closeSet n ((s.parties.filter fun q => !q.retired && q.image.isNone && near q).map (·.uid))

/-- The suspension set of a party, by ascending (die, core) and slot. -/
def State.suspendSet (s : State) (p : Party) : List Party :=
  let us := s.closeSet s.parties.length [p.uid]
  let ps := us.filterMap s.party?
  let rank := fun i => match ps[i]? with
    | some p => coreKey p.core * 16 + p.slot
    | none => 0
  (sortBy rank (List.range ps.length)).filterMap fun i => ps[i]?

/-- The save areas of a set lie in one stack, and in no reuse arena. -/
def State.areasOk (s : State) (area n : Nat) : Bool :=
  let len := n * areaSize
  decide (area + len ≤ devTop ∧ area / 2 ^ 36 = (area + max len 1 - 1) / 2 ^ 36) && !s.inArena area len

/-! ### SUSPEND: stopping (16 R365 steps 1 to 4) -/

/-- Take a party's transfers that have not started, and its requests that still wait, out of their queues (12 R266). -/
def State.takePorts (s : State) (p : Party) : State :=
  let k := s.core p.core
  let reqs := k.waiting.filter fun r => r.uid == p.uid && (match r with | .gang _ _ _ _ => false | _ => true)
  let ports := (k.urgent ++ k.normal).filter fun c => c.uid == p.uid
  let s := s.onCore p.core fun k => { k with
    urgent := k.urgent.filter fun c => c.uid != p.uid, normal := k.normal.filter fun c => c.uid != p.uid
    waiting := k.waiting.filter fun r => r.uid != p.uid }
  s.onParty p.uid fun p => { p with saved := p.saved ++ ports.map EngineReq.port ++ reqs }

/-- A slot command that waits at its start (11 R247). -/
def State.waitsSlot (s : State) (id : Nat) : Bool := s.dies.any fun d => d.slots.any fun e => e.waiting.contains id

/-- A Mill queue whose head cannot start for now: behind an offered join, at a slot another command holds, or at a member of a chain. -/
def State.millStuck (s : State) (c : CoreRef) : Bool :=
  let m := (s.core c).mill
  m.isMember || m.streaming.any (·.offered) || m.queue.any fun x => s.waitsSlot x.id

/-- A party still owes registers the results of Mill commands it was accepted for. -/
def State.owesResults (s : State) (uid : Nat) : Bool := s.flight.any fun a => a.uid == uid && a.op.isLater && a.open_

/-- Take a party's Mill commands that have not started out of their queue (07 R169): once none of them is to give an outstanding result, which is
written before the save (03 R70, 16 R365 step 2); where the queue is stuck the result is discarded (log 26). -/
def State.takeMill (s : State) (p : Party) : State :=
  if s.owesResults p.uid && !s.millStuck p.core then s else
  let k := s.core p.core
  let idle := fun (r : MillRun) => r.cmd.uid == p.uid && r.offered
  let cmds := (k.mill.streaming.toList.filter idle).map (·.cmd) ++ k.mill.queue.filter fun c => c.uid == p.uid
  let items := cmds.filterMap (·.item)
  let s := s.onMill p.core fun m => { m with
    queue := m.queue.filter fun c => c.uid != p.uid
    streaming := if m.streaming.any idle then none else m.streaming }
  let s := s.leaveSlots (cmds.map (·.id))
  let s : State := { s with flight := s.flight.filter fun a => !(a.uid == p.uid && a.op.isLater && a.open_ && items.contains a.insn) }
  s.onParty p.uid fun p => { p with saved := cmds.map (fun c => .mill { c with item := none }) ++ p.saved }

/-- Withdraw a party's collectives that still wait in their handshakes (13 R302), and its transfers that wait to go on. They are saved ahead of those
that have not started; the handshakes that have come are kept for when they start again. -/
def State.withdrawColls (s : State) (p : Party) : State :=
  let waiting := (s.core p.core).xfers.filter fun x => x.cmd.uid == p.uid &&
    ((x.held && x.abort.isNone) || ((s.collOf p.core x).any fun e => !e.begun && e.abort.isNone))
  let back := fun (s : State) (x : Transfer) => (s.freeXfer p.core x).onParty p.uid fun p => { p with saved := .port x.cmd :: p.saved }
  waiting.reverse.foldl (fun (s : State) x => match s.collOf p.core x with
    | none => back s x
    | some e =>
      let s := (peersOf x.grid e.self).foldl (fun (s : State) q => s.emit (.withdraw (x.rankOf q) (s.headOf e))) s
      let kept := e.hands.map fun h => ({ s.headOf e with src := h.1, rank := x.rankOf h.1 }, h.2)
      back (s.onTables fun t => { t with early := t.early ++ kept }) x) s

/-- What a stopped gang's wait becomes: the instruction issues again, but records placed by a `spawn` stay placed, and a wait for scoreboard entries keeps
its place. -/
def stopWait : Option Wait → Option Wait
  | some (.spawn placed entry since mark) => some (.spawn placed entry since mark)
  | some (.score since mark) => some (.score since mark)
  | _ => none

/-- Stop a party: its gangs stop before their next instructions, what has not begun is taken back. -/
def State.stopParty (s : State) (p : Party) : State :=
  let s := s.takePorts p
  let s := s.withdrawColls p
  let reqs := (s.requests.filter fun r => r.uid == p.uid && (s.gang? r.uid r.gid).any (fun g => g.wait == some (.launch r.id))).map (·.id)
  let s : State := { s with requests := s.requests.filter fun r => !reqs.contains r.id, flight := s.flight.filter fun a => !reqs.contains a.id
                            growq := s.growq.filter fun w => w.2.1 != p.uid }
  s.onParty p.uid fun p => { p with suspended := true, gangs := p.gangs.map fun g => { g with wait := stopWait g.wait } }

/-- A sealed batch of a party finishes now (13 R298): its record goes out before the party leaves its core. -/
def Party.finishing (p : Party) : Bool := p.streams.any fun x => (x.2.sealed.head?).any fun b => b.left == 0

/-- Nothing of a party is on its way any more (16 R365 steps 2 to 4). -/
def State.settled (s : State) (p : Party) : Bool :=
  let k := s.core p.core
  let run := fun (r : Option MillRun) => r.any fun m => m.cmd.uid == p.uid
  !(run k.mill.loading || run k.mill.streaming || (k.xfers.any fun x => x.cmd.uid == p.uid) || k.mill.queue.any fun c => c.uid == p.uid) &&
  !p.finishing && (s.flight.all fun a => a.uid != p.uid || a.stage.isRefused) && (p.crews.all fun c => c.storeq.isEmpty) &&
  s.requests.all fun r => r.uid != p.uid

/-! ### The image (16 R366) -/

def padTo64 (n : Nat) : Nat := ceilDiv n 64 * 64

/-- The bytes of a fibre's register blocks, in window order. -/
def State.blockBytes (s : State) (p : Party) (f : Fibre) : List Byte :=
  f.blocks.flatMap fun b => (List.range 64).flatMap fun r => bytesOf 4 (s.regAt (p.laneOf f.crew) b r).toNat

/-- Fibres by ascending `$fid`. -/
def Party.byFid (p : Party) : List Fibre := (sortBy id (p.fibres.map (·.fid))).filterMap p.fibre?

/-- Sizes of the sections before the scratch: fibre records, register blocks, meet records, gang, crew and party records. -/
def Party.fibreLen (p : Party) : Nat := 64 * p.fibres.length
def Party.blockLen (p : Party) : Nat := 256 * (p.fibres.map (·.blocks.length)).sum
def Party.recordLen (p : Party) : Nat :=
  320 * (p.fibres.filter fun f => f.meet.isSome).length + 7040 * p.gangs.length + 256 + 16384

/-- The poison bits of a range, one for each 64-byte unit. -/
def State.poisonBits (s : State) (loc len : Nat) : List Byte :=
  let n := len / 64
  bytesOf (padTo64 (ceilDiv n 8)) (((List.range n).map fun i => if s.poisonAt (loc + 64 * i) then 2 ^ i else 0).sum)

/-- The header, with its CRC field as given. -/
def imageHeader (p : Party) (chained : Bool) (setn seti size crc : Nat) : List Byte :=
  bytesOf 4 1 ++ bytesOf 4 size ++ bytesOf 4 (setn * 2 ^ 16 + seti % 256 * 2 ^ 8 + p.ctx) ++ bytesOf 4 p.unitid ++ bytesOf 4 p.nfib ++
  bytesOf 4 p.fibres.length ++ bytesOf 4 p.gangs.length ++ bytesOf 4 p.scrSize ++
  bytesOf 4 (b2n p.halted * 8 + b2n chained * 4 + b2n p.company * 2 + b2n p.outrider) ++ bytesOf 4 (p.launch.getD 0) ++ bytesOf 8 0 ++ bytesOf 4 crc ++ bytesOf 12 0

/-- The word of a scoreboard entry (08 R182). -/
def Score.word (e : Score) : Nat := e.gang % 16 * 2 ^ 80 + e.batch % 2 ^ 16 * 2 ^ 64 + e.stop % 2 ^ 30 * 2 ^ 34 + e.start % 2 ^ 30 * 2 ^ 4 + b2n e.near * 2 + 1

/-- The scoreboard of a party as its image holds it: 16 cells of 16 bytes (08 R182, 16 R366). -/
def Party.scoreCells (p : Party) : List Byte :=
  (List.range 16).flatMap fun i => bytesOf 16 (((p.score.find? fun e => e.idx == i).map Score.word).getD 0)

/-- The word of a future-table entry (14 R328). -/
def Future.saveWord (f : Future) : Nat :=
  let st := match f.state with
    | .free => 0 | .pending => 1 | .done => 2 | .faulted => 3
  f.gen.toNat * 2 ^ 24 + f.cause % 256 * 2 ^ 16 + b2n f.drop * 32 + b2n f.poison * 16 + st

/-- A future-table entry as its word gives it. -/
def Future.ofWord (f : Future) (w : Nat) : Future :=
  let st := match w % 8 with
    | 1 => FutState.pending | 2 => .done | 3 => .faulted | _ => .free
  { f with gen := BitVec.ofNat 8 (w / 2 ^ 24), cause := bits w 23 16, drop := bit w 5, poison := bit w 4, state := st }

/-- The future table of a party as its image holds it: entry i at byte 4i (14 R328). -/
def Party.futureBytes (p : Party) : List Byte := (List.range 64).flatMap fun i => bytesOf 4 (p.future i).saveWord
def Party.loadFutures (p : Party) (bs : List Byte) : Party :=
  (List.range 64).foldl (fun (p : Party) i => p.setFuture i ((p.future i).ofWord (leAt bs (4 * i) 4))) p

/-- What an image holds that a restore reads: the register blocks, the futures, the scratch bytes and their poison. -/
structure SavedBytes where
  blocks  : List Byte
  futures : List Byte
  scratch : List Byte
  bad     : List Byte
  deriving DecidableEq, Repr

def State.savedBytes (s : State) (p : Party) : SavedBytes :=
  let loc := locScratch p.core p.scrBase
  { blocks := p.byFid.flatMap (s.blockBytes p), futures := p.futureBytes, scratch := s.bytesAt loc p.scrSize, bad := s.poisonBits loc p.scrSize }

/-- The image of a party, with its CRC: bytes whose layout the manual does not give are free; the futures and then the scoreboard cells open the party
record (log 29). -/
def State.imageOf (s : State) (p : Party) (setn seti : Nat) : List Byte × Nat × State :=
  let b := s.savedBytes p
  let (fs, s) := s.freeBytes p.fibreLen
  let (gangs, s) := s.freeBytes (p.recordLen - 16384)
  let (rest, s) := s.freeBytes (16384 - 512)
  let body := fs ++ b.blocks ++ gangs ++ b.futures ++ p.scoreCells ++ rest ++ b.scratch ++ b.bad
  let size := 64 + body.length
  let chained := (s.core p.core).mill.link.isSome
  let crc := (crc32c (imageHeader p chained setn seti size 0 ++ body)).toNat
  (imageHeader p chained setn seti size crc ++ body, crc, s)

/-- What the image of a party at a place holds. -/
def State.imageBytes (s : State) (p : Party) (loc : Nat) : SavedBytes :=
  let blocks := loc + 64 + p.fibreLen
  let party := blocks + p.blockLen + (p.recordLen - 16384)
  { blocks := s.bytesAt blocks p.blockLen, futures := s.bytesAt party 256, scratch := s.bytesAt (party + 16384) p.scrSize
    bad := s.bytesAt (party + 16384 + p.scrSize) (ceilDiv (p.scrSize / 64) 8) }

/-- Rebind what recorded a party's blocks (03 R70). -/
def rebindDest (m : BlockRef → BlockRef) : DestReg → DestReg
  | .v b r crew => .v (m b) r crew
  | .s n => .s n
  | .special r k => .special r k
def rebindAccess (m : BlockRef → BlockRef) (a : Access) : Access := { a with dest := a.dest.map (rebindDest m), sd := a.sd.map (rebindDest m) }
def rebindEntry (m : BlockRef → BlockRef) (e : LogEntry) : LogEntry :=
  { e with
    fibres := e.fibres.map fun f => { f with gens := f.gens.map m }
    redo := match e.redo with
      | .access as => .access (as.map (rebindAccess m))
      | .mill c d => .mill c (d.map (rebindDest m))
      | r => r }

/-- While a party is off its core, a reference to a block it held carries generation 0, and a stale one a place that never matches. -/
def State.detach (s : State) (b : BlockRef) : BlockRef :=
  if s.genAt b.lane b.blk == b.gen then { b with gen := 0 } else ⟨⟨99, 0, 0⟩, b.blk, 1⟩

/-- The links of the chain that a core's Mill is in, by logical core. -/
def State.linksOf (s : State) (c : CoreRef) : List (Nat × Link) :=
  match (s.core c).mill.link with
  | none => []
  | some l => (List.range l.len).filterMap fun j => ((s.core ⟨c.die, l.head + j⟩).mill.link.filter fun x => x.head == l.head).map fun x => (l.head + j, x)

/-- Take a party off its core, with the CRC of its image (16 R365 step 6): the history of its scratchpad goes with it (09 R192). -/
def State.liftParty (s : State) (uid crc : Nat) : State :=
  match s.party? uid with
  | none => s
  | some p =>
    let m := s.detach
    let kept := s.historyOf (locScratch p.core p.scrBase) p.scrSize
    let links := s.linksOf p.core
    let s : State := { s with flight := s.flight.map fun a => if a.uid == uid then rebindAccess m a else a }
    let s := p.fibres.foldl (fun (s : State) f => f.blocks.foldl (fun s b => s.releaseBlock (p.laneOf f.crew) b) s) s
    let ol := if p.outrider && (s.core p.core).outrider.uid == uid then some (s.core p.core).outrider else none
    let s := s.onCore p.core fun k => { k with outrider := if ol.isSome then {} else k.outrider }
    let gang := fun (g : Gang) => { g with slog := g.slog.map (rebindEntry m) }
    let now := s.clock.toNat
    let bin := fun (b : Nat × Bin) => (b.1, { b.2 with expiry := b.2.expiry - now })
    s.onParty uid fun p => { p with image := some crc, savedOl := ol, links := links, core := ⟨p.core.die + 4, p.core.core⟩
                                    kept := kept, keptAt := s.stamp, gangs := p.gangs.map gang, bins := p.bins.map bin }

/-- Note what an image stands for. -/
def State.noteImage (s : State) (uid crc : Nat) : State :=
  match s.party? uid with
  | none => s
  | some p => s.onTables fun t => { t with images := ⟨crc, p, s.flight.filter fun a => a.uid == uid⟩ :: t.images.filter fun x => x.crc != crc }

/-- Write the image of one member and take it off its core (16 R365 steps 5 and 6). -/
def State.saveParty (s : State) (uid area setn seti : Nat) : State :=
  match s.party? uid with
  | none => s
  | some p =>
    let (bs, crc, s) := s.imageOf p setn seti
    ((s.poke (area + seti * areaSize) bs).liftParty uid crc).noteImage uid crc

/-- The links of a chain dissolve. -/
def State.clearLinks (s : State) (die : Nat) (ls : List (Nat × Link)) : State :=
  ls.foldl (fun (s : State) e => s.onMill ⟨die, e.1⟩ fun m => { m with link := none }) s

/-- Progress of a party operation: it goes on later, or it has ended. -/
inductive PartyEnd | wait | done
  deriving DecidableEq, Repr

/-- SUSPEND: the first turn stops the set; when all have settled the images are written. -/
def State.suspend (s : State) (v : DWord) (by_ : Option Nat) : PartyEnd × State :=
  match s.partyAt (pctlCore v) (pctlSlot v) with
  | none => (.done, s.setPstat v .noParty 0)
  | some p =>
    let set := (s.suspendSet p).filter fun q => !q.ended
    let n := set.length
    if set.isEmpty then (.done, s.setPstat v .ok 0)
    else if p.suspended then
      let set := set.filter (·.suspended)
      let s := set.foldl (fun (s : State) q => s.takeMill q) s
      if set.all s.settled then
        let links := set.map fun q => (q.core.die, s.linksOf q.core)
        let s := (List.range set.length).foldl (fun (s : State) i => match set[i]? with
          | some q => s.saveParty q.uid (pctlArea v) set.length i
          | none => s) s
        (.done, (links.foldl (fun (s : State) e => s.clearLinks e.1 e.2) s).setPstat v .ok set.length)
      else (.wait, s)
    else if set.any fun q => by_ == some q.uid then (.done, s.setPstat v .self n)
    else if set.any fun q => q.gangs.any (·.level) then (.done, s.setPstat v .atS n)
    else if !s.areasOk (pctlArea v) n then (.done, s.setPstat v .badArea n)
    else (.wait, set.foldl (fun (s : State) q => s.stopParty q) s)

/-! ### RESTORE (16 R367) -/

/-- What an image at a place stands for: its header and CRC are good, its context is VALID. -/
def State.imageParty (s : State) (loc seti : Nat) : Option SavedParty :=
  let h := s.bytesAt loc 64
  let size := leAt h 4 4
  if leAt h 0 4 ≠ 1 ∨ size < 64 ∨ areaSize < size ∨ s.poisonIn loc size = true ∨ leAt h 8 4 / 256 % 256 ≠ seti then none
  else
    let body := s.bytesAt (loc + 64) (size - 64)
    let crc := leAt h 48 4
    if crc ≠ (crc32c (h.take 48 ++ bytesOf 4 0 ++ h.drop 52 ++ body)).toNat ∨ (s.ctx? (leAt h 8 4 % 64)).isNone = true then none
    else s.tables.images.find? fun x => x.crc == crc && x.party.ctx == leAt h 8 4 % 64

/-- The image set at an area. -/
def State.imageSet (s : State) (area : Nat) : Option (List SavedParty) :=
  let n := leAt (s.bytesAt area 64) 10 2
  let ps := (List.range n).filterMap fun i => s.imageParty (area + i * areaSize) i
  if n ≠ 0 ∧ ps.length = n then some ps else none

/-- Where a member of a restored set goes. -/
def restoreTarget (v : DWord) (n : Nat) (p : Party) : CoreRef :=
  let c := pctlCore v
  if n = 1 then c else ⟨c.die, companyOf c.core * 16 + p.core.core % 16⟩

/-- A target core has room for a party (16 R367). -/
def State.roomFor (s : State) (p : Party) (c : CoreRef) : Bool :=
  s.coreWorks c && (s.freeSlot c).isSome && (s.scratchFree c p.scrBase p.scrSize) &&
  ((List.range 16).all fun k =>
    decide (((p.fibres.filter fun f => f.crew == k).map (·.blocks.length)).sum ≤ (s.freeBlocks ⟨c.die, c.core, k⟩).length)) &&
  (!p.outrider || !(s.partiesOn c).any (·.outrider))

/-- New blocks for the fibres of a party: the lowest free of each lane. -/
def State.newBlocks (s : State) (p : Party) (c : CoreRef) : List (Nat × List Nat) :=
  (p.byFid.foldl (fun (acc : List (Nat × List Nat) × List (List Nat)) f =>
    let pool := acc.2.getD f.crew []
    (acc.1 ++ [(f.fid, pool.take f.blocks.length)], acc.2.set f.crew (pool.drop f.blocks.length)))
    ([], (List.range 16).map fun k => s.freeBlocks ⟨c.die, c.core, k⟩)).1

/-- The registers of a block as an image holds them. -/
def State.loadBlock (s : State) (l : LaneRef) (b : Nat) (bs : List Byte) : State :=
  (List.range 64).foldl (fun (s : State) r => s.setReg l b r (w32 (leAt bs (4 * r) 4))) s

/-- A saved entry takes its place among the requests for its queue (12 R266); while another context owns the Mill a command waits, and the supervisor is
told (log 30). -/
def State.reenter (s : State) (c : CoreRef) (src : EventSrc) (r : EngineReq) : State :=
  let s := s.onCore c fun k => { k with waiting := k.waiting ++ [r] }
  match r with
  | .mill cmd =>
    let m := (s.core c).mill
    if m.foreign cmd.ctx && !(s.core c).barred then (s.onCore c fun k => { k with barred := true }).event 0 0 0x0D (m.owner.getD 0) src else s
  | .port _ | .gang _ _ _ _ => s

/-- The Mills of a chain link again, by their places from the core a party has left to the one it goes to, where they fit (07 R160). -/
def State.relink (s : State) (p : Party) (old c : CoreRef) : State :=
  p.links.foldl (fun (s : State) e =>
    let go := fun n => n + c.core - old.core
    let l := e.2
    if l.head + c.core < old.core ∨ 4 < go l.head % 4 + l.len then s
    else s.onMill ⟨c.die, go e.1⟩ fun m => { m with link := some { l with head := go l.head } }) s

/-- The history of a party's scratchpad as it stands on a core: what names it anywhere follows it (09 R192, log 107). -/
def State.moveHistory (s : State) (uid : Nat) (old c : CoreRef) : State :=
  match s.party? uid with
  | none => s
  | some p =>
    let mv : Move := ⟨locScratch old p.scrBase, p.scrSize, locScratch c p.scrBase, p.keptAt⟩
    let s := if old = c then s else s.moveViews mv
    let kept := ((s.party? uid).map (·.kept)).getD []
    { s with past := mergePast (kept.map (Past.shifted mv)) s.past }

/-- Place one restored party on a core with the bytes of its image. Its gangs stay where they are until its saved entries are in their queues. -/
def State.restoreParty (s : State) (p : Party) (c : CoreRef) (b : SavedBytes) : State :=
  let new := s.newBlocks p c
  let blocksOf := fun fid => ((new.find? fun e => e.1 == fid).map (·.2)).getD []
  let slot := (s.freeSlot c).getD 0
  let old : CoreRef := ⟨p.core.die - 4, p.core.core⟩
  let map := p.fibres.flatMap fun f => (f.blocks.zip (blocksOf f.fid)).map fun e =>
    let l : LaneRef := ⟨old.die, old.core, f.crew⟩
    let l' : LaneRef := ⟨c.die, c.core, f.crew⟩
    ((⟨l, e.1, 0⟩ : BlockRef), (⟨l', e.2, s.genAt l' e.2⟩ : BlockRef))
  let m := fun (b : BlockRef) => ((map.find? fun e => e.1 == b).map (·.2)).getD b
  let (s, _) := p.byFid.foldl (fun (acc : State × Nat) f =>
    (blocksOf f.fid).foldl (fun (acc : State × Nat) k =>
      (acc.1.loadBlock ⟨c.die, c.core, f.crew⟩ k ((b.blocks.drop acc.2).take 256), acc.2 + 256)) acc) (s, 0)
  let at_ := locScratch c p.scrBase
  let s := (s.clearRange at_ p.scrSize).poke at_ b.scratch
  let s := (List.range (p.scrSize / 64)).foldl (fun (s : State) i => if bit (leNat b.bad) i then s.taint (at_ + 64 * i) 64 else s) s
  let s := s.moveHistory p.uid old c
  let p := (s.party? p.uid).getD p
  let now := s.clock.toNat
  let s := (s.relink p old c).onCore c fun k => { k with outrider := p.savedOl.getD k.outrider }
  let s : State := { s with flight := s.flight.map fun a => if a.uid == p.uid then rebindAccess m a else a }
  let fibre := fun (f : Fibre) => { f with blocks := blocksOf f.fid }
  let gang := fun (g : Gang) => { g with number := none, ready := now, boundary := true, level := false, entered := false, starting := false, slog := g.slog.map (rebindEntry m) }
  let bin := fun (b : Nat × Bin) => (b.1, { b.2 with expiry := b.2.expiry + now })
  let p' : Party := { p with core := c, slot := slot, suspended := true, returning := true, image := none, savedOl := none, links := [], saved := []
                             kept := [], fibres := p.fibres.map fibre, gangs := [], bins := p.bins.map bin }
  let p' := p'.loadFutures b.futures
  let held := p.gangs.filter fun g => g.number.isNone
  let order := (List.range 16).flatMap fun n => p.gangs.filter fun g => g.number == some n
  let s := s.setParty (((order ++ held).map gang).foldl (fun p g => p.addGang s.clock g) p')
  (p.saved.foldl (fun (s : State) r => s.reenter c { p'.source with pc := 0 } r) s).resumeIn p.uid

/-- Fresh names for a second party of one image. -/
def EngineReq.renamed (k : Nat) : EngineReq → EngineReq
  | .port c => .port { c with id := c.id + k, uid := c.uid + k }
  | .mill c => .mill { c with id := c.id + k, uid := c.uid + k }
  | .gang e u g i => .gang e (u + k) g i

/-- The party that an image is restored as: the one that was saved; or, once that is no longer off its core, another of its kind (16 R367: a valid
image is never refused). -/
def State.restoree (s : State) (x : SavedParty) : Party × State :=
  match s.parties.find? fun p => p.image == some x.crc && p.uid == x.party.uid with
  | some p => (p, s)
  | none =>
    let k := s.nextId
    let q := x.party
    let p : Party := { q with uid := q.uid + k, saved := q.saved.map (EngineReq.renamed k), kept := []
                              score := q.score.map fun e => { e with owner := e.owner + k }
                              savedOl := q.savedOl.map fun o => { o with uid := o.uid + k, post := o.post.map (· + k) } }
    (p, { s with nextId := k + k, parties := s.parties ++ [p], flight := s.flight ++ x.flight.map fun a => { a with id := a.id + k, uid := a.uid + k } })

/-- Place the members of a set one after the other, if each finds room; they are in a RESTORE until it completes. -/
def State.restoreAll (s : State) (v : DWord) (n : Nat) : Nat → List SavedParty → Option State
  | _, [] => some s
  | i, x :: xs =>
    let c := restoreTarget v n x.party
    if !s.roomFor x.party c then none else
    let (p, s) := s.restoree x
    let s := s.restoreParty p c (s.imageBytes p (pctlArea v + i * areaSize))
    (s.onParty p.uid fun p => { p with entering := some (pctlArea v) }).restoreAll v n (i + 1) xs

/-- The parties that a RESTORE in progress has placed. -/
def State.entered (s : State) (v : DWord) : List Party := s.parties.filter fun p => p.entering == some (pctlArea v)

/-- A RESTORE that has placed its set completes when every saved entry is in its queue (12 R266). -/
def State.restoreEnd (s : State) (v : DWord) : PartyEnd × State :=
  let placed := s.entered v
  if placed.any (·.returning) then (.wait, s)
  else (.done, (placed.foldl (fun (s : State) p => s.onParty p.uid fun p => { p with entering := none }) s).setPstat v .ok placed.length)

/-- RESTORE: the first turn places the set. -/
def State.restore (s : State) (v : DWord) : PartyEnd × State :=
  if !(s.entered v).isEmpty then s.restoreEnd v
  else if !s.areasOk (pctlArea v) 1 then (.done, s.setPstat v .badArea 0) else
  match s.imageSet (pctlArea v) with
  | none => (.done, s.setPstat v .badImg 0)
  | some xs =>
    if !s.areasOk (pctlArea v) xs.length then (.done, s.setPstat v .badArea xs.length)
    else match s.restoreAll v xs.length 0 xs with
      | none => (.done, s.setPstat v .noRoom xs.length)
      | some s => s.restoreEnd v

/-! ### END, ABORTX and the register -/

/-- Abort the running collectives of a party: ACAUSE SUPERVISOR (13 R291). -/
def State.abortParty (s : State) (p : Party) : State :=
  (s.core p.core).xfers.foldl (fun (s : State) x => if x.cmd.uid != p.uid then s else match s.collOf p.core x with
    | some e => s.abortColl p.core.die e 5
    | none => if x.held && x.isColl then s.setXfer p.core { x with abort := some (x.abort.getD 5) } else s) s

def State.partyOp (s : State) (v : DWord) (by_ : Option Nat) : PartyEnd × State :=
  let named := fun (go : Party → State) => match s.partyAt (pctlCore v) (pctlSlot v) with
    | none => (PartyEnd.done, s.setPstat v .noParty 0)
    | some p =>
      let set := s.suspendSet p
      if set.any fun q => by_ == some q.uid then (.done, s.setPstat v .self set.length)
      else if set.any fun q => q.gangs.any (·.level) then (.done, s.setPstat v .atS set.length)
      else (.done, (go p).setPstat v .ok set.length)
  match pctlOp v with
  | 1 => s.suspend v by_
  | 2 => s.restore v
  | 3 => named fun p => s.endParty p.uid .ended
  | 4 => named s.abortParty
  | _ => (.done, { s with sys := { s.sys with pctl := v &&& fieldMask pctlFields } })

/-- A party operation with no issuing party: what waits goes on later. -/
def State.partyEvent (s : State) (op : Nat) (v : DWord) (i : Instr) : Out :=
  if pctlOp v ≠ op then .next s
  else match s.partyOp v none with
    | (.done, s) => .next s
    | (.wait, s) => .next (s.later i)

def execPctlSuspend (v : DWord) (s : State) : Out := s.partyEvent 1 v (.pctlSuspend v)
def execPctlRestore (v : DWord) (s : State) : Out := s.partyEvent 2 v (.pctlRestore v)
def execPctlEnd (v : DWord) (s : State) : Out := s.partyEvent 3 v (.pctlEnd v)
def execPctlAbortx (v : DWord) (s : State) : Out := s.partyEvent 4 v (.pctlAbortx v)

/-! ### Contexts (16 R370) -/

def ctxctlOp (v : DWord) : Nat := fld v 63 62
def ctxctlRank (v : DWord) : Nat := fld v 22 6
def ctxctlCtx (v : DWord) : Nat := fld v 5 0

def State.setCtxstat (s : State) (v : DWord) (refused : Bool) : State :=
  { s with sys := { s.sys with ctxctl := v &&& fieldMask ctxctlFields, ctxstat := if refused then 1 else 0 } }

/-- A party that is placed on its core (16 R370). -/
def Party.resident (p : Party) : Bool := p.image.isNone && !p.retired

/-- RETIRE step 1: placed parties end with cause RETIRED; those whose commands are done leave at once, and so do those off their cores, of which nothing
is tracked. -/
def State.retireParties (s : State) (ctx : Nat) : State :=
  let mine := s.parties.filter fun p => p.ctx == ctx
  let s := (mine.filter Party.resident).foldl (fun (s : State) p => s.endParty p.uid .retired) s
  let s : State := { s with requests := s.requests.filter fun r => r.ctx != ctx }
  mine.foldl (fun (s : State) p => match s.party? p.uid with
    | none => s
    | some q =>
      if !q.resident || s.commandsDone { q with saved := [] } then
        { s.unlinkOf q.uid with parties := s.parties.filter fun r => r.uid != q.uid, flight := s.flight.filter fun a => a.uid != q.uid }
      else s) s

/-- Complete a live launch that RETIRE cancels: its record, whose held fault is refused, then its entry (12 R260). -/
def State.cancelLaunch (s : State) (l : Launch) : State :=
  let (_, s) := s.completionRecord l (if l.status ≠ 0 then l.status else 3)
  let held := s.tables.pending.any fun e => e.queues.contains (64, l.idx)
  let s := s.onTables fun t => { t with pending := t.pending.map fun e => { e with queues := e.queues.filter (· != (64, l.idx)) } }
  let s := if held then s.recordLost l XFault.noContext.code XFault.noContext.code else s
  { s with live := s.live.filter fun m => m.idx != l.idx }

/-- RETIRE steps 2 and 3: live launches are cancelled and held faults refused. -/
def State.retireLaunches (s : State) (ctx : Nat) : State :=
  let s := (s.live.filter fun l => l.ctx == ctx).foldl (fun (s : State) l => s.cancelLaunch l) s
  (s.tables.pending.filter fun e => e.ctx == ctx).foldl (fun (s : State) e => s.refuseEntry e XFault.noContext.code) s

/-- RETIRE steps 4 to 7; of a context that is not VALID they find little to do (log 41). -/
def State.retireContext (s : State) (ctx : Nat) : State :=
  let die := fun (d : Die) => { d with slots := d.slots.filter fun e => e.ctx != ctx, triggers := d.triggers.filter fun t => t.ctx != ctx }
  let mill := fun (m : Mill) => if m.owner == some ctx then { m with active := {}, shadow := {}, tiles := [], owner := none } else m
  let s : State := { s with dies := s.dies.map die, cores := s.cores.map fun k => (k.1, { k.2 with mill := mill k.2.mill })
                            flight := s.flight.filter fun a => !(a.uid == commandUid && a.ctx == ctx) }
  let c := s.ctxAny ctx
  s.onTables fun t => { t with
    contexts := sdel t.contexts ctx
    idle := sput t.idle ctx { c with cmap := [], ngrant := [], ngBusy := [], queues := [] }
    images := t.images.filter fun x => x.party.ctx != ctx
    mapped := t.mapped.filter fun m => m.ctx != ctx }

def State.contextOp (s : State) (v : DWord) : PartyEnd × State :=
  let ctx := ctxctlCtx v
  match ctxctlOp v with
  | 1 =>
    if (s.ctx? ctx).isSome then (.done, s.setCtxstat v true)
    else (.done, (s.onTables fun t => { t with contexts := sput t.contexts ctx { num := ctx, rank := ctxctlRank v }, idle := sdel t.idle ctx, raw := t.raw.filter fun e => !rawOfContext ctx e.1 }).setCtxstat v false)
  | 2 =>
    if ctx = s.sys.sctx then (.done, s.setCtxstat v true)
    else
      let s := ((s.retireParties ctx).retireLaunches ctx).retireParties ctx
      if s.parties.any fun p => p.ctx == ctx then (.wait, s) else (.done, (s.retireContext ctx).setCtxstat v false)
  | 3 => (.done, (s.setCtxAny { s.ctxAny ctx with rank := ctxctlRank v }).setCtxstat v false)
  | _ => (.done, { s with sys := { s.sys with ctxctl := v &&& fieldMask ctxctlFields } })

/-- What was refused at a Mill of another context is tried again where that context owns it no longer (07 R168). -/
def State.wakePosts (s : State) : State :=
  s.cores.foldl (fun (s : State) e => s.onCore ⟨e.1 / 64, e.1 % 64⟩ fun k =>
    let mine := (s.party? k.outrider.uid).any fun p => !k.mill.foreign p.ctx
    { k with
      barred := k.barred && k.waiting.any fun r => (match r with | .mill c => k.mill.foreign c.ctx | _ => false)
      outrider := if k.outrider.waiting && k.outrider.post.isNone && mine then { k.outrider with waiting := false } else k.outrider }) s

def State.contextEvent (s : State) (op : Nat) (v : DWord) (i : Instr) : Out :=
  if ctxctlOp v ≠ op then .next s
  else match s.contextOp v with
    | (.done, s) => .next (if op = 2 then s.wakePosts else s)
    | (.wait, s) => .next (s.later i)

def execCtxctlCreate (v : DWord) (s : State) : Out := s.contextEvent 1 v (.ctxctlCreate v)
def execCtxctlRetire (v : DWord) (s : State) : Out := s.contextEvent 2 v (.ctxctlRetire v)
def execCtxctlSetrank (v : DWord) (s : State) : Out := s.contextEvent 3 v (.ctxctlSetrank v)

end Sys2Proof.Machine
end

