-- ==== Sys2Proof/Machine/Spill.lean ====
section
/-!
DEFINITION. `mspill` and `mfill`: the Mill image in device memory (16 R368, R369).
-/

namespace Sys2Proof.Machine

/-! ### The image (16 R369) -/

/-- A code of FMT: 0x1F is none (07 R140). -/
def planeFmtCode (f : Option Ty) : Nat := (f.map Ty.code).getD 0x1F
def planeFmtOf (k : Nat) : Option Ty := if k = 0x1F then none else some (Ty.ofCode k)
def TileFmt.code : TileFmt → Nat
  | .none => 0 | .f32 => 1 | .i32 => 2 | .f64 => 3
def TileFmt.ofCode : Nat → TileFmt
  | 1 => .f32 | 2 => .i32 | 3 => .f64 | _ => .none

/-- One value made of equal fields: the listed ones of a table by `at_`, in `w` bits each. -/
def packFields (m : Sparse Nat) (w base n : Nat) : Nat := ((List.range n).map fun k => sget 0 m (base + k) % 2 ^ w * 2 ^ (w * k)).sum
def packBits (ps : List Nat) (n : Nat) : Nat := ((ps.filter fun k => decide (k < n)).map fun k => 2 ^ k).sum

def elemBits (f : Option Ty) : Nat := (f.map millBits).getD 8

/-- 32 KiB of plane data: column n at n × 256; then 2 KiB of scales and 8 KiB of poison. -/
def planeData (p : Plane) : List Byte :=
  (List.range 128).flatMap fun n => bytesOf 256 (packFields p.data (elemBits p.fmt) (n * 512) (2048 / elemBits p.fmt))
def planeScales (p : Plane) : List Byte := bytesOf 2048 (packFields p.scale 8 0 2048)
def planePoison (p : Plane) : List Byte := bytesOf 8192 (packBits p.poison 65536)

/-- The bytes of a tile, row by row. -/
def tileBytes (t : Tile) : List Byte :=
  match t.fmt with
  | .f64 => (List.range 128).flatMap (fun i => bytesOf 256 (packFields t.data 64 (i * 128) 32)) ++ List.replicate 32768 0
  | _ => (List.range 128).flatMap fun i => bytesOf 512 (packFields t.data 32 (i * 128) 128)

def millHeader (m : Mill) (ctx crc : Nat) : List Byte :=
  let tag := fun (p : Plane) => p.wgrp % 4096 * 32 + planeFmtCode p.fmt
  bytesOf 4 2 ++ bytesOf 4 ctx ++ bytesOf 8 m.active.wver.toNat ++ bytesOf 8 m.shadow.wver.toNat ++ bytesOf 4 (tag m.active) ++ bytesOf 4 (tag m.shadow) ++
  bytesOf 4 ((List.range 4).map fun t => (m.tile t).fmt.code * 4 ^ t).sum ++ bytesOf 4 crc ++ List.replicate (4096 - 40) 0

def millBody (m : Mill) : List Byte :=
  planeData m.active ++ planeScales m.active ++ planePoison m.active ++ planeData m.shadow ++ planeScales m.shadow ++ planePoison m.shadow ++
  (List.range 4).flatMap (fun t => tileBytes (m.tile t)) ++ (List.range 4).flatMap fun t => bytesOf 2048 (packBits (m.tile t).poison 16384)

/-- The length of an image: 352 KiB. -/
def millImageLen : Nat := 352 * 1024

def millImage (m : Mill) (ctx : Nat) : List Byte :=
  millHeader m ctx (crc32c (millHeader m ctx 0 ++ millBody m)).toNat ++ millBody m

/-! ### Reading an image -/

/-- The non-zero fields of a value. -/
def unpackFields (x w base n : Nat) (m : Sparse Nat) : Sparse Nat :=
  (List.range n).foldl (fun m k => sset 0 m (base + k) (x / 2 ^ (w * k) % 2 ^ w)) m
def unpackBits (x n : Nat) : List Nat := (List.range n).filter fun k => bit x k

def planeOf (bs : List Byte) (fmt wgrp : Nat) (wver : DWord) : Plane :=
  let f := planeFmtOf fmt
  let w := elemBits f
  { fmt := f, wgrp := wgrp, wver := wver
    data := (List.range 128).foldl (fun m n => unpackFields (leAt bs (n * 256) 256) w (n * 512) (2048 / w) m) []
    scale := unpackFields (leAt bs 32768 2048) 8 0 2048 [], poison := unpackBits (leAt bs 34816 8192) 65536 }

def tileOfBytes (bs poison : List Byte) (fmt : TileFmt) : Tile :=
  let row := fun (m : Sparse Nat) i => match fmt with
    | .f64 => unpackFields (leAt bs (i * 256) 256) 64 (i * 128) 32 m
    | _ => unpackFields (leAt bs (i * 512) 512) 32 (i * 128) 128 m
  { fmt := fmt, data := (List.range 128).foldl row [], poison := unpackBits (leNat poison) 16384 }

/-- The Mill an image holds, with its context; none where FORMAT or the CRC is bad. -/
def millOf (bs : List Byte) : Option (Nat × Plane × Plane × Sparse Tile) :=
  let crc := leAt bs 36 4
  if leAt bs 0 4 ≠ 2 ∨ crc ≠ (crc32c (bs.take 36 ++ bytesOf 4 0 ++ bs.drop 40)).toNat then none
  else
    let tag := fun off => leAt bs off 4
    let tile := fun t => tileOfBytes ((bs.drop (0x16000 + t * 0x10000)).take 65536) ((bs.drop (0x56000 + t * 0x800)).take 2048)
      (TileFmt.ofCode (leAt bs 32 4 / 4 ^ t % 4))
    some (leAt bs 4 4 % 64,
      planeOf ((bs.drop 0x1000).take 0xA800) (tag 24 % 32) (tag 24 / 32 % 4096) (w64 (leAt bs 8 8)),
      planeOf ((bs.drop 0xB800).take 0xA800) (tag 28 % 32) (tag 28 / 32 % 4096) (w64 (leAt bs 16 8)),
      (List.range 4).foldl (fun m t => sset {} m t (tile t)) [])

/-! ### The instructions (16 R368) -/

/-- An address of an image is 4 KiB-aligned, in one stack and outside every reuse arena. -/
def State.millAddrOk (s : State) (a : Nat) : Bool :=
  decide (a % 4096 = 0 ∧ a + millImageLen ≤ devTop ∧ a / 2 ^ 36 = (a + millImageLen - 1) / 2 ^ 36) && !s.inArena a millImageLen

/-- A gang has given a Mill up, or given it to another context: what was refused there is tried again when the gang returns (07 R168). -/
def State.gaveUp (s : State) (uid gid : Nat) : State := s.onGang uid gid fun g => { g with freed := true }

/-- The bytes of a Mill's image, read on the Mill's own path after what the Mill has written (07 R146, 16 R368), and after what the issuing gang knows. -/
def State.readImage (s : State) (c : CoreRef) (v : View) (addr : Nat) : List Byte × State :=
  s.readRange (View.join (s.core c).mill.view v) (wordUnits addr millImageLen)

/-- What the issuing gang's fibres know. -/
def Turn.view (t : Turn) : View := t.p.viewOf t.ms

/-- A privileged instruction of a gang (02 R40): at level U it raises PRIV. -/
def State.privIssue (s : State) (i : Instr) (go : Turn → Out) : Out :=
  match s.turnOf with
  | none => .refused .noIssuer
  | some t => if t.g.level then s.issue i go else .next (s.encodingTrap t.uid t.gid .priv i.raw)

/-- A status word goes to D as an outstanding result. -/
def State.giveWord (s : State) (i : Instr) (t : Turn) (d : Opnd) (w : Word) : State :=
  let (insn, s) := s.fresh
  let dest := ((supplier t.ms).map fun f => s.destOf t.p f d 1).getD []
  (s.owe t i insn none dest [w]).advance t.uid t.gid i.raw

def execMspill (h : Head) (d a : Opnd) (s : State) : Out :=
  let i := Instr.mspill h d a
  s.privIssue i fun t =>
    let c := t.p.core
    let m := (s.core c).mill
    let addr := (uniform64 s t (.op a)).toNat
    let free := s.onMill c fun m => { m with spilling := none }
    if !s.millAddrOk addr then .next (free.giveWord i t d 3)
    else if m.link.isSome then .next (free.giveWord i t d 2)
    else if !m.queue.isEmpty || m.loading.isSome || m.streaming.isSome then
      .next ((s.onMill c fun m => { m with spilling := some t.uid }).holdAgain t.uid t.gid)
    else
      let s := free
      match m.owner with
      | none => .next (s.giveWord i t d 1)
      | some o =>
        let s := s.write { cls := .mill, uid := t.uid, core := c } [] [] none addr (millImage m o)
        let wrote : View := [⟨addr, millImageLen, s.stamp⟩]
        let s := s.onMill c fun m => { m with active := {}, shadow := {}, tiles := [], owner := none, view := View.join m.view wrote }
        let s := s.onMembers t.uid t.gid fun f => { f with millSeen := View.join f.millSeen wrote }
        .next ((s.gaveUp t.uid t.gid).giveWord i t d 0)

def execMfill (h : Head) (d a : Opnd) (s : State) : Out :=
  let i := Instr.mfill h d a
  s.privIssue i fun t =>
    let c := t.p.core
    let m := (s.core c).mill
    let addr := (uniform64 s t (.op a)).toNat
    if !s.millAddrOk addr then .next (s.giveWord i t d 3)
    else if m.link.isSome then .next (s.giveWord i t d 2)
    else if m.owner.isSome then .next (s.giveWord i t d 4)
    else
      let (bs, s) := s.readImage c (View.join t.view (t.seen (·.millSeen))) addr
      match (if s.poisonIn addr millImageLen then none else millOf bs) with
      | none => .next (s.giveWord i t d 5)
      | some (ctx, act, sh, tiles) =>
        let s := s.onMill c fun m => { m with active := act, shadow := sh, tiles := tiles, owner := some ctx }
        .next ((s.gaveUp t.uid t.gid).giveWord i t d 0)

end Sys2Proof.Machine
end

