-- ==== Sys2Proof/Machine/System.lean ====
section
/-!
DEFINITION. Group 0xE but for the Mill's image: `trap`, `sysrd`, `syswr` and the system registers, `segwr`, `rngwr`, `tcinv` (14 R308, R313, 16 R356
to R361).
-/

namespace Sys2Proof.Machine

/-! ### `trap` (16 R357) -/

def execTrap (h : Head) (code : Nat) (s : State) : Out :=
  let i := Instr.trap h code
  s.issue i fun t => .next (s.faultAt t.uid t.gid (nextPc t.pc i.raw) (issueLog i.raw t.pc 0x13 code 0 0 .none t.g.logged))

/-! ### System registers as read (16 R360) -/

def LogEntry.word (e : LogEntry) : Nat → DWord
  | 0 => w64 (put 1 63 + put (b2n e.replay) 62 + put e.cls 40 + put e.sub 32 + e.pc.toNat)
  | 1 => e.addr
  | _ => e.fmask.zeroExtend 64

def Gang.sstat (g : Gang) : DWord := w64 (b2n g.sprev * 8 + g.slog.length)

/-- Logical core map entry (16 R360). -/
def State.coreMapWord (s : State) (die core : Nat) : DWord :=
  let d := s.die die
  w64 (put (b2n (d.avail.getD (companyOf core) false)) 8 + d.coreMap.getD core 0)

/-- What PMC(i) reads as (15 R348). -/
def State.pmcRead (s : State) (c : CoreRef) (i : Nat) : DWord := (sget {} (s.core c).pmcs i).count.zeroExtend 64

/-- Registers of the gang, and of its core. -/
def State.sysGang (s : State) (t : Turn) (n : Nat) : Option DWord :=
  match n with
  | 0x0000 => some t.g.sstat
  | 0x0001 => some (t.g.sepc.zeroExtend 64)
  | 0x0030 => some (match (s.core t.p.core).mill.owner with
    | some o => w64 (64 + o)
    | none => 0)
  | n =>
    if 0x0004 ≤ n ∧ n ≤ 0x0007 then some (t.g.ssave.getD (n - 4) 0)
    else if 0x0040 ≤ n ∧ n < 0x0050 then some (if (n - 0x40) % 4 = 3 then 0 else ((t.g.slog[(n - 0x40) / 4]?).map fun e => e.word ((n - 0x40) % 4)).getD 0)
    else none

/-- Registers of the device. -/
def State.sysDevice (s : State) (n : Nat) : Option DWord :=
  let r := s.sys
  match n with
  | 0x0010 => some r.scode
  | 0x0011 => some (r.sentry.zeroExtend 64)
  | 0x0012 => some (w64 r.sctx)
  | 0x0013 => some (w64 r.rdeadline)
  | 0x0018 => some r.eqbase
  | 0x0019 => some (r.eqhead)
  | 0x001A => some (r.eqtail.zeroExtend 64)
  | 0x001B => some r.eqwake
  | 0x0020 => some r.pctl
  | 0x0021 => some r.pstat
  | 0x0028 => some r.ctxctl
  | 0x0029 => some r.ctxstat
  | 0x0200 => some r.tacc
  | 0x0208 => some r.fqbase
  | 0x0209 => some (r.fqhead.zeroExtend 64)
  | 0x020A => some (r.fqtail.zeroExtend 64)
  | 0x020B => some r.freply
  | 0x020C => some (w64 r.fhold)
  | 0x0300 => some r.cmacc
  | 0x0302 => some r.vwin
  | 0x0304 => some r.vsel
  | 0x0305 => some s.vselValue
  | 0x0608 => some r.hbmask
  | n => if 0x0201 ≤ n ∧ n ≤ 0x0204 then some (r.tdat.getD (n - 0x0201) 0) else none

/-- Registers by die, context, queue or counter. -/
def State.sysIndexed (s : State) (t : Turn) (n : Nat) : Option DWord :=
  if 0x0050 ≤ n ∧ n < 0x0054 then some (s.nearcarveWord (n - 0x50))
  else if 0x0054 ≤ n ∧ n < 0x0058 then some (s.arenaWord (n - 0x54))
  else if 0x0100 ≤ n ∧ n < 0x0200 then some (s.coreMapWord ((n - 0x100) / 64) ((n - 0x100) % 64))
  else if 0x0310 ≤ n ∧ n ≤ 0x0315 then some (w64 (sget 0 (s.die t.p.core.die).errs (n - 0x310)))
  else if 0x0318 ≤ n ∧ n ≤ 0x031D then some (w64 (sget 0 s.tables.links n))
  else if 0x0400 ≤ n ∧ n < 0x0408 then some ((sget {} (s.core t.p.core).pmcs (n - 0x400)).sel.zeroExtend 64)
  else if 0x0800 ≤ n ∧ n < 0x0900 then some (s.ngrantWord ((n - 0x800) / 4) ((n - 0x800) % 4))
  else if 0x1000 ≤ n ∧ n < 0x2000 then some (((s.ctxAny ((n - 0x1000) / 64)).queueAt ((n - 0x1000) / 4 % 16)).word ((n - 0x1000) % 4))
  else none

/-- A system register at level S; an unassigned number reads 0. -/
def State.sysRead (s : State) (t : Turn) (n : Nat) : DWord :=
  if 0x0408 ≤ n ∧ n ≤ 0x040F then s.pmcRead t.p.core (n - 0x408)
  else (((s.sysGang t n).orElse fun _ => s.sysDevice n).orElse fun _ => s.sysIndexed t n).getD 0

/-- The device's own writes: records of its rings. -/
def State.recordView (s : State) : View := (s.past.filter fun w => w.src == deviceIssuer).map Past.fact

/-- A read of FQTAIL or EQTAIL acquires the records it counts (14 R324, 16 R361). -/
def State.acquireRecords (s : State) (t : Turn) (n : Nat) : State :=
  if n = 0x001A ∨ n = 0x020A then
    let v := s.recordView
    t.ms.foldl (fun (s : State) f => s.onFibre t.uid f.fid fun f => f.know v) s
  else s

/-- `sysrd` (16 R357, 15 R348). -/
def execSysrd (h : Head) (d : Opnd) (a : Src) (s : State) : Out :=
  let i := Instr.sysrd h d a
  s.issue i fun t =>
    let n := uniform32 s t a
    let own := (sget {} (s.core t.p.core).pmcs (n - 0x408))
    let mayU := decide (0x0408 ≤ n ∧ n ≤ 0x040F) && own.sel.getLsbD 14 && own.ctx == t.p.ctx
    if !t.g.level && !mayU then .next (s.encodingTrap t.uid t.gid .priv i.raw)
    else
      let x := s.sysRead t n
      let s1 := s.acquireRecords t n
      let (insn, s1) := s1.fresh
      let dest := ((supplier t.ms).map fun f => s1.destOf t.p f d 2).getD []
      .next ((s1.owe t i insn none dest [x.setWidth 32, (x >>> 32).setWidth 32]).advance t.uid t.gid i.raw)

/-! ### `syswr` (16 R357) -/

/-- A write to a register of the gang. -/
def Gang.sysWrite (g : Gang) (n : Nat) (v : DWord) : Gang :=
  match n with
  | 0x0000 => { g with sprev := v.getLsbD 3 }
  | 0x0001 => { g with sepc := v.setWidth 32 &&& 0xFFFFFFFC }
  | n =>
    if 0x0004 ≤ n ∧ n ≤ 0x0007 then { g with ssave := g.ssave.set (n - 4) v }
    else if 0x0040 ≤ n ∧ n < 0x0050 ∧ (n - 0x40) % 4 = 0 then { g with slog := g.slog.modify ((n - 0x40) / 4) fun e => { e with replay := v.getLsbD 62 } }
    else g

/-- A write to a performance counter or its selector (15 R348). -/
def Core.pmcWrite (k : Core) (ctx n : Nat) (v : DWord) : Core :=
  if n < 0x0408 then
    let i := n - 0x400
    { k with pmcs := sset {} k.pmcs i { sget {} k.pmcs i with sel := v.setWidth 16 &&& 0xC0FF, ctx := ctx } }
  else
    let i := n - 0x408
    { k with pmcs := sset {} k.pmcs i { sget {} k.pmcs i with count := v.setWidth 48 } }

def State.onSys (s : State) (f : SysRegs → SysRegs) : State := { s with sys := f s.sys }

/-- The fields of the ring bases, of EQWAKE and of VSEL (14 R304, 15 R344, 16 R361). -/
def ringFields : List (Nat × Nat) := [(63, 58), (38, 0)]
def wakeFields : List (Nat × Nat) := [(63, 63), (11, 0)]
def vselFields : List (Nat × Nat) := [(61, 56), (11, 0)]

/-- A write to a plain register of the device; reserved fields stay zero (00 R7). -/
def SysRegs.write (r : SysRegs) (n : Nat) (v : DWord) : SysRegs :=
  match n with
  | 0x0010 => { r with scode := v }
  | 0x0011 => { r with sentry := v.setWidth 32 &&& 0xFFFFFFFC }
  | 0x0012 => { r with sctx := fld v 5 0 }
  | 0x0013 => { r with rdeadline := fld v 23 0 }
  | 0x0018 => { r with eqbase := v &&& fieldMask ringFields }
  | 0x0019 => { r with eqhead := v }
  | 0x001B => { r with eqwake := v &&& fieldMask wakeFields }
  | 0x0208 => { r with fqbase := v &&& fieldMask ringFields }
  | 0x0209 => { r with fqhead := v.setWidth 32 }
  | 0x020C => { r with fhold := fld v 31 0 }
  | 0x0304 => { r with vsel := v &&& fieldMask vselFields }
  | 0x0608 => { r with hbmask := v }
  | n => if 0x0201 ≤ n ∧ n ≤ 0x0204 then { r with tdat := r.tdat.set (n - 0x0201) v } else r

/-- Registers whose write starts an operation that follows the fibres' earlier accesses (14 R305, R325). -/
def State.sysOrdered (s : State) (t : Turn) (n : Nat) (v : DWord) : PartyEnd × State :=
  if s.openAccess t.uid t.g then (.wait, s)
  else if n = 0x020B then (.done, s.freply v t.view)
  else if s.regionOpen v then (.wait, s)
  else (.done, s.tableAccess v)

/-- A write to a system register, with that register's own rules; an unassigned number is ignored. -/
def State.sysWrite (s : State) (t : Turn) (n : Nat) (v : DWord) : PartyEnd × State :=
  match n with
  | 0x0020 => s.partyOp v (some t.uid)
  | 0x0028 =>
    let r := s.contextOp v
    (r.1, if ctxctlOp v = 2 && r.1 == .done then r.2.gaveUp t.uid t.gid else r.2)
  | 0x0200 | 0x020B => s.sysOrdered t n v
  | 0x0300 => (.done, s.counterMap v)
  | 0x0302 => (.done, s.setVwin v)
  | n => (.done,
    if n < 0x0010 ∨ (0x0040 ≤ n ∧ n < 0x0050) then s.onGang t.uid t.gid fun g => g.sysWrite n v
    else if 0x0050 ≤ n ∧ n < 0x0054 then s.setNearcarve (n - 0x50) v
    else if 0x0054 ≤ n ∧ n < 0x0058 then s.setArena (n - 0x54) v
    else if 0x0310 ≤ n ∧ n ≤ 0x031D then s.clearError t.p.core.die n v
    else if 0x0400 ≤ n ∧ n < 0x0410 then s.onCore t.p.core fun k => k.pmcWrite t.p.ctx n v
    else if 0x0800 ≤ n ∧ n < 0x0900 then s.setNgrant ((n - 0x800) / 4) ((n - 0x800) % 4) v
    else if 0x1000 ≤ n ∧ n < 0x2000 then s.setQueueWord ((n - 0x1000) / 64) ((n - 0x1000) / 4 % 16) ((n - 0x1000) % 4) v
    else ((s.onSys fun r => r.write n v).drainEvents).drainFaults)

/-- `syswr`: it completes when the register's operation has completed. -/
def execSyswr (h : Head) (a : Src) (b : Opnd) (s : State) : Out :=
  let i := Instr.syswr h a b
  s.privIssue i fun t =>
    match s.sysWrite t (uniform32 s t a) (uniform64 s t (.op b)) with
    | (.done, s) => .next (s.advance t.uid t.gid i.raw)
    | (.wait, s) => .next (s.holdAgain t.uid t.gid)

/-! ### `segwr` (16 R359) -/

/-- The place of a space among the segment registers. -/
def segIndex : Space → Option Nat
  | .s => some 0 | .c => some 1 | .n => some 2 | .g => some 3 | .k => some 4 | .f => some 5 | .rsv _ => none

/-- BADARG of `segwr`. -/
def State.segBad (s : State) (p : Party) (sp : Space) (a b : DWord) : Bool :=
  match sp with
  | .s | .c => decide (2 ^ 20 < a.toNat + b.toNat ∨ a.toNat % 1024 ≠ 0)
  | .n =>
    let g := ((s.ctx? p.ctx).bind fun c => sfind c.ngrant p.core.die).getD (0, 0)
    !decide (g.1 * unitGrant ≤ a.toNat ∧ a.toNat + b.toNat ≤ (g.1 + g.2) * unitGrant)
  | .k | .f => decide (fld a 63 46 ≠ 0)
  | _ => false

def execSegwr (h : Head) (d a b : Opnd) (sp : Space) (s : State) : Out :=
  let i := Instr.segwr h d a b sp
  s.privIssue i fun t =>
    let x := uniform64 s t (.op a)
    let y := uniform64 s t (.op b)
    match segIndex sp with
    | none => .next (s.giveWord i t d 1)
    | some k =>
      if s.segBad t.p sp x y then .next (s.giveWord i t d 1)
      else .next ((s.onParty t.uid fun p => { p with segBase := p.segBase.set k x, segLim := p.segLim.set k y }).giveWord i t d 0)

/-! ### `rngwr` (14 R308) -/

/-- Write a range register from a window: the status. -/
def State.writeRange (s : State) (idx ctx a : Nat) : Nat × State :=
  let c := s.ctxAny ctx
  match (if a ≤ 255 then sfind s.tables.windows a else none) with
  | none => (1, s)
  | some w =>
    if w.ctx ≠ ctx then (1, s)
    else if c.ranges.any fun e => e.1 != idx && e.2.copy.region == w.region && rangesMeet e.2.copy.va e.2.copy.size w.va w.size then (2, s)
    else (0, s.setCtxAny { c with ranges := sput c.ranges idx { win := a, copy := w } })

def execRngwr (h : Head) (d a : Opnd) (idx ctx : Nat) (s : State) : Out :=
  let i := Instr.rngwr h d a idx ctx
  s.privIssue i fun t =>
    let (k, s) := s.writeRange idx ctx (uniform32 s t (.op a))
    .next (s.giveWord i t d (w32 k))

def execRngwrClr (h : Head) (d : Opnd) (idx ctx : Nat) (s : State) : Out :=
  let i := Instr.rngwrClr h d idx ctx
  s.privIssue i fun t =>
    let c := s.ctxAny ctx
    .next ((s.setCtxAny { c with ranges := sdel c.ranges idx }).giveWord i t d 0)

/-! ### `tcinv` (14 R313) -/

/-- Drop the translations of some pages: of one region from `lo` to `hi`, or of every region (none). -/
structure PageSet where
  region : Option Nat
  lo     : Nat
  hi     : Nat
  deriving DecidableEq, Repr

def PageSet.holds (x : PageSet) (region page : Nat) : Bool := x.region.all (· == region) && decide (x.lo < (page + 1) * 65536 ∧ page * 65536 < x.hi)

def PageSet.regions (x : PageSet) : List Nat := match x.region with
  | some r => [r]
  | none => List.range 64

/-- The pages of a region that `n` bytes from an offset touch. -/
def State.pageRange (s : State) (ctx region off n : Nat) : PageSet :=
  let size := 2 ^ (((sfind (s.ctxAny ctx).regions region).map Region.pageBits).getD 16)
  let lo := off / size * size
  ⟨some region, lo, if n = 0 then lo else min (2 ^ 40) (ceilDiv (off + n) size * size)⟩

/-- Directory entries of pages homed here that still have holders. -/
def State.sharersIn (s : State) (ctx : Nat) (x : PageSet) : List Sharer :=
  s.tables.sharers.filter fun h => h.ctx == ctx && x.holds h.region h.page

/-- Invalidate: it waits for the fibres' accesses, for revoked holders and for accesses translated before. -/
def State.invalidate (s : State) (t : Turn) (ctx : Nat) (x : PageSet) : PartyEnd × State :=
  if s.openAccess t.uid t.g then (.wait, s)
  else
    let s := x.regions.foldl (fun (s : State) r => s.cutWalks ctx r x.lo x.hi) s
    let s := s.onTables fun u => { u with
      lines := u.lines.filter fun k => !(k.ctx == ctx && x.holds k.ownReg k.ownPage)
      pages := u.pages.filter fun e => !(e.2.ctx == ctx && x.holds e.2.region e.2.page) }
    let shared := s.sharersIn ctx x
    if !shared.isEmpty then (.wait, shared.foldl (fun (s : State) h => (s.recall ctx h.region h.page true none).2) s)
    else if x.regions.any fun r => s.translatedOpen ctx r x.lo x.hi then (.wait, s)
    else (.done, s)

def State.tcinvForm (s : State) (i : Instr) (d : Opnd) (ctx : Nat) (pages : Turn → Option PageSet) : Out :=
  s.privIssue i fun t =>
    match pages t with
    | none => if s.openAccess t.uid t.g then .next (s.holdAgain t.uid t.gid) else .next (s.giveWord i t d 5)
    | some x => match s.invalidate t ctx x with
      | (.wait, s) => .next (s.holdAgain t.uid t.gid)
      | (.done, s) => .next (s.giveWord i t d 0)

def execTcinvRange (h : Head) (d a b : Opnd) (ctx : Nat) (s : State) : Out :=
  s.tcinvForm (.tcinvRange h d a b ctx) d ctx fun t =>
    let x := uniform64 s t (.op a)
    if fld x 63 46 ≠ 0 then none else some (s.pageRange ctx (fld x 45 40) (fld x 39 0) (65536 * uniform32 s t (.op b)))

def execTcinvRegion (h : Head) (d a : Opnd) (ctx : Nat) (s : State) : Out :=
  s.tcinvForm (.tcinvRegion h d a ctx) d ctx fun t =>
    let x := uniform64 s t (.op a)
    if fld x 63 46 ≠ 0 then none else some ⟨some (fld x 45 40), 0, 2 ^ 40⟩

def execTcinvCtx (h : Head) (d : Opnd) (ctx : Nat) (s : State) : Out :=
  s.tcinvForm (.tcinvCtx h d ctx) d ctx fun _ => some ⟨none, 0, 2 ^ 40⟩

def execTcinvRank (h : Head) (d : Opnd) (ctx : Nat) (s : State) : Out :=
  let i := Instr.tcinvRank h d ctx
  s.privIssue i fun t =>
    if s.openAccess t.uid t.g then .next (s.holdAgain t.uid t.gid)
    else .next ((s.onTables fun u => { u with rankCut := sset 0 u.rankCut ctx s.stamp }).giveWord i t d 0)

end Sys2Proof.Machine
end

