-- ==== Sys2Proof/Machine/Return.lean ====
section
/-!
DEFINITION. `eret` (16 R355, R357, 02 R42): what each entry of the operand log re-performs, and the return to the level before; and the
decode checks that no instruction passes (02 R41).
-/

namespace Sys2Proof.Machine

/-- A replay (16 R355): performed; faulted again; it must wait until the device has changed; it waits among the requests for an engine's queue; or
performed but for a wait that an event ends. -/
inductive Replay
  | done (s : State)
  | again (s : State) (e : LogEntry)
  | wait
  | queued (s : State)
  | held (s : State)
  deriving DecidableEq, Repr

/-- What an instruction that is performed again comes to: its fault stands at its own address. -/
def Issued.replay (r : Issued) (s : State) (e : LogEntry) : Replay :=
  match r with
  | .fault e' s' => .again s' { e' with pc := e.pc }
  | .pending => .again s e
  | .wait => .wait
  | .go s' => .done s'

/-- How many bytes an access names. -/
def Access.size (a : Access) : Nat :=
  match a.op with
  | .load t n => t.width / 8 * n
  | .store d => d.length
  | .atom _ t _ | .cas t _ _ => t.width / 8
  | .cnt _ _ _ => 8
  | .seal _ => 64
  | .copy _ _ => 256
  | .value _ | .later _ => 0

/-- An access checks as an aligned one. -/
def Access.strict (a : Access) : Bool :=
  a.ord != .relaxed || (match a.op with | .atom _ _ _ | .cas _ _ _ => true | _ => false)

/-- The fibre that an access of the log is checked for: the fibres of an entry have not ended, their gang has been at level S. -/
def Turn.fibreOf (t : Turn) (a : Access) : Option Fibre :=
  match a.fid with
  | some f => t.p.fibre? f
  | none => supplier t.ms

/-- Check an access of the log again (10 R212): the first check that fails, or 0, with its parts. -/
def State.recheck (s : State) (t : Turn) (a : Access) (f : Fibre) : Nat × List Part × State :=
  match a.op with
  | .seal dst =>
    let (k, ps, s) := s.checkMem t.p f t.g.level a.sp a.addr.toInt 64 false false
    if k ≠ 0 then (k, ps, s)
    else
      let (k, qs, s) := s.checkMem t.p f t.g.level .s dst 64 true false
      (k, ps ++ qs, s)
  | .copy _ _ => s.checkPacket t.p f t.g.level (cutAt64K a.addr.toInt 256)
  | _ => s.checkMem t.p f t.g.level a.sp a.addr.toInt a.size a.stores a.strict

/-- The accesses of an entry, checked again. They keep the name of their instruction: later ones of the gang that were set aside stay ordered behind them
(10 R222); what the gang accessed before the fault they follow (16 R355). -/
def State.renew (s : State) (t : Turn) : List Access → List (Nat × Access) × State
  | [] => ([], s)
  | a :: as =>
    match t.fibreOf a with
    | none => s.renew t as
    | some f =>
      let (k, ps, s) := s.recheck t a f
      let (id, s) := s.fresh
      let b := { a with id := id, uid := t.uid, gid := t.gid, lvl := t.g.level, ctx := s.accessCtx t.p t.g.level a.sp, parts := ps
                        fibs := if a.fid.isNone then t.g.fibres else [f.fid], heard := [], early := [], stage := .ready }
      let (bs, s) := s.renew t as
      ((k, b) :: bs, s)

/-- The entry of a replay that fails a check again. -/
def LogEntry.refault (e : LogEntry) (t : Turn) (k : Nat) (as : List (Nat × Access)) : LogEntry :=
  { e with cls := checkClass k, sub := 0, replay := replayable (checkClass k)
           addr := ((as.find? fun a => a.1 == k).map (·.2.addr)).getD 0
           fmask := if as.any (fun a => a.2.fid.isNone) then 0 else maskOf (as.filterMap fun a => a.2.fid.map t.g.slotOf)
           redo := .access (as.map (·.2)) }

/-- Replay loads, stores, atomics and `lseal`. -/
def State.replayAccess (s : State) (t : Turn) (e : LogEntry) (as : List Access) : Replay :=
  let (cas, s1) := s.renew t as
  let ord := ((as.head?).map (·.ord)).getD .relaxed
  let bs := cas.map (·.2)
  let fs := (bs.filterMap t.fibreOf)
  if worstCheck cas ≠ 0 then .again s1 (e.refault t (worstCheck cas) cas)
  else match s1.memWait t bs ord with
    | .fault => .again s e
    | .wait => .wait
    | .go =>
      let s1 := if ordSequential ord then s1.scFences t (((as.head?).map (·.scope)).getD .dev) fs else s1
      let s1 := if decide (e.cls < 0x0D) && bs.any (·.stores) then s1.useRel t.uid fs else s1
      .done (s1.depart t.uid t.g.crew bs)

/-- Replay `launch` from its logged operands (12 R252): the gang waits again for its request to be granted. -/
def State.replayLaunch (s : State) (t : Turn) (i : Instr) (dest : List DestReg) (x : DWord) (q : Nat) : Replay :=
  let (insn, s1) := s.fresh
  if !s.launchable t.p.ctx q then .done (s1.owe t i insn none dest [2])
  else .held ((s.launchGo t i x q dest).onGang t.uid t.gid fun g => { g with redoWait := true })

/-- The registers a replayed tile row goes to: those of the instruction, in the blocks of the generations its log holds, so that a row for a block
released since is discarded (03 R58, 16 R355). -/
def LogEntry.rows (e : LogEntry) (dest : Fibre → List DestReg) (f : Fibre) : List DestReg :=
  match e.fibres.find? fun l => l.fid == f.fid with
  | none => dest f
  | some l => (dest f).zipIdx.map fun x => match x.1, l.gens[x.2]? with
    | .v _ r crew, some b => .v b r crew
    | d, _ => d

/-- A replayed engine command asks for an entry of its queue as when it was first issued, and waits among the other requests (12 R263). -/
def State.replayQueue (s : State) (t : Turn) (c : Engine) (i : Instr) (granted : Bool) (go : State → Replay) : Replay :=
  let line := Contest.engine t.p.core c
  let place := requestPlace t.g.effective t.g.crew
  let s1 := s.serve line place
  if granted then go s
  else if s.overtaken line place then .wait
  else if !s.queueRoom t.p.core c || s.engineWaits t.p.core c t.uid then .queued (s1.awaitEntry t.p.core c t.uid t.gid i)
  else go s1

/-- Replay a Mill form (07 R143, R160, R168). -/
def State.replayMill (s : State) (t : Turn) (e : LogEntry) (i : Instr) (f : MillForm) (granted : Bool) : Replay :=
  let m := (s.core t.p.core).mill
  let fault := fun cls sub => Replay.again s { s.millLog i t f cls sub with pc := e.pc }
  if blockCheck t.p f ≠ 0 then fault (blockCheck t.p f) 0
  else if m.foreign t.p.ctx && !m.isMember then fault 0x0D (m.owner.getD 0)
  else if m.foreign t.p.ctx then .wait
  else s.replayQueue t .mill i granted fun s =>
    if f.res == .handle && t.p.freeFuture.isNone then .wait
    else .done (s.millAccept i t f (e.rows fun h => s.destOf t.p h f.d 4))

/-- Replay a Porter form (13 R274). -/
def State.replayPort (s : State) (t : Turn) (e : LogEntry) (i : Instr) (f : PortForm) (granted : Bool) : Replay :=
  let cs := s.claims t.p f.a2av f.off
  let fault := fun cls => Replay.again s { t.faultLog i cls [w64 f.off] (w64 f.off) with pc := e.pc }
  if t.g.crew ≠ t.p.producer then fault 0x0C
  else if offsetCheck t.p f.off 64 ≠ 0 then fault (offsetCheck t.p f.off 64)
  else if s.recordsOwed t.p t.g.crew f.a2av f.off then .wait
  else s.replayQueue t .porter i granted fun s =>
    if (!f.nh && t.p.freeFuture.isNone) || decide (t.p.freeScore.length < cs.length) ||
      (!cs.isEmpty && t.p.scoreBefore t.gid s.nextId) || (t.p.stream (t.g.number.getD 0)).full then .wait
    else .done (s.portAccept i t f cs)

/-- Replay `cntwait` (15 R339): the gang waits again, at its `eret`. -/
def State.replayCntwait (s : State) (t : Turn) (e : LogEntry) (i : Instr) (d : Opnd) (ord : Ord) (scope : Scope) (tmo ref : Nat) (v : DWord) : Replay :=
  if (s.itemsOf t.uid t.g).any fun b => b.open_ && b.reads then .wait
  else
    let s := s.onGang t.uid t.gid fun g => { g with redoWait := true }
    match s.cntwaitTry t i { t.g with redoWait := true } d ord scope tmo ref v with
    | .go s' => .held s'
    | r => r.replay s e

/-- Replay an instruction that was refused at issue, from its logged operands. -/
def State.replayIssue (s : State) (t : Turn) (e : LogEntry) (i : Instr) (srcs : List DWord) (granted : Bool) : Replay :=
  let a := (srcs.getD 0 0)
  let v := (srcs.getD 1 0)
  let w := (srcs.getD 2 0).toNat
  let dest := fun (d : Opnd) (n : Nat) => ((supplier t.ms).map fun f => s.destOf t.p f d n).getD []
  let cnt := fun (d : Opnd) (cop : Nat) (nr : Bool) (ord : Ord) (scope : Scope) =>
    (s.cntTry t i (if nr then [] else dest d 2) cop ord scope a.toNat v).replay s e
  let trig := fun (d : Opnd) (kind : Nat) (urg : Bool) (scope : Scope) (amount : Word) =>
    (s.trigTry t i d kind urg scope amount a.toNat v w).replay s e
  match i with
  | .cntRd _ d _ ord scope => cnt d 0 false ord scope
  | .cntAdd _ d _ _ nr ord scope => cnt d 1 nr ord scope
  | .cntSet _ d _ _ nr ord scope => cnt d 2 nr ord scope
  | .cntwait _ d _ _ ord scope tmo => s.replayCntwait t e i d ord scope tmo a.toNat v
  | .trigTcopy _ d _ _ _ urg scope => trig d 0 urg scope 0
  | .trigA2av _ d _ _ _ urg scope => trig d 1 urg scope 0
  | .trigAdd _ d _ _ _ scope amount => trig d 2 false scope amount
  | .launch _ d _ _ => s.replayLaunch t i (dest d 1) a v.toNat
  | .lseal _ d _ _ k => match supplier t.ms with
    | some f => (s.lsealTry t i f d k a.toNat v.toNat).replay s e
    | none => .done s
  | .bseal _ d _ record => (s.bsealTry t i d record a.toNat).replay s e
  | .bwait _ _ => (s.bwaitTry t i a.toNat).replay s e
  | .cflush _ _ _ _ | .cinval _ _ _ _ => (s.cacheTry t i a v.toNat).replay s e
  | .fetchw _ _ => (s.fetchwTry t i a.toNat).replay s e
  | i => match millFormOf i a.toNat with
    | some f => s.replayMill t e i f granted
    | none => match portFormOf i a.toNat with
      | some f => s.replayPort t e i f granted
      | none => .done s

/-- Faults that the same instruction meets again whatever the supervisor did: its bits or its logged operands alone raise them. -/
def sameAgain (cls : Nat) : Bool := cls == 0x01 || cls == 0x02 || cls == 0x03 || cls == 0x04 || cls == 0x13

/-- Replay one entry. What has no operands in the log is an instruction that never issued: the gang meets it again at SEPC, or it faults
again (log 32). An access that missed its deadline is never performed again (10 R223). -/
def State.replayEntry (s : State) (t : Turn) (e : LogEntry) (granted : Bool) : Replay :=
  if e.cls = 0x10 then .done s else
  match e.redo with
  | .none => if sameAgain e.cls then .again s { e with replay := false } else .done s
  | .reissue i srcs => s.replayIssue t e i srcs granted
  | .access as => match as with
    | [] => .done s
    | a :: _ => match a.op with
      | .cnt cop _ v => match parse a.raw with
        | some i => (s.cntTry t i a.dest cop a.ord a.scope ((a.srcs.head?).getD 0).toNat v).replay s e
        | none => .done s
      | .value _ => match parse a.raw with
        | some i => s.replayIssue t e i a.srcs granted
        | none => .done s
      | .copy _ q => match parse a.raw with
        | some i => s.replayLaunch t i a.dest a.addr q
        | none => .done s
      | _ => s.replayAccess t e as
  | .mill _ _ | .cntwait _ _ _ _ _ _ => .done s

/-- The turn of a gang as it will be when it has returned, at an instruction of its log. -/
def State.replayTurn (s : State) (uid gid : Nat) (e : LogEntry) : Option Turn :=
  match s.party? uid with
  | none => none
  | some p => match p.gang? gid with
    | none => none
    | some g => some { uid := uid, gid := gid, p := p, g := { g with level := g.sprev }, ms := p.members g, pc := e.pc }

/-- Replay the rest of a log in its order, with an entry of an engine's queue granted to its first; an entry leaves the log when it has been replayed.
What it answers is whether all have been. -/
def State.replayLog (s : State) (uid gid : Nat) (granted : Bool) : List LogEntry → Bool × State
  | [] => (true, s)
  | e :: es =>
    let rest := fun (s : State) => s.onGang uid gid fun g => { g with slog := es }
    if !e.replay then (rest s).replayLog uid gid granted es else
    match s.replayTurn uid gid e with
    | none => (true, s)
    | some t => match s.replayEntry t e granted with
      | .done s => (rest s).replayLog uid gid false es
      | .again s e' => ((rest s).onGang uid gid fun g => { g with newlog := g.newlog ++ [e'] }).replayLog uid gid false es
      | .wait => (false, s.holdAgain uid gid)
      | .queued s => (false, s)
      | .held s => (false, s.onGang uid gid fun g => { g with slog := { e with replay := false } :: es })

/-- The replays of an `eret` at level S, then the return; replays that faulted again take the gang back to level S. -/
def State.eretGo (s : State) (t : Turn) (granted : Bool) : State :=
  match s.replayLog t.uid t.gid granted t.g.slog with
  | (false, s) => s
  | (true, s) =>
    let new := ((s.gang? t.uid t.gid).map (·.newlog)).getD []
    let s := s.resumeS t.uid t.gid
    if new.isEmpty then s else s.takePending t.uid t.gid t.g.sepc new

/-- `eret` at level S: once every outstanding result has been written or discarded, it begins. What was refused at a Mill that the gang has given up is
tried again first (07 R168). -/
def State.eretS (s : State) (t : Turn) : State :=
  if t.g.replaying then s.eretGo t false
  else if s.outstanding t.uid t.g then s.hold t.uid t.gid .marker
  else
    let s := if t.g.freed then s.wakePosts else s
    (s.onGang t.uid t.gid fun g => { g with replaying := true, freed := false }).eretGo t false

def execEret (h : Head) (s : State) : Out :=
  s.issue (.eret h) fun t => .next (if t.g.level then s.eretS t else s.resumeU t.uid t.gid)

/-- ENGINE_QUEUE_GRANT (12 R263): the first waiting request takes a free entry. A restored party whose saved entries are then all in goes on (12 R266). -/
def execEngineQueueGrant (c : CoreRef) (e : Engine) (s : State) : Out :=
  match (s.engineLine c e).head? with
  | none => .next s
  | some r =>
    if !s.queueRoom c e then .next s else
    let gone := s.onCore c fun k => { k with waiting := k.waiting.erase r }
    match r with
    | .mill cmd => .next ((gone.millEnter c cmd).resumeIn cmd.uid)
    | .port cmd => .next ((gone.portEnter c cmd).getD s |>.resumeIn cmd.uid)
    | .gang _ uid gid i => match gone.turnFor uid gid with
      | none => .next gone
      | some t => .next (if t.g.replaying then gone.eretGo t true else gone.grantGang t i)

/-- ILLEGAL_ENCODING (02 R41, R42): a fetched word that no check of R41 lets pass; the Outrider stops (06 R137). -/
def execIllegalEncoding (cause : Cause) (raw : Raw) (s : State) : Out :=
  if s.inOutrider then s.olRun fun c _ => s.olFault c (olCause cause)
  else match s.turnOf with
    | none => .refused .noIssuer
    | some t => .next (s.encodingTrap t.uid t.gid cause raw)

end Sys2Proof.Machine
end

