-- ==== Sys2Proof/Machine/Errors.lean ====
section
/-!
DEFINITION. Errors of storage, patrol scrub and failing cores (08 R186, 11 R243, 15 R337, R346, 16 R371, R372, 01 R11, 17 R374).
-/

namespace Sys2Proof.Machine

/-! ### Uncorrectable errors (08 R186) -/

/-- The context whose near grant holds an offset of a die's near memory; 0 where none does. -/
def State.nearOwner (s : State) (die off : Nat) : Nat :=
  ((s.tables.contexts.find? fun e => match sfind e.2.ngrant die with
    | some g => decide (g.1 * unitGrant ≤ off ∧ off < (g.1 + g.2) * unitGrant)
    | none => false).map (·.1)).getD 0

/-- The party whose scratch range holds an offset of a core. -/
def State.scratchOwner (s : State) (c : CoreRef) (off : Nat) : Option Party :=
  s.parties.find? fun p => p.core == c && p.image.isNone && decide (p.scrBase ≤ off ∧ off < p.scrBase + p.scrSize)

/-- The unit of a location is poisoned, counted, and reported with its own number of `sub`. -/
def State.unitError (s : State) (loc die sub addr : Nat) (e : EventSrc) : State :=
  ((s.taint (loc / 64 * 64) 64).errCount die 5).memRecord sub addr e

/-- The context that maps a physical counter of a die. -/
def State.counterOwner (s : State) (die k : Nat) : Nat :=
  ((s.tables.contexts.find? fun e => e.2.cmap.any fun m => m.2 == (die, k / 64)).map (·.1)).getD 0

/-- UNCORRECTABLE_ERROR (08 R186, R187): an error of a write shows when the write is made (10 R216, R220). -/
def State.uncorrectable (s : State) : ErrSite → State
  | .device p => s.unitError p (dieOf p) 1 (p / 64 * 64) { ctx := s.frameOwner p }
  | .near die off => s.unitError (locNear die off) die 2 (off / 64 * 64) { ctx := s.nearOwner die off, core := ⟨die, 0⟩ }
  | .scratch die core off =>
    let p := s.scratchOwner ⟨die, core⟩ off
    s.unitError (locScratch ⟨die, core⟩ off) die 3 (off / 64 * 64)
      { ctx := (p.map (·.ctx)).getD 0, core := ⟨die, core⟩, slot := (p.map (·.slot)).getD 0, unitid := (p.map (·.unitid)).getD 0 }
  | .cacheClean p => (s.errCount (dieOf p) 5).memRecord 2 (p / 64 * 64) { ctx := s.frameOwner p, core := ⟨dieOf p, 0⟩ }
  | .cacheDirty p => s.unitError p (dieOf p) 2 (p / 64 * 64) { ctx := s.frameOwner p }
  | .register l blk r =>
    let s := s.errCount l.die 5
    match s.parties.find? fun p => p.core == ⟨l.die, l.core⟩ && p.fibres.any fun f => f.crew == l.lane && f.blocks.contains blk with
    | some p => (s.memRecord 2 ((blk * 64 + r) * 4) p.source).endParty p.uid .rfError
    | none => s.memRecord 2 ((blk * 64 + r) * 4) { core := ⟨l.die, l.core⟩ }
  | .arena die entry row =>
    let s := s.errCount die 5
    match (s.die die).slots.find? fun x => x.idx == entry with
    | none => s
    | some x =>
      let s := s.setSlot die { x with pz := true, rotten := natAdd x.rotten row }
      s.memRecord 4 ((s.die die).arenaBase * 2 ^ 21 + x.base * 65536) { ctx := x.ctx, core := ⟨die, 0⟩ }
  | .counter die k =>
    let s := (s.errCount die 5).setCounter die k { (s.die die).counter k with poison := true }
    (s.memRecord 5 k { ctx := s.counterOwner die k, core := ⟨die, 0⟩ }).wakeCounter die k
  | .write loc => { s with failing := natAdd s.failing (loc / 64) }

/-- The die whose storage an error is of. -/
def siteDie : ErrSite → Nat
  | .device p | .cacheClean p | .cacheDirty p => dieOf p
  | .near die _ | .scratch die _ _ | .arena die _ _ | .counter die _ => die
  | .register l _ _ => l.die
  | .write loc => dieOf loc

/-- UNCORRECTABLE_ERROR: what finds a die's errors waits with a record that found no room (16 R361, log 111). -/
def execUncorrectableError (site : ErrSite) (s : State) : Out :=
  .next (if s.unitBlocked (unitErrors (siteDie site)) then s.later (.uncorrectableError site) else s.uncorrectable site)

/-- The register of 15 R346 that counts a kind of corrected error. -/
def scrubIdx : ScrubKind → Nat
  | .hbm => 0 | .sram => 1 | .scratch => 2 | .cache => 3 | .rf => 4

/-- PATROL_SCRUB (08 R186): a corrected error is counted and changes no visible value; a scrub never clears poison. -/
def execPatrolScrub (die : Nat) (kind : Option ScrubKind) (s : State) : Out :=
  .next (if s.unitBlocked (unitErrors die) then s.later (.patrolScrub die kind) else match kind with
    | some k => s.errCount die (scrubIdx k)
    | none => s)

/-! ### Moving parties off a failing core (16 R371) -/

/-- Save a party into the Steward's own area and restore it on a core: the bytes of device memory stay as they are. -/
def State.moveParty (s : State) (uid : Nat) (c : CoreRef) : State :=
  match s.party? uid with
  | none => s
  | some p =>
    let b := s.savedBytes p
    let s := s.liftParty uid 0
    match s.party? uid with
    | none => s
    | some p => s.restoreParty p c b

/-- The parties that the moving of some parties suspends. -/
def State.moveSet (s : State) (ps : List Party) : List Party :=
  let us := (ps.flatMap fun p => (s.suspendSet p).map (·.uid)).eraseDups
  (us.filterMap s.party?).filter fun p => !p.ended

/-- What a move waits for: first its parties are stopped, then what they have on its way ends. -/
inductive Moving
  | wait (s : State)
  | ready (s : State) (set : List Party)
  deriving DecidableEq, Repr

def State.stopFor (s : State) (ps : List Party) : Moving :=
  let set := s.moveSet ps
  if set.any fun q => q.gangs.any (·.level) then .wait s
  else if set.any fun q => !q.suspended then .wait ((set.filter fun q => !q.suspended).foldl (fun (s : State) q => s.stopParty q) s)
  else
    let s := set.foldl (fun (s : State) q => s.takeMill q) s
    if set.all s.settled then .ready s set else .wait s

/-- The parties of a core that are on it. -/
def State.resident (s : State) (c : CoreRef) : List Party := (s.partiesOn c).filter fun p => !p.retired && p.image.isNone && !p.ended

/-- Parties whose state is not intact end, with one of the two causes of 16 R371. -/
def State.endLost (s : State) (us : List Nat) : State :=
  us.foldl (fun (s : State) u =>
    let (k, s) := s.draw 2
    s.endParty u (if k = 0 then .rfError else .stateLost)) s

/-- Put members of a set back on cores, in order. -/
def State.moveAll (s : State) : List (Nat × CoreRef) → State
  | [] => s
  | (u, c) :: ms => (s.moveParty u c).moveAll ms

/-- A plane that moves with its core: which of its elements arrive poisoned is a free choice (16 R371; DESIGN CHOICE, log 100), and their codes are free (07 R142). -/
def Plane.damage (d : Nat) (p : Plane) : Plane :=
  let n := (p.fmt.map planeN).getD 128
  let cells := (List.range n).flatMap fun i => (List.range ((p.fmt.map planeK).getD 512)).map fun k => (i, k)
  (cells.filter fun e => Config.choice (d + e.1 * 512 + e.2) % 2 == 1).foldl (fun (p : Plane) e =>
    p.put e.1 e.2 (freeCode d (e.1 * 512 + e.2) (elemBits p.fmt), true)) p

/-- The same of an accumulator tile. -/
def Tile.damage (d : Nat) (t : Tile) : Tile :=
  let cells := (List.range 128).flatMap fun i => (List.range (tileN t.fmt)).map fun n => (i, n)
  (cells.filter fun e => Config.choice (d + e.1 * 128 + e.2) % 2 == 1).foldl (fun (t : Tile) e =>
    t.put e.1 e.2 (freeCode d (e.1 * 128 + e.2) (tileWidth t.fmt)) true) t

/-- The Mill of a core as it arrives at the spare: whole, or with elements whose storage was not intact poisoned (16 R371). -/
def State.damageMill (s : State) (c : CoreRef) : State :=
  let (k, s) := s.draw 2
  if k = 0 then s else
  let d := s.draws
  ({ s with draws := d + 196608 } : State).onMill c fun m =>
    (List.range 4).foldl (fun (m : Mill) a => m.setTile a ((m.tile a).damage (d + 131072 + a * 16384)))
      { m with active := m.active.damage d, shadow := m.shadow.damage (d + 65536) }

/-- SPARE_TAKEOVER (16 R371, 01 R11): the spare takes the logical core's place and its Mill's state; `lost` are the parties whose state is not intact. -/
def execSpareTakeover (c : CoreRef) (lost : List Nat) (s : State) : Out :=
  let comp := companyOf c.core
  let free := ((s.die c.die).spare.getD comp false) && s.coreWorks c && decide (c.die < 4 ∧ c.core < 64)
  if !free then .next s else
  let here := s.resident c
  let gone := (here.map (·.uid)).filter lost.contains
  match s.stopFor (here.filter fun p => !gone.contains p.uid) with
  | .wait s => .next (s.later (.spareTakeover c lost))
  | .ready s set =>
    let s := s.endLost gone
    let map := ((s.die c.die).coreMap.drop (16 * comp)).take 16
    let sub := ((List.range 17).find? fun k => !map.contains k).getD 16
    let s := (s.damageMill c).onDie c.die fun d => { d with coreMap := d.coreMap.set c.core sub, spare := d.spare.set comp false }
    .next ((s.moveAll ((set.filter fun p => !gone.contains p.uid).map fun p => (p.uid, p.core))).tick)

/-! ### Retiring a company (01 R11, 17 R374, R385) -/

/-- Put a value into bits [hi:lo] of a feature vector. -/
def setField (v : BitVec 256) (hi lo x : Nat) : BitVec 256 :=
  BitVec.ofNat 256 (v.toNat - bits v.toNat hi lo * 2 ^ lo + x % 2 ^ (hi + 1 - lo) * 2 ^ lo)

/-- CORES: those of the available companies, 16 each (01 R11, 17 R374; DEDUCED, log 86). -/
def State.coreCount (s : State) : Nat := (s.dies.map fun d => 16 * (d.avail.filter id).length).sum
/-- COMPANIES: bit 4d + c. -/
def State.companyBits (s : State) : Nat :=
  ((List.range 16).map fun i => if (s.die (i / 4)).avail.getD (i % 4) false then 2 ^ i else 0).sum

/-- CORES and COMPANIES in both vectors, and the notice (17 R384, R385). -/
def State.reportCompany (s : State) (die comp : Nat) : State :=
  let upd := fun (v : BitVec 256) => setField (setField v 16 8 s.coreCount) 32 17 s.companyBits
  let w := s.steward
  let s : State := { s with steward := { w with devfeat := upd w.devfeat, negfeat := if w.negDone then upd w.negfeat else w.negfeat } }
  s.notice 3 (4 * die + comp) s.coreCount

/-- Clear a company's availability, with the cores that failed. -/
def State.retireCompany (s : State) (die comp : Nat) (failed : List Nat) : State :=
  let s := s.onDie die fun d => { d with
    avail := d.avail.set comp false
    coreMap := failed.foldl (fun m k => if k < 16 then m.set (16 * comp + k) coreLost else m) d.coreMap }
  let s := failed.foldl (fun (s : State) k => (s.unlink ⟨die, 16 * comp + k⟩).onCore ⟨die, 16 * comp + k⟩ fun k => { k with mill := {} }) s
  s.reportCompany die comp

/-- The parties of some cores of a company. -/
def State.onCores (s : State) (die comp : Nat) (failed : List Nat) : List Party :=
  (failed.filter (· < 16)).flatMap fun k => s.resident ⟨die, 16 * comp + k⟩

/-- COMPANY_RETIREMENT (01 R11, 16 R371): a core of a company whose spare is in use fails; `failed` are the places of the failing cores, `targets` where the
party-launch parties of those cores go, in order; a target that is no core stands for a party whose state is not intact: it is not restored, and ends
(log 99). A company launch on the company ends with a failing member. -/
def execCompanyRetirement (die comp : Nat) (failed : List Nat) (targets : List CoreRef) (s : State) : Out :=
  let cause := !((s.die die).spare.getD comp true) && failed.any fun k => decide (k < 16)
  if !((s.die die).avail.getD comp false) || decide (4 ≤ die) || !cause then .next s else
  let here := s.onCores die comp failed
  let firm := here.filter (·.company)
  let party := here.filter fun p => !p.company
  let lost := ((party.zip targets).filter fun x => decide (4 ≤ x.2.die)).map (·.1.uid)
  let rest := party.filter fun p => !lost.contains p.uid
  match s.stopFor rest with
  | .wait s => .next (s.later (.companyRetirement die comp failed targets))
  | .ready s set =>
    let others := set.filter fun p => !(rest.any fun q => q.uid == p.uid) && !lost.contains p.uid
    let moves := ((rest.map (·.uid)).zip (targets.filter fun c => decide (c.die < 4))) ++ others.map fun p => (p.uid, p.core)
    let fits := moves.all fun m => (s.party? m.1).any fun p => p.core == m.2 || s.roomFor p m.2
    if party.length ≠ targets.length ∨ fits = false then .next (s.later (.companyRetirement die comp failed targets)) else
    let s := s.endLost lost
    let s := (firm.flatMap s.unitOf).foldl (fun (s : State) p => s.endParty p.uid .stateLost) s
    let s := (set.map (·.core)).foldl (fun (s : State) c => if failed.any (fun k => c == ⟨die, 16 * comp + k⟩) then s.unlink c else s) s
    let s := s.moveAll moves
    .next ((s.retireCompany die comp failed).tick)

/-- DIE_PAIR_FAILURE (17 R374): every available company of the higher-numbered die is retired. -/
def execDiePairFailure (dieA dieB : Nat) (s : State) : Out :=
  let d := max dieA dieB
  if dieA = dieB ∨ 4 ≤ d then .next s
  else .next ((List.range 4).foldl (fun (s : State) k => if (s.die d).avail.getD k false then s.retireCompany d k [] else s) s)

end Sys2Proof.Machine
end

