-- ==== Sys2Proof/Machine/Pred.lean ====
section
/-!
DEFINITION. Group 0x2 but for `fcmp`: compare and predicate instructions (04 R89 to R91).
-/

namespace Sys2Proof.Machine

/-- `cmp` (04 R90). -/
def execCmp (h : Head) (t : Ty) (a : Opnd) (b : Src) (cond : Cond) (p : CmpDst) (s : State) : Out :=
  s.regForm (.cmp h t a b cond p) p.d fun x f =>
    placeCompare f p (intCompare cond (readSrc s x.p x.g f t (.op a)) (readSrc s x.p x.g f t b))

/-- The predicate forms (04 R91). -/
def execPpush (h : Head) (a : Opnd) (s : State) : Out :=
  s.regForm (.ppush h a) (.v 0) fun x f => { pred := { push := some (bit (read32 s x.p x.g f (.op a)) 0) } }
def execPpop (h : Head) (n : Nat) (set : Bool) (d : Opnd) (s : State) : Out :=
  s.regForm (.ppop h n set d) d fun _ f =>
    { ws := if set then dstWords .n32 (f.pred.toNat % 2 ^ n : Nat) else [], pred := { pops := n } }
def execPmov (h : Head) (k : Nat) (neg : Bool) (s : State) : Out :=
  s.regForm (.pmov h k neg) (.v 0) fun _ f => { pred := { push := some (xor (f.predAt k) neg) } }
def execPset (h : Head) (k : Nat) (a : Opnd) (s : State) : Out :=
  s.regForm (.pset h k a) (.v 0) fun x f => { pred := { entry := some (k, bit (read32 s x.p x.g f (.op a)) 0) } }
def execPlop (h : Head) (i j tt : Nat) (rep : Bool) (s : State) : Out :=
  s.regForm (.plop h i j tt rep) (.v 0) fun _ f =>
    let p := bit tt (2 * b2n (f.predAt i) + b2n (f.predAt j))
    { pred := if rep then { entry := some (0, p) } else { push := some p } }

end Sys2Proof.Machine
end

