-- ==== Sys2Proof/Machine/Steward.lean ====
section
/-!
DEFINITION. The edge of the device (17): device reset, boot images, ports and their protection layer, the gateway, the host's window, and
the Steward's mailbox.
-/

namespace Sys2Proof.Machine

/-! ### Device reset and start-up (00 R8, 17 R386, R373) -/

/-- DEVICE_RESET (00 R8): every item at its reset value. Fuses and what the Steward has found of the cores stay (log 5); so do the model's
agenda and what has already been handed out. -/
def execDeviceReset (s : State) : Out :=
  let die := fun (d : Die) => { Die.reset with coreMap := d.coreMap, avail := d.avail, spare := d.spare }
  .next { State.reset with
    dies := s.dies.map die
    steward := { Steward.reset with devfeat := setField s.steward.devfeat 36 36 0, lifecycle := s.steward.lifecycle }
    sent := s.sent, draws := s.draws, agenda := s.agenda }

/-- The bytes of a 256-bit register, and back: the first byte is the most significant, as SHA-256 writes a digest. -/
def bytes256 (x : BitVec 256) : List Byte := (leBytes 32 x.toNat).reverse
def of256 (bs : List Byte) : BitVec 256 := BitVec.ofNat 256 (leNat bs.reverse)

/-- Extend a measurement register (17 R386). -/
def Steward.extendM (w : Steward) (i : Nat) (digest : BitVec 256) : Steward :=
  { w with m := w.m.set i (sha256 (bytes256 (w.m.getD i 0) ++ bytes256 digest)) }

def State.onSteward (s : State) (f : Steward → Steward) : State := { s with steward := f s.steward }

/-- BOOT_IMAGE_LOAD (17 R386): images load in order, m0 to m5; one whose signature fails is measured and ends the sequence. -/
def execBootImageLoad (i : Nat) (image sig : List Byte) (s : State) : Out :=
  let w := s.steward
  if w.offline ∨ i ≠ w.boot ∨ 5 < i then .next s
  else
    let digest := sha256 image
    let ok := Config.ecdsaVerify w.lifecycle digest sig
    .next (s.onSteward fun w => { (w.extendM i digest) with boot := if ok then i + 1 else i, offline := !ok })

/-- FUSE_PROGRAMMING (17 R373): a lifecycle event, which m6 measures; its digest is not given (log 35). -/
def execFuseProgramming (lc : Nat) (s : State) : Out :=
  let digest := BitVec.ofNat 256 (((List.range 4).map fun k => (Config.freeWord (s.draws + k)).toNat * 2 ^ (64 * k)).sum)
  let s : State := { s with draws := s.draws + 4 }
  .next (s.onSteward fun w => { (w.extendM 6 digest) with lifecycle := lc % 8 })

/-! ### Ports (17 R376 to R380) -/

def State.port (s : State) (k : Nat) : Port := sget {} s.ports k
def State.setPort (s : State) (k : Nat) (p : Port) : State := { s with ports := sset {} s.ports k p }

/-- A LINK event record (16 R352, R361). -/
def State.linkRecord (s : State) (port cause : Nat) : State := s.event unitSteward (w64 cause) 0x36 port {}

/-- A port goes down: its status, a record and a notice (17 R377). -/
def State.portDown (s : State) (k cause : Nat) : State :=
  ((s.setPort k { s.port k with up := false, cause := cause, down := true }).linkRecord k cause).notice 1 k cause

/-- The Steward acts on a port unless it waits with a record that found no room (16 R361); then it does so later. -/
def State.byStewardNow (s : State) (i : Instr) (o : Out) : Out := if s.unitBlocked unitSteward then .next (s.later i) else o

/-- LINK_START (17 R380, R379, 15 R330): fresh keys, and every protection counter at 0; a port that had gone down is recorded with ADDR 0 (17 R377). A
far end that fails verification keeps the port down, DOWNCAUSE 4; out of service no port goes up (17 R386). -/
def execLinkStart (port : Nat) (verified : Bool) (keyTx keyRx : BitVec 256) (linkids : LinkIds) (prot : Bool) (width : Nat) (s : State) : Out :=
  if 24 ≤ port ∨ s.steward.offline then .next s
  else s.byStewardNow (.linkStart port verified keyTx keyRx linkids prot width) (
    if !verified then .next (s.portDown port 4)
    else
      let s' := s.setPort port { up := true, width := width % 8, prot := prot, keyTx := some keyTx, keyRx := some keyRx, linkids := linkids }
      let s' := if (s.port port).down then s'.linkRecord port 0 else s'
      .next (s'.notice 2 port (width % 8)))

/-- LINK_DOWN (17 R377): 1 loss of signal, 2 retrain failure, 3 after 16 authentication failures. -/
def execLinkDown (port cause : Nat) (s : State) : Out :=
  let p := s.port port
  if p.up && decide (port < 24 ∧ 1 ≤ cause ∧ cause ≤ 3) && (cause != 3 || decide (16 ≤ p.fails.length)) then
    s.byStewardNow (.linkDown port cause) (.next (s.portDown port cause))
  else .next s

/-- LANE_LOSS (17 R376): a UALink port with `good` good lanes; below two it goes down, by a retrain failure. -/
def execLaneLoss (port good : Nat) (s : State) : Out :=
  let p := s.port port
  if !p.up ∨ 16 ≤ port ∨ 4 ≤ good then .next s
  else if good < 2 then s.byStewardNow (.laneLoss port good) (.next (s.portDown port 2))
  else .next (s.setPort port { p with width := 2 })

/-- The IV of a flit slot: the direction's LINKID above the slot's number (17 R378). -/
def flitIv (linkid : BitVec 32) (slot : DWord) : BitVec 96 := linkid ++ slot

/-- FLIT_TRANSMIT (17 R378, R379): a protected slot is sealed under TXSEQ, which advances; at 2^62 the link restarts. -/
def execFlitTransmit (port : Nat) (header payload : List Byte) (s : State) : Out :=
  let p := s.port port
  if !p.up then .next s
  else if !p.prot then .next (s.emit (.flit port 0 payload 0))
  else match p.keyTx with
    | none => .next s
    | some k =>
      let (c, tag) := Config.gcmSeal k (flitIv p.linkids.tx p.txseq) header payload
      let next := p.txseq + 1
      let s := s.emit (.flit port p.txseq c tag)
      if next.toNat = 2 ^ 62 then .next (s.setPort port { p with up := false, keyTx := none, keyRx := none, txseq := 0, rxseq := 0, fails := [] })
      else .next (s.setPort port { p with txseq := next })

/-- FLIT_RECEIVE (17 R379): RXSEQ advances whatever happens to the slot; 16 authentication failures within 2^20 slots take the port down. -/
def execFlitReceive (port : Nat) (crcGood : Bool) (header payload tag : List Byte) (s : State) : Out :=
  let p := s.port port
  if !p.up then .next s
  else if !p.prot then .next (if crcGood then s.emit (.passed port payload) else s)
  else match p.keyRx with
    | none => .next s
    | some k =>
      let slot := p.rxseq.toNat
      let q := { p with rxseq := p.rxseq + 1, fails := p.fails.filter fun n => decide (slot < n + 2 ^ 20) }
      if !crcGood then .next (s.setPort port q)
      else match Config.gcmOpen k (flitIv p.linkids.rx p.rxseq) header payload tag with
        | some d => .next ((s.setPort port q).emit (.passed port d))
        | none =>
          let q := { q with authfail := min (p.authfail + 1) (2 ^ 32 - 1), fails := q.fails ++ [slot] }
          let s := s.setPort port q
          .next (if 16 ≤ q.fails.length then s.portDown port 3 else s)

/-- GATEWAY_CONVERSION (17 R377): a transaction changes its carrier and nothing else. -/
def execGatewayConversion (iod : Nat) (dir : GatewayDir) (p : Packet) (rank : Nat) (s : State) : Out :=
  if 2 ≤ iod then .next s else
  match dir with
  | .toEthernet => .next (s.emit (.ethernet rank p))
  | .toStation => .next (s.emit (.station rank p))

/-! ### The host's window (17 R381, R382) -/

/-- A 32-bit register of the window is written when a write covers all of it. -/
def wordOf (off : Nat) (data : List Byte) (at_ : Nat) : Option Nat :=
  if off ≤ at_ ∧ at_ + 4 ≤ off + data.length then some (leAt (data.drop (at_ - off)) 0 4) else none

/-- Put written bytes into a table of bytes that stands at [base, base + len). -/
def putBytes (m : Sparse Byte) (base len off : Nat) (data : List Byte) : Sparse Byte :=
  (List.range data.length).foldl (fun m i => if base ≤ off + i ∧ off + i < base + len then sset 0 m (off + i - base) (data.getD i 0) else m) m

/-- DRVFEAT takes written bytes, least significant first; its reserved bits stay zero (00 R7, 17 R385). -/
def putDrv (v : BitVec 256) (off : Nat) (data : List Byte) : BitVec 256 :=
  let old := leBytes 32 v.toNat
  BitVec.ofNat 256 (2 ^ 37 - 1) &&& BitVec.ofNat 256 (leNat (old.mapIdx fun i b => if off ≤ 0x1020 + i ∧ 0x1020 + i < off + data.length then data.getD (0x1020 + i - off) b else b))

/-- A doorbell write at an offset of the window. -/
def doorbells (off : Nat) (data : List Byte) : List (Nat × Nat × Nat) :=
  (List.range ((off + data.length + 7) / 8 - off / 8)).filterMap fun j =>
    let at_ := (off / 8 + j) * 8
    if 0x80000 ≤ at_ ∧ at_ < 0x82000 then (wordOf off data at_).map fun v => ((at_ - 0x80000) / 128, (at_ - 0x80000) % 128 / 8, v) else none

/-- A host write into the control window. -/
def State.windowWrite (s : State) (off : Nat) (data : List Byte) : State :=
  let w := s.steward
  let go := match wordOf off data 0 with
    | some v => if bit v 31 && !w.cmd.getLsbD 31 then w32 (2 ^ 31 + v % 65536) else w.cmd
    | none => w.cmd
  let w := { w with
    cmd := go
    len := match wordOf off data 8 with
      | some v => v % 2 ^ 11
      | none => w.len
    request := putBytes w.request 0x100 0x400 off data
    nhead := match wordOf off data 0xC00 with
      | some v => w32 v
      | none => w.nhead
    lost := w.lost && !((wordOf off data 0xC08).any fun v => bit v 31)
    drvfeat := if w.negDone then w.drvfeat else putDrv w.drvfeat off data }
  (doorbells off data).foldl (fun (s : State) d => match execDoorbell d.1 d.2.1 d.2.2 s with
    | .next s' => s'
    | _ => s) { s with steward := w }

/-- A byte of the control window as the host reads it. -/
def State.windowByte (s : State) (off : Nat) : Byte :=
  let w := s.steward
  let word := fun (x : Nat) (base : Nat) => BitVec.ofNat 8 (x / 2 ^ (8 * (off - base)))
  if off < 0x4 then word w.cmd.toNat 0
  else if off < 0x8 then word w.status.toNat 4
  else if off < 0xC then word w.len 8
  else if off < 0x10 then word w.rlen 0xC
  else if 0x100 ≤ off ∧ off < 0x500 then sget 0 w.request (off - 0x100)
  else if 0x500 ≤ off ∧ off < 0x900 then sget 0 w.reply (off - 0x500)
  else if 0xC00 ≤ off ∧ off < 0xC04 then word w.nhead.toNat 0xC00
  else if 0xC04 ≤ off ∧ off < 0xC08 then word w.ntail.toNat 0xC04
  else if 0xC08 ≤ off ∧ off < 0xC0C then word (b2n w.lost * 2 ^ 31) 0xC08
  else if 0xE00 ≤ off ∧ off < 0x1000 then sget 0 w.notices (off - 0xE00)
  else if 0x1000 ≤ off ∧ off < 0x1020 then word w.devfeat.toNat 0x1000
  else if 0x1020 ≤ off ∧ off < 0x1040 then word w.drvfeat.toNat 0x1020
  else if 0x1040 ≤ off ∧ off < 0x1060 then word w.negfeat.toNat 0x1040
  else if 0x82000 ≤ off ∧ off < 0x84000 then
    let x := (off - 0x82000) / 128
    let head := ((s.ctxAny x).queueAt ((off - 0x82000) % 128 / 8)).head.toNat
    if bit s.sys.hbmask.toNat x && decide (off % 8 < 4) then BitVec.ofNat 8 (head / 2 ^ (8 * (off % 8))) else 0
  else 0

/-- A host request for memory names a context: refused unless HBMASK allows it, else stamped with the context's JOB, and performed here or sent to the
device of the pod that it names (17 R381). -/
def State.hostMemory (s : State) (dev : Option Nat) (ctx region offset : Nat) (op : PktOp) (tag : Nat) : State :=
  if bit s.sys.hbmask.toNat ctx && decide (ctx < 64) then
    match (s.ctx? ctx).bind (·.job) with
    | some j =>
      let p : Packet := { job := j, init := hostInit, region := region, offset := offset, op := op, tag := tag, scope := .sys }
      match dev with
      | none => s.inbound p []
      | some r => s.emit (.packet r p)
    | none => (s.linkEvent 0x0319).emit (.hostReply tag (.nack XFault.noContext.code))
  else s.emit (.hostReply tag (.nack XFault.noContext.code))

/-- HOST_REQUEST (17 R381): the window of another device of the pod is reached through this one, its bridge. -/
def execHostRequest (r : HostReq) (s : State) : Out :=
  match r with
  | .window none off data => .next (s.windowWrite off data)
  | .windowRead none off len => .next (s.emit (.hostRead ((List.range len).map fun i => s.windowByte (off + i))))
  | .window (some d) off data => .next (s.emit (.host d (.window none off data)))
  | .windowRead (some d) off len => .next (s.emit (.host d (.windowRead none off len)))
  | .memory dev ctx region offset op tag => .next (s.hostMemory dev ctx region offset op tag)

/-- NSTAT_LOST_CLEAR (17 R382). -/
def execNstatLostClear (s : State) : Out := .next (s.onSteward fun w => { w with lost := false })

/-! ### Mailbox commands (17 R382, R383) -/

def resultOk : Nat := 0
def resultRefused : Nat := 1
def resultBadArg : Nat := 2
def resultUnknown : Nat := 3
def resultOffline : Nat := 4

/-- A command ends: its reply, STATUS with DONE, and GO clear. -/
def Steward.answer (w : Steward) (result : Nat) (reply : List Byte) : Steward :=
  { w with status := w32 (2 ^ 31 + result), cmd := w.cmd &&& 0x7FFFFFFF#32
           reply := if reply.isEmpty then w.reply else putBytes w.reply 0 0x400 0 reply
           rlen := if result = resultOk then reply.length else w.rlen }

/-- Run the command with a code, if that is the one the host has given. Out of service only some run; LEN is checked first. -/
def State.command (s : State) (code : Nat) (always : Bool) (run : Steward → Steward) : Out :=
  let w := s.steward
  if !(w.cmd.getLsbD 31) ∨ w.cmd.toNat % 65536 ≠ code ∨ s.unitBlocked unitSteward then .next s
  else if 1024 < w.len then .next (s.onSteward fun w => w.answer resultBadArg [])
  else if w.offline && !always then .next (s.onSteward fun w => w.answer resultOffline [])
  else .next (s.onSteward run)

def Steward.req (w : Steward) (i n : Nat) : List Byte := (List.range n).map fun k => sget 0 w.request (i + k)

/-- LINK_PROT of NEGFEAT: every port that is UP is protected (17 R378). -/
def State.allProtected (s : State) : Bool := s.ports.all fun p => !p.2.up || p.2.prot

/-- NEGFEAT as negotiated (17 R385). -/
def negotiated (w : Steward) (prot : Bool) : BitVec 256 :=
  let v := setField 0 32 0 (bits w.devfeat.toNat 32 0)
  let v := setField v 33 33 (b2n (w.devfeat.getLsbD 33 && w.drvfeat.getLsbD 33))
  let v := setField v 34 34 (b2n (w.devfeat.getLsbD 34 && prot))
  let v := setField v 35 35 (b2n (w.devfeat.getLsbD 35))
  setField v 36 36 (b2n w.dbgopen)

def execNegotiate (s : State) : Out :=
  s.command 1 false fun w =>
    if w.negDone then w.answer resultRefused []
    else
      let v := negotiated w s.allProtected
      { w with negfeat := v, negDone := true }.answer resultOk (leBytes 32 v.toNat)

def execExtend (s : State) : Out :=
  s.command 2 false fun w =>
    let i := leNat (w.req 0 1)
    if i < 7 ∨ 15 < i ∨ leNat (w.req 1 3) ≠ 0 then w.answer resultBadArg []
    else
      let w' := w.extendM i (of256 (w.req 4 32))
      w'.answer resultOk (bytes256 (w'.m.getD i 0))

def execPowercap (s : State) : Out :=
  s.command 3 false fun w =>
    let x := leNat (w.req 0 2)
    if x < 400 ∨ 3200 < x ∨ leNat (w.req 2 2) ≠ 0 then w.answer resultBadArg []
    else { w with pwrcap := x }.answer resultOk (bytesOf 2 x)

def execChallenge (nonce : BitVec 256) (s : State) : Out :=
  s.command 4 true fun w => { w with nonce := some nonce }.answer resultOk (bytes256 nonce)

/-- Whether a token opens the device (17 R388). -/
def State.tokenGood (s : State) (t : List Byte) : Bool :=
  let w := s.steward
  leNat (t.take 8) == Config.deviceId.toNat && leAt t 8 1 == w.lifecycle && leAt t 9 7 == 0 && w.nonce == some (of256 ((t.drop 16).take 32)) &&
  Config.ecdsaVerify w.lifecycle (sha256 (t.take 48)) (t.drop 48) && s.tables.contexts.all fun c => c.1 == s.sys.sctx

/-- UNLOCK (17 R388): the nonce serves one attempt. A good token wipes the keys, takes every port down, and opens debug. -/
def execUnlock (s : State) : Out :=
  let t := s.steward.req 0 112
  let run := decide (s.steward.cmd.getLsbD 31 = true ∧ s.steward.cmd.toNat % 65536 = 5 ∧ s.steward.len ≤ 1024) && !s.unitBlocked unitSteward && s.tokenGood t
  match s.command 5 true (fun w => { w with nonce := none }.answer (if run then resultOk else resultRefused) []) with
  | .next s =>
    if !run then .next s
    else
      let up := (s.ports.filter fun p => p.2.up).map (·.1)
      let (cause, s) := s.drawWord
      let s : State := { s with ports := s.ports.map fun p => (p.1, { p.2 with keyTx := none, keyRx := none }) }
      let s := up.foldl (fun (s : State) k => s.portDown k (cause.toNat % 16)) s
      .next (s.onSteward fun w => { (w.extendM 6 (sha256 t)) with
        tenantKeys := false, dbgopen := true, debugPort := true, devfeat := setField w.devfeat 36 36 1
        negfeat := if w.negDone then setField w.negfeat 36 36 1 else w.negfeat })
  | r => r

/-! ### SPDM (17 R386, R387) -/

/-- The requests that the Steward supports (17 R387). -/
inductive SpdmRequest
  | getVersion | getCapabilities | negotiateAlgorithms | getDigests | getCertificate | challenge | getMeasurements | keyExchange | finish | endSession
  deriving DecidableEq, Repr

/-- The request that a message is, by the standard's codes (PRESUMED, log 11). -/
def spdmRequest (req : List Byte) : Option SpdmRequest :=
  match leAt req 1 1 with
  | 0x84 => some .getVersion
  | 0xE1 => some .getCapabilities
  | 0xE3 => some .negotiateAlgorithms
  | 0x81 => some .getDigests
  | 0x82 => some .getCertificate
  | 0x83 => some .challenge
  | 0xE0 => some .getMeasurements
  | 0xE4 => some .keyExchange
  | 0xE5 => some .finish
  | 0xEC => some .endSession
  | _ => none

/-- The code of the answer to a request. -/
def SpdmRequest.answerCode : SpdmRequest → Nat
  | .getVersion => 0x04
  | .getCapabilities => 0x61
  | .negotiateAlgorithms => 0x63
  | .getDigests => 0x01
  | .getCertificate => 0x02
  | .challenge => 0x03
  | .getMeasurements => 0x60
  | .keyExchange => 0x64
  | .finish => 0x65
  | .endSession => 0x6C

/-- An ERROR answer. -/
def spdmError (code data : Nat) : List Byte := bytesOf 1 0x13 ++ bytesOf 1 0x7F ++ bytesOf 1 code ++ bytesOf 1 data

/-- Whether a request comes in its turn: the version, the capabilities and the algorithms first, FINISH after KEY_EXCHANGE, END_SESSION in a session. -/
def Spdm.takes (d : Spdm) : SpdmRequest → Bool
  | .getVersion => true
  | .getCapabilities => d.stage == 1
  | .negotiateAlgorithms => d.stage == 2
  | .finish => d.stage == 3 && d.opening
  | .endSession => d.stage == 3 && d.open_
  | _ => d.stage == 3

/-- What a request leaves behind. -/
def Spdm.after (d : Spdm) : SpdmRequest → Spdm
  | .getVersion => { stage := 1 }
  | .getCapabilities => { d with stage := 2 }
  | .negotiateAlgorithms => { d with stage := 3 }
  | .keyExchange => { d with opening := true }
  | .finish => { d with opening := false, open_ := true }
  | .endSession => { d with open_ := false }
  | _ => d

/-- One block of measurements: index i + 1 reports m(i) (17 R386), in the standard's form for a digest. -/
def measurementBlock (m : List (BitVec 256)) (i : Nat) : List Byte :=
  bytesOf 1 (i + 1) ++ bytesOf 1 1 ++ bytesOf 2 35 ++ bytesOf 1 0 ++ bytesOf 2 32 ++ bytes256 (m.getD i 0)

/-- The indices that a GET_MEASUREMENTS asks for: none, one, or all; nothing for an index that there is not. -/
def measurementsAsked (k : Nat) : Option (List Nat) :=
  if k = 0 then some [] else if k = 0xFF then some (List.range 16) else if k ≤ 16 then some [k - 1] else none

/-- MEASUREMENTS: the blocks, a nonce, no opaque data, and where it is asked for a signature with the device key over the exchange. -/
def spdmMeasurements (w : Steward) (req : List Byte) (nonce : List Byte) : List Byte :=
  match measurementsAsked (leAt req 3 1) with
  | none => spdmError 0x01 0
  | some ks =>
    let record := ks.flatMap (measurementBlock w.m)
    let total := if ks.isEmpty then 16 else 0
    let body := bytesOf 1 0x13 ++ bytesOf 1 0x60 ++ bytesOf 1 total ++ bytesOf 1 0 ++ bytesOf 1 ks.length ++ bytesOf 3 record.length ++ record ++ nonce ++ bytesOf 2 0
    if bit (leAt req 2 1) 0 then body ++ (Config.deviceSign Config.deviceId (sha256 (req ++ body))).take 64 else body

/-- ALGORITHMS: of what is asked for, ECDSA P-256 and SHA-256 alone (17 R387). -/
def spdmAlgorithms (req : List Byte) : List Byte :=
  bytesOf 1 0x13 ++ bytesOf 1 0x63 ++ bytesOf 2 0 ++ bytesOf 2 36 ++ bytesOf 2 1 ++ bytesOf 4 2 ++
  bytesOf 4 (b2n (bit (leAt req 8 4) 4) * 16) ++ bytesOf 4 (b2n (bit (leAt req 12 4) 0)) ++ bytesOf 12 0 ++ bytesOf 4 0

/-- The Steward's answer to an SPDM request, with the requester's progress (17 R386, R387). -/
def Steward.spdmAnswer (w : Steward) (req nonce : List Byte) : List Byte × Spdm :=
  match spdmRequest req with
  | none => (spdmError 0x07 (leAt req 1 1), w.spdm)
  | some k =>
    if !w.spdm.takes k then (spdmError 0x04 0, w.spdm) else
    let bs := match k with
      | .getVersion => bytesOf 1 0x10 ++ bytesOf 1 0x04 ++ bytesOf 3 0 ++ bytesOf 1 1 ++ bytesOf 2 0x1300
      | .negotiateAlgorithms => spdmAlgorithms req
      | .getMeasurements => spdmMeasurements w req nonce
      | .endSession => bytesOf 1 0x13 ++ bytesOf 1 0x6C ++ bytesOf 2 0
      | k => bytesOf 1 0x13 ++ bytesOf 1 k.answerCode ++ Config.spdmBody req w.m
    (bs, w.spdm.after k)

/-- SPDM (17 R386, R387): on the mailbox; with peer Stewards it is part of link start (17 R380). -/
def execSpdm (s : State) : Out :=
  let nonce := (List.range 4).flatMap fun k => leBytes 8 (Config.freeWord (s.draws + k)).toNat
  ({ s with draws := s.draws + 4 } : State).command 6 true fun w =>
    let x := w.spdmAnswer (w.req 0 w.len) nonce
    { w with spdm := x.2 }.answer resultOk (x.1.take 0x400)

/-- UNKNOWN: a command whose CODE is not listed (17 R383). -/
def execUnknown (s : State) : Out :=
  let code := s.steward.cmd.toNat % 65536
  if 1 ≤ code ∧ code ≤ 6 then .next s else s.command code true fun w => w.answer resultUnknown []

/-- POWER_ESTIMATE (17 R389): issue slots are withheld above PWRCAP; timing alone changes. -/
def execPowerEstimate (watts : Nat) (s : State) : Out :=
  let over_ := decide (s.steward.pwrcap < watts)
  if over_ == s.steward.throttle then .next s
  else .next ((s.onSteward fun w => { w with throttle := over_ }).notice 5 (b2n over_) watts)

end Sys2Proof.Machine
end

