-- ==== Sys2Proof/Machine/Dispatch.lean ====
section
/-!
DEFINITION. The meaning of every instruction and event: one arm for each constructor of `Instr`.
-/

namespace Sys2Proof.Machine

def exec (i : Instr) (s : State) : Host.Outcome State Fault Refusal :=
  match i with
  | .iadd h t d a b m => Sys2Proof.Machine.execIadd h t d a b m s
  | .isub h t d a b m => Sys2Proof.Machine.execIsub h t d a b m s
  | .imul h t d a b sat wide => Sys2Proof.Machine.execImul h t d a b sat wide s
  | .imulhi h t d a b => Sys2Proof.Machine.execImulhi h t d a b s
  | .imad h t d a b c sat wide => Sys2Proof.Machine.execImad h t d a b c sat wide s
  | .idiv h t d a b => Sys2Proof.Machine.execIdiv h t d a b s
  | .irem h t d a b => Sys2Proof.Machine.execIrem h t d a b s
  | .imin h t d a b => Sys2Proof.Machine.execImin h t d a b s
  | .imax h t d a b => Sys2Proof.Machine.execImax h t d a b s
  | .iabs h t d a sat => Sys2Proof.Machine.execIabs h t d a sat s
  | .ineg h t d a sat => Sys2Proof.Machine.execIneg h t d a sat s
  | .isad h t d a b c sat => Sys2Proof.Machine.execIsad h t d a b c sat s
  | .mov h t d a => Sys2Proof.Machine.execMov h t d a s
  | .sel h t d a b depth neg => Sys2Proof.Machine.execSel h t d a b depth neg s
  | .and h t d a b => Sys2Proof.Machine.execAnd h t d a b s
  | .or h t d a b => Sys2Proof.Machine.execOr h t d a b s
  | .xor h t d a b => Sys2Proof.Machine.execXor h t d a b s
  | .not h t d a => Sys2Proof.Machine.execNot h t d a s
  | .shl h t d a b wrap => Sys2Proof.Machine.execShl h t d a b wrap s
  | .shr h t d a b wrap => Sys2Proof.Machine.execShr h t d a b wrap s
  | .sar h t d a b wrap => Sys2Proof.Machine.execSar h t d a b wrap s
  | .rotl h t d a b => Sys2Proof.Machine.execRotl h t d a b s
  | .popc h t d a => Sys2Proof.Machine.execPopc h t d a s
  | .clz h t d a => Sys2Proof.Machine.execClz h t d a s
  | .brev h t d a => Sys2Proof.Machine.execBrev h t d a s
  | .bfe h t d a f => Sys2Proof.Machine.execBfe h t d a f s
  | .bfi h t d a b f => Sys2Proof.Machine.execBfi h t d a b f s
  | .lea h t d a b sh => Sys2Proof.Machine.execLea h t d a b sh s
  | .lop3 h t d a b c tt => Sys2Proof.Machine.execLop3 h t d a b c tt s
  | .cmp h t a b cond p => Sys2Proof.Machine.execCmp h t a b cond p s
  | .fcmp h t a b cond p => Sys2Proof.Machine.execFcmp h t a b cond p s
  | .ppush h a => Sys2Proof.Machine.execPpush h a s
  | .ppop h n set d => Sys2Proof.Machine.execPpop h n set d s
  | .pmov h k neg => Sys2Proof.Machine.execPmov h k neg s
  | .pset h k a => Sys2Proof.Machine.execPset h k a s
  | .plop h p q tt rep => Sys2Proof.Machine.execPlop h p q tt rep s
  | .fadd h t d a b m => Sys2Proof.Machine.execFadd h t d a b m s
  | .fsub h t d a b m => Sys2Proof.Machine.execFsub h t d a b m s
  | .fmul h t d a b m => Sys2Proof.Machine.execFmul h t d a b m s
  | .ffma h t d a b c m => Sys2Proof.Machine.execFfma h t d a b c m s
  | .fmin h t d a b m => Sys2Proof.Machine.execFmin h t d a b m s
  | .fmax h t d a b m => Sys2Proof.Machine.execFmax h t d a b m s
  | .fdiv h t d a b m => Sys2Proof.Machine.execFdiv h t d a b m s
  | .frcp h t d a m => Sys2Proof.Machine.execFrcp h t d a m s
  | .frsq h t d a m => Sys2Proof.Machine.execFrsq h t d a m s
  | .fsqrt h t d a m => Sys2Proof.Machine.execFsqrt h t d a m s
  | .fexp2 h t d a m => Sys2Proof.Machine.execFexp2 h t d a m s
  | .flog2 h t d a m => Sys2Proof.Machine.execFlog2 h t d a m s
  | .fsin h t d a m => Sys2Proof.Machine.execFsin h t d a m s
  | .fcos h t d a m => Sys2Proof.Machine.execFcos h t d a m s
  | .faddF64 h t d a b m => Sys2Proof.Machine.execFaddF64 h t d a b m s
  | .fsubF64 h t d a b m => Sys2Proof.Machine.execFsubF64 h t d a b m s
  | .fmulF64 h t d a b m => Sys2Proof.Machine.execFmulF64 h t d a b m s
  | .ffmaF64 h t d a b c m => Sys2Proof.Machine.execFfmaF64 h t d a b c m s
  | .fminF64 h t d a b m => Sys2Proof.Machine.execFminF64 h t d a b m s
  | .fmaxF64 h t d a b m => Sys2Proof.Machine.execFmaxF64 h t d a b m s
  | .fdivF64 h t d a b m => Sys2Proof.Machine.execFdivF64 h t d a b m s
  | .frcpF64 h t d a m => Sys2Proof.Machine.execFrcpF64 h t d a m s
  | .frsqF64 h t d a m => Sys2Proof.Machine.execFrsqF64 h t d a m s
  | .fsqrtF64 h t d a m => Sys2Proof.Machine.execFsqrtF64 h t d a m s
  | .cvt h d a m => Sys2Proof.Machine.execCvt h d a m s
  | .dot2 h d a b c m => Sys2Proof.Machine.execDot2 h d a b c m s
  | .dot4 h d a b c m => Sys2Proof.Machine.execDot4 h d a b c m s
  | .padd h d a b m => Sys2Proof.Machine.execPadd h d a b m s
  | .pmax h d a b m => Sys2Proof.Machine.execPmax h d a b m s
  | .pmin h d a b m => Sys2Proof.Machine.execPmin h d a b m s
  | .pack h d a b m => Sys2Proof.Machine.execPack h d a b m s
  | .unpack h d a m => Sys2Proof.Machine.execUnpack h d a m s
  | .seed h a mix => Sys2Proof.Machine.execSeed h a mix s
  | .vote h d a mode psrc pdepth pneg => Sys2Proof.Machine.execVote h d a mode psrc pdepth pneg s
  | .shfl h t d a b mode seg => Sys2Proof.Machine.execShfl h t d a b mode seg s
  | .bcast h t d a last => Sys2Proof.Machine.execBcast h t d a last s
  | .scan h t d a op excl sat => Sys2Proof.Machine.execScan h t d a op excl sat s
  | .fold h t d a op sat => Sys2Proof.Machine.execFold h t d a op sat s
  | .bra h tgt c => Sys2Proof.Machine.execBra h tgt c s
  | .brx h a c => Sys2Proof.Machine.execBrx h a c s
  | .call h d tgt c => Sys2Proof.Machine.execCall h d tgt c s
  | .ret h a c => Sys2Proof.Machine.execRet h a c s
  | .exit h => Sys2Proof.Machine.execExit h s
  | .spawn h a entry tmo blk => Sys2Proof.Machine.execSpawn h a entry tmo blk s
  | .meet h a => Sys2Proof.Machine.execMeet h a s
  | .xgrow h => Sys2Proof.Machine.execXgrow h s
  | .xshrink h => Sys2Proof.Machine.execXshrink h s
  | .fetchw h a => Sys2Proof.Machine.execFetchw h a s
  | .launch h d a b => Sys2Proof.Machine.execLaunch h d a b s
  | .nop h len => Sys2Proof.Machine.execNop h len s
  | .rqpop h d => Sys2Proof.Machine.execRqpop h d s
  | .olfor h d a exit => Sys2Proof.Machine.execOlfor h d a exit s
  | .olnext h => Sys2Proof.Machine.execOlnext h s
  | .olpostMill h a b op => Sys2Proof.Machine.execOlpostMill h a b op s
  | .olpostPort h a b op => Sys2Proof.Machine.execOlpostPort h a b op s
  | .olpostRec h a b => Sys2Proof.Machine.execOlpostRec h a b s
  | .olpermit h q a => Sys2Proof.Machine.execOlpermit h q a s
  | .ld h d a m e => Sys2Proof.Machine.execLd h d a m e s
  | .st h a b m e => Sys2Proof.Machine.execSt h a b m e s
  | .pref h a m off => Sys2Proof.Machine.execPref h a m off s
  | .cflush h a b level => Sys2Proof.Machine.execCflush h a b level s
  | .cinval h a b level => Sys2Proof.Machine.execCinval h a b level s
  | .atom h d a b m e => Sys2Proof.Machine.execAtom h d a b m e s
  | .atomcas h d a b c m off se sd => Sys2Proof.Machine.execAtomcas h d a b c m off se sd s
  | .fence h ord scope => Sys2Proof.Machine.execFence h ord scope s
  | .xfence h a b => Sys2Proof.Machine.execXfence h a b s
  | .mload h t d a nh => Sys2Proof.Machine.execMload h t d a nh s
  | .mswap h d nh => Sys2Proof.Machine.execMswap h d nh s
  | .mrun h t d a nh => Sys2Proof.Machine.execMrun h t d a nh s
  | .mchainLink h d nh len => Sys2Proof.Machine.execMchainLink h d nh len s
  | .mchainJoin h d a nh => Sys2Proof.Machine.execMchainJoin h d a nh s
  | .mchainUnlink h d nh => Sys2Proof.Machine.execMchainUnlink h d nh s
  | .mepi h t d a nh => Sys2Proof.Machine.execMepi h t d a nh s
  | .maccz h d nh mask => Sys2Proof.Machine.execMaccz h d nh mask s
  | .maccrd h d a acc mem => Sys2Proof.Machine.execMaccrd h d a acc mem s
  | .mdelta h t d a nh => Sys2Proof.Machine.execMdelta h t d a nh s
  | .slotbind h d a => Sys2Proof.Machine.execSlotbind h d a s
  | .slotdrop h d a => Sys2Proof.Machine.execSlotdrop h d a s
  | .slotq h d a => Sys2Proof.Machine.execSlotq h d a s
  | .lseal h d a b k => Sys2Proof.Machine.execLseal h d a b k s
  | .tcopy h d a nh urg => Sys2Proof.Machine.execTcopy h d a nh urg s
  | .a2av h d a nh urg => Sys2Proof.Machine.execA2av h d a nh urg s
  | .bseal h d a record => Sys2Proof.Machine.execBseal h d a record s
  | .bwait h a => Sys2Proof.Machine.execBwait h a s
  | .cntRd h d a ord scope => Sys2Proof.Machine.execCntRd h d a ord scope s
  | .cntAdd h d a b nr ord scope => Sys2Proof.Machine.execCntAdd h d a b nr ord scope s
  | .cntSet h d a b nr ord scope => Sys2Proof.Machine.execCntSet h d a b nr ord scope s
  | .cntwait h d a b ord scope tmo => Sys2Proof.Machine.execCntwait h d a b ord scope tmo s
  | .trigTcopy h d a b c urg scope => Sys2Proof.Machine.execTrigTcopy h d a b c urg scope s
  | .trigA2av h d a b c urg scope => Sys2Proof.Machine.execTrigA2av h d a b c urg scope s
  | .trigAdd h d a b c scope amount => Sys2Proof.Machine.execTrigAdd h d a b c scope amount s
  | .trigCancel h d a => Sys2Proof.Machine.execTrigCancel h d a s
  | .ftest h d a => Sys2Proof.Machine.execFtest h d a s
  | .fwait h d a => Sys2Proof.Machine.execFwait h d a s
  | .fcancel h d a => Sys2Proof.Machine.execFcancel h d a s
  | .trap h code => Sys2Proof.Machine.execTrap h code s
  | .sysrd h d a => Sys2Proof.Machine.execSysrd h d a s
  | .eret h => Sys2Proof.Machine.execEret h s
  | .syswr h a b => Sys2Proof.Machine.execSyswr h a b s
  | .segwr h d a b sp => Sys2Proof.Machine.execSegwr h d a b sp s
  | .rngwr h d a idx ctx => Sys2Proof.Machine.execRngwr h d a idx ctx s
  | .rngwrClr h d idx ctx => Sys2Proof.Machine.execRngwrClr h d idx ctx s
  | .tcinvRange h d a b ctx => Sys2Proof.Machine.execTcinvRange h d a b ctx s
  | .tcinvRegion h d a ctx => Sys2Proof.Machine.execTcinvRegion h d a ctx s
  | .tcinvCtx h d ctx => Sys2Proof.Machine.execTcinvCtx h d ctx s
  | .tcinvRank h d ctx => Sys2Proof.Machine.execTcinvRank h d ctx s
  | .mspill h d a => Sys2Proof.Machine.execMspill h d a s
  | .mfill h d a => Sys2Proof.Machine.execMfill h d a s
  | .illegalEncoding cause raw => Sys2Proof.Machine.execIllegalEncoding cause raw s
  | .instructionFetch f => Sys2Proof.Machine.execInstructionFetch f s
  | .resultReturn id => Sys2Proof.Machine.execResultReturn id s
  | .gangMerge l => Sys2Proof.Machine.execGangMerge l s
  | .gangNumberGrant uid crew => Sys2Proof.Machine.execGangNumberGrant uid crew s
  | .classAging uid gid => Sys2Proof.Machine.execClassAging uid gid s
  | .meetRelease uid crew => Sys2Proof.Machine.execMeetRelease uid crew s
  | .xgrowGrant l => Sys2Proof.Machine.execXgrowGrant l s
  | .binTimerExpiry uid bin => Sys2Proof.Machine.execBinTimerExpiry uid bin s
  | .binRelease uid bin => Sys2Proof.Machine.execBinRelease uid bin s
  | .storeDrain uid crew => Sys2Proof.Machine.execStoreDrain uid crew s
  | .remoteReply id r => Sys2Proof.Machine.execRemoteReply id r s
  | .remoteTimeout id => Sys2Proof.Machine.execRemoteTimeout id s
  | .hold id => Sys2Proof.Machine.execHold id s
  | .holdInterval token => Sys2Proof.Machine.execHoldInterval token s
  | .holdExpired token => Sys2Proof.Machine.execHoldExpired token s
  | .heraldDelivery die => Sys2Proof.Machine.execHeraldDelivery die s
  | .engineQueueGrant c e => Sys2Proof.Machine.execEngineQueueGrant c e s
  | .millCommandStart c u => Sys2Proof.Machine.execMillCommandStart c u s
  | .millCommandResolve c u => Sys2Proof.Machine.execMillCommandResolve c u s
  | .chainLinkForms c => Sys2Proof.Machine.execChainLinkForms c s
  | .transferStart c => Sys2Proof.Machine.execTransferStart c s
  | .piecePlacement c slot piece => Sys2Proof.Machine.execPiecePlacement c slot piece s
  | .transferRetire c slot => Sys2Proof.Machine.execTransferRetire c slot s
  | .batchFinish uid stream => Sys2Proof.Machine.execBatchFinish uid stream s
  | .handshake m body => Sys2Proof.Machine.execHandshake m body s
  | .contribution m t => Sys2Proof.Machine.execContribution m t s
  | .final m t => Sys2Proof.Machine.execFinal m t s
  | .abortNotice m => Sys2Proof.Machine.execAbortNotice m s
  | .messageAcknowledgement m id => Sys2Proof.Machine.execMessageAcknowledgement m id s
  | .collectiveAckTimeout c slot id => Sys2Proof.Machine.execCollectiveAckTimeout c slot id s
  | .countMessage m n => Sys2Proof.Machine.execCountMessage m n s
  | .offsetReply m off => Sys2Proof.Machine.execOffsetReply m off s
  | .counterOperation id => Sys2Proof.Machine.execCounterOperation id s
  | .cntwaitTimeout uid gid => Sys2Proof.Machine.execCntwaitTimeout uid gid s
  | .launchRequest id => Sys2Proof.Machine.execLaunchRequest id s
  | .doorbell ctx q v => Sys2Proof.Machine.execDoorbell ctx q v s
  | .packetRead => Sys2Proof.Machine.execPacketRead s
  | .bufferListApplication lt => Sys2Proof.Machine.execBufferListApplication lt s
  | .unitPlacement lt c base => Sys2Proof.Machine.execUnitPlacement lt c base s
  | .companyReservation lt die comp => Sys2Proof.Machine.execCompanyReservation lt die comp s
  | .fetchwAnswer uid => Sys2Proof.Machine.execFetchwAnswer uid s
  | .partyRetirement uid => Sys2Proof.Machine.execPartyRetirement uid s
  | .launchCompletion lt => Sys2Proof.Machine.execLaunchCompletion lt s
  | .inboundPacket p => Sys2Proof.Machine.execInboundPacket p s
  | .walk id => Sys2Proof.Machine.execWalk id s
  | .cachedRequest job region page rank write => Sys2Proof.Machine.execCachedRequest job region page rank write s
  | .revocation job region page home => Sys2Proof.Machine.execRevocation job region page home s
  | .revocationAcknowledgement job region page rank => Sys2Proof.Machine.execRevocationAcknowledgement job region page rank s
  | .replicaLock job region offset home data => Sys2Proof.Machine.execReplicaLock job region offset home data s
  | .replicaUnlock job region offset home => Sys2Proof.Machine.execReplicaUnlock job region offset home s
  | .freplyResume token => Sys2Proof.Machine.execFreplyResume token s
  | .freplyNack token cls => Sys2Proof.Machine.execFreplyNack token cls s
  | .tableRead v => Sys2Proof.Machine.execTableRead v s
  | .regionAttributeWrite v => Sys2Proof.Machine.execRegionAttributeWrite v s
  | .windowWrite v => Sys2Proof.Machine.execWindowWrite v s
  | .contextEntryWrite v => Sys2Proof.Machine.execContextEntryWrite v s
  | .replicaDescriptorWrite v => Sys2Proof.Machine.execReplicaDescriptorWrite v s
  | .cmaccInstall v => Sys2Proof.Machine.execCmaccInstall v s
  | .cmaccRemove v => Sys2Proof.Machine.execCmaccRemove v s
  | .cmaccRead v => Sys2Proof.Machine.execCmaccRead v s
  | .vwinWrite v => Sys2Proof.Machine.execVwinWrite v s
  | .nearcarveWrite die v => Sys2Proof.Machine.execNearcarveWrite die v s
  | .ngrantWrite ctx die v => Sys2Proof.Machine.execNgrantWrite ctx die v s
  | .arenaWrite die v => Sys2Proof.Machine.execArenaWrite die v s
  | .launchQueueDescriptorWrite ctx q w v => Sys2Proof.Machine.execLaunchQueueDescriptorWrite ctx q w v s
  | .errorCounterClear die reg v => Sys2Proof.Machine.execErrorCounterClear die reg v s
  | .pctlSuspend v => Sys2Proof.Machine.execPctlSuspend v s
  | .pctlRestore v => Sys2Proof.Machine.execPctlRestore v s
  | .pctlEnd v => Sys2Proof.Machine.execPctlEnd v s
  | .pctlAbortx v => Sys2Proof.Machine.execPctlAbortx v s
  | .ctxctlCreate v => Sys2Proof.Machine.execCtxctlCreate v s
  | .ctxctlRetire v => Sys2Proof.Machine.execCtxctlRetire v s
  | .ctxctlSetrank v => Sys2Proof.Machine.execCtxctlSetrank v s
  | .uncorrectableError site => Sys2Proof.Machine.execUncorrectableError site s
  | .patrolScrub die kind => Sys2Proof.Machine.execPatrolScrub die kind s
  | .spareTakeover c lost => Sys2Proof.Machine.execSpareTakeover c lost s
  | .companyRetirement die comp failed targets => Sys2Proof.Machine.execCompanyRetirement die comp failed targets s
  | .deviceReset => Sys2Proof.Machine.execDeviceReset s
  | .bootImageLoad n image sig => Sys2Proof.Machine.execBootImageLoad n image sig s
  | .linkStart port verified keyTx keyRx linkids prot width => Sys2Proof.Machine.execLinkStart port verified keyTx keyRx linkids prot width s
  | .linkDown port cause => Sys2Proof.Machine.execLinkDown port cause s
  | .laneLoss port good => Sys2Proof.Machine.execLaneLoss port good s
  | .diePairFailure dieA dieB => Sys2Proof.Machine.execDiePairFailure dieA dieB s
  | .flitTransmit port header payload => Sys2Proof.Machine.execFlitTransmit port header payload s
  | .flitReceive port crcGood header payload tag => Sys2Proof.Machine.execFlitReceive port crcGood header payload tag s
  | .gatewayConversion iod dir p rank => Sys2Proof.Machine.execGatewayConversion iod dir p rank s
  | .hostRequest r => Sys2Proof.Machine.execHostRequest r s
  | .negotiate => Sys2Proof.Machine.execNegotiate s
  | .extend => Sys2Proof.Machine.execExtend s
  | .powercap => Sys2Proof.Machine.execPowercap s
  | .challenge nonce => Sys2Proof.Machine.execChallenge nonce s
  | .unlock => Sys2Proof.Machine.execUnlock s
  | .spdm => Sys2Proof.Machine.execSpdm s
  | .nstatLostClear => Sys2Proof.Machine.execNstatLostClear s
  | .powerEstimate watts => Sys2Proof.Machine.execPowerEstimate watts s
  | .withdrawal m => Sys2Proof.Machine.execWithdrawal m s
  | .unknown => Sys2Proof.Machine.execUnknown s
  | .fuseProgramming lc => Sys2Proof.Machine.execFuseProgramming lc s

end Sys2Proof.Machine
end

