-- ==== Sys2Proof/Machine/Schedule.lean ====
section
/-!
DEFINITION. What the step adds around an instruction: time passing (03 R64, 15 R348), the decoding of what was fetched (02 R41), and the model's
own choice among the device's pending occurrences when nothing is named on the agenda (log 19).
-/

namespace Sys2Proof.Machine

/-! ### What a clk is -/

/-- The events of a core in one clk that its performance counters count: clk, and a busy streaming unit (15 R348). -/
def State.clockEvent (s : State) (c : CoreRef) (ev ctx : Nat) (own : Bool) : Bool :=
  if ev = 0x01 then !own || (s.partiesOn c).any fun p => p.ctx == ctx
  else if ev = 0x0A then match (s.core c).mill.streaming with
    | some r => !own || r.cmd.ctx == ctx
    | none => false
  else false

/-! ### Decoding what was fetched -/

/-- The instruction that fetched bytes are for the one that fetched them, checks 2 to 7 of 02 R41; the window part of check 6 comes before check 7. -/
def State.decoded (s : State) (a : Agent) (bs : List Byte) : Instr :=
  let r := Raw.ofBytes bs
  match a with
  | .gang uid gid => match decode ((s.gang? uid gid).any (·.level)) r with
    | .ok i => i
    | .reject c => .illegalEncoding c r
    | .badMod i => .illegalEncoding (if (s.party? uid).any fun p => (p.gang? gid).any fun g => !windowOk i (p.members g) then .badOperand else .reservedMod) r
  | _ => match decodeOutrider r with
    | .ok i => i
    | .reject c => .illegalEncoding c r
    | .badMod _ => .illegalEncoding .reservedMod r

/-! ### Readiness (06 R126, 12 R262) -/

/-- A wait at an instruction that may go on now: it is tried again. -/
def Wait.isRetry : Wait → Bool
  | .again _ | .spawn _ _ _ _ | .futureFull _ | .score _ _ | .rqpop _ _ => true
  | .marker | .xgrow _ _ | .future _ _ | .engine _ | .counter _ _ _ _ _ _ _ _ | .launch _ | .held _ => false

/-- Whether a gang that is held back at its instruction would go on now: its fetch and its instruction, tried on a copy of the state, leave it
in no such wait. -/
def State.wouldGo (s : State) (p : Party) (g : Gang) : Bool :=
  let goes := fun (t : State) => !(t.gang? p.uid g.gid).any fun h => h.wait.any Wait.isRetry
  let s := ({ s with latch := none, agent := .none } : State).fetchGang p g
  match s.latch with
  | none => goes s
  | some (a, bs) => match exec (s.decoded a bs) { s with latch := none, agent := a } with
    | .next t => goes t
    | _ => false

/-- A gang is ready (06 R126): nothing holds it back. -/
def State.readyNow (s : State) (p : Party) (g : Gang) : Bool := s.gangReady p g && (!g.wait.any Wait.isRetry || s.wouldGo p g)

/-! ### Time -/

/-- Some performance counter counts events whose number is a matter of timing. -/
def State.timed (s : State) : Bool := s.cores.any fun k => k.2.pmcs.any fun e => e.2.timing

/-- Performance counter `e` of core `k` after `n` clk (15 R348): what a matter of timing adds to it is free (log 7). -/
def State.pmcTick (s : State) (n k : Nat) (e : Nat × Pmc) : Nat × Pmc :=
  if e.2.timing then (e.1, { e.2 with count := e.2.count + (Config.freeWord (s.draws + 8 * k + e.1)).setWidth 48 })
  else if e.2.sel.getLsbD 15 && s.clockEvent ⟨k / 64, k % 64⟩ (e.2.sel.toNat % 256) e.2.ctx (e.2.sel.getLsbD 14)
    then (e.1, { e.2 with count := e.2.count + BitVec.ofNat 48 n }) else e

/-- `n` clk pass: gangs that are ready have aged and stand in their lanes' gang-ready sets (06 R126, 12 R262). -/
def State.pass (s : State) (n : Nat) : State :=
  let core := fun (k : Nat × Core) => if k.2.pmcs.isEmpty then k else (k.1, { k.2 with pmcs := k.2.pmcs.map (s.pmcTick n k.1) })
  let agedGang := fun (p : Party) (g : Gang) => if s.readyNow p g then { g with age := g.age + n, entered := true } else { g with entered := false }
  let aged := fun (p : Party) => { p with gangs := p.gangs.map (agedGang p) }
  if n = 0 then s
  else { s with clock := s.clock + w64 n, cores := s.cores.map core, parties := s.parties.map aged, issued := []
                draws := if s.timed then s.draws + 2048 else s.draws
                dies := s.dies.map fun d => if d.herald.isEmpty then d else { d with herald := d.herald.filter fun h => decide (s.clock.toNat + n ≤ h.at_ + 16) }
                served := [], changes := if s.served.isEmpty then s.changes else s.changes + 1 }

/-! ### The model's own choice (log 19) -/

def State.coreRefs (s : State) : List (CoreRef × Core) := s.cores.map fun e => (⟨e.1 / 64, e.1 % 64⟩, e.2)

/-- Pieces of a transfer that have not been placed. -/
def State.openCodes (s : State) (c : CoreRef) (x : Transfer) : List Nat :=
  let h := shapeOf x.shape
  if x.held then [0] else
  match s.collOf c x with
  | none =>
    let dst := layoutOf x.dst
    ((List.range (layoutOf x.src).tiles).flatMap fun t => (h.targets t).flatMap fun q => (List.range (dst.pieceCount (h.chunk t))).map fun k => copyCode t q k).filter
      fun n => !x.placed.contains n
  | some e =>
    if x.cmd.a2av then
      let y := exchangeOf x.shape
      (List.range y.g).flatMap fun q => match e.replyOf q with
        | some (some off) =>
          let (d, _, n) := blockPairs y e.mineC q off
          ((List.range (blockPieces d n)).map fun k => blockCode q k).filter fun n => !x.placed.contains n
        | _ => []
    else (List.range (layoutOf x.src).tiles).filter fun t => !e.sentC.contains t

/-- Occurrences of accesses in flight. -/
def State.dueAccesses (s : State) : List Instr :=
  let now := s.clock.toNat
  (s.flight.filter fun a => a.stage == .toWalk && !a.op.isCopy && a.fid != some engineFid).map (fun a => Instr.walk a.id) ++
  (s.flight.filter fun a => a.fid != some engineFid && (match a.stage, a.op with
    | .done _ _, _ => true
    | .ready, .load _ _ => true
    | _, _ => false)).map (fun a => Instr.resultReturn a.id) ++
  (s.flight.filter fun a => match a.stage with | .sent d => decide (d ≤ now) | _ => false).map (fun a => Instr.remoteTimeout a.id) ++
  (s.parties.flatMap fun p => (p.crews.filter fun c => !c.storeq.isEmpty).map fun c => Instr.storeDrain p.uid c.num) ++
  s.cntReqs.map (fun r => Instr.counterOperation r.id) ++ s.requests.map (fun r => Instr.launchRequest r.id)

/-- Occurrences of the engines. -/
def State.dueEngines (s : State) : List Instr :=
  s.coreRefs.flatMap fun e =>
    (if e.2.mill.queue.isEmpty then [] else [Instr.millCommandStart e.1 .loading, Instr.millCommandStart e.1 .streaming]) ++
    (if e.2.mill.loading.isSome then [Instr.millCommandResolve e.1 .loading] else []) ++
    (if e.2.mill.streaming.isSome then [Instr.millCommandResolve e.1 .streaming, Instr.chainLinkForms e.1] else []) ++
    (if e.2.urgent.isEmpty && e.2.normal.isEmpty then [] else [Instr.transferStart e.1]) ++
    (e.2.xfers.flatMap fun x => ((s.openCodes e.1 x).take 64).map (fun n => Instr.piecePlacement e.1 x.slot n) ++ [Instr.transferRetire e.1 x.slot]) ++
    (if e.2.waiting.isEmpty then [] else [Instr.engineQueueGrant e.1 .mill, Instr.engineQueueGrant e.1 .porter])

/-- Occurrences of parties and launches. -/
def State.dueParties (s : State) : List Instr :=
  let now := s.clock.toNat
  (s.parties.flatMap fun p =>
    (p.bins.filter fun b => b.2.expired now).map (fun b => Instr.binTimerExpiry p.uid b.1) ++
    (p.bins.filter fun b => b.2.state == .releasing).map (fun b => Instr.binRelease p.uid b.1) ++
    (p.streams.filter fun x => !x.2.sealed.isEmpty).map (fun x => Instr.batchFinish p.uid x.1) ++
    (p.gangs.filter fun g => g.number.isNone).map (fun g => Instr.gangNumberGrant p.uid g.crew) ++
    (p.gangs.filter fun g => s.gangFree p g && decide (1024 ≤ g.age)).map (fun g => Instr.classAging p.uid g.gid) ++
    (p.gangs.filter fun g => match g.wait with | some (.counter _ _ t l _ _ _ _) => l != 0 && decide (t + l ≤ now) | _ => false).map
      (fun g => Instr.cntwaitTimeout p.uid g.gid) ++
    (if p.withdraw.isEmpty then [] else [Instr.fetchwAnswer p.uid]) ++ (if p.over_ then [Instr.partyRetirement p.uid] else [])) ++
  s.growq.map (fun w => Instr.xgrowGrant w.1) ++
  (if s.nextQueue.isSome then [Instr.packetRead] else []) ++
  (s.live.flatMap fun l =>
    (if l.state == .waiting then [Instr.bufferListApplication l.idx] else []) ++
    (if l.left then ((allCores.flatMap fun c => s.baseCandidates.map fun b => (c, b)).find? fun x => s.unitFits l x.1 x.2).toList.map
      fun x => Instr.unitPlacement l.idx x.1 x.2 else []) ++
    (if s.reserveDue l then s.reservables.map fun x => Instr.companyReservation l.idx x.1 x.2 else []) ++
    (if l.finished then [Instr.launchCompletion l.idx] else [])) ++
  (s.tables.pending.filter fun e => decide (e.since + s.sys.fhold < now)).map (fun e => Instr.holdExpired e.token) ++
  (s.tables.pending.filter fun e => !(e.inbound.isEmpty && e.locks.isEmpty) && decide (e.lastHold + 2500 ≤ now)).map (fun e => Instr.holdInterval e.token) ++
  ((List.range 4).filter fun d => (s.die d).herald.any fun h => decide (h.at_ + 16 = now)).map (fun d => Instr.heraldDelivery d)

/-- The command the Steward would run, but for CHALLENGE, whose nonce comes from outside. -/
def State.dueSteward (s : State) : List Instr :=
  if !s.steward.cmd.getLsbD 31 then [] else match s.steward.cmd.toNat % 65536 with
    | 1 => [.negotiate] | 2 => [.extend] | 3 => [.powercap] | 4 => [] | 5 => [.unlock] | 6 => [.spdm] | _ => [.unknown]

/-- Who may fetch. -/
def State.dueFetches (s : State) : List Instr :=
  ((s.parties.flatMap fun p => (p.gangs.filter fun g => g.starting || (g.entered && s.gangReady p g)).map fun g => p.laneRef g.crew).eraseDups).map (fun l => .instructionFetch (.lane l)) ++
  (s.coreRefs.filter fun e => e.2.outrider.running && !e.2.outrider.waiting).map fun e => .instructionFetch (.outrider e.1)

/-- Everything the device may do now by itself, in a fixed order. -/
def State.due (s : State) : List Instr := s.deferred ++ s.dueAccesses ++ s.dueEngines ++ s.dueParties ++ s.dueSteward ++ s.dueFetches

/-- One of them in turn, by the clock; none when the device is idle. -/
def State.choice (s : State) : Option Instr :=
  let l := s.due
  l[s.clock.toNat % max l.length 1]?

/-! ### Running one occurrence -/

/-- An occurrence happens now: if it had been put off, it is no longer (log 38). -/
def State.comes (s : State) (i : Instr) : State := { s with deferred := s.deferred.erase i }

/-- What has happened may let waiting gangs go on; a fetch alone changes nothing for them. -/
def State.settle (s : State) (i : Instr) : State :=
  let s := { s with agent := .none, latch := none }
  match i with
  | .instructionFetch (.lane _) => s
  | _ => s.tick

/-- Run an instruction or event; what a fetch has latched is decoded and runs with it. -/
def State.happen (s : State) (i : Instr) : Out :=
  match exec i s with
  | .next s => match s.latch with
    | none => .next (s.settle i)
    | some (a, bs) => match exec (s.decoded a bs) { s with latch := none, agent := a } with
      | .next s => .next (s.settle i)
      | r => r
  | r => r

end Sys2Proof.Machine
end

