-- ==== Sys2Proof/Machine/Step.lean ====
section
/-!
DEFINITION. One step of the device: the first occurrence of the agenda, after its time has passed; with nothing on the agenda, one that the
device may do by itself, after one clk (log 19). And the state in which a given word is what runs next.
-/

namespace Sys2Proof.Machine

/-- One step. -/
def step (s : State) : Host.Outcome State Fault Refusal :=
  match s.agenda with
  | o :: rest => (({ s.pass o.after with agenda := rest } : State).comes o.what).happen o.what
  | [] => match s.choice with
    | some i => ((s.pass 1).comes i).happen i
    | none => .next (s.pass 1)

/-- Where the placed code lies: region 63 of context 0, mapped by one 1 GiB leaf. -/
def placedVa : Nat := 63 * 2 ^ 40
def placedFrame : Nat := 2 ^ 30
def placedRoot : Nat := 2 ^ 21

/-- The context, window, region and range register through which the placed code is fetched (14 R306 to R310). -/
def State.placeTables (s : State) : State :=
  let c := (s.ctx? 0).getD { num := 0 }
  let w : Window := { ctx := 0, region := 63, va := 0, ia := 0, size := 2 ^ 30 }
  let r : Region := { r := true, w := true, x := true, inb := true, psize := 2, levels := 1, mthr := 0, root := placedRoot, limit := 2 ^ 30 }
  let s := s.setCtx { c with regions := sput c.regions 63 r, ranges := sput c.ranges 0 { win := 63, copy := w } }
  let s := s.onTables fun t => { t with windows := sput t.windows 63 w, sharers := t.sharers.filter fun h => !(h.ctx == 0 && h.region == 63) }
  s.poke placedRoot (leBytes 64 (2 ^ 63 + 2 ^ 61 + 2 ^ 60 + 2 ^ 59 + placedFrame))

/-- A party of one fibre on core 0 of die 0 that stands at the placed code, before every other choice of its lane. -/
def State.placeParty1 (s : State) (level : Bool) : State :=
  let (uid, s) := s.fresh
  let (gid, s) := s.fresh
  let c : CoreRef := ⟨0, 0⟩
  let f : Fibre := { fid := 0, cfid := 0, crew := 0, pc := 0, srs := srsReset c 0, blocks := (s.freeBlocks ⟨0, 0, 0⟩).take 5 }
  let g : Gang := { gid := gid, crew := 0, number := some 0, fibres := [0], sregs := List.replicate 64 0, cls := 4, level := level }
  let p : Party :=
    { uid := uid, core := c, slot := 0, ctx := 0, rank := 0, launch := none, unitid := 0, nfib := 1, blocks := 1, prio := 0, producer := 0
      code := w64 placedVa, segBase := [0, 0, 0, 0, 0, 0], segLim := [0, 0, 0, 0, 0, 0], fibres := [f], gangs := [g]
      crews := (List.range 16).map fun k => { num := k, prio := 0 } }
  { s with parties := s.parties ++ [p], issued := [], served := [], sys := if level then { s.sys with scode := w64 placedVa, sctx := 0 } else s.sys
           agenda := ⟨0, .instructionFetch (.lane ⟨0, 0, 0⟩)⟩ :: s.agenda }

/-- The Outrider of core 0 of die 0 stands at the placed code. -/
def State.placeOutrider (s : State) : State :=
  let s := s.placeParty1 false
  let uid := ((s.parties.getLast?).map (·.uid)).getD 0
  let s := s.onOutrider ⟨0, 0⟩ fun _ => { running := true, uid := uid, opc := 0, o := List.replicate 16 0 }
  { s with agenda := ⟨0, .instructionFetch (.outrider ⟨0, 0⟩)⟩ :: s.agenda.drop 1 }

/-- `s` with an instruction stored where the very next step fetches: what a launch would have set up (log 20). A word that only level S may
run is fetched by a gang at level S, and one that only the Outrider runs by the Outrider. -/
def State.withFetchWord (s : State) (nbits w : Nat) : State :=
  let bs := leBytes 16 (w % 2 ^ nbits)
  let r := Raw.ofBytes bs
  let s := s.placeTables.poke placedFrame (bs ++ leBytes 48 0)
  match decode false r with
  | .ok _ => s.placeParty1 false
  | _ => match decode true r with
    | .ok _ => s.placeParty1 true
    | _ => match decodeOutrider r with
      | .ok _ => s.placeOutrider
      | _ => s.placeParty1 false

end Sys2Proof.Machine
end

