-- ==== Sys2Proof/Safety.lean ====
section
/-!
DEFINITION. The terms in which the statements speak: the canonical forms the model keeps its tables in, states between steps, runs that never
stop, when an instruction may issue, and what two states have in common.
-/

namespace Sys2Proof.Machine

/-! ### Safe states and runs -/

/-- A list of numbers is strictly rising, from a bound on. -/
def risingFrom : Nat → List Nat → Bool
  | _, [] => true
  | lo, k :: t => decide (lo ≤ k) && risingFrom (k + 1) t

/-- Memory, its poison bits, the lane register files and the block generations are in canonical form. -/
def State.canonical (s : State) : Bool :=
  Memory.wf s.mem && risingFrom 0 s.poison && swf 0 s.regs && swf 0 s.gens

/-- No instruction is half run: between steps nothing is latched and nobody is issuing. -/
def State.quiet (s : State) : Prop := s.agent = .none ∧ s.latch = none

/-- A state between steps. -/
def State.Safe (s : State) : Prop := s.canonical = true ∧ s.quiet

/-- A run of `n` steps that never stops. -/
def safeRun : Nat → State → Prop
  | 0, _ => True
  | n + 1, s => ∃ t, step s = .next t ∧ safeRun n t

/-! ### When an instruction issues -/

/-- Nothing holds instruction `i` of turn `x` back: the state's agent is a gang of the state, none of its earlier faults must be taken first
(10 R222), no result it must wait for under W is outstanding (02 R34), and every register it names is in the window (02 R31). -/
structure State.Clear (s : State) (i : Instr) (x : Turn) : Prop where
  turn : s.turnOf = some x
  take : s.mustTake i x = false
  mark : i.head.w = true → s.outstanding x.uid x.g = false
  win  : windowOk i x.ms = true

/-- The Outrider that runs. -/
def State.OlRuns (s : State) (c : CoreRef) : Prop := s.agent = .outrider c ∧ (s.core c).outrider.running = true

/-- Wherever `i` may issue, it completes: `fx` goes to D of every fibre it takes effect on, or once for the gang (04 R73), and the gang goes on
past the word. -/
def Gives (s : State) (i : Instr) (d : Opnd) (fx : Turn → Fibre → Effect) : Prop :=
  ∀ x, s.Clear i x → exec i s = .next ((s.applyForm i x d (fx x)).advance x.uid x.gid i.raw)

/-- The same for a form whose result is outstanding (04 R80): the words are owed to D. -/
def Owes (s : State) (i : Instr) (d : Opnd) (ws : Turn → Fibre → List Word) : Prop :=
  ∀ x, s.Clear i x → exec i s = .next ((s.oweAll i x d (ws x)).advance x.uid x.gid i.raw)

/-- The same in Outrider code: the value modulo 2^64 goes to o(D), and the Outrider goes on past the word (06 R137). -/
def OlGives (s : State) (i : Instr) (d : Opnd) (v : Outrider → Int) : Prop :=
  ∀ c, s.OlRuns c → exec i s =
    .next (s.onOutrider c fun _ => olAdvance i.raw (olSet (s.core c).outrider d (BitVec.ofInt 64 (v (s.core c).outrider))))

/-- Instruction or event `i` completes from here, in a state of which `P` holds. -/
def State.Runs (s : State) (i : Instr) (P : State → Prop) : Prop := ∃ t, exec i s = .next t ∧ P t

/-- Opcodes with bit 5 set in group 0xE are privileged (02 R40). -/
def privileged (i : Instr) : Bool := i.raw.op / 64 == 14 && bit i.raw.op 5

/-- The D of a form with a fixed-latency register result (04, 05, 06 R137's group aside). -/
def regDst : Instr → Option Opnd
  | .iadd _ _ d _ _ _ | .isub _ _ d _ _ _ | .imul _ _ d _ _ _ _ | .imulhi _ _ d _ _ | .imad _ _ d _ _ _ _ _ | .imin _ _ d _ _
  | .imax _ _ d _ _ | .iabs _ _ d _ _ | .ineg _ _ d _ _ | .isad _ _ d _ _ _ _ | .mov _ _ d _ | .sel _ _ d _ _ _ _
  | .and _ _ d _ _ | .or _ _ d _ _ | .xor _ _ d _ _ | .not _ _ d _ | .shl _ _ d _ _ _ | .shr _ _ d _ _ _ | .sar _ _ d _ _ _
  | .rotl _ _ d _ _ | .popc _ _ d _ | .clz _ _ d _ | .brev _ _ d _ | .bfe _ _ d _ _ | .bfi _ _ d _ _ _ | .lea _ _ d _ _ _
  | .lop3 _ _ d _ _ _ _ | .ppop _ _ _ d | .fadd _ _ d _ _ _ | .fsub _ _ d _ _ _ | .fmul _ _ d _ _ _ | .ffma _ _ d _ _ _ _
  | .fmin _ _ d _ _ _ | .fmax _ _ d _ _ _ | .faddF64 _ _ d _ _ _ | .fsubF64 _ _ d _ _ _ | .fmulF64 _ _ d _ _ _
  | .ffmaF64 _ _ d _ _ _ _ | .fminF64 _ _ d _ _ _ | .fmaxF64 _ _ d _ _ _ | .cvt _ d _ _ | .dot2 _ d _ _ _ _ | .dot4 _ d _ _ _ _
  | .padd _ d _ _ _ | .pmax _ d _ _ _ | .pmin _ d _ _ _ | .pack _ d _ _ _ | .unpack _ d _ _ | .vote _ d _ _ _ _ _
  | .shfl _ _ d _ _ _ _ | .bcast _ _ d _ _ | .scan _ _ d _ _ _ _ | .fold _ _ d _ _ _ => some d
  | .cmp _ _ _ _ _ p | .fcmp _ _ _ _ _ p => some p.d
  | .ppush _ _ | .pmov _ _ _ | .pset _ _ _ | .plop _ _ _ _ _ | .seed _ _ _ => some (.v 0)
  | _ => none

/-- Forms that change `$pred` of the fibres they take effect on, D aside. -/
def changesPred : Instr → Bool
  | .iadd _ _ _ _ _ m | .isub _ _ _ _ _ m => m.cin || m.cout
  | .cmp _ _ _ _ _ p | .fcmp _ _ _ _ _ p => !p.set
  | .ppush _ _ | .ppop _ _ _ _ | .pmov _ _ _ | .pset _ _ _ | .plop _ _ _ _ _ | .shfl _ _ _ _ _ _ _ => true
  | .pmax _ _ _ _ m | .pmin _ _ _ _ m => m.elem == 1
  | _ => false

/-- Forms that draw from or seed `$srs` (05 R105, R106). -/
def changesSrs : Instr → Bool
  | .cvt _ _ _ m | .pack _ _ _ _ m => m.rnd == .sr
  | .seed _ _ _ => true
  | _ => false

/-- The destination registers of an instruction: what D names, and how many. -/
def dstRegs (i : Instr) : List (Opnd × Nat) :=
  (i.uses.filter fun u => u.fld == .d).map fun u => (u.o, if u.kind == .quad then 4 else u.n)

/-! ### What two states have in common -/

/-- Everything but the parties, the lane registers, contexts, performance counters and the model's own counters is the same. -/
structure SameDevice (s t : State) : Prop where
  clock    : t.clock = s.clock
  mem      : t.mem = s.mem
  poison   : t.poison = s.poison
  failing  : t.failing = s.failing
  gens     : t.gens = s.gens
  dies     : t.dies = s.dies
  sys      : t.sys = s.sys
  live     : t.live = s.live
  requests : t.requests = s.requests
  cntReqs  : t.cntReqs = s.cntReqs
  ports    : t.ports = s.ports
  steward  : t.steward = s.steward
  sent     : t.sent = s.sent
  stamp    : t.stamp = s.stamp
  past     : t.past = s.past
  fences   : t.fences = s.fences
  cores    : ∀ c, { t.core c with pmcs := [] } = { s.core c with pmcs := [] }

/-- Two parties differ at most in their fibres, gangs, crews and route. -/
def SameParty (p q : Party) : Prop := { q with fibres := p.fibres, gangs := p.gangs, crews := p.crews, route := p.route } = p

/-- Every byte of memory reads the same. -/
def SameBytes (s t : State) : Prop := ∀ loc, t.byteAt loc = s.byteAt loc

end Sys2Proof.Machine
end

