-- ==== Sys2Proof/Certificates/Slice0/Obligations.lean ====
section
/-!
DEFINITION. The statements for the provers, in the order of the spec's chapters: what each instruction and event does, what it leaves alone, and
what holds of the machine as a whole.
-/

open Sys2Proof Sys2Proof.Machine

/-! ### Register forms: results (04, 05) -/

/-- 04 R78: sums and differences of the operands' values; the carry of the w-bit sum, or the borrow of the w-bit difference, is pushed under
`cout`, and a carry in is entry 0, popped. -/
def Obligations.SumsAndDifferences : Prop :=
  ∀ (s : State) (h : Head) (t : Ty) (d a : Opnd) (b : Src) (m : AddMod),
    Gives s (.iadd h t d a b m) d (fun x f =>
      let u := readU s x.p x.g f t (.op a)
      let v := readU s x.p x.g f t b
      let k := b2n (m.cin && f.predAt 0)
      { ws := dstWords t (if m.sat then satTo t (tyVal t u + tyVal t v + k) else tyVal t u + tyVal t v + k)
        pred := { pops := b2n m.cin, push := if m.cout then some (decide (2 ^ t.width ≤ u + v + k)) else none } }) ∧
    Gives s (.isub h t d a b m) d (fun x f =>
      let u := readU s x.p x.g f t (.op a)
      let v := readU s x.p x.g f t b
      let k := b2n (m.cin && f.predAt 0)
      { ws := dstWords t (if m.sat then satTo t (tyVal t u - tyVal t v - k) else tyVal t u - tyVal t v - k)
        pred := { pops := b2n m.cin, push := if m.cout then some (decide (u < v + k)) else none } })

/-- 04 R79, R80: products and quotients of the operands' values. `imulhi` takes the floor; `idiv` truncates, a division by zero gives all ones,
and the remainder by zero is the dividend; the last two are outstanding results. -/
def Obligations.ProductsAndQuotients : Prop :=
  ∀ (s : State) (h : Head) (t : Ty) (d a b c : Opnd) (y : Src) (sat wide : Bool),
    Gives s (.imul h t d a y sat wide) d (fun x f =>
      let r := readSrc s x.p x.g f t (.op a) * readSrc s x.p x.g f t y
      { ws := if wide then dstWords (if t.signed then .i64 else .n64) r else dstWords t (if sat then satTo t r else r) }) ∧
    Gives s (.imulhi h t d a y) d (fun x f =>
      { ws := dstWords t (readSrc s x.p x.g f t (.op a) * readSrc s x.p x.g f t y / 2 ^ t.width) }) ∧
    Gives s (.imad h t d a b c sat wide) d (fun x f =>
      let t' : Ty := if wide then (if t.signed then .i64 else .n64) else t
      let r := readSrc s x.p x.g f t (.op a) * readSrc s x.p x.g f t (.op b) + readSrc s x.p x.g f t' (.op c)
      { ws := dstWords t' (if sat then satTo t' r else r) }) ∧
    Owes s (.idiv h t d a y) d (fun x f =>
      let u := readSrc s x.p x.g f t (.op a)
      let v := readSrc s x.p x.g f t y
      dstWords t (if v = 0 then (if t.isI then -1 else 2 ^ t.width - 1) else u.tdiv v)) ∧
    Owes s (.irem h t d a y) d (fun x f =>
      let u := readSrc s x.p x.g f t (.op a)
      let v := readSrc s x.p x.g f t y
      dstWords t (if v = 0 then u else u.tmod v))

/-- 04 R81, R82: extremes, absolute value, negation, absolute difference, move and select. -/
def Obligations.ExtremesAndMoves : Prop :=
  ∀ (s : State) (h : Head) (t : Ty) (d a b c : Opnd) (y : Src) (sat neg : Bool) (k : Nat),
    Gives s (.imin h t d a y) d (fun x f => { ws := dstWords t (min (readSrc s x.p x.g f t (.op a)) (readSrc s x.p x.g f t y)) }) ∧
    Gives s (.imax h t d a y) d (fun x f => { ws := dstWords t (max (readSrc s x.p x.g f t (.op a)) (readSrc s x.p x.g f t y)) }) ∧
    Gives s (.iabs h t d a sat) d (fun x f =>
      let r : Int := (readSrc s x.p x.g f t (.op a)).natAbs
      { ws := dstWords t (if sat then satTo t r else r) }) ∧
    Gives s (.ineg h t d a sat) d (fun x f =>
      let r := -readSrc s x.p x.g f t (.op a)
      { ws := dstWords t (if sat then satTo t r else r) }) ∧
    Gives s (.isad h t d a b c sat) d (fun x f =>
      let r : Int := (readSrc s x.p x.g f t (.op a) - readSrc s x.p x.g f t (.op b)).natAbs + readSrc s x.p x.g f t (.op c)
      { ws := dstWords t (if sat then satTo t r else r) }) ∧
    Gives s (.mov h t d y) d (fun x f => { ws := dstWords t (readSrc s x.p x.g f t y) }) ∧
    Gives s (.sel h t d a y k neg) d (fun x f =>
      { ws := dstWords t (if f.predAt k != neg then readSrc s x.p x.g f t (.op a) else readSrc s x.p x.g f t y) })

/-- 04 R84, R88: bitwise forms on the w-bit patterns, the truth table of `lop3`, and the scaled address of `lea`. -/
def Obligations.LogicForms : Prop :=
  ∀ (s : State) (h : Head) (t : Ty) (d a b c : Opnd) (y : Src) (n : Nat),
    Gives s (.and h t d a y) d (fun x f => { ws := dstWords t ((readU s x.p x.g f t (.op a) &&& readU s x.p x.g f t y : Nat) : Int) }) ∧
    Gives s (.or h t d a y) d (fun x f => { ws := dstWords t ((readU s x.p x.g f t (.op a) ||| readU s x.p x.g f t y : Nat) : Int) }) ∧
    Gives s (.xor h t d a y) d (fun x f => { ws := dstWords t ((readU s x.p x.g f t (.op a) ^^^ readU s x.p x.g f t y : Nat) : Int) }) ∧
    Gives s (.not h t d a) d (fun x f => { ws := dstWords t ((2 ^ t.width - 1 - readU s x.p x.g f t (.op a) : Nat) : Int) }) ∧
    Gives s (.lop3 h t d a b c n) d (fun x f =>
      { ws := dstWords t ((lop3Val t.width n (readU s x.p x.g f t (.op a)) (readU s x.p x.g f t (.op b)) (readU s x.p x.g f t (.op c)) : Nat) : Int) }) ∧
    Gives s (.lea h t d a y n) d (fun x f =>
      { ws := dstWords .b64 (readSrc s x.p x.g f .b64 (.op a) + readSrc s x.p x.g f t y * 2 ^ n) })

/-- 04 R85: shifts by a 32-bit amount, taken modulo w under `wrap`; an amount of w or more gives 0, or all copies of the sign for `sar`. -/
def Obligations.ShiftForms : Prop :=
  ∀ (s : State) (h : Head) (t : Ty) (d a : Opnd) (y : Src) (wrap : Bool),
    let amount := fun (x : Turn) (f : Fibre) => if wrap then read32 s x.p x.g f y % t.width else read32 s x.p x.g f y
    Gives s (.shl h t d a y wrap) d (fun x f =>
      { ws := dstWords t ((if t.width ≤ amount x f then 0 else readU s x.p x.g f t (.op a) * 2 ^ amount x f % 2 ^ t.width : Nat) : Int) }) ∧
    Gives s (.shr h t d a y wrap) d (fun x f =>
      { ws := dstWords t ((if t.width ≤ amount x f then 0 else readU s x.p x.g f t (.op a) / 2 ^ amount x f : Nat) : Int) }) ∧
    Gives s (.sar h t d a y wrap) d (fun x f =>
      let u := readU s x.p x.g f t (.op a)
      { ws := dstWords t ((if 2 ^ (t.width - 1) ≤ u then (u : Int) - 2 ^ t.width else u) / 2 ^ min (amount x f) (t.width - 1)) }) ∧
    Gives s (.rotl h t d a y) d (fun x f =>
      let u := readU s x.p x.g f t (.op a)
      let n := read32 s x.p x.g f y % t.width
      { ws := dstWords t (((u * 2 ^ n + u / 2 ^ (t.width - n)) % 2 ^ t.width : Nat) : Int) })

/-- 04 R86, R87: counts, reversal and bit fields. -/
def Obligations.BitFieldForms : Prop :=
  ∀ (s : State) (h : Head) (t : Ty) (d a b : Opnd) (fl : BitField),
    let at_ := fun (x : Turn) (f : Fibre) => fieldOf t.width (fun o => read32 s x.p x.g f (.op o)) fl
    Gives s (.popc h t d a) d (fun x f => { ws := dstWords .n32 ((popcVal t.width (readU s x.p x.g f t (.op a)) : Nat) : Int) }) ∧
    Gives s (.clz h t d a) d (fun x f => { ws := dstWords .n32 ((clzVal (readU s x.p x.g f t (.op a)) t.width : Nat) : Int) }) ∧
    Gives s (.brev h t d a) d (fun x f => { ws := dstWords t ((brevVal t.width (readU s x.p x.g f t (.op a)) : Nat) : Int) }) ∧
    Gives s (.bfe h t d a fl) d (fun x f => { ws := dstWords t (bfeVal t (readU s x.p x.g f t (.op a)) (at_ x f).1 (at_ x f).2) }) ∧
    Gives s (.bfi h t d a b fl) d (fun x f =>
      { ws := dstWords t ((bfiVal t.width (readU s x.p x.g f t (.op a)) (readU s x.p x.g f t (.op b)) (at_ x f).1 (at_ x f).2 : Nat) : Int) })

/-- 04 R84, R86, R87, R91: bit by bit. Bit k of the value of `lop3` is the entry of the table that the bits k of A, B and C select; `brev` reverses
the w bits; `bfi` puts the field's bits from its position on and keeps the others; `clz` counts the zeros above the highest one. A push moves every
predicate entry up by one and puts the value at entry 0, a pop moves every entry down, and setting an entry moves none. -/
def Obligations.BitValues : Prop :=
  (∀ w tt a b c k, k < w → bit (lop3Val w tt a b c) k = bit tt (4 * b2n (bit a k) + 2 * b2n (bit b k) + b2n (bit c k))) ∧
  (∀ w u k, k < w → bit (brevVal w u) k = bit u (w - 1 - k)) ∧
  (∀ w a v pos len k, k < w → bit (bfiVal w a v pos len) k = if pos ≤ k ∧ k < pos + len then bit v (k - pos) else bit a k) ∧
  (∀ u w, u < 2 ^ w → u < 2 ^ (w - clzVal u w) ∧ (clzVal u w < w → bit u (w - 1 - clzVal u w) = true)) ∧
  ∀ (p : BitVec 16) (v : Bool) (k j : Nat),
    (pushPred p v).getLsbD 0 = v ∧
    (k < 15 → (pushPred p v).getLsbD (k + 1) = p.getLsbD k) ∧
    (popPred p).getLsbD k = p.getLsbD (k + 1) ∧
    (k < 16 → (setEntry p k v).getLsbD j = if j = k then v else p.getLsbD j)

/-- 04 R89 to R91: where comparisons put their result, and the predicate forms. -/
def Obligations.PredicateForms : Prop :=
  ∀ (s : State) (h : Head) (t : Ty) (d a : Opnd) (y : Src) (cond : Cond) (p : CmpDst) (i j k n : Nat) (neg set : Bool),
    let place := fun (f : Fibre) (r : Bool) =>
      if p.set then ({ ws := [if r then 1 else 0] } : Effect)
      else if p.comb = 0 then { pred := { push := some r } }
      else if p.comb = 1 then { pred := { entry := some (0, f.predAt 0 && r) } }
      else { pred := { entry := some (0, f.predAt 0 || r) } }
    Gives s (.cmp h t a y cond p) p.d (fun x f => place f (intCompare cond (readSrc s x.p x.g f t (.op a)) (readSrc s x.p x.g f t y))) ∧
    Gives s (.fcmp h t a y cond p) p.d (fun x f =>
      place f (floatCompare cond (fopnd s x f t (.op a) false false) (fopnd s x f t y false false))) ∧
    Gives s (.ppush h a) (.v 0) (fun x f => { pred := { push := some (bit (read32 s x.p x.g f (.op a)) 0) } }) ∧
    Gives s (.ppop h n set d) d (fun _ f =>
      { ws := if set then dstWords .n32 ((f.pred.toNat % 2 ^ n : Nat) : Int) else [], pred := { pops := n } }) ∧
    Gives s (.pmov h k neg) (.v 0) (fun _ f => { pred := { push := some (f.predAt k != neg) } }) ∧
    Gives s (.pset h k a) (.v 0) (fun x f => { pred := { entry := some (k, bit (read32 s x.p x.g f (.op a)) 0) } }) ∧
    Gives s (.plop h i j n set) (.v 0) (fun _ f =>
      let r := bit n (2 * b2n (f.predAt i) + b2n (f.predAt j))
      { pred := if set then { entry := some (0, r) } else { push := some r } })

/-- 05 R111 to R113: sums, products, extremes, quotients and roots of the exact operand values, rounded once and saturated once, in groups 0x3
and 0x4; those of R113 are outstanding. -/
def Obligations.FloatForms : Prop :=
  ∀ (s : State) (h : Head) (t : Ty) (d a b c : Opnd) (y : Src) (m : FMod),
    let once := fun (v : XVal) =>
      let r := (fmtOf t).round m.rnd false v
      codeWords t (if m.sat then satUnit (fmtOf t) r else r)
    let va := fun (x : Turn) (f : Fibre) => fopnd s x f t (.op a) m.aa m.na
    let vy := fun (x : Turn) (f : Fibre) => fopnd s x f t y m.ab m.nb
    let vb := fun (x : Turn) (f : Fibre) => fopnd s x f t (.op b) m.ab m.nb
    let vc := fun (x : Turn) (f : Fibre) => fopnd s x f t (.op c) false m.nc
    Gives s (.fadd h t d a y m) d (fun x f => { ws := once (xadd m.rnd (va x f) (vy x f)) }) ∧
    Gives s (.fsub h t d a y m) d (fun x f => { ws := once (xadd m.rnd (va x f) (vy x f).neg) }) ∧
    Gives s (.fmul h t d a y m) d (fun x f => { ws := once (xmul (va x f) (vy x f)) }) ∧
    Gives s (.ffma h t d a b c m) d (fun x f => { ws := once (xadd m.rnd (xmul (va x f) (vb x f)) (vc x f)) }) ∧
    Gives s (.fmin h t d a y m) d (fun x f => { ws := once (xminmax true (va x f) (vy x f)) }) ∧
    Gives s (.fmax h t d a y m) d (fun x f => { ws := once (xminmax false (va x f) (vy x f)) }) ∧
    Owes s (.fdiv h t d a y m) d (fun x f => once (xdiv (va x f) (vy x f))) ∧
    Owes s (.frcp h t d a m) d (fun x f => once (xdiv (.ofInt 1) (va x f))) ∧
    Owes s (.frsq h t d a m) d (fun x f => once (xrsqrt (va x f))) ∧
    Owes s (.fsqrt h t d a m) d (fun x f => once (xsqrt (va x f))) ∧
    Gives s (.faddF64 h t d a b m) d (fun x f => { ws := once (xadd m.rnd (va x f) (vb x f)) }) ∧
    Gives s (.fsubF64 h t d a b m) d (fun x f => { ws := once (xadd m.rnd (va x f) (vb x f).neg) }) ∧
    Gives s (.fmulF64 h t d a b m) d (fun x f => { ws := once (xmul (va x f) (vb x f)) }) ∧
    Gives s (.ffmaF64 h t d a b c m) d (fun x f => { ws := once (xadd m.rnd (xmul (va x f) (vb x f)) (vc x f)) }) ∧
    Gives s (.fminF64 h t d a b m) d (fun x f => { ws := once (xminmax true (va x f) (vb x f)) }) ∧
    Gives s (.fmaxF64 h t d a b m) d (fun x f => { ws := once (xminmax false (va x f) (vb x f)) }) ∧
    Owes s (.fdivF64 h t d a b m) d (fun x f => once (xdiv (va x f) (vb x f))) ∧
    Owes s (.frcpF64 h t d a m) d (fun x f => once (xdiv (.ofInt 1) (va x f))) ∧
    Owes s (.frsqF64 h t d a m) d (fun x f => once (xrsqrt (va x f))) ∧
    Owes s (.fsqrtF64 h t d a m) d (fun x f => once (xsqrt (va x f)))

/-- 05 R114: `fexp2`, `flog2`, `fsin` and `fcos` complete; D is owed, on every fibre, one of the results R114 allows for the exact value, whichever
one the device gives (a free choice, log 7). -/
def Obligations.ElementaryForms : Prop :=
  ∀ (s : State) (h : Head) (t : Ty) (d a : Opnd) (m : FMod) (x : Turn),
    let forms : List (Instr × (XVal → Approx)) :=
      [(.fexp2 h t d a m, fun v => .near (xexp2 v)), (.flog2 h t d a m, fun v => .near (xlog2 v)),
       (.fsin h t d a m, approxSin), (.fcos h t d a m, approxCos)]
    ∀ e ∈ forms, s.Clear e.1 x →
      ∃ pick : Fibre → Nat, exec e.1 s = .next { (s.oweAll e.1 x d fun f =>
          let r := (fmtOf t).choose (e.2 (fopnd s x f t (.op a) m.aa m.na)) (pick f)
          codeWords t (if m.sat then satUnit (fmtOf t) r else r)).advance x.uid x.gid e.1.raw with draws := s.draws + 32 }

/-- 05 R116 to R119, R106: conversions, packed arithmetic and dot products, and the seed of the rounding generator. -/
def Obligations.ConversionForms : Prop :=
  ∀ (s : State) (h : Head) (d a b c : Opnd) (y : Src) (m : CvtMod) (mix : Bool),
    let pa := fun (x : Turn) (f : Fibre) (t : Ty) => readPacked s x f t (.op a)
    let py := fun (x : Turn) (f : Fibre) => readPacked s x f m.dt y
    let dec := fun (isMin : Bool) (x : Turn) (f : Fibre) (k : Nat) => pminHalf isMin m.dt (elemAt m.dt (pa x f m.dt) k) (elemAt m.dt (py x f) k)
    let ext := fun (isMin : Bool) (x : Turn) (f : Fibre) =>
      ({ ws := [w32 ((dec isMin x f 0).1 + 2 ^ 16 * (dec isMin x f 1).1)], late := true
         pred := if m.elem = 1 then { first := some (dec isMin x f 0).2, push := some (dec isMin x f 1).2 } else {} } : Effect)
    Gives s (.cvt h d a m) d (fun x f => cvtEffect m (readCode s x f m.st a) f.srs) ∧
    Gives s (.dot2 h d a b c m) d (fun x f => { ws := dotWords 2 m (pa x f m.st) (readPacked s x f m.st (.op b)) (readCode s x f m.dt c) }) ∧
    Gives s (.dot4 h d a b c m) d (fun x f => { ws := dotWords 4 m (pa x f m.st) (readPacked s x f m.st (.op b)) (readCode s x f m.dt c) }) ∧
    Gives s (.padd h d a y m) d (fun x f =>
      { ws := [w32 (paddHalf m (elemAt m.dt (pa x f m.dt) 0) (elemAt m.dt (py x f) 0) +
          2 ^ 16 * paddHalf m (elemAt m.dt (pa x f m.dt) 1) (elemAt m.dt (py x f) 1))] }) ∧
    Gives s (.pmax h d a y m) d (ext false) ∧
    Gives s (.pmin h d a y m) d (ext true) ∧
    Gives s (.pack h d a b m) d (fun x f =>
      packEffect m (read32 s x.p x.g f (.op d)) (readF s x.p x.g f .f32 (.op a)) (readF s x.p x.g f .f32 (.op b)) f.srs) ∧
    Gives s (.unpack h d a m) d (fun x f =>
      let e := elemAt m.st (pa x f m.st) m.elem
      { ws := if m.dt.isInt then dstWords m.dt (tyVal m.st e) else codeWords .f32 (fmtF32.round .rne false ((fmtOf m.st).value e)) }) ∧
    Gives s (.seed h y mix) (.v 0) (fun x f =>
      let v := w32 (read32 s x.p x.g f y)
      let v := if mix then v ^^^ w32 ((x.p.core.die * 131072 + x.p.core.core * 2048 + f.fid) * 0x9E3779B1) else v
      { srs := some (if v = 0 then 1 else v) })

/-- 04 R92 to R97: what each participant contributes and what D receives in the cross-fibre forms. -/
def Obligations.CrossFibreForms : Prop :=
  ∀ (s : State) (h : Head) (t : Ty) (d a : Opnd) (y : Src) (mode : VoteMode) (sm : ShflMode) (op : ScanOp) (k seg : Nat) (neg psrc last excl sat : Bool),
    Gives s (.vote h d a mode psrc k neg) d (fun x _ =>
      let ps := x.ms.filter (·.exec)
      let val := fun (f : Fibre) => if psrc then f.predAt k != neg else bit (read32 s x.p x.g f (.op a)) 0
      { ws := match mode with
          | .ballot => cfidWords (ps.filter val)
          | .member => cfidWords ps
          | .any => [if ps.any val then 1 else 0]
          | .all => [if ps.all val then 1 else 0] }) ∧
    Gives s (.shfl h t d a y sm seg) d (fun x f =>
      let ps := participants (.shfl h t d a y sm seg) x.ms
      let from_ := shflSource sm seg (x.g.slotOf f.fid) (read32 s x.p x.g f y)
      let src := if from_.2 && ps.contains f then (x.ms[from_.1]?).filter ps.contains else none
      { ws := dstWords t (readSrc s x.p x.g (src.getD f) t (.op a)), pred := { push := some src.isSome }, late := true }) ∧
    Gives s (.bcast h t d a last) d (fun x f =>
      let ps := participants (.bcast h t d a last) x.ms
      { ws := dstWords t (readSrc s x.p x.g ((if last then ps.getLast? else ps.head?).getD f) t (.op a)) }) ∧
    Gives s (.scan h t d a op excl sat) d (fun x f =>
      { ws := codeWords t (scanUpTo op t sat excl (fun j => scanVal s x t a j) f (participants (.scan h t d a op excl sat) x.ms) (scanIdent op t)) }) ∧
    Gives s (.fold h t d a op sat) d (fun x _ =>
      { ws := codeWords t ((participants (.fold h t d a op sat) x.ms).foldl (fun acc j => scanCombine op t sat acc (scanVal s x t a j)) (scanIdent op t)) })

/-! ### Register forms: where results go, and what they leave alone -/

/-- 04 R72, 03 R57: words written to consecutive v registers of a fibre read back in that order, and words written to consecutive s registers of a
gang likewise, every other s register unchanged. -/
def Obligations.ResultsReadBack : Prop :=
  (∀ (s : State) (uid n : Nat) (p : Party) (f : Fibre) (ws : List Word),
    swf 0 s.regs = true → s.party? uid = some p → f.blocks.Nodup → n + ws.length ≤ 64 * f.blocks.length →
    ∀ j, j < ws.length → (s.writeFibre uid f (.v n) ws).vreg p f (n + j) = ws.getD j 0) ∧
  (∀ (l ws : List Word) (n : Nat), n + ws.length ≤ l.length →
    (setSregs l n ws).length = l.length ∧
    ∀ j, (setSregs l n ws).getD j 0 = if n ≤ j ∧ j < n + ws.length then ws.getD (j - n) 0 else l.getD j 0)

/-- 03 R51 to R53, 04 R72, R73, R76: a register form that issues changes the v registers its D names on the fibres it takes effect on, or the s
registers or the special register its D names; `$pred` and `$srs` of the fibres it takes effect on where the form says so; and the fibres' `$pc`.
Every byte of memory, every other register and the rest of the device are as before. -/
def Obligations.RegisterFormFrame : Prop :=
  ∀ (s t : State) (i : Instr) (d : Opnd) (x : Turn),
    i.wf = true → regDst i = some d → s.Clear i x → swf 0 s.regs = true → exec i s = .next t →
    let fs := if i.gangWide then x.ms else takeEffect i.head x.ms
    SameDevice s t ∧ SameBytes s t ∧ t.flight = s.flight ∧ (d ≠ .special .emu → t.tables = s.tables) ∧
    (∀ key, (∀ f ∈ fs, ∀ n k j b, (Opnd.v n, k) ∈ dstRegs i → j < k → f.blocks[(n + j) / 64]? = some b →
        key ≠ regKey (x.p.laneOf f.crew) b ((n + j) % 64)) → sget 0 t.regs key = sget 0 s.regs key) ∧
    (∀ uid, uid ≠ x.uid → t.party? uid = s.party? uid) ∧
    ∃ q, t.party? x.uid = some q ∧ SameParty x.p q ∧
      (d ≠ .special .route → q.route = x.p.route) ∧
      (d ≠ .special .gstat → d ≠ .special .prio → q.crews = x.p.crews) ∧
      (d ≠ .special .prio → ∀ gid, gid ≠ x.gid → q.gang? gid = x.p.gang? gid) ∧
      (∃ g, q.gang? x.gid = some g ∧ g.level = x.g.level ∧ g.emu = x.g.emu ∧ g.fibres = x.g.fibres ∧ g.number = x.g.number ∧
        g.slog = x.g.slog ∧ g.sepc = x.g.sepc ∧ g.ssave = x.g.ssave ∧
        ∀ j, (∀ n k, (Opnd.s n, k) ∈ dstRegs i → j < n ∨ n + k ≤ j) → g.sregs.getD j 0 = x.g.sregs.getD j 0) ∧
      ∀ fid f, x.p.fibre? fid = some f → ∃ f', q.fibre? fid = some f' ∧
        { f' with pc := f.pc, pred := f.pred, exec := f.exec, srs := f.srs } = f ∧
        f'.pc = (if fid ∈ x.g.fibres then nextPc x.pc i.raw else f.pc) ∧
        (d ≠ .special .exec → f'.exec = f.exec) ∧
        (fid ∉ fs.map (·.fid) ∨ (changesPred i = false ∧ d ≠ .special .pred) → f'.pred = f.pred) ∧
        (fid ∉ fs.map (·.fid) ∨ changesSrs i = false → f'.srs = f.srs)

/-- 04 R80, 02 R34: an outstanding form that issues changes no register, whatever its D: the values it owes stand among the results in flight, one
for each fibre it takes effect on, or one for the gang (of a gang-wide `$exec` one for each fibre, which takes its bit, log 13); and everything else
but the gang's place is as before. -/
def Obligations.OwedFormFrame : Prop :=
  ∀ (s t : State) (h : Head) (ty : Ty) (d a b : Opnd) (y : Src) (m : FMod) (i : Instr) (x : Turn),
    i ∈ [.idiv h ty d a y, .irem h ty d a y, .fdiv h ty d a y m, .frcp h ty d a m, .frsq h ty d a m, .fsqrt h ty d a m,
      .fexp2 h ty d a m, .flog2 h ty d a m, .fsin h ty d a m, .fcos h ty d a m,
      .fdivF64 h ty d a b m, .frcpF64 h ty d a m, .frsqF64 h ty d a m, .fsqrtF64 h ty d a m] →
    s.Clear i x → exec i s = .next t →
    let fids : List (Option Nat) :=
      if i.gangWide then (if d = .special .exec then (supplier x.ms).elim [] (fun _ => x.ms.map fun f => some f.fid) else (supplier x.ms).toList.map fun _ => none)
      else (takeEffect h x.ms).map fun f => some f.fid
    SameDevice s t ∧ SameBytes s t ∧ t.regs = s.regs ∧ t.tables = s.tables ∧
    (∃ as, t.flight = s.flight ++ as ∧ as.map (·.fid) = fids ∧
      ∀ c ∈ as, c.uid = x.uid ∧ c.gid = x.gid ∧ c.pc = x.pc ∧ ∃ ws, c.op = .value ws ∧ c.stage = .done ws 0) ∧
    (∀ uid, uid ≠ x.uid → t.party? uid = s.party? uid) ∧
    ∃ q, t.party? x.uid = some q ∧ SameParty x.p q ∧ q.crews = x.p.crews ∧ q.route = x.p.route ∧
      (∀ gid, gid ≠ x.gid → q.gang? gid = x.p.gang? gid) ∧
      (∃ g, q.gang? x.gid = some g ∧ g.sregs = x.g.sregs ∧ g.level = x.g.level ∧ g.fibres = x.g.fibres ∧ g.number = x.g.number) ∧
      ∀ fid f, x.p.fibre? fid = some f → ∃ f', q.fibre? fid = some f' ∧ { f' with pc := f.pc } = f ∧
        f'.pc = if fid ∈ x.g.fibres then nextPc x.pc i.raw else f.pc

/-- 02 R34, 03 R58: a word that returns is written to the register it was issued for; a word for a register whose block has been released
since, so that its generation has advanced or the block lies free, is dropped and sets STALEDROP. -/
def Obligations.ReturnedWords : Prop :=
  ∀ (s : State) (a : Access) (r crew : Nat) (b : BlockRef) (w : Word),
    let held := s.genAt b.lane b.blk = b.gen ∧ (s.heldBlocks b.lane).contains b.blk = true
    (held → s.putWord a (.v b r crew) w = s.setReg b.lane b.blk r w) ∧
    (¬held → (s.putWord a (.v b r crew) w).regs = s.regs ∧
      ∀ p c, s.party? a.uid = some p → p.crew? crew = some c →
        ∃ q k, (s.putWord a (.v b r crew) w).party? a.uid = some q ∧ q.crew? crew = some k ∧ k.gstat = c.gstat ||| 4)

/-! ### Issue (02 R31, R34, 10 R222, 16 R354) -/

/-- 10 R222, 02 R34, R31: before any gang word has an effect, faults found earlier are taken, a W marker waits for the outstanding results, and a
register outside a window traps as BAD_OPERAND. A word that nobody issues is refused as such (the model's own refusal, log 2). -/
def Obligations.IssueHeldBack : Prop :=
  (∀ (s : State) (i : Instr), i.isWord = true → s.agent = .none → exec i s = .refused .noIssuer) ∧
  ∀ (s : State) (i : Instr) (x : Turn),
    i.isWord = true → i.outriderOnly = false → s.turnOf = some x → (x.g.level = true ∨ privileged i = false) →
    (s.mustTake i x = true → exec i s = .next (s.takePending x.uid x.gid x.pc)) ∧
    (s.mustTake i x = false → i.head.w = true → s.outstanding x.uid x.g = true → exec i s = .next (s.hold x.uid x.gid .marker)) ∧
    (s.mustTake i x = false → (i.head.w = true → s.outstanding x.uid x.g = false) → windowOk i x.ms = false →
      exec i s = .next (s.encodingTrap x.uid x.gid .badOperand i.raw))

/-- 02 R40, R41: a privileged word at level U has no effect of its own: it traps as PRIV. -/
def Obligations.PrivilegedAtU : Prop :=
  ∀ (s : State) (i : Instr) (x : Turn), i.isWord = true → privileged i = true → s.turnOf = some x → x.g.level = false →
    exec i s = .next (s.encodingTrap x.uid x.gid .priv i.raw)

/-! ### Control flow and fibre life (06, 03 R59, R60) -/

/-- 06 R121 to R123: uniform branches test one value of the gang; per-fibre ones go by the take-effect set. A target is `$pc` plus the offset, or a
register; one that is no multiple of 4 is BAD_TARGET, the log holding what each fibre computed; `call` gives its D the address after it. -/
def Obligations.Branches : Prop :=
  ∀ (s : State) (h : Head) (d a : Opnd) (tgt : BrTarget) (c : BrCond) (x : Turn),
    let rel : Word := match tgt with
      | .off o => x.pc + 4 * o.signExtend 32
      | .imm w => x.pc + w
    let reg := fun (f : Fibre) => w32 (read32 s x.p x.g f (.op a))
    let wide := fun (w : Word) => w.zeroExtend 64
    let forms : List (Instr × Option Opnd × (Fibre → Word)) :=
      [(.bra h tgt c, none, fun _ => rel), (.brx h a c, none, reg), (.call h d tgt c, some d, fun _ => rel), (.ret h a c, none, reg)]
    ∀ e ∈ forms, s.Clear e.1 x →
      let after := nextPc x.pc e.1.raw
      let fs := takeEffect h x.ms
      (c.u = true → ∀ f0, supplier x.ms = some f0 →
        let v := read32 s x.p x.g f0 (.op c.reg)
        let taken := c.cond = 0 ∨ (c.cond = 1 ∧ v ≠ 0) ∨ (2 ≤ c.cond ∧ v = 0)
        (¬taken → exec e.1 s = .next (s.advance x.uid x.gid e.1.raw)) ∧
        (taken → (e.2.2 f0).toNat % 4 ≠ 0 → exec e.1 s = .next (s.faultAt x.uid x.gid after
          (issueLog e.1.raw x.pc 0x04 0 0 0 .none (x.g.logged [wide (e.2.2 f0)] (wide (e.2.2 f0)))))) ∧
        (taken → (e.2.2 f0).toNat % 4 = 0 → exec e.1 s = .next (s.transfer
          (match e.2.1 with | some l => s.writeGang x.uid x.gid l [after] | none => s) x true fun _ => e.2.2 f0))) ∧
      (c.u = false → x.g.level = false →
        ((∃ f ∈ fs, (e.2.2 f).toNat % 4 ≠ 0) → exec e.1 s =
          .next (s.faultAt x.uid x.gid after (issueLog e.1.raw x.pc 0x04 0 0 (maskOf (fs.map fun f => x.g.slotOf f.fid)) .none
            (fs.map fun f => ⟨f.fid, [wide (e.2.2 f)], wide (e.2.2 f), []⟩)))) ∧
        ((∀ f ∈ fs, (e.2.2 f).toNat % 4 = 0) → exec e.1 s = .next (s.transfer
          (match e.2.1 with | some l => fs.foldl (fun r f => r.writeFibre x.uid f l [after]) s | none => s) x (!fs.isEmpty)
          fun f => if fs.contains f then e.2.2 f else after)))

/-- 06 R122, R124, 03 R54: a transfer puts each fibre of the gang at its own next address. Where these differ the gang splits: before that it takes the
faults found earlier, or waits for the results aimed at its s registers; then the side of its lowest `$cfid` keeps the gang with its number, and every
other side is a gang with a copy of the s registers and emulation fields. -/
def Obligations.TransferTargets : Prop :=
  ∀ (s s' : State) (x : Turn) (taken : Bool) (target : Fibre → Word),
    s.turnOf = some x → (x.ms.map (·.fid)).Nodup →
    let t := s.transfer s' x taken target
    let differ := ∃ f ∈ x.ms, target f ≠ target (x.ms.headD f)
    let ready := s.pendingFaults x.uid x.g = [] ∧ s.scalarPending x.uid x.g = false
    (differ → s.pendingFaults x.uid x.g ≠ [] → t = s.takePending x.uid x.gid x.pc) ∧
    (differ → s.pendingFaults x.uid x.g = [] → s.scalarPending x.uid x.g = true → t = s.hold x.uid x.gid .marker) ∧
    (¬differ ∨ ready → ∀ p, s'.party? x.uid = some p →
      (∀ f ∈ x.ms, ∀ f', p.fibre? f.fid = some f' →
        ∃ q f'', t.party? x.uid = some q ∧ q.fibre? f.fid = some f'' ∧ f''.pc = target f ∧ { f'' with pc := f'.pc } = f') ∧
      ∀ g, p.gang? x.gid = some g → g.fibres = x.ms.map (·.fid) → (∀ f ∈ x.ms, (p.fibre? f.fid).isSome = true) →
        let side := fun (f : Fibre) => (x.ms.filter fun h => decide (target h = target f)).map (·.fid)
        ∃ q, t.party? x.uid = some q ∧
          (∀ f, x.ms.head? = some f → ∃ k, q.gang? x.gid = some k ∧ k.number = g.number ∧ k.fibres = side f ∧ k.sregs = g.sregs) ∧
          ∀ f ∈ x.ms, ∃ k ∈ q.gangs, k.fibres = side f ∧ k.crew = g.crew ∧ k.sregs = g.sregs ∧ k.emu = g.emu)

/-- 02 R36, 06 R128, R129, R132, 03 R59, R60: what the forms that take fibres through their lives do when they complete. `meet` parks the fibres it takes
effect on with the address, the mask and the gang's scalars; `spawn` places one record per fibre; `xgrow` and `xshrink` change the windows. -/
def Obligations.FibreLife : Prop :=
  ∀ (s : State) (h : Head) (len : Len) (n tmo blk : Nat) (a : Opnd) (entry : Word) (x : Turn),
    let fs := takeEffect h x.ms
    (s.Clear (.nop h len) x → exec (.nop h len) s = .next (s.advance x.uid x.gid (Instr.nop h len).raw)) ∧
    (s.Clear (.exit h) x → x.g.level = false → ∃ t, exec (.exit h) s = .next t ∧
      ∀ q, t.party? x.uid = some q → ∀ f ∈ fs, q.fibre? f.fid = none) ∧
    (s.Clear (.meet h (.s n)) x → x.g.level = false → fs ≠ [] → s.pendingFaults x.uid x.g = [] → s.scalarPending x.uid x.g = false →
      let m : Meet := { addr := x.pc, mask := meetMask x.g (.s n), sregs := x.g.sregs, emu := x.g.emu }
      let s1 := fs.foldl (fun (r : State) f => r.onFibre x.uid f.fid fun f => { f with meet := some m, pc := x.pc })
        (s.advance x.uid x.gid (Instr.meet h (.s n)).raw)
      let s2 := (s1.onParty x.uid fun p => p.leave x.gid (fs.map (·.fid))).countParty x.uid 0x07 fs.length
      exec (.meet h (.s n)) s = .next ((s2.evaluateRelease x.uid x.g.crew).deadlocks x.uid x.g.crew)) ∧
    (s.Clear (.spawn h a entry tmo blk) x → x.g.level = false → x.g.wait = none → x.p.spawnBefore x.gid (x.pc + entry) none = false →
      s.overtaken (.bins x.uid) x.g.crew = false →
      ∀ s', s.placeRecords x (x.pc + entry) tmo (if blk = 0 then x.p.blocks else blk) a fs = ([], s') →
        exec (.spawn h a entry tmo blk) s = .next ((if 0 < fs.length then s'.serve (.bins x.uid) x.g.crew else s').advance x.uid x.gid
          (Instr.spawn h a entry tmo blk).raw)) ∧
    (s.Clear (.xgrow h) x → (∀ w ∈ s.growq, w.1 ≠ x.p.laneRef x.g.crew) →
      (fs.filter fun f => f.blocks.length < 5).length ≤ (s.freeBlocks (x.p.laneRef x.g.crew)).length →
      exec (.xgrow h) s = .next ((s.grow x.uid (x.p.laneRef x.g.crew) fs).advance x.uid x.gid (Instr.xgrow h).raw)) ∧
    (s.Clear (.xshrink h) x →
      exec (.xshrink h) s = .next ((s.shrink x.uid (x.p.laneRef x.g.crew) fs).advance x.uid x.gid (Instr.xshrink h).raw))

/-- 03 R57 to R60: `xgrow` gives a fibre whose window is not full the lowest free block of its lane, cleared, and pushes 1, and pushes 0 where the
window is full; `xshrink` takes the last block back, advancing its generation, and pushes 1, and pushes 0 on a window of one block. -/
def Obligations.WindowsGrowAndShrink : Prop :=
  ∀ (s : State) (uid : Nat) (l : LaneRef) (f : Fibre) (p : Party), s.party? uid = some p → p.fibre? f.fid = some f →
    (∃ q, (s.grow uid l [f]).party? uid = some q ∧ q.fibre? f.fid = some
      (if f.blocks.length < 5 then { f with blocks := f.blocks ++ [(s.freeBlocks l).headD 0], pred := pushPred f.pred true }
       else { f with pred := pushPred f.pred false })) ∧
    (f.blocks.length < 5 → ∀ r, r < 64 → (s.grow uid l [f]).regAt l ((s.freeBlocks l).headD 0) r = 0) ∧
    (∃ q, (s.shrink uid l [f]).party? uid = some q ∧ q.fibre? f.fid = some
      (if 1 < f.blocks.length then { f with blocks := f.blocks.dropLast, pred := pushPred f.pred true }
       else { f with pred := pushPred f.pred false })) ∧
    (1 < f.blocks.length → swf 0 s.gens = true → (s.shrink uid l [f]).genAt l (f.blocks.getLastD 0) = s.genAt l (f.blocks.getLastD 0) + 1)

/-- 06 R134 to R136, 12 R252, R253, R269, R271: `fetchw` queues its request, of which a party has four at most; `launch` to a queue that is not
enabled for it gives 2, and otherwise asks for the queue, behind what the store queues of its party's crews hold now, and waits for the answer; `rqpop`
takes the oldest record, and with none and no Outrider running it is told so. -/
def Obligations.QueueForms : Prop :=
  ∀ (s : State) (h : Head) (d a b : Opnd) (x : Turn) (f : Fibre), supplier x.ms = some f →
    (s.Clear (.fetchw h a) x →
      let off := uniform32 s x (.op a)
      off % 16 = 0 → off + 16 ≤ (x.p.segLim.getD 0 0).toNat → x.p.withdraw.length < 4 →
      exec (.fetchw h a) s =
        .next ((s.onParty x.uid fun p => { p with withdraw := p.withdraw ++ [off] }).advance x.uid x.gid (Instr.fetchw h a).raw)) ∧
    (s.Clear (.launch h d a b) x →
      let q := read32 s x.p x.g f (.op b)
      let known := (s.ctx? x.p.ctx).any fun c => decide (q < 16) && (c.queueAt q).en && !(c.queueAt q).mode
      (known = false → exec (.launch h d a b) s = .next ((s.fresh.2.owe x (.launch h d a b) s.fresh.1 none (s.destOf x.p f d 1) [2]).advance
        x.uid x.gid (Instr.launch h d a b).raw)) ∧
      (known = true →
        ∃ t id, exec (.launch h d a b) s = .next t ∧ (t.gang? x.uid x.gid).bind (·.wait) = some (.launch id) ∧ t.mem = s.mem ∧
          ∃ r acc, t.requests = s.requests ++ [r] ∧ t.flight = s.flight ++ [acc] ∧ r.id = id ∧ acc.id = id ∧ r.ctx = x.p.ctx ∧ r.q = q ∧
            r.addr = read64 s x.p x.g f (.op a) ∧ r.owed = (x.p.crews.flatMap fun c => c.storeq.flatten) ∧ acc.dest = s.destOf x.p f d 1)) ∧
    (s.Clear (.rqpop h d) x → x.p.rqBefore x.gid (match x.g.wait with | some (.rqpop n _) => n | _ => s.nextId) = false →
      ((∃ n k, x.g.wait = some (.rqpop n k)) ∨ s.overtaken (.records x.uid) x.g.crew = false) →
      (∀ r rs, x.p.records = r :: rs →
        ∃ t, exec (.rqpop h d) s = .next t ∧ (∀ q, t.party? x.uid = some q → q.records = rs) ∧
          ∃ c, t.flight = s.flight ++ [c] ∧ c.dest = s.destOf x.p f d 4 ∧ c.op = .value ((List.range 4).map fun k => w32 (r.toNat / 2 ^ (32 * k)))) ∧
      (x.p.records = [] → s.outriderRuns x.p = false →
        ∃ t, exec (.rqpop h d) s = .next t ∧ ∃ c, t.flight = s.flight ++ [c] ∧ c.dest = s.destOf x.p f d 4 ∧ c.op = .value [0, 0, 0, 0x80000000]))

/-! ### The Outrider (06 R137, R138) -/

/-- 06 R137: the integer forms in Outrider code, on 64-bit o registers modulo 2^64. -/
def Obligations.OutriderArithmetic : Prop :=
  ∀ (s : State) (h : Head) (t : Ty) (d a : Opnd) (y : Src) (m : AddMod) (sat wrap : Bool),
    let cut := fun (on : Bool) (v : Int) => if on then satTo t v else v
    let amount := fun (o : Outrider) => if wrap then (olRead o .n32 y).toNat % 2 ^ 32 % 64 else (olRead o .n32 y).toNat % 2 ^ 32
    OlGives s (.iadd h t d a y m) d (fun o => cut m.sat (olVal o t (.op a) + olVal o t y)) ∧
    OlGives s (.isub h t d a y m) d (fun o => cut m.sat (olVal o t (.op a) - olVal o t y)) ∧
    OlGives s (.imul h t d a y sat false) d (fun o => cut sat (olVal o t (.op a) * olVal o t y)) ∧
    OlGives s (.mov h t d y) d (fun o => olVal o t y) ∧
    OlGives s (.and h t d a y) d (fun o => ((olRead o t (.op a) &&& olRead o t y).toNat : Int)) ∧
    OlGives s (.or h t d a y) d (fun o => ((olRead o t (.op a) ||| olRead o t y).toNat : Int)) ∧
    OlGives s (.shl h t d a y wrap) d (fun o => (if 64 ≤ amount o then 0 else (olRead o t (.op a)).toNat * 2 ^ amount o % 2 ^ 64 : Nat)) ∧
    OlGives s (.shr h t d a y wrap) d (fun o => (if 64 ≤ amount o then 0 else (olRead o t (.op a)).toNat / 2 ^ amount o : Nat))

/-- 06 R137, R138: the Outrider's control forms. `olfor` with a count of zero leaves for its exit, with a full stack of four loops it stops on
LOOP_DEPTH, and else it pushes a loop whose index starts at 0; `olnext` counts up and goes round below the count; `olpermit` takes 1 up to the
depth of its queue and stops on any other value. -/
def Obligations.OutriderControl : Prop :=
  ∀ (s : State) (c : CoreRef) (h : Head) (len : Len) (tgt : BrTarget) (br : BrCond) (n : Nat) (a : Opnd) (y : Src) (ex : Word) (q : PostQ), s.OlRuns c →
    let o := (s.core c).outrider
    let next := nextPc o.opc
    let put := fun (o' : Outrider) => Host.Outcome.next (φ := Fault) (ρ := Refusal) (s.onOutrider c fun _ => o')
    (exec (.nop h len) s = put { o with opc := next (Instr.nop h len).raw, waiting := false }) ∧
    (exec (.exit h) s = put { o with running := false, loops := [], waiting := false }) ∧
    (let v := olRead o .n64 (.op br.reg)
     let taken := br.cond = 0 ∨ (br.cond = 1 ∧ v ≠ 0) ∨ (2 ≤ br.cond ∧ v = 0)
     (taken → exec (.bra h tgt br) s = put { o with opc := (match tgt with | .off w => o.opc + 4 * w.signExtend 32 | .imm w => o.opc + w) }) ∧
     (¬taken → exec (.bra h tgt br) s = put { o with opc := next (Instr.bra h tgt br).raw, waiting := false })) ∧
    (let k := olRead o .n64 (.op a)
     let i := Instr.olfor h (.v n) a ex
     (k = 0 → exec i s = put { o with opc := o.opc + ex }) ∧
     (k ≠ 0 → 4 ≤ o.loops.length → exec i s = .next (s.olFault c .loopDepth)) ∧
     (k ≠ 0 → o.loops.length < 4 → exec i s = put { o with
        o := o.o.set n 0, loops := { idx := n, count := k, body := next i.raw, exit := o.opc + ex } :: o.loops, opc := next i.raw })) ∧
    ((o.loops = [] → exec (.olnext h) s = .next (s.olFault c .loopEmpty)) ∧
     ∀ l ls, o.loops = l :: ls →
       let v := o.o.getD l.idx 0 + 1
       (v < l.count → exec (.olnext h) s = put { o with o := o.o.set l.idx v, opc := l.body }) ∧
       (l.count ≤ v → exec (.olnext h) s = put { o with o := o.o.set l.idx v, loops := ls, opc := next (Instr.olnext h).raw })) ∧
    (let v := (olRead o .n64 y).toNat
     let i := Instr.olpermit h q y
     let go := { o with opc := next i.raw, waiting := false }
     (v = 0 ∨ PostQ.depth q < v → exec i s = .next (s.olFault c .badPermit)) ∧
     (1 ≤ v → v ≤ PostQ.depth q → exec i s = put (match q with
        | .mill => { go with mill := { o.mill with limit := v } }
        | .port => { go with port := { o.port with limit := v } }
        | .record => { go with recs := { o.recs with limit := v } }
        | .bad => go)))

/-! ### Memory (08, 09, 10) -/

/-- 00 R6, 08 R170, R187: a write changes exactly its bytes, lowest address first, and so does clearing, which leaves zeros; both keep the canonical form.
A write that covers a 64-byte unit clears its poison, and changes the poison of no other. -/
def Obligations.MemoryWrites : Prop :=
  ∀ (s : State) (src : Issuer) (v : View) (rels : List Release) (sc : Option Scope) (loc len u : Nat) (bs : List Byte),
    Memory.wf s.mem = true →
    Memory.wf (s.write src v rels sc loc bs).mem = true ∧ Memory.wf (s.poke loc bs).mem = true ∧ Memory.wf (s.clearRange loc len).mem = true ∧
    (s.write src v rels sc loc bs).poisonAt (64 * u) = (s.poisonAt (64 * u) && !decide (loc ≤ 64 * u ∧ 64 * u + 64 ≤ loc + bs.length)) ∧
    ∀ a, (s.write src v rels sc loc bs).byteAt a = (if loc ≤ a ∧ a < loc + bs.length then bs.getD (a - loc) 0 else s.byteAt a) ∧
      (s.poke loc bs).byteAt a = (if loc ≤ a ∧ a < loc + bs.length then bs.getD (a - loc) 0 else s.byteAt a) ∧
      (s.clearRange loc len).byteAt a = (if loc ≤ a ∧ a < loc + len then 0 else s.byteAt a)

/-- 10 R209 to R213, R215, R216, R220: loads, stores and atomics check every fibre's access before any departs; one that fails a check is a precise
fault, and otherwise, with nothing to wait for, the accesses go on their way and the gang goes on: a release waits in its store queue, not here. -/
def Obligations.MemoryForms : Prop :=
  ∀ (s : State) (h : Head) (d a b c : Opnd) (m : MemMod) (e : MemExt) (off : Word) (se : Bool) (sd : Opnd) (x : Turn),
    let disp : Int := match e with | .short => 0 | .imm w => w.toInt | .wide w _ _ => w.toInt
    let addr := fun (k : Int) (f : Fibre) => if m.sp = .g then ((read64 s x.p x.g f (.op a)).toInt + k) % 2 ^ 64 else (read32 s x.p x.g f (.op a) : Int) + k
    let n := vecCount m.vec
    let w := if m.ty.is64 then 2 else 1
    let stat := fun (f : Fibre) => s.sdOf x f (MemSd e)
    let ra := fun (f : Fibre) => rawOpnd s x.p x.g f (m.sp == .g) a
    let rv := fun (o : Opnd) (f : Fibre) => rawOpnd s x.p x.g f m.ty.is64 o
    let base : MemReq :=
      { sp := m.sp, size := m.ty.width / 8, wr := true, strict := true, ord := m.ord, scope := m.scope, se := (MemSd e).isSome,
        addr := addr disp, op := fun _ => .load m.ty n, sd := stat }
    let forms : List (Instr × MemReq) :=
      [(.ld h d a m e, { base with size := m.ty.width / 8 * n, wr := false, strict := m.ord != .relaxed, dest := fun f => s.destOf x.p f d (n * w),
                                   srcs := fun f => [ra f] }),
       (.st h a b m e, { base with size := m.ty.width / 8 * n, strict := m.ord != .relaxed, op := fun f => .store (s.dataBytes x f m.ty n b),
                                   srcs := fun f => [ra f, rv b f] }),
       (.atom h d a b m e, { base with op := fun f => .atom (MemMod.aop m) m.ty (atomOperand s x f m.ty b),
                                       dest := fun f => if m.nr then [] else s.destOf x.p f d w, srcs := fun f => [ra f, rv b f] }),
       (.atomcas h d a b c m off se sd,
         { base with se := se, addr := addr off.toInt, sd := fun f => if se then s.sdOf x f (some sd) else none,
                     op := fun f => .cas m.ty (w64 (readU s x.p x.g f m.ty (.op b))) (w64 (readU s x.p x.g f m.ty (.op c))),
                     dest := fun f => s.destOf x.p f d w, srcs := fun f => [ra f, rv b f, rv c f] })]
    ∀ r ∈ forms, s.Clear r.1 x → performers r.1 x ≠ [] →
      let plan := s.memPlan r.1 x r.2
      let bad := worstCheck plan.1
      (bad ≠ 0 → exec r.1 s = .next (plan.2.faultAt x.uid x.gid (nextPc x.pc r.1.raw) (checkLog r.1 x bad plan.1))) ∧
      (bad = 0 → s.memWait x (plan.1.map (·.2)) m.ord = .go →
        exec r.1 s = .next ((plan.2.memGo r.1 x r.2 (plan.1.map (·.2))).advance x.uid x.gid r.1.raw)) ∧
      (bad = 0 → s.memWait x (plan.1.map (·.2)) m.ord = .wait → exec r.1 s = .next (s.holdAgain x.uid x.gid)) ∧
      (bad = 0 → s.memWait x (plan.1.map (·.2)) m.ord = .fault → exec r.1 s = .next (s.takePending x.uid x.gid x.pc))

/-- 10 R213, 12 R267: a load, store or atomic that departs has written no byte of memory and no lane register yet: it does so when it is
performed or returns. -/
def Obligations.DepartingAccessFrame : Prop :=
  ∀ (s : State) (i : Instr) (x : Turn) (q : MemReq),
    let plan := s.memPlan i x q
    let t := (plan.2.memGo i x q (plan.1.map (·.2))).advance x.uid x.gid i.raw
    SameBytes s t ∧ t.mem = s.mem ∧ t.poison = s.poison ∧ t.regs = s.regs ∧ t.gens = s.gens ∧ t.sys = s.sys ∧ t.dies = s.dies ∧ t.live = s.live ∧
      t.steward = s.steward ∧ t.cntReqs = s.cntReqs ∧ (∀ uid, uid ≠ x.uid → t.party? uid = s.party? uid)

/-- 10 R216: a store performed at one location of this device, without an error there, writes exactly its bytes; no other byte changes. -/
def Obligations.StoresPerform : Prop :=
  ∀ (s : State) (a : Access) (p : Party) (va l : Nat) (bs : List Byte),
    Memory.wf s.mem = true → s.party? a.uid = some p → a.op = .store bs → a.parts = [⟨va, bs.length, .loc l none none⟩] →
    (∀ u ∈ touchedUnits l bs.length, u ∉ s.failing) →
    ∀ b, (s.performStore a).byteAt b = if l ≤ b ∧ b < l + bs.length then bs.getD (b - l) 0 else s.byteAt b

/-- 10 R215, R221, 09 R196: a load from one location with nothing to wait for, and with no write to choose from, since its fibre follows every one that
touches its bytes, returns the element bytes that stand there; poison instead is reported, to SD under `.stat` and else as DATA_POISON; neither changes
memory. That no frame of the range stands under a second address is a premise (14 R306 leaves such reads open), and so is that no other open read of the
fibre could still be bound by this one. -/
def Obligations.LoadsPerform : Prop :=
  ∀ (s : State) (a : Access) (p : Party) (va l n : Nat) (w : Option Nat) (t : Ty),
    let len := t.width / 8 * n
    let known := if a.sp = .k then [⟨l, len, p.born⟩] else a.view
    s.party? a.uid = some p → a.op = .load t n → a.parts = [⟨va, len, .loc l w none⟩] →
    a.aside = false → s.loadsBefore a = false → s.atomsBefore a = false → s.behind a = false → (a.sp = .k ∨ s.forward a = .none) → a.early = [] →
    (∀ b ∈ s.flight, b.reads = true → b.open_ = true → b.id = a.id ∨ (a.sameFibre b = false ∧ b.id ∉ a.after)) →
    (∀ b, l ≤ b → b < l + len → s.wild b = false) →
    (∀ x ∈ s.past, x.stamp ≤ s.stamp ∧ (x.lo < l + len → l < x.lo + x.old.length →
      a.id ∉ x.preds ∧ ∃ f ∈ known, f.lo ≤ l ∧ l + len ≤ f.lo + f.len ∧ x.stamp ≤ f.stamp)) →
    ∃ r,
    (s.poisonIn l len = false → s.performLoad a t n = (s.tookValue a r).finish a (elemWords t (s.bytesAt l len) n) 0) ∧
    (s.poisonIn l len = true → a.se = true → s.performLoad a t n = (s.tookValue a r).finish a [] 1) ∧
    (s.poisonIn l len = true → a.se = false → s.performLoad a t n = (s.tookValue a r).refuse a 0x11 1) ∧
    (a.fibs ≠ [] → SameBytes s (s.performLoad a t n))

/-- 10 R219: the new value of each atomic operation on values of w bits: sums and differences modulo 2^w and extremes of integers, the counting forms,
the exchange, the bitwise forms of every type bit by bit, and the rounded sum and the extremes of floats. -/
def Obligations.AtomicValues : Prop :=
  ∀ (t : Ty) (o b : Nat), o < 2 ^ t.width → b < 2 ^ t.width →
    let m := 2 ^ t.width
    (t.isInt = true →
      (tyVal t (atomValue .add t o b) - (tyVal t o + tyVal t b)) % (m : Int) = 0 ∧
      (tyVal t (atomValue .sub t o b) - (tyVal t o - tyVal t b)) % (m : Int) = 0 ∧
      tyVal t (atomValue .min t o b) = min (tyVal t o) (tyVal t b) ∧
      tyVal t (atomValue .max t o b) = max (tyVal t o) (tyVal t b) ∧
      atomValue .inc t o b = (if b ≤ o then 0 else o + 1) ∧
      atomValue .dec t o b = (if o = 0 ∨ b < o then b else o - 1)) ∧
    (atomValue .exch t o b = b ∧ ∀ k,
      bit (atomValue .and t o b) k = (bit o k && bit b k) ∧ bit (atomValue .or t o b) k = (bit o k || bit b k) ∧
      bit (atomValue .xor t o b) k = (bit o k != bit b k)) ∧
    (t.isFloat = true →
      let f := fmtOf t
      atomValue .add t o b = f.round .rne false (xadd .rne (f.value o) (f.value b)) ∧
      atomValue .min t o b = f.round .rne false (xminmax true (f.value o) (f.value b)) ∧
      atomValue .max t o b = f.round .rne false (xminmax false (f.value o) (f.value b))) ∧
    ∀ op, t.isFloat = false → (∀ n, op ≠ .rsv n) → atomValue op t o b < m

/-- 10 R220: an atomic that reads its location as it stands now, which follows every write made so far, reads that value and writes the new one in the
same step; at a poisoned unit it reports poison and writes nothing; where the write meets an uncorrectable error it reports a lost write. -/
def Obligations.AtomicStep : Prop :=
  ∀ (s : State) (own : Nat) (src : Issuer) (v : View) (ord : Ord) (sc : Scope) (rels : Release → List Release) (l n : Nat) (new : Nat → Nat),
    Memory.wf s.mem = true → s.wild l = false → (∀ w ∈ s.past, w.stamp ≤ s.stamp) →
    let r := s.atomicAt [s.stamp] own src v ord sc rels l none none n new
    let old := leNat (s.bytesAt l n)
    (s.poisonIn l n = false → r.1.old = old) ∧
    (s.poisonIn l n = false → (∀ u ∈ touchedUnits l n, u ∉ s.failing) → r.1.status = 0 ∧
      ∀ b, r.2.byteAt b = if l ≤ b ∧ b < l + n then (leBytes n (new old)).getD (b - l) 0 else s.byteAt b) ∧
    (s.poisonIn l n = false → (∃ u ∈ touchedUnits l n, u ∈ s.failing) → r.1.status = 2) ∧
    (s.poisonIn l n = true → r.1.status = 1 ∧ r.2.mem = s.mem)

/-- 10 R217, R218, R224, R225: `pref` completes wherever it may issue, without any effect on registers or memory. `cflush` and `cinval` complete, with no
effect that a state shows (caches hold copies only, 08 R185), where their length is zero, where their address names another rank, and where a range register
maps the first byte of a local one; of a nonzero length an address whose bit 63 is clear and whose rank bits are not is ADDR_FORM, and a local first byte that
no range register maps is NO_RANGE. A `fence` completes once the earlier accesses that its order waits for have been performed: `fence.acq` and
`fence.ar` put what the last access of each fibre read as released before its later ones, at the fence's scope in place of the access's own, and `fence.rel` and `fence.ar` leave their scope to the next
write. An `xfence` completes, at once but for the class `core`, whose earlier accesses must have been performed. That the caches are no state (log 21), and what a release and a fence wait for at which place (log 16), are
the model's readings. -/
def Obligations.FencesAndCaches : Prop :=
  ∀ (s : State) (h : Head) (a b : Opnd) (m : MemMod) (off : Option Word) (level : Nat) (ord : Ord) (sc : Scope) (ca cb : PathClass) (x : Turn),
    (s.Clear (.pref h a m off) x → exec (.pref h a m off) s = .next (s.advance x.uid x.gid (Instr.pref h a m off).raw)) ∧
    (∀ i ∈ [Instr.cflush h a b level, Instr.cinval h a b level], s.Clear i x → ∀ f, supplier x.ms = some f →
      let y := read64 s x.p x.g f (.op a)
      let n := read32 s x.p x.g f (.op b)
      let here := y.getLsbD 63 = false ∨ fld y 62 46 = rankSelf ∨ fld y 62 46 = x.p.rank
      let mapped := ∃ c, s.ctx? (if x.g.level then s.sys.sctx else x.p.ctx) = some c ∧ c.inRange (fld y 45 0) = true
      let done := exec i s = .next (s.advance x.uid x.gid i.raw)
      let fault := fun (cls : Nat) => exec i s = .next (s.faultAt x.uid x.gid (nextPc x.pc i.raw) (x.faultLog i cls [y, w64 n] y))
      (n = 0 → done) ∧
      (n ≠ 0 → y.getLsbD 63 = false → fld y 62 46 ≠ 0 → fault 0x08) ∧
      (n ≠ 0 → (y.getLsbD 63 = true ∨ fld y 62 46 = 0) → here → ¬mapped → fault 0x0A) ∧
      (n ≠ 0 → (y.getLsbD 63 = true ∨ fld y 62 46 = 0) → (here → mapped) → done)) ∧
    (s.Clear (.fence h ord sc) x → s.pendingFaults x.uid x.g = [] →
      ((ordAcquires ord = true → s.openReads x.uid x.g = false) ∧ (ordReleases ord = true → s.covered x = true) →
        (ord ≠ .sc → exec (.fence h ord sc) s = .next ((x.ms.foldl (fun (r : State) f => r.onFibre x.uid f.fid fun f =>
          { f with view := if ord = .acq ∨ ord = .ar then f.base.acquire x.p.rank (fibreIssuer x.p f) sc f.lastRel else f.view
                   relNext := if ord = .rel ∨ ord = .ar then some sc else f.relNext }) s).advance x.uid x.gid (Instr.fence h ord sc).raw)) ∧
        ∃ t, exec (.fence h ord sc) s = .next t ∧ t.mem = s.mem ∧ t.regs = s.regs ∧ t.flight = s.flight ∧ t.dies = s.dies ∧ t.sys = s.sys) ∧
      (ordReleases ord = true → s.covered x = false → exec (.fence h ord sc) s = .next (s.holdAgain x.uid x.gid)) ∧
      (ordAcquires ord = true → s.openReads x.uid x.g = true → exec (.fence h ord sc) s = .next (s.holdAgain x.uid x.gid))) ∧
    (s.Clear (.xfence h ca cb) x →
      (ca = cb → exec (.xfence h ca cb) s = .next (s.advance x.uid x.gid (Instr.xfence h ca cb).raw)) ∧
      ((ca = .core → ca ≠ cb → s.pendingFaults x.uid x.g = [] ∧ s.covered x = true) →
        ∃ t, exec (.xfence h ca cb) s = .next t ∧ t.mem = s.mem ∧ t.regs = s.regs ∧ t.flight = s.flight ∧ t.dies = s.dies ∧ t.sys = s.sys) ∧
      (ca = .core → ca ≠ cb → s.pendingFaults x.uid x.g = [] → s.covered x = false → exec (.xfence h ca cb) s = .next (s.holdAgain x.uid x.gid)))

/-! ### Exceptions (16 R349 to R358, 02 R41, R42) -/

/-- 16 R350, R353, R354: a gang at level U that enters the supervisor takes SPREV from its level, SEPC from the continuation address and the
log from its faults; all its fibres go to SENTRY with everything else of theirs unchanged, its s registers and emulation fields stay, and no
register file, no byte of memory and no other gang changes. -/
def Obligations.SupervisorEntry : Prop :=
  ∀ (s : State) (x : Turn) (sepc : Word) (es : List LogEntry), s.turnOf = some x → x.g.level = false →
    let t := s.enterS x.uid x.gid sepc es
    SameDevice s t ∧ t.regs = s.regs ∧ t.tables = s.tables ∧ t.flight = s.flight ∧
    ∃ q g, t.party? x.uid = some q ∧ q.gang? x.gid = some g ∧
      g.level = true ∧ g.sprev = false ∧ g.sepc = sepc ∧ g.slog = es ∧ g.sregs = x.g.sregs ∧ g.emu = x.g.emu ∧ g.ssave = x.g.ssave ∧
      g.fibres = x.g.fibres ∧
      (∀ gid, gid ≠ x.gid → q.gang? gid = x.p.gang? gid) ∧ q.crews = x.p.crews ∧
      ∀ fid f, x.p.fibre? fid = some f →
        q.fibre? fid = some (if fid ∈ x.g.fibres then { f with pc := s.sys.sentry } else f)

/-- 16 R351, 02 R40: at level S an encoding trap enters SENTRY again with SPREV = S, overwriting SEPC and the log; any other fault there ends the party as
SUPERVISOR_FAULT. That the traps meant are the five emulated causes, whose entry writes the emulation fields, so that FETCH_SPLIT ends the party, is the
model's reading (log 112). -/
def Obligations.SupervisorFaults : Prop :=
  ∀ (s : State) (x : Turn) (sepc : Word) (es : List LogEntry) (r : Raw) (cause : Cause), s.turnOf = some x → x.g.level = true →
    ((∃ e ∈ es, e.cls ≠ 0x01) → s.enterS x.uid x.gid sepc es = s.endParty x.uid .supervisorFault) ∧
    ((∀ e ∈ es, e.cls = 0x01) → ∃ q g, (s.enterS x.uid x.gid sepc es).party? x.uid = some q ∧ q.gang? x.gid = some g ∧
      g.level = true ∧ g.sprev = true ∧ g.sepc = sepc ∧ g.slog = es ∧ g.sregs = x.g.sregs ∧ g.emu = x.g.emu ∧ g.ssave = x.g.ssave ∧
      ∀ fid f, x.p.fibre? fid = some f → q.fibre? fid = some (if fid ∈ x.g.fibres then { f with pc := s.sys.sentry } else f)) ∧
    (s.pendingFaults x.uid x.g = [] → s.outstanding x.uid x.g = false →
      (∀ k, Cause.emulate? cause = some k → s.encodingTrap x.uid x.gid cause r =
        (s.onGang x.uid x.gid fun g => { g with emu := emuFields k r x.pc }).enterS x.uid x.gid (nextPc x.pc r)
          [issueLog r x.pc 0x01 k 0 0 .none x.g.logged]) ∧
      (cause = .fetchSplit → s.encodingTrap x.uid x.gid cause r = s.endParty x.uid .supervisorFault))

/-- 02 R35, R41, R42, 16 R353: a word that fails a check of R41 at level U, with nothing earlier to take or to wait for. The five emulated causes are
encoding traps: they go to the context's emulation entry with the fields of the word, or to the supervisor as EMULATE where that entry is zero. PRIV and
FETCH_SPLIT, which are no encoding traps but are taken with the same precision (log 112), go to the supervisor, past the word and at it; the fields of an
ILLEGAL_LEN trap show the LEN of the word (log 76). FMASK of an encoding
trap, and that its entry of the log counts, are the model's readings as well (log 63). -/
def Obligations.EncodingTraps : Prop :=
  ∀ (s : State) (x : Turn) (r : Raw) (cause : Cause),
    s.turnOf = some x → x.g.level = false → s.pendingFaults x.uid x.g = [] → s.outstanding x.uid x.g = false →
    let t := s.encodingTrap x.uid x.gid cause r
    (∀ k, Cause.emulate? cause = some k →
      let entry := ((s.ctx? x.p.ctx).map (·.emu)).getD 0
      ∃ q g, t.party? x.uid = some q ∧ q.gang? x.gid = some g ∧
        g.emu.xpc = x.pc ∧ g.emu.xd = w32 r.d ∧ g.emu.xa = w32 r.a ∧ g.emu.xb = w32 r.b ∧
        g.emu.xop = w32 (k * 2 ^ 18 + r.ge * 2 ^ 17 + r.gd * 2 ^ 14 + r.gn * 2 ^ 13 + r.w * 2 ^ 12 + r.len * 2 ^ 10 + r.op) ∧
        g.emu.xc = w32 (if r.len = 3 then r.c else 0) ∧ g.emu.ximm = w32 (if r.len = 2 then r.imm else r.x) ∧
        (entry ≠ 0 → g.level = false ∧ ∀ fid f, x.p.fibre? fid = some f →
          q.fibre? fid = some (if fid ∈ x.g.fibres then { f with pc := entry } else f)) ∧
        (entry = 0 → g.level = true ∧ g.sepc = nextPc x.pc r ∧ g.slog = [issueLog r x.pc 0x01 k 0 0 .none x.g.logged])) ∧
    (cause = .priv → t = s.enterS x.uid x.gid (nextPc x.pc r) [issueLog r x.pc 0x03 0 0 0 .none x.g.logged]) ∧
    (cause = .fetchSplit → t = s.enterS x.uid x.gid x.pc [issueLog r x.pc 0x02 0 0 0 .none x.g.logged])

/-- 16 R357, R355, 02 R42: `trap` enters the supervisor past itself with class 0x13 and its code; `eret` at level U resumes after the word that trapped;
`eret` at level S with nothing to replay returns to SEPC at level SPREV with the log empty. -/
def Obligations.TrapAndReturn : Prop :=
  ∀ (s : State) (h : Head) (code : Nat) (x : Turn),
    (s.Clear (.trap h code) x → exec (.trap h code) s =
      .next (s.faultAt x.uid x.gid (nextPc x.pc (Instr.trap h code).raw)
        (issueLog (Instr.trap h code).raw x.pc 0x13 code 0 0 .none x.g.logged))) ∧
    (s.Clear (.eret h) x → x.g.level = false → ∃ t q, exec (.eret h) s = .next t ∧ t.mem = s.mem ∧ t.regs = s.regs ∧ t.party? x.uid = some q ∧
      ∀ f ∈ x.ms, (q.fibre? f.fid).map (·.pc) = some (x.g.emu.xpc + w32 (lenBytes (bits x.g.emu.xop.toNat 11 10)))) ∧
    (s.Clear (.eret h) x → x.g.level = true → s.outstanding x.uid x.g = false → (∀ e ∈ x.g.slog, e.replay = false) → x.g.newlog = [] →
      ∃ t q g, exec (.eret h) s = .next t ∧ t.mem = s.mem ∧ t.regs = s.regs ∧ t.party? x.uid = some q ∧ q.gang? x.gid = some g ∧
        g.level = x.g.sprev ∧ g.slog = [] ∧ ∀ f ∈ x.ms, (q.fibre? f.fid).map (·.pc) = some x.g.sepc)

/-- 16 R351, R41: what is fetched and is no instruction runs as ILLEGAL_ENCODING, the trap of its cause; the Outrider stops on it. -/
def Obligations.IllegalEncodings : Prop :=
  ∀ (s : State) (cause : Cause) (r : Raw),
    (∀ x, s.turnOf = some x → exec (.illegalEncoding cause r) s = .next (s.encodingTrap x.uid x.gid cause r)) ∧
    (∀ c, s.OlRuns c → exec (.illegalEncoding cause r) s = .next (s.olFault c (olCause cause)))

/-! ### System instructions (16 R357 to R360, R368, 14 R308, R313) -/

/-- 16 R357, R360, R361, 14 R324, 15 R348: `sysrd` at level S owes the register's value to the pair D, and so it does at level U for a counter PMC0 to PMC7
whose selector opens it to its own context; any other read at level U is PRIV. A read of EQTAIL or FQTAIL acquires the records that the tail counts. A
register reads as the item that it names: the gang's SEPC and SSAVE, the device's rings and tails, the counters of the core. -/
def Obligations.SystemReads : Prop :=
  ∀ (s : State) (h : Head) (d : Opnd) (a : Src) (x : Turn) (f : Fibre), supplier x.ms = some f → s.Clear (.sysrd h d a) x →
    let i := Instr.sysrd h d a
    let n := uniform32 s x a
    let v := s.sysRead x n
    let u := s.acquireRecords x n
    let pmc := fun (k : Nat) => sget {} (s.core x.p.core).pmcs k
    let mine := 0x0408 ≤ n ∧ n ≤ 0x040F ∧ (pmc (n - 0x0408)).sel.getLsbD 14 = true ∧ (pmc (n - 0x0408)).ctx = x.p.ctx
    (x.g.level = true ∨ mine → exec i s = .next ((u.fresh.2.owe x i u.fresh.1 none (u.fresh.2.destOf x.p f d 2)
      [v.setWidth 32, (v >>> 32).setWidth 32]).advance x.uid x.gid i.raw)) ∧
    (x.g.level = false → ¬mine → exec i s = .next (s.encodingTrap x.uid x.gid .priv i.raw)) ∧
    (n ≠ 0x001A → n ≠ 0x020A → u = s) ∧
    (n = 0x001A ∨ n = 0x020A → ∀ m ∈ x.ms, ∀ w ∈ s.past, w.src = deviceIssuer → ∃ q k, u.party? x.uid = some q ∧ q.fibre? m.fid = some k ∧
      w.fact ∈ k.view) ∧
    (n = 0x0001 → v = x.g.sepc.zeroExtend 64) ∧ (0x0004 ≤ n → n ≤ 0x0007 → v = x.g.ssave.getD (n - 4) 0) ∧
    (n = 0x0010 → v = s.sys.scode) ∧ (n = 0x0011 → v = s.sys.sentry.zeroExtend 64) ∧ (n = 0x0012 → v = w64 s.sys.sctx) ∧
    (n = 0x0013 → v = w64 s.sys.rdeadline) ∧ (n = 0x0018 → v = s.sys.eqbase) ∧ (n = 0x0019 → v = s.sys.eqhead) ∧
    (n = 0x001A → v = s.sys.eqtail.zeroExtend 64) ∧ (n = 0x001B → v = s.sys.eqwake) ∧ (n = 0x0021 → v = s.sys.pstat) ∧
    (n = 0x0029 → v = s.sys.ctxstat) ∧ (n = 0x0200 → v = s.sys.tacc) ∧ (0x0201 ≤ n → n ≤ 0x0204 → v = s.sys.tdat.getD (n - 0x0201) 0) ∧
    (n = 0x0208 → v = s.sys.fqbase) ∧ (n = 0x0209 → v = s.sys.fqhead.zeroExtend 64) ∧ (n = 0x020A → v = s.sys.fqtail.zeroExtend 64) ∧
    (n = 0x020C → v = w64 s.sys.fhold) ∧ (0x0400 ≤ n → n < 0x0408 → v = (pmc (n - 0x0400)).sel.zeroExtend 64) ∧
    (0x0408 ≤ n → n ≤ 0x040F → v = (pmc (n - 0x0408)).count.zeroExtend 64) ∧
    (0x0310 ≤ n → n ≤ 0x0315 → v = w64 (sget 0 (s.die x.p.core.die).errs (n - 0x0310)))

/-- 16 R357, R360: `syswr` writes its register by that register's own rules and goes on when the register's operation has completed; SEPC and
SENTRY keep their two low bits zero. -/
def Obligations.SystemWrites : Prop :=
  ∀ (s : State) (h : Head) (a : Src) (b : Opnd) (x : Turn), s.Clear (.syswr h a b) x → x.g.level = true →
    let n := uniform32 s x a
    let v := uniform64 s x (.op b)
    (∀ t, s.sysWrite x n v = (.done, t) → exec (.syswr h a b) s = .next (t.advance x.uid x.gid (Instr.syswr h a b).raw)) ∧
    (∀ t, s.sysWrite x n v = (.wait, t) → exec (.syswr h a b) s = .next (t.holdAgain x.uid x.gid)) ∧
    (n = 0x0001 → s.sysWrite x n v = (.done, s.onGang x.uid x.gid fun g => { g with sepc := v.setWidth 32 &&& 0xFFFFFFFC })) ∧
    (n = 0x0000 → s.sysWrite x n v = (.done, s.onGang x.uid x.gid fun g => { g with sprev := v.getLsbD 3 })) ∧
    (s.sys.eqbase.getLsbD 63 = false → s.tables.eqWait = [] → s.tables.fqWait = [] →
      (n = 0x0010 → s.sysWrite x n v = (.done, s.onSys fun r => { r with scode := v })) ∧
      (n = 0x0011 → s.sysWrite x n v = (.done, s.onSys fun r => { r with sentry := v.setWidth 32 &&& 0xFFFFFFFC })) ∧
      (n = 0x0012 → s.sysWrite x n v = (.done, s.onSys fun r => { r with sctx := fld v 5 0 })))

/-- 16 R359, R368, 14 R308, R313: the forms of group 0xE that give a status complete at level S, and the status is owed to D. `segwr` writes base and limit of
its space, or answers BADARG 1. `rngwr` copies window A of its context to the range register and answers 0; it answers 1 where A is no such window and 2 where the
copy would overlap another range register's; `rngwrClr` clears the register. `tcinv` by range, region and context, its fibres' accesses performed, answers 5
for an address beyond the regions; else, with no holder to recall and no access in flight that was translated before, it drops its pages' lines and
translations and answers 0, and with a holder it waits; by rank it drops the ranks held. `mspill` and `mfill` answer 3 for a bad address and 2 on a
linked Mill; `mspill` of an idle Mill answers 1 where nobody owns it, and else writes the image, empties the Mill and answers 0; `mfill` answers 4 on an
owned Mill, 5 for a bad image, and else loads the image with its context as the owner and answers 0. The model's readings: the order of the
checks of `mspill` and `mfill` (log 31), what `tcinv` waits for and which pages it names (logs 89, 72). -/
def Obligations.StatusForms : Prop :=
  ∀ (s : State) (h : Head) (d a b : Opnd) (sp : Space) (k idx ctx : Nat) (x : Turn), x.g.level = true →
    let ua := uniform64 s x (.op a)
    let ub := uniform64 s x (.op b)
    let wa := uniform32 s x (.op a)
    let gives := fun (i : Instr) (t : State) (w : Word) => exec i s = .next (t.giveWord i x d w)
    (s.Clear (.segwr h d a b sp) x → segIndex sp = some k →
      (s.segBad x.p sp ua ub = true → gives (.segwr h d a b sp) s 1) ∧
      (s.segBad x.p sp ua ub = false → gives (.segwr h d a b sp)
        (s.onParty x.uid fun p => { p with segBase := p.segBase.set k ua, segLim := p.segLim.set k ub }) 0)) ∧
    (s.Clear (.rngwr h d a idx ctx) x →
      let c := s.ctxAny ctx
      let named := fun (w : Window) => wa ≤ 255 ∧ sfind s.tables.windows wa = some w ∧ w.ctx = ctx
      ((∀ w, ¬named w) → gives (.rngwr h d a idx ctx) s 1) ∧
      ∀ w, named w →
        let meets := fun (e : Nat × RangeReg) => e.1 ≠ idx ∧ e.2.copy.region = w.region ∧ rangesMeet e.2.copy.va e.2.copy.size w.va w.size = true
        ((∃ e ∈ c.ranges, meets e) → gives (.rngwr h d a idx ctx) s 2) ∧
        ((∀ e ∈ c.ranges, ¬meets e) → gives (.rngwr h d a idx ctx) (s.setCtxAny { c with ranges := sput c.ranges idx { win := wa, copy := w } }) 0)) ∧
    (s.Clear (.rngwrClr h d idx ctx) x →
      gives (.rngwrClr h d idx ctx) (s.setCtxAny { s.ctxAny ctx with ranges := sdel (s.ctxAny ctx).ranges idx }) 0) ∧
    (let all : List (Instr × Option PageSet) :=
       [(.tcinvRange h d a b ctx, if fld ua 63 46 ≠ 0 then none else some (s.pageRange ctx (fld ua 45 40) (fld ua 39 0) (65536 * uniform32 s x (.op b)))),
        (.tcinvRegion h d a ctx, if fld ua 63 46 ≠ 0 then none else some ⟨some (fld ua 45 40), 0, 2 ^ 40⟩),
        (.tcinvCtx h d ctx, some ⟨none, 0, 2 ^ 40⟩)]
     ∀ e ∈ all, s.Clear e.1 x → s.openAccess x.uid x.g = false →
       (e.2 = none → gives e.1 s 5) ∧
       ∀ ps, e.2 = some ps →
         (s.sharersIn ctx ps = [] → (∀ r ∈ ps.regions, s.translatedOpen ctx r ps.lo ps.hi = false) →
           ∃ t : State, gives e.1 t 0 ∧ t.mem = s.mem ∧ t.regs = s.regs ∧ t.flight = s.flight ∧ t.parties = s.parties ∧
             (∀ l ∈ t.tables.lines, l.ctx = ctx → ps.holds l.ownReg l.ownPage = false) ∧
             ∀ p ∈ t.tables.pages, p.2.ctx = ctx → ps.holds p.2.region p.2.page = false) ∧
         (s.sharersIn ctx ps ≠ [] → ∃ t : State, exec e.1 s = .next (t.holdAgain x.uid x.gid))) ∧
    (s.Clear (.tcinvRank h d ctx) x → s.openAccess x.uid x.g = false →
      gives (.tcinvRank h d ctx) (s.onTables fun u => { u with rankCut := sset 0 u.rankCut ctx s.stamp }) 0) ∧
    (let m := (s.core x.p.core).mill
     let addr := ua.toNat
     let free := s.onMill x.p.core fun m => { m with spilling := none }
     let image : Fact := ⟨addr, millImageLen, s.stamp + 1⟩
     (∀ e ∈ [(Instr.mspill h d a, free), (.mfill h d a, s)], s.Clear e.1 x →
       (s.millAddrOk addr = false → gives e.1 e.2 3) ∧ (s.millAddrOk addr = true → m.link ≠ none → gives e.1 e.2 2)) ∧
     (s.Clear (.mspill h d a) x → s.millAddrOk addr = true → m.link = none → m.queue = [] → m.loading = none → m.streaming = none →
       (m.owner = none → gives (.mspill h d a) free 1) ∧
       ∀ o, m.owner = some o → ∃ t, gives (.mspill h d a) t 0 ∧ t.mem = memPut s.mem addr (millImage m o) ∧
         (t.core x.p.core).mill = { m with spilling := none, active := {}, shadow := {}, tiles := [], owner := none, view := View.join m.view [image] }) ∧
     (s.Clear (.mspill h d a) x → s.millAddrOk addr = true → m.link = none → (m.queue ≠ [] ∨ m.loading ≠ none ∨ m.streaming ≠ none) →
       exec (.mspill h d a) s = .next ((s.onMill x.p.core fun m => { m with spilling := some x.uid }).holdAgain x.uid x.gid)) ∧
     (s.Clear (.mfill h d a) x → s.millAddrOk addr = true → m.link = none →
       (m.owner ≠ none → gives (.mfill h d a) s 4) ∧
       (m.owner = none → ∀ bs s1, s.readImage x.p.core (View.join x.view (x.seen (·.millSeen))) addr = (bs, s1) →
         (s1.poisonIn addr millImageLen = true ∨ millOf bs = none → gives (.mfill h d a) s1 5) ∧
         ∀ own act sh tiles, s1.poisonIn addr millImageLen = false → millOf bs = some (own, act, sh, tiles) →
           ∃ t, gives (.mfill h d a) t 0 ∧ t.mem = s.mem ∧
             (t.core x.p.core).mill = { m with active := act, shadow := sh, tiles := tiles, owner := some own })))

/-! ### Counters, the engines' instructions and futures (15, 07, 11, 13, 06 R138) -/

/-- 15 R334, R338 to R341: a counter or trigger form whose reference names a mapped counter of this device puts one request at the counter unit and one
result owed to D on its way, whatever else is in flight; a `cnt` or a `cntwait` first waits for its gang's refused accesses and open acquiring reads, and a
`.sc` one for its fence. `cntwait` on a counter that has reached its threshold owes its value to D and goes on, on a poisoned one owes a COUNTER_POISON
fault, and below it waits. The trigger of a transfer also carries its crew's stores, performed or queued (log 108). -/
def Obligations.CounterForms : Prop :=
  ∀ (s : State) (h : Head) (d a b c : Opnd) (y : Src) (nr urg : Bool) (ord : Ord) (sc : Scope) (amount : Word) (tmo : Nat) (x : Turn) (f : Fibre),
    supplier x.ms = some f →
    let clear := s.pendingFaults x.uid x.g = [] ∧ ((s.itemsOf x.uid x.g).any fun b => b.open_ && b.reads && ordAcquires b.ord && !b.aside) = false ∧
      (ord = .sc → s.covered x = true ∧ s.openReads x.uid x.g = false)
    let ref := uniform32 s x (.op a)
    let num := ref % 4096
    let v := cntOperand s x y
    let asks := fun (i : Instr) (num n : Nat) (op : CntOp) => s.Runs i fun t =>
      (∃ r acc, t.cntReqs = s.cntReqs ++ [r] ∧ t.flight = s.flight ++ [acc] ∧ r.access = some acc.id ∧ r.num = num ∧ r.op = op ∧ r.ctx = x.p.ctx ∧
        acc.dest = s.destOf x.p f d n ∧ acc.uid = x.uid ∧ acc.gid = x.gid) ∧ SameBytes s t ∧ t.regs = s.regs ∧ t.dies = s.dies
    let arm := fun (k : Nat) (u : Bool) (n : Word) => CntOp.arm
      { idx := 0, ctx := x.p.ctx, uid := x.uid, counter := 0, thresh := uniform64 s x (.op b), kind := k, urg := u, scope := sc
        opnd := w32 (uniform32 s x (.op c)), amount := n, order := 0, seen := s.crewView x.uid x.g.crew, owed := x.p.queuedStores x.g.crew }
    (bits ref 31 29 = 0 → refHere x.p.rank ref = true → ∀ die k, s.counterHome x.p.ctx num = some (die, k) →
      (s.Clear (.cntRd h d a ord sc) x → clear → asks (.cntRd h d a ord sc) num 2 .read) ∧
      (s.Clear (.cntAdd h d a y nr ord sc) x → clear → asks (.cntAdd h d a y nr ord sc) num (if nr then 0 else 2) (.add v)) ∧
      (s.Clear (.cntSet h d a y nr ord sc) x → clear → asks (.cntSet h d a y nr ord sc) num (if nr then 0 else 2) (.set v)) ∧
      (s.Clear (.trigAdd h d a b c sc amount) x → asks (.trigAdd h d a b c sc amount) num 1 (arm 2 false amount)) ∧
      (x.g.crew = x.p.producer → offsetCheck x.p (uniform32 s x (.op c)) 64 = 0 →
        (s.Clear (.trigTcopy h d a b c urg sc) x → asks (.trigTcopy h d a b c urg sc) num 1 (arm 0 urg 0)) ∧
        (s.Clear (.trigA2av h d a b c urg sc) x → asks (.trigA2av h d a b c urg sc) num 1 (arm 1 urg 0))) ∧
      (s.Clear (.cntwait h d a y ord sc tmo) x → clear → x.g.redoWait = false →
        let k' := (s.die die).counter k
        let i := Instr.cntwait h d a y ord sc tmo
        let goes := fun (st : Stage) => s.Runs i fun t => SameBytes s t ∧ t.cntReqs = s.cntReqs ∧ (∃ g, t.gang? x.uid x.gid = some g ∧ g.wait = none) ∧
          ∃ acc, t.flight = s.flight ++ [acc] ∧ acc.uid = x.uid ∧ acc.gid = x.gid ∧ acc.dest = [.s (sregOf d), .s (sregOf d + 1)] ∧ acc.stage = st
        (k'.poison = false → v ≤ k'.value → goes (.done [k'.value.setWidth 32, (k'.value >>> 32).setWidth 32] 0)) ∧
        (k'.poison = true → goes (.refused 0x11 1)) ∧
        (k'.poison = false → ¬v ≤ k'.value →
          exec i s = .next (s.hold x.uid x.gid (.counter num v s.clock.toNat (tmoLimit tmo) (sregOf d) (ord == .acq) sc i.raw))))) ∧
    (s.Clear (.trigCancel h d a) x → asks (.trigCancel h d a) 0 1 (.cancel (bits ref 26 25) (bits ref 24 16) (bits ref 31 27) x.uid))

/-- 07 R143, R144, R160, R168, 12 R263: a Mill form whose block fits, with an owner of its own context or none, a free queue entry that nobody waits for
or asks for ahead of it in the same clk, and a free future where it asks for one, is accepted: the queue takes one command, which is to read its block after
the stores its crew had queued, and the Mill its owner. A block that is out of bounds or misaligned, or another owner, is a precise fault; at a member of a chain
another context's command waits until the chain unlinks. -/
def Obligations.MillForms : Prop :=
  ∀ (s : State) (h : Head) (ty : Ty) (d a : Opnd) (y : Src) (nh : Bool) (len mask acc mem : Nat) (x : Turn),
    let arg := uniform32 s x y
    let arga := uniform32 s x (.op a)
    let res := if nh then MillRes.none else .handle
    let forms : List (Instr × MillForm) :=
      [(.mload h ty d y nh, { op := .load ty arg, res := res, d := d, size := 32, off := arg }), (.mswap h d nh, { op := .swap, res := res, d := d }),
       (.mrun h ty d y nh, { op := .run ty arg, res := res, d := d, size := 32, off := arg }),
       (.mdelta h ty d y nh, { op := .delta ty arg, res := res, d := d, size := 32, off := arg }),
       (.mepi h ty d y nh, { op := .epi ty arg, res := res, d := d, size := 48, off := arg }),
       (.mchainLink h d nh len, { op := .link len, res := res, d := d }), (.mchainJoin h d a nh, { op := .join arga, res := res, d := d }),
       (.mchainUnlink h d nh, { op := .unlink, res := res, d := d }), (.maccz h d nh mask, { op := .zero mask, res := res, d := d }),
       (.maccrd h d a acc mem, { op := .read acc mem (arga % 128), res := .rows, d := d }),
       (.slotbind h d y, { op := .bind arg, res := .words 1, d := d, size := 16, off := arg }),
       (.slotdrop h d y, { op := .drop arg, res := .words 1, d := d }), (.slotq h d y, { op := .query arg, res := .words 4, d := d })]
    let m := (s.core x.p.core).mill
    let line := Contest.engine x.p.core .mill
    let place := requestPlace x.g.effective x.g.crew
    let u := (s.serve line place).unawait x.p.core x.uid x.gid
    let out := s.unawait x.p.core x.uid x.gid
    ∀ e ∈ forms, s.Clear e.1 x →
      let f := e.2
      let t := (u.millAccept e.1 x f fun g => s.destOf x.p g f.d 4).advance x.uid x.gid e.1.raw
      let fits := f.size = 0 ∨ (f.off % 16 = 0 ∧ f.off + f.size ≤ (x.p.segLim.getD 0 0).toNat)
      (fits → (∀ o, m.owner = some o → o = x.p.ctx) → m.spilling = none → m.queue.length < 16 →
        s.engineWaits x.p.core .mill x.uid = false → s.overtaken line place = false → (f.res = .handle → x.p.freeFuture.isSome = true) →
        exec e.1 s = .next t ∧ SameBytes s t ∧ t.regs = s.regs ∧
        ∃ cmd, (t.core x.p.core).mill.queue = (u.core x.p.core).mill.queue ++ [cmd] ∧ cmd.op = f.op ∧ cmd.uid = x.uid ∧ cmd.ctx = x.p.ctx ∧
          cmd.owed = x.p.queuedStores x.g.crew ∧ cmd.future = (if f.res = .handle then x.p.freeFuture else none) ∧
          (t.core x.p.core).mill.owner = some ((u.core x.p.core).mill.owner.getD x.p.ctx)) ∧
      (¬fits → exec e.1 s = .next (out.faultAt x.uid x.gid (nextPc x.pc e.1.raw)
        (s.millLog e.1 x f (if f.off % 16 ≠ 0 then 0x07 else 0x05) 0))) ∧
      (∀ o, fits → m.owner = some o → o ≠ x.p.ctx →
        (m.isMember = false → exec e.1 s = .next (out.faultAt x.uid x.gid (nextPc x.pc e.1.raw) (s.millLog e.1 x f 0x0D o))) ∧
        (m.isMember = true → exec e.1 s = .next (out.holdAgain x.uid x.gid)))

/-- 13 R274, R279, R298, R300, 07 R165: what the Porter's instructions and those on futures do when nothing holds them back. A transfer is accepted
into its sub-queue; `lseal` departs as one access; `bseal` seals the open batch of its stream and gives its number; `bwait` goes on; a handle that is
stale gives STALE, a resolved entry gives its status and is freed, and a pending one is as `ftest`, `fwait` and `fcancel` say. -/
def Obligations.PorterForms : Prop :=
  ∀ (s : State) (h : Head) (d a b : Opnd) (y : Src) (rec k nh urg : Bool) (x : Turn) (f : Fibre), supplier x.ms = some f →
    (∀ e ∈ ([(.tcopy h d y nh urg, ⟨false, uniform32 s x y, d, nh, urg⟩), (.a2av h d y nh urg, ⟨true, uniform32 s x y, d, nh, urg⟩)] : List (Instr × PortForm)),
      s.Clear e.1 x →
      let pf := e.2
      let cs := s.claims x.p pf.a2av pf.off
      let line := Contest.engine x.p.core .porter
      let place := requestPlace x.g.effective x.g.crew
      let since := match x.g.wait with
        | some (.score n _) => n
        | _ => s.nextId
      x.g.crew = x.p.producer → offsetCheck x.p pf.off 64 = 0 → s.recordsOwed x.p x.g.crew pf.a2av pf.off = false →
      (s.core x.p.core).portQueued < 32 → s.engineWaits x.p.core .porter x.uid = false →
      s.overtaken line place = false → (pf.nh = false → x.p.freeFuture.isSome = true) → cs.length ≤ x.p.freeScore.length →
      (cs = [] ∨ x.p.scoreBefore x.gid since = false) → (x.p.stream (x.g.number.getD 0)).full = false →
      exec e.1 s = .next ((((s.unawait x.p.core x.uid x.gid).serve line place).portAccept e.1 x pf cs).advance x.uid x.gid e.1.raw)) ∧
    (let i := Instr.lseal h d a b k
     let src := uniform32 s x (.op a)
     let dst := uniform32 s x (.op b)
     let p1 := s.checkMem x.p f x.g.level (if k then .k else .s) src 64 false false
     let p2 := p1.2.2.checkMem x.p f x.g.level .s dst 64 true false
     let parts := p1.2.1 ++ p2.2.1
     let u := p2.2.2
     s.Clear i x → src % 16 = 0 → dst % 16 = 0 → p1.1 = 0 → p2.1 = 0 → u.pendingFaults x.uid x.g = [] →
     (∀ b ∈ u.flight, b.uid = x.uid → b.open_ = true → b.insn < u.nextId ∧ b.fibs.any x.g.fibres.contains = false) → parts.any x.p.scoreHit = false →
     u.queued (crewOf x.p x.g) + (parts.flatMap fun q => touchedUnits q.va q.len).eraseDups.length ≤ 64 →
     s.Runs i fun t => ∃ acc, t.flight = u.flight ++ [acc] ∧ acc.op = .seal dst ∧ acc.parts = parts ∧ acc.uid = x.uid ∧ acc.gid = x.gid ∧
       acc.dest = u.destOf x.p f d 1 ∧ SameBytes u t) ∧
    (let i := Instr.bseal h d y rec
     let off := uniform32 s x y
     let num := x.g.number.getD 0
     let st := (x.p.stream num).opened
     s.Clear i x → x.g.crew = x.p.producer → (rec = true → offsetCheck x.p off 16 = 0) → (x.p.stream num).sealed.length < 64 →
     s.Runs i fun t => (∃ q, t.party? x.uid = some q ∧ q.stream num = st.close (if rec then some off else none)) ∧
       ∃ acc, t.flight = s.flight ++ [acc] ∧ acc.dest = s.destOf x.p f d 1 ∧ acc.op = .value [w32 ((st.openB.map (·.num)).getD 0)] ∧ t.mem = s.mem) ∧
    (let i := Instr.bwait h y
     let st := x.p.stream (x.g.number.getD 0)
     s.Clear i x → x.g.crew = x.p.producer →
     (st.sealed.length ≤ uniform32 s x y →
       exec i s = .next ((s.onMembers x.uid x.gid fun m => { m with portSeen := View.join m.portSeen st.view }).advance x.uid x.gid i.raw)) ∧
     (uniform32 s x y < st.sealed.length → exec i s = .next (s.holdAgain x.uid x.gid))) ∧
    (let hw := uniform32 s x (.op a)
     let give := fun (i : Instr) (t : State) (w : Word) =>
       exec i s = .next ((t.fresh.2.owe x i t.fresh.1 none (t.fresh.2.destOf x.p f d 1) [w]).advance x.uid x.gid i.raw)
     let forms := [Instr.ftest h d a, Instr.fwait h d a, Instr.fcancel h d a]
     (x.p.handle hw = none → ∀ i ∈ forms, s.Clear i x → give i s (statusWord futStale 0 false)) ∧
     ∀ n, x.p.handle hw = some n →
       let fu := x.p.future n
       (fu.resolved = true → ∀ i ∈ forms, s.Clear i x → give i ((s.seeStatus x.uid x.gid fu).onParty x.uid (·.consume n)) fu.word) ∧
       (fu.resolved = false →
         (s.Clear (.ftest h d a) x → give (.ftest h d a) s fu.word) ∧
         (s.Clear (.fwait h d a) x → ∀ q, d = .s q →
           exec (.fwait h d a) s = .next (((s.stampIssue x.uid x.gid).hold x.uid x.gid (.future n q)).deadlocks x.uid x.g.crew)) ∧
         (s.Clear (.fcancel h d a) x → s.cancelCommand x.p.core x.uid n fu.engine = none →
           give (.fcancel h d a) (s.onParty x.uid fun p => p.setFuture n { fu with drop := true }) (statusWord futPending 0 false)) ∧
         (s.Clear (.fcancel h d a) x → ∀ t, s.cancelCommand x.p.core x.uid n fu.engine = some t → x.p.fwaiters n = [] →
           give (.fcancel h d a) (t.onParty x.uid (·.consume n)) (statusWord futCancelled 0 false))))

/-- 06 R138, 12 R263, R269, R270: the Outrider posts a command where it has a permit, and stays at the instruction without one. A posted engine command
goes to the end of its queue, where nobody waits for an entry or asks ahead of it in the same clk, and takes a permit; a posted record goes to the end of its party's records, the top bit of its last word clear. -/
def Obligations.OutriderPosts : Prop :=
  ∀ (s : State) (c : CoreRef) (h : Head) (a b : Opnd) (op : Nat) (p : Party), s.OlRuns c →
    let o := (s.core c).outrider
    s.party? o.uid = some p →
    let arg := (olRead o .n64 (.op a)).toNat % 2 ^ 32
    let mod := (olRead o .n64 (.op b)).toNat % 2 ^ 19
    (∀ e f, postInstr op mod false = .ok e → millFormOf e arg = some f →
      let i := Instr.olpostMill h a b op
      (o.mill.limit ≤ o.mill.out → exec i s = .next s) ∧
      (o.mill.out < o.mill.limit → (∀ k, (s.core c).mill.owner = some k → k = p.ctx) → s.overtaken (.engine c .mill) (requestPlace p.prio 16) = false →
        let s1 := (s.fresh.2.serve (.engine c .mill) (requestPlace p.prio 16)).onOutrider c fun o => { o with mill := { o.mill with out := o.mill.out + 1 } }
        s1.queueRoom c .mill = true → s1.engineWaits c .mill p.uid = false →
        exec i s = .next ((s1.onMill c fun m => { m with
          queue := m.queue ++ [{ id := s.nextId, op := f.op, uid := p.uid, ctx := p.ctx, posted := true }]
          owner := some p.ctx }).onOutrider c (olAdvance i.raw)))) ∧
    (∀ e, postInstr op mod true = .ok e →
      let i := Instr.olpostPort h a b op
      let cs := s.claims p (op == 770) arg
      (o.port.limit ≤ o.port.out → exec i s = .next s) ∧
      (o.port.out < o.port.limit → cs.length ≤ p.freeScore.length → s.overtaken (.engine c .porter) (requestPlace p.prio 16) = false →
        let s1 := (s.fresh.2.serve (.engine c .porter) (requestPlace p.prio 16)).onOutrider c fun o => { o with port := { o.port with out := o.port.out + 1 } }
        s1.queueRoom c .porter = true → s1.engineWaits c .porter p.uid = false →
        exec i s = .next (((s1.onParty p.uid fun p => p.claim 0 0 s.nextId cs).portPush c
          { id := s.nextId, a2av := op == 770, uid := p.uid, ctx := p.ctx, off := arg, posted := true }).onOutrider c (olAdvance i.raw)))) ∧
    (let i := Instr.olpostRec h a b
     (o.recs.limit ≤ o.recs.out → exec i s = .next s) ∧
     (o.recs.out < o.recs.limit → s.Runs i fun t => t.mem = s.mem ∧ ∃ q, t.party? o.uid = some q ∧
       q.records = p.records ++ [BitVec.ofNat 128 ((olRead o .n64 (.op a)).toNat + (olRead o .n64 (.op b)).toNat % 2 ^ 63 * 2 ^ 64)]))

/-! ### What the device does of its own accord (02 R35, 03 R58 to R64, 06 R124 to R133, 10 R214 to R223, 12, 14 R311 to R325) -/

/-- 02 R35, R38, 16 R425, 06 R124 to R126, R130 to R133, 03 R59, R61, 12 R261: what a lane does. A fetch merges the lane's gangs, chooses one and latches
what it reads for it; an Outrider that runs fetches for itself. Gangs that merge join their fibres by ascending `$cfid`, with the scalars and the number of
the gang that has the lowest (where that one is a held side, the number of the other: the model's choice, log 67); the oldest held gang takes the lowest
free number; a gang that was ready for 1,024 clk rises by one class, to 3 at most; released fibres go on past their `meet`; with every fibre parked and none
released the crew deadlocks; a bin whose timer has run out begins to release; and the first releasing bin that finds a crew gives its fibres. -/
def Obligations.LaneEvents : Prop :=
  ∀ (s : State) (l : LaneRef) (c : CoreRef) (uid crew gid bin : Nat) (p : Party) (g : Gang), s.party? uid = some p → p.gang? gid = some g →
    (let s0 := ({ s with latch := none, agent := .none } : State).mergeLane l
     (s0.chooseGang l = none → exec (.instructionFetch (.lane l)) s = .next s0) ∧
     ∀ q k bs t, s0.chooseGang l = some (q, k) →
       let code := if k.level then s0.sys.scode else q.code
       s0.fetchAt (if k.level then s0.sys.sctx else q.ctx) (code + (q.pcOf k).zeroExtend 64).toNat (q.pcOf k) q.known q.born k.walkView = (.bytes bs, t) →
       exec (.instructionFetch (.lane l)) s =
         .next { t.onGang q.uid k.gid fun g => { g with walkView := [] } with latch := some (.gang q.uid k.gid, bs), agent := .gang q.uid k.gid }) ∧
    (let o := (s.core c).outrider
     let s0 : State := { s with latch := none, agent := .none }
     ∀ q bs t, o.running = true → o.waiting = false → s.party? o.uid = some q → (q.ended || q.halted || q.suspended) = false →
       s.unitBlocked (unitKey c 3) = false →
       s0.fetchAt q.ctx (q.code + o.opc.zeroExtend 64).toNat o.opc (View.join q.known (s.core c).olView) q.born = (.bytes bs, t) →
       exec (.instructionFetch (.outrider c)) s = .next { t with latch := some (.outrider c, bs), agent := .outrider c }) ∧
    (exec (.gangMerge l) s = .next (s.mergeLane l) ∧
     ((∀ u q, s.party? u = some q → s.mergeSets q l.lane = [] ∧ q.gangs.all (!·.starting) = true) → s.mergeLane l = s) ∧
     ∀ h : Gang, let fids := sortBy p.cfidOf (g.fibres ++ h.fibres)
       g.gid ≠ h.gid → fids.length ≤ 32 → g.fibres.contains (fids.headD 0) = true →
       ∃ q k, (s.mergeAt uid [g, h]).party? uid = some q ∧ q.gang? gid = some k ∧ q.gang? h.gid = none ∧
         k.fibres = fids ∧ k.sregs = g.sregs ∧ k.wait = p.pieceWait fids (mergedWait [g, h]) ∧ (g.number ≠ none → k.number = g.number) ∧
         (g.number = none → (∃ f ∈ h.fibres, f ∉ g.fibres) → k.number = h.number)) ∧
    (∀ n k, (p.freeNumbers crew).head? = some n → (p.held crew).head? = some k →
      s.Runs (.gangNumberGrant uid crew) fun t => ∃ q k', t.party? uid = some q ∧ q.gang? k.gid = some k' ∧ k'.number = some n ∧
        ∀ j, j ≠ k.gid → q.gang? j = p.gang? j) ∧
    (exec (.classAging uid gid) s = .next (if s.gangFree p g && decide (1024 ≤ g.age) then
      s.onGang uid gid fun g => { g with cls := min (g.cls + 1) 3, age := g.age - 1024 } else s)) ∧
    ((p.fibres.map (·.fid)).Nodup → ∀ r ∈ p.released crew, s.Runs (.meetRelease uid crew) fun t => ∃ q f, t.party? uid = some q ∧
      q.fibre? r.1.fid = some f ∧ { f with pc := r.1.pc, meet := r.1.meet } = r.1 ∧ f.pc = r.2.addr + 8 ∧ f.meet = none) ∧
    (p.released crew = [] → exec (.meetRelease uid crew) s = .next (if p.allParked crew then s.partyFault uid 0x20 else s)) ∧
    (s.growq.find? (fun w => w.1 == l) = some (l, uid, gid) → growNeed (p.growers g) ≤ (s.freeBlocks l).length →
      exec (.xgrowGrant l) s = .next ((({ s with growq := s.growq.erase (l, uid, gid) } : State).grow uid l (p.growers g)).endWait uid gid
        (Instr.xgrow {}).raw)) ∧
    ((p.binAt bin).state = .filling → (p.binAt bin).expiry < s.clock.toNat → p.suspended = false → s.Runs (.binTimerExpiry uid bin) fun t =>
      ∃ q, t.party? uid = some q ∧ (q.binAt bin).state = .releasing ∧ (q.binAt bin).recs = (p.binAt bin).recs) ∧
    (s.binToServe p = some bin → (p.halted || p.ended || p.suspended) = false → s.Runs (.binRelease uid bin) fun t =>
      ∃ q, t.party? uid = some q ∧ q.fibres.length = p.fibres.length + (p.binAt bin).recs.length)

/-- 03 R58, 02 R34, 12 R267, 14 R311, 10 R223, 01 R12, 15 R334, R338, R339: what becomes of accesses and counter operations in flight. A result whose value
is known is written, and a load within reach of its data is performed (one whose register another result aims at may be written later, for either may land
last); the head of a store queue drains, a release once what it covers has been performed, and an
entry that has been answered or refused leaves; a walk is made at the memory side; an answer from another
device ends its part, a refusal or a missed deadline is reported, an answer after the deadline is counted and dropped, and a HOLD starts the deadline
again, with the limit that the access was sent under; an announcement is delivered 16 clk after it was sent; a counter adds and sets at its home, where an add or a set that finds no counter is counted and
dropped (what its D takes then is a free value, log 88); and a `cntwait` whose limit has passed ends, with a free value where its counter is no
longer mapped (log 88). -/
def Obligations.AccessEvents : Prop :=
  ∀ (s : State) (id uid crew gid die : Nat) (a : Access) (p : Party) (g : Gang) (r : CntReq),
    s.party? uid = some p → p.gang? gid = some g →
    (s.access? id = some a → a.fid ≠ some engineFid → a.aside = false →
      (∀ ws st, a.stage = .done ws st → exec (.resultReturn id) s = .next (s.finish a ws st) ∧ (s.finish a ws st).access? id = none) ∧
      ∀ t n, a.stage = .ready → a.op = .load t n →
        (s.contended a = false → exec (.resultReturn id) s = .next (s.performLoad a t n)) ∧
        (s.contended a = true → ∃ keep, exec (.resultReturn id) s = .next (({ s with draws := s.draws + 1 } : State).performLoad a t n keep))) ∧
    ((p.crew? crew).bind Crew.head? = some id → s.access? id = some a → a.stage = .ready → s.loadsBefore a = false → s.lockedParts a = false →
      s.behind a = false → (a.rels = [] ∨ s.coveredHead a = true) →
      let pops := fun (t : State) => exec (.storeDrain uid crew) s = .next (if t.access? id = some a then t else t.popStore uid crew id)
      (a.parts.any Part.isRemote = false →
        (∀ bs, a.op = .store bs → pops (s.performStore a)) ∧ (∀ dst, a.op = .seal dst → pops (s.performSeal a)) ∧
        ∃ keep, let s1 : State := if s.contended a then { s with draws := s.draws + 1 } else s
          (s.contended a = false → keep = false) ∧
          (∀ op t b, a.op = .atom op t b → pops (s1.performAtomic a t (fun o => atomValue op t o (lowBits t b)) keep)) ∧
          ∀ t b k, a.op = .cas t b k → pops (s1.performAtomic a t (fun o => if o = lowBits t k then lowBits t b else o) keep)) ∧
      (a.parts.any Part.isRemote = true → s.awaits a = false →
        exec (.storeDrain uid crew) s = .next (if a.staysHead then s.sendHead a else (s.sendHead a).popStore uid crew id))) ∧
    ((p.crew? crew).bind Crew.head? = some id → s.access? id = some a → ((∃ ws st, a.stage = .done ws st ∨ a.stage = .locked ws st) ∨ ∃ k j, a.stage = .refused k j) →
      exec (.storeDrain uid crew) s = .next (s.popStore uid crew id)) ∧
    (s.access? id = some a → a.stage = .toWalk → a.op.isCopy = false → a.aside = false → exec (.walk id) s = .next (s.walkAccess a [])) ∧
    (∀ d q, id < 2 ^ 65 → s.access? (id / 16) = some a → a.stage = .sent d → a.parts[id % 16]? = some q → q.isRemote = true →
      (s.clock.toNat ≤ d →
        (∀ cls, exec (.remoteReply id (.nack cls)) s = .next (s.refuseSent a 0x0F cls)) ∧
        ∀ bs st rels, let b := { a with parts := a.parts.set (id % 16) { q with place := .got bs st }, heard := a.heard ++ rels }
          exec (.remoteReply id (.data bs st rels)) s = .next (if b.parts.any Part.isRemote then s.setAccess b else s.answered b)) ∧
      (d < s.clock.toNat → ∀ rep, exec (.remoteReply id rep) s = .next (s.linkEvent 0x0318))) ∧
    (∀ rep, id < 2 ^ 65 → s.access? (id / 16) = none → exec (.remoteReply id rep) s = .next (s.linkEvent 0x0318)) ∧
    (∀ d, s.access? id = some a → a.stage = .sent d →
      exec (.remoteTimeout id) s = .next (if d ≤ s.clock.toNat then s.refuseSent a 0x10 0 else s)) ∧
    (∀ d, id < 2 ^ 64 → s.access? (id / 16) = some a → a.stage = .sent d →
      exec (.hold id) s = .next (s.setAccess { a with stage := .sent (s.clock.toNat + a.limit) })) ∧
    (∀ h hs, (s.die die).herald = h :: hs → exec (.heraldDelivery die) s =
      .next (if h.at_ + 16 = s.clock.toNat then s.onDie die fun d => { d with herald := d.herald.drop 1 } else s)) ∧
    (s.cntReqs.find? (fun q => q.id == id) = some r → s.cntBefore r = false →
      (∀ b, r.access.bind s.access? = some b → b.aside = false ∧ (b.rels = [] ∨ s.coveredHead b = true)) →
      let s1 : State := { s with cntReqs := s.cntReqs.filter fun q => q.id != id }
      (∀ home k, s.counterHome r.ctx r.num = some (home, k) →
        let c := (s.die home).counter k
        let v := ((r.access.bind s.access?).map (·.view)).getD r.view
        let edges := c.edges ++ (if r.access.isNone && r.ord == .relaxed then ⟨r.src, r.view⟩ :: r.more else [])
        let rel : List Release := if ordReleases r.ord then [⟨r.scope, r.src, v⟩] else []
        (r.op = .read → exec (.counterOperation id) s = .next (s1.cntAnswer r c)) ∧
        (∀ n, r.op = .add n → exec (.counterOperation id) s = .next (((s1.setCounter home k
          { c with value := c.value + n, rels := c.rels ++ rel, edges := edges }).counterWritten home k).cntAnswer r c)) ∧
        (∀ n, r.op = .set n → exec (.counterOperation id) s = .next (((s1.setCounter home k
          { value := n, poison := false, rels := rel, edges := [] }).counterWritten home k).cntAnswer r c))) ∧
      (∀ n, s.counterHome r.ctx r.num = none → r.op = .add n ∨ r.op = .set n → ∃ x y,
        let t := ({ s1 with draws := s.draws + 1 } : State).linkEvent 0x031C
        exec (.counterOperation id) s = .next (match r.access.bind s.access? with
          | some b => t.finish b [x, y] 0
          | none => t))) ∧
    (∀ num th since limit dest acq sc raw home k, g.wait = some (.counter num th since limit dest acq sc raw) → limit ≠ 0 →
      since + limit ≤ s.clock.toNat → s.counterHome p.ctx num = some (home, k) →
      exec (.cntwaitTimeout uid gid) s = .next (s.endCntwait p g ((s.die home).counter k) dest none raw)) ∧
    (∀ num th since limit dest acq sc raw, g.wait = some (.counter num th since limit dest acq sc raw) → limit ≠ 0 →
      since + limit ≤ s.clock.toNat → s.counterHome p.ctx num = none →
      ∃ x, exec (.cntwaitTimeout uid gid) s = .next (({ s with draws := s.draws + 1 } : State).endCntwait p g { value := x } dest none raw))

/-- 14 R315 to R319, R321, R323 to R325, 09 R206, R207: what the Customs unit does. A packet for an unknown job is refused; one whose page lies here is
performed, and one whose page lies at another device is passed on, once more hopped (a piece of an exchange that has ended here is dropped instead); the
supervisor's answer resumes or refuses what an entry holds, each remote initiator is told to HOLD every 2,500 clk, and an entry older than FHOLD is refused.
A grant is recorded and sent, to a reader beside other readers too, one that cannot be recorded is refused, and a writer's request recalls the other
holders first; a revocation sends accesses not yet sent to their walk again, waits for those on their way to its page, then drops the page's lines and is
acknowledged, and the home forgets the holder; a replica takes the new bytes under a lock, through its own leaf, and is unlocked, and answers both; a fault
of its leaf is held for the supervisor. Messages carry the job; their tags and forms are the model's (logs 80, 85, 89). -/
def Obligations.CustomsEvents : Prop :=
  ∀ (s : State) (tok cls job region page rank off home tag : Nat) (write : Bool) (data : List Byte) (q : Packet) (e : Pending) (c : Context),
    (s.jobCtx? q.job = none → exec (.inboundPacket q) s = .next ((s.linkEvent 0x0319).answer q (.nack XFault.noContext.code))) ∧
    (∀ k, s.jobCtx? q.job = some k → q.hops < 3 → (∀ a b v, q.op ≠ .cnt a b v) → q.op ≠ .fence → q.offset % 65536 + pktSpan q.op ≤ 65536 →
      (∀ r, sfind k.regions q.region = some r → r.inb = true) →
      (∀ l w rp t, s.translate k q.region q.offset (pktKind q.op) (some q.init) [] = (.loc l w rp, t) →
        exec (.inboundPacket q) s = .next (t.performPacket k q l w rp)) ∧
      (∀ r g o t, s.translate k q.region q.offset (pktKind q.op) (some q.init) [] = (.peer r g o, t) →
        exec (.inboundPacket q) s = .next (if t.pieceRefused k q then t.answer q (.data [] 0) else t.forwardPacket k q r g o) ∧
        ∃ p f, (t.forwardPacket k q r g o).sent = .packet r p :: t.sent ∧ p.hops = q.hops + 1 ∧ p.region = g ∧ p.offset = o ∧ p.op = q.op ∧
          p.init = q.init ∧ p.tag = q.tag ∧ (t.forwardPacket k q r g o).tables.forwarded = t.tables.forwarded ++ [f])) ∧
    (tok < 2 ^ 32 → s.pendingOf tok = some e →
      (∃ v x, exec (.freplyResume tok) s = .next (({ s with sys := { s.sys with freply := x } } : State).resumeEntry e v)) ∧
      (∃ x, exec (.freplyNack tok cls) s = .next (({ s with sys := { s.sys with freply := x } } : State).refuseEntry e (cls % 256)))) ∧
    (s.pendingOf tok = some e →
      (e.lastHold + 2500 ≤ s.clock.toNat → s.Runs (.holdInterval tok) fun t =>
        (∀ b ∈ e.inbound, b.init ≠ hostInit → b.tag ≠ 0 → Sent.hold b.init b.tag ∈ t.sent) ∧
        ∀ k ∈ e.locks, Sent.hold k.2.2.1.rank k.2.2.1.tag ∈ t.sent) ∧
      exec (.holdExpired tok) s = .next (if e.since + s.sys.fhold < s.clock.toNat then s.refuseEntry e XFault.holdExpired.code else s)) ∧
    (s.jobCtx? job = some c →
      let first := c.pageOf region (page * 65536)
      let turned := s.Runs (.cachedRequest job region page rank write) fun t => t.tables = s.tables ∧
        t.sent = .reply rank (grantTag job region page write) (.nack 0) :: s.sent
      ((s.tables.sharers.find? fun h => h.ctx == c.num && h.region == region && h.page == first) = none → s.tables.sharers.length < 65536 →
        s.Runs (.cachedRequest job region page rank write) fun t => t.sent = .grant rank job region page write :: s.sent ∧
          t.tables.sharers = s.tables.sharers ++ [{ ctx := c.num, region := region, page := first, write := write, holders := [rank] }]) ∧
      ((s.tables.sharers.find? fun h => h.ctx == c.num && h.region == region && h.page == first) = none → 65536 ≤ s.tables.sharers.length → turned) ∧
      (∀ h, (s.tables.sharers.find? fun h => h.ctx == c.num && h.region == region && h.page == first) = some h →
        (write = false → h.write = false → h.holders.length < 8 → s.Runs (.cachedRequest job region page rank write) fun t =>
          t.sent = .grant rank job region page false :: s.sent) ∧
        (write = false → h.write = false → rank ∉ h.holders → 8 ≤ h.holders.length → turned) ∧
        (write = true → (∃ r ∈ h.holders, r ≠ rank) → s.Runs (.cachedRequest job region page rank write) fun t =>
          ∀ r ∈ h.holders, r ≠ rank → r ∉ h.pending → Sent.revoke r (s.jobOf c.num) region first ∈ t.sent)) ∧
      (let mine := fun (k : Held) => k.ctx = c.num ∧ k.region = region ∧ k.page = page ∧ k.home = home
       let again := s.flight.map fun a => a.walkAgain (fun k => decide (mine k)) s.tables.lines
       (s.pageBusy c region page home = true → s.Runs (.revocation job region page home) fun t => t.sent = s.sent ∧ t.flight = again ∧
         ∀ k ∈ t.tables.lines, mine k → k.revoked = true) ∧
       (s.pageBusy c region page home = false → s.Runs (.revocation job region page home) fun t =>
         t.sent = .revoked home job region page :: s.sent ∧ t.flight = again ∧ ∀ k ∈ t.tables.lines, ¬mine k)) ∧
      (s.Runs (.revocationAcknowledgement job region page rank) fun t =>
        ∀ h ∈ t.tables.sharers, h.ctx = c.num → h.region = region → h.page = first → rank ∉ h.holders) ∧
      (∀ f t, s.replicaLeaf c region off [] = (.error f, t) →
        let held := t.holdFault c region off f 6 true home fun e => { e with locks := e.locks ++ [(region, off, ⟨home, tag⟩, data)] }
        exec (.replicaLock job region off ⟨home, tag⟩ data) s = .next (if held.1.isSome then held.2 else
          held.2.emit (.reply home tag (.nack XFault.destBusy.code)))) ∧
      (∀ w t, s.replicaLeaf c region off [] = (.ok w, t) →
        let lock : Locked := ⟨c.num, region, c.pageOf region off, home⟩
        let l := fld w 38 16 * 65536 + off % 2 ^ (((sfind c.regions region).map Region.pageBits).getD 16)
        exec (.replicaLock job region off ⟨home, tag⟩ data) s = .next (((t.onTables fun u => { u with
          locked := if u.locked.contains lock then u.locked else u.locked ++ [lock] }).store { cls := .fab, remote := some home } [⟨l, data.length, t.stamp⟩] []
            none l (c.weightOf w) none data).2.emit (.reply home tag (.data [] 0)))) ∧
      s.Runs (.replicaUnlock job region off ⟨home, tag⟩) fun t => t.sent = .reply home tag (.data [] 0) :: s.sent ∧
        ∀ k ∈ t.tables.locked, k ≠ ⟨c.num, region, c.pageOf region off, home⟩)

/-- 12 R263, 07 R144, R145, R149, R151 to R154, R159, R162, 11 R233, R236, 13 R275, R283, R298: what the engines do. A free queue entry goes to the oldest
request; a unit starts the command it has next, with the chain it then drives; a command that runs, and follows none that it must, has its effect. Of those
whose data are within reach: a load puts the element codes it reads in the shadow plane of each member, its format set; a run puts in each element of its
tile, where no input is poisoned, the chunk sums of the row and the active plane's column, each rounded, added one after another to the old value; an
epilogue writes the converted elements of its tile, row by row, and nothing else; an invocation of `mdelta` chooses its kind by the first reason that holds,
counts, and its members' tiles show what the slot's y then holds. Links form when every join is offered; the Porter starts, places and retires its
transfers, and a piece placed here puts the bytes it has read at its destination and nothing elsewhere; and a sealed batch all of whose transfers have ended
finishes, its record written where it has one. -/
def Obligations.EngineEvents : Prop :=
  ∀ (s : State) (c : CoreRef) (u : MillUnit) (e : Engine) (slot piece uid stream : Nat) (p : Party) (cmd : MillCmd) (run : MillRun) (xf : Transfer),
    (∀ r, (s.engineLine c e).head? = some r → s.queueRoom c e = true →
      let gone := s.onCore c fun k => { k with waiting := k.waiting.erase r }
      (r = .mill cmd → exec (.engineQueueGrant c e) s = .next ((gone.millEnter c cmd).resumeIn cmd.uid)) ∧
      (∀ k q, r = .port k → s.party? k.uid = some q → (q.score.any fun x => x.owner == k.id) = true →
        exec (.engineQueueGrant c e) s =
          .next ((((gone.onParty k.uid fun q => q.claim k.stream (k.batch.getD 0) k.id []).portPush c k).postGranted c k.id).resumeIn k.uid)) ∧
      ∀ n v gid i x, r = .gang n v gid i → gone.turnFor v gid = some x → x.g.replaying = false →
        exec (.engineQueueGrant c e) s = .next (gone.grantGang x i)) ∧
    (∀ k, s.unitBlocked (unitKey c (MillUnit.key u)) = false → (s.core c).mill.nextFor u = some (k, cmd) → s.party? cmd.uid = some p →
      (cmd.op = .swap ∨ cmd.op = .unlink ∨ (∃ m, cmd.op = .zero m) ∨ ∃ a m r, cmd.op = .read a m r) →
      let m := (s.core c).mill
      let run : MillRun := { cmd := { cmd with view := View.join cmd.view p.millView }, block := [], cores := m.members c, after := m.ahead u k }
      exec (.millCommandStart c u) s = .next (((s.onMill c fun m => { m with queue := m.queue.eraseIdx k }).leaveSlots [cmd.id]).onMill c fun m => match u with
        | .loading => { m with loading := some run }
        | .streaming => { m with streaming := some run })) ∧
    (∀ k off n, s.unitBlocked (unitKey c (MillUnit.key u)) = false → (s.core c).mill.nextFor u = some (k, cmd) → s.party? cmd.uid = some p →
      cmd.op.blockAt = some (off, n) → (p.segLim.getD 0 0).toNat < off + n →
      exec (.millCommandStart c u) s = .next ((s.onMill c fun m => { m with queue := m.queue.eraseIdx k }).startFault c u cmd 5 false)) ∧
    ((match u with | .loading => (s.core c).mill.loading | .streaming => (s.core c).mill.streaming) = some run → s.engineHeld run.cmd.id = false →
      (s.core c).mill.mustFollow run = false → s.unitBlocked (unitKey c (MillUnit.key u)) = false → s.party? run.cmd.uid = some p → p.ended = false →
      let i := Instr.millCommandResolve c u
      let each := fun (f : Mill → Mill) => (run.cores.foldl (fun (s : State) k => s.onMill k f) s).millEnd c u run.cmd 0 false []
      (run.cmd.op = .swap → exec i s = .next (each fun m => { m with active := m.shadow, shadow := m.active })) ∧
      (∀ mask, run.cmd.op = .zero mask → exec i s =
        .next (each fun m => (List.range 4).foldl (fun (m : Mill) a => if bit mask a then m.setTile a {} else m) m)) ∧
      let keys := run.cores.map coreKey
      let acc32 := fun (o : Option Nat) (sums : List XVal) => (sums.foldl (fun a q =>
        let r := fmtF32.round .rne false q
        some (a.elim r fun v => fmtF32.round .rne false (xadd .rne (fmtF32.value v) (fmtF32.value r)))) o).getD 0
      let sums := fun (ch : Nat) (row : RowIn) (w : Nat → XVal) => (List.range (ceilDiv row.length ch)).map fun c =>
        exactSum ((List.range ch).filterMap fun j => (row.getD (c * ch + j) none).map fun a => xmul a.1 (w (c * ch + j)))
      (∀ t b, run.cmd.op = .load t b → exec i s = .next (s.runLoad c u p run t) ∧
        ∀ got s1 cols s2 scales s3, let x := loadBlock run.block
          let n := planeN t
          let v := s1.millView c p run.cmd
          s.gather c p run (elemUnit t) run.reads = (got, s1) → got.any anyWait = false → causeOf got.flatten = 0 →
          s1.readExtents v (elemUnit t) (got.take (n * run.cores.length)) = (cols, s2) →
          s2.readExtents v 1 (got.drop (n * run.cores.length)) = (scales, s3) →
          keys.Nodup → x.k0 + x.kn ≤ 512 → (∀ y ∈ cols, (elems t y).length ≤ x.kn) → s.Runs i fun q => ∀ j k, run.cores[j]? = some k →
            let pl := (q.core k).mill.shadow
            pl.fmt = some t ∧ ∀ m a y, m < n → (elems t (cols.getD (n * j + m) []))[a]? = some y →
              pl.code m (x.k0 + a) = y.1 ∧ (isMx t = false → pl.isPoison m (x.k0 + a) = y.2)) ∧
      (∀ t b, run.cmd.op = .run t b → exec i s = .next (s.runRun c u p run t) ∧
        ∀ rs s1 rows s2, let x := runBlock run.block
          let f := runFmt t
          s.fetchRows c p run t x (List.range x.m) = (rs, s1) → (∀ r ∈ rs, r.wait = false ∧ r.cause = 0) →
          s1.readRows c p run t x.klen rs = (rows, s2) → keys.Nodup → s.Runs i fun q => ∀ k ∈ run.cores,
            let old := (s2.core k).mill.tile x.acc
            let pl := (s2.core k).mill.active
            let new := (q.core k).mill.tile x.acc
            ∀ a n row, rows[a]? = some (row, false) → n < tileN f → (∀ y ∈ row, ∀ z, y = some z → z.2 = false) →
              (x.zero = true ∨ old.isPoison a n = false) → (∀ j z, row[j]? = some (some z) → pl.isPoison n j = false) →
              let w := pl.weight (pl.fmt.getD t) n
              let was := old.code a n
              new.fmt = f ∧ new.isPoison a n = false ∧ new.code a n = match f with
                | .f64 => row.zipIdx.foldl (fun y z => z.1.elim y fun g => fmtF64.round .rne false (xadd .rne (xmul g.1 (w z.2)) (fmtF64.value y)))
                    (if x.zero then 0 else was)
                | .i32 => (((sums 32 row w).foldl (fun y z => y + intOf z) (if x.zero then 0 else tyVal .i32 was)) % 2 ^ 32).toNat
                | _ => acc32 (if x.zero then none else some was) (sums (planeChunk (pl.fmt.getD t)) row w)) ∧
      (∀ t b, run.cmd.op = .epi t b → exec i s = .next (s.runEpi c u p run t) ∧
        ∀ dst : List (Nat × Nat), let x := epiBlock run.block
          let tile := (s.core (run.cores.getD run.member c)).mill.tile x.acc
          let n := tileN tile.fmt
          let len := elemBytes t n
          let g := if tile.fmt = .f64 then fmtF64 else fmtF32
          let rnd := Rnd.ofCode x.rnd
          isMx t = false → run.begun = true → run.fault = 0 → run.count = none → run.member < run.cores.length → s.pieces run.cmd.id = [] →
          x.bias = false → x.act < 3 → run.dest = dst.map (fun d => [⟨d.1, len, .loc d.2 none none⟩]) → dst.length = x.m →
          dst.Pairwise (fun d d' => d.2 + len ≤ d'.2 ∨ d'.2 + len ≤ d.2) → (∀ d ∈ dst, ∀ w ∈ touchedUnits d.2 len, w ∉ s.failing) →
          Memory.wf s.mem = true → s.Runs i fun q =>
            (∀ k d, dst[k]? = some d → q.bytesAt d.2 len = (packElems t ((List.range n).map fun m =>
              let code := tile.code k m
              let z := tyVal .i32 code
              let z := if x.act = 1 then max 0 z else if x.act = 2 then min (max z (tyVal .i32 x.lo)) (tyVal .i32 x.hi) else z
              let y := g.value code
              let y := if x.act = 1 then g.value (g.round .rne false (reluVal y)) else if x.act = 2 then
                g.value (g.round .rne false (clampVal (fmtF32.value x.lo) (fmtF32.value x.hi) y)) else y
              (if tile.fmt = .i32 then (if t = .i32 then (z % 2 ^ 32).toNat else if t = .i8 then ((if x.satf then satTo .i8 z else z) % 2 ^ 8).toNat
                 else (fmtOf t).round rnd x.satf (.ofInt z))
               else if t = .i8 then ((toIntType .i8 rnd y) % 2 ^ 8).toNat else (fmtOf t).round rnd x.satf y, tile.isPoison k m))).map (·.1)) ∧
            ∀ l, (∀ d ∈ dst, l < d.2 ∨ d.2 + len ≤ l) → q.byteAt l = s.byteAt l) ∧
      (∀ t b, run.cmd.op = .delta t b → exec i s = .next (s.runDelta c u p run t) ∧
        ∀ x got s1 rows s2, let blk := deltaBlock run.block
          let pls := run.cores.map fun k => (s.core k).mill.active
          let live := run.live.getD (((s.ctx? p.ctx).map fun k => if (s.core c).mill.active.wgrp < k.vsize then
            sget 0 s.tables.versions (k.vbase + (s.core c).mill.active.wgrp) else 0).getD 0)
          ((s.die c.die).slots.find? fun y => some y.idx == run.slot) = some x → x.m ≤ 128 → keys.Nodup →
          (s.setRun c u fun y => { y with live := some live }).gather c p run (elemUnit t) run.reads = (got, s1) → got.any anyWait = false →
          causeOf got.flatten = 0 → s1.readExtents (s1.millView c p run.cmd) (elemUnit t) got = (rows, s2) → x ∈ (s2.die c.die).slots → c.die < s2.dies.length →
          let a : Inputs := rows.map fun y => (elems t y).map fun e => ((fmtOf t).value e.1, e.2)
          ∃ late : Bool,
            let pz := x.pz && (run.pz || late)
            let why : Nat := if x.filled = false then 2 else if blk.force then 7 else if pz then 6 else if x.nf then 4
              else if x.unchk = false ∧ (∃ pl ∈ pls, x.ver ≠ pl.wver ∨ pl.wver ≠ live) then 5 else if x.cnt = x.k then 3
              else if (∃ r ∈ a, ∃ e ∈ r, isFin e.1 = false) ∨ x.inRange a = false then 4 else 1
            let mid := if why = 1 then (segPairs x).foldl (fun y e => y.advanceSeg a e.1 e.2) x else ({ x with rotten := [] } : Slot).refresh a
            s.Runs i fun q => ∃ y ∈ (q.die c.die).slots, y.idx = x.idx ∧ y.filled = true ∧ y.last = why ∧ y.cnt = (if why = 1 then x.cnt + 1 else 0) ∧
              ∀ j k m n, run.cores[j]? = some k → m < x.m → n < 128 →
                let tile := (q.core k).mill.tile blk.acc
                let pl := (s2.core k).mill.active
                let at_ := Slot.yKey j m n
                let row := if why = 1 then x.deltaRow a m else mid.fullRow a m
                tile.fmt = .f32 ∧ tile.code m n = sget 0 y.y at_ ∧ tile.isPoison m n = y.ypois.contains at_ ∧
                (y.ypois.contains at_ = false → sget 0 y.y at_ =
                  acc32 (if why = 1 then some (sget 0 x.y at_) else none) (sums (planeChunk (pl.fmt.getD .bf16)) row (pl.weight (pl.fmt.getD .bf16) n)))) ∧
      (∀ a m r, run.cmd.op = .read a m r → exec i s = .next (s.runRead c u run a m r)) ∧
      (run.cmd.op = .unlink → exec i s = .next ((s.unlink c).millEnd c u run.cmd 0 false [])) ∧
      (∀ b, run.cmd.op = .bind b → exec i s = .next (s.runBind c u run)) ∧
      (∀ n, run.cmd.op = .drop n → exec i s = .next (s.runDrop c u run n)) ∧
      (∀ n, run.cmd.op = .query n → exec i s = .next ((s.millStatus run.cmd (slotWords (s.slotTaken c run))).millEnd c u run.cmd 0 false []))) ∧
    (∀ len, (s.core c).mill.streaming = some run → run.cmd.op = .link len → 1 < len → s.alive run = true →
      let ks := (List.range (len - 1)).map fun j => (⟨c.die, c.core + 1 + j⟩ : CoreRef)
      ((∃ k ∈ ks, s.offer k c.core = none) → exec (.chainLinkForms c) s = .next s) ∧
      ((∀ k ∈ ks, (s.offer k c.core).isSome = true ∧ (s.core k).mill.owner = (s.core c).mill.owner) →
        exec (.chainLinkForms c) s = .next ((c :: ks).foldl (fun (t : State) k => match (t.core k).mill.streaming with
          | some x => t.millEnd k .streaming x.cmd 0 false []
          | none => t) (s.linkMills c len)))) ∧
    ((8 ≤ (s.core c).xfers.length → exec (.transferStart c) s = .next s) ∧
     ∀ k n, (s.core c).xfers.length < 8 → s.unitBlocked (unitKey c 2) = false → (s.core c).nextXfer = some (k, n) → s.party? k.uid = some p →
       let x : Transfer := { slot := lowestFree 8 ((s.core c).xfers.map (·.slot)), cmd := k, shape := [], segBase := p.segBase, segLim := p.segLim, held := true
                             start := View.join (View.join (View.join p.known p.portView) k.view) k.saw }
       exec (.transferStart c) s = .next ((s.onCore c fun z => { z with
         urgent := z.urgent.filter (fun y => y.id != k.id), normal := z.normal.filter (fun y => y.id != k.id), run := n, xfers := z.xfers ++ [x] }).xferGo c x p)) ∧
    (s.xferAt c slot = some xf → s.party? xf.cmd.uid = some p → p.ended = false →
      (xf.abort = none → xf.held = true → exec (.piecePlacement c slot piece) s = .next (s.xferGo c xf p)) ∧
      (xf.abort = none → xf.held = false → xf.coll = none → exec (.piecePlacement c slot piece) s = .next (s.placeCopy c xf p piece) ∧
        (xf.placed.contains piece = true → s.placeCopy c xf p piece = s) ∧
        let h := shapeOf xf.shape
        let t := piece / 2 ^ 20 / 4096
        let g := piece / 2 ^ 20 % 4096
        let runs := pieceRuns (xf.pairs t) (piece % 2 ^ 20)
        xf.placed.contains piece = false → xf.failed.contains t = false → t < (layoutOf xf.src).tiles → (h.targets t).contains g = true → runs ≠ [] →
        h.rankOf g = p.rank → h.aen = false → ∀ bs s1 ps s2 ds s3,
          s.portFetch xf p (State.portView xf p) (engineSpace (layoutOf xf.src).sp) (runs.map fun r => (r.src, r.len)) = (.ok, bs, s1) →
          s1.engineAll (xf.party p) (engineSpace (layoutOf xf.dst).sp) true (runs.map fun r => (r.dst, r.len)) = (some ps, s2) →
          s2.portLocate xf p ps = (ds, s3) → s3.xferAt c slot = some xf → (∀ d ∈ ds.flatten, d.2 = .ok ∧ ∃ l, d.1.place = .loc l none none) →
          let es := (ds.zip bs).flatMap fun d => splitTagged (d.1.map (·.1)) d.2
          (∀ d ∈ es, d.2.length = d.1.len) → (es.map (·.1)).Pairwise (fun d d' => ∀ l l', d.place = .loc l none none → d'.place = .loc l' none none →
            l + d.len ≤ l' ∨ l' + d'.len ≤ l) → s3.failing = [] → Memory.wf s3.mem = true →
          s.Runs (.piecePlacement c slot piece) fun q => (∃ y, q.xferAt c slot = some y ∧ y.placed = xf.placed ++ [piece]) ∧
            (∀ d ∈ es, ∀ l, d.1.place = .loc l none none → q.bytesAt l d.1.len = d.2.map (·.1)) ∧
            ∀ b, (∀ d ∈ es, ∀ l, d.1.place = .loc l none none → b < l ∨ l + d.1.len ≤ b) → q.byteAt b = s3.byteAt b) ∧
      (s.unitBlocked (unitKey c 2) = false → s.replicating (engineIssuer .port p c) = false → s.collOf c xf = none → xf.abort = none → xf.held = false →
        exec (.transferRetire c slot) s = .next (s.retireCopy c xf p)) ∧
      ∀ k why, s.unitBlocked (unitKey c 2) = false → s.replicating (engineIssuer .port p c) = false → s.collOf c xf = some k → xf.abort = some why →
        exec (.transferRetire c slot) s = .next (s.retireAbort c xf p k why)) ∧
    (∀ b bs, s.party? uid = some p → (p.stream stream).sealed = b :: bs → b.left = 0 → p.image = none →
      (b.roff = none → exec (.batchFinish uid stream) s = .next (s.onParty uid fun q => q.setStream stream { p.stream stream with
        sealed := bs, view := View.join (View.join (p.stream stream).view b.view) [] })) ∧
      ∀ o, b.roff = some o → p.ended = false →
        let loc := locScratch p.core ((p.segBase.getD 0 0).toNat + o)
        (∀ w ∈ touchedUnits loc 16, w ∉ s.failing) → Memory.wf s.mem = true → s.Runs (.batchFinish uid stream) fun t =>
          t.bytesAt loc 16 = bytesOf 2 b.num ++ bytesOf 2 b.count ++ bytesOf 1 b.flags ++ bytesOf 1 b.cause ++ bytesOf 2 b.first ++ bytesOf 4 0 ++ bytesOf 4 1 ∧
          (∀ l, l < loc ∨ loc + 16 ≤ l → t.byteAt l = s.byteAt l) ∧ ∃ q, t.party? uid = some q ∧ (q.stream stream).sealed = bs)

/-- 13 R287 to R296, R302: what a participant does with the messages of a collective that is in its table, its transfer running: a handshake is kept, a
contribution applied and a final tile placed, each acknowledged once its chunk stands; a merged contribution counts only where SWITCH_MERGE has been
negotiated (17 R375); an abort notice ends the collective and is acknowledged; an acknowledgement clears its message, and one that misses its deadline
aborts; counts and replies are kept and acknowledged; and a withdrawal drops a handshake that has not been used. A handshake that comes before its
collective has started here is kept for it. Two tiles combine element by element: the sum of floats is rounded to nearest even and that of integers wraps,
minimum and maximum take one of the two, and the bitwise forms act on the bits. -/
def Obligations.CollectiveEvents : Prop :=
  ∀ (s : State) (m : MsgHead) (body : Handshake) (tile : TileMsg) (d n id : Nat) (off : Option Nat) (e : Collective) (x : Transfer) (p : Party),
    (∀ (red k : Nat) (t : Ty) (a b : List Byte), let es := t.width / 8
      let u := leAt a (k * es) es
      let v := leAt b (k * es) es
      let f := fmtOf t
      let into := fun (w : Nat) => leAt (combineTiles red t a b) (k * es) es = w % 2 ^ (8 * es)
      0 < es → a.length = b.length → (k + 1) * es ≤ a.length →
      (t.isFloat = true → (red = 1 → into (f.round .rne false (xadd .rne (f.value u) (f.value v)))) ∧
        (red = 2 → into (f.round .rne false (xminmax true (f.value u) (f.value v)))) ∧
        (red = 3 → into (f.round .rne false (xminmax false (f.value u) (f.value v))))) ∧
      (t.isFloat = false → (red = 1 → into (u + v)) ∧ (red = 2 → into (if tyVal t v < tyVal t u then v else u)) ∧
        (red = 3 → into (if tyVal t u < tyVal t v then v else u))) ∧
      (red = 4 → into (u &&& v)) ∧ (red = 5 → into (u ||| v)) ∧ (red = 6 → into (u ^^^ v))) ∧
    (s.collAt m = none → s.tables.early.contains (m, body) = false → (s.jobCtx? m.job).isSome = true →
      exec (.handshake m body) s = .next (s.onTables fun t => { t with early := t.early ++ [(m, body)] })) ∧
    (s.collAt m = none → exec (.withdrawal m) s =
      .next (s.onTables fun t => { t with early := t.early.filter fun y => !sameSender y.1 m || y.2.kind == 255 })) ∧
    (s.collAt m = some (d, e, x, p) →
    (e.abort = none → exec (.handshake m body) s =
      .next ((s.setColl d { e with hands := sput e.hands m.src body }).beginColl d { e with hands := sput e.hands m.src body })) ∧
    (e.abort = none → e.begun = true → p.ended = false → x.cmd.a2av = false →
      let h := shapeOf x.shape
      let merged := tile.bitmap ≠ 2 ^ m.src
      (merged → s.steward.negfeat.getLsbD 33 = false ∨ h.det = true → exec (.contribution m tile) s = .next s) ∧
      ((merged → s.steward.negfeat.getLsbD 33 = true ∧ h.det = false) → tile.tile < (layoutOf x.src).tiles → h.owner tile.tile = e.self → ∀ t,
        s.applyTile x p e.core e m.src tile = (.ok, t) ∨ s.applyTile x p e.core e m.src tile = (.wait, t) →
        exec (.contribution m tile) s = .next t) ∧
      (h.mode = 2 → tile.tile < (layoutOf x.dst).tiles →
        (e.finals.contains tile.tile = true → exec (.final m tile) s = .next (s.ackTo x e m (finalId tile.tile e.self))) ∧
        ∀ ps t, e.finals.contains tile.tile = false → e.busy tile.tile = false → s.chunkParts x p tile.tile = (.ok, ps, t) →
          let w := t.writeTile x p e.core tile.tile ps tile.bytes tile.poison
          exec (.final m tile) s = .next (w.2.2.tileWritten e.core x p e ⟨tile.tile, tile.tile, [m.src], tile.bitmap, true, tile.bytes, tile.poison⟩
            (w.1, w.2.1)))) ∧
    (exec (.abortNotice m) s = .next ((s.abortColl d e 1).ackTo x e m abortId)) ∧
    (id < 2 ^ 32 → exec (.messageAcknowledgement m id) s =
      .next (s.setColl d { e with unacked := e.unacked.filter fun u => u.id != msgId d e.idx id })) ∧
    (x.cmd.a2av = true → exec (.messageAcknowledgement m (2 ^ 32)) s = .next (s.setColl d { e with blocks := natAdd e.blocks m.src })) ∧
    (∀ c slot y k, s.xferAt c slot = some y → s.collOf c y = some k → exec (.collectiveAckTimeout c slot id) s =
      .next (if k.unacked.any fun u => u.id == msgId c.die k.idx id && decide (u.deadline ≤ s.clock.toNat) then s.abortColl c.die k 3 else s)) ∧
    (e.abort = none → e.begun = true → p.ended = false → x.cmd.a2av = true →
      (sfind e.counts m.src = none → exec (.countMessage m n) s =
        .next ((((s.setColl d { e with counts := sput e.counts m.src n }).ackTo x { e with counts := sput e.counts m.src n } m (countId e.self)).answerCounts
          p e.core x { e with counts := sput e.counts m.src n }))) ∧
      (e.replyOf m.src = none → exec (.offsetReply m off) s =
        .next ((s.setColl d { e with replies := e.replies ++ [(m.src, off)] }).ackTo x e m (offsetId e.self)))) ∧
    (exec (.withdrawal m) s = .next (if e.begun then s else s.setColl d { e with hands := sdel e.hands m.src })))

/-- 12 R251 to R260, R271: what the command processor does. A doorbell within its queue moves TAIL; a request whose stores have drained and which comes
next is turned away from a queue that is off or full, and else checked and copied; a packet that fails a check completes with its cause, and one that
passes is taken with its edges; a launch whose edges are all satisfied becomes ready, its listed buffers made current; a unit is placed where it fits and
may, unless a reservation is due; a company is reserved after 65,536 clk; `fetchw` is answered: STATUS 0 with the next unit, which is then withdrawn, 1 where
none is left, 2 where the launch has failed (UNIT 0 in both: the model's choice, log 103); parties retire, and launches complete. All of it waits while an
event record of the command processor does (log 111). -/
def Obligations.LaunchEvents : Prop :=
  ∀ (s : State) (ctx q v id lt base die comp uid : Nat) (core : CoreRef) (c : Context) (l : Launch) (p : Party), s.unitBlocked unitCommand = false →
    (s.ctx? ctx = some c →
      let d := c.queueAt q
      let step := (w32 v - d.tail).toNat
      exec (.doorbell ctx q v) s = .next (if d.mode && decide (q < 16 ∧ 0 < step ∧ step + (d.tail - d.head).toNat ≤ 2 ^ d.size)
        then s.setCtx (c.setQueue q { d with tail := w32 v }) else s.linkEvent 0x031B)) ∧
    (∀ r a g, s.requests.find? (fun r => r.id == id) = some r → s.access? id = some a → s.party? r.uid = some p →
      s.gang? r.uid r.gid = some g → g.wait = some (.launch r.id) → (p.crews.any fun e => e.storeq.flatten.any r.owed.contains) = false →
      s.overtaken (.queue r.ctx r.q) r.place = false →
      (∀ o ∈ s.requests, o.id ≠ id → o.ctx = r.ctx → o.q = r.q → ∃ k, s.gang? o.uid o.gid = some k ∧ k.wait = some (.launch o.id)) →
      let t := s.serve (.queue r.ctx r.q) r.place
      let d := ((t.ctx? r.ctx).map fun c => c.queueAt r.q).getD {}
      let answer := fun (w : Word) => ((t.endWait r.uid r.gid a.raw).dropRequest r.id).finish a [w] 0
      (t.launchable r.ctx r.q = false → exec (.launchRequest id) s = .next (answer 2)) ∧
      (t.launchable r.ctx r.q = true → 2 ^ d.size ≤ (d.tail - d.head).toNat → exec (.launchRequest id) s = .next (answer 1)) ∧
      (t.launchable r.ctx r.q = true → (d.tail - d.head).toNat < 2 ^ d.size → ∀ f k parts u, supplier (p.ownersOf a) = some f →
        t.checkPacket p f a.lvl (cutAt64K a.addr.toInt 256) = (k, parts, u) → exec (.launchRequest id) s = .next (if k ≠ 0
          then u.launchFault r a g (checkClass k)
          else ((u.endWait r.uid r.gid a.raw).setAccess { a with parts := parts }).launchCopy r { a with parts := parts } p))) ∧
    ((s.nextQueue = none → exec .packetRead s = .next s) ∧
     ∀ rs t, s.nextQueue = some (c, q) → (c.queueAt q).stop = none →
       s.cpLocate c (c.num, q) ((c.queueAt q).base.toNat + 256 * ((c.queueAt q).head.toNat % 2 ^ (c.queueAt q).size)) 256 false = (.ok rs, t) →
       (t.partsPoison rs = true →
         exec .packetRead s = .next ((({ t with turn := c.num * 16 + q + 1 } : State).cpDone (c.num, q)).passSlot c.num q)) ∧
       let b := t.partsBytes rs
       t.partsPoison rs = false →
       (t.packetCause c b ≠ 0 → exec .packetRead s = .next (((t.cpDone (c.num, q)).passSlot c.num q).takePacket c q b [] (t.packetCause c b))) ∧
       (∀ es form read u, t.packetCause c b = 0 → t.readLists c q false (pkEdges b) = (.done es form read, u) →
         exec .packetRead s = .next (((u.cpDone (c.num, q)).passSlot c.num q).takePacket c q b es
           (if form = false then 6 else if pkUnit b = true ∧ u.anyCompany = false then 7 else if read = false then 8 else 0)))) ∧
    (s.launch? lt = some l →
      (l.state = .waiting → (∀ e ∈ l.edges, e.waits = none) → s.ctx? l.ctx = some c →
        let v := l.edges.flatMap fun e => (e.ranges.filter fun r => localBuffer c r.1).flatMap fun r => s.rangeView c r.1 r.2 e.preds
        exec (.bufferListApplication lt) s = .next ((s.onTables fun t => { t with
            lines := t.lines.filter fun k => !(l.edges.flatMap (·.ranges)).any fun r => k.inRange c r.1 r.2 }).onLaunch lt fun l =>
          { l with state := .placing, view := v }).markFirst) ∧
      (l.left = true → s.unitFits l core base = true → s.mayPlace l = true → s.mustReserve l = false →
        exec (.unitPlacement lt core base) s = .next (((if pkUnit l.packet then companyCores core.die (companyOf core.core) else [core]).foldl
          (fun (s : State) k => s.placeParty l k base) s).onLaunch lt fun m =>
            { m with next := m.next + 1, placed := m.placed + 1, reserve := none, ready := 0 }).markFirst) ∧
      (s.unitFits l core base = false → exec (.unitPlacement lt core base) s = .next s) ∧
      (l.left = true → pkUnit l.packet = true → s.firstLaunch.map (·.idx) = some lt → l.reserve = none → die < 4 → comp < 4 → 0 < l.ready →
        l.ready - 1 + 65536 ≤ s.clock.toNat → (s.die die).avail.getD comp false = true → (∀ m ∈ s.live, m.reserve ≠ some (die, comp)) →
        exec (.companyReservation lt die comp) s = .next (s.onLaunch lt fun m => { m with reserve := some (die, comp) })) ∧
      (l.finished = true → pkDoneaddr l.packet = 0 → (s.tables.pending.any fun e => e.queues.contains (64, l.idx)) = false →
        let status := if l.status ≠ 0 then l.status else if l.err then 2 else 0
        let t := if pkDcen l.packet then s.countUp l.ctx (pkDonecnt l.packet) commandIssuer .dev
          (View.join (s.launchView l) ((s.past.take 1).map Past.fact)) else s
        exec (.launchCompletion lt) s =
          .next ({ (if l.id = 0 then t else t.onCtx l.ctx fun c => { c with done := sput c.done l.id l.parties }) with
            live := (t.live.filter fun m => m.idx != lt).map (Launch.release lt status l.parties) } : State).markFirst)) ∧
    (s.party? uid = some p →
      (∀ o rest, p.withdraw = o :: rest → p.suspended = false →
        let loc := locScratch p.core ((p.segBase.getD 0 0).toNat + o)
        let answers := fun (unit status : Nat) (P : State → Prop) => s.Runs (.fetchwAnswer uid) fun t => P t ∧
          t.bytesAt loc 16 = bytesOf 4 unit ++ bytesOf 4 status ++ bytesOf 4 0 ++ bytesOf 4 1 ∧
          (∀ b, b < loc ∨ loc + 16 ≤ b → t.byteAt b = s.byteAt b) ∧ ∃ q, t.party? uid = some q ∧ q.withdraw = rest
        (∀ u ∈ touchedUnits loc 16, u ∉ s.failing) → Memory.wf s.mem = true →
          (p.launch = none → answers 0 1 fun _ => True) ∧
          (p.launch = some lt → s.launch? lt = some l →
            ((l.err = true ∨ l.status ≠ 0) → answers 0 2 fun t => (t.launch? lt).map (·.withdrawn) = some l.withdrawn) ∧
            (l.err = false → l.status = 0 →
              (pkNunits l.packet ≤ l.next → answers 0 1 fun t => (t.launch? lt).map (·.withdrawn) = some l.withdrawn) ∧
              (l.next < pkNunits l.packet → answers l.next 0 fun t => ∃ m, t.launch? lt = some m ∧ m.next = l.next + 1 ∧ m.placed = l.placed ∧
                m.withdrawn = l.withdrawn ++ [(l.next, uid)])))) ∧
      (p.suspended = false → p.entering = none → p.retired = false → p.over_ = true → (s.outriderRuns p && !p.ended) = false → s.commandsDone p = true →
        p.company = false → s.Runs (.partyRetirement uid) fun t => t.party? uid = none ∧ t.mem = s.mem ∧
          (p.launch = some lt → s.launch? lt = some l → ∃ m, t.launch? lt = some m ∧
            m.ended = l.ended + 1 + (l.withdrawn.filter fun w => w.2 == uid).length)))

/-- 14 R304 to R309, R315, R321, 15 R333, R344, R346, 08 R179 to R181, 12 R250, 16 R364 to R367, R370: what the supervisor's tables and operations do when an
occurrence of the device brings them. The table port reads an entry into TDAT or writes it from there, and a refused operation
sets ERR and changes nothing else; so do the counter map and the version windows; carving and granting clear what they add; a suspension stops its set, and once all of it has settled
writes the images and takes the parties off their cores; parties are ended, aborted and restored, and contexts created, retired and renamed, with their result codes. The places of the parts of an image, and what waits for what in
these operations, are the model's readings (logs 29, 30, 41). -/
def Obligations.TableEvents : Prop :=
  ∀ (s : State) (v : DWord) (ctx die q w reg : Nat),
    let port := fun (t : State) (err : Bool) => ({ t with sys := { t.sys with tacc := statusBits taccFields v err } } : State)
    let d := fun k => s.sys.tdat.getD k 0
    let i := fld v 31 0
    let at_ := s.ctxAny (fld v 55 50)
    (v.getLsbD 61 = false → zeroes v 49 32 = true →
      (∀ ws, s.tableEntry v = some ws → exec (.tableRead v) s = .next (port { s with sys := { s.sys with tdat := (ws ++ [0, 0, 0, 0]).take 4 } } false)) ∧
      (s.tableEntry v = none → exec (.tableRead v) s = .next (port s true))) ∧
    (v.getLsbD 61 = true → zeroes v 49 32 = true →
      (fld v 60 56 = 0 → s.regionOpen v = true → exec (.regionAttributeWrite v) s = .next (s.later (.regionAttributeWrite v))) ∧
      (fld v 60 56 = 0 → s.regionOpen v = false → i < 64 → d 2 = 0 → d 3 = 0 →
        (regionOf (d 0) (d 1) = none → exec (.regionAttributeWrite v) s = .next (port s true)) ∧
        ∀ r, regionOf (d 0) (d 1) = some r → exec (.regionAttributeWrite v) s =
          .next (port (((s.setCtxAny { at_ with regions := match r with | some a => sput at_.regions i a | none => sdel at_.regions i }).cutWalks
            (fld v 55 50) i 0 (2 ^ 40)).keepRaw (rawKey 0 (fld v 55 50) i) [d 0, d 1]) false)) ∧
      (fld v 60 56 = 1 → i < 256 → d 3 = 0 →
        (s.windowCopied i = true ∨ windowOfWords (d 0) (d 1) (d 2) = none → exec (.windowWrite v) s = .next (port s true)) ∧
        ∀ n, s.windowCopied i = false → windowOfWords (d 0) (d 1) (d 2) = some n →
          let put := fun (ws : Sparse Window) => port ((s.onTables fun t => { t with windows := ws }).keepRaw (rawKey 1 0 i) [d 0, d 1, d 2]) false
          ((d 0).getLsbD 63 = true → exec (.windowWrite v) s = .next (if s.windowFits i n then put (sput s.tables.windows i n) else port s true)) ∧
          ((d 0).getLsbD 63 = false → exec (.windowWrite v) s = .next (if s.windowShape n then put (sdel s.tables.windows i) else port s true))) ∧
      (fld v 60 56 = 2 → i = 0 → d 2 = 0 → d 3 = 0 →
        (∀ t, s.writeContext (fld v 55 50) (d 0) (d 1) = some t → exec (.contextEntryWrite v) s = .next (port t false)) ∧
        (s.writeContext (fld v 55 50) (d 0) (d 1) = none → exec (.contextEntryWrite v) s = .next (port s true))) ∧
      (fld v 60 56 = 3 → i < 4096 →
        (replicaOf s.sys.tdat = none → exec (.replicaDescriptorWrite v) s = .next (port s true)) ∧
        ∀ r, replicaOf s.sys.tdat = some r → exec (.replicaDescriptorWrite v) s =
          .next (port ((s.onTables fun t => { t with replicas := match r with
            | some e => sput t.replicas i e
            | none => sdel t.replicas i }).keepRaw (rawKey 3 0 i) s.sys.tdat) false))) ∧
    (let set := fun (t : State) (x : DWord) => ({ t with sys := { t.sys with cmacc := x } } : State)
     let c := s.ctxAny (fld v 59 54)
     let g := (fld v 47 46, fld v 45 40)
     (v.getLsbD 61 = true → v.getLsbD 60 = true →
       ((s.cmapEntry v).isSome = true → exec (.cmaccInstall v) s = .next (set s (statusBits cmaccFields s.sys.cmacc true))) ∧
       (s.cmapEntry v = none → (∀ e ∈ s.allCtxs, ∀ k ∈ e.cmap, k.2 ≠ g) → exec (.cmaccInstall v) s =
         .next (set ((s.setCtxAny { c with cmap := sput c.cmap (fld v 53 48) g }).onDie g.1 fun d =>
           { d with counters := d.counters.filter fun k => k.1 / 64 != g.2 }) (statusBits cmaccFields v false)))) ∧
     (v.getLsbD 61 = true → v.getLsbD 60 = false →
       (s.cmapEntry v = none → exec (.cmaccRemove v) s = .next (set s (statusBits cmaccFields v false))) ∧
       ∀ e, s.cmapEntry v = some e →
         exec (.cmaccRemove v) s = .next (if (s.die e.1).triggers.any fun t => t.counter / 64 == e.2 then set s (statusBits cmaccFields s.sys.cmacc true)
           else set (s.setCtxAny { c with cmap := sdel c.cmap (fld v 53 48) }) (statusBits cmaccFields v false))) ∧
     (v.getLsbD 61 = false → exec (.cmaccRead v) s = .next (set s (s.cmaccReadValue v)))) ∧
    (let c := s.ctxAny (fld v 61 56)
     let base := fld v 43 28
     let size := fld v 11 0
     (65536 < base + size → exec (.vwinWrite v) s = .next { s with sys := { s.sys with vwin := statusBits vwinFields s.sys.vwin true } }) ∧
     (base + size ≤ 65536 → (∀ e ∈ s.allCtxs, e.num ≠ fld v 61 56 → rangesMeet e.vbase e.vsize base size = false) →
       (∀ e ∈ s.dies, ∀ k ∈ e.slots, k.ctx ≠ fld v 61 56) → exec (.vwinWrite v) s =
       .next { s.setCtxAny { c with vbase := base, vsize := size } with
         sys := { s.sys with vwin := w64 (put (fld v 61 56) 56 + put base 28 + size) } })) ∧
    (die < 4 → (exec (.nearcarveWrite die v) s = .next (s.setNearcarve die v) ∧ exec (.arenaWrite die v) s = .next (s.setArena die v)) ∧
      (8 < fld v 3 0 → s.setNearcarve die v = s.onDie die fun d => { d with nearBusy := true }) ∧
      ((s.die die).slots ≠ [] → s.setArena die v = s.onDie die fun d => { d with arenaBusy := true }) ∧
      (ctx < 64 → exec (.ngrantWrite ctx die v) s = .next (s.setNgrant ctx die v)) ∧
      (Memory.wf s.mem = true → die < s.dies.length →
        (let n := fld v 3 0
         let old := (s.die die).nearcarve
         let t := s.setNearcarve die v
         ((∃ e ∈ s.allCtxs, ∃ g, sfind e.ngrant die = some g ∧ n * 2 ^ 26 < (g.1 + g.2) * 2 ^ 16) → t = s.onDie die fun d => { d with nearBusy := true }) ∧
         (n ≤ 8 → (∀ e ∈ s.allCtxs, ∀ g, sfind e.ngrant die = some g → (g.1 + g.2) * 2 ^ 16 ≤ n * 2 ^ 26) →
           t.die die = { s.die die with nearcarve := n, nearBusy := false } ∧ (∀ k, k ≠ die → t.die k = s.die k) ∧
           (∀ x, old * 2 ^ 26 ≤ x → x < n * 2 ^ 26 → t.byteAt (locNear die x) = 0) ∧
           ∀ x, x < locNear die (min n old * 2 ^ 26) ∨ locNear die (max n old * 2 ^ 26) ≤ x → t.byteAt x = s.byteAt x)) ∧
        (let base := fld v 38 21
         let size := fld v 20 9
         let t := s.setArena die v
         size ≤ 2048 → die * 2 ^ 37 ≤ base * 2 ^ 21 → (base + size) * 2 ^ 21 ≤ (die + 1) * 2 ^ 37 → (s.die die).slots = [] →
           t.die die = { s.die die with arenaBase := base, arenaSize := size, arenaBusy := false } ∧ (∀ k, k ≠ die → t.die k = s.die k) ∧
           ∀ x, t.byteAt x = if base * 2 ^ 21 ≤ x ∧ x < (base + size) * 2 ^ 21 then 0 else s.byteAt x) ∧
        (let base := fld v 29 16
         let size := fld v 13 0
         let c := s.ctxAny ctx
         let old := (sfind c.ngrant die).getD (0, 0)
         let t := s.setNgrant ctx die v
         c.num = ctx →
           ((s.die die).nearcarve * 2 ^ 26 < (base + size) * 2 ^ 16 →
             t = s.setCtxAny { c with ngBusy := if c.ngBusy.contains die then c.ngBusy else die :: c.ngBusy }) ∧
           ((base + size) * 2 ^ 16 ≤ (s.die die).nearcarve * 2 ^ 26 →
             (∀ e ∈ s.allCtxs, e.num ≠ ctx → ∀ g, sfind e.ngrant die = some g → rangesMeet g.1 g.2 base size = false) →
             (∀ p ∈ s.parties, p.retired = false → p.image = none → p.ctx = ctx → p.core.die = die → p.segLim.getD 2 0 = 0) →
             t.ctxAny ctx = { c with ngrant := sset (0, 0) c.ngrant die (base, size), ngBusy := c.ngBusy.filter (· != die) } ∧
             ∀ x, t.byteAt x = if (locNear die (base * 2 ^ 16) ≤ x ∧ x < locNear die ((base + size) * 2 ^ 16)) ∧
               ¬(locNear die (old.1 * 2 ^ 16) ≤ x ∧ x < locNear die ((old.1 + old.2) * 2 ^ 16)) then 0 else s.byteAt x))) ∧
      exec (.errorCounterClear die reg v) s = .next (if v ≠ 0 then s
        else if 0x0310 ≤ reg ∧ reg ≤ 0x0315 then s.onDie die fun d => { d with errs := sdel d.errs (reg - 0x0310) }
        else if 0x0318 ≤ reg ∧ reg ≤ 0x031D then s.onTables fun t => { t with links := sdel t.links reg } else s)) ∧
    (ctx < 64 → q < 16 → w < 4 → let c := s.ctxAny ctx
      exec (.launchQueueDescriptorWrite ctx q w v) s = .next (s.setCtxAny (c.setQueue q ((c.queueAt q).write w v))).tick ∧
      ((c.queueAt q).en = true → (c.queueAt q).write 2 v = c.queueAt q)) ∧
    (let p := s.partyAt (pctlCore v) (pctlSlot v)
     let events := [(1, Instr.pctlSuspend v), (3, .pctlEnd v), (4, .pctlAbortx v)]
     (∀ e ∈ events, pctlOp v = e.1 → p = none → exec e.2 s = .next (s.setPstat v .noParty 0)) ∧
     ∀ a, p = some a →
       let set := s.suspendSet a
       let live := set.filter fun b => !b.ended
       (set.any (fun b => b.gangs.any (·.level)) = true →
         (pctlOp v = 3 → exec (.pctlEnd v) s = .next (s.setPstat v .atS set.length)) ∧
         (pctlOp v = 4 → exec (.pctlAbortx v) s = .next (s.setPstat v .atS set.length))) ∧
       (set.any (fun b => b.gangs.any (·.level)) = false →
         (pctlOp v = 3 → exec (.pctlEnd v) s = .next ((s.endParty a.uid .ended).setPstat v .ok set.length)) ∧
         (pctlOp v = 4 → exec (.pctlAbortx v) s = .next ((s.abortParty a).setPstat v .ok set.length))) ∧
       (pctlOp v = 1 →
         (live = [] → exec (.pctlSuspend v) s = .next (s.setPstat v .ok 0)) ∧
         (live ≠ [] → a.suspended = false →
           (live.any (fun b => b.gangs.any (·.level)) = true → exec (.pctlSuspend v) s = .next (s.setPstat v .atS live.length)) ∧
           (live.any (fun b => b.gangs.any (·.level)) = false →
             (s.areasOk (pctlArea v) live.length = false → exec (.pctlSuspend v) s = .next (s.setPstat v .badArea live.length)) ∧
             (s.areasOk (pctlArea v) live.length = true →
               exec (.pctlSuspend v) s = .next ((live.foldl (fun (t : State) b => t.stopParty b) s).later (.pctlSuspend v))))) ∧
         (live ≠ [] → a.suspended = true →
           let stopped := live.filter (·.suspended)
           let t := stopped.foldl (fun (t : State) b => t.takeMill b) s
           (stopped.all t.settled = false → exec (.pctlSuspend v) s = .next (t.later (.pctlSuspend v))) ∧
           (stopped.all t.settled = true → s.Runs (.pctlSuspend v) fun u => u.sys.pstat = w64 (stopped.length * 256)) ∧
           (stopped = [a] → t.settled a = true → Memory.wf s.mem = true → s.Runs (.pctlSuspend v) fun u =>
             let at_ := pctlArea v
             let blocks := a.byFid.flatMap (s.blockBytes a)
             ∃ (crc : Nat) (bs : List Byte) (b : Party), u.party? a.uid = some b ∧ b.image = some crc ∧ b.core = ⟨a.core.die + 4, a.core.core⟩ ∧
               leAt bs 0 4 = 1 ∧ leAt bs 8 4 % 64 = a.ctx % 64 ∧ leAt bs 48 4 = crc % 2 ^ 32 ∧
               (bs.drop (64 + a.fibreLen)).take blocks.length = blocks ∧
               (bs.drop (64 + a.fibreLen + blocks.length + a.recordLen)).take a.scrSize = s.bytesAt (locScratch a.core a.scrBase) a.scrSize ∧
               u.bytesAt at_ bs.length = bs ∧ ∀ x, x < at_ ∨ at_ + bs.length ≤ x → u.byteAt x = s.byteAt x)))) ∧
    (pctlOp v = 2 → (s.entered v).any (·.returning) = true → exec (.pctlRestore v) s = .next (s.later (.pctlRestore v))) ∧
    (pctlOp v = 2 → s.entered v ≠ [] → (s.entered v).any (·.returning) = false → exec (.pctlRestore v) s =
      .next (((s.entered v).foldl (fun (t : State) p => t.onParty p.uid fun p => { p with entering := none }) s).setPstat v .ok (s.entered v).length)) ∧
    (pctlOp v = 2 → s.entered v = [] → (s.areasOk (pctlArea v) 1 = false → exec (.pctlRestore v) s = .next (s.setPstat v .badArea 0)) ∧
      (s.areasOk (pctlArea v) 1 = true → s.imageSet (pctlArea v) = none → exec (.pctlRestore v) s = .next (s.setPstat v .badImg 0)) ∧
      ∀ xs, s.areasOk (pctlArea v) 1 = true → s.imageSet (pctlArea v) = some xs →
        (s.areasOk (pctlArea v) xs.length = false → exec (.pctlRestore v) s = .next (s.setPstat v .badArea xs.length)) ∧
        (s.areasOk (pctlArea v) xs.length = true →
          ((∃ x, xs.head? = some x ∧ s.roomFor x.party (restoreTarget v xs.length x.party) = false) →
            exec (.pctlRestore v) s = .next (s.setPstat v .noRoom xs.length)) ∧
          (s.restoreAll v xs.length 0 xs = none → exec (.pctlRestore v) s = .next (s.setPstat v .noRoom xs.length)) ∧
          ∀ t, s.restoreAll v xs.length 0 xs = some t →
            ((t.entered v).any (·.returning) = true → exec (.pctlRestore v) s = .next (t.later (.pctlRestore v))) ∧
            ((t.entered v).any (·.returning) = false → exec (.pctlRestore v) s = .next
              (((t.entered v).foldl (fun (t : State) p => t.onParty p.uid fun p => { p with entering := none }) t).setPstat v .ok (t.entered v).length)))) ∧
    (let k := ctxctlCtx v
     (ctxctlOp v = 1 → exec (.ctxctlCreate v) s = .next (if (s.ctx? k).isSome then s.setCtxstat v true else
       (s.onTables fun t => { t with contexts := sput t.contexts k { num := k, rank := ctxctlRank v }, idle := sdel t.idle k
                                     raw := t.raw.filter fun e => !rawOfContext k e.1 }).setCtxstat v false)) ∧
     (ctxctlOp v = 2 → (k = s.sys.sctx → exec (.ctxctlRetire v) s = .next (s.setCtxstat v true).wakePosts) ∧
       (k ≠ s.sys.sctx →
         let t := ((s.retireParties k).retireLaunches k).retireParties k
         (t.parties.any (fun p => p.ctx == k) = false → exec (.ctxctlRetire v) s = .next ((t.retireContext k).setCtxstat v false).wakePosts) ∧
         (t.parties.any (fun p => p.ctx == k) = true → exec (.ctxctlRetire v) s = .next (t.later (.ctxctlRetire v))))) ∧
     (ctxctlOp v = 3 → exec (.ctxctlSetrank v) s = .next ((s.setCtxAny { s.ctxAny k with rank := ctxctlRank v }).setCtxstat v false)))

/-- 00 R8, 08 R186, R187, 16 R361, R371, R372, 01 R11, 17 R374: errors and resets. An uncorrectable error of memory poisons its unit, counts and is reported; one of a
register is reported and ends the party that holds it; one of a counter poisons it; a corrected error is counted. What finds the errors of a die waits while a
record of it has found no room in the event queue (which unit that is, is the model's reading, log 111), and the addresses and contexts of the records are the
model's choices where the manual is silent (logs 33, 50). A spare takes a core's place, with the state of its Mill, any of whose elements may arrive poisoned (the model's free choice, log 100); a company whose spare is in use is retired
for a failing core, once nothing has to be moved first; and a failing die pair retires the companies of the higher die. DEVICE_RESET leaves every item at its reset value, but
for what the fuses and the Steward's map of the cores keep (the model's choice, log 5). -/
def Obligations.ErrorEvents : Prop :=
  ∀ (s : State) (loc die core comp k dieA dieB : Nat) (l : LaneRef) (blk r : Nat) (c : CoreRef) (p : Party),
    ((s.taint (loc / 64 * 64) 64).poisonAt loc = true ∧ (s.taint (loc / 64 * 64) 64).mem = s.mem) ∧
    (∀ site, s.unitBlocked (unitErrors (siteDie site)) = true → exec (.uncorrectableError site) s = .next (s.later (.uncorrectableError site))) ∧
    (∀ kind, s.unitBlocked (unitErrors die) = true → exec (.patrolScrub die kind) s = .next (s.later (.patrolScrub die kind))) ∧
    (s.unitBlocked (unitErrors (dieOf loc)) = false → exec (.uncorrectableError (.device loc)) s = .next (((s.taint (loc / 64 * 64) 64).errCount (dieOf loc) 5).memRecord 1 (loc / 64 * 64)
      { ctx := s.frameOwner loc })) ∧
    (s.unitBlocked (unitErrors (dieOf loc)) = false → exec (.uncorrectableError (.cacheClean loc)) s =
      .next ((s.errCount (dieOf loc) 5).memRecord 2 (loc / 64 * 64) { ctx := s.frameOwner loc, core := ⟨dieOf loc, 0⟩ })) ∧
    (s.unitBlocked (unitErrors l.die) = false → s.parties.find? (fun p => p.core == ⟨l.die, l.core⟩ && p.fibres.any fun f => f.crew == l.lane && f.blocks.contains blk) = some p →
      exec (.uncorrectableError (.register l blk r)) s =
        .next (((s.errCount l.die 5).memRecord 2 ((blk * 64 + r) * 4) p.source).endParty p.uid .rfError)) ∧
    (s.unitBlocked (unitErrors die) = false → ∃ e, exec (.uncorrectableError (.counter die k)) s =
      .next ((((s.errCount die 5).setCounter die k { (s.die die).counter k with poison := true }).memRecord 5 k e).wakeCounter die k)) ∧
    (s.unitBlocked (unitErrors (dieOf loc)) = false → exec (.uncorrectableError (.write loc)) s = .next { s with failing := natAdd s.failing (loc / 64) }) ∧
    (s.unitBlocked (unitErrors die) = false → (∀ kind, exec (.patrolScrub die (some kind)) s = .next (s.errCount die (scrubIdx kind))) ∧
      exec (.patrolScrub die none) s = .next s) ∧
    (c.die < 4 → c.core < 64 → (s.die c.die).spare.getD (companyOf c.core) false = true → s.coreWorks c = true → s.resident c = [] →
      let used := ((s.die c.die).coreMap.drop (16 * companyOf c.core)).take 16
      exec (.spareTakeover c []) s = .next ((s.damageMill c).onDie c.die fun d => { d with
        coreMap := d.coreMap.set c.core (((List.range 17).find? fun n => !used.contains n).getD 16), spare := d.spare.set (companyOf c.core) false }).tick) ∧
    (die < 4 → (s.die die).avail.getD comp false = true → (s.die die).spare.getD comp true = false → core < 16 → s.onCores die comp [core] = [] →
      exec (.companyRetirement die comp [core] []) s = .next (s.retireCompany die comp [core]).tick) ∧
    (dieA ≠ dieB → max dieA dieB < 4 → exec (.diePairFailure dieA dieB) s = .next ((List.range 4).foldl (fun (t : State) n =>
      if (t.die (max dieA dieB)).avail.getD n false then t.retireCompany (max dieA dieB) n [] else t) s)) ∧
    s.Runs .deviceReset fun t => t.parties = [] ∧ t.mem = [] ∧ t.poison = [] ∧ t.regs = [] ∧ t.flight = [] ∧ t.live = [] ∧ t.sys = State.reset.sys ∧
      t.tables = State.reset.tables ∧ t.cores = State.reset.cores ∧ t.ports = State.reset.ports ∧ t.clock = 0 ∧ t.steward.m = Steward.reset.m

/-- 17 R376 to R389: what the Steward and the ports do. An image that loads in its turn is measured, and one whose signature fails takes the device out of service;
a port that starts has fresh keys and counters at 0, one that goes down is recorded and noticed; a protected slot is sealed under
TXSEQ and opened under RXSEQ, which advance; a slot whose tag is bad is counted, and the
sixteenth within 2^20 slots takes the port down; the gateway changes a transaction's carrier alone; a host's window request for another device goes there; and
each mailbox command answers as its row says. The model's own choices: the digest that a fuse programming extends and the cause of the ports that an unlock
takes down are free values (logs 35, 36); a link start sets AUTHFAIL to 0 as it does the other protection counters, and its record is written where the port had
gone down (log 52); what the ends of the gateway exchange (log 53); the form of the SPDM messages (log 11); and the Steward's waiting with a record that has
found no room (log 111). -/
def Obligations.StewardEvents : Prop :=
  ∀ (s : State) (k port cause good iod rank watts lc width off len tag ctx region : Nat) (image sig header payload tagb : List Byte) (a b : BitVec 256)
    (nonce : BitVec 256) (prot : Bool) (pk : Packet) (op : PktOp) (linkids : LinkIds),
    let w := s.steward
    let q := s.port port
    (w.offline = false → k = w.boot → k ≤ 5 →
      let ok := Config.ecdsaVerify w.lifecycle (sha256 image) sig
      exec (.bootImageLoad k image sig) s = .next (s.onSteward fun w => { w.extendM k (sha256 image) with boot := if ok then k + 1 else k, offline := !ok })) ∧
    (∃ digest, exec (.fuseProgramming lc) s = .next (({ s with draws := s.draws + 4 } : State).onSteward fun w =>
      { w.extendM 6 digest with lifecycle := lc % 8 })) ∧
    (s.unitBlocked unitSteward = false →
      (port < 24 → w.offline = false → exec (.linkStart port true a b linkids prot width) s =
        let t := s.setPort port { up := true, width := width % 8, prot := prot, keyTx := some a, keyRx := some b, linkids := linkids
                                  txseq := 0, rxseq := 0, authfail := 0, fails := [] }
        .next ((if q.down then t.event unitSteward 0 0x36 port {} else t).notice 2 port (width % 8))) ∧
      (port < 24 → w.offline = false → exec (.linkStart port false a b linkids prot width) s = .next (s.portDown port 4)) ∧
      (q.up = true → port < 24 → cause = 1 ∨ cause = 2 → exec (.linkDown port cause) s = .next (s.portDown port cause)) ∧
      (q.up = true → port < 16 → good < 2 → exec (.laneLoss port good) s = .next (s.portDown port 2)) ∧
      ((s.portDown port cause).port port).up = false) ∧
    (s.unitBlocked unitSteward = true →
      (port < 24 → w.offline = false → exec (.linkStart port prot a b linkids prot width) s = .next (s.later (.linkStart port prot a b linkids prot width))) ∧
      (q.up = true → port < 24 → cause = 1 ∨ cause = 2 → exec (.linkDown port cause) s = .next (s.later (.linkDown port cause)))) ∧
    (w.offline = true → exec (.linkStart port prot a b linkids prot width) s = .next s) ∧
    (q.up = false → exec (.linkDown port cause) s = .next s) ∧
    (q.up = true → port < 16 → 2 ≤ good → good < 4 → exec (.laneLoss port good) s = .next (s.setPort port { q with width := 2 })) ∧
    (q.up = true → q.prot = false → exec (.flitTransmit port header payload) s = .next (s.emit (.flit port 0 payload 0)) ∧
      exec (.flitReceive port true header payload tagb) s = .next (s.emit (.passed port payload))) ∧
    (∀ key, q.up = true → q.prot = true → q.keyTx = some key → q.txseq.toNat + 1 < 2 ^ 62 →
      let sealed := Config.gcmSeal key (q.linkids.tx ++ q.txseq) header payload
      exec (.flitTransmit port header payload) s = .next ((s.emit (.flit port q.txseq sealed.1 sealed.2)).setPort port { q with txseq := q.txseq + 1 })) ∧
    (∀ key, q.up = true → q.prot = true → q.keyRx = some key →
      let q' := { q with rxseq := q.rxseq + 1, fails := q.fails.filter fun n => decide (q.rxseq.toNat < n + 2 ^ 20) }
      let bad := { q' with authfail := min (q.authfail + 1) (2 ^ 32 - 1), fails := q'.fails ++ [q.rxseq.toNat] }
      exec (.flitReceive port false header payload tagb) s = .next (s.setPort port q') ∧
      exec (.flitReceive port true header payload tagb) s = .next (match Config.gcmOpen key (q.linkids.rx ++ q.rxseq) header payload tagb with
        | some plain => (s.setPort port q').emit (.passed port plain)
        | none => if 16 ≤ bad.fails.length then (s.setPort port bad).portDown port 3 else s.setPort port bad)) ∧
    (iod < 2 → exec (.gatewayConversion iod .toEthernet pk rank) s = .next (s.emit (.ethernet rank pk)) ∧
      exec (.gatewayConversion iod .toStation pk rank) s = .next (s.emit (.station rank pk))) ∧
    (exec (.hostRequest (.window none off payload)) s = .next (s.windowWrite off payload) ∧
      exec (.hostRequest (.windowRead none off len)) s = .next (s.emit (.hostRead ((List.range len).map fun i => s.windowByte (off + i)))) ∧
      exec (.hostRequest (.window (some rank) off payload)) s = .next (s.emit (.host rank (.window none off payload))) ∧
      exec (.hostRequest (.windowRead (some rank) off len)) s = .next (s.emit (.host rank (.windowRead none off len))) ∧
      (∀ dev, bit s.sys.hbmask.toNat ctx = false → exec (.hostRequest (.memory dev ctx region off op tag)) s =
        .next (s.emit (.hostReply tag (.nack XFault.noContext.code)))) ∧
      (∀ c j, bit s.sys.hbmask.toNat ctx = true → ctx < 64 → s.ctx? ctx = some c → c.job = some j →
        exec (.hostRequest (.memory (some rank) ctx region off op tag)) s =
          .next (s.emit (.packet rank { job := j, init := hostInit, region := region, offset := off, op := op, tag := tag, scope := .sys })) ∧
        exec (.hostRequest (.memory none ctx region off op tag)) s =
          .next (s.inbound { job := j, init := hostInit, region := region, offset := off, op := op, tag := tag, scope := .sys } []))) ∧
    (exec .nstatLostClear s = .next (s.onSteward fun w => { w with lost := false })) ∧
    (exec (.powerEstimate watts) s = .next (if decide (w.pwrcap < watts) == w.throttle then s
      else (s.onSteward fun v => { v with throttle := decide (w.pwrcap < watts) }).notice 5 (b2n (decide (w.pwrcap < watts))) watts)) ∧
    (w.cmd.getLsbD 31 = true → 1024 < w.len → s.unitBlocked unitSteward = false → w.cmd.toNat % 65536 = 4 → exec (.challenge nonce) s =
      .next (s.onSteward fun w => w.answer resultBadArg [])) ∧
    (∀ i n, i < 16 → w.spdm.stage = 3 → leAt payload 1 1 = 0xE0 → leAt payload 3 1 = i + 1 →
      ((w.spdmAnswer payload (bytes256 n)).1.drop 15).take 32 = bytes256 (w.m.getD i 0)) ∧
    (w.cmd.getLsbD 31 = true → w.len ≤ 1024 → s.unitBlocked unitSteward = false →
      let code := w.cmd.toNat % 65536
      let ans := fun (f : Steward → Steward) => Host.Outcome.next (φ := Fault) (ρ := Refusal) (s.onSteward f)
      (w.offline = true → (code = 1 → exec .negotiate s = ans fun w => w.answer resultOffline []) ∧
        (code = 2 → exec .extend s = ans fun w => w.answer resultOffline []) ∧ (code = 3 → exec .powercap s = ans fun w => w.answer resultOffline [])) ∧
      (w.offline = false →
        (code = 1 → exec .negotiate s = ans fun v => if w.negDone then v.answer resultRefused [] else
          Steward.answer { v with negfeat := negotiated w s.allProtected, negDone := true } resultOk (leBytes 32 (negotiated w s.allProtected).toNat)) ∧
        (code = 2 → let j := leNat (w.req 0 1)
          exec .extend s = ans fun v => if j < 7 ∨ 15 < j ∨ leNat (w.req 1 3) ≠ 0 then v.answer resultBadArg []
            else (v.extendM j (of256 (w.req 4 32))).answer resultOk (bytes256 ((v.extendM j (of256 (w.req 4 32))).m.getD j 0))) ∧
        (code = 3 → let x := leNat (w.req 0 2)
          exec .powercap s = ans fun v => if x < 400 ∨ 3200 < x ∨ leNat (w.req 2 2) ≠ 0 then v.answer resultBadArg []
            else Steward.answer { v with pwrcap := x } resultOk (bytesOf 2 x))) ∧
      (code = 4 → exec (.challenge nonce) s = ans fun v => Steward.answer { v with nonce := some nonce } resultOk (bytes256 nonce)) ∧
      (code = 5 →
        let up := (s.ports.filter fun p => p.2.up).map (·.1)
        let s1 := s.onSteward fun v => Steward.answer { v with nonce := none } resultOk []
        let s2 : State := { s1 with draws := s.draws + 1
                                    ports := s.ports.map fun p => (p.1, { p.2 with keyTx := none, keyRx := none }) }
        ∃ n, exec .unlock s = .next (if s.tokenGood (w.req 0 112) then ((up.foldl (fun (t : State) k => t.portDown k n) s2).onSteward fun v =>
          { v.extendM 6 (sha256 (w.req 0 112)) with
            tenantKeys := false, dbgopen := true, debugPort := true, devfeat := setField v.devfeat 36 36 1
            negfeat := if v.negDone then setField v.negfeat 36 36 1 else v.negfeat })
          else s.onSteward fun v => Steward.answer { v with nonce := none } resultRefused [])) ∧
      (code = 6 → ∃ n, exec .spdm s = .next (({ s with draws := s.draws + 4 } : State).onSteward fun v =>
        let x := w.spdmAnswer (w.req 0 w.len) n
        Steward.answer { v with spdm := x.2 } resultOk (x.1.take 0x400))) ∧
      (code = 0 ∨ 6 < code → exec .unknown s = ans fun v => v.answer resultUnknown []))

/-! ### The machine as a whole: decoding, steps, reset and what every step keeps -/

/-- 02 R22, R23: words of the spec's worked examples, byte by byte as they lie in memory, are the instructions the spec says they are. -/
def Obligations.DecodeWords : Prop :=
  decodeBytes [0xAD, 0x00, 0x14, 0x30, 0xB0, 0xDC, 0x00, 0x00] =
    some (.iadd { w := true, guard := some ⟨2, true⟩ } .i32 (.v 5) (.v 6) (.op (.const 3)) {}) ∧
  decodeBytes [0x01, 0x00, 0x1C, 0x08, 0x40, 0x40, 0x19, 0x00] =
    some (.iadd {} .n32 (.v 7) (.v 1) (.op (.v 4)) { cin := true, cout := true }) ∧
  decodeBytes [0x03, 0xC3, 0x28, 0x10, 0x30, 0xC0, 0x81, 0x10, 0x04, 0, 0, 0, 0, 0, 0, 0] =
    some (.ffma {} .f32 (.v 10) (.v 2) (.v 3) (.v 4) { rnd := .rtz, nb := true }) ∧
  decodeBytes [0x01, 0x45, 0x51, 0x78, 0x00, 0x21, 0x01, 0x08] = some (.pmin {} (.v 20) (.v 15) (.op (.v 16)) { dt := .n16, elem := 1 }) ∧
  decodeBytes [0x05, 0x84, 0x31, 0x25, 0x00, 0xC0, 0x09, 0x00] = some (.fold { w := true } .f32 (.s 12) (.v 4) .max false) ∧
  decodeBytes [0x01, 0xC0, 0x01, 0x30, 0x0A, 0xA0, 0xF0, 0xFF] = some (.bra {} (.off 0xFFF0) { u := true, cond := 1, reg := .s 6 }) ∧
  decodeBytes [0x02, 0x00, 0x22, 0x10, 0x00, 0x40, 0x20, 0x05, 0x40, 0x00, 0x00, 0x00] =
    some (.ld {} (.v 8) (.v 2) { ty := .b32, ord := .acq, scope := .pod } (.imm 0x40)) ∧
  decodeBytes [0x05, 0x82, 0x2A, 0x25, 0x0A, 0xA0, 0x01, 0x00] = some (.mrun { w := true } .bf16 (.s 10) (.op (.s 4)) false) ∧
  decodeBytes [0x01, 0xC0, 0x32, 0x45, 0x0A, 0xC0, 0x01, 0x00] = some (.mdelta {} .f32 (.s 12) (.op (.s 8)) false) ∧
  decodeBytes [0x05, 0x01, 0x53, 0x35, 0x0A, 0x00, 0x08, 0x00] = some (.tcopy { w := true } (.s 20) (.op (.s 6)) false true) ∧
  decodeBytes [0x05, 0x40, 0x2B, 0x25, 0x9A, 0x1C, 0x44, 0x05] =
    some (.cntAdd { w := true } (.s 10) (.s 4) (.op (.const 1)) false .rel .pod) ∧
  decodeBytes [0x05, 0x42, 0x43, 0x25, 0x0A, 0x1D, 0x20, 0x05] =
    some (.cntwait { w := true } (.s 16) (.s 4) (.op (.const 8)) .acq .pod 0) ∧
  decodeBytes [0x07, 0x41, 0x33, 0x25, 0x9A, 0x1C, 0x24, 0x00, 0x48, 0x01, 0, 0, 0, 0, 0, 0] =
    some (.trigA2av { w := true } (.s 12) (.s 4) (.const 1) (.s 8) true .dev) ∧
  decodeBytes [0x05, 0xA2, 0x23, 0x15, 0x0A, 0x00, 0x74, 0x00] = some (.rngwr { w := true } (.s 8) (.s 2) 5 3) ∧
  decode false (Raw.ofBytes [0xAD, 0x00, 0x14, 0x30, 0x00, 0xDE, 0x00, 0x00]) = .reject .badOperand ∧
  decode false (Raw.ofBytes [0x05, 0xA2, 0x23, 0x15, 0x0A, 0x00, 0x74, 0x00]) = .reject .priv

/-- 02 R22 to R33: the words of an instruction decode to it. For every well-formed word of a gang, at level S and, unless it is privileged, at level U;
and for every well-formed word of the Outrider; every operand, modifier, guard, marker and immediate comes back, whatever bytes follow. -/
def Obligations.DecodeEncodes : Prop :=
  ∀ (i : Instr) (rest : List Byte),
    (i.wf = true → decode true (Raw.ofBytes (encode i ++ rest)) = .ok i ∧ decodeBytes (encode i ++ rest) = some i ∧
      (privileged i = false → decode false (Raw.ofBytes (encode i ++ rest)) = .ok i)) ∧
    (i.wfOutrider = true → decodeOutrider (Raw.ofBytes (encode i ++ rest)) = .ok i)

/-- 02 R41, R26, R28, R30, R31: the checks 2 to 8 in their order. Each is made once all before it have passed: a register field that breaks its rule gives BAD_OPERAND
whatever the modifiers are; then a reserved or unaccepted bit gives RESERVED_MOD, which the window part of check 6, made on the gang's fibres, still
precedes; and the level alone changes nothing else, for no register index is reserved to level S (03 R50), so that check 8 never fails. What passes them
all is a well-formed word that encodes to exactly the bits it was read from, so that every bit counts. -/
def Obligations.DecodeChecks : Prop :=
  ∀ (priv : Bool) (r : Raw),
    (r.len = 0 → decode priv r = .reject .illegalLen) ∧
    (r.len ≠ 0 → r.op / 64 = 15 → decode priv r = .reject .reservedGroup) ∧
    (r.len ≠ 0 → r.op / 64 = 14 → bit r.op 5 = true → priv = false → decode priv r = .reject .priv) ∧
    (r.len ≠ 0 → r.op / 64 ≠ 15 → r.op / 64 ≠ 14 ∨ bit r.op 5 = false ∨ priv = true →
      (parse r = none → decode priv r = .reject .unassignedOp) ∧
      ∀ i, parse r = some i →
        (i.outriderOnly = true → decode priv r = .reject .unassignedOp) ∧
        (i.outriderOnly = false →
          (i.operandsOk = false ∨ r.fieldsOk = false → decode priv r = .reject .badOperand) ∧
          (∀ h t d a b m, i = .iadd h t d a b m →
            (∃ k, d = .const k) ∨ (∃ k, d = .reserved k ∨ a = .reserved k) ∨ (t.is64 = true ∧ ∃ k, k % 2 = 1 ∧ (d = .v k ∨ a = .v k)) →
            decode priv r = .reject .badOperand) ∧
          (i.operandsOk = true → r.fieldsOk = true →
            (i.modifiersOk = false ∨ i.raw ≠ r → decode priv r = .badMod i) ∧
            (i.modifiersOk = true → i.raw = r → decode priv r = .ok i)))) ∧
    (∀ (s : State) (uid gid : Nat) (p : Party) (g : Gang) (i : Instr) (bs : List Byte),
      s.party? uid = some p → p.gang? gid = some g → decode g.level (Raw.ofBytes bs) = .badMod i →
      s.decoded (.gang uid gid) bs = .illegalEncoding (if windowOk i (p.members g) then .reservedMod else .badOperand) (Raw.ofBytes bs)) ∧
    (r.op / 64 ≠ 14 ∨ bit r.op 5 = false → decode false r = decode true r) ∧
    ∀ i, decode priv r = .ok i → i.wf = true ∧ i.raw = r ∧ (priv = false → privileged i = false)

/-- 16 R425, 02 R41: a step runs what it has fetched. When the occurrence that comes next (the agenda's first, after its time has passed, or with nothing on
the agenda the one the model chooses, log 19) latches bytes for a gang or an Outrider and those bytes decode to an instruction, the step is that
instruction's, run by that gang or Outrider; afterwards nobody issues and nothing is latched. -/
def Obligations.StepRunsDecoded : Prop :=
  ∀ (s s0 s1 : State) (ev i : Instr) (a : Agent) (bs : List Byte),
    (∃ o rest, s.agenda = o :: rest ∧ ev = o.what ∧ s0 = ({ s.pass o.after with agenda := rest } : State).comes ev) ∨
      (s.agenda = [] ∧ s.choice = some ev ∧ s0 = (s.pass 1).comes ev) →
    exec ev s0 = .next s1 → s1.latch = some (a, bs) →
    (∃ uid gid, a = .gang uid gid ∧ decode ((s1.gang? uid gid).any (·.level)) (Raw.ofBytes bs) = .ok i) ∨
      (∃ c, a = .outrider c ∧ decodeOutrider (Raw.ofBytes bs) = .ok i) →
    (∀ t, exec i { s1 with latch := none, agent := a } = .next t → step s = .next (t.settle ev) ∧ (t.settle ev).quiet) ∧
    (∀ r, exec i { s1 with latch := none, agent := a } = .fault r → step s = .fault r) ∧
    (∀ r, exec i { s1 with latch := none, agent := a } = .refused r → step s = .refused r)

/-- 00 R8 and the inventory tables: right after device reset no party, launch, access, request or context exists; every counter, version, error counter and port
register is 0; the Mills are empty with FMT NONE, WGRP none and unowned; the permits stand at the depths of their queues; the supervisor's registers are 0 but for
FHOLD 1,250,000 and RDEADLINE 5,000; the measurement registers are 0 and PWRCAP is 3,200. It is a safe state between steps. -/
def Obligations.ResetState : Prop :=
  let s := State.reset
  s.Safe ∧ s.clock = 0 ∧ s.parties = [] ∧ s.live = [] ∧ s.flight = [] ∧ s.requests = [] ∧ s.cntReqs = [] ∧ s.growq = [] ∧
  (∀ n, s.ctx? n = none) ∧ s.tables.windows = [] ∧ s.tables.replicas = [] ∧ s.tables.sharers = [] ∧ s.tables.pending = [] ∧ s.tables.pages = [] ∧
  (∀ loc, s.poisonAt loc = false) ∧ (∀ l blk, s.genAt l blk = 0) ∧ (∀ n, sget 0 s.tables.versions n = 0) ∧
  (∀ d, d < 4 → (∀ k, (s.die d).counter k = {}) ∧ (s.die d).triggers = [] ∧ (s.die d).slots = [] ∧ (s.die d).colls = [] ∧ (s.die d).errs = [] ∧
    (s.die d).nearcarve = 0 ∧ (s.die d).arenaSize = 0) ∧
  (∀ c, let k := s.core c
    k.mill.active.fmt = none ∧ k.mill.active.wgrp = 0xFFF ∧ k.mill.active.wver = 0 ∧ k.mill.shadow = k.mill.active ∧ k.mill.tiles = [] ∧
    k.mill.owner = none ∧ k.mill.link = none ∧ k.mill.queue = [] ∧ k.urgent = [] ∧ k.normal = [] ∧ k.xfers = [] ∧
    k.outrider.mill = ⟨16, 0⟩ ∧ k.outrider.port = ⟨32, 0⟩ ∧ k.outrider.recs = ⟨64, 0⟩ ∧ k.pmcs = []) ∧
  s.sys = { fhold := 1250000, rdeadline := 5000 } ∧
  (∀ n, (s.port n).up = false) ∧
  s.steward.m = List.replicate 16 0 ∧ s.steward.pwrcap = 3200 ∧ s.steward.negfeat = 0 ∧ s.steward.drvfeat = 0 ∧ s.steward.dbgopen = false ∧
  s.steward.cmd = 0 ∧ s.steward.status = 0 ∧ s.steward.len = 0 ∧ s.steward.rlen = 0 ∧ s.steward.nhead = 0 ∧ s.steward.ntail = 0 ∧ s.steward.lost = false

/-- 00 R8, 08 R170, R187, 03 R58: what every step keeps. From any safe state, whatever instruction or event a step runs, its next state is safe: memory, its poison
bits, the lane register files and the block generations are in canonical form, so that equal contents are equal data, and no instruction is half run. -/
def Obligations.StepKeepsSafe : Prop :=
  ∀ s t : State, s.Safe → step s = .next t → t.Safe
end

