-- ==== Sys2Proof/Laws/Decode.lean ====
section
/-!
SUPPORT. The decoder: what it accepts is a word that encodes to exactly the bits it was read from, and the checks of 02 R41 come in their order.
-/

namespace Sys2Proof

theorem Raw.accept_some {r : Raw} {lens : List Nat} {i j : Instr} (h : r.accept lens i = some j) : j = i ∧ r.len ∈ lens := by
  unfold Raw.accept at h; split at h <;> simp_all

/-- Opcodes whose unused register fields are left to check 7 (`Raw.fieldsOk`). -/
def plainOp (op : Nat) : Bool :=
  op != 0x200 && op != 0x201 && op != 0x240 && op != 0x280 && op != 0x282 && op != 0x284 && op / 64 != 11 && op / 64 != 12 &&
  op != 0x340 && op != 0x341 && op != 0x342 && op / 64 != 14

theorem Raw.fieldsOk_of_op {r : Raw} (h : plainOp r.op = true) : r.fieldsOk = true := by
  simp only [plainOp, Bool.and_eq_true, bne_iff_ne] at h
  unfold Raw.fieldsOk
  simp [h]

/-- A uniform operand is the empty field or no v register. -/
theorem Use.uniform_idx {u : Opnd} {f : Fld} {n : Nat} {p c : Bool} (h : Use.ok ⟨f, u, n, p, .uniform, c⟩ = true) :
    u.idx = 0 ∨ 320 ≤ u.idx := by
  cases u <;> simp_all [Use.ok, Opnd.idx] <;> omega

/-- Everything the checks can answer for a gang. -/
theorem decode_cases (priv : Bool) (r : Raw) :
    (r.len = 0 ∧ decode priv r = .reject .illegalLen) ∨
    (r.len ≠ 0 ∧ r.op / 64 = 15 ∧ decode priv r = .reject .reservedGroup) ∨
    (r.len ≠ 0 ∧ r.op / 64 = 14 ∧ bit r.op 5 = true ∧ priv = false ∧ decode priv r = .reject .priv) ∨
    (r.len ≠ 0 ∧ r.op / 64 ≠ 15 ∧ ¬(r.op / 64 = 14 ∧ bit r.op 5 = true ∧ priv = false) ∧
      ((parse r = none ∧ decode priv r = .reject .unassignedOp) ∨
       ∃ i, parse r = some i ∧
        ((i.outriderOnly = true ∧ decode priv r = .reject .unassignedOp) ∨
         (i.outriderOnly = false ∧ (i.operandsOk && r.fieldsOk) = false ∧ decode priv r = .reject .badOperand) ∨
         (i.outriderOnly = false ∧ (i.operandsOk && r.fieldsOk) = true ∧ i.modifiersOk = true ∧ i.raw = r ∧ decode priv r = .ok i) ∨
         (i.outriderOnly = false ∧ (i.operandsOk && r.fieldsOk) = true ∧ ¬(i.modifiersOk = true ∧ i.raw = r) ∧ decode priv r = .badMod i)))) := by
  unfold decode
  by_cases h1 : r.len = 0
  · exact .inl ⟨h1, by simp [h1]⟩
  refine .inr ?_
  by_cases h2 : r.op / 64 = 15
  · exact .inl ⟨h1, h2, by simp [h1, h2]⟩
  refine .inr ?_
  by_cases h3 : r.op / 64 = 14 ∧ bit r.op 5 = true ∧ priv = false
  · exact .inl ⟨h1, h3.1, h3.2.1, h3.2.2, by simp [h1, h3]⟩
  refine .inr ⟨h1, h2, h3, ?_⟩
  have h3' : ¬(r.op / 64 = 14 ∧ bit r.op 5 = true ∧ (!priv) = true) := by simpa using h3
  rw [if_neg h1, if_neg h2, if_neg h3']
  cases hp : parse r with
  | none => exact .inl ⟨rfl, rfl⟩
  | some i =>
    refine .inr ⟨i, rfl, ?_⟩
    cases ho : i.outriderOnly
    · refine .inr ?_
      cases hk : (i.operandsOk && r.fieldsOk)
      · exact .inl ⟨rfl, rfl, by simp [ho, hk]⟩
      · refine .inr ?_
        by_cases hm : i.modifiersOk = true ∧ i.raw = r
        · exact .inl ⟨rfl, rfl, hm.1, hm.2, by simp [ho, hk, hm]⟩
        · refine .inr ⟨rfl, rfl, hm, ?_⟩
          have : (i.modifiersOk && decide (i.raw = r)) = false := by simpa using hm
          simp [ho, hk, this]
    · exact .inl ⟨rfl, by simp [ho]⟩

set_option maxHeartbeats 2000000 in
/-- What the opcode map reads is an instruction word, never an event. -/
theorem parse_isWord {r : Raw} {i : Instr} (h : parse r = some i) : i.isWord = true := by
  unfold parse at h
  split at h
  all_goals first
    | (simp at h; done)
    | (first
         | unfold parseInteger at h | unfold parseBits at h | unfold parsePred at h | unfold parseFloat at h | unfold parseDouble at h
         | unfold parseConvert at h | unfold parseCross at h | unfold parseControl at h | unfold parseMemory at h | unfold parseAtomic at h
         | unfold parseMill at h | unfold parseSlot at h | unfold parsePorter at h | unfold parseCounter at h | unfold parseSystem at h
       try dsimp only at h
       split at h
       all_goals first
         | (simp at h; done)
         | (have := (Raw.accept_some h).1; subst this; first | rfl | (split <;> rfl)))

end Sys2Proof
end

