-- ==== Sys2Proof/Laws/State.lean ====
section
/-!
SUPPORT. For every elementary update of the state, what each field of the result is: the fields the update does not name are those of the state
before, so that no proof unfolds a record update. Below: what the updates of a party, a gang and a fibre do to the look-ups by number.
-/

namespace Sys2Proof.Machine

/-! ### `State.setParty` -/

@[simp] theorem State.setParty_clock (s : State) (p : Party) : (s.setParty p).clock = s.clock := rfl
@[simp] theorem State.setParty_mem (s : State) (p : Party) : (s.setParty p).mem = s.mem := rfl
@[simp] theorem State.setParty_poison (s : State) (p : Party) : (s.setParty p).poison = s.poison := rfl
@[simp] theorem State.setParty_failing (s : State) (p : Party) : (s.setParty p).failing = s.failing := rfl
@[simp] theorem State.setParty_regs (s : State) (p : Party) : (s.setParty p).regs = s.regs := rfl
@[simp] theorem State.setParty_gens (s : State) (p : Party) : (s.setParty p).gens = s.gens := rfl
@[simp] theorem State.setParty_growq (s : State) (p : Party) : (s.setParty p).growq = s.growq := rfl
@[simp] theorem State.setParty_flight (s : State) (p : Party) : (s.setParty p).flight = s.flight := rfl
@[simp] theorem State.setParty_cores (s : State) (p : Party) : (s.setParty p).cores = s.cores := rfl
@[simp] theorem State.setParty_dies (s : State) (p : Party) : (s.setParty p).dies = s.dies := rfl
@[simp] theorem State.setParty_tables (s : State) (p : Party) : (s.setParty p).tables = s.tables := rfl
@[simp] theorem State.setParty_sys (s : State) (p : Party) : (s.setParty p).sys = s.sys := rfl
@[simp] theorem State.setParty_live (s : State) (p : Party) : (s.setParty p).live = s.live := rfl
@[simp] theorem State.setParty_requests (s : State) (p : Party) : (s.setParty p).requests = s.requests := rfl
@[simp] theorem State.setParty_cntReqs (s : State) (p : Party) : (s.setParty p).cntReqs = s.cntReqs := rfl
@[simp] theorem State.setParty_ports (s : State) (p : Party) : (s.setParty p).ports = s.ports := rfl
@[simp] theorem State.setParty_steward (s : State) (p : Party) : (s.setParty p).steward = s.steward := rfl
@[simp] theorem State.setParty_turn (s : State) (p : Party) : (s.setParty p).turn = s.turn := rfl
@[simp] theorem State.setParty_issued (s : State) (p : Party) : (s.setParty p).issued = s.issued := rfl
@[simp] theorem State.setParty_served (s : State) (p : Party) : (s.setParty p).served = s.served := rfl
@[simp] theorem State.setParty_sent (s : State) (p : Party) : (s.setParty p).sent = s.sent := rfl
@[simp] theorem State.setParty_stamp (s : State) (p : Party) : (s.setParty p).stamp = s.stamp := rfl
@[simp] theorem State.setParty_past (s : State) (p : Party) : (s.setParty p).past = s.past := rfl
@[simp] theorem State.setParty_fences (s : State) (p : Party) : (s.setParty p).fences = s.fences := rfl
@[simp] theorem State.setParty_changes (s : State) (p : Party) : (s.setParty p).changes = s.changes := rfl
@[simp] theorem State.setParty_draws (s : State) (p : Party) : (s.setParty p).draws = s.draws := rfl
@[simp] theorem State.setParty_nextId (s : State) (p : Party) : (s.setParty p).nextId = s.nextId := rfl
@[simp] theorem State.setParty_agent (s : State) (p : Party) : (s.setParty p).agent = s.agent := rfl
@[simp] theorem State.setParty_latch (s : State) (p : Party) : (s.setParty p).latch = s.latch := rfl
@[simp] theorem State.setParty_agenda (s : State) (p : Party) : (s.setParty p).agenda = s.agenda := rfl
@[simp] theorem State.setParty_deferred (s : State) (p : Party) : (s.setParty p).deferred = s.deferred := rfl

/-! ### `State.onParty` -/

@[simp] theorem State.onParty_clock (s : State) (u : Nat) (f : Party → Party) : (s.onParty u f).clock = s.clock := rfl
@[simp] theorem State.onParty_mem (s : State) (u : Nat) (f : Party → Party) : (s.onParty u f).mem = s.mem := rfl
@[simp] theorem State.onParty_poison (s : State) (u : Nat) (f : Party → Party) : (s.onParty u f).poison = s.poison := rfl
@[simp] theorem State.onParty_failing (s : State) (u : Nat) (f : Party → Party) : (s.onParty u f).failing = s.failing := rfl
@[simp] theorem State.onParty_regs (s : State) (u : Nat) (f : Party → Party) : (s.onParty u f).regs = s.regs := rfl
@[simp] theorem State.onParty_gens (s : State) (u : Nat) (f : Party → Party) : (s.onParty u f).gens = s.gens := rfl
@[simp] theorem State.onParty_growq (s : State) (u : Nat) (f : Party → Party) : (s.onParty u f).growq = s.growq := rfl
@[simp] theorem State.onParty_flight (s : State) (u : Nat) (f : Party → Party) : (s.onParty u f).flight = s.flight := rfl
@[simp] theorem State.onParty_cores (s : State) (u : Nat) (f : Party → Party) : (s.onParty u f).cores = s.cores := rfl
@[simp] theorem State.onParty_dies (s : State) (u : Nat) (f : Party → Party) : (s.onParty u f).dies = s.dies := rfl
@[simp] theorem State.onParty_tables (s : State) (u : Nat) (f : Party → Party) : (s.onParty u f).tables = s.tables := rfl
@[simp] theorem State.onParty_sys (s : State) (u : Nat) (f : Party → Party) : (s.onParty u f).sys = s.sys := rfl
@[simp] theorem State.onParty_live (s : State) (u : Nat) (f : Party → Party) : (s.onParty u f).live = s.live := rfl
@[simp] theorem State.onParty_requests (s : State) (u : Nat) (f : Party → Party) : (s.onParty u f).requests = s.requests := rfl
@[simp] theorem State.onParty_cntReqs (s : State) (u : Nat) (f : Party → Party) : (s.onParty u f).cntReqs = s.cntReqs := rfl
@[simp] theorem State.onParty_ports (s : State) (u : Nat) (f : Party → Party) : (s.onParty u f).ports = s.ports := rfl
@[simp] theorem State.onParty_steward (s : State) (u : Nat) (f : Party → Party) : (s.onParty u f).steward = s.steward := rfl
@[simp] theorem State.onParty_turn (s : State) (u : Nat) (f : Party → Party) : (s.onParty u f).turn = s.turn := rfl
@[simp] theorem State.onParty_issued (s : State) (u : Nat) (f : Party → Party) : (s.onParty u f).issued = s.issued := rfl
@[simp] theorem State.onParty_served (s : State) (u : Nat) (f : Party → Party) : (s.onParty u f).served = s.served := rfl
@[simp] theorem State.onParty_sent (s : State) (u : Nat) (f : Party → Party) : (s.onParty u f).sent = s.sent := rfl
@[simp] theorem State.onParty_stamp (s : State) (u : Nat) (f : Party → Party) : (s.onParty u f).stamp = s.stamp := rfl
@[simp] theorem State.onParty_past (s : State) (u : Nat) (f : Party → Party) : (s.onParty u f).past = s.past := rfl
@[simp] theorem State.onParty_fences (s : State) (u : Nat) (f : Party → Party) : (s.onParty u f).fences = s.fences := rfl
@[simp] theorem State.onParty_changes (s : State) (u : Nat) (f : Party → Party) : (s.onParty u f).changes = s.changes := rfl
@[simp] theorem State.onParty_draws (s : State) (u : Nat) (f : Party → Party) : (s.onParty u f).draws = s.draws := rfl
@[simp] theorem State.onParty_nextId (s : State) (u : Nat) (f : Party → Party) : (s.onParty u f).nextId = s.nextId := rfl
@[simp] theorem State.onParty_agent (s : State) (u : Nat) (f : Party → Party) : (s.onParty u f).agent = s.agent := rfl
@[simp] theorem State.onParty_latch (s : State) (u : Nat) (f : Party → Party) : (s.onParty u f).latch = s.latch := rfl
@[simp] theorem State.onParty_agenda (s : State) (u : Nat) (f : Party → Party) : (s.onParty u f).agenda = s.agenda := rfl
@[simp] theorem State.onParty_deferred (s : State) (u : Nat) (f : Party → Party) : (s.onParty u f).deferred = s.deferred := rfl

/-! ### `State.onGang` -/

@[simp] theorem State.onGang_clock (s : State) (u g : Nat) (f : Gang → Gang) : (s.onGang u g f).clock = s.clock := rfl
@[simp] theorem State.onGang_mem (s : State) (u g : Nat) (f : Gang → Gang) : (s.onGang u g f).mem = s.mem := rfl
@[simp] theorem State.onGang_poison (s : State) (u g : Nat) (f : Gang → Gang) : (s.onGang u g f).poison = s.poison := rfl
@[simp] theorem State.onGang_failing (s : State) (u g : Nat) (f : Gang → Gang) : (s.onGang u g f).failing = s.failing := rfl
@[simp] theorem State.onGang_regs (s : State) (u g : Nat) (f : Gang → Gang) : (s.onGang u g f).regs = s.regs := rfl
@[simp] theorem State.onGang_gens (s : State) (u g : Nat) (f : Gang → Gang) : (s.onGang u g f).gens = s.gens := rfl
@[simp] theorem State.onGang_growq (s : State) (u g : Nat) (f : Gang → Gang) : (s.onGang u g f).growq = s.growq := rfl
@[simp] theorem State.onGang_flight (s : State) (u g : Nat) (f : Gang → Gang) : (s.onGang u g f).flight = s.flight := rfl
@[simp] theorem State.onGang_cores (s : State) (u g : Nat) (f : Gang → Gang) : (s.onGang u g f).cores = s.cores := rfl
@[simp] theorem State.onGang_dies (s : State) (u g : Nat) (f : Gang → Gang) : (s.onGang u g f).dies = s.dies := rfl
@[simp] theorem State.onGang_tables (s : State) (u g : Nat) (f : Gang → Gang) : (s.onGang u g f).tables = s.tables := rfl
@[simp] theorem State.onGang_sys (s : State) (u g : Nat) (f : Gang → Gang) : (s.onGang u g f).sys = s.sys := rfl
@[simp] theorem State.onGang_live (s : State) (u g : Nat) (f : Gang → Gang) : (s.onGang u g f).live = s.live := rfl
@[simp] theorem State.onGang_requests (s : State) (u g : Nat) (f : Gang → Gang) : (s.onGang u g f).requests = s.requests := rfl
@[simp] theorem State.onGang_cntReqs (s : State) (u g : Nat) (f : Gang → Gang) : (s.onGang u g f).cntReqs = s.cntReqs := rfl
@[simp] theorem State.onGang_ports (s : State) (u g : Nat) (f : Gang → Gang) : (s.onGang u g f).ports = s.ports := rfl
@[simp] theorem State.onGang_steward (s : State) (u g : Nat) (f : Gang → Gang) : (s.onGang u g f).steward = s.steward := rfl
@[simp] theorem State.onGang_turn (s : State) (u g : Nat) (f : Gang → Gang) : (s.onGang u g f).turn = s.turn := rfl
@[simp] theorem State.onGang_issued (s : State) (u g : Nat) (f : Gang → Gang) : (s.onGang u g f).issued = s.issued := rfl
@[simp] theorem State.onGang_served (s : State) (u g : Nat) (f : Gang → Gang) : (s.onGang u g f).served = s.served := rfl
@[simp] theorem State.onGang_sent (s : State) (u g : Nat) (f : Gang → Gang) : (s.onGang u g f).sent = s.sent := rfl
@[simp] theorem State.onGang_stamp (s : State) (u g : Nat) (f : Gang → Gang) : (s.onGang u g f).stamp = s.stamp := rfl
@[simp] theorem State.onGang_past (s : State) (u g : Nat) (f : Gang → Gang) : (s.onGang u g f).past = s.past := rfl
@[simp] theorem State.onGang_fences (s : State) (u g : Nat) (f : Gang → Gang) : (s.onGang u g f).fences = s.fences := rfl
@[simp] theorem State.onGang_changes (s : State) (u g : Nat) (f : Gang → Gang) : (s.onGang u g f).changes = s.changes := rfl
@[simp] theorem State.onGang_draws (s : State) (u g : Nat) (f : Gang → Gang) : (s.onGang u g f).draws = s.draws := rfl
@[simp] theorem State.onGang_nextId (s : State) (u g : Nat) (f : Gang → Gang) : (s.onGang u g f).nextId = s.nextId := rfl
@[simp] theorem State.onGang_agent (s : State) (u g : Nat) (f : Gang → Gang) : (s.onGang u g f).agent = s.agent := rfl
@[simp] theorem State.onGang_latch (s : State) (u g : Nat) (f : Gang → Gang) : (s.onGang u g f).latch = s.latch := rfl
@[simp] theorem State.onGang_agenda (s : State) (u g : Nat) (f : Gang → Gang) : (s.onGang u g f).agenda = s.agenda := rfl
@[simp] theorem State.onGang_deferred (s : State) (u g : Nat) (f : Gang → Gang) : (s.onGang u g f).deferred = s.deferred := rfl

/-! ### `State.onFibre` -/

@[simp] theorem State.onFibre_clock (s : State) (u n : Nat) (f : Fibre → Fibre) : (s.onFibre u n f).clock = s.clock := rfl
@[simp] theorem State.onFibre_mem (s : State) (u n : Nat) (f : Fibre → Fibre) : (s.onFibre u n f).mem = s.mem := rfl
@[simp] theorem State.onFibre_poison (s : State) (u n : Nat) (f : Fibre → Fibre) : (s.onFibre u n f).poison = s.poison := rfl
@[simp] theorem State.onFibre_failing (s : State) (u n : Nat) (f : Fibre → Fibre) : (s.onFibre u n f).failing = s.failing := rfl
@[simp] theorem State.onFibre_regs (s : State) (u n : Nat) (f : Fibre → Fibre) : (s.onFibre u n f).regs = s.regs := rfl
@[simp] theorem State.onFibre_gens (s : State) (u n : Nat) (f : Fibre → Fibre) : (s.onFibre u n f).gens = s.gens := rfl
@[simp] theorem State.onFibre_growq (s : State) (u n : Nat) (f : Fibre → Fibre) : (s.onFibre u n f).growq = s.growq := rfl
@[simp] theorem State.onFibre_flight (s : State) (u n : Nat) (f : Fibre → Fibre) : (s.onFibre u n f).flight = s.flight := rfl
@[simp] theorem State.onFibre_cores (s : State) (u n : Nat) (f : Fibre → Fibre) : (s.onFibre u n f).cores = s.cores := rfl
@[simp] theorem State.onFibre_dies (s : State) (u n : Nat) (f : Fibre → Fibre) : (s.onFibre u n f).dies = s.dies := rfl
@[simp] theorem State.onFibre_tables (s : State) (u n : Nat) (f : Fibre → Fibre) : (s.onFibre u n f).tables = s.tables := rfl
@[simp] theorem State.onFibre_sys (s : State) (u n : Nat) (f : Fibre → Fibre) : (s.onFibre u n f).sys = s.sys := rfl
@[simp] theorem State.onFibre_live (s : State) (u n : Nat) (f : Fibre → Fibre) : (s.onFibre u n f).live = s.live := rfl
@[simp] theorem State.onFibre_requests (s : State) (u n : Nat) (f : Fibre → Fibre) : (s.onFibre u n f).requests = s.requests := rfl
@[simp] theorem State.onFibre_cntReqs (s : State) (u n : Nat) (f : Fibre → Fibre) : (s.onFibre u n f).cntReqs = s.cntReqs := rfl
@[simp] theorem State.onFibre_ports (s : State) (u n : Nat) (f : Fibre → Fibre) : (s.onFibre u n f).ports = s.ports := rfl
@[simp] theorem State.onFibre_steward (s : State) (u n : Nat) (f : Fibre → Fibre) : (s.onFibre u n f).steward = s.steward := rfl
@[simp] theorem State.onFibre_turn (s : State) (u n : Nat) (f : Fibre → Fibre) : (s.onFibre u n f).turn = s.turn := rfl
@[simp] theorem State.onFibre_issued (s : State) (u n : Nat) (f : Fibre → Fibre) : (s.onFibre u n f).issued = s.issued := rfl
@[simp] theorem State.onFibre_served (s : State) (u n : Nat) (f : Fibre → Fibre) : (s.onFibre u n f).served = s.served := rfl
@[simp] theorem State.onFibre_sent (s : State) (u n : Nat) (f : Fibre → Fibre) : (s.onFibre u n f).sent = s.sent := rfl
@[simp] theorem State.onFibre_stamp (s : State) (u n : Nat) (f : Fibre → Fibre) : (s.onFibre u n f).stamp = s.stamp := rfl
@[simp] theorem State.onFibre_past (s : State) (u n : Nat) (f : Fibre → Fibre) : (s.onFibre u n f).past = s.past := rfl
@[simp] theorem State.onFibre_fences (s : State) (u n : Nat) (f : Fibre → Fibre) : (s.onFibre u n f).fences = s.fences := rfl
@[simp] theorem State.onFibre_changes (s : State) (u n : Nat) (f : Fibre → Fibre) : (s.onFibre u n f).changes = s.changes := rfl
@[simp] theorem State.onFibre_draws (s : State) (u n : Nat) (f : Fibre → Fibre) : (s.onFibre u n f).draws = s.draws := rfl
@[simp] theorem State.onFibre_nextId (s : State) (u n : Nat) (f : Fibre → Fibre) : (s.onFibre u n f).nextId = s.nextId := rfl
@[simp] theorem State.onFibre_agent (s : State) (u n : Nat) (f : Fibre → Fibre) : (s.onFibre u n f).agent = s.agent := rfl
@[simp] theorem State.onFibre_latch (s : State) (u n : Nat) (f : Fibre → Fibre) : (s.onFibre u n f).latch = s.latch := rfl
@[simp] theorem State.onFibre_agenda (s : State) (u n : Nat) (f : Fibre → Fibre) : (s.onFibre u n f).agenda = s.agenda := rfl
@[simp] theorem State.onFibre_deferred (s : State) (u n : Nat) (f : Fibre → Fibre) : (s.onFibre u n f).deferred = s.deferred := rfl

/-! ### `State.setCore` -/

@[simp] theorem State.setCore_clock (s : State) (c : CoreRef) (k : Core) : (s.setCore c k).clock = s.clock := rfl
@[simp] theorem State.setCore_mem (s : State) (c : CoreRef) (k : Core) : (s.setCore c k).mem = s.mem := rfl
@[simp] theorem State.setCore_poison (s : State) (c : CoreRef) (k : Core) : (s.setCore c k).poison = s.poison := rfl
@[simp] theorem State.setCore_failing (s : State) (c : CoreRef) (k : Core) : (s.setCore c k).failing = s.failing := rfl
@[simp] theorem State.setCore_regs (s : State) (c : CoreRef) (k : Core) : (s.setCore c k).regs = s.regs := rfl
@[simp] theorem State.setCore_gens (s : State) (c : CoreRef) (k : Core) : (s.setCore c k).gens = s.gens := rfl
@[simp] theorem State.setCore_growq (s : State) (c : CoreRef) (k : Core) : (s.setCore c k).growq = s.growq := rfl
@[simp] theorem State.setCore_parties (s : State) (c : CoreRef) (k : Core) : (s.setCore c k).parties = s.parties := rfl
@[simp] theorem State.setCore_flight (s : State) (c : CoreRef) (k : Core) : (s.setCore c k).flight = s.flight := rfl
@[simp] theorem State.setCore_dies (s : State) (c : CoreRef) (k : Core) : (s.setCore c k).dies = s.dies := rfl
@[simp] theorem State.setCore_tables (s : State) (c : CoreRef) (k : Core) : (s.setCore c k).tables = s.tables := rfl
@[simp] theorem State.setCore_sys (s : State) (c : CoreRef) (k : Core) : (s.setCore c k).sys = s.sys := rfl
@[simp] theorem State.setCore_live (s : State) (c : CoreRef) (k : Core) : (s.setCore c k).live = s.live := rfl
@[simp] theorem State.setCore_requests (s : State) (c : CoreRef) (k : Core) : (s.setCore c k).requests = s.requests := rfl
@[simp] theorem State.setCore_cntReqs (s : State) (c : CoreRef) (k : Core) : (s.setCore c k).cntReqs = s.cntReqs := rfl
@[simp] theorem State.setCore_ports (s : State) (c : CoreRef) (k : Core) : (s.setCore c k).ports = s.ports := rfl
@[simp] theorem State.setCore_steward (s : State) (c : CoreRef) (k : Core) : (s.setCore c k).steward = s.steward := rfl
@[simp] theorem State.setCore_turn (s : State) (c : CoreRef) (k : Core) : (s.setCore c k).turn = s.turn := rfl
@[simp] theorem State.setCore_issued (s : State) (c : CoreRef) (k : Core) : (s.setCore c k).issued = s.issued := rfl
@[simp] theorem State.setCore_served (s : State) (c : CoreRef) (k : Core) : (s.setCore c k).served = s.served := rfl
@[simp] theorem State.setCore_sent (s : State) (c : CoreRef) (k : Core) : (s.setCore c k).sent = s.sent := rfl
@[simp] theorem State.setCore_stamp (s : State) (c : CoreRef) (k : Core) : (s.setCore c k).stamp = s.stamp := rfl
@[simp] theorem State.setCore_past (s : State) (c : CoreRef) (k : Core) : (s.setCore c k).past = s.past := rfl
@[simp] theorem State.setCore_fences (s : State) (c : CoreRef) (k : Core) : (s.setCore c k).fences = s.fences := rfl
@[simp] theorem State.setCore_changes (s : State) (c : CoreRef) (k : Core) : (s.setCore c k).changes = s.changes := rfl
@[simp] theorem State.setCore_draws (s : State) (c : CoreRef) (k : Core) : (s.setCore c k).draws = s.draws := rfl
@[simp] theorem State.setCore_nextId (s : State) (c : CoreRef) (k : Core) : (s.setCore c k).nextId = s.nextId := rfl
@[simp] theorem State.setCore_agent (s : State) (c : CoreRef) (k : Core) : (s.setCore c k).agent = s.agent := rfl
@[simp] theorem State.setCore_latch (s : State) (c : CoreRef) (k : Core) : (s.setCore c k).latch = s.latch := rfl
@[simp] theorem State.setCore_agenda (s : State) (c : CoreRef) (k : Core) : (s.setCore c k).agenda = s.agenda := rfl
@[simp] theorem State.setCore_deferred (s : State) (c : CoreRef) (k : Core) : (s.setCore c k).deferred = s.deferred := rfl

/-! ### `State.onCore` -/

@[simp] theorem State.onCore_clock (s : State) (c : CoreRef) (f : Core → Core) : (s.onCore c f).clock = s.clock := rfl
@[simp] theorem State.onCore_mem (s : State) (c : CoreRef) (f : Core → Core) : (s.onCore c f).mem = s.mem := rfl
@[simp] theorem State.onCore_poison (s : State) (c : CoreRef) (f : Core → Core) : (s.onCore c f).poison = s.poison := rfl
@[simp] theorem State.onCore_failing (s : State) (c : CoreRef) (f : Core → Core) : (s.onCore c f).failing = s.failing := rfl
@[simp] theorem State.onCore_regs (s : State) (c : CoreRef) (f : Core → Core) : (s.onCore c f).regs = s.regs := rfl
@[simp] theorem State.onCore_gens (s : State) (c : CoreRef) (f : Core → Core) : (s.onCore c f).gens = s.gens := rfl
@[simp] theorem State.onCore_growq (s : State) (c : CoreRef) (f : Core → Core) : (s.onCore c f).growq = s.growq := rfl
@[simp] theorem State.onCore_parties (s : State) (c : CoreRef) (f : Core → Core) : (s.onCore c f).parties = s.parties := rfl
@[simp] theorem State.onCore_flight (s : State) (c : CoreRef) (f : Core → Core) : (s.onCore c f).flight = s.flight := rfl
@[simp] theorem State.onCore_dies (s : State) (c : CoreRef) (f : Core → Core) : (s.onCore c f).dies = s.dies := rfl
@[simp] theorem State.onCore_tables (s : State) (c : CoreRef) (f : Core → Core) : (s.onCore c f).tables = s.tables := rfl
@[simp] theorem State.onCore_sys (s : State) (c : CoreRef) (f : Core → Core) : (s.onCore c f).sys = s.sys := rfl
@[simp] theorem State.onCore_live (s : State) (c : CoreRef) (f : Core → Core) : (s.onCore c f).live = s.live := rfl
@[simp] theorem State.onCore_requests (s : State) (c : CoreRef) (f : Core → Core) : (s.onCore c f).requests = s.requests := rfl
@[simp] theorem State.onCore_cntReqs (s : State) (c : CoreRef) (f : Core → Core) : (s.onCore c f).cntReqs = s.cntReqs := rfl
@[simp] theorem State.onCore_ports (s : State) (c : CoreRef) (f : Core → Core) : (s.onCore c f).ports = s.ports := rfl
@[simp] theorem State.onCore_steward (s : State) (c : CoreRef) (f : Core → Core) : (s.onCore c f).steward = s.steward := rfl
@[simp] theorem State.onCore_turn (s : State) (c : CoreRef) (f : Core → Core) : (s.onCore c f).turn = s.turn := rfl
@[simp] theorem State.onCore_issued (s : State) (c : CoreRef) (f : Core → Core) : (s.onCore c f).issued = s.issued := rfl
@[simp] theorem State.onCore_served (s : State) (c : CoreRef) (f : Core → Core) : (s.onCore c f).served = s.served := rfl
@[simp] theorem State.onCore_sent (s : State) (c : CoreRef) (f : Core → Core) : (s.onCore c f).sent = s.sent := rfl
@[simp] theorem State.onCore_stamp (s : State) (c : CoreRef) (f : Core → Core) : (s.onCore c f).stamp = s.stamp := rfl
@[simp] theorem State.onCore_past (s : State) (c : CoreRef) (f : Core → Core) : (s.onCore c f).past = s.past := rfl
@[simp] theorem State.onCore_fences (s : State) (c : CoreRef) (f : Core → Core) : (s.onCore c f).fences = s.fences := rfl
@[simp] theorem State.onCore_changes (s : State) (c : CoreRef) (f : Core → Core) : (s.onCore c f).changes = s.changes := rfl
@[simp] theorem State.onCore_draws (s : State) (c : CoreRef) (f : Core → Core) : (s.onCore c f).draws = s.draws := rfl
@[simp] theorem State.onCore_nextId (s : State) (c : CoreRef) (f : Core → Core) : (s.onCore c f).nextId = s.nextId := rfl
@[simp] theorem State.onCore_agent (s : State) (c : CoreRef) (f : Core → Core) : (s.onCore c f).agent = s.agent := rfl
@[simp] theorem State.onCore_latch (s : State) (c : CoreRef) (f : Core → Core) : (s.onCore c f).latch = s.latch := rfl
@[simp] theorem State.onCore_agenda (s : State) (c : CoreRef) (f : Core → Core) : (s.onCore c f).agenda = s.agenda := rfl
@[simp] theorem State.onCore_deferred (s : State) (c : CoreRef) (f : Core → Core) : (s.onCore c f).deferred = s.deferred := rfl

/-! ### `State.onMill` -/

@[simp] theorem State.onMill_clock (s : State) (c : CoreRef) (f : Mill → Mill) : (s.onMill c f).clock = s.clock := rfl
@[simp] theorem State.onMill_mem (s : State) (c : CoreRef) (f : Mill → Mill) : (s.onMill c f).mem = s.mem := rfl
@[simp] theorem State.onMill_poison (s : State) (c : CoreRef) (f : Mill → Mill) : (s.onMill c f).poison = s.poison := rfl
@[simp] theorem State.onMill_failing (s : State) (c : CoreRef) (f : Mill → Mill) : (s.onMill c f).failing = s.failing := rfl
@[simp] theorem State.onMill_regs (s : State) (c : CoreRef) (f : Mill → Mill) : (s.onMill c f).regs = s.regs := rfl
@[simp] theorem State.onMill_gens (s : State) (c : CoreRef) (f : Mill → Mill) : (s.onMill c f).gens = s.gens := rfl
@[simp] theorem State.onMill_growq (s : State) (c : CoreRef) (f : Mill → Mill) : (s.onMill c f).growq = s.growq := rfl
@[simp] theorem State.onMill_parties (s : State) (c : CoreRef) (f : Mill → Mill) : (s.onMill c f).parties = s.parties := rfl
@[simp] theorem State.onMill_flight (s : State) (c : CoreRef) (f : Mill → Mill) : (s.onMill c f).flight = s.flight := rfl
@[simp] theorem State.onMill_dies (s : State) (c : CoreRef) (f : Mill → Mill) : (s.onMill c f).dies = s.dies := rfl
@[simp] theorem State.onMill_tables (s : State) (c : CoreRef) (f : Mill → Mill) : (s.onMill c f).tables = s.tables := rfl
@[simp] theorem State.onMill_sys (s : State) (c : CoreRef) (f : Mill → Mill) : (s.onMill c f).sys = s.sys := rfl
@[simp] theorem State.onMill_live (s : State) (c : CoreRef) (f : Mill → Mill) : (s.onMill c f).live = s.live := rfl
@[simp] theorem State.onMill_requests (s : State) (c : CoreRef) (f : Mill → Mill) : (s.onMill c f).requests = s.requests := rfl
@[simp] theorem State.onMill_cntReqs (s : State) (c : CoreRef) (f : Mill → Mill) : (s.onMill c f).cntReqs = s.cntReqs := rfl
@[simp] theorem State.onMill_ports (s : State) (c : CoreRef) (f : Mill → Mill) : (s.onMill c f).ports = s.ports := rfl
@[simp] theorem State.onMill_steward (s : State) (c : CoreRef) (f : Mill → Mill) : (s.onMill c f).steward = s.steward := rfl
@[simp] theorem State.onMill_turn (s : State) (c : CoreRef) (f : Mill → Mill) : (s.onMill c f).turn = s.turn := rfl
@[simp] theorem State.onMill_issued (s : State) (c : CoreRef) (f : Mill → Mill) : (s.onMill c f).issued = s.issued := rfl
@[simp] theorem State.onMill_served (s : State) (c : CoreRef) (f : Mill → Mill) : (s.onMill c f).served = s.served := rfl
@[simp] theorem State.onMill_sent (s : State) (c : CoreRef) (f : Mill → Mill) : (s.onMill c f).sent = s.sent := rfl
@[simp] theorem State.onMill_stamp (s : State) (c : CoreRef) (f : Mill → Mill) : (s.onMill c f).stamp = s.stamp := rfl
@[simp] theorem State.onMill_past (s : State) (c : CoreRef) (f : Mill → Mill) : (s.onMill c f).past = s.past := rfl
@[simp] theorem State.onMill_fences (s : State) (c : CoreRef) (f : Mill → Mill) : (s.onMill c f).fences = s.fences := rfl
@[simp] theorem State.onMill_changes (s : State) (c : CoreRef) (f : Mill → Mill) : (s.onMill c f).changes = s.changes := rfl
@[simp] theorem State.onMill_draws (s : State) (c : CoreRef) (f : Mill → Mill) : (s.onMill c f).draws = s.draws := rfl
@[simp] theorem State.onMill_nextId (s : State) (c : CoreRef) (f : Mill → Mill) : (s.onMill c f).nextId = s.nextId := rfl
@[simp] theorem State.onMill_agent (s : State) (c : CoreRef) (f : Mill → Mill) : (s.onMill c f).agent = s.agent := rfl
@[simp] theorem State.onMill_latch (s : State) (c : CoreRef) (f : Mill → Mill) : (s.onMill c f).latch = s.latch := rfl
@[simp] theorem State.onMill_agenda (s : State) (c : CoreRef) (f : Mill → Mill) : (s.onMill c f).agenda = s.agenda := rfl
@[simp] theorem State.onMill_deferred (s : State) (c : CoreRef) (f : Mill → Mill) : (s.onMill c f).deferred = s.deferred := rfl

/-! ### `State.onOutrider` -/

@[simp] theorem State.onOutrider_clock (s : State) (c : CoreRef) (f : Outrider → Outrider) : (s.onOutrider c f).clock = s.clock := rfl
@[simp] theorem State.onOutrider_mem (s : State) (c : CoreRef) (f : Outrider → Outrider) : (s.onOutrider c f).mem = s.mem := rfl
@[simp] theorem State.onOutrider_poison (s : State) (c : CoreRef) (f : Outrider → Outrider) : (s.onOutrider c f).poison = s.poison := rfl
@[simp] theorem State.onOutrider_failing (s : State) (c : CoreRef) (f : Outrider → Outrider) : (s.onOutrider c f).failing = s.failing := rfl
@[simp] theorem State.onOutrider_regs (s : State) (c : CoreRef) (f : Outrider → Outrider) : (s.onOutrider c f).regs = s.regs := rfl
@[simp] theorem State.onOutrider_gens (s : State) (c : CoreRef) (f : Outrider → Outrider) : (s.onOutrider c f).gens = s.gens := rfl
@[simp] theorem State.onOutrider_growq (s : State) (c : CoreRef) (f : Outrider → Outrider) : (s.onOutrider c f).growq = s.growq := rfl
@[simp] theorem State.onOutrider_parties (s : State) (c : CoreRef) (f : Outrider → Outrider) : (s.onOutrider c f).parties = s.parties := rfl
@[simp] theorem State.onOutrider_flight (s : State) (c : CoreRef) (f : Outrider → Outrider) : (s.onOutrider c f).flight = s.flight := rfl
@[simp] theorem State.onOutrider_dies (s : State) (c : CoreRef) (f : Outrider → Outrider) : (s.onOutrider c f).dies = s.dies := rfl
@[simp] theorem State.onOutrider_tables (s : State) (c : CoreRef) (f : Outrider → Outrider) : (s.onOutrider c f).tables = s.tables := rfl
@[simp] theorem State.onOutrider_sys (s : State) (c : CoreRef) (f : Outrider → Outrider) : (s.onOutrider c f).sys = s.sys := rfl
@[simp] theorem State.onOutrider_live (s : State) (c : CoreRef) (f : Outrider → Outrider) : (s.onOutrider c f).live = s.live := rfl
@[simp] theorem State.onOutrider_requests (s : State) (c : CoreRef) (f : Outrider → Outrider) : (s.onOutrider c f).requests = s.requests := rfl
@[simp] theorem State.onOutrider_cntReqs (s : State) (c : CoreRef) (f : Outrider → Outrider) : (s.onOutrider c f).cntReqs = s.cntReqs := rfl
@[simp] theorem State.onOutrider_ports (s : State) (c : CoreRef) (f : Outrider → Outrider) : (s.onOutrider c f).ports = s.ports := rfl
@[simp] theorem State.onOutrider_steward (s : State) (c : CoreRef) (f : Outrider → Outrider) : (s.onOutrider c f).steward = s.steward := rfl
@[simp] theorem State.onOutrider_turn (s : State) (c : CoreRef) (f : Outrider → Outrider) : (s.onOutrider c f).turn = s.turn := rfl
@[simp] theorem State.onOutrider_issued (s : State) (c : CoreRef) (f : Outrider → Outrider) : (s.onOutrider c f).issued = s.issued := rfl
@[simp] theorem State.onOutrider_served (s : State) (c : CoreRef) (f : Outrider → Outrider) : (s.onOutrider c f).served = s.served := rfl
@[simp] theorem State.onOutrider_sent (s : State) (c : CoreRef) (f : Outrider → Outrider) : (s.onOutrider c f).sent = s.sent := rfl
@[simp] theorem State.onOutrider_stamp (s : State) (c : CoreRef) (f : Outrider → Outrider) : (s.onOutrider c f).stamp = s.stamp := rfl
@[simp] theorem State.onOutrider_past (s : State) (c : CoreRef) (f : Outrider → Outrider) : (s.onOutrider c f).past = s.past := rfl
@[simp] theorem State.onOutrider_fences (s : State) (c : CoreRef) (f : Outrider → Outrider) : (s.onOutrider c f).fences = s.fences := rfl
@[simp] theorem State.onOutrider_changes (s : State) (c : CoreRef) (f : Outrider → Outrider) : (s.onOutrider c f).changes = s.changes := rfl
@[simp] theorem State.onOutrider_draws (s : State) (c : CoreRef) (f : Outrider → Outrider) : (s.onOutrider c f).draws = s.draws := rfl
@[simp] theorem State.onOutrider_nextId (s : State) (c : CoreRef) (f : Outrider → Outrider) : (s.onOutrider c f).nextId = s.nextId := rfl
@[simp] theorem State.onOutrider_agent (s : State) (c : CoreRef) (f : Outrider → Outrider) : (s.onOutrider c f).agent = s.agent := rfl
@[simp] theorem State.onOutrider_latch (s : State) (c : CoreRef) (f : Outrider → Outrider) : (s.onOutrider c f).latch = s.latch := rfl
@[simp] theorem State.onOutrider_agenda (s : State) (c : CoreRef) (f : Outrider → Outrider) : (s.onOutrider c f).agenda = s.agenda := rfl
@[simp] theorem State.onOutrider_deferred (s : State) (c : CoreRef) (f : Outrider → Outrider) : (s.onOutrider c f).deferred = s.deferred := rfl

/-! ### `State.onDie` -/

@[simp] theorem State.onDie_clock (s : State) (d : Nat) (f : Die → Die) : (s.onDie d f).clock = s.clock := rfl
@[simp] theorem State.onDie_mem (s : State) (d : Nat) (f : Die → Die) : (s.onDie d f).mem = s.mem := rfl
@[simp] theorem State.onDie_poison (s : State) (d : Nat) (f : Die → Die) : (s.onDie d f).poison = s.poison := rfl
@[simp] theorem State.onDie_failing (s : State) (d : Nat) (f : Die → Die) : (s.onDie d f).failing = s.failing := rfl
@[simp] theorem State.onDie_regs (s : State) (d : Nat) (f : Die → Die) : (s.onDie d f).regs = s.regs := rfl
@[simp] theorem State.onDie_gens (s : State) (d : Nat) (f : Die → Die) : (s.onDie d f).gens = s.gens := rfl
@[simp] theorem State.onDie_growq (s : State) (d : Nat) (f : Die → Die) : (s.onDie d f).growq = s.growq := rfl
@[simp] theorem State.onDie_parties (s : State) (d : Nat) (f : Die → Die) : (s.onDie d f).parties = s.parties := rfl
@[simp] theorem State.onDie_flight (s : State) (d : Nat) (f : Die → Die) : (s.onDie d f).flight = s.flight := rfl
@[simp] theorem State.onDie_cores (s : State) (d : Nat) (f : Die → Die) : (s.onDie d f).cores = s.cores := rfl
@[simp] theorem State.onDie_tables (s : State) (d : Nat) (f : Die → Die) : (s.onDie d f).tables = s.tables := rfl
@[simp] theorem State.onDie_sys (s : State) (d : Nat) (f : Die → Die) : (s.onDie d f).sys = s.sys := rfl
@[simp] theorem State.onDie_live (s : State) (d : Nat) (f : Die → Die) : (s.onDie d f).live = s.live := rfl
@[simp] theorem State.onDie_requests (s : State) (d : Nat) (f : Die → Die) : (s.onDie d f).requests = s.requests := rfl
@[simp] theorem State.onDie_cntReqs (s : State) (d : Nat) (f : Die → Die) : (s.onDie d f).cntReqs = s.cntReqs := rfl
@[simp] theorem State.onDie_ports (s : State) (d : Nat) (f : Die → Die) : (s.onDie d f).ports = s.ports := rfl
@[simp] theorem State.onDie_steward (s : State) (d : Nat) (f : Die → Die) : (s.onDie d f).steward = s.steward := rfl
@[simp] theorem State.onDie_turn (s : State) (d : Nat) (f : Die → Die) : (s.onDie d f).turn = s.turn := rfl
@[simp] theorem State.onDie_issued (s : State) (d : Nat) (f : Die → Die) : (s.onDie d f).issued = s.issued := rfl
@[simp] theorem State.onDie_served (s : State) (d : Nat) (f : Die → Die) : (s.onDie d f).served = s.served := rfl
@[simp] theorem State.onDie_sent (s : State) (d : Nat) (f : Die → Die) : (s.onDie d f).sent = s.sent := rfl
@[simp] theorem State.onDie_stamp (s : State) (d : Nat) (f : Die → Die) : (s.onDie d f).stamp = s.stamp := rfl
@[simp] theorem State.onDie_past (s : State) (d : Nat) (f : Die → Die) : (s.onDie d f).past = s.past := rfl
@[simp] theorem State.onDie_fences (s : State) (d : Nat) (f : Die → Die) : (s.onDie d f).fences = s.fences := rfl
@[simp] theorem State.onDie_changes (s : State) (d : Nat) (f : Die → Die) : (s.onDie d f).changes = s.changes := rfl
@[simp] theorem State.onDie_draws (s : State) (d : Nat) (f : Die → Die) : (s.onDie d f).draws = s.draws := rfl
@[simp] theorem State.onDie_nextId (s : State) (d : Nat) (f : Die → Die) : (s.onDie d f).nextId = s.nextId := rfl
@[simp] theorem State.onDie_agent (s : State) (d : Nat) (f : Die → Die) : (s.onDie d f).agent = s.agent := rfl
@[simp] theorem State.onDie_latch (s : State) (d : Nat) (f : Die → Die) : (s.onDie d f).latch = s.latch := rfl
@[simp] theorem State.onDie_agenda (s : State) (d : Nat) (f : Die → Die) : (s.onDie d f).agenda = s.agenda := rfl
@[simp] theorem State.onDie_deferred (s : State) (d : Nat) (f : Die → Die) : (s.onDie d f).deferred = s.deferred := rfl

/-! ### `State.onTables` -/

@[simp] theorem State.onTables_clock (s : State) (f : Tables → Tables) : (s.onTables f).clock = s.clock := rfl
@[simp] theorem State.onTables_mem (s : State) (f : Tables → Tables) : (s.onTables f).mem = s.mem := rfl
@[simp] theorem State.onTables_poison (s : State) (f : Tables → Tables) : (s.onTables f).poison = s.poison := rfl
@[simp] theorem State.onTables_failing (s : State) (f : Tables → Tables) : (s.onTables f).failing = s.failing := rfl
@[simp] theorem State.onTables_regs (s : State) (f : Tables → Tables) : (s.onTables f).regs = s.regs := rfl
@[simp] theorem State.onTables_gens (s : State) (f : Tables → Tables) : (s.onTables f).gens = s.gens := rfl
@[simp] theorem State.onTables_growq (s : State) (f : Tables → Tables) : (s.onTables f).growq = s.growq := rfl
@[simp] theorem State.onTables_parties (s : State) (f : Tables → Tables) : (s.onTables f).parties = s.parties := rfl
@[simp] theorem State.onTables_flight (s : State) (f : Tables → Tables) : (s.onTables f).flight = s.flight := rfl
@[simp] theorem State.onTables_cores (s : State) (f : Tables → Tables) : (s.onTables f).cores = s.cores := rfl
@[simp] theorem State.onTables_dies (s : State) (f : Tables → Tables) : (s.onTables f).dies = s.dies := rfl
@[simp] theorem State.onTables_sys (s : State) (f : Tables → Tables) : (s.onTables f).sys = s.sys := rfl
@[simp] theorem State.onTables_live (s : State) (f : Tables → Tables) : (s.onTables f).live = s.live := rfl
@[simp] theorem State.onTables_requests (s : State) (f : Tables → Tables) : (s.onTables f).requests = s.requests := rfl
@[simp] theorem State.onTables_cntReqs (s : State) (f : Tables → Tables) : (s.onTables f).cntReqs = s.cntReqs := rfl
@[simp] theorem State.onTables_ports (s : State) (f : Tables → Tables) : (s.onTables f).ports = s.ports := rfl
@[simp] theorem State.onTables_steward (s : State) (f : Tables → Tables) : (s.onTables f).steward = s.steward := rfl
@[simp] theorem State.onTables_turn (s : State) (f : Tables → Tables) : (s.onTables f).turn = s.turn := rfl
@[simp] theorem State.onTables_issued (s : State) (f : Tables → Tables) : (s.onTables f).issued = s.issued := rfl
@[simp] theorem State.onTables_served (s : State) (f : Tables → Tables) : (s.onTables f).served = s.served := rfl
@[simp] theorem State.onTables_sent (s : State) (f : Tables → Tables) : (s.onTables f).sent = s.sent := rfl
@[simp] theorem State.onTables_stamp (s : State) (f : Tables → Tables) : (s.onTables f).stamp = s.stamp := rfl
@[simp] theorem State.onTables_past (s : State) (f : Tables → Tables) : (s.onTables f).past = s.past := rfl
@[simp] theorem State.onTables_fences (s : State) (f : Tables → Tables) : (s.onTables f).fences = s.fences := rfl
@[simp] theorem State.onTables_changes (s : State) (f : Tables → Tables) : (s.onTables f).changes = s.changes := rfl
@[simp] theorem State.onTables_draws (s : State) (f : Tables → Tables) : (s.onTables f).draws = s.draws := rfl
@[simp] theorem State.onTables_nextId (s : State) (f : Tables → Tables) : (s.onTables f).nextId = s.nextId := rfl
@[simp] theorem State.onTables_agent (s : State) (f : Tables → Tables) : (s.onTables f).agent = s.agent := rfl
@[simp] theorem State.onTables_latch (s : State) (f : Tables → Tables) : (s.onTables f).latch = s.latch := rfl
@[simp] theorem State.onTables_agenda (s : State) (f : Tables → Tables) : (s.onTables f).agenda = s.agenda := rfl
@[simp] theorem State.onTables_deferred (s : State) (f : Tables → Tables) : (s.onTables f).deferred = s.deferred := rfl

/-! ### `State.setCtx` -/

@[simp] theorem State.setCtx_clock (s : State) (c : Context) : (s.setCtx c).clock = s.clock := rfl
@[simp] theorem State.setCtx_mem (s : State) (c : Context) : (s.setCtx c).mem = s.mem := rfl
@[simp] theorem State.setCtx_poison (s : State) (c : Context) : (s.setCtx c).poison = s.poison := rfl
@[simp] theorem State.setCtx_failing (s : State) (c : Context) : (s.setCtx c).failing = s.failing := rfl
@[simp] theorem State.setCtx_regs (s : State) (c : Context) : (s.setCtx c).regs = s.regs := rfl
@[simp] theorem State.setCtx_gens (s : State) (c : Context) : (s.setCtx c).gens = s.gens := rfl
@[simp] theorem State.setCtx_growq (s : State) (c : Context) : (s.setCtx c).growq = s.growq := rfl
@[simp] theorem State.setCtx_parties (s : State) (c : Context) : (s.setCtx c).parties = s.parties := rfl
@[simp] theorem State.setCtx_flight (s : State) (c : Context) : (s.setCtx c).flight = s.flight := rfl
@[simp] theorem State.setCtx_cores (s : State) (c : Context) : (s.setCtx c).cores = s.cores := rfl
@[simp] theorem State.setCtx_dies (s : State) (c : Context) : (s.setCtx c).dies = s.dies := rfl
@[simp] theorem State.setCtx_sys (s : State) (c : Context) : (s.setCtx c).sys = s.sys := rfl
@[simp] theorem State.setCtx_live (s : State) (c : Context) : (s.setCtx c).live = s.live := rfl
@[simp] theorem State.setCtx_requests (s : State) (c : Context) : (s.setCtx c).requests = s.requests := rfl
@[simp] theorem State.setCtx_cntReqs (s : State) (c : Context) : (s.setCtx c).cntReqs = s.cntReqs := rfl
@[simp] theorem State.setCtx_ports (s : State) (c : Context) : (s.setCtx c).ports = s.ports := rfl
@[simp] theorem State.setCtx_steward (s : State) (c : Context) : (s.setCtx c).steward = s.steward := rfl
@[simp] theorem State.setCtx_turn (s : State) (c : Context) : (s.setCtx c).turn = s.turn := rfl
@[simp] theorem State.setCtx_issued (s : State) (c : Context) : (s.setCtx c).issued = s.issued := rfl
@[simp] theorem State.setCtx_served (s : State) (c : Context) : (s.setCtx c).served = s.served := rfl
@[simp] theorem State.setCtx_sent (s : State) (c : Context) : (s.setCtx c).sent = s.sent := rfl
@[simp] theorem State.setCtx_stamp (s : State) (c : Context) : (s.setCtx c).stamp = s.stamp := rfl
@[simp] theorem State.setCtx_past (s : State) (c : Context) : (s.setCtx c).past = s.past := rfl
@[simp] theorem State.setCtx_fences (s : State) (c : Context) : (s.setCtx c).fences = s.fences := rfl
@[simp] theorem State.setCtx_changes (s : State) (c : Context) : (s.setCtx c).changes = s.changes := rfl
@[simp] theorem State.setCtx_draws (s : State) (c : Context) : (s.setCtx c).draws = s.draws := rfl
@[simp] theorem State.setCtx_nextId (s : State) (c : Context) : (s.setCtx c).nextId = s.nextId := rfl
@[simp] theorem State.setCtx_agent (s : State) (c : Context) : (s.setCtx c).agent = s.agent := rfl
@[simp] theorem State.setCtx_latch (s : State) (c : Context) : (s.setCtx c).latch = s.latch := rfl
@[simp] theorem State.setCtx_agenda (s : State) (c : Context) : (s.setCtx c).agenda = s.agenda := rfl
@[simp] theorem State.setCtx_deferred (s : State) (c : Context) : (s.setCtx c).deferred = s.deferred := rfl

/-! ### `State.setReg` -/

@[simp] theorem State.setReg_clock (s : State) (l : LaneRef) (b r : Nat) (w : Word) : (s.setReg l b r w).clock = s.clock := rfl
@[simp] theorem State.setReg_mem (s : State) (l : LaneRef) (b r : Nat) (w : Word) : (s.setReg l b r w).mem = s.mem := rfl
@[simp] theorem State.setReg_poison (s : State) (l : LaneRef) (b r : Nat) (w : Word) : (s.setReg l b r w).poison = s.poison := rfl
@[simp] theorem State.setReg_failing (s : State) (l : LaneRef) (b r : Nat) (w : Word) : (s.setReg l b r w).failing = s.failing := rfl
@[simp] theorem State.setReg_gens (s : State) (l : LaneRef) (b r : Nat) (w : Word) : (s.setReg l b r w).gens = s.gens := rfl
@[simp] theorem State.setReg_growq (s : State) (l : LaneRef) (b r : Nat) (w : Word) : (s.setReg l b r w).growq = s.growq := rfl
@[simp] theorem State.setReg_parties (s : State) (l : LaneRef) (b r : Nat) (w : Word) : (s.setReg l b r w).parties = s.parties := rfl
@[simp] theorem State.setReg_flight (s : State) (l : LaneRef) (b r : Nat) (w : Word) : (s.setReg l b r w).flight = s.flight := rfl
@[simp] theorem State.setReg_cores (s : State) (l : LaneRef) (b r : Nat) (w : Word) : (s.setReg l b r w).cores = s.cores := rfl
@[simp] theorem State.setReg_dies (s : State) (l : LaneRef) (b r : Nat) (w : Word) : (s.setReg l b r w).dies = s.dies := rfl
@[simp] theorem State.setReg_tables (s : State) (l : LaneRef) (b r : Nat) (w : Word) : (s.setReg l b r w).tables = s.tables := rfl
@[simp] theorem State.setReg_sys (s : State) (l : LaneRef) (b r : Nat) (w : Word) : (s.setReg l b r w).sys = s.sys := rfl
@[simp] theorem State.setReg_live (s : State) (l : LaneRef) (b r : Nat) (w : Word) : (s.setReg l b r w).live = s.live := rfl
@[simp] theorem State.setReg_requests (s : State) (l : LaneRef) (b r : Nat) (w : Word) : (s.setReg l b r w).requests = s.requests := rfl
@[simp] theorem State.setReg_cntReqs (s : State) (l : LaneRef) (b r : Nat) (w : Word) : (s.setReg l b r w).cntReqs = s.cntReqs := rfl
@[simp] theorem State.setReg_ports (s : State) (l : LaneRef) (b r : Nat) (w : Word) : (s.setReg l b r w).ports = s.ports := rfl
@[simp] theorem State.setReg_steward (s : State) (l : LaneRef) (b r : Nat) (w : Word) : (s.setReg l b r w).steward = s.steward := rfl
@[simp] theorem State.setReg_turn (s : State) (l : LaneRef) (b r : Nat) (w : Word) : (s.setReg l b r w).turn = s.turn := rfl
@[simp] theorem State.setReg_issued (s : State) (l : LaneRef) (b r : Nat) (w : Word) : (s.setReg l b r w).issued = s.issued := rfl
@[simp] theorem State.setReg_served (s : State) (l : LaneRef) (b r : Nat) (w : Word) : (s.setReg l b r w).served = s.served := rfl
@[simp] theorem State.setReg_sent (s : State) (l : LaneRef) (b r : Nat) (w : Word) : (s.setReg l b r w).sent = s.sent := rfl
@[simp] theorem State.setReg_stamp (s : State) (l : LaneRef) (b r : Nat) (w : Word) : (s.setReg l b r w).stamp = s.stamp := rfl
@[simp] theorem State.setReg_past (s : State) (l : LaneRef) (b r : Nat) (w : Word) : (s.setReg l b r w).past = s.past := rfl
@[simp] theorem State.setReg_fences (s : State) (l : LaneRef) (b r : Nat) (w : Word) : (s.setReg l b r w).fences = s.fences := rfl
@[simp] theorem State.setReg_changes (s : State) (l : LaneRef) (b r : Nat) (w : Word) : (s.setReg l b r w).changes = s.changes := rfl
@[simp] theorem State.setReg_draws (s : State) (l : LaneRef) (b r : Nat) (w : Word) : (s.setReg l b r w).draws = s.draws := rfl
@[simp] theorem State.setReg_nextId (s : State) (l : LaneRef) (b r : Nat) (w : Word) : (s.setReg l b r w).nextId = s.nextId := rfl
@[simp] theorem State.setReg_agent (s : State) (l : LaneRef) (b r : Nat) (w : Word) : (s.setReg l b r w).agent = s.agent := rfl
@[simp] theorem State.setReg_latch (s : State) (l : LaneRef) (b r : Nat) (w : Word) : (s.setReg l b r w).latch = s.latch := rfl
@[simp] theorem State.setReg_agenda (s : State) (l : LaneRef) (b r : Nat) (w : Word) : (s.setReg l b r w).agenda = s.agenda := rfl
@[simp] theorem State.setReg_deferred (s : State) (l : LaneRef) (b r : Nat) (w : Word) : (s.setReg l b r w).deferred = s.deferred := rfl

/-! ### `State.clearBlock` -/

@[simp] theorem State.clearBlock_clock (s : State) (l : LaneRef) (b : Nat) : (s.clearBlock l b).clock = s.clock := rfl
@[simp] theorem State.clearBlock_mem (s : State) (l : LaneRef) (b : Nat) : (s.clearBlock l b).mem = s.mem := rfl
@[simp] theorem State.clearBlock_poison (s : State) (l : LaneRef) (b : Nat) : (s.clearBlock l b).poison = s.poison := rfl
@[simp] theorem State.clearBlock_failing (s : State) (l : LaneRef) (b : Nat) : (s.clearBlock l b).failing = s.failing := rfl
@[simp] theorem State.clearBlock_gens (s : State) (l : LaneRef) (b : Nat) : (s.clearBlock l b).gens = s.gens := rfl
@[simp] theorem State.clearBlock_growq (s : State) (l : LaneRef) (b : Nat) : (s.clearBlock l b).growq = s.growq := rfl
@[simp] theorem State.clearBlock_parties (s : State) (l : LaneRef) (b : Nat) : (s.clearBlock l b).parties = s.parties := rfl
@[simp] theorem State.clearBlock_flight (s : State) (l : LaneRef) (b : Nat) : (s.clearBlock l b).flight = s.flight := rfl
@[simp] theorem State.clearBlock_cores (s : State) (l : LaneRef) (b : Nat) : (s.clearBlock l b).cores = s.cores := rfl
@[simp] theorem State.clearBlock_dies (s : State) (l : LaneRef) (b : Nat) : (s.clearBlock l b).dies = s.dies := rfl
@[simp] theorem State.clearBlock_tables (s : State) (l : LaneRef) (b : Nat) : (s.clearBlock l b).tables = s.tables := rfl
@[simp] theorem State.clearBlock_sys (s : State) (l : LaneRef) (b : Nat) : (s.clearBlock l b).sys = s.sys := rfl
@[simp] theorem State.clearBlock_live (s : State) (l : LaneRef) (b : Nat) : (s.clearBlock l b).live = s.live := rfl
@[simp] theorem State.clearBlock_requests (s : State) (l : LaneRef) (b : Nat) : (s.clearBlock l b).requests = s.requests := rfl
@[simp] theorem State.clearBlock_cntReqs (s : State) (l : LaneRef) (b : Nat) : (s.clearBlock l b).cntReqs = s.cntReqs := rfl
@[simp] theorem State.clearBlock_ports (s : State) (l : LaneRef) (b : Nat) : (s.clearBlock l b).ports = s.ports := rfl
@[simp] theorem State.clearBlock_steward (s : State) (l : LaneRef) (b : Nat) : (s.clearBlock l b).steward = s.steward := rfl
@[simp] theorem State.clearBlock_turn (s : State) (l : LaneRef) (b : Nat) : (s.clearBlock l b).turn = s.turn := rfl
@[simp] theorem State.clearBlock_issued (s : State) (l : LaneRef) (b : Nat) : (s.clearBlock l b).issued = s.issued := rfl
@[simp] theorem State.clearBlock_served (s : State) (l : LaneRef) (b : Nat) : (s.clearBlock l b).served = s.served := rfl
@[simp] theorem State.clearBlock_sent (s : State) (l : LaneRef) (b : Nat) : (s.clearBlock l b).sent = s.sent := rfl
@[simp] theorem State.clearBlock_stamp (s : State) (l : LaneRef) (b : Nat) : (s.clearBlock l b).stamp = s.stamp := rfl
@[simp] theorem State.clearBlock_past (s : State) (l : LaneRef) (b : Nat) : (s.clearBlock l b).past = s.past := rfl
@[simp] theorem State.clearBlock_fences (s : State) (l : LaneRef) (b : Nat) : (s.clearBlock l b).fences = s.fences := rfl
@[simp] theorem State.clearBlock_changes (s : State) (l : LaneRef) (b : Nat) : (s.clearBlock l b).changes = s.changes := rfl
@[simp] theorem State.clearBlock_draws (s : State) (l : LaneRef) (b : Nat) : (s.clearBlock l b).draws = s.draws := rfl
@[simp] theorem State.clearBlock_nextId (s : State) (l : LaneRef) (b : Nat) : (s.clearBlock l b).nextId = s.nextId := rfl
@[simp] theorem State.clearBlock_agent (s : State) (l : LaneRef) (b : Nat) : (s.clearBlock l b).agent = s.agent := rfl
@[simp] theorem State.clearBlock_latch (s : State) (l : LaneRef) (b : Nat) : (s.clearBlock l b).latch = s.latch := rfl
@[simp] theorem State.clearBlock_agenda (s : State) (l : LaneRef) (b : Nat) : (s.clearBlock l b).agenda = s.agenda := rfl
@[simp] theorem State.clearBlock_deferred (s : State) (l : LaneRef) (b : Nat) : (s.clearBlock l b).deferred = s.deferred := rfl

/-! ### `State.releaseBlock` -/

@[simp] theorem State.releaseBlock_clock (s : State) (l : LaneRef) (b : Nat) : (s.releaseBlock l b).clock = s.clock := rfl
@[simp] theorem State.releaseBlock_mem (s : State) (l : LaneRef) (b : Nat) : (s.releaseBlock l b).mem = s.mem := rfl
@[simp] theorem State.releaseBlock_poison (s : State) (l : LaneRef) (b : Nat) : (s.releaseBlock l b).poison = s.poison := rfl
@[simp] theorem State.releaseBlock_failing (s : State) (l : LaneRef) (b : Nat) : (s.releaseBlock l b).failing = s.failing := rfl
@[simp] theorem State.releaseBlock_regs (s : State) (l : LaneRef) (b : Nat) : (s.releaseBlock l b).regs = s.regs := rfl
@[simp] theorem State.releaseBlock_growq (s : State) (l : LaneRef) (b : Nat) : (s.releaseBlock l b).growq = s.growq := rfl
@[simp] theorem State.releaseBlock_parties (s : State) (l : LaneRef) (b : Nat) : (s.releaseBlock l b).parties = s.parties := rfl
@[simp] theorem State.releaseBlock_flight (s : State) (l : LaneRef) (b : Nat) : (s.releaseBlock l b).flight = s.flight := rfl
@[simp] theorem State.releaseBlock_cores (s : State) (l : LaneRef) (b : Nat) : (s.releaseBlock l b).cores = s.cores := rfl
@[simp] theorem State.releaseBlock_dies (s : State) (l : LaneRef) (b : Nat) : (s.releaseBlock l b).dies = s.dies := rfl
@[simp] theorem State.releaseBlock_tables (s : State) (l : LaneRef) (b : Nat) : (s.releaseBlock l b).tables = s.tables := rfl
@[simp] theorem State.releaseBlock_sys (s : State) (l : LaneRef) (b : Nat) : (s.releaseBlock l b).sys = s.sys := rfl
@[simp] theorem State.releaseBlock_live (s : State) (l : LaneRef) (b : Nat) : (s.releaseBlock l b).live = s.live := rfl
@[simp] theorem State.releaseBlock_requests (s : State) (l : LaneRef) (b : Nat) : (s.releaseBlock l b).requests = s.requests := rfl
@[simp] theorem State.releaseBlock_cntReqs (s : State) (l : LaneRef) (b : Nat) : (s.releaseBlock l b).cntReqs = s.cntReqs := rfl
@[simp] theorem State.releaseBlock_ports (s : State) (l : LaneRef) (b : Nat) : (s.releaseBlock l b).ports = s.ports := rfl
@[simp] theorem State.releaseBlock_steward (s : State) (l : LaneRef) (b : Nat) : (s.releaseBlock l b).steward = s.steward := rfl
@[simp] theorem State.releaseBlock_turn (s : State) (l : LaneRef) (b : Nat) : (s.releaseBlock l b).turn = s.turn := rfl
@[simp] theorem State.releaseBlock_issued (s : State) (l : LaneRef) (b : Nat) : (s.releaseBlock l b).issued = s.issued := rfl
@[simp] theorem State.releaseBlock_served (s : State) (l : LaneRef) (b : Nat) : (s.releaseBlock l b).served = s.served := rfl
@[simp] theorem State.releaseBlock_sent (s : State) (l : LaneRef) (b : Nat) : (s.releaseBlock l b).sent = s.sent := rfl
@[simp] theorem State.releaseBlock_stamp (s : State) (l : LaneRef) (b : Nat) : (s.releaseBlock l b).stamp = s.stamp := rfl
@[simp] theorem State.releaseBlock_past (s : State) (l : LaneRef) (b : Nat) : (s.releaseBlock l b).past = s.past := rfl
@[simp] theorem State.releaseBlock_fences (s : State) (l : LaneRef) (b : Nat) : (s.releaseBlock l b).fences = s.fences := rfl
@[simp] theorem State.releaseBlock_changes (s : State) (l : LaneRef) (b : Nat) : (s.releaseBlock l b).changes = s.changes := rfl
@[simp] theorem State.releaseBlock_draws (s : State) (l : LaneRef) (b : Nat) : (s.releaseBlock l b).draws = s.draws := rfl
@[simp] theorem State.releaseBlock_nextId (s : State) (l : LaneRef) (b : Nat) : (s.releaseBlock l b).nextId = s.nextId := rfl
@[simp] theorem State.releaseBlock_agent (s : State) (l : LaneRef) (b : Nat) : (s.releaseBlock l b).agent = s.agent := rfl
@[simp] theorem State.releaseBlock_latch (s : State) (l : LaneRef) (b : Nat) : (s.releaseBlock l b).latch = s.latch := rfl
@[simp] theorem State.releaseBlock_agenda (s : State) (l : LaneRef) (b : Nat) : (s.releaseBlock l b).agenda = s.agenda := rfl
@[simp] theorem State.releaseBlock_deferred (s : State) (l : LaneRef) (b : Nat) : (s.releaseBlock l b).deferred = s.deferred := rfl

/-! ### `State.write` -/

@[simp] theorem State.write_clock (s : State) (i : Issuer) (v : View) (r : List Release) (a : Option Scope) (l : Nat) (b : List Byte) : (s.write i v r a l b).clock = s.clock := rfl
@[simp] theorem State.write_failing (s : State) (i : Issuer) (v : View) (r : List Release) (a : Option Scope) (l : Nat) (b : List Byte) : (s.write i v r a l b).failing = s.failing := rfl
@[simp] theorem State.write_regs (s : State) (i : Issuer) (v : View) (r : List Release) (a : Option Scope) (l : Nat) (b : List Byte) : (s.write i v r a l b).regs = s.regs := rfl
@[simp] theorem State.write_gens (s : State) (i : Issuer) (v : View) (r : List Release) (a : Option Scope) (l : Nat) (b : List Byte) : (s.write i v r a l b).gens = s.gens := rfl
@[simp] theorem State.write_growq (s : State) (i : Issuer) (v : View) (r : List Release) (a : Option Scope) (l : Nat) (b : List Byte) : (s.write i v r a l b).growq = s.growq := rfl
@[simp] theorem State.write_parties (s : State) (i : Issuer) (v : View) (r : List Release) (a : Option Scope) (l : Nat) (b : List Byte) : (s.write i v r a l b).parties = s.parties := rfl
@[simp] theorem State.write_flight (s : State) (i : Issuer) (v : View) (r : List Release) (a : Option Scope) (l : Nat) (b : List Byte) : (s.write i v r a l b).flight = s.flight := rfl
@[simp] theorem State.write_cores (s : State) (i : Issuer) (v : View) (r : List Release) (a : Option Scope) (l : Nat) (b : List Byte) : (s.write i v r a l b).cores = s.cores := rfl
@[simp] theorem State.write_dies (s : State) (i : Issuer) (v : View) (r : List Release) (a : Option Scope) (l : Nat) (b : List Byte) : (s.write i v r a l b).dies = s.dies := rfl
@[simp] theorem State.write_tables (s : State) (i : Issuer) (v : View) (r : List Release) (a : Option Scope) (l : Nat) (b : List Byte) : (s.write i v r a l b).tables = s.tables := rfl
@[simp] theorem State.write_sys (s : State) (i : Issuer) (v : View) (r : List Release) (a : Option Scope) (l : Nat) (b : List Byte) : (s.write i v r a l b).sys = s.sys := rfl
@[simp] theorem State.write_live (s : State) (i : Issuer) (v : View) (r : List Release) (a : Option Scope) (l : Nat) (b : List Byte) : (s.write i v r a l b).live = s.live := rfl
@[simp] theorem State.write_requests (s : State) (i : Issuer) (v : View) (r : List Release) (a : Option Scope) (l : Nat) (b : List Byte) : (s.write i v r a l b).requests = s.requests := rfl
@[simp] theorem State.write_cntReqs (s : State) (i : Issuer) (v : View) (r : List Release) (a : Option Scope) (l : Nat) (b : List Byte) : (s.write i v r a l b).cntReqs = s.cntReqs := rfl
@[simp] theorem State.write_ports (s : State) (i : Issuer) (v : View) (r : List Release) (a : Option Scope) (l : Nat) (b : List Byte) : (s.write i v r a l b).ports = s.ports := rfl
@[simp] theorem State.write_steward (s : State) (i : Issuer) (v : View) (r : List Release) (a : Option Scope) (l : Nat) (b : List Byte) : (s.write i v r a l b).steward = s.steward := rfl
@[simp] theorem State.write_turn (s : State) (i : Issuer) (v : View) (r : List Release) (a : Option Scope) (l : Nat) (b : List Byte) : (s.write i v r a l b).turn = s.turn := rfl
@[simp] theorem State.write_issued (s : State) (i : Issuer) (v : View) (r : List Release) (a : Option Scope) (l : Nat) (b : List Byte) : (s.write i v r a l b).issued = s.issued := rfl
@[simp] theorem State.write_served (s : State) (i : Issuer) (v : View) (r : List Release) (a : Option Scope) (l : Nat) (b : List Byte) : (s.write i v r a l b).served = s.served := rfl
@[simp] theorem State.write_sent (s : State) (i : Issuer) (v : View) (r : List Release) (a : Option Scope) (l : Nat) (b : List Byte) : (s.write i v r a l b).sent = s.sent := rfl
@[simp] theorem State.write_fences (s : State) (i : Issuer) (v : View) (r : List Release) (a : Option Scope) (l : Nat) (b : List Byte) : (s.write i v r a l b).fences = s.fences := rfl
@[simp] theorem State.write_changes (s : State) (i : Issuer) (v : View) (r : List Release) (a : Option Scope) (l : Nat) (b : List Byte) : (s.write i v r a l b).changes = s.changes := rfl
@[simp] theorem State.write_draws (s : State) (i : Issuer) (v : View) (r : List Release) (a : Option Scope) (l : Nat) (b : List Byte) : (s.write i v r a l b).draws = s.draws := rfl
@[simp] theorem State.write_nextId (s : State) (i : Issuer) (v : View) (r : List Release) (a : Option Scope) (l : Nat) (b : List Byte) : (s.write i v r a l b).nextId = s.nextId := rfl
@[simp] theorem State.write_agent (s : State) (i : Issuer) (v : View) (r : List Release) (a : Option Scope) (l : Nat) (b : List Byte) : (s.write i v r a l b).agent = s.agent := rfl
@[simp] theorem State.write_latch (s : State) (i : Issuer) (v : View) (r : List Release) (a : Option Scope) (l : Nat) (b : List Byte) : (s.write i v r a l b).latch = s.latch := rfl
@[simp] theorem State.write_agenda (s : State) (i : Issuer) (v : View) (r : List Release) (a : Option Scope) (l : Nat) (b : List Byte) : (s.write i v r a l b).agenda = s.agenda := rfl
@[simp] theorem State.write_deferred (s : State) (i : Issuer) (v : View) (r : List Release) (a : Option Scope) (l : Nat) (b : List Byte) : (s.write i v r a l b).deferred = s.deferred := rfl

/-! ### `State.poke` -/

@[simp] theorem State.poke_clock (s : State) (l : Nat) (b : List Byte) : (s.poke l b).clock = s.clock := rfl
@[simp] theorem State.poke_failing (s : State) (l : Nat) (b : List Byte) : (s.poke l b).failing = s.failing := rfl
@[simp] theorem State.poke_regs (s : State) (l : Nat) (b : List Byte) : (s.poke l b).regs = s.regs := rfl
@[simp] theorem State.poke_gens (s : State) (l : Nat) (b : List Byte) : (s.poke l b).gens = s.gens := rfl
@[simp] theorem State.poke_growq (s : State) (l : Nat) (b : List Byte) : (s.poke l b).growq = s.growq := rfl
@[simp] theorem State.poke_parties (s : State) (l : Nat) (b : List Byte) : (s.poke l b).parties = s.parties := rfl
@[simp] theorem State.poke_flight (s : State) (l : Nat) (b : List Byte) : (s.poke l b).flight = s.flight := rfl
@[simp] theorem State.poke_cores (s : State) (l : Nat) (b : List Byte) : (s.poke l b).cores = s.cores := rfl
@[simp] theorem State.poke_dies (s : State) (l : Nat) (b : List Byte) : (s.poke l b).dies = s.dies := rfl
@[simp] theorem State.poke_tables (s : State) (l : Nat) (b : List Byte) : (s.poke l b).tables = s.tables := rfl
@[simp] theorem State.poke_sys (s : State) (l : Nat) (b : List Byte) : (s.poke l b).sys = s.sys := rfl
@[simp] theorem State.poke_live (s : State) (l : Nat) (b : List Byte) : (s.poke l b).live = s.live := rfl
@[simp] theorem State.poke_requests (s : State) (l : Nat) (b : List Byte) : (s.poke l b).requests = s.requests := rfl
@[simp] theorem State.poke_cntReqs (s : State) (l : Nat) (b : List Byte) : (s.poke l b).cntReqs = s.cntReqs := rfl
@[simp] theorem State.poke_ports (s : State) (l : Nat) (b : List Byte) : (s.poke l b).ports = s.ports := rfl
@[simp] theorem State.poke_steward (s : State) (l : Nat) (b : List Byte) : (s.poke l b).steward = s.steward := rfl
@[simp] theorem State.poke_turn (s : State) (l : Nat) (b : List Byte) : (s.poke l b).turn = s.turn := rfl
@[simp] theorem State.poke_issued (s : State) (l : Nat) (b : List Byte) : (s.poke l b).issued = s.issued := rfl
@[simp] theorem State.poke_served (s : State) (l : Nat) (b : List Byte) : (s.poke l b).served = s.served := rfl
@[simp] theorem State.poke_sent (s : State) (l : Nat) (b : List Byte) : (s.poke l b).sent = s.sent := rfl
@[simp] theorem State.poke_stamp (s : State) (l : Nat) (b : List Byte) : (s.poke l b).stamp = s.stamp := rfl
@[simp] theorem State.poke_fences (s : State) (l : Nat) (b : List Byte) : (s.poke l b).fences = s.fences := rfl
@[simp] theorem State.poke_changes (s : State) (l : Nat) (b : List Byte) : (s.poke l b).changes = s.changes := rfl
@[simp] theorem State.poke_draws (s : State) (l : Nat) (b : List Byte) : (s.poke l b).draws = s.draws := rfl
@[simp] theorem State.poke_nextId (s : State) (l : Nat) (b : List Byte) : (s.poke l b).nextId = s.nextId := rfl
@[simp] theorem State.poke_agent (s : State) (l : Nat) (b : List Byte) : (s.poke l b).agent = s.agent := rfl
@[simp] theorem State.poke_latch (s : State) (l : Nat) (b : List Byte) : (s.poke l b).latch = s.latch := rfl
@[simp] theorem State.poke_agenda (s : State) (l : Nat) (b : List Byte) : (s.poke l b).agenda = s.agenda := rfl
@[simp] theorem State.poke_deferred (s : State) (l : Nat) (b : List Byte) : (s.poke l b).deferred = s.deferred := rfl

/-! ### `State.clearRange` -/

@[simp] theorem State.clearRange_clock (s : State) (l n : Nat) : (s.clearRange l n).clock = s.clock := rfl
@[simp] theorem State.clearRange_failing (s : State) (l n : Nat) : (s.clearRange l n).failing = s.failing := rfl
@[simp] theorem State.clearRange_regs (s : State) (l n : Nat) : (s.clearRange l n).regs = s.regs := rfl
@[simp] theorem State.clearRange_gens (s : State) (l n : Nat) : (s.clearRange l n).gens = s.gens := rfl
@[simp] theorem State.clearRange_growq (s : State) (l n : Nat) : (s.clearRange l n).growq = s.growq := rfl
@[simp] theorem State.clearRange_parties (s : State) (l n : Nat) : (s.clearRange l n).parties = s.parties := rfl
@[simp] theorem State.clearRange_flight (s : State) (l n : Nat) : (s.clearRange l n).flight = s.flight := rfl
@[simp] theorem State.clearRange_cores (s : State) (l n : Nat) : (s.clearRange l n).cores = s.cores := rfl
@[simp] theorem State.clearRange_dies (s : State) (l n : Nat) : (s.clearRange l n).dies = s.dies := rfl
@[simp] theorem State.clearRange_tables (s : State) (l n : Nat) : (s.clearRange l n).tables = s.tables := rfl
@[simp] theorem State.clearRange_sys (s : State) (l n : Nat) : (s.clearRange l n).sys = s.sys := rfl
@[simp] theorem State.clearRange_live (s : State) (l n : Nat) : (s.clearRange l n).live = s.live := rfl
@[simp] theorem State.clearRange_requests (s : State) (l n : Nat) : (s.clearRange l n).requests = s.requests := rfl
@[simp] theorem State.clearRange_cntReqs (s : State) (l n : Nat) : (s.clearRange l n).cntReqs = s.cntReqs := rfl
@[simp] theorem State.clearRange_ports (s : State) (l n : Nat) : (s.clearRange l n).ports = s.ports := rfl
@[simp] theorem State.clearRange_steward (s : State) (l n : Nat) : (s.clearRange l n).steward = s.steward := rfl
@[simp] theorem State.clearRange_turn (s : State) (l n : Nat) : (s.clearRange l n).turn = s.turn := rfl
@[simp] theorem State.clearRange_issued (s : State) (l n : Nat) : (s.clearRange l n).issued = s.issued := rfl
@[simp] theorem State.clearRange_served (s : State) (l n : Nat) : (s.clearRange l n).served = s.served := rfl
@[simp] theorem State.clearRange_sent (s : State) (l n : Nat) : (s.clearRange l n).sent = s.sent := rfl
@[simp] theorem State.clearRange_stamp (s : State) (l n : Nat) : (s.clearRange l n).stamp = s.stamp := rfl
@[simp] theorem State.clearRange_fences (s : State) (l n : Nat) : (s.clearRange l n).fences = s.fences := rfl
@[simp] theorem State.clearRange_changes (s : State) (l n : Nat) : (s.clearRange l n).changes = s.changes := rfl
@[simp] theorem State.clearRange_draws (s : State) (l n : Nat) : (s.clearRange l n).draws = s.draws := rfl
@[simp] theorem State.clearRange_nextId (s : State) (l n : Nat) : (s.clearRange l n).nextId = s.nextId := rfl
@[simp] theorem State.clearRange_agent (s : State) (l n : Nat) : (s.clearRange l n).agent = s.agent := rfl
@[simp] theorem State.clearRange_latch (s : State) (l n : Nat) : (s.clearRange l n).latch = s.latch := rfl
@[simp] theorem State.clearRange_agenda (s : State) (l n : Nat) : (s.clearRange l n).agenda = s.agenda := rfl
@[simp] theorem State.clearRange_deferred (s : State) (l n : Nat) : (s.clearRange l n).deferred = s.deferred := rfl

/-! ### `State.taint` -/

@[simp] theorem State.taint_clock (s : State) (l n : Nat) : (s.taint l n).clock = s.clock := rfl
@[simp] theorem State.taint_mem (s : State) (l n : Nat) : (s.taint l n).mem = s.mem := rfl
@[simp] theorem State.taint_failing (s : State) (l n : Nat) : (s.taint l n).failing = s.failing := rfl
@[simp] theorem State.taint_regs (s : State) (l n : Nat) : (s.taint l n).regs = s.regs := rfl
@[simp] theorem State.taint_gens (s : State) (l n : Nat) : (s.taint l n).gens = s.gens := rfl
@[simp] theorem State.taint_growq (s : State) (l n : Nat) : (s.taint l n).growq = s.growq := rfl
@[simp] theorem State.taint_parties (s : State) (l n : Nat) : (s.taint l n).parties = s.parties := rfl
@[simp] theorem State.taint_flight (s : State) (l n : Nat) : (s.taint l n).flight = s.flight := rfl
@[simp] theorem State.taint_cores (s : State) (l n : Nat) : (s.taint l n).cores = s.cores := rfl
@[simp] theorem State.taint_dies (s : State) (l n : Nat) : (s.taint l n).dies = s.dies := rfl
@[simp] theorem State.taint_tables (s : State) (l n : Nat) : (s.taint l n).tables = s.tables := rfl
@[simp] theorem State.taint_sys (s : State) (l n : Nat) : (s.taint l n).sys = s.sys := rfl
@[simp] theorem State.taint_live (s : State) (l n : Nat) : (s.taint l n).live = s.live := rfl
@[simp] theorem State.taint_requests (s : State) (l n : Nat) : (s.taint l n).requests = s.requests := rfl
@[simp] theorem State.taint_cntReqs (s : State) (l n : Nat) : (s.taint l n).cntReqs = s.cntReqs := rfl
@[simp] theorem State.taint_ports (s : State) (l n : Nat) : (s.taint l n).ports = s.ports := rfl
@[simp] theorem State.taint_steward (s : State) (l n : Nat) : (s.taint l n).steward = s.steward := rfl
@[simp] theorem State.taint_turn (s : State) (l n : Nat) : (s.taint l n).turn = s.turn := rfl
@[simp] theorem State.taint_issued (s : State) (l n : Nat) : (s.taint l n).issued = s.issued := rfl
@[simp] theorem State.taint_served (s : State) (l n : Nat) : (s.taint l n).served = s.served := rfl
@[simp] theorem State.taint_sent (s : State) (l n : Nat) : (s.taint l n).sent = s.sent := rfl
@[simp] theorem State.taint_stamp (s : State) (l n : Nat) : (s.taint l n).stamp = s.stamp := rfl
@[simp] theorem State.taint_past (s : State) (l n : Nat) : (s.taint l n).past = s.past := rfl
@[simp] theorem State.taint_fences (s : State) (l n : Nat) : (s.taint l n).fences = s.fences := rfl
@[simp] theorem State.taint_changes (s : State) (l n : Nat) : (s.taint l n).changes = s.changes := rfl
@[simp] theorem State.taint_draws (s : State) (l n : Nat) : (s.taint l n).draws = s.draws := rfl
@[simp] theorem State.taint_nextId (s : State) (l n : Nat) : (s.taint l n).nextId = s.nextId := rfl
@[simp] theorem State.taint_agent (s : State) (l n : Nat) : (s.taint l n).agent = s.agent := rfl
@[simp] theorem State.taint_latch (s : State) (l n : Nat) : (s.taint l n).latch = s.latch := rfl
@[simp] theorem State.taint_agenda (s : State) (l n : Nat) : (s.taint l n).agenda = s.agenda := rfl
@[simp] theorem State.taint_deferred (s : State) (l n : Nat) : (s.taint l n).deferred = s.deferred := rfl

/-! ### `State.drawWord` -/

@[simp] theorem State.drawWord_clock (s : State) : (s.drawWord.2).clock = s.clock := rfl
@[simp] theorem State.drawWord_mem (s : State) : (s.drawWord.2).mem = s.mem := rfl
@[simp] theorem State.drawWord_poison (s : State) : (s.drawWord.2).poison = s.poison := rfl
@[simp] theorem State.drawWord_failing (s : State) : (s.drawWord.2).failing = s.failing := rfl
@[simp] theorem State.drawWord_regs (s : State) : (s.drawWord.2).regs = s.regs := rfl
@[simp] theorem State.drawWord_gens (s : State) : (s.drawWord.2).gens = s.gens := rfl
@[simp] theorem State.drawWord_growq (s : State) : (s.drawWord.2).growq = s.growq := rfl
@[simp] theorem State.drawWord_parties (s : State) : (s.drawWord.2).parties = s.parties := rfl
@[simp] theorem State.drawWord_flight (s : State) : (s.drawWord.2).flight = s.flight := rfl
@[simp] theorem State.drawWord_cores (s : State) : (s.drawWord.2).cores = s.cores := rfl
@[simp] theorem State.drawWord_dies (s : State) : (s.drawWord.2).dies = s.dies := rfl
@[simp] theorem State.drawWord_tables (s : State) : (s.drawWord.2).tables = s.tables := rfl
@[simp] theorem State.drawWord_sys (s : State) : (s.drawWord.2).sys = s.sys := rfl
@[simp] theorem State.drawWord_live (s : State) : (s.drawWord.2).live = s.live := rfl
@[simp] theorem State.drawWord_requests (s : State) : (s.drawWord.2).requests = s.requests := rfl
@[simp] theorem State.drawWord_cntReqs (s : State) : (s.drawWord.2).cntReqs = s.cntReqs := rfl
@[simp] theorem State.drawWord_ports (s : State) : (s.drawWord.2).ports = s.ports := rfl
@[simp] theorem State.drawWord_steward (s : State) : (s.drawWord.2).steward = s.steward := rfl
@[simp] theorem State.drawWord_turn (s : State) : (s.drawWord.2).turn = s.turn := rfl
@[simp] theorem State.drawWord_issued (s : State) : (s.drawWord.2).issued = s.issued := rfl
@[simp] theorem State.drawWord_served (s : State) : (s.drawWord.2).served = s.served := rfl
@[simp] theorem State.drawWord_sent (s : State) : (s.drawWord.2).sent = s.sent := rfl
@[simp] theorem State.drawWord_stamp (s : State) : (s.drawWord.2).stamp = s.stamp := rfl
@[simp] theorem State.drawWord_past (s : State) : (s.drawWord.2).past = s.past := rfl
@[simp] theorem State.drawWord_fences (s : State) : (s.drawWord.2).fences = s.fences := rfl
@[simp] theorem State.drawWord_changes (s : State) : (s.drawWord.2).changes = s.changes := rfl
@[simp] theorem State.drawWord_nextId (s : State) : (s.drawWord.2).nextId = s.nextId := rfl
@[simp] theorem State.drawWord_agent (s : State) : (s.drawWord.2).agent = s.agent := rfl
@[simp] theorem State.drawWord_latch (s : State) : (s.drawWord.2).latch = s.latch := rfl
@[simp] theorem State.drawWord_agenda (s : State) : (s.drawWord.2).agenda = s.agenda := rfl
@[simp] theorem State.drawWord_deferred (s : State) : (s.drawWord.2).deferred = s.deferred := rfl

/-! ### `State.fresh` -/

@[simp] theorem State.fresh_clock (s : State) : (s.fresh.2).clock = s.clock := rfl
@[simp] theorem State.fresh_mem (s : State) : (s.fresh.2).mem = s.mem := rfl
@[simp] theorem State.fresh_poison (s : State) : (s.fresh.2).poison = s.poison := rfl
@[simp] theorem State.fresh_failing (s : State) : (s.fresh.2).failing = s.failing := rfl
@[simp] theorem State.fresh_regs (s : State) : (s.fresh.2).regs = s.regs := rfl
@[simp] theorem State.fresh_gens (s : State) : (s.fresh.2).gens = s.gens := rfl
@[simp] theorem State.fresh_growq (s : State) : (s.fresh.2).growq = s.growq := rfl
@[simp] theorem State.fresh_parties (s : State) : (s.fresh.2).parties = s.parties := rfl
@[simp] theorem State.fresh_flight (s : State) : (s.fresh.2).flight = s.flight := rfl
@[simp] theorem State.fresh_cores (s : State) : (s.fresh.2).cores = s.cores := rfl
@[simp] theorem State.fresh_dies (s : State) : (s.fresh.2).dies = s.dies := rfl
@[simp] theorem State.fresh_tables (s : State) : (s.fresh.2).tables = s.tables := rfl
@[simp] theorem State.fresh_sys (s : State) : (s.fresh.2).sys = s.sys := rfl
@[simp] theorem State.fresh_live (s : State) : (s.fresh.2).live = s.live := rfl
@[simp] theorem State.fresh_requests (s : State) : (s.fresh.2).requests = s.requests := rfl
@[simp] theorem State.fresh_cntReqs (s : State) : (s.fresh.2).cntReqs = s.cntReqs := rfl
@[simp] theorem State.fresh_ports (s : State) : (s.fresh.2).ports = s.ports := rfl
@[simp] theorem State.fresh_steward (s : State) : (s.fresh.2).steward = s.steward := rfl
@[simp] theorem State.fresh_turn (s : State) : (s.fresh.2).turn = s.turn := rfl
@[simp] theorem State.fresh_issued (s : State) : (s.fresh.2).issued = s.issued := rfl
@[simp] theorem State.fresh_served (s : State) : (s.fresh.2).served = s.served := rfl
@[simp] theorem State.fresh_sent (s : State) : (s.fresh.2).sent = s.sent := rfl
@[simp] theorem State.fresh_stamp (s : State) : (s.fresh.2).stamp = s.stamp := rfl
@[simp] theorem State.fresh_past (s : State) : (s.fresh.2).past = s.past := rfl
@[simp] theorem State.fresh_fences (s : State) : (s.fresh.2).fences = s.fences := rfl
@[simp] theorem State.fresh_changes (s : State) : (s.fresh.2).changes = s.changes := rfl
@[simp] theorem State.fresh_draws (s : State) : (s.fresh.2).draws = s.draws := rfl
@[simp] theorem State.fresh_agent (s : State) : (s.fresh.2).agent = s.agent := rfl
@[simp] theorem State.fresh_latch (s : State) : (s.fresh.2).latch = s.latch := rfl
@[simp] theorem State.fresh_agenda (s : State) : (s.fresh.2).agenda = s.agenda := rfl
@[simp] theorem State.fresh_deferred (s : State) : (s.fresh.2).deferred = s.deferred := rfl

/-! ### `State.emit` -/

@[simp] theorem State.emit_clock (s : State) (m : Sent) : (s.emit m).clock = s.clock := rfl
@[simp] theorem State.emit_mem (s : State) (m : Sent) : (s.emit m).mem = s.mem := rfl
@[simp] theorem State.emit_poison (s : State) (m : Sent) : (s.emit m).poison = s.poison := rfl
@[simp] theorem State.emit_failing (s : State) (m : Sent) : (s.emit m).failing = s.failing := rfl
@[simp] theorem State.emit_regs (s : State) (m : Sent) : (s.emit m).regs = s.regs := rfl
@[simp] theorem State.emit_gens (s : State) (m : Sent) : (s.emit m).gens = s.gens := rfl
@[simp] theorem State.emit_growq (s : State) (m : Sent) : (s.emit m).growq = s.growq := rfl
@[simp] theorem State.emit_parties (s : State) (m : Sent) : (s.emit m).parties = s.parties := rfl
@[simp] theorem State.emit_flight (s : State) (m : Sent) : (s.emit m).flight = s.flight := rfl
@[simp] theorem State.emit_cores (s : State) (m : Sent) : (s.emit m).cores = s.cores := rfl
@[simp] theorem State.emit_dies (s : State) (m : Sent) : (s.emit m).dies = s.dies := rfl
@[simp] theorem State.emit_tables (s : State) (m : Sent) : (s.emit m).tables = s.tables := rfl
@[simp] theorem State.emit_sys (s : State) (m : Sent) : (s.emit m).sys = s.sys := rfl
@[simp] theorem State.emit_live (s : State) (m : Sent) : (s.emit m).live = s.live := rfl
@[simp] theorem State.emit_requests (s : State) (m : Sent) : (s.emit m).requests = s.requests := rfl
@[simp] theorem State.emit_cntReqs (s : State) (m : Sent) : (s.emit m).cntReqs = s.cntReqs := rfl
@[simp] theorem State.emit_ports (s : State) (m : Sent) : (s.emit m).ports = s.ports := rfl
@[simp] theorem State.emit_steward (s : State) (m : Sent) : (s.emit m).steward = s.steward := rfl
@[simp] theorem State.emit_turn (s : State) (m : Sent) : (s.emit m).turn = s.turn := rfl
@[simp] theorem State.emit_issued (s : State) (m : Sent) : (s.emit m).issued = s.issued := rfl
@[simp] theorem State.emit_served (s : State) (m : Sent) : (s.emit m).served = s.served := rfl
@[simp] theorem State.emit_stamp (s : State) (m : Sent) : (s.emit m).stamp = s.stamp := rfl
@[simp] theorem State.emit_past (s : State) (m : Sent) : (s.emit m).past = s.past := rfl
@[simp] theorem State.emit_fences (s : State) (m : Sent) : (s.emit m).fences = s.fences := rfl
@[simp] theorem State.emit_changes (s : State) (m : Sent) : (s.emit m).changes = s.changes := rfl
@[simp] theorem State.emit_draws (s : State) (m : Sent) : (s.emit m).draws = s.draws := rfl
@[simp] theorem State.emit_nextId (s : State) (m : Sent) : (s.emit m).nextId = s.nextId := rfl
@[simp] theorem State.emit_agent (s : State) (m : Sent) : (s.emit m).agent = s.agent := rfl
@[simp] theorem State.emit_latch (s : State) (m : Sent) : (s.emit m).latch = s.latch := rfl
@[simp] theorem State.emit_agenda (s : State) (m : Sent) : (s.emit m).agenda = s.agenda := rfl
@[simp] theorem State.emit_deferred (s : State) (m : Sent) : (s.emit m).deferred = s.deferred := rfl

/-! ### `State.tick` -/

@[simp] theorem State.tick_clock (s : State) : (s.tick).clock = s.clock := rfl
@[simp] theorem State.tick_mem (s : State) : (s.tick).mem = s.mem := rfl
@[simp] theorem State.tick_poison (s : State) : (s.tick).poison = s.poison := rfl
@[simp] theorem State.tick_failing (s : State) : (s.tick).failing = s.failing := rfl
@[simp] theorem State.tick_regs (s : State) : (s.tick).regs = s.regs := rfl
@[simp] theorem State.tick_gens (s : State) : (s.tick).gens = s.gens := rfl
@[simp] theorem State.tick_growq (s : State) : (s.tick).growq = s.growq := rfl
@[simp] theorem State.tick_parties (s : State) : (s.tick).parties = s.parties := rfl
@[simp] theorem State.tick_flight (s : State) : (s.tick).flight = s.flight := rfl
@[simp] theorem State.tick_cores (s : State) : (s.tick).cores = s.cores := rfl
@[simp] theorem State.tick_dies (s : State) : (s.tick).dies = s.dies := rfl
@[simp] theorem State.tick_tables (s : State) : (s.tick).tables = s.tables := rfl
@[simp] theorem State.tick_sys (s : State) : (s.tick).sys = s.sys := rfl
@[simp] theorem State.tick_live (s : State) : (s.tick).live = s.live := rfl
@[simp] theorem State.tick_requests (s : State) : (s.tick).requests = s.requests := rfl
@[simp] theorem State.tick_cntReqs (s : State) : (s.tick).cntReqs = s.cntReqs := rfl
@[simp] theorem State.tick_ports (s : State) : (s.tick).ports = s.ports := rfl
@[simp] theorem State.tick_steward (s : State) : (s.tick).steward = s.steward := rfl
@[simp] theorem State.tick_turn (s : State) : (s.tick).turn = s.turn := rfl
@[simp] theorem State.tick_issued (s : State) : (s.tick).issued = s.issued := rfl
@[simp] theorem State.tick_served (s : State) : (s.tick).served = s.served := rfl
@[simp] theorem State.tick_sent (s : State) : (s.tick).sent = s.sent := rfl
@[simp] theorem State.tick_stamp (s : State) : (s.tick).stamp = s.stamp := rfl
@[simp] theorem State.tick_past (s : State) : (s.tick).past = s.past := rfl
@[simp] theorem State.tick_fences (s : State) : (s.tick).fences = s.fences := rfl
@[simp] theorem State.tick_draws (s : State) : (s.tick).draws = s.draws := rfl
@[simp] theorem State.tick_nextId (s : State) : (s.tick).nextId = s.nextId := rfl
@[simp] theorem State.tick_agent (s : State) : (s.tick).agent = s.agent := rfl
@[simp] theorem State.tick_latch (s : State) : (s.tick).latch = s.latch := rfl
@[simp] theorem State.tick_agenda (s : State) : (s.tick).agenda = s.agenda := rfl
@[simp] theorem State.tick_deferred (s : State) : (s.tick).deferred = s.deferred := rfl

/-! ### `State.setAccess` -/

@[simp] theorem State.setAccess_clock (s : State) (a : Access) : (s.setAccess a).clock = s.clock := rfl
@[simp] theorem State.setAccess_mem (s : State) (a : Access) : (s.setAccess a).mem = s.mem := rfl
@[simp] theorem State.setAccess_poison (s : State) (a : Access) : (s.setAccess a).poison = s.poison := rfl
@[simp] theorem State.setAccess_failing (s : State) (a : Access) : (s.setAccess a).failing = s.failing := rfl
@[simp] theorem State.setAccess_regs (s : State) (a : Access) : (s.setAccess a).regs = s.regs := rfl
@[simp] theorem State.setAccess_gens (s : State) (a : Access) : (s.setAccess a).gens = s.gens := rfl
@[simp] theorem State.setAccess_growq (s : State) (a : Access) : (s.setAccess a).growq = s.growq := rfl
@[simp] theorem State.setAccess_parties (s : State) (a : Access) : (s.setAccess a).parties = s.parties := rfl
@[simp] theorem State.setAccess_cores (s : State) (a : Access) : (s.setAccess a).cores = s.cores := rfl
@[simp] theorem State.setAccess_dies (s : State) (a : Access) : (s.setAccess a).dies = s.dies := rfl
@[simp] theorem State.setAccess_tables (s : State) (a : Access) : (s.setAccess a).tables = s.tables := rfl
@[simp] theorem State.setAccess_sys (s : State) (a : Access) : (s.setAccess a).sys = s.sys := rfl
@[simp] theorem State.setAccess_live (s : State) (a : Access) : (s.setAccess a).live = s.live := rfl
@[simp] theorem State.setAccess_requests (s : State) (a : Access) : (s.setAccess a).requests = s.requests := rfl
@[simp] theorem State.setAccess_cntReqs (s : State) (a : Access) : (s.setAccess a).cntReqs = s.cntReqs := rfl
@[simp] theorem State.setAccess_ports (s : State) (a : Access) : (s.setAccess a).ports = s.ports := rfl
@[simp] theorem State.setAccess_steward (s : State) (a : Access) : (s.setAccess a).steward = s.steward := rfl
@[simp] theorem State.setAccess_turn (s : State) (a : Access) : (s.setAccess a).turn = s.turn := rfl
@[simp] theorem State.setAccess_issued (s : State) (a : Access) : (s.setAccess a).issued = s.issued := rfl
@[simp] theorem State.setAccess_served (s : State) (a : Access) : (s.setAccess a).served = s.served := rfl
@[simp] theorem State.setAccess_sent (s : State) (a : Access) : (s.setAccess a).sent = s.sent := rfl
@[simp] theorem State.setAccess_stamp (s : State) (a : Access) : (s.setAccess a).stamp = s.stamp := rfl
@[simp] theorem State.setAccess_past (s : State) (a : Access) : (s.setAccess a).past = s.past := rfl
@[simp] theorem State.setAccess_fences (s : State) (a : Access) : (s.setAccess a).fences = s.fences := rfl
@[simp] theorem State.setAccess_changes (s : State) (a : Access) : (s.setAccess a).changes = s.changes := rfl
@[simp] theorem State.setAccess_draws (s : State) (a : Access) : (s.setAccess a).draws = s.draws := rfl
@[simp] theorem State.setAccess_nextId (s : State) (a : Access) : (s.setAccess a).nextId = s.nextId := rfl
@[simp] theorem State.setAccess_agent (s : State) (a : Access) : (s.setAccess a).agent = s.agent := rfl
@[simp] theorem State.setAccess_latch (s : State) (a : Access) : (s.setAccess a).latch = s.latch := rfl
@[simp] theorem State.setAccess_agenda (s : State) (a : Access) : (s.setAccess a).agenda = s.agenda := rfl
@[simp] theorem State.setAccess_deferred (s : State) (a : Access) : (s.setAccess a).deferred = s.deferred := rfl

/-! ### `State.onLaunch` -/

@[simp] theorem State.onLaunch_clock (s : State) (n : Nat) (f : Launch → Launch) : (s.onLaunch n f).clock = s.clock := rfl
@[simp] theorem State.onLaunch_mem (s : State) (n : Nat) (f : Launch → Launch) : (s.onLaunch n f).mem = s.mem := rfl
@[simp] theorem State.onLaunch_poison (s : State) (n : Nat) (f : Launch → Launch) : (s.onLaunch n f).poison = s.poison := rfl
@[simp] theorem State.onLaunch_failing (s : State) (n : Nat) (f : Launch → Launch) : (s.onLaunch n f).failing = s.failing := rfl
@[simp] theorem State.onLaunch_regs (s : State) (n : Nat) (f : Launch → Launch) : (s.onLaunch n f).regs = s.regs := rfl
@[simp] theorem State.onLaunch_gens (s : State) (n : Nat) (f : Launch → Launch) : (s.onLaunch n f).gens = s.gens := rfl
@[simp] theorem State.onLaunch_growq (s : State) (n : Nat) (f : Launch → Launch) : (s.onLaunch n f).growq = s.growq := rfl
@[simp] theorem State.onLaunch_parties (s : State) (n : Nat) (f : Launch → Launch) : (s.onLaunch n f).parties = s.parties := rfl
@[simp] theorem State.onLaunch_flight (s : State) (n : Nat) (f : Launch → Launch) : (s.onLaunch n f).flight = s.flight := rfl
@[simp] theorem State.onLaunch_cores (s : State) (n : Nat) (f : Launch → Launch) : (s.onLaunch n f).cores = s.cores := rfl
@[simp] theorem State.onLaunch_dies (s : State) (n : Nat) (f : Launch → Launch) : (s.onLaunch n f).dies = s.dies := rfl
@[simp] theorem State.onLaunch_tables (s : State) (n : Nat) (f : Launch → Launch) : (s.onLaunch n f).tables = s.tables := rfl
@[simp] theorem State.onLaunch_sys (s : State) (n : Nat) (f : Launch → Launch) : (s.onLaunch n f).sys = s.sys := rfl
@[simp] theorem State.onLaunch_requests (s : State) (n : Nat) (f : Launch → Launch) : (s.onLaunch n f).requests = s.requests := rfl
@[simp] theorem State.onLaunch_cntReqs (s : State) (n : Nat) (f : Launch → Launch) : (s.onLaunch n f).cntReqs = s.cntReqs := rfl
@[simp] theorem State.onLaunch_ports (s : State) (n : Nat) (f : Launch → Launch) : (s.onLaunch n f).ports = s.ports := rfl
@[simp] theorem State.onLaunch_steward (s : State) (n : Nat) (f : Launch → Launch) : (s.onLaunch n f).steward = s.steward := rfl
@[simp] theorem State.onLaunch_turn (s : State) (n : Nat) (f : Launch → Launch) : (s.onLaunch n f).turn = s.turn := rfl
@[simp] theorem State.onLaunch_issued (s : State) (n : Nat) (f : Launch → Launch) : (s.onLaunch n f).issued = s.issued := rfl
@[simp] theorem State.onLaunch_served (s : State) (n : Nat) (f : Launch → Launch) : (s.onLaunch n f).served = s.served := rfl
@[simp] theorem State.onLaunch_sent (s : State) (n : Nat) (f : Launch → Launch) : (s.onLaunch n f).sent = s.sent := rfl
@[simp] theorem State.onLaunch_stamp (s : State) (n : Nat) (f : Launch → Launch) : (s.onLaunch n f).stamp = s.stamp := rfl
@[simp] theorem State.onLaunch_past (s : State) (n : Nat) (f : Launch → Launch) : (s.onLaunch n f).past = s.past := rfl
@[simp] theorem State.onLaunch_fences (s : State) (n : Nat) (f : Launch → Launch) : (s.onLaunch n f).fences = s.fences := rfl
@[simp] theorem State.onLaunch_changes (s : State) (n : Nat) (f : Launch → Launch) : (s.onLaunch n f).changes = s.changes := rfl
@[simp] theorem State.onLaunch_draws (s : State) (n : Nat) (f : Launch → Launch) : (s.onLaunch n f).draws = s.draws := rfl
@[simp] theorem State.onLaunch_nextId (s : State) (n : Nat) (f : Launch → Launch) : (s.onLaunch n f).nextId = s.nextId := rfl
@[simp] theorem State.onLaunch_agent (s : State) (n : Nat) (f : Launch → Launch) : (s.onLaunch n f).agent = s.agent := rfl
@[simp] theorem State.onLaunch_latch (s : State) (n : Nat) (f : Launch → Launch) : (s.onLaunch n f).latch = s.latch := rfl
@[simp] theorem State.onLaunch_agenda (s : State) (n : Nat) (f : Launch → Launch) : (s.onLaunch n f).agenda = s.agenda := rfl
@[simp] theorem State.onLaunch_deferred (s : State) (n : Nat) (f : Launch → Launch) : (s.onLaunch n f).deferred = s.deferred := rfl

/-! ### `State.onSys` -/

@[simp] theorem State.onSys_clock (s : State) (f : SysRegs → SysRegs) : (s.onSys f).clock = s.clock := rfl
@[simp] theorem State.onSys_mem (s : State) (f : SysRegs → SysRegs) : (s.onSys f).mem = s.mem := rfl
@[simp] theorem State.onSys_poison (s : State) (f : SysRegs → SysRegs) : (s.onSys f).poison = s.poison := rfl
@[simp] theorem State.onSys_failing (s : State) (f : SysRegs → SysRegs) : (s.onSys f).failing = s.failing := rfl
@[simp] theorem State.onSys_regs (s : State) (f : SysRegs → SysRegs) : (s.onSys f).regs = s.regs := rfl
@[simp] theorem State.onSys_gens (s : State) (f : SysRegs → SysRegs) : (s.onSys f).gens = s.gens := rfl
@[simp] theorem State.onSys_growq (s : State) (f : SysRegs → SysRegs) : (s.onSys f).growq = s.growq := rfl
@[simp] theorem State.onSys_parties (s : State) (f : SysRegs → SysRegs) : (s.onSys f).parties = s.parties := rfl
@[simp] theorem State.onSys_flight (s : State) (f : SysRegs → SysRegs) : (s.onSys f).flight = s.flight := rfl
@[simp] theorem State.onSys_cores (s : State) (f : SysRegs → SysRegs) : (s.onSys f).cores = s.cores := rfl
@[simp] theorem State.onSys_dies (s : State) (f : SysRegs → SysRegs) : (s.onSys f).dies = s.dies := rfl
@[simp] theorem State.onSys_tables (s : State) (f : SysRegs → SysRegs) : (s.onSys f).tables = s.tables := rfl
@[simp] theorem State.onSys_live (s : State) (f : SysRegs → SysRegs) : (s.onSys f).live = s.live := rfl
@[simp] theorem State.onSys_requests (s : State) (f : SysRegs → SysRegs) : (s.onSys f).requests = s.requests := rfl
@[simp] theorem State.onSys_cntReqs (s : State) (f : SysRegs → SysRegs) : (s.onSys f).cntReqs = s.cntReqs := rfl
@[simp] theorem State.onSys_ports (s : State) (f : SysRegs → SysRegs) : (s.onSys f).ports = s.ports := rfl
@[simp] theorem State.onSys_steward (s : State) (f : SysRegs → SysRegs) : (s.onSys f).steward = s.steward := rfl
@[simp] theorem State.onSys_turn (s : State) (f : SysRegs → SysRegs) : (s.onSys f).turn = s.turn := rfl
@[simp] theorem State.onSys_issued (s : State) (f : SysRegs → SysRegs) : (s.onSys f).issued = s.issued := rfl
@[simp] theorem State.onSys_served (s : State) (f : SysRegs → SysRegs) : (s.onSys f).served = s.served := rfl
@[simp] theorem State.onSys_sent (s : State) (f : SysRegs → SysRegs) : (s.onSys f).sent = s.sent := rfl
@[simp] theorem State.onSys_stamp (s : State) (f : SysRegs → SysRegs) : (s.onSys f).stamp = s.stamp := rfl
@[simp] theorem State.onSys_past (s : State) (f : SysRegs → SysRegs) : (s.onSys f).past = s.past := rfl
@[simp] theorem State.onSys_fences (s : State) (f : SysRegs → SysRegs) : (s.onSys f).fences = s.fences := rfl
@[simp] theorem State.onSys_changes (s : State) (f : SysRegs → SysRegs) : (s.onSys f).changes = s.changes := rfl
@[simp] theorem State.onSys_draws (s : State) (f : SysRegs → SysRegs) : (s.onSys f).draws = s.draws := rfl
@[simp] theorem State.onSys_nextId (s : State) (f : SysRegs → SysRegs) : (s.onSys f).nextId = s.nextId := rfl
@[simp] theorem State.onSys_agent (s : State) (f : SysRegs → SysRegs) : (s.onSys f).agent = s.agent := rfl
@[simp] theorem State.onSys_latch (s : State) (f : SysRegs → SysRegs) : (s.onSys f).latch = s.latch := rfl
@[simp] theorem State.onSys_agenda (s : State) (f : SysRegs → SysRegs) : (s.onSys f).agenda = s.agenda := rfl
@[simp] theorem State.onSys_deferred (s : State) (f : SysRegs → SysRegs) : (s.onSys f).deferred = s.deferred := rfl

/-! ### `State.onSteward` -/

@[simp] theorem State.onSteward_clock (s : State) (f : Steward → Steward) : (s.onSteward f).clock = s.clock := rfl
@[simp] theorem State.onSteward_mem (s : State) (f : Steward → Steward) : (s.onSteward f).mem = s.mem := rfl
@[simp] theorem State.onSteward_poison (s : State) (f : Steward → Steward) : (s.onSteward f).poison = s.poison := rfl
@[simp] theorem State.onSteward_failing (s : State) (f : Steward → Steward) : (s.onSteward f).failing = s.failing := rfl
@[simp] theorem State.onSteward_regs (s : State) (f : Steward → Steward) : (s.onSteward f).regs = s.regs := rfl
@[simp] theorem State.onSteward_gens (s : State) (f : Steward → Steward) : (s.onSteward f).gens = s.gens := rfl
@[simp] theorem State.onSteward_growq (s : State) (f : Steward → Steward) : (s.onSteward f).growq = s.growq := rfl
@[simp] theorem State.onSteward_parties (s : State) (f : Steward → Steward) : (s.onSteward f).parties = s.parties := rfl
@[simp] theorem State.onSteward_flight (s : State) (f : Steward → Steward) : (s.onSteward f).flight = s.flight := rfl
@[simp] theorem State.onSteward_cores (s : State) (f : Steward → Steward) : (s.onSteward f).cores = s.cores := rfl
@[simp] theorem State.onSteward_dies (s : State) (f : Steward → Steward) : (s.onSteward f).dies = s.dies := rfl
@[simp] theorem State.onSteward_tables (s : State) (f : Steward → Steward) : (s.onSteward f).tables = s.tables := rfl
@[simp] theorem State.onSteward_sys (s : State) (f : Steward → Steward) : (s.onSteward f).sys = s.sys := rfl
@[simp] theorem State.onSteward_live (s : State) (f : Steward → Steward) : (s.onSteward f).live = s.live := rfl
@[simp] theorem State.onSteward_requests (s : State) (f : Steward → Steward) : (s.onSteward f).requests = s.requests := rfl
@[simp] theorem State.onSteward_cntReqs (s : State) (f : Steward → Steward) : (s.onSteward f).cntReqs = s.cntReqs := rfl
@[simp] theorem State.onSteward_ports (s : State) (f : Steward → Steward) : (s.onSteward f).ports = s.ports := rfl
@[simp] theorem State.onSteward_turn (s : State) (f : Steward → Steward) : (s.onSteward f).turn = s.turn := rfl
@[simp] theorem State.onSteward_issued (s : State) (f : Steward → Steward) : (s.onSteward f).issued = s.issued := rfl
@[simp] theorem State.onSteward_served (s : State) (f : Steward → Steward) : (s.onSteward f).served = s.served := rfl
@[simp] theorem State.onSteward_sent (s : State) (f : Steward → Steward) : (s.onSteward f).sent = s.sent := rfl
@[simp] theorem State.onSteward_stamp (s : State) (f : Steward → Steward) : (s.onSteward f).stamp = s.stamp := rfl
@[simp] theorem State.onSteward_past (s : State) (f : Steward → Steward) : (s.onSteward f).past = s.past := rfl
@[simp] theorem State.onSteward_fences (s : State) (f : Steward → Steward) : (s.onSteward f).fences = s.fences := rfl
@[simp] theorem State.onSteward_changes (s : State) (f : Steward → Steward) : (s.onSteward f).changes = s.changes := rfl
@[simp] theorem State.onSteward_draws (s : State) (f : Steward → Steward) : (s.onSteward f).draws = s.draws := rfl
@[simp] theorem State.onSteward_nextId (s : State) (f : Steward → Steward) : (s.onSteward f).nextId = s.nextId := rfl
@[simp] theorem State.onSteward_agent (s : State) (f : Steward → Steward) : (s.onSteward f).agent = s.agent := rfl
@[simp] theorem State.onSteward_latch (s : State) (f : Steward → Steward) : (s.onSteward f).latch = s.latch := rfl
@[simp] theorem State.onSteward_agenda (s : State) (f : Steward → Steward) : (s.onSteward f).agenda = s.agenda := rfl
@[simp] theorem State.onSteward_deferred (s : State) (f : Steward → Steward) : (s.onSteward f).deferred = s.deferred := rfl

/-! ### `State.setPort` -/

@[simp] theorem State.setPort_clock (s : State) (k : Nat) (p : Port) : (s.setPort k p).clock = s.clock := rfl
@[simp] theorem State.setPort_mem (s : State) (k : Nat) (p : Port) : (s.setPort k p).mem = s.mem := rfl
@[simp] theorem State.setPort_poison (s : State) (k : Nat) (p : Port) : (s.setPort k p).poison = s.poison := rfl
@[simp] theorem State.setPort_failing (s : State) (k : Nat) (p : Port) : (s.setPort k p).failing = s.failing := rfl
@[simp] theorem State.setPort_regs (s : State) (k : Nat) (p : Port) : (s.setPort k p).regs = s.regs := rfl
@[simp] theorem State.setPort_gens (s : State) (k : Nat) (p : Port) : (s.setPort k p).gens = s.gens := rfl
@[simp] theorem State.setPort_growq (s : State) (k : Nat) (p : Port) : (s.setPort k p).growq = s.growq := rfl
@[simp] theorem State.setPort_parties (s : State) (k : Nat) (p : Port) : (s.setPort k p).parties = s.parties := rfl
@[simp] theorem State.setPort_flight (s : State) (k : Nat) (p : Port) : (s.setPort k p).flight = s.flight := rfl
@[simp] theorem State.setPort_cores (s : State) (k : Nat) (p : Port) : (s.setPort k p).cores = s.cores := rfl
@[simp] theorem State.setPort_dies (s : State) (k : Nat) (p : Port) : (s.setPort k p).dies = s.dies := rfl
@[simp] theorem State.setPort_tables (s : State) (k : Nat) (p : Port) : (s.setPort k p).tables = s.tables := rfl
@[simp] theorem State.setPort_sys (s : State) (k : Nat) (p : Port) : (s.setPort k p).sys = s.sys := rfl
@[simp] theorem State.setPort_live (s : State) (k : Nat) (p : Port) : (s.setPort k p).live = s.live := rfl
@[simp] theorem State.setPort_requests (s : State) (k : Nat) (p : Port) : (s.setPort k p).requests = s.requests := rfl
@[simp] theorem State.setPort_cntReqs (s : State) (k : Nat) (p : Port) : (s.setPort k p).cntReqs = s.cntReqs := rfl
@[simp] theorem State.setPort_steward (s : State) (k : Nat) (p : Port) : (s.setPort k p).steward = s.steward := rfl
@[simp] theorem State.setPort_turn (s : State) (k : Nat) (p : Port) : (s.setPort k p).turn = s.turn := rfl
@[simp] theorem State.setPort_issued (s : State) (k : Nat) (p : Port) : (s.setPort k p).issued = s.issued := rfl
@[simp] theorem State.setPort_served (s : State) (k : Nat) (p : Port) : (s.setPort k p).served = s.served := rfl
@[simp] theorem State.setPort_sent (s : State) (k : Nat) (p : Port) : (s.setPort k p).sent = s.sent := rfl
@[simp] theorem State.setPort_stamp (s : State) (k : Nat) (p : Port) : (s.setPort k p).stamp = s.stamp := rfl
@[simp] theorem State.setPort_past (s : State) (k : Nat) (p : Port) : (s.setPort k p).past = s.past := rfl
@[simp] theorem State.setPort_fences (s : State) (k : Nat) (p : Port) : (s.setPort k p).fences = s.fences := rfl
@[simp] theorem State.setPort_changes (s : State) (k : Nat) (p : Port) : (s.setPort k p).changes = s.changes := rfl
@[simp] theorem State.setPort_draws (s : State) (k : Nat) (p : Port) : (s.setPort k p).draws = s.draws := rfl
@[simp] theorem State.setPort_nextId (s : State) (k : Nat) (p : Port) : (s.setPort k p).nextId = s.nextId := rfl
@[simp] theorem State.setPort_agent (s : State) (k : Nat) (p : Port) : (s.setPort k p).agent = s.agent := rfl
@[simp] theorem State.setPort_latch (s : State) (k : Nat) (p : Port) : (s.setPort k p).latch = s.latch := rfl
@[simp] theorem State.setPort_agenda (s : State) (k : Nat) (p : Port) : (s.setPort k p).agenda = s.agenda := rfl
@[simp] theorem State.setPort_deferred (s : State) (k : Nat) (p : Port) : (s.setPort k p).deferred = s.deferred := rfl

/-! ### `State.setVreg` -/

@[simp] theorem State.setVreg_clock (s : State) (p : Party) (x : Fibre) (n : Nat) (w : Word) : (s.setVreg p x n w).clock = s.clock := by unfold State.setVreg; split <;> rfl
@[simp] theorem State.setVreg_mem (s : State) (p : Party) (x : Fibre) (n : Nat) (w : Word) : (s.setVreg p x n w).mem = s.mem := by unfold State.setVreg; split <;> rfl
@[simp] theorem State.setVreg_poison (s : State) (p : Party) (x : Fibre) (n : Nat) (w : Word) : (s.setVreg p x n w).poison = s.poison := by unfold State.setVreg; split <;> rfl
@[simp] theorem State.setVreg_failing (s : State) (p : Party) (x : Fibre) (n : Nat) (w : Word) : (s.setVreg p x n w).failing = s.failing := by unfold State.setVreg; split <;> rfl
@[simp] theorem State.setVreg_gens (s : State) (p : Party) (x : Fibre) (n : Nat) (w : Word) : (s.setVreg p x n w).gens = s.gens := by unfold State.setVreg; split <;> rfl
@[simp] theorem State.setVreg_growq (s : State) (p : Party) (x : Fibre) (n : Nat) (w : Word) : (s.setVreg p x n w).growq = s.growq := by unfold State.setVreg; split <;> rfl
@[simp] theorem State.setVreg_parties (s : State) (p : Party) (x : Fibre) (n : Nat) (w : Word) : (s.setVreg p x n w).parties = s.parties := by unfold State.setVreg; split <;> rfl
@[simp] theorem State.setVreg_flight (s : State) (p : Party) (x : Fibre) (n : Nat) (w : Word) : (s.setVreg p x n w).flight = s.flight := by unfold State.setVreg; split <;> rfl
@[simp] theorem State.setVreg_cores (s : State) (p : Party) (x : Fibre) (n : Nat) (w : Word) : (s.setVreg p x n w).cores = s.cores := by unfold State.setVreg; split <;> rfl
@[simp] theorem State.setVreg_dies (s : State) (p : Party) (x : Fibre) (n : Nat) (w : Word) : (s.setVreg p x n w).dies = s.dies := by unfold State.setVreg; split <;> rfl
@[simp] theorem State.setVreg_tables (s : State) (p : Party) (x : Fibre) (n : Nat) (w : Word) : (s.setVreg p x n w).tables = s.tables := by unfold State.setVreg; split <;> rfl
@[simp] theorem State.setVreg_sys (s : State) (p : Party) (x : Fibre) (n : Nat) (w : Word) : (s.setVreg p x n w).sys = s.sys := by unfold State.setVreg; split <;> rfl
@[simp] theorem State.setVreg_live (s : State) (p : Party) (x : Fibre) (n : Nat) (w : Word) : (s.setVreg p x n w).live = s.live := by unfold State.setVreg; split <;> rfl
@[simp] theorem State.setVreg_requests (s : State) (p : Party) (x : Fibre) (n : Nat) (w : Word) : (s.setVreg p x n w).requests = s.requests := by unfold State.setVreg; split <;> rfl
@[simp] theorem State.setVreg_cntReqs (s : State) (p : Party) (x : Fibre) (n : Nat) (w : Word) : (s.setVreg p x n w).cntReqs = s.cntReqs := by unfold State.setVreg; split <;> rfl
@[simp] theorem State.setVreg_ports (s : State) (p : Party) (x : Fibre) (n : Nat) (w : Word) : (s.setVreg p x n w).ports = s.ports := by unfold State.setVreg; split <;> rfl
@[simp] theorem State.setVreg_steward (s : State) (p : Party) (x : Fibre) (n : Nat) (w : Word) : (s.setVreg p x n w).steward = s.steward := by unfold State.setVreg; split <;> rfl
@[simp] theorem State.setVreg_turn (s : State) (p : Party) (x : Fibre) (n : Nat) (w : Word) : (s.setVreg p x n w).turn = s.turn := by unfold State.setVreg; split <;> rfl
@[simp] theorem State.setVreg_issued (s : State) (p : Party) (x : Fibre) (n : Nat) (w : Word) : (s.setVreg p x n w).issued = s.issued := by unfold State.setVreg; split <;> rfl
@[simp] theorem State.setVreg_served (s : State) (p : Party) (x : Fibre) (n : Nat) (w : Word) : (s.setVreg p x n w).served = s.served := by unfold State.setVreg; split <;> rfl
@[simp] theorem State.setVreg_sent (s : State) (p : Party) (x : Fibre) (n : Nat) (w : Word) : (s.setVreg p x n w).sent = s.sent := by unfold State.setVreg; split <;> rfl
@[simp] theorem State.setVreg_stamp (s : State) (p : Party) (x : Fibre) (n : Nat) (w : Word) : (s.setVreg p x n w).stamp = s.stamp := by unfold State.setVreg; split <;> rfl
@[simp] theorem State.setVreg_past (s : State) (p : Party) (x : Fibre) (n : Nat) (w : Word) : (s.setVreg p x n w).past = s.past := by unfold State.setVreg; split <;> rfl
@[simp] theorem State.setVreg_fences (s : State) (p : Party) (x : Fibre) (n : Nat) (w : Word) : (s.setVreg p x n w).fences = s.fences := by unfold State.setVreg; split <;> rfl
@[simp] theorem State.setVreg_changes (s : State) (p : Party) (x : Fibre) (n : Nat) (w : Word) : (s.setVreg p x n w).changes = s.changes := by unfold State.setVreg; split <;> rfl
@[simp] theorem State.setVreg_draws (s : State) (p : Party) (x : Fibre) (n : Nat) (w : Word) : (s.setVreg p x n w).draws = s.draws := by unfold State.setVreg; split <;> rfl
@[simp] theorem State.setVreg_nextId (s : State) (p : Party) (x : Fibre) (n : Nat) (w : Word) : (s.setVreg p x n w).nextId = s.nextId := by unfold State.setVreg; split <;> rfl
@[simp] theorem State.setVreg_agent (s : State) (p : Party) (x : Fibre) (n : Nat) (w : Word) : (s.setVreg p x n w).agent = s.agent := by unfold State.setVreg; split <;> rfl
@[simp] theorem State.setVreg_latch (s : State) (p : Party) (x : Fibre) (n : Nat) (w : Word) : (s.setVreg p x n w).latch = s.latch := by unfold State.setVreg; split <;> rfl
@[simp] theorem State.setVreg_agenda (s : State) (p : Party) (x : Fibre) (n : Nat) (w : Word) : (s.setVreg p x n w).agenda = s.agenda := by unfold State.setVreg; split <;> rfl
@[simp] theorem State.setVreg_deferred (s : State) (p : Party) (x : Fibre) (n : Nat) (w : Word) : (s.setVreg p x n w).deferred = s.deferred := by unfold State.setVreg; split <;> rfl

/-! ### `State.draw` -/

@[simp] theorem State.draw_clock (s : State) (n : Nat) : ((s.draw n).2).clock = s.clock := by unfold State.draw; split <;> rfl
@[simp] theorem State.draw_mem (s : State) (n : Nat) : ((s.draw n).2).mem = s.mem := by unfold State.draw; split <;> rfl
@[simp] theorem State.draw_poison (s : State) (n : Nat) : ((s.draw n).2).poison = s.poison := by unfold State.draw; split <;> rfl
@[simp] theorem State.draw_failing (s : State) (n : Nat) : ((s.draw n).2).failing = s.failing := by unfold State.draw; split <;> rfl
@[simp] theorem State.draw_regs (s : State) (n : Nat) : ((s.draw n).2).regs = s.regs := by unfold State.draw; split <;> rfl
@[simp] theorem State.draw_gens (s : State) (n : Nat) : ((s.draw n).2).gens = s.gens := by unfold State.draw; split <;> rfl
@[simp] theorem State.draw_growq (s : State) (n : Nat) : ((s.draw n).2).growq = s.growq := by unfold State.draw; split <;> rfl
@[simp] theorem State.draw_parties (s : State) (n : Nat) : ((s.draw n).2).parties = s.parties := by unfold State.draw; split <;> rfl
@[simp] theorem State.draw_flight (s : State) (n : Nat) : ((s.draw n).2).flight = s.flight := by unfold State.draw; split <;> rfl
@[simp] theorem State.draw_cores (s : State) (n : Nat) : ((s.draw n).2).cores = s.cores := by unfold State.draw; split <;> rfl
@[simp] theorem State.draw_dies (s : State) (n : Nat) : ((s.draw n).2).dies = s.dies := by unfold State.draw; split <;> rfl
@[simp] theorem State.draw_tables (s : State) (n : Nat) : ((s.draw n).2).tables = s.tables := by unfold State.draw; split <;> rfl
@[simp] theorem State.draw_sys (s : State) (n : Nat) : ((s.draw n).2).sys = s.sys := by unfold State.draw; split <;> rfl
@[simp] theorem State.draw_live (s : State) (n : Nat) : ((s.draw n).2).live = s.live := by unfold State.draw; split <;> rfl
@[simp] theorem State.draw_requests (s : State) (n : Nat) : ((s.draw n).2).requests = s.requests := by unfold State.draw; split <;> rfl
@[simp] theorem State.draw_cntReqs (s : State) (n : Nat) : ((s.draw n).2).cntReqs = s.cntReqs := by unfold State.draw; split <;> rfl
@[simp] theorem State.draw_ports (s : State) (n : Nat) : ((s.draw n).2).ports = s.ports := by unfold State.draw; split <;> rfl
@[simp] theorem State.draw_steward (s : State) (n : Nat) : ((s.draw n).2).steward = s.steward := by unfold State.draw; split <;> rfl
@[simp] theorem State.draw_turn (s : State) (n : Nat) : ((s.draw n).2).turn = s.turn := by unfold State.draw; split <;> rfl
@[simp] theorem State.draw_issued (s : State) (n : Nat) : ((s.draw n).2).issued = s.issued := by unfold State.draw; split <;> rfl
@[simp] theorem State.draw_served (s : State) (n : Nat) : ((s.draw n).2).served = s.served := by unfold State.draw; split <;> rfl
@[simp] theorem State.draw_sent (s : State) (n : Nat) : ((s.draw n).2).sent = s.sent := by unfold State.draw; split <;> rfl
@[simp] theorem State.draw_stamp (s : State) (n : Nat) : ((s.draw n).2).stamp = s.stamp := by unfold State.draw; split <;> rfl
@[simp] theorem State.draw_past (s : State) (n : Nat) : ((s.draw n).2).past = s.past := by unfold State.draw; split <;> rfl
@[simp] theorem State.draw_fences (s : State) (n : Nat) : ((s.draw n).2).fences = s.fences := by unfold State.draw; split <;> rfl
@[simp] theorem State.draw_changes (s : State) (n : Nat) : ((s.draw n).2).changes = s.changes := by unfold State.draw; split <;> rfl
@[simp] theorem State.draw_nextId (s : State) (n : Nat) : ((s.draw n).2).nextId = s.nextId := by unfold State.draw; split <;> rfl
@[simp] theorem State.draw_agent (s : State) (n : Nat) : ((s.draw n).2).agent = s.agent := by unfold State.draw; split <;> rfl
@[simp] theorem State.draw_latch (s : State) (n : Nat) : ((s.draw n).2).latch = s.latch := by unfold State.draw; split <;> rfl
@[simp] theorem State.draw_agenda (s : State) (n : Nat) : ((s.draw n).2).agenda = s.agenda := by unfold State.draw; split <;> rfl
@[simp] theorem State.draw_deferred (s : State) (n : Nat) : ((s.draw n).2).deferred = s.deferred := by unfold State.draw; split <;> rfl

/-! ### `State.onCtx` -/

@[simp] theorem State.onCtx_clock (s : State) (n : Nat) (f : Context → Context) : (s.onCtx n f).clock = s.clock := by unfold State.onCtx; split <;> rfl
@[simp] theorem State.onCtx_mem (s : State) (n : Nat) (f : Context → Context) : (s.onCtx n f).mem = s.mem := by unfold State.onCtx; split <;> rfl
@[simp] theorem State.onCtx_poison (s : State) (n : Nat) (f : Context → Context) : (s.onCtx n f).poison = s.poison := by unfold State.onCtx; split <;> rfl
@[simp] theorem State.onCtx_failing (s : State) (n : Nat) (f : Context → Context) : (s.onCtx n f).failing = s.failing := by unfold State.onCtx; split <;> rfl
@[simp] theorem State.onCtx_regs (s : State) (n : Nat) (f : Context → Context) : (s.onCtx n f).regs = s.regs := by unfold State.onCtx; split <;> rfl
@[simp] theorem State.onCtx_gens (s : State) (n : Nat) (f : Context → Context) : (s.onCtx n f).gens = s.gens := by unfold State.onCtx; split <;> rfl
@[simp] theorem State.onCtx_growq (s : State) (n : Nat) (f : Context → Context) : (s.onCtx n f).growq = s.growq := by unfold State.onCtx; split <;> rfl
@[simp] theorem State.onCtx_parties (s : State) (n : Nat) (f : Context → Context) : (s.onCtx n f).parties = s.parties := by unfold State.onCtx; split <;> rfl
@[simp] theorem State.onCtx_flight (s : State) (n : Nat) (f : Context → Context) : (s.onCtx n f).flight = s.flight := by unfold State.onCtx; split <;> rfl
@[simp] theorem State.onCtx_cores (s : State) (n : Nat) (f : Context → Context) : (s.onCtx n f).cores = s.cores := by unfold State.onCtx; split <;> rfl
@[simp] theorem State.onCtx_dies (s : State) (n : Nat) (f : Context → Context) : (s.onCtx n f).dies = s.dies := by unfold State.onCtx; split <;> rfl
@[simp] theorem State.onCtx_sys (s : State) (n : Nat) (f : Context → Context) : (s.onCtx n f).sys = s.sys := by unfold State.onCtx; split <;> rfl
@[simp] theorem State.onCtx_live (s : State) (n : Nat) (f : Context → Context) : (s.onCtx n f).live = s.live := by unfold State.onCtx; split <;> rfl
@[simp] theorem State.onCtx_requests (s : State) (n : Nat) (f : Context → Context) : (s.onCtx n f).requests = s.requests := by unfold State.onCtx; split <;> rfl
@[simp] theorem State.onCtx_cntReqs (s : State) (n : Nat) (f : Context → Context) : (s.onCtx n f).cntReqs = s.cntReqs := by unfold State.onCtx; split <;> rfl
@[simp] theorem State.onCtx_ports (s : State) (n : Nat) (f : Context → Context) : (s.onCtx n f).ports = s.ports := by unfold State.onCtx; split <;> rfl
@[simp] theorem State.onCtx_steward (s : State) (n : Nat) (f : Context → Context) : (s.onCtx n f).steward = s.steward := by unfold State.onCtx; split <;> rfl
@[simp] theorem State.onCtx_turn (s : State) (n : Nat) (f : Context → Context) : (s.onCtx n f).turn = s.turn := by unfold State.onCtx; split <;> rfl
@[simp] theorem State.onCtx_issued (s : State) (n : Nat) (f : Context → Context) : (s.onCtx n f).issued = s.issued := by unfold State.onCtx; split <;> rfl
@[simp] theorem State.onCtx_served (s : State) (n : Nat) (f : Context → Context) : (s.onCtx n f).served = s.served := by unfold State.onCtx; split <;> rfl
@[simp] theorem State.onCtx_sent (s : State) (n : Nat) (f : Context → Context) : (s.onCtx n f).sent = s.sent := by unfold State.onCtx; split <;> rfl
@[simp] theorem State.onCtx_stamp (s : State) (n : Nat) (f : Context → Context) : (s.onCtx n f).stamp = s.stamp := by unfold State.onCtx; split <;> rfl
@[simp] theorem State.onCtx_past (s : State) (n : Nat) (f : Context → Context) : (s.onCtx n f).past = s.past := by unfold State.onCtx; split <;> rfl
@[simp] theorem State.onCtx_fences (s : State) (n : Nat) (f : Context → Context) : (s.onCtx n f).fences = s.fences := by unfold State.onCtx; split <;> rfl
@[simp] theorem State.onCtx_changes (s : State) (n : Nat) (f : Context → Context) : (s.onCtx n f).changes = s.changes := by unfold State.onCtx; split <;> rfl
@[simp] theorem State.onCtx_draws (s : State) (n : Nat) (f : Context → Context) : (s.onCtx n f).draws = s.draws := by unfold State.onCtx; split <;> rfl
@[simp] theorem State.onCtx_nextId (s : State) (n : Nat) (f : Context → Context) : (s.onCtx n f).nextId = s.nextId := by unfold State.onCtx; split <;> rfl
@[simp] theorem State.onCtx_agent (s : State) (n : Nat) (f : Context → Context) : (s.onCtx n f).agent = s.agent := by unfold State.onCtx; split <;> rfl
@[simp] theorem State.onCtx_latch (s : State) (n : Nat) (f : Context → Context) : (s.onCtx n f).latch = s.latch := by unfold State.onCtx; split <;> rfl
@[simp] theorem State.onCtx_agenda (s : State) (n : Nat) (f : Context → Context) : (s.onCtx n f).agenda = s.agenda := by unfold State.onCtx; split <;> rfl
@[simp] theorem State.onCtx_deferred (s : State) (n : Nat) (f : Context → Context) : (s.onCtx n f).deferred = s.deferred := by unfold State.onCtx; split <;> rfl

/-! ### `State.readUnit` -/

@[simp] theorem State.readUnit_clock (s : State) (v : View) (l n : Nat) : ((s.readUnit v l n).2.2.2).clock = s.clock := State.draw_clock s _
@[simp] theorem State.readUnit_mem (s : State) (v : View) (l n : Nat) : ((s.readUnit v l n).2.2.2).mem = s.mem := State.draw_mem s _
@[simp] theorem State.readUnit_poison (s : State) (v : View) (l n : Nat) : ((s.readUnit v l n).2.2.2).poison = s.poison := State.draw_poison s _
@[simp] theorem State.readUnit_failing (s : State) (v : View) (l n : Nat) : ((s.readUnit v l n).2.2.2).failing = s.failing := State.draw_failing s _
@[simp] theorem State.readUnit_regs (s : State) (v : View) (l n : Nat) : ((s.readUnit v l n).2.2.2).regs = s.regs := State.draw_regs s _
@[simp] theorem State.readUnit_gens (s : State) (v : View) (l n : Nat) : ((s.readUnit v l n).2.2.2).gens = s.gens := State.draw_gens s _
@[simp] theorem State.readUnit_growq (s : State) (v : View) (l n : Nat) : ((s.readUnit v l n).2.2.2).growq = s.growq := State.draw_growq s _
@[simp] theorem State.readUnit_parties (s : State) (v : View) (l n : Nat) : ((s.readUnit v l n).2.2.2).parties = s.parties := State.draw_parties s _
@[simp] theorem State.readUnit_flight (s : State) (v : View) (l n : Nat) : ((s.readUnit v l n).2.2.2).flight = s.flight := State.draw_flight s _
@[simp] theorem State.readUnit_cores (s : State) (v : View) (l n : Nat) : ((s.readUnit v l n).2.2.2).cores = s.cores := State.draw_cores s _
@[simp] theorem State.readUnit_dies (s : State) (v : View) (l n : Nat) : ((s.readUnit v l n).2.2.2).dies = s.dies := State.draw_dies s _
@[simp] theorem State.readUnit_tables (s : State) (v : View) (l n : Nat) : ((s.readUnit v l n).2.2.2).tables = s.tables := State.draw_tables s _
@[simp] theorem State.readUnit_sys (s : State) (v : View) (l n : Nat) : ((s.readUnit v l n).2.2.2).sys = s.sys := State.draw_sys s _
@[simp] theorem State.readUnit_live (s : State) (v : View) (l n : Nat) : ((s.readUnit v l n).2.2.2).live = s.live := State.draw_live s _
@[simp] theorem State.readUnit_requests (s : State) (v : View) (l n : Nat) : ((s.readUnit v l n).2.2.2).requests = s.requests := State.draw_requests s _
@[simp] theorem State.readUnit_cntReqs (s : State) (v : View) (l n : Nat) : ((s.readUnit v l n).2.2.2).cntReqs = s.cntReqs := State.draw_cntReqs s _
@[simp] theorem State.readUnit_ports (s : State) (v : View) (l n : Nat) : ((s.readUnit v l n).2.2.2).ports = s.ports := State.draw_ports s _
@[simp] theorem State.readUnit_steward (s : State) (v : View) (l n : Nat) : ((s.readUnit v l n).2.2.2).steward = s.steward := State.draw_steward s _
@[simp] theorem State.readUnit_turn (s : State) (v : View) (l n : Nat) : ((s.readUnit v l n).2.2.2).turn = s.turn := State.draw_turn s _
@[simp] theorem State.readUnit_issued (s : State) (v : View) (l n : Nat) : ((s.readUnit v l n).2.2.2).issued = s.issued := State.draw_issued s _
@[simp] theorem State.readUnit_served (s : State) (v : View) (l n : Nat) : ((s.readUnit v l n).2.2.2).served = s.served := State.draw_served s _
@[simp] theorem State.readUnit_sent (s : State) (v : View) (l n : Nat) : ((s.readUnit v l n).2.2.2).sent = s.sent := State.draw_sent s _
@[simp] theorem State.readUnit_stamp (s : State) (v : View) (l n : Nat) : ((s.readUnit v l n).2.2.2).stamp = s.stamp := State.draw_stamp s _
@[simp] theorem State.readUnit_past (s : State) (v : View) (l n : Nat) : ((s.readUnit v l n).2.2.2).past = s.past := State.draw_past s _
@[simp] theorem State.readUnit_fences (s : State) (v : View) (l n : Nat) : ((s.readUnit v l n).2.2.2).fences = s.fences := State.draw_fences s _
@[simp] theorem State.readUnit_changes (s : State) (v : View) (l n : Nat) : ((s.readUnit v l n).2.2.2).changes = s.changes := State.draw_changes s _
@[simp] theorem State.readUnit_nextId (s : State) (v : View) (l n : Nat) : ((s.readUnit v l n).2.2.2).nextId = s.nextId := State.draw_nextId s _
@[simp] theorem State.readUnit_agent (s : State) (v : View) (l n : Nat) : ((s.readUnit v l n).2.2.2).agent = s.agent := State.draw_agent s _
@[simp] theorem State.readUnit_latch (s : State) (v : View) (l n : Nat) : ((s.readUnit v l n).2.2.2).latch = s.latch := State.draw_latch s _
@[simp] theorem State.readUnit_agenda (s : State) (v : View) (l n : Nat) : ((s.readUnit v l n).2.2.2).agenda = s.agenda := State.draw_agenda s _
@[simp] theorem State.readUnit_deferred (s : State) (v : View) (l n : Nat) : ((s.readUnit v l n).2.2.2).deferred = s.deferred := State.draw_deferred s _

/-! ### Look-ups after updates -/

theorem find_map_key {α : Type} (key : α → Nat) (f : α → α) (hf : ∀ a, key (f a) = key a) (n m : Nat) (l : List α) :
    (l.map fun a => if key a == m then f a else a).find? (fun a => key a == n) =
      (l.find? fun a => key a == n).map fun a => if n = m then f a else a := by
  induction l with
  | nil => rfl
  | cons a t ih =>
    have hk : key (if key a == m then f a else a) = key a := by split <;> simp [hf]
    simp only [List.map_cons, List.find?_cons, hk]
    by_cases h : key a = n
    · subst h; simp
    · simp only [beq_eq_false_iff_ne.2 h]; exact ih

/-- The party that `onParty` changes, and the others. -/
theorem State.party?_onParty (s : State) (u v : Nat) (f : Party → Party) (hf : ∀ p, (f p).uid = p.uid) :
    (s.onParty u f).party? v = (s.party? v).map fun p => if v = u then f p else p :=
  find_map_key (fun p : Party => p.uid) f hf v u s.parties

theorem Party.gang?_onGang (p : Party) (m n : Nat) (f : Gang → Gang) (hf : ∀ g, (f g).gid = g.gid) :
    (p.onGang m f).gang? n = (p.gang? n).map fun g => if n = m then f g else g :=
  find_map_key (fun g : Gang => g.gid) f hf n m p.gangs

theorem Party.fibre?_onFibre (p : Party) (m n : Nat) (f : Fibre → Fibre) (hf : ∀ g, (f g).fid = g.fid) :
    (p.onFibre m f).fibre? n = (p.fibre? n).map fun g => if n = m then f g else g :=
  find_map_key (fun g : Fibre => g.fid) f hf n m p.fibres

@[simp] theorem Party.onGang_uid (p : Party) (n : Nat) (f : Gang → Gang) : (p.onGang n f).uid = p.uid := rfl
@[simp] theorem Party.onFibre_uid (p : Party) (n : Nat) (f : Fibre → Fibre) : (p.onFibre n f).uid = p.uid := rfl
@[simp] theorem Party.onGang_fibres (p : Party) (n : Nat) (f : Gang → Gang) : (p.onGang n f).fibres = p.fibres := rfl
@[simp] theorem Party.onFibre_gangs (p : Party) (n : Nat) (f : Fibre → Fibre) : (p.onFibre n f).gangs = p.gangs := rfl
@[simp] theorem Party.onGang_crews (p : Party) (n : Nat) (f : Gang → Gang) : (p.onGang n f).crews = p.crews := rfl
@[simp] theorem Party.onFibre_crews (p : Party) (n : Nat) (f : Fibre → Fibre) : (p.onFibre n f).crews = p.crews := rfl

/-- What `onGang` does to the gang it names, in its party. -/
theorem State.gang?_onGang (s : State) (u v m n : Nat) (f : Gang → Gang) (hf : ∀ g, (f g).gid = g.gid) :
    (s.onGang u m f).gang? v n = (s.gang? v n).map fun g => if v = u ∧ n = m then f g else g := by
  unfold State.gang? State.onGang
  rw [State.party?_onParty _ _ _ _ fun p => Party.onGang_uid p m f]
  cases s.party? v with
  | none => rfl
  | some p =>
    by_cases h : v = u
    · simp [h, Party.gang?_onGang p m n f hf]
    · simp [h]

@[simp] theorem State.die_onDie (s : State) (d : Nat) (f : Die → Die) (h : d < s.dies.length) : (s.onDie d f).die d = f (s.die d) := by
  simp [State.die, State.onDie, List.getD_eq_getElem?_getD, h]

theorem State.die_onDie_ne (s : State) (d e : Nat) (f : Die → Die) (h : e ≠ d) : (s.onDie d f).die e = s.die e := by
  simp [State.die, State.onDie, List.getD_eq_getElem?_getD, Ne.symm h]

end Sys2Proof.Machine
end

