-- ==== Sys2Proof/Laws/Issue.lean ====
section
/-!
SUPPORT. What each way of issuing can do, said once: a proof about an instruction cites one of these and never unfolds `State.issue`.
-/

namespace Sys2Proof.Machine

/-! ### Gangs -/

/-- Everything issuing can do. -/
theorem State.issue_cases (s : State) (i : Instr) (go : Turn → Out) :
    (s.turnOf = none ∧ s.issue i go = .refused .noIssuer) ∨
    ∃ x, s.turnOf = some x ∧
      ((s.mustTake i x = true ∧ s.issue i go = .next (s.takePending x.uid x.gid x.pc)) ∨
       (s.mustTake i x = false ∧ i.head.w = true ∧ s.outstanding x.uid x.g = true ∧ s.issue i go = .next (s.hold x.uid x.gid .marker)) ∨
       (s.mustTake i x = false ∧ windowOk i x.ms = false ∧ s.issue i go = .next (s.encodingTrap x.uid x.gid .badOperand i.raw)) ∨
       (s.Clear i x ∧ s.issue i go = go x)) := by
  unfold State.issue
  cases ht : s.turnOf with
  | none => exact .inl ⟨rfl, rfl⟩
  | some x =>
    refine .inr ⟨x, rfl, ?_⟩
    by_cases h1 : s.mustTake i x = true
    · exact .inl ⟨h1, by simp [h1]⟩
    · have h1 : s.mustTake i x = false := by simpa using h1
      by_cases h2 : (i.head.w && s.outstanding x.uid x.g) = true
      · exact .inr (.inl ⟨h1, (Bool.and_eq_true_iff.1 h2).1, (Bool.and_eq_true_iff.1 h2).2, by simp [h1, h2]⟩)
      · by_cases h3 : windowOk i x.ms = true
        · refine .inr (.inr (.inr ⟨⟨ht, h1, fun hw => ?_, h3⟩, by simp [h1, h2, h3]⟩))
          simpa [hw] using h2
        · have h3 : windowOk i x.ms = false := by simpa using h3
          exact .inr (.inr (.inl ⟨h1, h3, by simp [h1, h2, h3]⟩))

/-- Where nothing holds an instruction back, it has its own effect. -/
theorem State.issue_clear {s : State} {i : Instr} {x : Turn} (c : s.Clear i x) (go : Turn → Out) : s.issue i go = go x := by
  obtain ⟨a, b, d, e⟩ := c
  unfold State.issue
  rw [a]; simp only [b, e, Bool.not_true, Bool.false_eq_true, if_false]
  split
  · rename_i hh; simp at hh; simp [d hh.1] at hh
  · rfl

theorem State.issueNext_clear {s : State} {i : Instr} {x : Turn} (c : s.Clear i x) (f : Turn → State) :
    s.issueNext i f = .next ((f x).advance x.uid x.gid i.raw) := s.issue_clear c _

theorem State.regForm_clear {s : State} {i : Instr} {x : Turn} (c : s.Clear i x) (d : Opnd) (fx : Turn → Fibre → Effect) :
    s.regForm i d fx = .next ((s.applyForm i x d (fx x)).advance x.uid x.gid i.raw) := s.issue_clear c _

theorem State.oweForm_clear {s : State} {i : Instr} {x : Turn} (c : s.Clear i x) (d : Opnd) (ws : Turn → Fibre → List Word) :
    s.oweForm i d ws = .next ((s.oweAll i x d (ws x)).advance x.uid x.gid i.raw) := s.issue_clear c _

theorem State.issueFibre_clear {s : State} {i : Instr} {x : Turn} (c : s.Clear i x) (hl : x.g.level = false) (go : Turn → Out) :
    s.issueFibre i go = go x := by
  unfold State.issueFibre; rw [s.issue_clear c]; simp [hl]

/-- A per-fibre transfer at level S ends the party (16 R351). -/
theorem State.issueFibre_levelS {s : State} {i : Instr} {x : Turn} (c : s.Clear i x) (hl : x.g.level = true) (go : Turn → Out) :
    s.issueFibre i go = .next (s.endParty x.uid .supervisorFault) := by
  unfold State.issueFibre; rw [s.issue_clear c]; simp [hl]

theorem State.privIssue_clear {s : State} {i : Instr} {x : Turn} (c : s.Clear i x) (hl : x.g.level = true) (go : Turn → Out) :
    s.privIssue i go = go x := by
  unfold State.privIssue; rw [c.turn]; simp [hl, s.issue_clear c]

/-- A privileged form at level U traps (02 R40). -/
theorem State.privIssue_levelU {s : State} {i : Instr} {x : Turn} (ht : s.turnOf = some x) (hl : x.g.level = false) (go : Turn → Out) :
    s.privIssue i go = .next (s.encodingTrap x.uid x.gid .priv i.raw) := by
  unfold State.privIssue; rw [ht]; simp [hl]

/-- Everything a memory form that issues can do (10 R212, R213, R222). -/
theorem State.memIssue_clear {s : State} {i : Instr} {x : Turn} (c : s.Clear i x) (req : Turn → MemReq) (hp : performers i x ≠ []) :
    let plan := s.memPlan i x (req x)
    let bad := worstCheck plan.1
    (bad ≠ 0 → s.memIssue i req = .next (plan.2.faultAt x.uid x.gid (nextPc x.pc i.raw) (checkLog i x bad plan.1))) ∧
    (bad = 0 → s.memWait x (plan.1.map (·.2)) (req x).ord = .go →
      s.memIssue i req = .next ((plan.2.memGo i x (req x) (plan.1.map (·.2))).advance x.uid x.gid i.raw)) ∧
    (bad = 0 → s.memWait x (plan.1.map (·.2)) (req x).ord = .wait → s.memIssue i req = .next (s.holdAgain x.uid x.gid)) ∧
    (bad = 0 → s.memWait x (plan.1.map (·.2)) (req x).ord = .fault → s.memIssue i req = .next (s.takePending x.uid x.gid x.pc)) := by
  intro plan bad
  have hp' : (performers i x).isEmpty = false := by simpa using hp
  have h1 : s.memIssue i req = _ := s.issue_clear c _
  rw [h1]; simp only [hp', Bool.false_eq_true, if_false]
  refine ⟨fun hb => by rw [if_pos hb], fun hb hw => ?_, fun hb hw => ?_, fun hb hw => ?_⟩
  all_goals rw [if_neg (by simpa [bad] using hb)]; simp only [plan] at hw; rw [hw]

/-- A memory form that no fibre performs goes on. -/
theorem State.memIssue_none {s : State} {i : Instr} {x : Turn} (c : s.Clear i x) (req : Turn → MemReq) (hp : performers i x = []) :
    s.memIssue i req = .next (s.advance x.uid x.gid i.raw) := by
  unfold State.memIssue; rw [s.issue_clear c]; simp [hp]

/-! ### The turn -/

/-- The turn is that of a gang of the state. -/
theorem State.turnOf_some {s : State} {x : Turn} (h : s.turnOf = some x) :
    s.agent = .gang x.uid x.gid ∧ s.party? x.uid = some x.p ∧ x.p.gang? x.gid = some x.g ∧ x.ms = x.p.members x.g ∧ x.pc = x.p.pcOf x.g := by
  unfold State.turnOf at h
  split at h
  · split at h
    · split at h
      · cases h; exact ⟨by assumption, by assumption, by assumption, rfl, rfl⟩
      · cases h
    · cases h
  · cases h

theorem State.turnOf_of {s : State} {uid gid : Nat} {p : Party} {g : Gang} (ha : s.agent = .gang uid gid) (hp : s.party? uid = some p)
    (hg : p.gang? gid = some g) : s.turnOf = some { uid := uid, gid := gid, p := p, g := g, ms := p.members g, pc := p.pcOf g } := by
  simp [State.turnOf, ha, hp, hg]

/-- A gang's word is not Outrider code. -/
theorem State.inOutrider_of_turn {s : State} {x : Turn} (h : s.turnOf = some x) : s.inOutrider = false := by
  simp [State.inOutrider, (State.turnOf_some h).1]

/-! ### Outriders -/

theorem State.inOutrider_of_runs {s : State} {c : CoreRef} (h : s.OlRuns c) : s.inOutrider = true := by simp [State.inOutrider, h.1]

/-- An Outrider that runs has its word's effect. -/
theorem State.olRun_eq {s : State} {c : CoreRef} (h : s.OlRuns c) (f : CoreRef → Outrider → State) : s.olRun f = .next (f c (s.core c).outrider) := by
  simp [State.olRun, State.olOf, h.1, h.2]

theorem State.olForm_eq {s : State} {c : CoreRef} (h : s.OlRuns c) (i : Instr) (d : Opnd) (v : Outrider → Int) :
    s.olForm i d v = .next (s.onOutrider c fun _ => olAdvance i.raw (olSet (s.core c).outrider d (BitVec.ofInt 64 (v (s.core c).outrider)))) :=
  State.olRun_eq h _

end Sys2Proof.Machine
end

