-- ==== Sys2Proof/Laws/Tables.lean ====
section
/-!
SUPPORT. Sparse tables and rising lists: reading after writing, and that every update keeps the canonical form.
-/

namespace Sys2Proof.Machine

variable {α : Type}

/-! ### Order of keys -/

theorem sortedFrom_mono {lo hi : Nat} (h : lo ≤ hi) {m : Sparse α} (hm : sortedFrom hi m = true) : sortedFrom lo m = true := by
  cases m with
  | nil => rfl
  | cons c t => simp only [sortedFrom, Bool.and_eq_true, decide_eq_true_eq] at *; exact ⟨by omega, hm.2⟩

theorem sortedFrom_mem {lo : Nat} {m : Sparse α} (hm : sortedFrom lo m = true) {c : Nat × α} (hc : c ∈ m) : lo ≤ c.1 := by
  induction m generalizing lo with
  | nil => simp at hc
  | cons d t ih =>
    simp only [sortedFrom, Bool.and_eq_true, decide_eq_true_eq] at hm
    rcases List.mem_cons.1 hc with rfl | hc
    · exact hm.1
    · have := ih hm.2 hc; omega

theorem sortedFrom_filter {lo : Nat} {m : Sparse α} (p : Nat × α → Bool) (hm : sortedFrom lo m = true) : sortedFrom lo (m.filter p) = true := by
  induction m generalizing lo with
  | nil => rfl
  | cons d t ih =>
    simp only [sortedFrom, Bool.and_eq_true, decide_eq_true_eq] at hm
    rw [List.filter_cons]
    split
    · simp only [sortedFrom, Bool.and_eq_true, decide_eq_true_eq]; exact ⟨hm.1, ih hm.2⟩
    · exact sortedFrom_mono (by omega) (ih hm.2)

theorem sget_below (d : α) {lo n : Nat} {m : Sparse α} (hm : sortedFrom lo m = true) (h : n < lo) : sget d m n = d := by
  cases m with
  | nil => rfl
  | cons c t =>
    simp only [sortedFrom, Bool.and_eq_true, decide_eq_true_eq] at hm
    simp only [sget]; rw [if_neg (by omega), if_pos (by omega)]

theorem sfind_below {lo n : Nat} {m : Sparse α} (hm : sortedFrom lo m = true) (h : n < lo) : sfind m n = none := by
  cases m with
  | nil => rfl
  | cons c t =>
    simp only [sortedFrom, Bool.and_eq_true, decide_eq_true_eq] at hm
    simp only [sfind]; rw [if_neg (by omega), if_pos (by omega)]

/-! ### Reading after writing -/

@[simp] theorem sget_sput_self (d : α) (m : Sparse α) (n : Nat) (x : α) : sget d (sput m n x) n = x := by
  induction m with
  | nil => simp [sput, sget]
  | cons c t ih =>
    simp only [sput]
    split
    · simp [sget]
    · split
      · simp [sget]
      · rename_i h1 h2; simp only [sget]; rw [if_neg h1, if_neg h2]; exact ih

theorem sget_sput_ne (d : α) (m : Sparse α) {n k : Nat} (x : α) (h : k ≠ n) : sget d (sput m n x) k = sget d m k := by
  induction m with
  | nil => simp only [sput, sget]; rw [if_neg (Ne.symm h)]; split <;> rfl
  | cons c t ih =>
    simp only [sput]
    split
    · rename_i h1; subst h1; simp only [sget, if_neg (Ne.symm h)]
    · split
      · simp only [sget]; rw [if_neg (Ne.symm h)]
        split
        · rw [if_neg (by omega), if_pos (by omega)]
        · rfl
      · simp only [sget, ih]

@[simp] theorem sfind_sput_self (m : Sparse α) (n : Nat) (x : α) : sfind (sput m n x) n = some x := by
  induction m with
  | nil => simp [sput, sfind]
  | cons c t ih =>
    simp only [sput]
    split
    · simp [sfind]
    · split
      · simp [sfind]
      · rename_i h1 h2; simp only [sfind]; rw [if_neg h1, if_neg h2]; exact ih

theorem sfind_sput_ne (m : Sparse α) {n k : Nat} (x : α) (h : k ≠ n) : sfind (sput m n x) k = sfind m k := by
  induction m with
  | nil => simp only [sput, sfind]; rw [if_neg (Ne.symm h)]; split <;> rfl
  | cons c t ih =>
    simp only [sput]
    split
    · rename_i h1; subst h1; simp only [sfind, if_neg (Ne.symm h)]
    · split
      · simp only [sfind]; rw [if_neg (Ne.symm h)]
        split
        · rw [if_neg (by omega), if_pos (by omega)]
        · rfl
      · simp only [sfind, ih]

theorem sget_sdel (d : α) {lo : Nat} {m : Sparse α} (hm : sortedFrom lo m = true) (n k : Nat) :
    sget d (sdel m n) k = if k = n then d else sget d m k := by
  induction m generalizing lo with
  | nil => simp [sdel, sget]
  | cons c t ih =>
    simp only [sortedFrom, Bool.and_eq_true, decide_eq_true_eq] at hm
    simp only [sdel]
    split
    · rename_i h1; subst h1
      by_cases hk : k = c.1
      · subst hk; simp [sget_below d hm.2 (Nat.lt_succ_self _)]
      · rw [if_neg hk]; simp only [sget]; rw [if_neg (Ne.symm hk)]
        split
        · exact sget_below d hm.2 (by omega)
        · rfl
    · split
      · by_cases hk : k = n
        · subst hk; simp only [sget]; rw [if_neg ‹_›, if_pos ‹_›]; simp
        · rw [if_neg hk]
      · simp only [sget, ih hm.2]
        by_cases hk : k = n
        · subst hk; rw [if_neg ‹_›, if_neg ‹_›]; simp
        · rw [if_neg hk, if_neg hk]

/-- What a table reads as after a value is set, at every key. -/
theorem sget_sset [DecidableEq α] (d : α) {lo : Nat} {m : Sparse α} (hm : sortedFrom lo m = true) (n k : Nat) (x : α) :
    sget d (sset d m n x) k = if k = n then x else sget d m k := by
  unfold sset
  split
  · rename_i h; subst h; exact sget_sdel x hm n k
  · by_cases hk : k = n
    · subst hk; simp
    · rw [if_neg hk]; exact sget_sput_ne d m x hk

/-! ### Canonical form -/

theorem sortedFrom_sput {lo n : Nat} {m : Sparse α} (x : α) (hm : sortedFrom lo m = true) (h : lo ≤ n) : sortedFrom lo (sput m n x) = true := by
  induction m generalizing lo with
  | nil => simp [sput, sortedFrom, h]
  | cons c t ih =>
    simp only [sortedFrom, Bool.and_eq_true, decide_eq_true_eq] at hm
    simp only [sput]
    split
    · rename_i h1; subst h1; simp only [sortedFrom, Bool.and_eq_true, decide_eq_true_eq]; exact ⟨h, hm.2⟩
    · split
      · simp only [sortedFrom, Bool.and_eq_true, decide_eq_true_eq]; exact ⟨h, by omega, hm.2⟩
      · simp only [sortedFrom, Bool.and_eq_true, decide_eq_true_eq]; exact ⟨hm.1, ih hm.2 (by omega)⟩

theorem mem_sdel {m : Sparse α} {n : Nat} {c : Nat × α} (h : c ∈ sdel m n) : c ∈ m := by
  induction m with
  | nil => simp [sdel] at h
  | cons e t ih =>
    simp only [sdel] at h
    split at h
    · exact List.mem_cons_of_mem _ h
    · split at h
      · exact h
      · rcases List.mem_cons.1 h with rfl | h
        · exact List.mem_cons_self
        · exact List.mem_cons_of_mem _ (ih h)

theorem mem_sput {m : Sparse α} {n : Nat} {x : α} {c : Nat × α} (h : c ∈ sput m n x) : c ∈ m ∨ c.2 = x := by
  induction m with
  | nil => simp only [sput, List.mem_singleton] at h; exact .inr (by rw [h])
  | cons e t ih =>
    simp only [sput] at h
    split at h
    · rcases List.mem_cons.1 h with rfl | h
      · exact .inr rfl
      · exact .inl (List.mem_cons_of_mem _ h)
    · split at h
      · rcases List.mem_cons.1 h with rfl | h
        · exact .inr rfl
        · exact .inl h
      · rcases List.mem_cons.1 h with rfl | h
        · exact .inl List.mem_cons_self
        · exact (ih h).imp_left (List.mem_cons_of_mem _)

theorem sortedFrom_sdel {lo : Nat} {m : Sparse α} (n : Nat) (hm : sortedFrom lo m = true) : sortedFrom lo (sdel m n) = true := by
  induction m generalizing lo with
  | nil => rfl
  | cons c t ih =>
    simp only [sortedFrom, Bool.and_eq_true, decide_eq_true_eq] at hm
    simp only [sdel]
    split
    · exact sortedFrom_mono (by omega) hm.2
    · split
      · simp only [sortedFrom, Bool.and_eq_true, decide_eq_true_eq]; exact hm
      · simp only [sortedFrom, Bool.and_eq_true, decide_eq_true_eq]; exact ⟨hm.1, ih hm.2⟩

theorem swf_iff [DecidableEq α] (d : α) (m : Sparse α) : swf d m = true ↔ sortedFrom 0 m = true ∧ ∀ c ∈ m, c.2 ≠ d := by
  simp [swf]

/-- Setting a value keeps the canonical form. -/
theorem swf_sset [DecidableEq α] {d : α} {m : Sparse α} (n : Nat) (x : α) (h : swf d m = true) : swf d (sset d m n x) = true := by
  rw [swf_iff] at *
  unfold sset
  split
  · exact ⟨sortedFrom_sdel n h.1, fun c hc => h.2 c (mem_sdel hc)⟩
  · rename_i hx
    refine ⟨sortedFrom_sput x h.1 (Nat.zero_le n), fun c hc => ?_⟩
    rcases mem_sput hc with hc | hc
    · exact h.2 c hc
    · rw [hc]; exact hx

theorem swf_filter [DecidableEq α] {d : α} {m : Sparse α} (p : Nat × α → Bool) (h : swf d m = true) : swf d (m.filter p) = true := by
  rw [swf_iff] at *
  exact ⟨sortedFrom_filter p h.1, fun c hc => h.2 c (List.mem_filter.1 hc).1⟩

/-- What a table reads as with some keys filtered out. -/
theorem sget_filter (d : α) {lo : Nat} {m : Sparse α} (p : Nat → Bool) (hm : sortedFrom lo m = true) (k : Nat) :
    sget d (m.filter fun c => p c.1) k = if p k then sget d m k else d := by
  induction m generalizing lo with
  | nil => simp [sget]
  | cons c t ih =>
    simp only [sortedFrom, Bool.and_eq_true, decide_eq_true_eq] at hm
    rw [List.filter_cons]
    by_cases hp : p c.1 = true
    · rw [if_pos hp]; simp only [sget]
      by_cases h1 : c.1 = k
      · subst h1; simp [hp]
      · rw [if_neg h1, if_neg h1]
        split
        · simp
        · exact ih hm.2
    · rw [if_neg hp, ih hm.2]
      by_cases h1 : c.1 = k
      · subst h1; simp [hp]
      · simp only [sget]; rw [if_neg h1]
        split
        · split
          · exact sget_below d hm.2 (by omega)
          · rfl
        · rfl

/-! ### Rising lists -/

theorem risingFrom_mono {lo hi : Nat} (h : lo ≤ hi) {l : List Nat} (hl : risingFrom hi l = true) : risingFrom lo l = true := by
  cases l with
  | nil => rfl
  | cons k t => simp only [risingFrom, Bool.and_eq_true, decide_eq_true_eq] at *; exact ⟨by omega, hl.2⟩

theorem risingFrom_filter {lo : Nat} {l : List Nat} (p : Nat → Bool) (h : risingFrom lo l = true) : risingFrom lo (l.filter p) = true := by
  induction l generalizing lo with
  | nil => rfl
  | cons k t ih =>
    simp only [risingFrom, Bool.and_eq_true, decide_eq_true_eq] at h
    rw [List.filter_cons]
    split
    · simp only [risingFrom, Bool.and_eq_true, decide_eq_true_eq]; exact ⟨h.1, ih h.2⟩
    · exact risingFrom_mono (by omega) (ih h.2)

theorem risingFrom_natDel {l : List Nat} (n : Nat) (h : risingFrom 0 l = true) : risingFrom 0 (natDel l n) = true := risingFrom_filter _ h

theorem risingFrom_natAdd {lo : Nat} {l : List Nat} {n : Nat} (h : risingFrom lo l = true) (hn : lo ≤ n) : risingFrom lo (natAdd l n) = true := by
  induction l generalizing lo with
  | nil => simp [natAdd, risingFrom, hn]
  | cons k t ih =>
    simp only [risingFrom, Bool.and_eq_true, decide_eq_true_eq] at h
    simp only [natAdd]
    split
    · simp only [risingFrom, Bool.and_eq_true, decide_eq_true_eq]; exact ⟨hn, by omega, h.2⟩
    · split
      · simp only [risingFrom, Bool.and_eq_true, decide_eq_true_eq]; exact h
      · simp only [risingFrom, Bool.and_eq_true, decide_eq_true_eq]; exact ⟨h.1, ih h.2 (by omega)⟩

theorem mem_natAdd {l : List Nat} {n k : Nat} : k ∈ natAdd l n ↔ k = n ∨ k ∈ l := by
  induction l with
  | nil => simp [natAdd]
  | cons a t ih =>
    simp only [natAdd]
    split
    · simp
    · split
      · rename_i h; subst h; simp
      · simp only [List.mem_cons, ih]; tauto

theorem mem_natDel {l : List Nat} {n k : Nat} : k ∈ natDel l n ↔ k ∈ l ∧ k ≠ n := by simp [natDel]

end Sys2Proof.Machine
end

