-- ==== Sys2Proof/Laws/Memory.lean ====
section
/-!
SUPPORT. Memory, its poison bits, the lane register files and the block generations: what reading gives after each elementary operation, and that
each keeps the canonical form.
-/

namespace Sys2Proof.Machine

/-! ### Bytes -/

theorem wf_memPut {m : List Host.Cell} (loc : Nat) (bs : List Byte) (h : Memory.wf m = true) : Memory.wf (memPut m loc bs) = true := by
  induction bs generalizing m loc with
  | nil => exact h
  | cons b t ih => exact ih (loc + 1) (swf_sset loc b h)

theorem Memory.sorted {m : List Host.Cell} (h : Memory.wf m = true) : sortedFrom 0 m = true := ((swf_iff _ _).1 h).1

/-- Every byte after a write of `bs` from `loc` on. -/
theorem sget_memPut {m : List Host.Cell} (loc : Nat) (bs : List Byte) (h : Memory.wf m = true) (a : Nat) :
    sget emptyByte (memPut m loc bs) a = if loc ≤ a ∧ a < loc + bs.length then bs.getD (a - loc) 0 else sget emptyByte m a := by
  induction bs generalizing m loc with
  | nil => simp [memPut]
  | cons b t ih =>
    rw [memPut, ih (loc + 1) (swf_sset loc b h), sget_sset _ (Memory.sorted h), List.length_cons]
    by_cases h1 : a = loc
    · subst h1; simp
    · by_cases h2 : loc + 1 ≤ a ∧ a < loc + 1 + t.length
      · rw [if_pos h2, if_pos (by omega), show a - loc = (a - (loc + 1)) + 1 by omega]; simp
      · rw [if_neg h2, if_neg h1, if_neg (by omega)]

theorem wf_memClear {m : List Host.Cell} (loc len : Nat) (h : Memory.wf m = true) : Memory.wf (memClear m loc len) = true := swf_filter _ h

/-- Every byte after a range is cleared. -/
theorem sget_memClear {m : List Host.Cell} (loc len : Nat) (h : Memory.wf m = true) (a : Nat) :
    sget emptyByte (memClear m loc len) a = if loc ≤ a ∧ a < loc + len then 0 else sget emptyByte m a := by
  unfold memClear
  rw [sget_filter _ (fun k => !decide (loc ≤ k ∧ k < loc + len)) (Memory.sorted h)]
  by_cases h1 : loc ≤ a ∧ a < loc + len
  · rw [if_pos h1, if_neg (by simp [h1])]; rfl
  · rw [if_neg h1, if_pos (by simp only [h1, decide_false, Bool.not_false])]

@[simp] theorem State.length_bytesAt (s : State) (loc n : Nat) : (s.bytesAt loc n).length = n := by
  induction n generalizing loc with
  | zero => rfl
  | succ n ih => simp [State.bytesAt, ih]

theorem State.getD_bytesAt (s : State) (loc n k : Nat) (h : k < n) : (s.bytesAt loc n).getD k 0 = s.byteAt (loc + k) := by
  induction n generalizing loc k with
  | zero => omega
  | succ n ih =>
    cases k with
    | zero => rfl
    | succ k => simp only [State.bytesAt, List.getD_cons_succ]; rw [ih _ _ (by omega)]; congr 1; omega

/-- Bytes read the same where memory is the same. -/
theorem State.bytesAt_congr {s t : State} (h : t.mem = s.mem) (loc n : Nat) : t.bytesAt loc n = s.bytesAt loc n := by
  induction n generalizing loc with
  | zero => rfl
  | succ n ih => simp only [State.bytesAt, ih]; simp [State.byteAt, h]

theorem State.poisonIn_congr {s t : State} (h : t.poison = s.poison) (loc n : Nat) : t.poisonIn loc n = s.poisonIn loc n := by
  simp [State.poisonIn, h]

/-! ### Poison -/

theorem mem_foldl_natDel {us l : List Nat} {k : Nat} : k ∈ us.foldl natDel l ↔ k ∈ l ∧ k ∉ us := by
  induction us generalizing l with
  | nil => simp
  | cons u t ih => simp only [List.foldl_cons, ih, mem_natDel, List.mem_cons]; tauto

theorem mem_foldl_natAdd {us l : List Nat} {k : Nat} : k ∈ us.foldl natAdd l ↔ k ∈ l ∨ k ∈ us := by
  induction us generalizing l with
  | nil => simp
  | cons u t ih => simp only [List.foldl_cons, ih, mem_natAdd, List.mem_cons]; tauto

theorem rising_foldl_natDel {us l : List Nat} (h : risingFrom 0 l = true) : risingFrom 0 (us.foldl natDel l) = true := by
  induction us generalizing l with
  | nil => exact h
  | cons u t ih => exact ih (risingFrom_natDel u h)

theorem rising_foldl_natAdd {us l : List Nat} (h : risingFrom 0 l = true) : risingFrom 0 (us.foldl natAdd l) = true := by
  induction us generalizing l with
  | nil => exact h
  | cons u t ih => exact ih (risingFrom_natAdd h (Nat.zero_le _))

/-- The units a write covers wholly. -/
theorem mem_fullUnits (loc len u : Nat) : u ∈ fullUnits loc len ↔ loc ≤ 64 * u ∧ 64 * u + 64 ≤ loc + len := by
  simp only [fullUnits, List.mem_map, List.mem_range]
  constructor
  · rintro ⟨k, hk, rfl⟩; omega
  · intro h; exact ⟨u - (loc + 63) / 64, by omega, by omega⟩

/-- The units a range touches. -/
theorem mem_touchedUnits (loc len u : Nat) : u ∈ touchedUnits loc len ↔ u * 64 < loc + len ∧ loc < u * 64 + 64 ∧ len ≠ 0 := by
  unfold touchedUnits
  split
  · rename_i h; subst h; simp
  · simp only [List.mem_map, List.mem_range]
    constructor
    · rintro ⟨k, hk, rfl⟩; omega
    · intro h; exact ⟨u - loc / 64, by omega, by omega⟩

/-! ### Canonical form -/

theorem State.canonical_iff (s : State) :
    s.canonical = true ↔ Memory.wf s.mem = true ∧ risingFrom 0 s.poison = true ∧ swf 0 s.regs = true ∧ swf 0 s.gens = true := by
  simp [State.canonical, and_assoc]

/-- What touches none of the four keeps the form. -/
theorem State.canonical_congr {s t : State} (hm : t.mem = s.mem) (hp : t.poison = s.poison) (hr : t.regs = s.regs) (hg : t.gens = s.gens) :
    t.canonical = s.canonical := by simp [State.canonical, hm, hp, hr, hg]

@[simp] theorem State.canonical_write {s : State} (i : Issuer) (v : View) (r : List Release) (a : Option Scope) (l : Nat) (b : List Byte)
    (h : s.canonical = true) : (s.write i v r a l b).canonical = true := by
  rw [State.canonical_iff] at *
  exact ⟨wf_memPut l b h.1, rising_foldl_natDel h.2.1, h.2.2.1, h.2.2.2⟩

@[simp] theorem State.canonical_poke {s : State} (l : Nat) (b : List Byte) (h : s.canonical = true) : (s.poke l b).canonical = true := by
  rw [State.canonical_iff] at *
  exact ⟨wf_memPut l b h.1, rising_foldl_natDel h.2.1, h.2.2.1, h.2.2.2⟩

@[simp] theorem State.canonical_clearRange {s : State} (l n : Nat) (h : s.canonical = true) : (s.clearRange l n).canonical = true := by
  rw [State.canonical_iff] at *
  exact ⟨wf_memClear l n h.1, risingFrom_filter _ h.2.1, h.2.2.1, h.2.2.2⟩

@[simp] theorem State.canonical_taint {s : State} (l n : Nat) (h : s.canonical = true) : (s.taint l n).canonical = true := by
  rw [State.canonical_iff] at *
  exact ⟨h.1, rising_foldl_natAdd h.2.1, h.2.2.1, h.2.2.2⟩

@[simp] theorem State.canonical_setReg {s : State} (l : LaneRef) (b r : Nat) (w : Word) (h : s.canonical = true) : (s.setReg l b r w).canonical = true := by
  rw [State.canonical_iff] at *
  exact ⟨h.1, h.2.1, swf_sset _ w h.2.2.1, h.2.2.2⟩

@[simp] theorem State.canonical_clearBlock {s : State} (l : LaneRef) (b : Nat) (h : s.canonical = true) : (s.clearBlock l b).canonical = true := by
  rw [State.canonical_iff] at *
  exact ⟨h.1, h.2.1, swf_filter _ h.2.2.1, h.2.2.2⟩

@[simp] theorem State.canonical_releaseBlock {s : State} (l : LaneRef) (b : Nat) (h : s.canonical = true) : (s.releaseBlock l b).canonical = true := by
  rw [State.canonical_iff] at *
  exact ⟨h.1, h.2.1, h.2.2.1, swf_sset _ _ h.2.2.2⟩

/-- A fold keeps the form if each of its steps does. -/
theorem canonical_foldl {α : Type} {f : State → α → State} (hf : ∀ s a, s.canonical = true → (f s a).canonical = true) :
    ∀ (l : List α) {s : State}, s.canonical = true → (l.foldl f s).canonical = true
  | [], _, h => h
  | a :: l, s, h => canonical_foldl hf l (hf s a h)

/-! ### Registers -/

/-- Every register after one is set. -/
theorem State.regs_setReg {s : State} (h : swf 0 s.regs = true) (l : LaneRef) (b r : Nat) (w : Word) (k : Nat) :
    sget 0 (s.setReg l b r w).regs k = if k = regKey l b r then w else sget 0 s.regs k :=
  sget_sset 0 ((swf_iff _ _).1 h).1 _ k w

/-- Every register after a block is cleared. -/
theorem State.regs_clearBlock {s : State} (h : swf 0 s.regs = true) (l : LaneRef) (b k : Nat) :
    sget 0 (s.clearBlock l b).regs k = if regKey l b 0 ≤ k ∧ k < regKey l b 0 + 64 then 0 else sget 0 s.regs k := by
  unfold State.clearBlock
  rw [sget_filter 0 (fun k => !decide (regKey l b 0 ≤ k ∧ k < regKey l b 0 + 64)) ((swf_iff _ _).1 h).1]
  by_cases h1 : regKey l b 0 ≤ k ∧ k < regKey l b 0 + 64
  · rw [if_pos h1, if_neg (by simp [h1])]
  · rw [if_neg h1, if_pos (by simp only [h1, decide_false, Bool.not_false])]

/-- Every generation after a block is released. -/
theorem State.gens_releaseBlock {s : State} (h : swf 0 s.gens = true) (l : LaneRef) (b k : Nat) :
    sget 0 (s.releaseBlock l b).gens k = if k = genKey l b then s.genAt l b + 1 else sget 0 s.gens k :=
  sget_sset 0 ((swf_iff _ _).1 h).1 _ k _

end Sys2Proof.Machine
end

