-- ==== Sys2Proof/Laws/Spill.lean ====
section
/-!
SUPPORT. Values as little-endian bytes, and the Mill image: its length, and that what `mspill` writes is an image `mfill` takes.
-/

namespace Sys2Proof.Machine

@[simp] theorem length_leBytes (n x : Nat) : (leBytes n x).length = n := by
  induction n generalizing x with
  | zero => rfl
  | succ n ih => simp [leBytes, ih]

theorem leNat_leBytes (n x : Nat) : leNat (leBytes n x) = x % 256 ^ n := by
  induction n generalizing x with
  | zero => simp [leBytes, leNat, Nat.mod_one]
  | succ n ih => 
    simp only [leBytes, leNat, ih, BitVec.toNat_ofNat]
    rw [show 256 ^ (n + 1) = 256 * 256 ^ n by rw [pow_succ, Nat.mul_comm], Nat.mod_mul]

theorem length_planeBytes (p : Plane) : (planeData p ++ planeScales p ++ planePoison p).length = 0xA800 := by
  simp [planeData, planeScales, planePoison, bytesOf, List.length_flatMap, -length_leBytes]
  simp only [length_leBytes, List.map_const', List.length_range, List.sum_replicate_nat]

theorem length_tileBytes (t : Tile) : (tileBytes t).length = 65536 := by
  unfold tileBytes
  split <;> simp only [bytesOf, List.length_append, List.length_replicate, List.length_flatMap, length_leBytes, List.map_const', List.length_range, List.sum_replicate_nat]

theorem length_millBody (m : Mill) : (millBody m).length = millImageLen - 4096 := by
  have a := length_planeBytes m.active
  have b := length_planeBytes m.shadow
  simp only [List.length_append] at a b
  simp only [millBody, List.length_append, List.length_flatMap, length_tileBytes, bytesOf, length_leBytes, List.map_const', List.length_range, List.sum_replicate_nat]
  simp only [millImageLen]
  omega

theorem leAt_append_left (a b : List Byte) (n k : Nat) (h : n + k ≤ a.length) : leAt (a ++ b) n k = leAt a n k := by
  unfold leAt
  rw [List.drop_append_of_le_length (by omega), List.take_append_of_le_length (by rw [List.length_drop]; omega)]

theorem leAt_append_right (a b : List Byte) (n k : Nat) (h : a.length ≤ n) : leAt (a ++ b) n k = leAt b (n - a.length) k := by
  unfold leAt
  rw [List.drop_append, List.drop_eq_nil_of_le h, List.nil_append]

/-- A header but for its checksum. -/
theorem millHeader_split (m : Mill) (ctx : Nat) : ∃ a b : List Byte, a.length = 36 ∧ leAt a 0 4 = 2 ∧ ∀ crc, millHeader m ctx crc = a ++ bytesOf 4 crc ++ b := by
  refine ⟨_, _, ?_, ?_, fun crc => rfl⟩
  · simp [bytesOf]
  · simp only [List.append_assoc]
    rw [leAt_append_left _ _ _ _ (by simp [bytesOf])]
    decide

theorem crc32c_lt (bs : List Byte) : (crc32c bs).toNat < 256 ^ 4 := by
  have := (crc32c bs).isLt
  omega

/-- An image reads back. -/
theorem millOf_millImage (m : Mill) (ctx : Nat) : (millOf (millImage m ctx)).isSome = true := by
  obtain ⟨a, b, ha, h2, h⟩ := millHeader_split m ctx
  have e : ∀ crc, millHeader m ctx crc ++ millBody m = a ++ (bytesOf 4 crc ++ (b ++ millBody m)) := fun crc => by rw [h crc]; simp only [List.append_assoc]
  have hl : ∀ crc, (bytesOf 4 crc).length = 4 := fun crc => length_leBytes 4 crc
  unfold millImage
  generalize hc : crc32c (millHeader m ctx 0 ++ millBody m) = c
  have hlt : c.toNat < 256 ^ 4 := hc ▸ crc32c_lt _
  rw [e c.toNat]
  have h36 : leAt (a ++ (bytesOf 4 c.toNat ++ (b ++ millBody m))) 36 4 = c.toNat := by
    rw [leAt_append_right _ _ _ _ (by omega), ha, leAt_append_left _ _ _ _ (by rw [hl])]
    unfold leAt
    rw [List.drop_zero, List.take_of_length_le (by rw [hl])]
    exact (leNat_leBytes 4 _).trans (Nat.mod_eq_of_lt hlt)
  have h0 : leAt (a ++ (bytesOf 4 c.toNat ++ (b ++ millBody m))) 0 4 = 2 := by rw [leAt_append_left _ _ _ _ (by omega), h2]
  have ht : (a ++ (bytesOf 4 c.toNat ++ (b ++ millBody m))).take 36 = a := by rw [← ha, List.take_left]
  have hd : (a ++ (bytesOf 4 c.toNat ++ (b ++ millBody m))).drop 40 = b ++ millBody m := by
    rw [← List.append_assoc, List.drop_append, List.drop_eq_nil_of_le (by rw [List.length_append, hl]; omega), List.length_append, hl, ha, List.nil_append]
    rfl
  unfold millOf
  rw [h36, h0, ht, hd]
  simp only [List.append_assoc]
  rw [← e 0, hc]
  simp

@[simp] theorem length_millImage (m : Mill) (ctx : Nat) : (millImage m ctx).length = millImageLen := by
  have h : ∀ crc, (millHeader m ctx crc).length = 4096 := fun crc => by
    simp only [millHeader, bytesOf, List.length_append, length_leBytes, List.length_replicate]
  rw [millImage, List.length_append, h, length_millBody]
  rfl

/-- What is written reads back. -/
theorem State.bytesAt_memPut (s : State) (loc : Nat) (bs : List Byte) (h : Memory.wf s.mem = true) : ({ s with mem := memPut s.mem loc bs } : State).bytesAt loc bs.length = bs := by
  apply List.ext_getElem (by simp)
  intro k h1 h2
  have := State.getD_bytesAt { s with mem := memPut s.mem loc bs } loc bs.length k h2
  rw [List.getD_eq_getElem _ _ h1] at this
  rw [this]
  show sget emptyByte (memPut s.mem loc bs) (loc + k) = bs[k]
  rw [sget_memPut loc bs h, if_pos ⟨by omega, by omega⟩, Nat.add_sub_cancel_left, List.getD_eq_getElem _ _ h2]

theorem State.bytesAt_append (s : State) (l a b : Nat) : s.bytesAt l (a + b) = s.bytesAt l a ++ s.bytesAt (l + a) b := by
  induction a generalizing l with
  | zero => simp [State.bytesAt]
  | succ a ih => rw [Nat.succ_add]; simp only [State.bytesAt, ih, List.cons_append]; congr 3; omega

/-- The units a range is cut into hold its bytes. -/
theorem State.bytesAt_units (s : State) : ∀ fuel l n, n ≤ fuel → (coreUnits.go fuel l n).flatMap (fun u => s.bytesAt u.1 u.2) = s.bytesAt l n
  | 0, l, n, h => by simp [coreUnits.go, Nat.le_zero.1 h, State.bytesAt]
  | fuel + 1, l, n, h => by
    unfold coreUnits.go
    split
    · next h0 => simp [h0, State.bytesAt]
    · split
      · next h4 =>
        rw [List.flatMap_cons, s.bytesAt_units fuel (l + 4) (n - 4) (by omega), ← State.bytesAt_append]
        congr 1; omega
      · rw [List.flatMap_cons, s.bytesAt_units fuel (l + 1) (n - 1) (by omega), ← State.bytesAt_append]
        congr 1; omega

/-- Where nothing has been written in the order and no frame has two addresses, a read takes the bytes that stand there. -/
theorem State.readUnits_settled (s : State) (hp : s.past = []) (hw : ∀ l, s.wild l = false) (own : Nat) (src : Issuer) (acq : Option Scope) :
    ∀ us v, (s.readUnits own src acq us v).1 = us.flatMap (fun u => s.bytesAt u.1 u.2) ∧ (s.readUnits own src acq us v).2.2.2 = s
  | [], v => ⟨rfl, rfl⟩
  | (l, n) :: us, v => by
    have hu : ∀ v, s.readUnit v l n = (s.bytesAt l n, s.stamp, none, s) := fun v => by
      simp [State.readUnit, State.readStamps, State.draw, State.bytesAsOf, State.writeAt, hp, rewind]
    have ih := State.readUnits_settled s hp hw own src acq us
    simp only [State.readUnits, hu, State.wildBytes, hw, List.flatMap_cons]
    exact ⟨by simp [ih], by simp [ih]⟩

theorem State.readImage_settled (s : State) (hp : s.past = []) (hw : ∀ l, s.wild l = false) (c : CoreRef) (v : View) (addr : Nat) :
    s.readImage c v addr = (s.bytesAt addr millImageLen, s) := by
  have h := State.readUnits_settled s hp hw 0 deviceIssuer none (wordUnits addr millImageLen) (View.join (s.core c).mill.view v)
  refine Prod.ext ?_ ?_
  · exact h.1.trans (s.bytesAt_units _ _ _ le_rfl)
  · exact h.2

end Sys2Proof.Machine
end

