-- ==== Sys2Proof/Tests/Slice0.lean ====
section
/-!
SUPPORT. Tests: every word decodes from bits written out from 02's encoding, ill-formed instructions are refused by the check that rules them out, the spec's
worked examples run, and every hypothesis of a statement is met by some state.
-/

open Sys2Proof Sys2Proof.Machine

namespace Sys2Proof.Tests

theorem test_decode_integer_1 :
    [(64, 0x8A03010040001, Instr.iadd {} .i16 (.v 1) (.v 2) (.op (.v 3)) { cin := true }),
     (96, 0x12340005400010040102, Instr.isub {} .n32 (.v 1) (.v 2) (.imm 0x1234) { sat := true }),
     (64, 0x20D44018080201, Instr.imul {} .i32 (.v 2) (.v 3) (.op (.s 4)) false true),
     (64, 0x1606020080301, Instr.imulhi {} .n64 (.v 2) (.v 4) (.op (.v 6))),
     (128, 0x40004C03010040403, Instr.imad {} .i32 (.v 1) (.v 2) (.v 3) (.v 4) true false),
     (64, 0x803010040501, Instr.idiv {} .i8 (.v 1) (.v 2) (.op (.v 3))),
     (96, 0x70001000010040602, Instr.irem {} .n8 (.v 1) (.v 2) (.imm 7)),
     (64, 0xE06020080701, Instr.imin {} .i64 (.v 2) (.v 4) (.op (.v 6))),
     (64, 0x13C0010040801, Instr.imax {} .n16 (.v 1) (.v 2) (.op (.const (-8)))),
     (64, 0x4C00010040901, Instr.iabs {} .i32 (.v 1) (.v 2) true)].all (fun w => decodeTableWord w.1 w.2.1 == some w.2.2) = true := by decide

theorem test_decode_integer_2 :
    [(64, 0xA00010040A01, Instr.ineg {} .i16 (.v 1) (.v 2) false),
     (128, 0x50001403010040B03, Instr.isad {} .n32 (.v 1) (.v 2) (.v 3) (.v 5) false),
     (96, 0x400000600000500C02, Instr.mov {} .b64 (.v 20) (.imm 0x40)),
     (64, 0x64403010040D01, Instr.sel {} .b32 (.v 1) (.v 2) (.op (.v 3)) 9 true)].all (fun w => decodeTableWord w.1 w.2.1 == some w.2.2) = true := by decide

theorem test_decode_bits_1 :
    [(64, 0x543A15044001, Instr.and {} .b32 (.s 1) (.s 2) (.op (.s 3))),
     (64, 0x1003010044101, Instr.or {} .n8 (.v 1) (.v 2) (.op (.v 3))),
     (64, 0x7DF020084205, Instr.xor { w := true } .b64 (.v 2) (.v 4) (.op (.const 23))),
     (64, 0xA000100443D1, Instr.not { guard := some ⟨5, false⟩ } .i16 (.v 1) (.v 2)),
     (64, 0x44020080C4401, Instr.shl {} .b32 (.v 3) (.v 1) (.op (.v 2)) true),
     (96, 0x30001600020084502, Instr.shr {} .n64 (.v 2) (.v 4) (.imm 3) false),
     (64, 0x8020080C4601, Instr.sar {} .i8 (.v 3) (.v 1) (.op (.v 2)) false),
     (64, 0x2020080C4701, Instr.rotl {} .b16 (.v 3) (.v 1) (.op (.v 2))),
     (64, 0x6000100C4801, Instr.popc {} .b64 (.v 3) (.v 2)),
     (64, 0x4000080C4901, Instr.clz {} .b32 (.v 3) (.v 1))].all (fun w => decodeTableWord w.1 w.2.1 == some w.2.2) = true := by decide

theorem test_decode_bits_2 :
    [(64, 0x80C4A01, Instr.brev {} .b8 (.v 3) (.v 1)),
     (64, 0xC14C000080C4B01, Instr.bfe {} .i32 (.v 3) (.v 1) (.imm 5 12)),
     (64, 0x6A06160A0504C01, Instr.bfi {} .b64 (.v 20) (.v 20) (.v 22) (.imm 40 6)),
     (128, 0x480004020080C4C03, Instr.bfi {} .b32 (.v 3) (.v 1) (.v 2) (.reg (.v 4))),
     (64, 0xCC06020084D01, Instr.lea {} .i32 (.v 2) (.v 4) (.op (.v 6)) 3),
     (128, 0x403A04020080C4E03, Instr.lop3 {} .b32 (.v 3) (.v 1) (.v 2) (.v 4) 0xE8)].all (fun w => decodeTableWord w.1 w.2.1 == some w.2.2) = true := by decide

theorem test_decode_predicate :
    [(64, 0x108C02008008001, Instr.cmp {} .i32 (.v 1) (.op (.v 2)) .lt { comb := 2 }),
     (64, 0x5DE04010248101, Instr.fcmp {} .f64 (.v 2) (.op (.v 4)) .uno { set := true, d := .v 9 }),
     (64, 0x38008201, Instr.ppush {} (.v 7)),
     (64, 0x7C0000001C8301, Instr.ppop {} 16 true (.v 7)),
     (64, 0x70000000008401, Instr.pmov {} 12 true),
     (64, 0xC000A48008501, Instr.pset {} 3 (.s 9)),
     (64, 0x5884000000008601, Instr.plop {} 1 2 6 true)].all (fun w => decodeTableWord w.1 w.2.1 == some w.2.2) = true := by decide

theorem test_decode_float_1 :
    [(64, 0x901C0301004C001, Instr.fadd {} .f32 (.v 1) (.v 2) (.op (.v 3)) { rnd := .rdn, na := true }),
     (96, 0x3C00040180001004C102, Instr.fsub {} .f16 (.v 1) (.v 2) (.imm 0x3C00) { sat := true }),
     (64, 0x8001A0301004C201, Instr.fmul {} .bf16 (.v 1) (.v 2) (.op (.v 3)) { ab := true }),
     (128, 0x42181C0301004C303, Instr.ffma {} .f32 (.v 1) (.v 2) (.v 3) (.v 4) { rnd := .rup, nc := true }),
     (64, 0x1C0301004C401, Instr.fmin {} .f32 (.v 1) (.v 2) (.op (.v 3)) {}),
     (64, 0x4001C0301004C501, Instr.fmax {} .f32 (.v 1) (.v 2) (.op (.v 3)) { aa := true }),
     (64, 0x81C0301004C601, Instr.fdiv {} .f32 (.v 1) (.v 2) (.op (.v 3)) { rnd := .rtz }),
     (64, 0x1C0001004C701, Instr.frcp {} .f32 (.v 1) (.v 2) {}),
     (64, 0x180001004C801, Instr.frsq {} .f16 (.v 1) (.v 2) {}),
     (64, 0x1A0001004C901, Instr.fsqrt {} .bf16 (.v 1) (.v 2) {})].all (fun w => decodeTableWord w.1 w.2.1 == some w.2.2) = true := by decide

theorem test_decode_float_2 :
    [(64, 0x801C0001004CA01, Instr.fexp2 {} .f32 (.v 1) (.v 2) { na := true }),
     (64, 0x1C0001004CB01, Instr.flog2 {} .f32 (.v 1) (.v 2) {}),
     (64, 0x1C0001004CC01, Instr.fsin {} .f32 (.v 1) (.v 2) {}),
     (64, 0x401C0001004CD01, Instr.fcos {} .f32 (.v 1) (.v 2) { sat := true })].all (fun w => decodeTableWord w.1 w.2.1 == some w.2.2) = true := by decide

theorem test_decode_double :
    [(64, 0x1E06020090001, Instr.faddF64 {} .f64 (.v 2) (.v 4) (.v 6) {}),
     (64, 0x181E06020090101, Instr.fsubF64 {} .f64 (.v 2) (.v 4) (.v 6) { rnd := .rup }),
     (64, 0x1001E06020090201, Instr.fmulF64 {} .f64 (.v 2) (.v 4) (.v 6) { nb := true }),
     (128, 0x80001E06020090303, Instr.ffmaF64 {} .f64 (.v 2) (.v 4) (.v 6) (.v 8) {}),
     (64, 0x1E06020090401, Instr.fminF64 {} .f64 (.v 2) (.v 4) (.v 6) {}),
     (64, 0x1E06020090501, Instr.fmaxF64 {} .f64 (.v 2) (.v 4) (.v 6) {}),
     (64, 0x81E06020090601, Instr.fdivF64 {} .f64 (.v 2) (.v 4) (.v 6) { rnd := .rtz }),
     (64, 0x1E00020090701, Instr.frcpF64 {} .f64 (.v 2) (.v 4) {}),
     (64, 0x1E00020090801, Instr.frsqF64 {} .f64 (.v 2) (.v 4) {}),
     (64, 0x1E00020090901, Instr.fsqrtF64 {} .f64 (.v 2) (.v 4) {})].all (fun w => decodeTableWord w.1 w.2.1 == some w.2.2) = true := by decide

theorem test_decode_convert :
    [(64, 0x239A00020154001, Instr.cvt {} (.v 5) (.v 4) { dt := .bf16, st := .f32, rnd := .sr }),
     (128, 0x40031C03010054103, Instr.dot2 {} (.v 1) (.v 2) (.v 3) (.v 4) { dt := .f32, st := .f16 }),
     (128, 0x40410C03010054203, Instr.dot4 {} (.v 1) (.v 2) (.v 3) (.v 4) { dt := .i32, st := .i8, sat := true }),
     (64, 0x401203010054301, Instr.padd {} (.v 1) (.v 2) (.op (.v 3)) { dt := .n16, sat := true }),
     (96, 0x100020000A00010054402, Instr.pmax {} (.v 1) (.v 2) (.imm 0x00010002) { dt := .i16 }),
     (64, 0x801803010054501, Instr.pmin {} (.v 1) (.v 2) (.op (.v 3)) { dt := .f16, elem := 1 }),
     (64, 0x183A403010054601, Instr.pack {} (.v 1) (.v 2) (.v 3) { dt := .e2m1, st := .f32, elem := 3 }),
     (64, 0x1041C00010054701, Instr.unpack {} (.v 1) (.v 2) { dt := .f32, st := .e4m3, elem := 2 }),
     (96, 0x123456780004000000014802, Instr.seed {} (.imm 0x12345678) true)].all (fun w => decodeTableWord w.1 w.2.1 == some w.2.2) = true := by decide

theorem test_decode_cross :
    [(64, 0x15118001, Instr.vote {} (.s 4) (.v 2) .ballot false 0 false),
     (64, 0x278000005158001, Instr.vote {} (.s 5) (.v 0) .all true 3 true),
     (64, 0x48403010058101, Instr.shfl {} .b32 (.v 1) (.v 2) (.op (.v 3)) .down 4),
     (64, 0x4600020098201, Instr.bcast {} .b64 (.v 2) (.v 4) true),
     (64, 0x35400010058301, Instr.scan {} .n32 (.v 1) (.v 2) .xor true false),
     (64, 0x40E00025098401, Instr.fold {} .i64 (.s 2) (.v 4) .add true)].all (fun w => decodeTableWord w.1 w.2.1 == some w.2.2) = true := by decide

theorem test_decode_control_1 :
    [(64, 0x1000000001C089, Instr.bra { guard := some ⟨0, true⟩ } (.off 0x0010) {}),
     (64, 0x1801C101, Instr.brx {} (.v 3) {}),
     (96, 0x1000000000000025C202, Instr.call {} (.v 9) (.imm 0x1000) {}),
     (64, 0xD46A4801C301, Instr.ret {} (.s 9) { u := true, cond := 2, reg := .s 6 }),
     (64, 0x1C401, Instr.exit {}),
     (96, 0x80015000001801C502, Instr.spawn {} (.v 3) 0x80 4 5),
     (64, 0xA4001C601, Instr.meet {} (.s 8)),
     (64, 0x1C701, Instr.xgrow {}),
     (64, 0x1C801, Instr.xshrink {}),
     (64, 0xA1801C901, Instr.fetchw {} (.s 3))].all (fun w => decodeTableWord w.1 w.2.1 == some w.2.2) = true := by decide

theorem test_decode_control_2 :
    [(64, 0x1CBA1505CA01, Instr.launch {} (.s 1) (.s 2) (.const 3)),
     (96, 0x1CB02, Instr.nop {} .l96),
     (128, 0x1CB03, Instr.nop {} .l128),
     (64, 0x5F1CC01, Instr.rqpop {} (.s 60)),
     (96, 0x20000000000005D002, Instr.olfor {} (.v 1) (.v 0) 0x20),
     (64, 0x1D101, Instr.olnext {}),
     (128, 0x50400000000200801D203, Instr.olpostMill {} (.v 1) (.v 2) 0x282),
     (128, 0x60200000400200801D203, Instr.olpostPort {} (.v 1) (.v 2) 0x301),
     (128, 0x800000801D203, Instr.olpostRec {} (.v 1) (.v 0)),
     (64, 0x8000E5001D301, Instr.olpermit {} .record (.op (.const 2)))].all (fun w => decodeTableWord w.1 w.2.1 == some w.2.2) = true := by decide

theorem test_decode_memory :
    [(64, 0x4004400018220001, Instr.ld {} (.v 8) (.v 3) { ty := .b32, sp := .s, vec := 2 } .short),
     (128, 0x7FFFFFFE412001440205010020103, Instr.st {} (.v 2) (.v 5) { ty := .b16, ord := .rel, scope := .comp, cache := 2 } (.wide 0xFFFFFFFC true (.v 9))),
     (64, 0x810000A10020201, Instr.pref {} (.s 2) { ty := .b8, sp := .k, cache := 1 } none),
     (64, 0x800145A10020301, Instr.cflush {} (.s 2) (.s 5) 1),
     (64, 0x1000145A10020401, Instr.cinval {} (.s 2) (.s 5) 2),
     (96, 0x8C761406010024002, Instr.atom {} (.v 0) (.v 2) (.v 6) { ty := .n32, ord := .ar, scope := .sys, cache := 0, vec := 2, nr := true } (.imm 8)),
     (128, 0x8001450580544A15224103, Instr.atomcas {} (.s 8) (.s 2) (.s 4) (.s 5) { ty := .b32, ord := .sc, scope := .pod } 0x10 false (.v 0)),
     (64, 0x680000000024201, Instr.fence {} .sc .clu),
     (64, 0x40000000024301, Instr.xfence {} .core .port)].all (fun w => decodeTableWord w.1 w.2.1 == some w.2.2) = true := by decide

theorem test_decode_mill_1 :
    [(96, 0x1000002A00005068002, Instr.mload {} .mxe2m1 (.s 1) (.imm 0x100) false),
     (64, 0x4000000028101, Instr.mswap {} (.v 0) true),
     (64, 0x2200A15068201, Instr.mrun {} .e5m2 (.s 1) (.op (.s 2)) false),
     (64, 0x60000005068301, Instr.mchainLink {} (.s 1) false 4),
     (64, 0x8000E45068301, Instr.mchainJoin {} (.s 1) (.const 0) false),
     (64, 0x14000000028301, Instr.mchainUnlink {} (.v 0) true),
     (64, 0x800A15068401, Instr.mepi {} .i8 (.s 1) (.op (.s 2)) false),
     (64, 0x78000005068501, Instr.maccz {} (.s 1) false 0xF),
     (64, 0x2C000A10168601, Instr.maccrd {} (.v 5) (.s 2) 3 2),
     (64, 0x1800A1506C001, Instr.mdelta {} .f16 (.s 1) (.op (.s 2)) false)].all (fun w => decodeTableWord w.1 w.2.1 == some w.2.2) = true := by decide

theorem test_decode_mill_2 :
    [(64, 0xA1506C101, Instr.slotbind {} (.s 1) (.op (.s 2))),
     (96, 0x3F000000000506C202, Instr.slotdrop {} (.s 1) (.imm 63)),
     (64, 0xE6D12C301, Instr.slotq {} (.s 4) (.op (.const 5)))].all (fun w => decodeTableWord w.1 w.2.1 == some w.2.2) = true := by decide

theorem test_decode_porter :
    [(64, 0x4143A15070001, Instr.lseal {} (.s 1) (.s 2) (.s 3) true),
     (64, 0x4000A10030101, Instr.tcopy {} (.v 0) (.op (.s 2)) true false),
     (96, 0x400008000005070202, Instr.a2av {} (.s 1) (.imm 0x40) false true),
     (64, 0x4000A15070301, Instr.bseal {} (.s 1) (.op (.s 2)) true),
     (64, 0xE40030401, Instr.bwait {} (.op (.const 0)))].all (fun w => decodeTableWord w.1 w.2.1 == some w.2.2) = true := by decide

theorem test_decode_counter_1 :
    [(64, 0x20000A0D0B4001, Instr.cntRd {} (.s 2) (.s 1) .acq .dev),
     (96, 0x50014000A08034002, Instr.cntAdd {} (.v 0) (.s 1) (.imm 5) true .relaxed .dev),
     (64, 0x648144A0D0B4001, Instr.cntSet {} (.s 2) (.s 1) (.op (.s 4)) false .rel .clu),
     (64, 0x3800144A0D0B4201, Instr.cntwait {} (.s 2) (.s 1) (.op (.s 4)) .relaxed .dev 7),
     (128, 0x1460400144A0D0F4103, Instr.trigTcopy {} (.s 3) (.s 1) (.s 4) (.s 6) false .comp),
     (128, 0x1460024144A0D0F4103, Instr.trigA2av {} (.s 3) (.s 1) (.s 4) (.s 6) true .dev),
     (128, 0x100000003460008144A0D0F4103, Instr.trigAdd {} (.s 3) (.s 1) (.s 4) (.s 6) .dev 0x80000001),
     (128, 0xC000A0D0F4103, Instr.trigCancel {} (.s 3) (.s 1)),
     (64, 0xA0D0F4301, Instr.ftest {} (.s 3) (.s 1)),
     (64, 0xA0D0F4401, Instr.fwait {} (.s 3) (.s 1))].all (fun w => decodeTableWord w.1 w.2.1 == some w.2.2) = true := by decide

theorem test_decode_counter_2 :
    [(64, 0xA0D0F4501, Instr.fcancel {} (.s 3) (.s 1))].all (fun w => decodeTableWord w.1 w.2.1 == some w.2.2) = true := by decide

theorem test_decode_system_1 :
    [(64, 0x1C000000038001, Instr.trap {} 7),
     (96, 0x31200000000050B8102, Instr.sysrd {} (.s 2) (.imm 0x0312)),
     (64, 0x38201, Instr.eret {}),
     (64, 0x142A0803A001, Instr.syswr {} (.op (.s 1)) (.s 2)),
     (64, 0x14144A1507A101, Instr.segwr {} (.s 1) (.s 2) (.s 4) .f),
     (64, 0x7FC000A1507A201, Instr.rngwr {} (.s 1) (.s 2) 7 63),
     (64, 0x92800000507A201, Instr.rngwrClr {} (.s 1) 2 9),
     (64, 0x30144A1507A301, Instr.tcinvRange {} (.s 1) (.s 2) (.s 4) 3),
     (64, 0x3F4000A1507A301, Instr.tcinvRegion {} (.s 1) (.s 2) 63),
     (64, 0x3800000507A301, Instr.tcinvCtx {} (.s 1) 3)].all (fun w => decodeTableWord w.1 w.2.1 == some w.2.2) = true := by decide

theorem test_decode_system_2 :
    [(64, 0xC00000507A301, Instr.tcinvRank {} (.s 1) 0),
     (64, 0xA1507A401, Instr.mspill {} (.s 1) (.s 2)),
     (64, 0xA1507A501, Instr.mfill {} (.s 1) (.s 2))].all (fun w => decodeTableWord w.1 w.2.1 == some w.2.2) = true := by decide

/-! ### Well-formedness: for each check a term that breaks it alone, and its mended neighbour -/

/-- Operand rules (02 R28 to R31): each first term breaks one, and the second of the pair is well formed. -/
theorem test_wf_operands :
    ([(.iadd {} .i32 (.reserved 480) (.v 1) (.op (.v 2)) {}, .iadd {} .i32 (.v 0) (.v 1) (.op (.v 2)) {}),        -- a reserved index
      (.iadd {} .i32 (.v 0) (.unassigned 425) (.op (.v 2)) {}, .iadd {} .i32 (.v 0) (.special .rngv) (.op (.v 2)) {}),   -- an unassigned one
      (.iadd {} .i32 (.const 3) (.v 1) (.op (.v 2)) {}, .iadd {} .i32 (.v 3) (.v 1) (.op (.const 23)) {}),        -- a constant as destination
      (.iadd {} .i32 (.v 0) (.const 24) (.op (.v 2)) {}, .iadd {} .i32 (.v 0) (.const (-8)) (.op (.v 2)) {}),     -- a constant out of range
      (.cvt {} (.v 0) (.const 1) { dt := .f32, st := .e4m3 }, .cvt {} (.v 0) (.const 1) { dt := .f32, st := .f16 }),   -- a constant of a small float
      (.mov {} .b32 (.special .pc) (.op (.v 1)), .mov {} .b32 (.special .pred) (.op (.v 1))),                     -- a register that may not be written
      (.mov {} .b32 (.special .route) (.op (.s 1)), .mov {} .b64 (.special .route) (.op (.s 2))),                 -- a 32-bit write of `$route`
      (.iadd {} .i32 (.v 320) (.v 1) (.op (.v 2)) {}, .iadd {} .i32 (.v 319) (.v 1) (.op (.v 2)) {}),             -- past the last v register
      (.iadd {} .i64 (.v 2) (.v 3) (.op (.v 4)) {}, .iadd {} .i64 (.v 2) (.v 318) (.op (.v 4)) {}),               -- an odd pair
      (.iadd {} .i32 (.s 64) (.s 1) (.op (.s 2)) {}, .iadd {} .i32 (.s 63) (.s 1) (.op (.s 2)) {}),               -- past the last s register
      (.mov {} .b64 (.s 61) (.op (.s 2)), .mov {} .b64 (.s 62) (.op (.s 2))),                                     -- an odd s pair
      (.bcast {} .b32 (.s 1) (.v 2) false, .bcast {} .b32 (.v 1) (.v 2) false),                                   -- a D that must be a v register
      (.vote {} (.v 4) (.v 2) .any false 0 false, .vote {} (.s 5) (.v 2) .any false 0 false),                     -- a D that must be an s register
      (.vote {} (.s 5) (.v 2) .ballot false 0 false, .vote {} (.s 60) (.v 2) .ballot false 0 false),              -- four s registers off a multiple of 4
      (.ftest {} (.s 1) (.v 2), .ftest {} (.s 1) (.s 2)),                                                         -- a uniform operand in a v register
      (.mswap {} (.s 1) true, .mswap {} (.v 0) true),                                                             -- a field that must be zero
      (.bra {} (.off 1) { u := true, cond := 1, reg := .v 3 }, .bra {} (.off 1) { u := true, cond := 1, reg := .s 3 })]
      : List (Instr × Instr)).all (fun p => !p.1.wf && !p.1.operandsOk && p.2.wf) = true := by decide

/-- The guard and the modifiers of groups 0x0 to 0x6 (02 R26, R27, R33, 04, 05). -/
theorem test_wf_modifiers_1 :
    ([(.iadd { guard := some ⟨1, false⟩ } .i32 (.s 0) (.s 1) (.op (.s 2)) {}, .iadd { guard := some ⟨1, false⟩ } .i32 (.v 0) (.s 1) (.op (.s 2)) {}),
      (.iadd { guard := some ⟨8, false⟩ } .i32 (.v 0) (.v 1) (.op (.v 2)) {}, .iadd { guard := some ⟨7, false⟩ } .i32 (.v 0) (.v 1) (.op (.v 2)) {}),
      (.iadd {} .b32 (.v 0) (.v 1) (.op (.v 2)) {}, .iadd {} .n32 (.v 0) (.v 1) (.op (.v 2)) {}),
      (.iadd {} .i32 (.v 0) (.v 1) (.op (.v 2)) { sat := true, cin := true }, .iadd {} .i32 (.v 0) (.v 1) (.op (.v 2)) { cin := true, cout := true }),
      (.imul {} .i16 (.v 0) (.v 2) (.op (.v 4)) false true, .imul {} .n32 (.v 0) (.v 2) (.op (.v 4)) false true),
      (.imul {} .i32 (.v 0) (.v 2) (.op (.v 4)) true true, .imul {} .i32 (.v 0) (.v 2) (.op (.v 4)) true false),
      (.iabs {} .n32 (.v 0) (.v 1) false, .iabs {} .i32 (.v 0) (.v 1) false),
      (.sel {} .b32 (.v 0) (.v 1) (.op (.v 2)) 16 false, .sel {} .b32 (.v 0) (.v 1) (.op (.v 2)) 15 false),
      (.mov {} .f32 (.v 0) (.op (.v 1)), .mov {} .b32 (.v 0) (.op (.v 1))),
      (.bfe {} .b16 (.v 0) (.v 1) (.imm 0 1), .bfe {} .b32 (.v 0) (.v 1) (.imm 0 1)),
      (.bfe {} .b64 (.v 0) (.v 2) (.imm 63 65), .bfe {} .b64 (.v 0) (.v 2) (.imm 63 64)),
      (.bfi {} .i32 (.v 0) (.v 1) (.v 2) (.imm 0 1), .bfi {} .b32 (.v 0) (.v 1) (.v 2) (.imm 0 1)),
      (.lea {} .i64 (.v 0) (.v 2) (.op (.v 4)) 0, .lea {} .b64 (.v 0) (.v 2) (.op (.v 4)) 7),
      (.lop3 {} .n32 (.v 0) (.v 1) (.v 2) (.v 3) 255, .lop3 {} .b32 (.v 0) (.v 1) (.v 2) (.v 3) 255),
      (.cmp {} .i32 (.v 0) (.op (.v 1)) .ord {}, .fcmp {} .f32 (.v 0) (.op (.v 1)) .ord {}),
      (.cmp {} .i32 (.v 0) (.op (.v 1)) .eq { comb := 3 }, .cmp {} .i32 (.v 0) (.op (.v 1)) .eq { comb := 2 }),
      (.cmp {} .i32 (.v 0) (.op (.v 1)) .eq { set := true, comb := 1 }, .cmp {} .i32 (.v 0) (.op (.v 1)) .eq { set := true }),
      (.cmp {} .i32 (.v 0) (.op (.v 1)) .eq { d := .v 2 }, .cmp {} .i32 (.v 0) (.op (.v 1)) .eq { set := true, d := .v 2 }),
      (.fcmp {} .f64 (.v 0) (.imm 0) .eq {}, .fcmp {} .f64 (.v 0) (.op (.v 2)) .eq {}),
      (.fadd {} .f16 (.v 0) (.v 1) (.imm 0x10000) {}, .fadd {} .f16 (.v 0) (.v 1) (.imm 0xFFFF) {}),
      (.fadd {} .f64 (.v 0) (.v 2) (.op (.v 4)) {}, .faddF64 {} .f64 (.v 0) (.v 2) (.v 4) {}),
      (.fadd {} .f32 (.v 0) (.v 1) (.op (.v 2)) { rnd := .sr }, .fadd {} .f32 (.v 0) (.v 1) (.op (.v 2)) { rnd := .rup }),
      (.fadd {} .f32 (.v 0) (.v 1) (.op (.v 2)) { nc := true }, .ffma {} .f32 (.v 0) (.v 1) (.v 2) (.v 3) { nc := true }),
      (.fmin {} .f32 (.v 0) (.v 1) (.op (.v 2)) { sat := true }, .fmin {} .f32 (.v 0) (.v 1) (.op (.v 2)) { nb := true }),
      (.frcp {} .f32 (.v 0) (.v 1) { nb := true }, .frcp {} .f32 (.v 0) (.v 1) { na := true }),
      (.fexp2 {} .f32 (.v 0) (.v 1) { rnd := .rtz }, .fsqrt {} .f32 (.v 0) (.v 1) { rnd := .rtz }),
      (.cvt {} (.v 0) (.v 1) { dt := .mxe4m3, st := .f32 }, .cvt {} (.v 0) (.v 1) { dt := .e4m3, st := .f32 }),
      (.cvt {} (.v 0) (.v 1) { dt := .i32, st := .f32, rnd := .sr }, .cvt {} (.v 0) (.v 1) { dt := .f16, st := .f32, rnd := .sr }),
      (.dot4 {} (.v 0) (.v 1) (.v 2) (.v 3) { dt := .i32, st := .n8 }, .dot4 {} (.v 0) (.v 1) (.v 2) (.v 3) { dt := .n32, st := .n8 }),
      (.padd {} (.v 0) (.v 1) (.op (.v 2)) { dt := .f16, sat := true }, .padd {} (.v 0) (.v 1) (.op (.v 2)) { dt := .i16, sat := true }),
      (.pmin {} (.v 0) (.v 1) (.op (.v 2)) { dt := .i16, elem := 2 }, .pmin {} (.v 0) (.v 1) (.op (.v 2)) { dt := .i16, elem := 1 }),
      (.pack {} (.v 0) (.v 1) (.v 2) { dt := .e4m3, st := .f32, elem := 2 }, .pack {} (.v 0) (.v 1) (.v 2) { dt := .e2m1, st := .f32, elem := 3 }),
      (.unpack {} (.v 0) (.v 1) { dt := .f32, st := .i8 }, .unpack {} (.v 0) (.v 1) { dt := .i32, st := .i8, elem := 3 }),
      (.unpack {} (.v 0) (.v 1) { dt := .i32, st := .i16, elem := 2 }, .unpack {} (.v 0) (.v 1) { dt := .i32, st := .i16, elem := 1 }),
      (.vote {} (.s 1) (.v 2) .any true 0 false, .vote {} (.s 1) (.v 0) .any true 15 true),
      (.shfl {} .b32 (.v 0) (.v 1) (.op (.v 2)) .up 6, .shfl {} .b32 (.v 0) (.v 1) (.op (.v 2)) .up 5),
      (.shfl {} .i32 (.v 0) (.v 1) (.op (.v 2)) .up 0, .shfl {} .b64 (.v 0) (.v 2) (.op (.v 4)) .up 0),
      (.scan {} .f32 (.v 0) (.v 1) .xor false false, .scan {} .b32 (.v 0) (.v 1) .xor false false),
      (.scan {} .f32 (.v 0) (.v 1) .add false true, .scan {} .n64 (.v 0) (.v 2) .add false true)]
      : List (Instr × Instr)).all (fun p => !p.1.wf && !p.1.modifiersOk && p.2.wf) = true := by decide

/-- The modifiers of groups 0x7 to 0xE (06, 07, 10, 11, 13 to 16). -/
theorem test_wf_modifiers_2 :
    ([(.bra {} (.imm 2) {}, .bra {} (.imm 4) {}),
      (.bra {} (.off 1) { cond := 1 }, .bra {} (.off 1) { u := true, cond := 1, reg := .s 0 }),
      (.bra {} (.off 1) { u := true, cond := 3, reg := .s 0 }, .bra {} (.off 1) { u := true, cond := 2, reg := .s 0 }),
      (.spawn {} (.v 0) 2 0 0, .spawn {} (.v 0) 4 15 5), (.spawn {} (.v 0) 4 0 6, .spawn {} (.v 0) 4 0 5),
      (.ld {} (.v 0) (.v 2) { ty := .f32 } .short, .ld {} (.v 0) (.v 2) { ty := .b32 } .short),
      (.ld {} (.v 0) (.v 2) { ty := .b32, sp := .rsv 6 } .short, .ld {} (.v 0) (.v 2) { ty := .b32, sp := .f } .short),
      (.ld {} (.v 0) (.v 2) { ty := .b32, ord := .rel } .short, .st {} (.v 2) (.v 0) { ty := .b32, ord := .rel } .short),
      (.ld {} (.v 0) (.v 2) { ty := .b32, scope := .pod } .short, .ld {} (.v 0) (.v 2) { ty := .b32, ord := .acq, scope := .pod } .short),
      (.ld {} (.v 0) (.v 2) { ty := .b16, vec := 1 } .short, .ld {} (.v 0) (.v 2) { ty := .b32, vec := 1 } .short),
      (.ld {} (.v 0) (.v 2) { ty := .b32, vec := 3 } .short, .ld {} (.v 0) (.v 2) { ty := .b32, vec := 2 } .short),
      (.ld {} (.v 0) (.v 2) { ty := .b32, cache := 3 } .short, .ld {} (.v 0) (.v 2) { ty := .b32, cache := 2 } .short),
      (.ld {} (.v 0) (.v 2) { ty := .b32, nr := true } .short, .ld {} (.v 0) (.v 2) { ty := .b32 } .short),
      (.ld {} (.v 0) (.v 2) { ty := .b32 } (.wide 0 false (.v 1)), .ld {} (.v 0) (.v 2) { ty := .b32 } (.wide 0 true (.v 1))),
      (.pref {} (.s 2) { ty := .b32 } none, .pref {} (.s 2) { ty := .b8 } none), (.pref {} (.s 2) { ty := .b8, sp := .s } none, .pref {} (.s 2) { ty := .b8, sp := .f } none),
      (.cflush {} (.s 2) (.s 4) 3, .cflush {} (.s 2) (.s 4) 2),
      (.atom {} (.v 0) (.v 2) (.v 4) { ty := .b32 } .short, .atom {} (.v 0) (.v 2) (.v 4) { ty := .i32 } .short),
      (.atom {} (.v 0) (.v 2) (.v 4) { ty := .i32, vec := 2 } .short, .atom {} (.v 0) (.v 2) (.v 4) { ty := .n32, vec := 2 } .short),
      (.atom {} (.v 0) (.v 2) (.v 4) { ty := .i64, sp := .f } .short, .atom {} (.v 0) (.v 2) (.v 4) { ty := .i64, sp := .n } .short),
      (.atomcas {} (.v 0) (.v 2) (.v 4) (.v 6) { ty := .f32 } 0 false (.v 0), .atomcas {} (.v 0) (.v 2) (.v 4) (.v 6) { ty := .b32 } 0 false (.v 0)),
      (.fence {} .relaxed .dev, .fence {} .sc .dev), (.fence {} (.rsv 5) .dev, .fence {} .acq .dev),
      (.xfence {} .ol .core, .xfence {} .core .ol), (.xfence {} .core (.rsv 5), .xfence {} .core .fab),
      (.mload {} .f32 (.s 1) (.op (.s 2)) false, .mload {} .f64 (.s 1) (.op (.s 2)) false),
      (.mepi {} .e2m1 (.s 1) (.op (.s 2)) false, .mepi {} .mxe2m1 (.s 1) (.op (.s 2)) false),
      (.mdelta {} .i8 (.s 1) (.op (.s 2)) false, .mdelta {} .e4m3 (.s 1) (.op (.s 2)) false),
      (.mchainLink {} (.s 1) false 5, .mchainLink {} (.s 1) false 4), (.maccz {} (.s 1) false 0, .maccz {} (.s 1) false 15),
      (.maccrd {} (.v 0) (.s 1) 4 0, .maccrd {} (.v 0) (.s 1) 3 3), (.bseal {} (.s 1) (.imm 16) false, .bseal {} (.s 1) (.imm 16) true),
      (.cntRd {} (.s 2) (.s 1) .rel .dev, .cntRd {} (.s 2) (.s 1) .acq .dev), (.cntAdd {} (.s 2) (.s 1) (.op (.s 4)) false .sc .dev, .cntAdd {} (.s 2) (.s 1) (.op (.s 4)) false .ar .dev),
      (.cntSet {} (.s 2) (.s 1) (.op (.s 4)) false .acq .dev, .cntSet {} (.s 2) (.s 1) (.op (.s 4)) false .rel .dev),
      (.cntRd {} (.s 2) (.s 1) .relaxed .pod, .cntRd {} (.s 2) (.s 1) .acq .pod),
      (.segwr {} (.s 1) (.s 2) (.s 4) (.rsv 6), .segwr {} (.s 1) (.s 2) (.s 4) .f), (.rngwr {} (.s 1) (.s 2) 8 0, .rngwr {} (.s 1) (.s 2) 7 63),
      (.tcinvCtx {} (.s 1) 64, .tcinvCtx {} (.s 1) 63), (.trap {} 256, .trap {} 255)]
      : List (Instr × Instr)).all (fun p => !p.1.wf && !p.1.modifiersOk && p.2.wf) = true := by decide

/-- Outrider code: o registers only, no guard, no W, the forms of 06 R137 and R138 alone. -/
theorem test_wf_outrider :
    ([(.olfor {} (.v 16) (.v 0) 8, .olfor {} (.v 15) (.v 0) 8), (.olfor {} (.v 1) (.s 0) 8, .olfor {} (.v 1) (.const 3) 8),
      (.iadd {} .i32 (.v 0) (.v 1) (.op (.v 2)) {}, .iadd {} .i64 (.v 0) (.v 1) (.op (.v 2)) {}),
      (.iadd { w := true } .i64 (.v 0) (.v 1) (.op (.v 2)) {}, .iadd {} .i64 (.v 0) (.v 1) (.imm 5) { sat := true }),
      (.mov { guard := some ⟨0, false⟩ } .b64 (.v 0) (.op (.v 1)), .mov {} .b64 (.v 0) (.op (.v 1))), (.xor {} .b64 (.v 0) (.v 1) (.op (.v 2)), .or {} .b64 (.v 0) (.v 1) (.op (.v 2))),
      (.bra {} (.off 1) {}, .bra {} (.off 1) { u := true }), (.olpostMill {} (.v 0) (.v 1) 647, .olpostMill {} (.v 0) (.v 1) 646),
      (.olpostPort {} (.v 0) (.v 1) 768, .olpostPort {} (.v 0) (.v 1) 769), (.olpermit {} .bad (.op (.v 1)), .olpermit {} .record (.op (.v 1)))]
      : List (Instr × Instr)).all (fun p => !p.1.wfOutrider && p.2.wfOutrider) = true := by decide

/-- What a decoder says of words that break a check (02 R41), in the order of the checks: a FETCH word with LEN 0; group 0xF; a privileged
opcode at level U; an unassigned opcode, and a length the form does not take; a reserved operand index; a type the form does not take, and a
bit that must be zero. -/
theorem test_reject :
    [decode false (Raw.ofNat 0x0000000000010000), decode false (Raw.ofNat 0x000000000003C001), decode false (Raw.ofNat 0x000000000003A001),
     decode false (Raw.ofNat 0x0000000000000E01), decode false (Raw.ofNat 0x0000000000000003), decode false (Raw.ofNat 0x0000DE0030140001)] =
    [.reject .illegalLen, .reject .reservedGroup, .reject .priv, .reject .unassignedOp, .reject .unassignedOp, .reject .badOperand] ∧
    [decode false (Raw.ofNat 0x0000000000000001), decode false (Raw.ofNat 0x8000C00000000001)].all
      (fun d => match d with | .badMod _ => true | _ => false) = true := by decide

/-! ### A small device: one party of two fibres in one gang on core 0 of die 0 -/

def fib (n : Nat) : Fibre := { fid := n, cfid := n, crew := 0, pc := 0x100, srs := 1, blocks := [n] }
/-- The gang at a level, with these in its first s registers. -/
def gangOf (level : Bool) (sr : List Word := []) : Gang :=
  { gid := 2, crew := 0, number := some 0, fibres := [0, 1], sregs := sr ++ List.replicate (64 - sr.length) 0, level := level }
def partyOf (g : Gang) (fs : List Fibre := [fib 0, fib 1]) : Party :=
  { uid := 1, core := ⟨0, 0⟩, slot := 0, ctx := 0, rank := 0, launch := none, unitid := 0, nfib := 2, blocks := 1, prio := 0, producer := 0
    code := 0, segBase := List.replicate 6 0, segLim := List.replicate 6 0x1000, fibres := fs, gangs := [g]
    crews := (List.range 16).map fun k => { num := k, prio := 0 } }
/-- The device with a party whose gang is about to issue. -/
def world (p : Party) : State :=
  { State.reset with parties := [p], nextId := 10, agent := .gang 1 2, tables := { contexts := [(0, { num := 0 })] } }
def turnIn (p : Party) (g : Gang) : Turn := { uid := 1, gid := 2, p := p, g := g, ms := p.members g, pc := p.pcOf g }

/-- The usual case: level U, all registers 0; and the same at level S. -/
def sU (sr : List Word := []) : State := world (partyOf (gangOf false sr))
def xU (sr : List Word := []) : Turn := turnIn (partyOf (gangOf false sr)) (gangOf false sr)
def sS (sr : List Word := []) : State := world (partyOf (gangOf true sr))
def xS (sr : List Word := []) : Turn := turnIn (partyOf (gangOf true sr)) (gangOf true sr)

/-- With nothing in flight, an instruction inside the window issues. -/
theorem clear_of {s : State} {x : Turn} {i : Instr} (ht : s.turnOf = some x) (hf : s.flight = []) (hw : windowOk i x.ms = true) : s.Clear i x :=
  ⟨ht, by simp [State.mustTake, State.pendingFaults, State.itemsOf, hf], fun _ => by simp [State.outstanding, State.itemsOf, hf], hw⟩

theorem all_clear {s : State} {x : Turn} (ht : s.turnOf = some x) (hf : s.flight = []) (is : List Instr)
    (hw : is.all (fun i => windowOk i x.ms) = true) : ∀ i ∈ is, s.Clear i x :=
  fun i hi => clear_of ht hf (List.all_eq_true.1 hw i hi)

/-- The Outrider of core 0 of die 0 runs, with these in its o registers. -/
def olOf (os : List DWord) (ls : List Loop := []) : Outrider :=
  { running := true, uid := 1, opc := 0x40, o := os ++ List.replicate (16 - os.length) 0, loops := ls }
def sOl (o : Outrider) : State := { sU with agent := .outrider ⟨0, 0⟩, cores := [(0, { outrider := o })] }

/-- Whether an outcome is a next state. -/
def goes : Out → Bool
  | .next _ => true
  | _ => false

theorem ex_of {o : Out} (h : goes o = true) : ∃ t, o = .next t := by
  cases o with
  | next t => exact ⟨t, rfl⟩
  | fault _ => exact absurd h Bool.false_ne_true
  | refused _ => exact absurd h Bool.false_ne_true

/-- The next state of an outcome; of one that stops, the reset state. -/
def after : Out → State
  | .next t => t
  | _ => State.reset

/-- An outstanding item of fibre 0 of the gang, at a stage. -/
def item (st : Stage) (dest : List DestReg) (op : AccOp := .value []) (parts : List Part := []) : Access :=
  { id := 5, insn := 4, uid := 1, gid := 2, fid := some 0, fibs := [0], crew := 0, pc := 0xF0, raw := (Instr.nop {} .l64).raw, op := op, sp := .g, addr := 0, parts := parts
    dest := dest, sd := none, se := false, ord := .relaxed, scope := .dev, srcs := [], stage := st }
def sItem (a : Access) : State := { sU with flight := [a] }

/-! ### The spec's worked examples: one step each -/

/-- A one-fibre party (fibre 0 of core 0 of die 0, `$pred` as given) with these values in its v registers. -/
def pEx (pred : BitVec 16 := 0) : Party := partyOf { gangOf false with fibres := [0] } [{ fib 0 with pred := pred }]
def sEx (vs : List (Nat × Word)) (pred : BitVec 16 := 0) : State := vs.foldl (fun (s : State) e => s.setReg ⟨0, 0, 0⟩ 0 e.1 e.2) (world (pEx pred))
/-- What a register, `$pred` or `$srs` of fibre 0 holds after an instruction. -/
def vAfter (i : Instr) (s : State) (r : Nat) : Word := (after (exec i s)).regAt ⟨0, 0, 0⟩ 0 r
def fAfter (i : Instr) (s : State) : Option Fibre := ((after (exec i s)).party? 1).bind (·.fibre? 0)

/-- 04 R78's example, its first two additions: the carries pushed and popped, and `$pred` moved up and down under them. -/
theorem test_iadd_cout : let s := sEx [(0, 0xFFFFFFFF), (3, 1)] 0x8003; let i := Instr.iadd {} .n32 (.v 6) (.v 0) (.op (.v 3)) { cout := true }
    vAfter i s 6 = 0 ∧ (fAfter i s).map (·.pred) = some 0x0007 := by decide
theorem test_iadd_cin_cout : let s := sEx [(1, 0x80000000), (4, 0x80000000)] 0x0007; let i := Instr.iadd {} .n32 (.v 7) (.v 1) (.op (.v 4)) { cin := true, cout := true }
    vAfter i s 7 = 1 ∧ (fAfter i s).map (·.pred) = some 0x0007 := by decide

/-- 05 R105's example: `$srs` advances and the draw rounds 1 + 2^-8 up; to nearest it is a tie. -/
theorem test_cvt_sr : let s := sEx [(4, 0x3F808000)]; let i := Instr.cvt {} (.v 5) (.v 4) { dt := .bf16, st := .f32, rnd := .sr }
    vAfter i s 5 = 0x3F81 ∧ (fAfter i s).map (·.srs) = some 0x00042021 := by decide
theorem test_cvt_rne : vAfter (.cvt {} (.v 5) (.v 4) { dt := .bf16, st := .f32, rnd := .rne }) (sEx [(4, 0x3F808000)]) 5 = 0x3F80 := by decide

/-- 05 R116's example: 3.3 and 500.0 in e4m3. -/
theorem test_cvt_e4m3 : vAfter (.cvt {} (.v 6) (.v 5) { dt := .e4m3, st := .f32 }) (sEx [(5, 0x40533333)]) 6 = 0x45 ∧
    vAfter (.cvt {} (.v 6) (.v 5) { dt := .e4m3, st := .f32 }) (sEx [(5, 0x43FA0000)]) 6 = 0x7F := by decide
theorem test_cvt_e4m3_past_max : vAfter (.cvt {} (.v 6) (.v 5) { dt := .e4m3, st := .f32, sat := true }) (sEx [(5, 0x43FA0000)]) 6 = 0x7E ∧
    vAfter (.cvt {} (.v 6) (.v 5) { dt := .e4m3, st := .f32, rnd := .rtz }) (sEx [(5, 0x43FA0000)]) 6 = 0x7E := by decide

/-- 05 R118's example: halves saturate apart, and each decision of `pmin.dec` is pushed in turn. -/
theorem test_padd_sat : vAfter (.padd {} (.v 8) (.v 2) (.op (.v 4)) { dt := .n16, sat := true }) (sEx [(2, 0x0010FFF0), (4, 0x00030020)]) 8 = 0x0013FFFF := by decide
theorem test_pmin_dec : let s := sEx [(8, 0x0013FFFF), (6, 0x00140011)]; let i := Instr.pmin {} (.v 9) (.v 8) (.op (.v 6)) { dt := .n16, elem := 1 }
    vAfter i s 9 = 0x00130011 ∧ (fAfter i s).map (·.pred) = some 2 := by decide

/-- The formats of 05 R99's table. -/
def inFmt (t : Ty) (x : Nat) : Nat := (fmtOf t).round .rne false ((fmtOf .f64).value x)
theorem test_formats : inFmt .f32 0x3FC4000000000000 = 0x3E200000 ∧ inFmt .f16 0xC01A000000000000 = 0xC680 ∧ inFmt .bf16 0x4008000000000000 = 0x4040 ∧
    inFmt .e4m3 0x400A000000000000 = 0x45 ∧ inFmt .e5m2 0xBFD8000000000000 = 0xB6 := by decide

/-- 04 R92 to R97's example: five fibres, `$cfid` 2, 5, 6, 40 and 97, slot 2 not executing. -/
def pFive : Party :=
  partyOf { gangOf false with fibres := [0, 1, 2, 3, 4] } ((([2, 5, 6, 40, 97].zip [true, true, false, true, true]).zipIdx).map fun e =>
    { fib e.2 with cfid := e.1.1, exec := e.1.2 })
def sFive : State := (([1, 0, 1, 1, 1].zip [10, 20, 30, 40, 50]).zipIdx).foldl (fun (s : State) e => (s.setReg ⟨0, 0, 0⟩ e.2 7 e.1.1).setReg ⟨0, 0, 0⟩ e.2 3 e.1.2) (world pFive)
def sregAfter (i : Instr) (s : State) (r : Nat) : Option Word := ((after (exec i s)).gang? 1 2).map fun g => g.sregs.getD r 0
def column (i : Instr) (s : State) (r : Nat) : List Word := (List.range 5).map fun b => (after (exec i s)).regAt ⟨0, 0, 0⟩ b r

theorem test_vote_ballot : let i := Instr.vote {} (.s 8) (.v 7) .ballot false 0 false
    [8, 9, 10, 11].map (sregAfter i sFive) = [some 4, some 0x100, some 0, some 2] := by decide
theorem test_scan_excl : column (.scan {} .n32 (.v 9) (.v 3) .add true false) sFive 9 = [0, 10, 0, 30, 70] := by decide
theorem test_fold : sregAfter (.fold {} .n32 (.s 12) (.v 3) .add false) sFive 12 = some 120 := by decide
theorem test_shfl_down : let i := Instr.shfl {} .b32 (.v 10) (.v 3) (.imm 1) .down 5
    column i sFive 10 = [20, 20, 0, 50, 50] ∧ (((after (exec i sFive)).party? 1).map fun p => p.fibres.map (·.pred)) = some [1, 0, 0, 1, 0] := by decide

/-- 08 R179's example: the words of an access in fibre space lie apart. -/
theorem test_fibre_space : (privateParts 0x0000020000100000 256 37 0x10 8).map (fun q => (q.va, q.len)) = [(0x0000020000101094, 4), (0x0000020000101494, 4)] := by decide

/-- 07 R151's example: a chunk is summed exactly and rounded once. -/
theorem test_mrun_chunk :
    let row : RowIn := (List.range 16).map fun k => some (fmtBf16.value (if k = 0 then 0x3F80 else 0x3900), false)
    let plane : Plane := { fmt := some .bf16, data := (List.range 16).map fun k => (k, if k = 0 then 0x3F80 else 0x3980) }
    runCode .bf16 .f32 none row plane 0 = 0x3F800004 := by decide

/-- 11 R238's example: a full recompute, and two delta invocations with the same input. -/
def slotD : Slot := { idx := 0, ctx := 0, slot := 3, key := 0, wgrp := 7, unchk := false, k := 2, m := 1, klen := 128, l := 1, base := 0, size := 3 }
def planeD : Plane := { fmt := some .bf16, data := [(0, 0x3F80), (1, 0x3F80)] }
def inD (a b : Nat) : Inputs := [(fmtF32.value a, false) :: (fmtF32.value b, false) :: List.replicate 126 (.fin false 0 0, false)]
def slot0 : Slot := slotD.refresh (inD 0x3FC00000 0xBF800000)
def slot1 : Slot := slot0.advanceSeg (inD 0x3FC15000 0xBF000000) 0 0
def yD (x0 x : Slot) (full : Bool) (a : Inputs) (old : Nat) : Nat :=
  sumF32 (if full then none else some old) (chunkSums (planeChunk .bf16) (if full then x.fullRow a 0 else x0.deltaRow a 0) (planeD.weight .bf16 0))

set_option maxRecDepth 100000 in
theorem test_mdelta_full : sget 0 slot0.segG 0 = 0x68 ∧ yD slotD slot0 true (inD 0x3FC00000 0xBF800000) 0 = 0x3F000000 := by decide
set_option maxRecDepth 100000 in
theorem test_mdelta_delta : slot0.inRange (inD 0x3FC15000 0xBF000000) = true ∧ sget 0 slot1.segE 0 = 0x78 ∧ yD slot0 slot1 false (inD 0x3FC15000 0xBF000000) 0x3F000000 = 0x3F810000 := by decide
set_option maxRecDepth 100000 in
theorem test_mdelta_again : sget 0 (slot1.advanceSeg (inD 0x3FC15000 0xBF000000) 0 0).segE 0 = 0x70 ∧
    yD slot1 slot1 false (inD 0x3FC15000 0xBF000000) 0x3F810000 = 0x3F815000 := by decide

/-! ### The hypotheses of the statements are met: one theorem for each statement that has any, a conjunct for each of its clauses -/

theorem wit_SumsAndDifferences : ∀ i ∈ [Instr.iadd {} .i32 (.v 5) (.v 6) (.op (.const 3)) {}, .isub {} .n64 (.v 2) (.v 4) (.imm 7) { cin := true, cout := true }],
    sU.Clear i xU := all_clear rfl rfl _ (by decide)

theorem wit_ProductsAndQuotients :
    ∀ i ∈ [Instr.imul {} .i32 (.v 2) (.v 3) (.op (.v 4)) false true, .imulhi {} .n8 (.v 1) (.v 2) (.op (.v 3)), .imad {} .i16 (.v 1) (.v 2) (.v 3) (.v 4) true false,
      .idiv {} .i32 (.v 1) (.v 2) (.op (.const 0)), .irem {} .n32 (.s 1) (.s 2) (.op (.const 0))], sU.Clear i xU := all_clear rfl rfl _ (by decide)

theorem wit_ExtremesAndMoves :
    ∀ i ∈ [Instr.imin {} .i8 (.v 1) (.v 2) (.op (.v 3)), .imax {} .n16 (.v 1) (.v 2) (.op (.v 3)), .iabs {} .i32 (.v 1) (.v 2) true, .ineg {} .i32 (.v 1) (.v 2) false,
      .isad {} .i32 (.v 1) (.v 2) (.v 3) (.v 4) true, .mov {} .b64 (.v 62) (.imm 1), .sel {} .b32 (.v 1) (.v 2) (.op (.v 3)) 15 true], sU.Clear i xU :=
  all_clear rfl rfl _ (by decide)

theorem wit_LogicForms :
    ∀ i ∈ [Instr.and {} .b32 (.v 1) (.v 2) (.op (.v 3)), .or {} .b32 (.v 1) (.v 2) (.op (.v 3)), .xor {} .b32 (.v 1) (.v 2) (.op (.v 3)), .not {} .b8 (.v 1) (.v 2),
      .lop3 {} .b32 (.v 1) (.v 2) (.v 3) (.v 4) 255, .lea {} .i32 (.v 2) (.v 4) (.op (.v 6)) 7], sU.Clear i xU := all_clear rfl rfl _ (by decide)

theorem wit_ShiftForms :
    ∀ i ∈ [Instr.shl {} .b32 (.v 1) (.v 2) (.imm 32) false, .shr {} .n8 (.v 1) (.v 2) (.imm 8) true, .sar {} .i32 (.v 1) (.v 2) (.imm 31) false,
      .rotl {} .b64 (.v 2) (.v 4) (.imm 64)], sU.Clear i xU := all_clear rfl rfl _ (by decide)

theorem wit_BitFieldForms :
    ∀ i ∈ [Instr.popc {} .b32 (.v 1) (.v 2), .clz {} .b64 (.v 1) (.v 2), .brev {} .b8 (.v 1) (.v 2), .bfe {} .i32 (.v 1) (.v 2) (.imm 31 1),
      .bfi {} .b32 (.v 1) (.v 2) (.v 3) (.reg (.v 4))], sU.Clear i xU := all_clear rfl rfl _ (by decide)

/-- The bounds of every clause: the highest bit of a width, a field that ends at the width, the value 0, the last entries. -/
theorem wit_BitValues : 31 < 32 ∧ 0 < 32 ∧ 0 < 2 ^ 32 ∧ clzVal 1 32 < 32 ∧ clzVal 0 32 = 32 ∧ 14 < 15 ∧ 15 < 16 := by decide

theorem wit_PredicateForms :
    ∀ i ∈ [Instr.cmp {} .i32 (.v 1) (.op (.v 2)) .lt { comb := 2 }, .fcmp {} .f32 (.v 1) (.op (.v 2)) .uno { set := true, d := .v 3 }, .ppush {} (.v 1), .ppop {} 16 true (.v 1),
      .pmov {} 15 true, .pset {} 15 (.v 1), .plop {} 0 15 6 true], sU.Clear i xU := all_clear rfl rfl _ (by decide)

theorem wit_FloatForms :
    ∀ i ∈ [Instr.fadd {} .f32 (.v 1) (.v 2) (.op (.v 3)) {}, .fsub {} .f32 (.v 1) (.v 2) (.op (.v 3)) {}, .fmul {} .f16 (.v 1) (.v 2) (.op (.v 3)) {},
      .ffma {} .bf16 (.v 1) (.v 2) (.v 3) (.v 4) { rnd := .rtz }, .fmin {} .f32 (.v 1) (.v 2) (.op (.v 3)) {}, .fmax {} .f32 (.v 1) (.v 2) (.op (.v 3)) {},
      .fdiv {} .f32 (.v 1) (.v 2) (.op (.const 0)) {}, .frcp {} .f32 (.v 1) (.v 2) {}, .frsq {} .f32 (.v 1) (.v 2) {}, .fsqrt {} .f32 (.v 1) (.v 2) { sat := true },
      .faddF64 {} .f64 (.v 2) (.v 4) (.v 6) {}, .fsubF64 {} .f64 (.v 2) (.v 4) (.v 6) {}, .fmulF64 {} .f64 (.v 2) (.v 4) (.v 6) {}, .ffmaF64 {} .f64 (.v 2) (.v 4) (.v 6) (.v 8) {},
      .fminF64 {} .f64 (.v 2) (.v 4) (.v 6) {}, .fmaxF64 {} .f64 (.v 2) (.v 4) (.v 6) {}, .fdivF64 {} .f64 (.v 2) (.v 4) (.v 6) {}, .frcpF64 {} .f64 (.v 2) (.v 4) {},
      .frsqF64 {} .f64 (.v 2) (.v 4) {}, .fsqrtF64 {} .f64 (.v 2) (.v 4) {}], sU.Clear i xU := all_clear rfl rfl _ (by decide)

theorem wit_ElementaryForms :
    ∀ i ∈ [Instr.fexp2 {} .f32 (.v 1) (.v 2) {}, .flog2 {} .f32 (.v 1) (.v 2) {}, .fsin {} .f16 (.v 1) (.v 2) {}, .fcos {} .bf16 (.v 1) (.v 2) {}], sU.Clear i xU :=
  all_clear rfl rfl _ (by decide)

theorem wit_ConversionForms :
    ∀ i ∈ [Instr.cvt {} (.v 5) (.v 4) { dt := .bf16, st := .f32, rnd := .sr }, .dot2 {} (.v 1) (.v 2) (.v 3) (.v 4) { dt := .f32, st := .f16 },
      .dot4 {} (.v 1) (.v 2) (.v 3) (.v 4) { dt := .i32, st := .i8 }, .padd {} (.v 1) (.v 2) (.op (.v 3)) { dt := .n16 }, .pmax {} (.v 1) (.v 2) (.op (.v 3)) { dt := .i16 },
      .pmin {} (.v 1) (.v 2) (.op (.v 3)) { dt := .f16, elem := 1 }, .pack {} (.v 1) (.v 2) (.v 3) { dt := .e2m1, st := .f32, elem := 3 },
      .unpack {} (.v 1) (.v 2) { dt := .f32, st := .e4m3, elem := 3 }, .seed {} (.imm 0) true], sU.Clear i xU := all_clear rfl rfl _ (by decide)

theorem wit_CrossFibreForms :
    ∀ i ∈ [Instr.vote {} (.s 60) (.v 2) .ballot false 0 false, .shfl {} .b32 (.v 1) (.v 2) (.op (.v 3)) .xor 5, .bcast {} .b32 (.v 1) (.v 2) true,
      .scan {} .i32 (.v 1) (.v 2) .add true true, .fold {} .f32 (.s 1) (.v 2) .max false], sU.Clear i xU := all_clear rfl rfl _ (by decide)

/-- The last registers of a window of one block, and the last s registers. -/
theorem wit_ResultsReadBack :
    (swf 0 sU.regs = true ∧ sU.party? 1 = some xU.p ∧ (fib 0).blocks.Nodup ∧ 62 + [1, 2].length ≤ 64 * (fib 0).blocks.length ∧ 1 < [(1 : Word), 2].length) ∧
    60 + [(1 : Word), 2, 3, 4].length ≤ (List.replicate 64 (0 : Word)).length := ⟨⟨by decide, rfl, by decide, by decide, by decide⟩, by decide⟩

theorem wit_RegisterFormFrame : let i := Instr.iadd {} .i32 (.v 63) (.v 6) (.op (.const 3)) {}
    i.wf = true ∧ regDst i = some (.v 63) ∧ sU.Clear i xU ∧ swf 0 sU.regs = true ∧ ∃ t, exec i sU = .next t :=
  ⟨by decide, rfl, clear_of rfl rfl (by decide), by decide, ex_of (by decide)⟩

theorem wit_OwedFormFrame : let i := Instr.idiv {} .i32 (.v 63) (.v 6) (.op (.const 0))
    sU.Clear i xU ∧ ∃ t, exec i sU = .next t := ⟨clear_of rfl rfl (by decide), ex_of (by decide)⟩

/-- A block whose generation has not moved, and one whose has. -/
theorem wit_ReturnedWords : (sU.genAt ⟨0, 0, 0⟩ 0 = 0 ∧ (sU.heldBlocks ⟨0, 0, 0⟩).contains 0 = true) ∧ sU.genAt ⟨0, 0, 0⟩ 0 ≠ 1 ∧ sU.party? 1 = some xU.p ∧ (xU.p.crew? 0).isSome = true :=
  ⟨⟨by decide, by decide⟩, by decide, rfl, by decide⟩

/-- No issuer; a fault to take at a marker; a result to wait for; a register one past the window. -/
theorem wit_IssueHeldBack :
    let i := Instr.nop { w := true } .l64
    let j := Instr.mov {} .b32 (.v 64) (.imm 0)
    (i.isWord = true ∧ State.reset.agent = .none) ∧ (j.isWord = true ∧ i.outriderOnly = false ∧ j.outriderOnly = false ∧ privileged i = false ∧ privileged j = false) ∧
    (let s := sItem (item (.refused 8 0) [.s 0]); s.turnOf = some xU ∧ s.mustTake i xU = true) ∧
    (let s := sItem (item (.done [1] 0) [.s 0]); s.turnOf = some xU ∧ s.mustTake i xU = false ∧ i.head.w = true ∧ s.outstanding xU.uid xU.g = true) ∧
    (sU.turnOf = some xU ∧ sU.mustTake j xU = false ∧ j.head.w = false ∧ windowOk j xU.ms = false) :=
  ⟨⟨by decide, rfl⟩, by decide, ⟨rfl, by decide⟩, ⟨rfl, by decide, rfl, by decide⟩, rfl, by decide, rfl, by decide⟩

theorem wit_PrivilegedAtU : let i := Instr.syswr {} (.imm 0x10) (.s 0)
    i.isWord = true ∧ privileged i = true ∧ sU.turnOf = some xU ∧ xU.g.level = false := ⟨by decide, by decide, rfl, rfl⟩

/-- With s0 = 6, s1 = 8 and s2 = 0: not taken, taken to a target off a multiple of 4, taken; and the per-fibre forms with both targets. -/
theorem wit_Branches : let s := sU [6, 8]; let x := xU [6, 8]
    (∀ i ∈ [Instr.bra {} (.off 0xFFFF) { u := true, cond := 1, reg := .s 2 }, .brx {} (.s 0) { u := true, cond := 0, reg := .v 0 }, .call {} (.s 5) (.imm 4) { u := true, cond := 2, reg := .s 2 },
      .ret {} (.s 1) { u := true, cond := 1, reg := .s 0 }, .brx {} (.s 0) {}, .ret {} (.s 1) {}, .bra {} (.off 1) {}, .call {} (.v 63) (.off 1) {}], s.Clear i x) ∧
    (supplier x.ms = some (fib 0) ∧ read32 s x.p x.g (fib 0) (.op (.s 2)) = 0 ∧ read32 s x.p x.g (fib 0) (.op (.s 0)) % 4 ≠ 0 ∧
      read32 s x.p x.g (fib 0) (.op (.s 1)) % 4 = 0 ∧ read32 s x.p x.g (fib 0) (.op (.s 1)) ≠ 0) ∧
    (x.g.level = false ∧ fib 0 ∈ takeEffect {} x.ms) := ⟨all_clear rfl rfl _ (by decide), by decide, by decide⟩

/-- Fibres that part and fibres that stay together; before they part, a fault to take, a result for an s register to wait for, and neither. -/
theorem wit_TransferTargets : (xU.ms.map (·.fid)).Nodup ∧ xU.g.fibres = xU.ms.map (·.fid) ∧ (∀ f ∈ xU.ms, (xU.p.fibre? f.fid).isSome = true) ∧
    (let t := fun f : Fibre => if f.fid = 0 then (8 : Word) else 16; ∃ f ∈ xU.ms, t f ≠ t (xU.ms.headD f)) ∧
    (∀ f ∈ xU.ms, (fun _ => (8 : Word)) f = (fun _ => 8) (xU.ms.headD f)) ∧
    (let s := sItem (item (.refused 8 0) [.s 0]); s.turnOf = some xU ∧ s.pendingFaults xU.uid xU.g ≠ []) ∧
    (let s := sItem (item (.done [1] 0) [.s 0]); s.turnOf = some xU ∧ s.pendingFaults xU.uid xU.g = [] ∧ s.scalarPending xU.uid xU.g = true) ∧
    (sU.turnOf = some xU ∧ sU.pendingFaults xU.uid xU.g = [] ∧ sU.scalarPending xU.uid xU.g = false ∧ sU.party? xU.uid = some xU.p ∧
      xU.p.fibre? 1 = some (fib 1) ∧ xU.p.gang? xU.gid = some xU.g) :=
  ⟨by decide, by decide, by decide, by decide, by decide, ⟨rfl, by decide⟩, ⟨rfl, by decide, by decide⟩, rfl, by decide, by decide, rfl, rfl, rfl⟩

set_option maxRecDepth 100000 in
theorem wit_FibreLife :
    (∀ i ∈ [Instr.nop {} .l128, .exit {}, .meet {} (.s 60), .spawn {} (.s 1) 8 15 5, .xgrow {}, .xshrink {}], sU.Clear i xU) ∧
    (xU.g.level = false ∧ takeEffect {} xU.ms ≠ [] ∧ sU.pendingFaults 1 xU.g = [] ∧ sU.scalarPending 1 xU.g = false ∧ xU.g.wait = none) ∧
    (sU.placeRecords xU (xU.pc + 8) 15 5 (.s 1) (takeEffect {} xU.ms)).1 = [] ∧ xU.p.spawnBefore xU.gid (xU.pc + 8) none = false ∧
    ((∀ w ∈ sU.growq, w.1 ≠ xU.p.laneRef 0) ∧ 2 ≤ (sU.freeBlocks (xU.p.laneRef 0)).length) := ⟨all_clear rfl rfl _ (by decide), by decide, by decide, by decide, by decide⟩

/-- Windows of one, two, four and five blocks. -/
theorem wit_WindowsGrowAndShrink : let f := fun n : Nat => ({ fib 0 with blocks := List.range n } : Fibre)
    ((world (partyOf (gangOf false) [f 5])).party? 1 = some (partyOf (gangOf false) [f 5]) ∧ (partyOf (gangOf false) [f 5]).fibre? 0 = some (f 5)) ∧
    (f 4).blocks.length < 5 ∧ ¬(f 5).blocks.length < 5 ∧ 1 < (f 2).blocks.length ∧ ¬1 < (f 1).blocks.length ∧ 63 < 64 ∧ swf 0 sU.gens = true :=
  ⟨⟨rfl, rfl⟩, by decide, by decide, by decide, by decide, by decide, by decide⟩

/-- A scratch offset whose 16 bytes end at the limit; a queue that does not exist; a record to pop. -/
theorem wit_QueueForms : supplier xU.ms = some (fib 0) ∧
    (let s := sU [0xFF0]; let x := xU [0xFF0]
     s.Clear (.fetchw {} (.s 0)) x ∧ uniform32 s x (.op (.s 0)) % 16 = 0 ∧ uniform32 s x (.op (.s 0)) + 16 ≤ (x.p.segLim.getD 0 0).toNat ∧ x.p.withdraw.length < 4) ∧
    (sU.Clear (.launch {} (.s 4) (.s 2) (.const 15)) xU ∧ ((sU.ctx? xU.p.ctx).any fun c => decide (15 < 16) && (c.queueAt 15).en && !(c.queueAt 15).mode) = false) ∧
    (let p := { xU.p with records := [5] }; let s := world p; let x := turnIn p xU.g
     s.Clear (.rqpop {} (.s 4)) x ∧ x.p.rqBefore x.gid (match x.g.wait with | some (.rqpop n _) => n | _ => s.nextId) = false ∧
     s.overtaken (.records x.uid) x.g.crew = false ∧ x.p.records = 5 :: []) ∧
    (xU.p.records = [] ∧ sU.outriderRuns xU.p = false) :=
  ⟨rfl, ⟨clear_of rfl rfl (by decide), by decide, by decide, by decide⟩, ⟨clear_of rfl rfl (by decide), by decide⟩,
    ⟨clear_of rfl rfl (by decide), by decide, by decide, rfl⟩, rfl, by decide⟩

/-- A device whose context 0 may reach its region 0, has queue 0 open for launches and counters 0 to 63 on die 0. -/
def ctxG : Context :=
  { num := 0, job := some 9, cmap := [(0, (0, 0))], queues := [(0, { en := true, size := 4 })]
    ranges := [(0, { win := 0, copy := { ctx := 0, region := 0, va := 0, ia := 0, size := 2 ^ 30 } })] }
def sG (p : Party) : State := { world p with tables := { contexts := [(0, ctxG)] } }
/-- The party of `xU` whose g segment holds the first 4 KiB, and its turn. -/
def pG (sr : List Word := []) : Party := partyOf (gangOf false sr)
def xG (sr : List Word := []) : Turn := turnIn (pG sr) (gangOf false sr)

/-- A launch to an open queue. -/
theorem wit_QueueForms_known : let s := sG (pG [0, 0, 0x100]); let x := xG [0, 0, 0x100]
    s.Clear (.launch {} (.s 8) (.s 2) (.const 0)) x ∧ ((s.ctx? x.p.ctx).any fun c => decide (0 < 16) && (c.queueAt 0).en && !(c.queueAt 0).mode) = true :=
  ⟨clear_of rfl rfl (by decide), by decide⟩

theorem wit_OutriderArithmetic : (sOl (olOf [7])).OlRuns ⟨0, 0⟩ := ⟨rfl, rfl⟩

/-- A branch taken and not; a count of 0 and of 3; no loop and four; a loop that goes round and one that ends; permits of 0, at the depth and past it. -/
theorem wit_OutriderControl :
    let o := olOf [0, 3] [⟨5, 3, 0x20, 0x80⟩, ⟨6, 1, 0x20, 0x80⟩, ⟨7, 1, 0x20, 0x80⟩, ⟨8, 1, 0x20, 0x80⟩]
    let e := olOf [0, 3]
    ((sOl o).OlRuns ⟨0, 0⟩ ∧ (sOl e).OlRuns ⟨0, 0⟩) ∧
    (olRead o .n64 (.op (.v 0)) = 0 ∧ olRead o .n64 (.op (.v 1)) ≠ 0 ∧ 4 ≤ o.loops.length ∧ e.loops.length < 4 ∧ e.loops = []) ∧
    (o.o.getD 5 0 + 1 < 3 ∧ (1 : DWord) ≤ o.o.getD 1 0 + 1) ∧
    (∀ q ∈ [PostQ.mill, .port, .record], 1 ≤ PostQ.depth q ∧ PostQ.depth q < 65) ∧ PostQ.depth .bad < 1 :=
  ⟨⟨⟨rfl, rfl⟩, rfl, rfl⟩, by decide, by decide, by decide, by decide⟩

/-- A unit covered whole, and one of which a byte is left out. -/
theorem wit_MemoryWrites : Memory.wf [((3 : Nat), (7 : Byte)), (64, 1)] = true ∧ (64 ≤ 64 * 1 ∧ 64 * 1 + 64 ≤ 64 + 64) ∧ ¬(64 ≤ 64 * 1 ∧ 64 * 1 + 64 ≤ 64 + 63) := by decide

/-- A store's instruction and its request, as the statement gives it. -/
def mS (ord : Ord := .relaxed) : MemMod := { ty := .b32, sp := .s, ord := ord }
def stI (m : MemMod) : Instr := .st {} (.s 0) (.v 1) m (.imm 4)
def stReq (s : State) (x : Turn) (m : MemMod) : MemReq :=
  { sp := m.sp, size := 4, wr := true, strict := m.ord != .relaxed, ord := m.ord, scope := m.scope, se := false, sd := fun f => s.sdOf x f (MemSd (.imm 4))
    addr := fun f => (read32 s x.p x.g f (.op (.s 0)) : Int) + 4, op := fun f => .store (s.dataBytes x f m.ty 1 (.v 1))
    srcs := fun f => [rawOpnd s x.p x.g f false (.s 0), rawOpnd s x.p x.g f false (.v 1)] }
/-- The worst check of its accesses, and what holds them back. -/
def stPlan (s : State) (x : Turn) (m : MemMod) : Nat × MemWait :=
  let plan := s.memPlan (stI m) x (stReq s x m)
  (worstCheck plan.1, s.memWait x (plan.1.map (·.2)) m.ord)
/-- The gang with one item in flight. -/
def sIn (a : Access) (sr : List Word) : State := { sG (pG sr) with flight := [a] }
/-- A store that has not been performed, and an access that was refused. -/
def openStore : Access := { item .ready [] (.store [1, 2, 3, 4]) with parts := [⟨0, 4, .loc 0 none none⟩] }
def refused : Access := item (.refused 0x0E 1) [.s 60]

/-- The four forms issue; a store at scratch offset 8 goes, and past the limit fails; one with a fence waits behind an open store and gives way to a fault. -/
theorem wit_MemoryForms :
    (∀ i ∈ [Instr.ld {} (.v 1) (.s 0) mS .short, stI mS, .atom {} (.v 1) (.s 0) (.v 2) mS (.wide 0 true (.v 3)), .atomcas {} (.v 1) (.s 0) (.v 2) (.v 4) mS 0 false (.v 0)],
      (sG (pG [8])).Clear i (xG [8])) ∧ performers (stI mS) (xG [8]) ≠ [] ∧
    (stPlan (sG (pG [8])) (xG [8]) mS).1 = 0 ∧ (stPlan (sG (pG [8])) (xG [8]) mS).2 = .go ∧ (stPlan (sG (pG [0xFFC])) (xG [0xFFC]) mS).1 ≠ 0 ∧
    (let s := sIn openStore [8]; s.Clear (stI (mS .sc)) (xG [8]) ∧ (stPlan s (xG [8]) (mS .sc)).1 = 0 ∧ (stPlan s (xG [8]) (mS .sc)).2 = .wait) ∧
    (let s := sIn refused [8]; s.Clear (stI (mS .sc)) (xG [8]) ∧ (stPlan s (xG [8]) (mS .sc)).1 = 0 ∧ (stPlan s (xG [8]) (mS .sc)).2 = .fault) :=
  ⟨all_clear rfl rfl _ (by decide), by decide, by decide, by decide, by decide,
    ⟨⟨rfl, by decide, by decide, by decide⟩, by decide, by decide⟩, ⟨rfl, by decide, by decide, by decide⟩, by decide, by decide⟩

theorem wit_StoresPerform : let a := openStore
    Memory.wf (sIn a []).mem = true ∧ (sIn a []).party? a.uid = some (pG []) ∧ a.op = .store [1, 2, 3, 4] ∧ a.parts = [⟨0, 4, .loc 0 none none⟩] ∧
    ∀ u ∈ touchedUnits 0 4, u ∉ (sIn a []).failing := ⟨by decide, rfl, rfl, rfl, by decide⟩

/-- A load of memory that has been written before, by a write that it knows, under a frame that is mapped; the same from the constant cache, of a party placed
after the write; and another party's load beside it. -/
def aLoad : Access := { item .ready [.v ⟨⟨0, 0, 0⟩, 0, 0⟩ 5 0] (.load .b32 1) with sp := .g, parts := [⟨0, 4, .loc 0 none none⟩], view := [⟨0, 4, 1⟩] }

def kLoad : Access := { aLoad with sp := .k, view := [] }

def pBorn : Party := { pG [] with born := 1 }

def knownTo (a : Access) : View := if a.sp = .k then [⟨0, 4, pBorn.born⟩] else a.view

def sLoad (a : Access) : State :=
  { sG pBorn with flight := [a, { item .ready [.s 1] (.load .b32 1) with id := 6, uid := 7 }], stamp := 2
                  past := [{ stamp := 1, lo := 0, old := [0, 0, 0, 0], src := {}, view := [], rels := [], atom := none }]
                  tables := { (sG pBorn).tables with mapped := [{ ctx := 0, region := 0, page := 0, frame := 0 }] } }

/-- From sound memory, and from a poisoned unit with and without `.stat`. -/
theorem wit_LoadsPerform :
    (∀ s ∈ [sLoad aLoad, { sLoad aLoad with poison := [0] }], s.party? 1 = some pBorn ∧ s.loadsBefore aLoad = false ∧ s.atomsBefore aLoad = false ∧
      s.behind aLoad = false ∧ s.forward aLoad = .none ∧ ∀ b < 4, s.wild b = false) ∧
    ((sLoad kLoad).party? 1 = some pBorn ∧ kLoad.sp = .k ∧ (sLoad kLoad).loadsBefore kLoad = false ∧ (sLoad kLoad).atomsBefore kLoad = false ∧
      (sLoad kLoad).behind kLoad = false) ∧
    (∀ a ∈ [aLoad, kLoad, { aLoad with se := true }], a.uid = 1 ∧ a.op = .load .b32 1 ∧ a.parts = [⟨0, 4, .loc 0 none none⟩] ∧ a.aside = false ∧ a.early = [] ∧ a.fibs ≠ [] ∧
      (∀ b ∈ (sLoad a).flight, b.reads = true → b.open_ = true → b.id = a.id ∨ (a.sameFibre b = false ∧ b.id ∉ a.after)) ∧
      ∀ x ∈ (sLoad a).past, x.stamp ≤ (sLoad a).stamp ∧ (x.lo < 0 + 4 → 0 < x.lo + x.old.length →
        a.id ∉ x.preds ∧ ∃ f ∈ knownTo a, f.lo ≤ 0 ∧ 0 + 4 ≤ f.lo + f.len ∧ x.stamp ≤ f.stamp)) ∧
    (sLoad aLoad).poisonIn 0 4 = false ∧ ({ sLoad aLoad with poison := [0] } : State).poisonIn 0 4 = true := by
  refine ⟨by decide, by decide, fun a h => ?_, by decide, by decide⟩
  simp only [List.mem_cons, List.not_mem_nil, or_false] at h
  obtain rfl | rfl | rfl := h <;> exact ⟨rfl, rfl, rfl, rfl, rfl, by decide, by decide, by decide⟩

theorem wit_AtomicValues : (Ty.isInt .i32 = true ∧ 0 < 2 ^ 32 ∧ 2 ^ 32 - 1 < 2 ^ 32 ∧ ∀ n, Aop.add ≠ .rsv n) ∧ Ty.isFloat .bf16 = true ∧ Ty.isFloat .b64 = false ∧
    2 ^ 16 - 1 < 2 ^ Ty.width .bf16 := ⟨⟨by decide, by decide, by decide, by simp⟩, by decide, by decide, by decide⟩

/-- An atomic where writes have been made before and the frame is mapped: sound, poisoned, and with an error of its write to come. -/
theorem wit_AtomicStep :
    let w : Past := { stamp := 1, lo := 0, old := [0, 0, 0, 0], src := {}, view := [], rels := [], atom := none }
    let s : State := { sG (pG []) with mem := [(0, 7)], past := [w], stamp := 2, tables := { (sG (pG [])).tables with mapped := [{ ctx := 0, region := 0, page := 0, frame := 0 }] } }
    Memory.wf s.mem = true ∧ s.wild 0 = false ∧ (∀ w ∈ s.past, w.stamp ≤ s.stamp) ∧ s.poisonIn 0 8 = false ∧ (∀ u ∈ touchedUnits 0 8, u ∉ s.failing) ∧
    (∃ u ∈ touchedUnits 0 8, u ∈ ({ s with failing := [0] } : State).failing) ∧ ({ s with poison := [0] } : State).poisonIn 0 8 = true := by decide

/-- Cache forms over nothing (length 0), over a local address that is mapped and one that is not, over one with a rank and bit 63 clear, and over another
rank's; a fence with nothing before it, one behind an open store, and one behind an open load. -/
theorem wit_FencesAndCaches : let sr : List Word := [0, 0, 1, 0x4000, 0, 0x80, 0, 0x80014000]; let s := sG (pG sr); let x := xG sr
    let y := fun k => read64 s x.p x.g (fib 0) (.op (.s k))
    supplier x.ms = some (fib 0) ∧
    (∀ i ∈ [Instr.pref {} (.s 0) (mS) none, .cflush {} (.s 0) (.s 0) 0, .cflush {} (.s 2) (.s 2) 1, .cinval {} (.s 0) (.s 2) 0, .cinval {} (.s 4) (.s 2) 0,
      .cflush {} (.s 6) (.s 2) 2, .fence {} .sc .sys, .fence {} .acq .dev, .xfence {} .mill .port, .xfence {} .core .mill], s.Clear i x) ∧
    (read32 s x.p x.g (fib 0) (.op (.s 0)) = 0 ∧ read32 s x.p x.g (fib 0) (.op (.s 2)) ≠ 0) ∧
    ((y 2).getLsbD 63 = false ∧ fld (y 2) 62 46 ≠ 0) ∧
    (∀ k ∈ [0, 4], fld (y k) 62 46 = 0 ∧ (y k).getLsbD 63 = false) ∧
    ((s.ctx? x.p.ctx).any (·.inRange (fld (y 0) 45 0)) = true ∧ (s.ctx? x.p.ctx).any (·.inRange (fld (y 4) 45 0)) = false) ∧
    ((y 6).getLsbD 63 = true ∧ fld (y 6) 62 46 ≠ rankSelf ∧ fld (y 6) 62 46 ≠ x.p.rank) ∧
    (s.pendingFaults x.uid x.g = [] ∧ s.openReads x.uid x.g = false ∧ s.covered x = true) ∧
    (let t := sIn openStore sr; t.pendingFaults x.uid x.g = [] ∧ t.covered x = false) ∧
    (let t := sIn { openStore with op := .load .b32 1, dest := [.s 60] } sr; t.pendingFaults x.uid x.g = [] ∧ t.openReads x.uid x.g = true) :=
  ⟨rfl, all_clear rfl rfl _ (by decide), by decide, by decide, by decide, by decide, by decide, by decide, by decide, by decide⟩

theorem wit_SupervisorEntry : sU.turnOf = some xU ∧ xU.g.level = false ∧ xU.p.fibre? 1 = some (fib 1) ∧ (7 : Nat) ≠ xU.gid := ⟨rfl, rfl, rfl, by decide⟩

/-- A log of another class, one of EMULATE alone; and each cause with nothing earlier to take or to wait for. -/
theorem wit_SupervisorFaults : sS.turnOf = some xS ∧ xS.g.level = true ∧ (∃ e ∈ [issueLog (Raw.ofNat 0) 0 0x04 0], e.cls ≠ 0x01) ∧
    (∀ e ∈ [issueLog (Raw.ofNat 0) 0 0x01 3], e.cls = 0x01) ∧ xS.p.fibre? 1 = some (fib 1) ∧ sS.pendingFaults xS.uid xS.g = [] ∧ sS.outstanding xS.uid xS.g = false ∧
    Cause.emulate? .badOperand = some 3 ∧ Cause.emulate? .fetchSplit = none :=
  ⟨rfl, rfl, ⟨_, List.mem_cons_self, by decide⟩, by decide, rfl, by decide, by decide, by decide, by decide⟩

/-- The seven causes, with an emulation entry and without one. -/
theorem wit_EncodingTraps : let e : State := { sU with tables := { contexts := [(0, { num := 0, emu := 0x40 })] } }
    (∀ c ∈ [Cause.illegalLen, .reservedGroup, .unassignedOp, .badOperand, .reservedMod], (Cause.emulate? c).isSome = true) ∧
    (∀ s ∈ [sU, e], s.turnOf = some xU ∧ s.pendingFaults 1 xU.g = [] ∧ s.outstanding 1 xU.g = false) ∧ xU.g.level = false ∧
    ((sU.ctx? 0).map (·.emu)).getD 0 = 0 ∧ ((e.ctx? 0).map (·.emu)).getD 0 ≠ 0 := by
  refine ⟨by decide, ?_, rfl, by decide, by decide⟩
  intro s hs
  simp only [List.mem_cons, List.not_mem_nil, or_false] at hs
  obtain rfl | rfl := hs <;> exact ⟨rfl, by decide, by decide⟩

theorem wit_TrapAndReturn : (sU.Clear (.trap {} 5) xU ∧ sU.Clear (.eret {}) xU ∧ xU.g.level = false) ∧
    sS.Clear (.eret {}) xS ∧ xS.g.level = true ∧ sS.outstanding xS.uid xS.g = false ∧ (∀ e ∈ xS.g.slog, e.replay = false) ∧ xS.g.newlog = [] :=
  ⟨⟨clear_of rfl rfl (by decide), clear_of rfl rfl (by decide), rfl⟩, clear_of rfl rfl (by decide), rfl, by decide, by decide, rfl⟩

theorem wit_IllegalEncodings : sU.turnOf = some xU ∧ (sOl (olOf [])).OlRuns ⟨0, 0⟩ := ⟨rfl, rfl, rfl⟩

theorem wit_SystemReads : supplier xS.ms = some (fib 0) ∧ xS.g.level = true ∧
    (∀ n ∈ [0x0001, 0x0010, 0x0011, 0x0018, 0x0208, 0x0004, 0x0007, 0x0407, 0x0410], sS.Clear (.sysrd {} (.s 2) (.imm (w32 n))) xS ∧
      uniform32 sS xS (.imm (w32 n)) = n ∧ (n < 0x0408 ∨ 0x040F < n) ∧ n ≠ 0x001A ∧ n ≠ 0x020A) := by
  refine ⟨rfl, rfl, fun n hn => ⟨clear_of rfl rfl ?_, ?_⟩⟩
  · exact (by decide : ∀ n ∈ [0x0001, 0x0010, 0x0011, 0x0018, 0x0208, 0x0004, 0x0007, 0x0407, 0x0410], windowOk (.sysrd {} (.s 2) (.imm (w32 n))) xS.ms = true) n hn
  · exact (by decide : ∀ n ∈ [0x0001, 0x0010, 0x0011, 0x0018, 0x0208, 0x0004, 0x0007, 0x0407, 0x0410],
      uniform32 sS xS (.imm (w32 n)) = n ∧ (n < 0x0408 ∨ 0x040F < n) ∧ n ≠ 0x001A ∧ n ≠ 0x020A) n hn

/-- At level U, an open PMC of the gang's own context and another; a write of the device for the tail of its ring to count. -/
theorem wit_SystemReads_user :
    let s : State := { sU with cores := [(0, { pmcs := [(0, { sel := 0x4000, ctx := 0 }), (1, { sel := 0x4000, ctx := 1 })] })]
                               past := [{ stamp := 1, lo := 0, old := [0], src := deviceIssuer, view := [], rels := [], atom := none }] }
    supplier xU.ms = some (fib 0) ∧ xU.g.level = false ∧
    (∀ n ∈ [0x0408, 0x0409, 0x0001], s.Clear (.sysrd {} (.s 2) (.imm (w32 n))) xU ∧ uniform32 s xU (.imm (w32 n)) = n) ∧
    (let pmc := fun (k : Nat) => sget {} (s.core xU.p.core).pmcs k
     ((pmc 0).sel.getLsbD 14 = true ∧ (pmc 0).ctx = xU.p.ctx) ∧ (pmc 1).ctx ≠ xU.p.ctx) ∧
    (∃ w ∈ s.past, w.src = deviceIssuer) ∧ (∀ n ∈ [0x001A, 0x020A], sS.Clear (.sysrd {} (.s 2) (.imm (w32 n))) xS ∧ uniform32 sS xS (.imm (w32 n)) = n) := by
  refine ⟨rfl, rfl, fun n hn => ⟨clear_of rfl rfl ?_, ?_⟩, by decide, by decide, fun n hn => ⟨clear_of rfl rfl ?_, ?_⟩⟩
  · exact (by decide : ∀ n ∈ [0x0408, 0x0409, 0x0001], windowOk (.sysrd {} (.s 2) (.imm (w32 n))) xU.ms = true) n hn
  · simp only [List.mem_cons, List.not_mem_nil, or_false] at hn
    obtain rfl | rfl | rfl := hn <;> rfl
  · exact (by decide : ∀ n ∈ [0x001A, 0x020A], windowOk (.sysrd {} (.s 2) (.imm (w32 n))) xS.ms = true) n hn
  · simp only [List.mem_cons, List.not_mem_nil, or_false] at hn
    obtain rfl | rfl := hn <;> rfl

/-- A write that completes at once, and an END of the party of register PCTL while the gang's own store is open, which waits. -/
theorem wit_SystemWrites :
    (∀ n ∈ [0x0000, 0x0001, 0x0010, 0x0011, 0x0012], sS.Clear (.syswr {} (.imm (w32 n)) (.s 0)) xS ∧ uniform32 sS xS (.imm (w32 n)) = n) ∧ xS.g.level = true ∧
    (sS.sys.eqbase.getLsbD 63 = false ∧ sS.tables.eqWait = [] ∧ sS.tables.fqWait = []) ∧
    (match sS.sysWrite xS 0x0010 5 with | (.done, _) => true | _ => false) = true := by
  refine ⟨fun n hn => ⟨clear_of rfl rfl ?_, ?_⟩, rfl, ⟨by decide, rfl, rfl⟩, by decide⟩
  · exact (by decide : ∀ n ∈ [0x0000, 0x0001, 0x0010, 0x0011, 0x0012], windowOk (.syswr {} (.imm (w32 n)) (.s 0)) xS.ms = true) n hn
  · exact (by decide : ∀ n ∈ [0x0000, 0x0001, 0x0010, 0x0011, 0x0012], uniform32 sS xS (.imm (w32 n)) = n) n hn

set_option maxRecDepth 100000 in
/-- A write to CTXCTL that retires a context whose party has a command running waits. -/
theorem wit_SystemWrites_wait :
    let run : MillRun := { cmd := { id := 7, op := .swap, uid := 3, ctx := 1 } }
    let s : State := { sS with tables := { contexts := [(0, { num := 0 }), (1, { num := 1 })] }, parties := sS.parties ++ [{ xU.p with uid := 3, ctx := 1 }]
                               cores := [(0, { mill := { streaming := some run } })] }
    s.Clear (.syswr {} (.imm 0x28) (.s 0)) xS ∧ (match s.sysWrite xS 0x0028 (2 ^ 63 + 1) with | (.wait, _) => true | _ => false) = true :=
  ⟨⟨rfl, by decide, by decide, by decide⟩, by decide⟩

/-- An address of the Mill's image in a state, owned and not. -/
def ownedBy (s : State) (o : Option Nat) : State := { s with cores := [(0, { mill := { owner := o } })] }

theorem wit_StatusForms : xS.g.level = true ∧
    (∀ i ∈ [Instr.segwr {} (.s 1) (.s 2) (.s 4) .k, .rngwr {} (.s 1) (.s 0) 127 0, .rngwrClr {} (.s 1) 0 0, .tcinvRange {} (.s 1) (.s 2) (.s 0) 0, .tcinvRegion {} (.s 1) (.s 2) 63,
        .tcinvCtx {} (.s 1) 0, .tcinvRank {} (.s 1) 0, .mspill {} (.s 1) (.s 2)], sS.Clear i xS ∧ (ownedBy sS (some 0)).Clear i xS) ∧
    (∀ sp ∈ [Space.s, .c, .n, .g, .k, .f], (segIndex sp).isSome = true) ∧ sS.openAccess xS.uid xS.g = false ∧
    (match sS.invalidate xS 0 ⟨none, 0, 2 ^ 40⟩ with | (.done, _) => true | _ => false) = true ∧
    (fld (0 : DWord) 63 46 = 0 ∧ fld (2 ^ 46 : DWord) 63 46 ≠ 0) ∧
    sS.millAddrOk 0 = true ∧ (let m := (sS.core xS.p.core).mill; m.link = none ∧ m.queue = [] ∧ m.loading = none ∧ m.streaming = none ∧ m.owner = none) ∧
    ((ownedBy sS (some 0)).core xS.p.core).mill.owner = some 0 ∧ (ownedBy sS (some 0)).millAddrOk 0 = true := by
  refine ⟨rfl, fun i hi => ?_, by decide, by decide, by decide, by decide, by decide, ⟨rfl, rfl, rfl, rfl, rfl⟩, rfl, by decide⟩
  refine ⟨all_clear rfl rfl _ ?_ i hi, all_clear rfl rfl _ ?_ i hi⟩ <;> decide

set_option maxRecDepth 100000 in
/-- The operands of the forms that give a status: a segment's base on and off a multiple of 1 KiB; a register that names window 0 of context 0 and one
that names none; a range that meets it and one that does not; and pages with a holder at another device and without. -/
theorem wit_StatusForms_operands :
    (sS.segBad xS.p .s 0 16 = false ∧ sS.segBad xS.p .s 8 16 = true) ∧
    (let w : Window := { ctx := 0, region := 0, va := 0, ia := 0, size := 65536 }; let v : Window := { w with va := 2 ^ 20 }
     let s : State := { sS with tables := { sS.tables with windows := [(0, w)] } }
     uniform32 s xS (.op (.s 60)) = 0 ∧ sfind s.tables.windows 0 = some w ∧ w.ctx = 0 ∧ sfind sS.tables.windows 0 = none ∧
       rangesMeet w.va w.size w.va w.size = true ∧ rangesMeet v.va v.size w.va w.size = false) ∧
    (let h : Sharer := { ctx := 0, region := 1, page := 0, write := false, holders := [5] }
     sS.sharersIn 0 ⟨none, 0, 2 ^ 40⟩ = [] ∧ (∀ r ∈ (⟨none, 0, 2 ^ 40⟩ : PageSet).regions, sS.translatedOpen 0 r 0 (2 ^ 40) = false) ∧
       ({ sS with tables := { sS.tables with sharers := [h] } } : State).sharersIn 0 ⟨none, 0, 2 ^ 40⟩ ≠ []) :=
  ⟨by decide, by decide, by decide, by decide, by decide⟩

/-- A Mill image to read back. -/
def sFill : State := { sS with mem := memPut [] 0 (millImage {} 0) }

/-- The same with something in flight. -/
theorem all_clear_in {s : State} {x : Turn} (ht : s.turnOf = some x) (is : List Instr)
    (h : is.all (fun i => !s.mustTake i x && (!i.head.w || !s.outstanding x.uid x.g) && windowOk i x.ms) = true) : ∀ i ∈ is, s.Clear i x := fun i hi => by
  have := List.all_eq_true.1 h i hi
  simp only [Bool.and_eq_true, Bool.not_eq_true', Bool.or_eq_true] at this
  exact ⟨ht, this.1.1, fun hw => this.1.2.resolve_left (by simp [hw]), this.2⟩

theorem wit_StatusForms_mfill : sFill.Clear (.mfill {} (.s 1) (.s 2)) xS ∧ sFill.millAddrOk 0 = true ∧ ((sFill.core xS.p.core).mill.link = none ∧ (sFill.core xS.p.core).mill.owner = none) ∧
    (∃ bs e, sFill.readImage xS.p.core (View.join xS.view (xS.seen (·.millSeen))) 0 = (bs, sFill) ∧ sFill.poisonIn 0 millImageLen = false ∧ millOf bs = some e) ∧
    ({ sFill with poison := [0] } : State).poisonIn 0 millImageLen = true ∧
    (({ ownedBy sS (some 0) with cores := [(0, { mill := { queue := [{ id := 7, op := .swap, uid := 1, ctx := 0 }] } })] } : State).core xS.p.core).mill.queue ≠ [] := by
  refine ⟨clear_of rfl rfl (by decide), by decide, ⟨rfl, rfl⟩, ?_, by decide, by decide⟩
  have h : sFill.bytesAt 0 millImageLen = millImage {} 0 := by
    have := State.bytesAt_memPut sS 0 (millImage {} 0) rfl
    rwa [length_millImage] at this
  obtain ⟨e, he⟩ := Option.isSome_iff_exists.1 (millOf_millImage {} 0)
  refine ⟨_, e, State.readImage_settled sFill rfl (fun l => by simp [State.wild, sFill, sS, world, State.reset]) _ _ _, ?_, h ▸ he⟩
  simp [State.poisonIn, sFill, sS, world, State.reset]

/-- A counter at its threshold, below it, poisoned; the gang of the producer crew; another gang's access in flight; and a fence to wait for. -/
theorem wit_CounterForms : let sr : List Word := [0x1FFFF000, 0, 1, 0]
    let s : State := { sG (pG sr) with flight := [{ item .ready [.s 1] (.load .b32 1) with uid := 7 }] }; let x := xG sr
    supplier x.ms = some (fib 0) ∧ x.g.crew = x.p.producer ∧ x.g.redoWait = false ∧
    (∀ i ∈ [Instr.cntRd {} (.s 4) (.s 0) .acq .dev, .cntAdd {} (.s 4) (.s 0) (.op (.const 1)) true .rel .pod, .cntSet {} (.s 4) (.s 0) (.op (.s 2)) false .relaxed .dev,
      .trigAdd {} (.s 4) (.s 0) (.s 2) (.s 1) .dev 1, .trigTcopy {} (.s 4) (.s 0) (.s 2) (.s 1) true .dev, .trigA2av {} (.s 4) (.s 0) (.s 2) (.s 1) false .dev,
      .cntwait {} (.s 4) (.s 0) (.op (.s 2)) .acq .pod 15, .trigCancel {} (.s 4) (.s 0)], s.Clear i x) ∧
    (s.pendingFaults x.uid x.g = [] ∧ ((s.itemsOf x.uid x.g).any fun b => b.open_ && b.reads && ordAcquires b.ord && !b.aside) = false ∧ s.covered x = true ∧
      s.openReads x.uid x.g = false) ∧
    (let ref := uniform32 s x (.op (.s 0)); bits ref 31 29 = 0 ∧ refHere x.p.rank ref = true ∧ s.counterHome x.p.ctx (ref % 4096) = some (0, 0)) ∧
    offsetCheck x.p (uniform32 s x (.op (.s 1))) 64 = 0 ∧
    (((s.die 0).counter 0).poison = false ∧ cntOperand s x (.imm 0) ≤ ((s.die 0).counter 0).value ∧ ¬cntOperand s x (.op (.s 2)) ≤ ((s.die 0).counter 0).value) ∧
    (({ s with dies := [{ Die.reset with counters := [(0, { poison := true })] }] } : State).die 0).counter 0 = { poison := true } := 
  ⟨rfl, rfl, rfl, all_clear_in rfl _ (by decide), by decide, by decide, by decide, by decide, by decide⟩

/-- A block inside the segment, one past its end, one off a multiple of 16, and a Mill that context 3 owns. -/
theorem wit_MillForms :
    (∀ i ∈ [Instr.mload {} .bf16 (.s 2) (.op (.s 0)) false, .mswap {} (.s 2) true, .mrun {} .bf16 (.s 2) (.op (.s 0)) false, .mdelta {} .f32 (.s 2) (.op (.s 0)) false,
      .mepi {} .f32 (.s 2) (.op (.s 0)) false, .mchainLink {} (.s 2) false 15, .mchainJoin {} (.s 2) (.s 0) false, .mchainUnlink {} (.s 2) false, .maccz {} (.s 2) false 15,
      .maccrd {} (.v 2) (.s 0) 3 1, .slotbind {} (.s 2) (.op (.s 0)), .slotdrop {} (.s 2) (.op (.s 0)), .slotq {} (.s 4) (.op (.s 0))],
      (sU [0xFD0]).Clear i (xU [0xFD0]) ∧ (ownedBy (sU [0xFD0]) (some 3)).Clear i (xU [0xFD0])) ∧
    (0xFD0 % 16 = 0 ∧ 0xFD0 + 48 ≤ (xU.p.segLim.getD 0 0).toNat ∧ ¬(0xFE0 + 48 ≤ (xU.p.segLim.getD 0 0).toNat) ∧ ¬0xFD8 % 16 = 0) ∧
    (let m := (sU.core xU.p.core).mill; m.owner = none ∧ m.spilling = none ∧ m.queue.length < 16) ∧
    (sU.overtaken (.engine xU.p.core .mill) (requestPlace xU.g.effective xU.g.crew) = false ∧ sU.engineWaits xU.p.core .mill xU.uid = false ∧ xU.p.freeFuture.isSome = true) ∧
    (((ownedBy sU (some 3)).core xU.p.core).mill.owner = some 3 ∧ 3 ≠ xU.p.ctx ∧ ((ownedBy sU (some 3)).core xU.p.core).mill.isMember = false ∧
      ({ link := some { head := 0, pos := 1, len := 2, uid := 1 } } : Mill).isMember = true) := by
  refine ⟨fun i hi => ⟨all_clear rfl rfl _ ?_ i hi, all_clear rfl rfl _ ?_ i hi⟩, by decide, by decide, by decide, by decide⟩ <;> decide

/-- The same gang's party with a resolved future 0 and a pending future 1; a handle of each and a stale one. -/
def pF : Party := { partyOf (gangOf false [0, 0x10, 64, 1]) with futures := [(0, { state := .done }), (1, { state := .pending })] }
def xF : Turn := turnIn pF (gangOf false [0, 0x10, 64, 1])
/-- The command of future 1 in the Mill's queue. -/
def sF (q : List MillCmd) : State := { world pF with cores := [(0, { mill := { queue := q } })] }

theorem wit_PorterForms : let s := sF []; let x := xF; let p := pF
    supplier x.ms = some (fib 0) ∧
    (∀ i ∈ [Instr.tcopy {} (.s 6) (.op (.s 0)) false true, .a2av {} (.s 6) (.op (.s 0)) true false, .lseal {} (.s 6) (.s 0) (.s 1) false, .bseal {} (.s 6) (.op (.s 0)) true,
      .bwait {} (.op (.const 0)), .ftest {} (.s 6) (.s 0), .fwait {} (.s 6) (.s 3), .fcancel {} (.s 6) (.s 2)], s.Clear i x) ∧
    (x.g.crew = p.producer ∧ offsetCheck p (uniform32 s x (.op (.s 0))) 64 = 0 ∧ offsetCheck p 0xFF0 16 = 0 ∧ (s.core p.core).portQueued < 32 ∧
      s.recordsOwed p x.g.crew false 0 = false ∧ s.recordsOwed p x.g.crew true 0 = false ∧ s.engineWaits p.core .porter x.uid = false ∧ s.overtaken (.engine p.core .porter) (requestPlace x.g.effective x.g.crew) = false ∧
      (p.scoreBefore x.gid s.nextId = false ∧ (p.stream (x.g.number.getD 0)).full = false) ∧ p.freeFuture.isSome = true ∧ (s.claims p false 0).length ≤ p.freeScore.length ∧ (s.claims p true 0).length ≤ p.freeScore.length) ∧
    ((s.checkMem p (fib 0) x.g.level .s 0 64 false false).1 = 0 ∧ (s.checkMem p (fib 0) x.g.level .s 0x10 64 true false).1 = 0 ∧
      (s.checkMem p (fib 0) x.g.level .s 0x10 64 true false).2.2.flight = [] ∧
      (let y : State := { s with flight := [{ item .ready [] (.store [1]) with uid := 7 }] }; y.pendingFaults x.uid x.g = [] ∧ (∀ b ∈ y.flight, b.uid ≠ x.uid) ∧ y.queued (crewOf p x.g) + 2 ≤ 64)) ∧
    ((p.stream (x.g.number.getD 0)).sealed.length < 64 ∧ (p.stream (x.g.number.getD 0)).sealed.length ≤ 0 ∧
      0 < (({ p with streams := [(0, { sealed := [{ num := 0 }] })] } : Party).stream 0).sealed.length) ∧
    (p.handle 64 = none ∧ p.handle 0 = some 0 ∧ (p.future 0).resolved = true ∧ p.handle 1 = some 1 ∧ (p.future 1).resolved = false) ∧
    s.cancelCommand p.core x.uid 1 .mill = none ∧ p.fwaiters 1 = [] ∧
    ((sF [{ id := 7, op := .swap, uid := 1, ctx := 0, future := some 1 }]).cancelCommand p.core x.uid 1 .mill).isSome = true :=
  ⟨rfl, all_clear rfl rfl _ (by decide), by decide, by decide, by decide, by decide, by decide, by decide, by decide⟩

/-- Permits free and used up; a posted `mswap`, a posted `tcopy`. -/
theorem wit_OutriderPosts : let o := olOf [0, 0]; let e : Outrider := { o with mill := ⟨1, 1⟩, port := ⟨1, 1⟩, recs := ⟨1, 1⟩ }
    ((sOl o).OlRuns ⟨0, 0⟩ ∧ (sOl e).OlRuns ⟨0, 0⟩) ∧ ((sOl o).party? o.uid = some xU.p ∧ (sOl e).party? e.uid = some xU.p) ∧
    (o.mill.out < o.mill.limit ∧ o.port.out < o.port.limit ∧ o.recs.out < o.recs.limit ∧ e.mill.limit ≤ e.mill.out ∧ e.port.limit ≤ e.port.out ∧ e.recs.limit ≤ e.recs.out) ∧
    (match postInstr 641 0 false with | .ok e => (millFormOf e 0).isSome | _ => false) = true ∧
    (match postInstr 769 0 true with | .ok _ => true | _ => false) = true ∧
    (let s1 := (sOl o).fresh.2; s1.queueRoom ⟨0, 0⟩ .mill = true ∧ s1.queueRoom ⟨0, 0⟩ .porter = true ∧
      s1.overtaken (.engine ⟨0, 0⟩ .mill) (requestPlace 0 16) = false ∧ s1.overtaken (.engine ⟨0, 0⟩ .porter) (requestPlace 0 16) = false ∧ s1.engineWaits ⟨0, 0⟩ .mill 1 = false ∧ s1.engineWaits ⟨0, 0⟩ .porter 1 = false) :=
  ⟨⟨⟨rfl, rfl⟩, rfl, rfl⟩, ⟨rfl, rfl⟩, by decide, by decide, by decide, by decide⟩

/-- The device with this party at its gang's turn, on core 0 of die 0. -/
def pIdle : Party := partyOf { gangOf false with number := none }
def pMeet : Party := partyOf (gangOf false) [{ fib 0 with meet := some ⟨0x100, 3, List.replicate 64 0, {}⟩ }, { fib 1 with meet := some ⟨0x100, 3, List.replicate 64 0, {}⟩ }]
def pBin (st : BinState) : Party := { xU.p with bins := [(3, { state := st, recs := [⟨0, 0, 1⟩], order := 1 })] }

set_option maxRecDepth 100000 in
/-- A lane that holds nothing, and one whose gang fetches. -/
theorem wit_LaneEvents_fetch : let s := State.reset.withFetchWord 64 (Instr.nop {} .l64).raw.toNat; let s0 := ({ s with latch := none, agent := .none } : State)
    ((s0.mergeLane ⟨0, 0, 5⟩).chooseGang ⟨0, 0, 5⟩).isNone = true ∧
    (match (s0.mergeLane ⟨0, 0, 0⟩).chooseGang ⟨0, 0, 0⟩ with
      | some (q, k) => match (s0.mergeLane ⟨0, 0, 0⟩).fetchAt (if k.level then (s0.mergeLane ⟨0, 0, 0⟩).sys.sctx else q.ctx)
          ((if k.level then (s0.mergeLane ⟨0, 0, 0⟩).sys.scode else q.code) + (q.pcOf k).zeroExtend 64).toNat (q.pcOf k) q.known q.born k.walkView with
        | (.bytes _, _) => !k.level
        | _ => false
      | none => false) = true :=
  ⟨by decide, by decide⟩

theorem wit_LaneEvents_outrider : let s := State.reset.placeTables.placeOutrider; let o := (s.core ⟨0, 0⟩).outrider; let s0 := ({ s with latch := none, agent := .none } : State)
    o.running = true ∧ o.waiting = false ∧ s.unitBlocked (unitKey ⟨0, 0⟩ 3) = false ∧
    (match s.party? o.uid with
      | some q => !(q.ended || q.halted || q.suspended) && (match s0.fetchAt q.ctx (q.code + o.opc.zeroExtend 64).toNat o.opc (View.join q.known (s.core ⟨0, 0⟩).olView) q.born with
        | (.bytes _, _) => true
        | _ => false)
      | none => false) = true := ⟨by decide, by decide, by decide, by decide⟩

/-- Lanes without and with gangs that merge: two of the same level, each with a number; a held side with the lowest fibre. -/
theorem wit_LaneEvents_merge : (∀ u q, sU.party? u = some q → sU.mergeSets q 0 = [] ∧ q.gangs.all (!·.starting) = true) ∧
    (let h : Gang := { gangOf false with gid := 3, fibres := [] }
     xU.g.gid ≠ h.gid ∧ (sortBy xU.p.cfidOf (xU.g.fibres ++ h.fibres)).length ≤ 32 ∧ xU.g.fibres.contains ((sortBy xU.p.cfidOf (xU.g.fibres ++ h.fibres)).headD 0) = true ∧ xU.g.number ≠ none) ∧
    (let g : Gang := { gangOf false with number := none, fibres := [0] }; let h : Gang := { gangOf false with gid := 3, fibres := [1] }
     g.gid ≠ h.gid ∧ (sortBy xU.p.cfidOf (g.fibres ++ h.fibres)).length ≤ 32 ∧ g.fibres.contains ((sortBy xU.p.cfidOf (g.fibres ++ h.fibres)).headD 0) = true ∧
       ∃ f ∈ h.fibres, f ∉ g.fibres) := by
  refine ⟨fun u q h => ?_, ⟨by decide, by decide, by decide, by decide⟩, by decide, by decide, by decide, by decide⟩
  have hq : q ∈ [xU.p] := List.mem_of_find?_eq_some h
  rw [List.mem_singleton.1 hq]
  decide

set_option maxRecDepth 100000 in
theorem wit_LaneEvents :
    (sU.party? 1 = some xU.p ∧ xU.p.gang? 2 = some xU.g) ∧
    ((world pIdle).party? 1 = some pIdle ∧ (pIdle.gang? 2).isSome = true ∧ (pIdle.freeNumbers 0).head? = some 0 ∧
      ((pIdle.held 0).head?).isSome = true) ∧
    ((world pMeet).party? 1 = some pMeet ∧ (pMeet.fibres.map (·.fid)).Nodup ∧ pMeet.released 0 ≠ []) ∧ xU.p.released 0 = [] ∧
    (let s : State := { sU with growq := [(⟨0, 0, 0⟩, 1, 2)] }
     s.growq.find? (fun w => w.1 == ⟨0, 0, 0⟩) = some (⟨0, 0, 0⟩, 1, 2) ∧ growNeed (xU.p.growers xU.g) ≤ (s.freeBlocks ⟨0, 0, 0⟩).length) ∧
    (((pBin .filling).binAt 3).state = .filling ∧ ((pBin .filling).binAt 3).expiry < ({ world (pBin .filling) with clock := 1 } : State).clock.toNat ∧ (pBin .filling).suspended = false) ∧
    (let p := pBin .releasing; (p.gang? 2).isSome = true ∧ (world p).binToServe p = some 3 ∧ (p.halted || p.ended || p.suspended) = false) :=
  ⟨⟨rfl, rfl⟩, ⟨rfl, by decide, by decide, by decide⟩, ⟨rfl, by decide, by decide⟩, by decide, ⟨by decide, by decide⟩, ⟨by decide, by decide⟩, by decide⟩

/-- The gang's party with access 5 at the head of its crew's store queue. -/
def pQ : Party := { pG with crews := [{ num := 0, prio := 0, storeq := [[5]] }] }
def sQ (op : AccOp) : State := { sG pQ with flight := [{ item .ready [] op with parts := [⟨0, 4, .loc 0 none none⟩] }] }
def sSent : State := { sG (pG []) with flight := [{ item (.sent 0) [.s 0] (.load .b32 1) with parts := [⟨0, 4, .remote 3 1 0 1⟩, ⟨4, 4, .loc 0 none none⟩] }] }
def req (op : CntOp) : CntReq := { id := 6, ctx := 0, num := 1, op := op, access := none, src := {} }

/-- A result that is known; a load alone and one of two that aim at one register; each kind of store queue head, here and at another device; a walk; an answer
in time and one late; a deadline; an announcement; counters with a home and without; and a limit that passes. -/
theorem wit_AccessEvents :
    ((sU.party? 1 = some xU.p ∧ xU.p.gang? 2 = some xU.g) ∧
    (let a := item (.done [1] 0) [.s 0]; (sItem a).access? 5 = some a ∧ a.fid ≠ some engineFid ∧ a.aside = false) ∧
    (let a := item .ready [.s 0] (.load .b32 1); (sItem a).access? 5 = some a ∧ (sItem a).contended a = false ∧
      ({ sU with flight := [a, { a with id := 6 }] } : State).contended a = true) ∧
    (∀ op ∈ [AccOp.store [1, 2, 3, 4], .seal 0, .atom .add .b32 1, .cas .b32 1 2], let a := { item .ready [] op with parts := [⟨0, 4, .loc 0 none none⟩] }
      (pQ.crew? 0).bind Crew.head? = some 5 ∧ (sQ op).access? 5 = some a ∧ (sQ op).loadsBefore a = false ∧ (sQ op).lockedParts a = false ∧ (sQ op).behind a = false ∧ a.rels = [] ∧
        a.parts.any Part.isRemote = false) ∧
    (let a := { item .ready [] (.store [1, 2, 3, 4]) with parts := [⟨0, 4, .remote 3 1 0 1⟩] }; let s : State := { sG pQ with flight := [a] }
      s.access? 5 = some a ∧ s.loadsBefore a = false ∧ s.lockedParts a = false ∧ s.behind a = false ∧ a.parts.any Part.isRemote = true ∧ s.awaits a = false) ∧
    (let a := item (.refused 0x0E 1) []; (pQ.crew? 0).bind Crew.head? = some 5 ∧ ({ sG pQ with flight := [a] } : State).access? 5 = some a) ∧
    (let a := item .toWalk [.s 0] (.load .b32 1); (sItem a).access? 5 = some a ∧ a.op.isCopy = false ∧ a.aside = false) ∧
    ((sSent.access? (80 / 16)).any (fun a => a.stage == .sent 0 && (a.parts[80 % 16]?).any Part.isRemote) = true ∧ (80 : Nat) < 2 ^ 64 ∧ sSent.clock.toNat ≤ 0 ∧
      0 < ({ sSent with clock := 1 } : State).clock.toNat ∧ (sSent.access? (1600 / 16)).isNone = true ∧ (sSent.access? 5).isSome = true)) ∧
    (({ Die.reset with herald := [⟨0, 5, 0⟩] } : Die).herald = [⟨0, 5, 0⟩]) ∧
    (∀ op ∈ [CntOp.read, .add 1, .set 7], let s : State := { sG (pG []) with cntReqs := [req op] }
      s.cntReqs.find? (fun q => q.id == 6) = some (req op) ∧ s.cntBefore (req op) = false ∧ s.counterHome 0 1 = some (0, 1) ∧ (req op).access = none) ∧
    (sG (pG [])).counterHome 0 100 = none ∧
    ((0 : Nat) + 8 ≤ ({ sG (pG []) with clock := 8 } : State).clock.toNat ∧ (sG (pG [])).counterHome (pG []).ctx 1 = some (0, 1)) := by
  refine ⟨⟨⟨rfl, rfl⟩, ⟨rfl, by decide⟩, ⟨rfl, by decide, by decide⟩, ?_, ⟨rfl, by decide⟩, ⟨rfl, rfl⟩, ⟨rfl, rfl, rfl⟩, by decide⟩, rfl, ?_, by decide, by decide⟩
  · intro op h
    simp only [List.mem_cons, List.not_mem_nil, or_false] at h
    obtain rfl | rfl | rfl | rfl := h <;> exact ⟨rfl, rfl, by decide, by decide, by decide, rfl, rfl⟩
  · intro op h
    simp only [List.mem_cons, List.not_mem_nil, or_false] at h
    obtain rfl | rfl | rfl := h <;> exact ⟨by decide, by decide, by decide, rfl⟩

/-- The context of job 0 with region 63 as placed, and a packet to a page here and to one without a mapping. -/
def sJob : State := { State.reset.placeTables with tables := { State.reset.placeTables.tables with contexts := State.reset.placeTables.tables.contexts.map fun c => (c.1, { c.2 with job := some 9 }) } }
def pkt (job region : Nat) (op : PktOp) : Packet := { job := job, init := 3, region := region, offset := 64, op := op }
def held : Pending := { token := 8, ctx := 0, region := 63, page := 0, since := 0, inbound := [{ pkt 9 63 (.read 8) with tag := 1 }] }
def sHeld : State := { sJob with clock := 2500, tables := { sJob.tables with pending := [held] } }

set_option maxRecDepth 100000 in
theorem wit_CustomsEvents :
    (sJob.jobCtx? 8).isNone = true ∧
    (match sJob.jobCtx? 9 with
      | some k => (match sfind k.regions 63 with | some r => r.inb | none => false) &&
        (match sJob.translate k 63 64 (pktKind (.read 8)) (some 3) [] with | (.loc _ _ _, _) => true | _ => false) &&
        (match sJob.walk k 63 64 [] with | (.leaf _, _) => true | _ => false) && !(sJob.tables.pending.any fun e => e.ctx == k.num && e.region == 63 && e.page == k.pageOf 63 64)
      | none => false) = true ∧
    (64 % 65536 + pktSpan (.read 8) ≤ 65536 ∧ (0 : Nat) < 3) ∧
    (sHeld.pendingOf 8 = some held ∧ (8 : Nat) < 2 ^ 32 ∧ held.lastHold + 2500 ≤ sHeld.clock.toNat ∧ (sJob.tables.sharers.find? fun h => h.ctx == 0 && h.region == 63 && h.page == 0) = none ∧
      sJob.tables.sharers.length < 65536) ∧
    (let h : Sharer := { ctx := 0, region := 63, page := 0, write := false, holders := [5] }
     ({ sJob with tables := { sJob.tables with sharers := [h] } } : State).tables.sharers.find? (fun h => h.ctx == 0 && h.region == 63 && h.page == 0) = some h ∧
      h.write = false ∧ h.holders.length < 8 ∧ ∃ r ∈ h.holders, r ≠ 6) ∧
    (let a := { item (.sent 0) [.s 0] (.load .b32 1) with parts := [⟨0, 4, .remote 3 63 64 1⟩] }
     match sJob.jobCtx? 9 with
      | some k => ({ sJob with flight := [a] } : State).pageBusy k 63 0 3 && !sJob.pageBusy k 63 0 3
      | none => false) = true :=
  ⟨by decide, by decide, by decide, ⟨by decide, by decide, by decide, by decide, by decide⟩, ⟨by decide, by decide, by decide, by decide⟩, by decide⟩

set_option maxRecDepth 100000 in
/-- A packet to a page that lies at device 3. -/
theorem wit_CustomsEvents_peer : let s := (sJob.poke placedRoot (leBytes 64 (2 ^ 63 + 2 ^ 62 + 2 ^ 61 + 2 ^ 60 + 3 * 2 ^ 41))).poke (8192 + 192) (leBytes 32 (2 ^ 63) ++ leBytes 32 (2 ^ 15))
    (match s.jobCtx? 9 with
      | some k => (match s.translate k 63 64 (pktKind (.read 8)) (some 3) [] with | (.peer 3 _ _, _) => true | _ => false)
      | none => false) = true := by decide

/-- A directory that is full, and a page with eight holders. -/
theorem wit_CustomsEvents_full : let h : Sharer := { ctx := 0, region := 9, page := 0, write := false, holders := [5] }
    let s : State := { sJob with tables := { sJob.tables with sharers := List.replicate 65536 h } }
    let k : Sharer := { ctx := 0, region := 63, page := 0, write := false, holders := List.range 8 }
    let t : State := { sJob with tables := { sJob.tables with sharers := [k] } }
    (s.jobCtx? 9).isSome = true ∧ (s.tables.sharers.find? fun h => h.ctx == 0 && h.region == 63 && h.page == 0) = none ∧ 65536 ≤ s.tables.sharers.length ∧
    (t.tables.sharers.find? fun h => h.ctx == 0 && h.region == 63 && h.page == 0) = some k ∧ 9 ∉ k.holders ∧ 8 ≤ k.holders.length :=
  ⟨by decide, List.find?_eq_none.2 fun x hx => by rw [List.eq_of_mem_replicate hx]; decide, List.length_replicate.ge, by decide, by decide, by decide⟩

set_option maxRecDepth 100000 in
/-- A page that is no replica, and one that is. -/
theorem wit_CustomsEvents_replica : let d : Replica := { role := false, ctx := 0, home := 5, ranks := [5] }
    let s := ({ sJob with tables := { sJob.tables with replicas := [(0, d)] } } : State).poke placedRoot (leBytes 64 (2 ^ 63 + 2 ^ 61 + 2 ^ 60 + 2 ^ 59 + 2 ^ 57 + placedFrame))
    (match sJob.jobCtx? 9 with
      | some c => (match sJob.replicaLeaf c 63 64 [] with | (.error _, _) => true | _ => false) && (match s.replicaLeaf c 63 64 [] with | (.ok _, _) => true | _ => false)
      | none => false) = true := by decide

set_option maxRecDepth 100000 in
/-- An entry that holds a packet and a lock, past its interval. -/
theorem wit_CustomsEvents_held : let e : Pending := { held with inbound := held.inbound ++ [{ pkt 9 63 (.read 8) with tag := 1, init := 3 }], locks := [(63, 64, ⟨5, 7⟩, [1])] }
    let s : State := { sHeld with tables := { sHeld.tables with pending := [e] } }
    s.pendingOf 8 = some e ∧ e.lastHold + 2500 ≤ s.clock.toNat ∧ (∃ b ∈ e.inbound, b.init ≠ hostInit ∧ b.tag ≠ 0) ∧ e.locks ≠ [] := by decide

def cmdOf (op : MillOp) : MillCmd := { id := 7, op := op, uid := 1, ctx := 0 }
/-- The device with a Mill and the ports' queues of core 0 as given, and two more cores' Mills. -/
def sMill (k : Core) (others : Sparse Core := []) : State := { sG (pG []) with cores := (0, k) :: others }
def runOf (op : MillOp) (off : Bool := false) : MillRun := { cmd := cmdOf op, offered := off }
def portOf (a2av : Bool := false) : PortCmd := { id := 7, a2av := a2av, uid := 1, ctx := 0, off := 0x1000 }
def xferOf (coll : Option Nat := none) (abort : Option Nat := none) : Transfer := { slot := 2, cmd := portOf, shape := [], coll := coll, abort := abort }

theorem wit_EngineEvents :
    (let s := sMill { waiting := [.mill (cmdOf .swap)] };
      (s.engineLine ⟨0, 0⟩ .mill).head? = some (.mill (cmdOf .swap)) ∧ s.queueRoom ⟨0, 0⟩ .mill = true) ∧
    (let p := { pG [] with score := [⟨0, 0, 0, 0, 16, false, 7⟩] };
      let s : State := { sG p with cores := [(0, { waiting := [.port portOf] })] };
      (s.engineLine ⟨0, 0⟩ .porter).head? = some (.port portOf) ∧ s.queueRoom ⟨0, 0⟩ .porter = true ∧ s.party? 1 = some p ∧
      (p.score.any fun x => x.owner == portOf.id) = true) ∧
    (let s := sMill { mill := { queue := [cmdOf .swap] } };
      s.unitBlocked (unitKey ⟨0, 0⟩ (MillUnit.key .streaming)) = false ∧ (s.core ⟨0, 0⟩).mill.nextFor .streaming = some (0, cmdOf .swap) ∧ s.party? 1 = some (pG [])) ∧
    (let c := cmdOf (.bind 0xFF8); let s := sMill { mill := { queue := [c] } };
      (s.core ⟨0, 0⟩).mill.nextFor .streaming = some (0, c) ∧ c.op.blockAt = some (0xFF8, 16) ∧ ((pG []).segLim.getD 0 0).toNat < 0xFF8 + 16) ∧
    (∀ op ∈ [MillOp.swap, .zero 3, .run .bf16 0, .epi .f32 0, .delta .f32 0, .bind 0, .query 3], let s := sMill { mill := { streaming := some (runOf op) } }
      (s.core ⟨0, 0⟩).mill.streaming = some (runOf op) ∧ s.engineHeld 7 = false ∧ (s.core ⟨0, 0⟩).mill.mustFollow (runOf op) = false ∧ s.unitBlocked (unitKey ⟨0, 0⟩ 1) = false ∧ s.party? 1 = some (pG []) ∧ (pG []).ended = false) ∧
    (let s := sMill { mill := { streaming := some (runOf (.link 2)) } }; (s.core ⟨0, 0⟩).mill.streaming = some (runOf (.link 2)) ∧ 1 < 2 ∧ s.offer ⟨0, 1⟩ 0 = none) ∧
    (let s := sMill { mill := { streaming := some (runOf (.link 2)) } } [(1, { mill := { streaming := some (runOf (.join 0) true) } })];
      (s.offer ⟨0, 1⟩ 0).isSome = true ∧ (s.core ⟨0, 1⟩).mill.owner = (s.core ⟨0, 0⟩).mill.owner) ∧
    (8 ≤ ({ xfers := List.replicate 8 xferOf } : Core).xfers.length) ∧
    (let s := sMill { normal := [portOf] }; (s.core ⟨0, 0⟩).xfers.length < 8 ∧ s.unitBlocked (unitKey ⟨0, 0⟩ 2) = false ∧ (s.core ⟨0, 0⟩).nextXfer = some (portOf, 0) ∧
      s.party? portOf.uid = some (pG [])) ∧
    (let s := sMill { xfers := [xferOf] }; s.xferAt ⟨0, 0⟩ 2 = some xferOf ∧ s.collOf ⟨0, 0⟩ xferOf = none ∧
      xferOf.abort = none ∧ xferOf.held = false ∧ xferOf.coll = none ∧ ({ xferOf with placed := [3] } : Transfer).placed.contains 3 = true) ∧
    (let x := { xferOf with held := true }; let s := sMill { xfers := [x] }; s.xferAt ⟨0, 0⟩ 2 = some x ∧ s.party? x.cmd.uid = some (pG []) ∧ x.abort = none) ∧
    (let x := xferOf (some 4) (some 1); let e : Collective := { idx := 4, ctx := 0, coll := 1, seq := 1, core := ⟨0, 0⟩, xfer := 7 };
      let s : State := { sMill { xfers := [x] } with dies := [{ Die.reset with colls := [e] }, Die.reset, Die.reset, Die.reset] };
      s.xferAt ⟨0, 0⟩ 2 = some x ∧ s.collOf ⟨0, 0⟩ x = some e ∧ x.abort = some 1) ∧
    (let b : Batch := { num := 0 }; let p := { pG [] with streams := [(3, { sealed := [b] })] };
      (sG p).party? 1 = some p ∧ (p.stream 3).sealed = b :: [] ∧ b.left = 0 ∧ b.roff = none ∧ p.image = none) ∧
    (let b : Batch := { num := 0, roff := some 16 }; let p := { pG [] with streams := [(3, { sealed := [b] })] };
      (sG p).party? 1 = some p ∧ (p.stream 3).sealed = b :: [] ∧ b.left = 0 ∧ b.roff = some 16 ∧ p.image = none ∧ p.ended = false ∧ Memory.wf (sG p).mem = true ∧
      ∀ w ∈ touchedUnits (locScratch p.core ((p.segBase.getD 0 0).toNat + 16)) 16, w ∉ (sG p).failing) := by
  refine ⟨by decide, by decide, by decide, by decide, ?_, ⟨by decide, by decide, by decide⟩, by decide, by decide, by decide, by decide, by decide, by decide, by decide, by decide⟩
  intro op h
  simp only [List.mem_cons, List.not_mem_nil, or_false] at h
  obtain rfl | rfl | rfl | rfl | rfl | rfl | rfl := h <;> decide

/-- A gang that waits for an entry; no store of the Porter is on its way to a replica; the head of a link runs on. -/
theorem wit_EngineEvents_gang : let r : EngineReq := .gang .mill 1 2 (.mswap {} (.s 2) true); let s := sMill { waiting := [r] }
    (s.engineLine ⟨0, 0⟩ .mill).head? = some r ∧ s.queueRoom ⟨0, 0⟩ .mill = true ∧
    ((s.onCore ⟨0, 0⟩ fun k => { k with waiting := k.waiting.erase r }).turnFor 1 2).any (fun x => !x.g.replaying) = true ∧
    s.replicating (engineIssuer .port (pG []) ⟨0, 0⟩) = false ∧ s.alive (runOf (.link 2)) = true := by decide

/-- A part of an extent at a place of this device. -/
def partAt (l n : Nat) : Part := ⟨l, n, .loc l none none⟩

/-- A load of one column of one element; what it has read. -/
def loadRun : MillRun := { cmd := cmdOf (.load .bf16 0), cores := [⟨0, 0⟩], reads := [[partAt 0 2]] }

def sLoadRun : State := { sMill { mill := { loading := some loadRun } } with mem := [(1, 0x3F)] }

def runRun : MillRun := { cmd := cmdOf (.run .bf16 0), cores := [⟨0, 0⟩], reads := [[partAt 0 2]] }

def sRunRun : State := { sMill { mill := { streaming := some runRun, active := planeD } } with mem := [(1, 0x3F)] }

def epiRun : MillRun := { cmd := cmdOf (.epi .f32 0), cores := [⟨0, 0⟩], begun := true, dest := [[partAt 1024 512]] }

def sEpiRun : State := sMill { mill := { streaming := some epiRun } }

def slotE : Slot := { slot0 with idx := 0, klen := 1 }

def deltaRun : MillRun := { cmd := cmdOf (.delta .bf16 0), cores := [⟨0, 0⟩], reads := [[partAt 0 2]], slot := some 0 }

def sDeltaRun : State := { sMill { mill := { streaming := some deltaRun, active := planeD } } with mem := [(1, 0x3F)], dies := [{ Die.reset with slots := [slotE] }, Die.reset, Die.reset, Die.reset] }

/-- What a running command of a unit needs to have its effect. -/
def runs (s : State) (u : MillUnit) (r : MillRun) : Bool :=
  (match u with | .loading => (s.core ⟨0, 0⟩).mill.loading | .streaming => (s.core ⟨0, 0⟩).mill.streaming) == some r && !s.engineHeld r.cmd.id &&
  !(s.core ⟨0, 0⟩).mill.mustFollow r && !s.unitBlocked (unitKey ⟨0, 0⟩ (MillUnit.key u)) && (s.party? r.cmd.uid == some (pG [])) && !(pG []).ended

set_option maxRecDepth 100000 in
/-- A load and a run whose one element is within reach, neither poisoned. -/
theorem wit_EngineEvents_load : runs sLoadRun .loading loadRun = true ∧ (loadRun.cores.map coreKey).Nodup ∧
    (let x := loadBlock loadRun.block; x.k0 + x.kn ≤ 512 ∧
      let g := sLoadRun.gather ⟨0, 0⟩ (pG []) loadRun (elemUnit .bf16) loadRun.reads
      g.1.any anyWait = false ∧ causeOf g.1.flatten = 0 ∧
        ∀ y ∈ (g.2.readExtents (g.2.millView ⟨0, 0⟩ (pG []) loadRun.cmd) (elemUnit .bf16) (g.1.take (128 * 1))).1, (elems .bf16 y).length ≤ x.kn) :=
  ⟨by decide, by decide, by decide, by decide, by decide, by decide⟩

set_option maxRecDepth 100000 in
theorem wit_EngineEvents_run : runs sRunRun .streaming runRun = true ∧ (runRun.cores.map coreKey).Nodup ∧
    (let x := runBlock runRun.block; let g := sRunRun.fetchRows ⟨0, 0⟩ (pG []) runRun .bf16 x (List.range x.m)
      (∀ r ∈ g.1, r.wait = false ∧ r.cause = 0) ∧
        (match (g.2.readRows ⟨0, 0⟩ (pG []) runRun .bf16 x.klen g.1).1 with
        | (row, bad) :: _ => !bad && (row.all fun y => y.any fun z => !z.2) && !((sRunRun.core ⟨0, 0⟩).mill.tile x.acc).isPoison 0 0 &&
            ((List.range row.length).all fun j => !(sRunRun.core ⟨0, 0⟩).mill.active.isPoison 0 j) && decide (0 < tileN (runFmt .bf16))
        | [] => false) = true) :=
  ⟨by decide, by decide, by decide, by decide⟩

set_option maxRecDepth 100000 in
/-- An epilogue that has begun, to one row of memory without errors. -/
theorem wit_EngineEvents_epi : runs sEpiRun .streaming epiRun = true ∧ (let x := epiBlock epiRun.block; let dst := [((1024 : Nat), (1024 : Nat))]
    isMx .f32 = false ∧ epiRun.begun = true ∧ epiRun.fault = 0 ∧ epiRun.count = none ∧ epiRun.member < epiRun.cores.length ∧ sEpiRun.pieces epiRun.cmd.id = [] ∧ x.bias = false ∧
    x.act < 3 ∧ epiRun.dest = dst.map (fun d => [⟨d.1, elemBytes .f32 (tileN ((sEpiRun.core ⟨0, 0⟩).mill.tile x.acc).fmt), .loc d.2 none none⟩]) ∧ dst.length = x.m ∧
    (∀ d ∈ dst, ∀ w ∈ touchedUnits d.2 512, w ∉ sEpiRun.failing) ∧ Memory.wf sEpiRun.mem = true) :=
  ⟨by decide, by decide, rfl, rfl, rfl, by decide, by decide, by decide, by decide, by decide, rfl, by decide, by decide⟩

set_option maxRecDepth 100000 in
/-- An invocation whose input is within reach. -/
theorem wit_EngineEvents_delta : runs sDeltaRun .streaming deltaRun = true ∧ (deltaRun.cores.map coreKey).Nodup ∧ slotE.m ≤ 128 ∧
    ((sDeltaRun.die 0).slots.find? fun y => some y.idx == deltaRun.slot) = some slotE ∧
    (let g := (sDeltaRun.setRun ⟨0, 0⟩ .streaming fun y => { y with live := some 0 }).gather ⟨0, 0⟩ (pG []) deltaRun (elemUnit .bf16) deltaRun.reads
     g.1.any anyWait = false ∧ causeOf g.1.flatten = 0 ∧
       let r := g.2.readExtents (g.2.millView ⟨0, 0⟩ (pG []) deltaRun.cmd) (elemUnit .bf16) g.1
       slotE ∈ (r.2.die 0).slots ∧ 0 < r.2.dies.length) :=
  ⟨by decide, by decide, by decide, by decide, by decide, by decide, by decide, by decide⟩

/-- A shape record (reduction of mode, 2 by 1 by 1 ranks, collective 1), a layout of one f32 element, and an exchange block of two ranks. -/
def shapeBytes (mode : Nat) : List Byte := leBytes 4 (8 * 2 ^ 28 + mode * 2 ^ 26 + 2 ^ 23 + 1) ++ leBytes 16 0 ++ leBytes 4 1 ++ leBytes 4 (2 ^ 22) ++ leBytes 36 1
def layoutBytes : List Byte :=
  leBytes 4 (7 * 2 ^ 28 + Ty.code .f32 * 2 ^ 20) ++ leBytes 4 0 ++ leBytes 8 64 ++ leBytes 4 1 ++ leBytes 4 1 ++ leBytes 4 1 ++ leBytes 4 1 ++
  leBytes 4 4 ++ leBytes 4 4 ++ leBytes 4 4 ++ leBytes 4 4 ++ leBytes 8 (1 + 2 ^ 16 + 2 ^ 32 + 2 ^ 48) ++ leBytes 8 (2 ^ 16)
def collX (mode : Nat) (a2av : Bool := false) : Transfer :=
  { slot := 2, cmd := portOf a2av, shape := shapeBytes mode, src := layoutBytes, dst := layoutBytes, segBase := List.replicate 6 0, segLim := List.replicate 6 0x1000, coll := some 4 }

/-- A copy of one element within a scratchpad, from offset 64 to offset 128, and what it reads, may write and finds there. -/
def copyX : Transfer := { collX 0 with coll := none, dst := layoutBytes.take 8 ++ leBytes 8 128 ++ layoutBytes.drop 16 }

def sCopy : State := { sMill { xfers := [copyX] } with mem := [(2 ^ 39 + 64, 7)] }

def copyRuns : List Run := pieceRuns (copyX.pairs 0) 0

def copyRead : PieceEnd × List Tagged × State :=
  sCopy.portFetch copyX (pG []) (State.portView copyX (pG [])) (engineSpace (layoutOf copyX.src).sp) (copyRuns.map fun r => (r.src, r.len))

def copyTo : Option (List (List Part)) × State :=
  copyRead.2.2.engineAll (copyX.party (pG [])) (engineSpace (layoutOf copyX.dst).sp) true (copyRuns.map fun r => (r.dst, r.len))

def copyAt : List (List (Part × PieceEnd)) × State := copyTo.2.portLocate copyX (pG []) (copyTo.1.getD [])

def copyRows : List (Part × Tagged) := (copyAt.1.zip copyRead.2.1).flatMap fun d => splitTagged (d.1.map (·.1)) d.2

set_option maxRecDepth 100000 in
theorem wit_EngineEvents_place :
    (sCopy.xferAt ⟨0, 0⟩ 2 = some copyX ∧ sCopy.party? copyX.cmd.uid = some (pG []) ∧ copyX.abort = none ∧ copyX.held = false ∧ copyX.coll = none) ∧
    (let h := shapeOf copyX.shape
     copyX.placed.contains 0 = false ∧ copyX.failed.contains 0 = false ∧ 0 < (layoutOf copyX.src).tiles ∧ (h.targets 0).contains 0 = true ∧ copyRuns ≠ [] ∧
       h.rankOf 0 = (pG []).rank ∧ h.aen = false) ∧
    copyRead.1 = .ok ∧ copyTo.1.isSome = true ∧ copyAt.2.xferAt ⟨0, 0⟩ 2 = some copyX ∧
    ((copyAt.1.flatten.all fun d => decide (d.2 = .ok) && (match d.1.place with | .loc _ none none => true | _ => false)) = true ∧ copyAt.1.flatten ≠ []) ∧
    (copyRows.length = 1 ∧ ∀ d ∈ copyRows, d.2.length = d.1.len) ∧ copyAt.2.failing = [] ∧ Memory.wf copyAt.2.mem = true :=
  ⟨by decide, by decide, by decide, by decide, by decide, by decide, by decide, by decide, by decide⟩

def collE : Collective := { idx := 4, ctx := 0, coll := 1, seq := 1, core := ⟨0, 0⟩, xfer := 7, self := 0, begun := true, unacked := [⟨msgId 0 4 5, 0, 1250⟩] }
def collS (mode : Nat) (a2av : Bool := false) (e : Collective := collE) : State :=
  { sMill { xfers := [collX mode a2av] } with dies := [{ Die.reset with colls := [e] }, Die.reset, Die.reset, Die.reset] }
def collM : MsgHead := { job := 9, coll := 1, seq := 1, src := 1 }
def tileM : TileMsg := { tile := 0, bitmap := 2, bytes := [0, 0, 0, 0], poison := [false] }

set_option maxRecDepth 100000 in
theorem wit_CollectiveEvents :
    (∀ s ∈ [(collS 1, collX 1), (collS 2, collX 2), (collS 1 true, collX 1 true)], s.1.collAt collM = some (0, collE, s.2, pG [])) ∧
    (collE.abort = none ∧ collE.begun = true ∧ (pG []).ended = false ∧ (collX 1).cmd.a2av = false ∧ (collX 1 true).cmd.a2av = true) ∧
    (0 < (layoutOf (collX 1).src).tiles ∧ (shapeOf (collX 1).shape).owner 0 = collE.self ∧
      tileM.bitmap = 2 ^ collM.src ∧
      (match (collS 1).applyTile (collX 1) (pG []) ⟨0, 0⟩ collE collM.src tileM with | (.ok, _) => true | _ => false) = true) ∧
    (({ tileM with bitmap := 6 } : TileMsg).bitmap ≠ 2 ^ collM.src ∧ (collS 1).steward.negfeat.getLsbD 33 = false) ∧
    ((collS 1 false { collE with idx := 5, coll := 2 }).collAt collM = none ∧ ((collS 1).jobCtx? collM.job).isSome = true ∧ (collS 1).tables.early = []) ∧
    ((shapeOf (collX 2).shape).mode = 2 ∧ 0 < (layoutOf (collX 2).dst).tiles ∧ ({ collE with finals := [0] } : Collective).finals.contains 0 = true ∧ collE.finals.contains 0 = false ∧ collE.busy 0 = false ∧
      (match (collS 2).chunkParts (collX 2) (pG []) 0 with | (.ok, _, _) => true | _ => false) = true) ∧
    ((collS 1).xferAt ⟨0, 0⟩ 2 = some (collX 1) ∧ (collS 1).collOf ⟨0, 0⟩ (collX 1) = some collE) ∧ sfind collE.counts collM.src = none ∧ collE.replyOf collM.src = none := by
  refine ⟨?_, by decide, ⟨by decide, by decide, by decide, by decide⟩, ⟨by decide, by decide⟩, ⟨by decide, by decide, rfl⟩,
    ⟨by decide, by decide, by decide, by decide, by decide, by decide⟩, ⟨by decide, by decide⟩, by decide, by decide⟩
  intro s h
  simp only [List.mem_cons, List.not_mem_nil, or_false] at h
  obtain rfl | rfl | rfl := h <;> decide

/-- Elements of each end of a list; a tile that waits for its chunk. -/
theorem wit_CollectiveEvents_combine : 0 < Ty.width .bf16 / 8 ∧ [(0 : Byte), 1, 2, 3].length = [(4 : Byte), 5, 6, 7].length ∧ (1 + 1) * 2 ≤ [(0 : Byte), 1, 2, 3].length ∧
    Ty.isFloat .bf16 = true ∧ Ty.isFloat .i16 = false ∧ ({ tileM with bitmap := 6 } : TileMsg).bitmap ≠ 2 ^ collM.src ∧
    ({ Steward.reset with negfeat := 2 ^ 33 } : Steward).negfeat.getLsbD 33 = true ∧ (shapeOf (collX 1).shape).det = false := by decide

/-- A packet of one unit of one fibre, and its launch. -/
def packetOf (company : Nat) : List Byte := leBytes 4 (2 ^ 24 + company * 2 ^ 23 + 2 ^ 14) ++ leBytes 4 0 ++ leBytes 4 1 ++ leBytes 244 0
def launchOf (st : LaunchState) (company : Nat := 0) : Launch := { idx := 6, ctx := 0, id := 0, packet := packetOf company, state := st }
def sLive (l : Launch) (c : Context := { num := 0 }) : State := { State.reset with live := [l], tables := { contexts := [(0, c)] } }
/-- A party whose gang waits for its `launch`, the request on its way to queue 0 of a context. -/
def pReq : Party := partyOf { gangOf false with wait := some (.launch 5) }
def sReq (d : LaunchQueue) : State :=
  { world pReq with tables := { contexts := [(0, { num := 0, queues := [(0, d)] })] }, flight := [item .ready [.s 0] (.copy 0 0)]
                    requests := [{ id := 5, uid := 1, gid := 2, ctx := 0, q := 0, addr := 0, core := ⟨0, 0⟩, lane := 0 }] }
/-- The placed code with a queue over it that holds one packet. -/
def sRead : State :=
  let c := { (sJob.ctx? 0).getD { num := 0 } with queues := [(0, { en := true, size := 1, base := w64 placedVa, tail := 1 })] }
  sJob.setCtx c

set_option maxRecDepth 100000 in
theorem wit_LaunchEvents :
    ((sReq { en := true }).ctx? 0).isSome = true ∧
    (let s := sReq {}; (s.requests.find? (fun r => r.id == 5)).isSome = true ∧ (s.access? 5).isSome = true ∧ s.party? 1 = some pReq ∧
      (pReq.gang? 2).bind (·.wait) = some (.launch 5) ∧ (s.gang? 1 2).isSome = true ∧ (∀ o ∈ s.requests, o.id = 5) ∧
      (∀ o ∈ s.requests, (pReq.crews.any fun e => e.storeq.flatten.any o.owed.contains) = false ∧ s.overtaken (.queue o.ctx o.q) o.place = false)) ∧
    ((sReq {}).launchable 0 0 = false ∧ (∀ d ∈ [({ en := true, size := 2 } : LaunchQueue), { en := true, size := 0, tail := 1 }],
      (sReq d).launchable 0 0 = true ∧ ((sReq d).ctx? 0).map (·.queueAt 0) = some d)) ∧
    (2 ^ ({ en := true, size := 0, tail := 1 } : LaunchQueue).size ≤ ((1 : Word) - 0).toNat ∧ ((0 : Word) - 0).toNat < 2 ^ 2) ∧
    (supplier (pReq.ownersOf (item .toWalk [.s 0] (.copy 0 0)))).isSome = true ∧
    (State.reset.nextQueue).isNone = true ∧
    (match sRead.nextQueue with
      | some (c, 0) => (c.queueAt 0).stop.isNone &&
        (match sRead.cpLocate c (c.num, 0) ((c.queueAt 0).base.toNat + 256 * ((c.queueAt 0).head.toNat % 2 ^ (c.queueAt 0).size)) 256 false with
        | (.ok rs, t) => !t.partsPoison rs && t.packetCause c (t.partsBytes rs) != 0
        | _ => false)
      | _ => false) = true ∧
    (State.reset.packetCause { num := 0 } (packetOf 0) = 0 ∧ pkEdges (packetOf 0) = [] ∧
      (match State.reset.readLists { num := 0 } 0 false [] with | (.done [] true true, _) => true | _ => false) = true) ∧
    (let l := launchOf .waiting; (sLive l).launch? 6 = some l ∧ l.state = .waiting ∧ (∀ e ∈ l.edges, e.waits = none) ∧ ((sLive l).ctx? l.ctx).isSome = true) ∧
    (let l := launchOf .placing; l.left = true ∧ (sLive l).unitFits l ⟨0, 0⟩ 0 = true ∧ (sLive l).mayPlace l = true ∧ (sLive l).mustReserve l = false ∧
      (sLive l).unitFits l ⟨4, 0⟩ 0 = false) ∧
    (let l := { launchOf .placing 1 with ready := 1 }; let s : State := { sLive l with clock := 65536 };
      l.left = true ∧ pkUnit l.packet = true ∧ s.firstLaunch.map (·.idx) = some 6 ∧ l.reserve = none ∧ 0 < l.ready ∧ l.ready - 1 + 65536 ≤ s.clock.toNat ∧
      (s.die 0).avail.getD 0 false = true ∧ (∀ m ∈ s.live, m.reserve ≠ some (0, 0))) ∧
    (let l := { launchOf .placing with next := 1, placed := 1, ended := 1 };
      l.finished = true ∧ pkDoneaddr l.packet = 0 ∧ ((sLive l).tables.pending.any fun e => e.queues.contains (64, l.idx)) = false) ∧
    (let p := { xU.p with withdraw := [16] }; (world p).party? 1 = some p ∧ p.suspended = false ∧ p.launch = none ∧ Memory.wf (world p).mem = true ∧
      ∀ u ∈ touchedUnits (locScratch p.core ((p.segBase.getD 0 0).toNat + 16)) 16, u ∉ (world p).failing) ∧
    (let p := { xU.p with fibres := [], gangs := [] }; (world p).party? 1 = some p ∧ p.suspended = false ∧ p.retired = false ∧ p.fibres = [] ∧ p.bins = [] ∧
      ((world p).outriderRuns p && !p.ended) = false ∧ (world p).commandsDone p = true ∧ p.company = false) := by
  refine ⟨by decide, by decide, by decide, by decide, by decide, by decide, by decide, by decide, by decide,
    ⟨by decide, by decide, by decide, by decide, by decide⟩, by decide, by decide, by decide, by decide⟩

set_option maxRecDepth 100000 in
/-- A unit left, none left, and a launch that has failed; a party of the launch that is over; and the device's records flow. -/
theorem wit_LaunchEvents_answers : let p := { xU.p with withdraw := [16], launch := some 6 }; let s := fun (l : Launch) => ({ world p with live := [l] } : State)
    (∀ l ∈ [launchOf .placing, { launchOf .placing with next := 1 }, { launchOf .placing with status := 2 }], (s l).unitBlocked unitCommand = false ∧ (s l).party? 1 = some p ∧
      (s l).launch? 6 = some l ∧ p.suspended = false ∧ Memory.wf (s l).mem = true ∧ ∀ u ∈ touchedUnits (locScratch p.core ((p.segBase.getD 0 0).toNat + 16)) 16, u ∉ (s l).failing) ∧
    ((launchOf .placing).err = false ∧ (launchOf .placing).status = 0 ∧ (launchOf .placing).next < pkNunits (launchOf .placing).packet ∧
      pkNunits (launchOf .placing).packet ≤ 1) ∧
    (let q := { xU.p with fibres := [], gangs := [], launch := some 6 }; let t : State := { world q with live := [launchOf .placing] }
     t.party? 1 = some q ∧ q.suspended = false ∧ q.entering = none ∧ q.retired = false ∧ q.over_ = true ∧ (t.outriderRuns q && !q.ended) = false ∧ t.commandsDone q = true ∧
      q.company = false ∧ t.launch? 6 = some (launchOf .placing)) := by
  refine ⟨fun l h => ?_, by decide, by decide⟩
  simp only [List.mem_cons, List.not_mem_nil, or_false] at h
  obtain rfl | rfl | rfl := h <;> exact ⟨by decide, rfl, rfl, rfl, by decide, by decide⟩

set_option maxRecDepth 100000 in
/-- A `launch` whose queue has room, its packet to copy within reach. -/
theorem wit_LaunchEvents_copy : let s := sReq { en := true, size := 2 }; let a := item .ready [.s 0] (.copy 0 0)
    (s.launchable 0 0 = true ∧ ((0 : Word) - 0).toNat < 2 ^ 2) ∧ (supplier (pReq.ownersOf a)).isSome = true ∧
    (∀ o ∈ s.requests, o.id ≠ 5 → o.ctx = 0 → o.q = 0 → ∃ k, s.gang? o.uid o.gid = some k ∧ k.wait = some (.launch o.id)) :=
  ⟨by decide, by decide, by decide⟩

def sTdat (d : List DWord) (c : Context := { num := 0 }) : State := { State.reset with sys := { State.reset.sys with tdat := d }, tables := { contexts := [(0, c)] } }

/-- TACC values that read and write each kind of entry, and TDAT words that the entry takes and refuses. -/
theorem wit_TableEvents_port :
    ((0 : DWord).getLsbD 61 = false ∧ zeroes 0 49 32 = true ∧ (State.reset.tableEntry 0).isSome = true ∧ State.reset.tableEntry 64 = none) ∧
    (∀ k < 4, let v := w64 (2 ^ 61 + k * 2 ^ 56); v.getLsbD 61 = true ∧ zeroes v 49 32 = true ∧ fld v 60 56 = k ∧ fld v 31 0 = 0) ∧
    (regionOf (w64 (2 ^ 39)) 0 = none ∧ (match regionOf (w64 (2 ^ 63 + 2 ^ 58)) 16 with | some (some _) => true | _ => false) = true) ∧
    ((sTdat [0, 0, 0, 0] ctxG).windowCopied 0 = true ∧ State.reset.windowCopied 0 = false ∧
      windowOfWords (w64 (2 ^ 45)) 0 0 = none ∧ (windowOfWords (w64 (2 ^ 63)) 0 (w64 (2 ^ 16))).isSome = true ∧ (windowOfWords 0 0 (w64 (2 ^ 16))).isSome = true) ∧
    (State.reset.writeContext 0 1 0 = none ∧ (State.reset.writeContext 0 0 0).isSome = true) ∧
    (replicaOf [1, 0, 0, 0] = none ∧ (match replicaOf [w64 (2 ^ 63 + 2 ^ 62), 0, 0, 0] with | some (some _) => true | _ => false) = true) :=
  ⟨by decide, by decide, by decide, by decide, by decide, by decide⟩

/-- CMACC over an entry that is there and one that is free, VWIN past the last counter and within, and the other registers. -/
theorem wit_TableEvents_registers : let v := w64 (2 ^ 61 + 2 ^ 60)
    (v.getLsbD 61 = true ∧ v.getLsbD 60 = true ∧ ((sTdat [] ctxG).cmapEntry v).isSome = true ∧ State.reset.cmapEntry v = none ∧ ∀ e ∈ State.reset.allCtxs, ∀ k ∈ e.cmap, k.2 ≠ (0, 0)) ∧
    ((w64 (2 ^ 61)).getLsbD 60 = false ∧ ((sTdat [] ctxG).cmapEntry (w64 (2 ^ 61))).isSome = true) ∧
    (let w := w64 (65535 * 2 ^ 28 + 2); 65536 < fld w 43 28 + fld w 11 0) ∧
    (let w := w64 (65535 * 2 ^ 28 + 1); fld w 43 28 + fld w 11 0 ≤ 65536 ∧ (∀ e ∈ (sTdat []).allCtxs, e.num ≠ fld w 61 56 → rangesMeet e.vbase e.vsize (fld w 43 28) (fld w 11 0) = false) ∧
      ∀ e ∈ State.reset.dies, ∀ k ∈ e.slots, k.ctx ≠ fld w 61 56) ∧
    (3 < 4 ∧ 8 < fld (9 : DWord) 3 0 ∧ 63 < 64 ∧ 15 < 16 ∧ ({ en := true } : LaunchQueue).en = true) :=
  ⟨⟨by decide, by decide, by decide, by decide, by decide⟩, by decide, by decide, by decide, by decide⟩

/-- An arena that holds a slot. -/
theorem wit_TableEvents_arena :
    let k : Slot := { idx := 0, ctx := 0, slot := 0, key := 0, wgrp := 0, unchk := false, k := 32, m := 128, klen := 32, l := 1, base := 0, size := 0 }
    (({ State.reset with dies := [{ Die.reset with slots := [k] }] } : State).die 0).slots ≠ [] := List.cons_ne_nil _ _

/-- A write of a region attribute while an access translated under it is open, and when none is. -/
theorem wit_TableEvents_open : let v := w64 (2 ^ 61)
    let s : State := { sTdat [0, 0, 0, 0] with flight := [{ item .ready [] (.load .b32 1) with parts := [⟨0, 4, .loc 0 none none⟩] }] }
    fld v 60 56 = 0 ∧ s.regionOpen v = true ∧ (sTdat [0, 0, 0, 0]).regionOpen v = false := by decide

/-- Carves that fit and one that a grant forbids; grants that fit and one past the carve; an arena at the top of its die. -/
theorem wit_TableEvents_carve : let s : State := { sTdat [] { num := 0, ngrant := [(0, (0, 1024))] } with dies := [{ Die.reset with nearcarve := 1 }, Die.reset, Die.reset, Die.reset] }
    (Memory.wf s.mem = true ∧ 0 < s.dies.length) ∧
    (fld (0 : DWord) 3 0 = 0 ∧ ∃ e ∈ s.allCtxs, ∃ g, sfind e.ngrant 0 = some g ∧ 0 * 2 ^ 26 < (g.1 + g.2) * 2 ^ 16) ∧
    (fld (8 : DWord) 3 0 = 8 ∧ ∀ e ∈ s.allCtxs, (e.ngrant.all fun g => decide ((g.2.1 + g.2.2) * 2 ^ 16 ≤ 8 * 2 ^ 26)) = true) ∧
    (let v := w64 (2047 * 2 ^ 21 + 1 * 2 ^ 9); fld v 20 9 ≤ 2048 ∧ 0 * 2 ^ 37 ≤ fld v 38 21 * 2 ^ 21 ∧ (fld v 38 21 + fld v 20 9) * 2 ^ 21 ≤ (0 + 1) * 2 ^ 37 ∧ (s.die 0).slots = []) ∧
    ((s.ctxAny 0).num = 0 ∧ (s.die 0).nearcarve * 2 ^ 26 < (fld (1025 : DWord) 29 16 + fld (1025 : DWord) 13 0) * 2 ^ 16 ∧
      (fld (1024 : DWord) 29 16 + fld (1024 : DWord) 13 0) * 2 ^ 16 ≤ (s.die 0).nearcarve * 2 ^ 26 ∧
      (∀ e ∈ s.allCtxs, e.num = 0) ∧ s.parties = []) := by
  refine ⟨⟨by decide, by decide⟩, ⟨by decide, _, List.mem_cons_self, (0, 1024), rfl, by decide⟩, by decide, ⟨by decide, by decide, by decide, rfl⟩, by decide⟩

/-- A party that is off its core, with its image in memory: a header alone, with the checksum that its bytes give. -/
def pSaved : Party := { xU.p with core := ⟨4, 0⟩, suspended := true, fibres := [], gangs := [] }
def crcSaved : Nat := (crc32c (imageHeader pSaved false 1 0 64 0)).toNat
def sSaved : State :=
  { world { pSaved with image := some crcSaved } with tables := { (world pSaved).tables with images := [⟨crcSaved, { pSaved with image := some crcSaved }, []⟩] }, mem := memPut [] (2 ^ 22) (imageHeader pSaved false 1 0 64 crcSaved) }

set_option maxRecDepth 100000 in
theorem wit_TableEvents_parties : let v := fun op => w64 (op * 2 ^ 61 + 2 ^ 22)
    (∀ op < 5, pctlOp (v op) = op) ∧ (State.reset.partyAt (pctlCore (v 1)) (pctlSlot (v 1))).isNone = true ∧
    (sU.partyAt (pctlCore (v 1)) (pctlSlot (v 1)) = some xU.p ∧ (sU.suspendSet xU.p).any (fun b => b.gangs.any (·.level)) = false ∧ xU.p.suspended = false ∧
      sU.areasOk (pctlArea (v 1)) (sU.suspendSet xU.p).length = true) ∧
    (sS.partyAt (pctlCore (v 1)) (pctlSlot (v 1)) = some xS.p ∧ (sS.suspendSet xS.p).any (fun b => b.gangs.any (·.level)) = true ∧ xS.p.suspended = false) ∧
    ({ State.reset with dies := [{ Die.reset with arenaBase := 2, arenaSize := 16 }] } : State).areasOk (pctlArea (v 2)) 1 = false ∧
    (State.reset.areasOk (pctlArea (v 2)) 1 = true ∧ State.reset.imageSet (pctlArea (v 2)) = none) ∧
    (match sSaved.imageSet (pctlArea (v 2)) with
      | some ps => sSaved.areasOk (pctlArea (v 2)) ps.length && (ps.all fun x => sSaved.roomFor x.party (restoreTarget (v 2) ps.length x.party)) &&
        (sSaved.restoreAll (v 2) ps.length 0 ps).isSome
      | none => false) = true := by
  refine ⟨by decide, by decide, ⟨by decide, by decide, by decide, by decide⟩, ⟨by decide, by decide, by decide⟩, by decide, ⟨by decide, by decide⟩, by decide⟩

/-- A party that has stopped, alone in its set, with nothing on its way; with a store on its way; and one that has ended. -/
def pStop : Party := { xU.p with suspended := true }

set_option maxRecDepth 100000 in
theorem wit_TableEvents_suspend : let v := w64 (2 ^ 61 + 2 ^ 22); let s := world pStop
    let o : State := { s with flight := [openStore] }
    (pctlOp v = 1 ∧ s.partyAt (pctlCore v) (pctlSlot v) = some pStop ∧ (s.suspendSet pStop).filter (fun b => !b.ended) ≠ [] ∧
      ((s.suspendSet pStop).filter fun b => !b.ended).filter (·.suspended) = [pStop] ∧ (s.takeMill pStop).settled pStop = true ∧ Memory.wf s.mem = true) ∧
    (o.partyAt (pctlCore v) (pctlSlot v) = some pStop ∧ ((o.suspendSet pStop).filter fun b => !b.ended).filter (·.suspended) = [pStop] ∧
      (o.takeMill pStop).settled pStop = false) ∧
    (let e := world { xU.p with ended := true }; e.partyAt (pctlCore v) (pctlSlot v) = some { xU.p with ended := true } ∧
      (e.suspendSet { xU.p with ended := true }).filter (fun b => !b.ended) = []) ∧
    (({ sU with dies := [{ Die.reset with arenaBase := 2, arenaSize := 16 }] } : State).areasOk (pctlArea v) 1 = false) :=
  ⟨by decide, by decide, by decide, by decide⟩

set_option maxRecDepth 100000 in
/-- A restore whose set is placed with nothing to enter, one that waits for a queue, one without room, and one that has placed its set before. -/
theorem wit_TableEvents_restore : let v := w64 (2 * 2 ^ 61 + 2 ^ 22)
    pctlOp v = 2 ∧ sSaved.entered v = [] ∧ sSaved.areasOk (pctlArea v) 1 = true ∧
    (match sSaved.imageSet (pctlArea v) with
      | some xs => sSaved.areasOk (pctlArea v) xs.length && (match sSaved.restoreAll v xs.length 0 xs with
        | some t => !(t.entered v).any (·.returning) && !(t.entered v).isEmpty
        | none => false)
      | none => false) = true ∧
    (let s : State := { sSaved with dies := [{ Die.reset with coreMap := [coreLost] }] }
     match s.imageSet (pctlArea v) with
      | some xs => s.areasOk (pctlArea v) xs.length && (xs.head?.any fun x => !s.roomFor x.party (restoreTarget v xs.length x.party)) && (s.restoreAll v xs.length 0 xs).isNone
      | none => false) = true ∧
    (let p := { xU.p with suspended := true, returning := true, entering := some (pctlArea v) }; let q := { p with returning := false }
     ((world p).entered v).any (·.returning) = true ∧ (world q).entered v ≠ [] ∧ ((world q).entered v).any (·.returning) = false) :=
  ⟨by decide, by decide, by decide, by decide, by decide, by decide⟩

theorem wit_TableEvents_contexts : let s := sTdat []
    ctxctlOp (w64 (2 ^ 62)) = 1 ∧ (ctxctlOp (w64 (2 ^ 63)) = 2 ∧ ctxctlCtx (w64 (2 ^ 63)) = s.sys.sctx ∧ ctxctlCtx (w64 (2 ^ 63 + 1)) ≠ s.sys.sctx) ∧
    (let t : State := { s with sys := { s.sys with sctx := 5 } }; 0 ≠ t.sys.sctx ∧ (t.retireParties 0).parties.any (fun p => p.ctx == 0) = false) ∧
    ctxctlOp (w64 (3 * 2 ^ 62)) = 3 ∧ (s.ctx? 0).isSome = true := by decide

theorem wit_TableEvents_retire : let v := w64 (2 ^ 63)
    let t : State := { sTdat [] with sys := { State.reset.sys with sctx := 5 } }
    let run : MillRun := { cmd := { id := 7, op := .swap, uid := 1, ctx := 0 } }
    let r : State := { world xU.p with sys := { State.reset.sys with sctx := 5 }, cores := [(0, { mill := { streaming := some run } })] }
    ctxctlOp v = 2 ∧ ctxctlCtx v ≠ t.sys.sctx ∧
    ((((t.retireParties 0).retireLaunches 0).retireParties 0).parties.any (fun p => p.ctx == 0)) = false ∧
    ((((r.retireParties 0).retireLaunches 0).retireParties 0).parties.any (fun p => p.ctx == 0)) = true := by decide

theorem wit_ErrorEvents :
    ((sU.parties.find? (fun p => p.core == ⟨0, 0⟩ && p.fibres.any fun f => f.crew == 0 && f.blocks.contains 1)).isSome = true) ∧
    (let s := State.reset; (0 < 4 ∧ 63 < 64) ∧ (s.die 0).spare.getD (companyOf 63) false = true ∧ s.coreWorks ⟨0, 63⟩ = true ∧ s.resident ⟨0, 63⟩ = [] ∧
      (s.die 0).avail.getD 3 false = true ∧ 15 < 16 ∧ s.onCores 0 3 [15] = [] ∧
      (({ s with dies := s.dies.map fun d => { d with spare := d.spare.set 3 false } } : State).die 0).spare.getD 3 true = false) ∧ (1 ≠ 3 ∧ max 1 3 < 4) := by decide

/-- A state with every record ready to go, and one whose unit waits with a record. -/
theorem wit_ErrorEvents_units : State.reset.unitBlocked unitSteward = false ∧ State.reset.unitBlocked (unitErrors 3) = false ∧
    (∀ u ∈ [unitSteward, unitErrors (siteDie (.device 0))], ∃ s : State, s.unitBlocked u = true) := by
  refine ⟨by decide, by decide, fun u hu => ?_⟩
  exact ⟨{ State.reset with tables := { State.reset.tables with eqWait := [([], u)] } }, by simp [State.unitBlocked]⟩

/-- The Steward with a command waiting. -/
def stew (code : Nat) (w : Steward := Steward.reset) : Steward := { w with cmd := w32 (2 ^ 31 + code) }

/-- The boot stage, ports up and down, protected and not, and each mailbox command with an argument it takes and one it does not. -/
theorem wit_StewardEvents : let w := Steward.reset; let q : Port := { up := true }; let p : Port := { up := true, prot := true, keyTx := some 1, keyRx := some 2 }
    (w.offline = false ∧ 0 = w.boot ∧ (0 : Nat) ≤ 5) ∧ (23 < 24 ∧ (State.reset.port 23).cause = 0 ∧ (State.reset.port 23).up = false ∧ 15 < 16 ∧ 3 < 4 ∧ 1 < 2) ∧
    ((({ State.reset with ports := [(15, q)] } : State).port 15).up = true ∧ (({ State.reset with ports := [(15, q)] } : State).port 15).prot = false) ∧
    (let r := ({ State.reset with ports := [(15, p)] } : State).port 15; r.up = true ∧ r.prot = true ∧ r.keyTx = some 1 ∧ r.keyRx = some 2 ∧ r.txseq.toNat + 1 < 2 ^ 62) ∧
    bit State.reset.sys.hbmask.toNat 63 = false ∧
    (∀ code < 8, (stew code).cmd.getLsbD 31 = true ∧ (stew code).len ≤ 1024 ∧ (stew code).cmd.toNat % 65536 = code ∧ (stew code).offline = false ∧ ({ stew code with offline := true } : Steward).offline = true) ∧
    (leNat ((stew 2).req 0 1) < 7 ∧ (let v := { stew 2 with request := [(0, 15)] }; ¬(leNat (v.req 0 1) < 7 ∨ 15 < leNat (v.req 0 1) ∨ leNat (v.req 1 3) ≠ 0))) ∧
    (leNat ((stew 3).req 0 2) < 400 ∧ (let v := { stew 3 with request := [(0, 144), (1, 1)] }; ¬(leNat (v.req 0 2) < 400 ∨ 3200 < leNat (v.req 0 2) ∨ leNat (v.req 2 2) ≠ 0))) :=
  ⟨by decide, by decide, by decide, by decide, by decide, by decide, by decide, by decide⟩

set_option maxRecDepth 100000 in
/-- An SPDM exchange far enough to ask for measurement 16; a device of the pod to reach through this one. -/
theorem wit_StewardEvents_more : (let w : Steward := { Steward.reset with spdm := { stage := 3 } }; w.spdm.stage = 3 ∧ (15 : Nat) < 16 ∧
      leAt [(0x13 : Byte), 0xE0, 0, 16] 1 1 = 0xE0 ∧ leAt [(0x13 : Byte), 0xE0, 0, 16] 3 1 = 15 + 1) ∧
    (let s : State := { sJob with sys := { sJob.sys with hbmask := 1 } }; bit s.sys.hbmask.toNat 0 = true ∧ ((s.ctx? 0).bind (·.job)).isSome = true) ∧
    (1024 < ({ stew 4 with len := 1025 } : Steward).len ∧ (stew 4).cmd.toNat % 65536 = 4) ∧
    ((State.reset.port 23).down = false ∧ ({ up := false, down := true } : Port).down = true ∧ ({ Steward.reset with offline := true } : Steward).offline = true) := by decide

theorem wit_DecodeEncodes : (Instr.nop {} .l64).wf = true ∧ privileged (.nop {} .l64) = false ∧ (Instr.syswr {} (.imm 0x10) (.s 0)).wf = true ∧
    privileged (.syswr {} (.imm 0x10) (.s 0)) = true ∧ (Instr.olnext {}).wfOutrider = true := by decide

theorem wit_DecodeChecks : (let r := Raw.ofNat 0; r.len = 0) ∧ (let r : Raw := { (Instr.nop {} .l64).raw with op := 1023 }; r.len ≠ 0 ∧ r.op / 64 = 15) ∧
    (let r := (Instr.syswr {} (.imm 0x10) (.s 0)).raw; r.len ≠ 0 ∧ r.op / 64 = 14 ∧ bit r.op 5 = true) ∧
    (let r : Raw := { (Instr.nop {} .l64).raw with op := 63 }; r.len ≠ 0 ∧ r.op / 64 ≠ 15 ∧ r.op / 64 ≠ 14 ∧ parse r = none) ∧
    decode false (Instr.nop {} .l64).raw = .ok (.nop {} .l64) := by decide

set_option maxRecDepth 100000 in
/-- A register field that breaks its rule under a reserved modifier; a word with a reserved bit; a form of the Outrider alone. -/
theorem wit_DecodeChecks_operands : (∃ i, parse (Instr.olnext {}).raw = some i ∧ i.outriderOnly = true) ∧
    (let i := Instr.iadd {} .i64 (.const 0) (.reserved 480) (.op (.v 3)) {}; parse i.raw = some i ∧ i.outriderOnly = false ∧ i.operandsOk = false) ∧
    (let i := Instr.iadd {} .i64 (.v 3) (.v 2) (.op (.v 4)) {}; parse i.raw = some i ∧ Ty.is64 .i64 = true ∧ 3 % 2 = 1 ∧ i.operandsOk = false) ∧
    (let i := Instr.iadd {} .i32 (.v 3) (.v 2) (.op (.v 4)) {}; let r : Raw := { i.raw with c := 1, len := 1, x := i.raw.x + 2 ^ 12 }
      parse r = some i ∧ i.outriderOnly = false ∧ i.operandsOk = true ∧ r.fieldsOk = true ∧ i.raw ≠ r ∧ i.modifiersOk = true) ∧
    (∀ p g, sU.party? 1 = some p → p.gang? 2 = some g → g.level = false) ∧ (Instr.nop {} .l64).raw.op / 64 ≠ 14 := by
  refine ⟨⟨.olnext {}, by decide, by decide⟩, by decide, by decide, by decide, fun p g hp hg => ?_, by decide⟩
  cases hp; cases hg; rfl

/-- Whether an occurrence fetches a `nop`, for a gang or for an Outrider. -/
def fetches (s : State) (i : Instr) (o : Bool) : Bool :=
  match exec i s with
  | .next t => match t.latch with
    | some (.gang u g, bs) => !o && decode ((t.gang? u g).any (·.level)) (Raw.ofBytes bs) == .ok (.nop {} .l64)
    | some (.outrider _, bs) => o && decodeOutrider (Raw.ofBytes bs) == .ok (.nop {} .l64)
    | _ => false
  | _ => false

set_option maxRecDepth 100000 in
theorem wit_StepRunsDecoded : let s := State.reset.withFetchWord 64 (Instr.nop {} .l64).raw.toNat; let r := (State.reset.placeTables.poke placedFrame (encode (.nop {} .l64))).placeOutrider
    let due := fun (s : State) (o : Bool) => match s.agenda with
      | x :: rest => fetches (({ s.pass x.after with agenda := rest } : State).comes x.what) x.what o
      | [] => match s.choice with
        | some i => fetches ((s.pass 1).comes i) i o
        | none => false
    due s false = true ∧ due r true = true ∧ due { s with agenda := [] } false = true := ⟨by decide, by decide, by decide⟩

theorem wit_StepKeepsSafe : State.reset.Safe ∧ ∃ t, step State.reset = .next t := ⟨⟨by decide, rfl, rfl⟩, _, rfl⟩

end Sys2Proof.Tests
end

namespace Sys2Proof

/-! ### Fields of a number -/

/-- A field below what is added reads as before. -/
@[simp] theorem bits_below {x y k hi lo : Nat} (h : hi < k) : bits (x + y * 2 ^ k) hi lo = bits x hi lo := by
  obtain ⟨j, rfl⟩ := Nat.exists_eq_add_of_le h
  unfold bits
  by_cases hl : lo ≤ hi
  · obtain ⟨w, rfl⟩ := Nat.exists_eq_add_of_le hl
    have e : x + y * 2 ^ (lo + w + 1 + j) = x + 2 ^ lo * (2 ^ (w + 1) * (y * 2 ^ j)) := by ring
    rw [e, Nat.add_mul_div_left _ _ (Nat.two_pow_pos lo), show lo + w + 1 - lo = w + 1 by omega, Nat.add_mul_mod_self_left]
  · rw [show hi + 1 - lo = 0 by omega, pow_zero, Nat.mod_one, Nat.mod_one]

/-- The topmost field reads back. -/
@[simp] theorem bits_at {x y hi lo : Nat} (hx : x < 2 ^ lo) (hy : y < 2 ^ (hi + 1 - lo)) : bits (x + y * 2 ^ lo) hi lo = y := by
  rw [bits, Nat.add_mul_div_right _ _ (Nat.two_pow_pos lo), Nat.div_eq_of_lt hx, Nat.zero_add, Nat.mod_eq_of_lt hy]

/-- A field that stands alone reads back. -/
@[simp] theorem bits_alone {y hi lo : Nat} (hy : y < 2 ^ (hi + 1 - lo)) : bits (y * 2 ^ lo) hi lo = y := by
  simpa using bits_at (x := 0) (Nat.two_pow_pos lo) hy

/-- The lowest field reads back. -/
@[simp] theorem bits_low {x hi : Nat} (hx : x < 2 ^ (hi + 1)) : bits x hi 0 = x := by
  simpa using bits_alone (lo := 0) hx

/-- Above everything there is, a field is zero. -/
theorem bits_above {x hi lo : Nat} (hx : x < 2 ^ lo) : bits x hi lo = 0 := by
  rw [bits, Nat.div_eq_of_lt hx, Nat.zero_mod]

/-- Below a field that stands alone there is nothing. -/
@[simp] theorem bits_below_alone {y k hi lo : Nat} (h : hi < k) : bits (y * 2 ^ k) hi lo = 0 := by
  simpa [bits] using bits_below (x := 0) (y := y) (lo := lo) h

theorem bit_eq_bits (x k : Nat) : bit x k = (bits x k k == 1) := by simp [bit, bits]

theorem b2n_lt (b : Bool) : b2n b < 2 := by cases b <;> decide
@[simp] theorem b2n_beq_one (b : Bool) : (b2n b == 1) = b := by cases b <;> rfl

/-- A bit below what is added reads as before. -/
@[simp] theorem bit_below {x y k j : Nat} (h : j < k) : bit (x + y * 2 ^ k) j = bit x j := by
  rw [bit_eq_bits, bits_below h, ← bit_eq_bits]

/-- The topmost bit reads back. -/
@[simp] theorem bit_at {x k : Nat} {b : Bool} (hx : x < 2 ^ k) : bit (x + b2n b * 2 ^ k) k = b := by
  rw [bit_eq_bits, bits_at hx (by simpa using b2n_lt b), b2n_beq_one]

/-- A bit that stands alone reads back. -/
@[simp] theorem bit_alone {k : Nat} {b : Bool} : bit (b2n b * 2 ^ k) k = b := by
  simpa using bit_at (x := 0) (Nat.two_pow_pos k)

/-- Above everything there is, a bit is clear. -/
theorem bit_above {x k : Nat} (hx : x < 2 ^ k) : bit x k = false := by
  rw [bit_eq_bits, bits_above hx]; rfl

/-! The same for a field that holds 1. -/

@[simp] theorem bits_below_pow {x k hi lo : Nat} (h : hi < k) : bits (x + 2 ^ k) hi lo = bits x hi lo := by
  simpa using bits_below (y := 1) h
@[simp] theorem bits_at_pow {x hi lo : Nat} (hx : x < 2 ^ lo) (h : lo ≤ hi) : bits (x + 2 ^ lo) hi lo = 1 := by
  simpa using bits_at (y := 1) hx (Nat.one_lt_two_pow (by omega))
@[simp] theorem bits_pow {hi lo : Nat} (h : lo ≤ hi) : bits (2 ^ lo) hi lo = 1 := by
  simpa using bits_at_pow (x := 0) (Nat.two_pow_pos lo) h
@[simp] theorem bit_below_pow {x k j : Nat} (h : j < k) : bit (x + 2 ^ k) j = bit x j := by
  simpa using bit_below (y := 1) h
@[simp] theorem bit_at_pow {x k : Nat} (hx : x < 2 ^ k) : bit (x + 2 ^ k) k = true := by
  simpa [b2n] using bit_at (b := true) hx

/-! ### Words -/

/-- Every field of a word is within its place, and those that its length has not are 0 (02 R23). -/
structure Raw.Fits (r : Raw) : Prop where
  len : 1 ≤ r.len ∧ r.len ≤ 3
  w   : r.w < 2
  gn  : r.gn < 2
  gd  : r.gd < 8
  ge  : r.ge < 2
  op  : r.op < 1024
  d   : r.d < 512
  a   : r.a < 512
  b   : r.b < 512
  x   : r.x < 2 ^ 19
  imm : r.imm < 2 ^ 32
  c   : r.c < 512
  ext : r.ext < 2 ^ 55
  noImm : r.len ≠ 2 → r.imm = 0
  noC   : r.len ≠ 3 → r.c = 0
  noExt : r.len ≠ 3 → r.ext = 0

theorem Raw.toNat_lt {r : Raw} (h : r.Fits) : r.toNat < 256 ^ lenBytes r.len := by
  obtain ⟨hlen, hw, hgn, hgd, hge, hop, hd, ha, hb, hx, himm, hc, hext, -, -, -⟩ := h
  have : r.len = 1 ∨ r.len = 2 ∨ r.len = 3 := by omega
  unfold Raw.toNat
  rcases this with h | h | h <;> simp [h, lenBytes] <;> omega

theorem Raw.ofNat_toNat {r : Raw} (h : r.Fits) : Raw.ofNat r.toNat = r := by
  obtain ⟨hlen, hw, hgn, hgd, hge, hop, hd, ha, hb, hx, himm, hc, hext, h2, h3, h4⟩ := h
  obtain ⟨len, w, gn, gd, ge, op, d, a, b, x, imm, c, ext⟩ := r
  dsimp only at *
  have : len = 1 ∨ len = 2 ∨ len = 3 := by omega
  rcases this with rfl | rfl | rfl
  all_goals
    simp at h2 h3 h4
    simp (disch := omega) only [Raw.ofNat, Raw.toNat, bits_below, bits_at, bits_low, h2, h3, h4, ← Nat.add_assoc, reduceIte, Nat.reduceEqDiff, add_zero, -Nat.reducePow]

end Sys2Proof

namespace Sys2Proof

/-! ### Bytes -/

theorem leNat_append (a b : List Byte) : leNat (a ++ b) = leNat a + 256 ^ a.length * leNat b := by
  induction a with
  | nil => simp [leNat]
  | cons x a ih => simp only [List.cons_append, leNat, ih, List.length_cons]; ring

/-- Bytes that begin with those of `x`, taken up to that length or further, have a value whose low bytes are `x`. -/
theorem leNat_take_leBytes {x n k : Nat} (hx : x < 256 ^ n) (hk : n ≤ k) (rest : List Byte) :
    ∃ y, leNat ((leBytes n x ++ rest).take k) = x + 256 ^ n * y := by
  refine ⟨leNat (rest.take (k - n)), ?_⟩
  rw [List.take_append, List.take_of_length_le (by simpa using hk), leNat_append, Machine.leNat_leBytes, Nat.mod_eq_of_lt hx,
    Machine.length_leBytes]

theorem leNat_take_leBytes_self {x n : Nat} (hx : x < 256 ^ n) (rest : List Byte) :
    leNat ((leBytes n x ++ rest).take n) = x := by
  rw [List.take_append_of_le_length (by simp), List.take_of_length_le (by simp), Machine.leNat_leBytes, Nat.mod_eq_of_lt hx]

/-- LEN stands in the low bits, so that more bytes read do not change it (02 R24). -/
theorem Raw.len_ofNat_add (x n y : Nat) (hn : 1 ≤ n) : (Raw.ofNat (x + 256 ^ n * y)).len = (Raw.ofNat x).len := by
  obtain ⟨m, rfl⟩ := Nat.exists_eq_add_of_le hn
  have e : x + 256 ^ (1 + m) * y = x + (64 * 256 ^ m * y) * 2 ^ 2 := by ring
  exact (congrArg (bits · 1 0) e).trans (bits_below (by decide))

/-- A word's bytes are read back as the word, whatever follows (02 R22, R24). -/
theorem Raw.ofBytes_bytes {r : Raw} (h : r.Fits) (rest : List Byte) : Raw.ofBytes (r.bytes ++ rest) = r := by
  have hlt := Raw.toNat_lt h
  have hself := leNat_take_leBytes_self hlt rest
  have hlen : (Raw.ofNat (leNat ((r.bytes ++ rest).take 16))).len = r.len := by
    obtain ⟨y, hy⟩ := leNat_take_leBytes (k := 16) hlt (by unfold lenBytes; split <;> decide) rest
    rw [Raw.bytes, hy, Raw.len_ofNat_add _ _ _ (by unfold lenBytes; split <;> decide), Raw.ofNat_toNat h]
  have hcases : r.len = 1 ∨ r.len = 2 ∨ r.len = 3 := by have := h.len; omega
  unfold Raw.ofBytes
  dsimp only
  rw [hlen]
  rcases hcases with hl | hl | hl <;> rw [hl] at hself <;> simp only [lenBytes] at hself <;>
    simp only [hl, Raw.bytes, lenBytes, Nat.reduceEqDiff, or_self, or_false, if_true, if_false, hself, Raw.ofNat_toNat h]

/-! ### Codes -/

def Ty.known : Ty → Bool
  | .rsv _ => false
  | _ => true
def Cond.known : Cond → Bool
  | .rsv _ => false
  | _ => true
def Rnd.known : Rnd → Bool
  | .rsv _ => false
  | _ => true
def ScanOp.known : ScanOp → Bool
  | .rsv _ => false
  | _ => true
def PathClass.known : PathClass → Bool
  | .rsv _ => false
  | _ => true

@[simp] theorem Ty.ofCode_code {t : Ty} (h : t.known = true) : Ty.ofCode t.code = t := by cases t <;> simp_all [known, code, ofCode]
@[simp] theorem Cond.ofCode_code {c : Cond} (h : c.known = true) : Cond.ofCode c.code = c := by cases c <;> simp_all [known, code, ofCode]
@[simp] theorem Rnd.ofCode_code {r : Rnd} (h : r.known = true) : Rnd.ofCode r.code = r := by cases r <;> simp_all [known, code, ofCode]
@[simp] theorem ScanOp.ofCode_code {o : ScanOp} (h : o.known = true) : ScanOp.ofCode o.code = o := by cases o <;> simp_all [known, code, ofCode]
@[simp] theorem PathClass.ofCode_code {p : PathClass} (h : p.known = true) : PathClass.ofCode p.code = p := by
  cases p <;> simp_all [known, code, ofCode]
@[simp] theorem Ord.ofCode_code {o : Ord} (h : o.known = true) : Ord.ofCode o.code = o := by cases o <;> simp_all [known, code, ofCode]
@[simp] theorem Space.ofCode_code {p : Space} (h : p.known = true) : Space.ofCode p.code = p := by cases p <;> simp_all [known, code, ofCode]
@[simp] theorem VoteMode.ofCode_code (m : VoteMode) : VoteMode.ofCode m.code = m := by cases m <;> rfl
@[simp] theorem ShflMode.ofCode_code (m : ShflMode) : ShflMode.ofCode m.code = m := by cases m <;> rfl
@[simp] theorem Scope.ofCode_code (p : Scope) : Scope.ofCode p.code = p := by cases p <;> rfl
@[simp] theorem PostQ.ofCode_code (q : PostQ) : PostQ.ofCode q.code = q := by cases q <;> rfl

theorem Ty.code_lt {t : Ty} (h : t.known = true) : t.code < 32 := by cases t <;> simp_all [known, code]
theorem Cond.code_lt {c : Cond} (h : c.known = true) : c.code < 8 := by cases c <;> simp_all [known, code]
theorem Rnd.code_lt {r : Rnd} (h : r.known = true) : r.code < 8 := by cases r <;> simp_all [known, code]
theorem ScanOp.code_lt {o : ScanOp} (h : o.known = true) : o.code < 8 := by cases o <;> simp_all [known, code]
theorem PathClass.code_lt {p : PathClass} (h : p.known = true) : p.code < 8 := by cases p <;> simp_all [known, code]
theorem Ord.code_lt {o : Ord} (h : o.known = true) : o.code < 8 := by cases o <;> simp_all [known, code]
theorem Space.code_lt {p : Space} (h : p.known = true) : p.code < 8 := by cases p <;> simp_all [known, code]
theorem VoteMode.code_lt (m : VoteMode) : m.code < 4 := by cases m <;> decide
theorem ShflMode.code_lt (m : ShflMode) : m.code < 4 := by cases m <;> decide
theorem Scope.code_lt (p : Scope) : p.code < 8 := by cases p <;> decide
theorem PostQ.code_lt (q : PostQ) : q.code < 4 := by cases q <;> decide

/-! ### Operands -/

theorem SReg.code_lt (r : SReg) : r.code < 41 := by cases r <;> decide

theorem Opnd.idx_lt {o : Opnd} (h : o.inRange = true) : o.idx < 512 := by
  cases o with
  | special r => have := r.code_lt; simp only [idx]; omega
  | _ => simp only [inRange, decide_eq_true_eq] at h; simp only [idx]; omega

/-- An index names the operand it was made from (02 R28). -/
@[simp] theorem Opnd.ofIdx_idx {o : Opnd} (h : o.inRange = true) : Opnd.ofIdx o.idx = o := by
  cases o with
  | special r => cases r <;> rfl
  | v n => exact if_pos (of_decide_eq_true h)
  | s n =>
    have := of_decide_eq_true h
    rw [idx, ofIdx, if_neg (by omega), if_pos (by omega), Nat.add_sub_cancel_left]
  | unassigned n =>
    have := of_decide_eq_true h
    rw [idx, ofIdx, if_neg (by omega), if_neg (by omega), if_neg (by omega), if_pos (by omega)]
  | const k =>
    have := of_decide_eq_true h
    rw [idx, ofIdx, if_neg (by omega), if_neg (by omega), if_neg (by omega), if_neg (by omega), if_pos (by omega)]
    congr 1
    omega
  | reserved n =>
    have := of_decide_eq_true h
    rw [idx, ofIdx, if_neg (by omega), if_neg (by omega), if_neg (by omega), if_neg (by omega), if_neg (by omega)]

def Src.inRange : Src → Bool
  | .op o => o.inRange
  | .imm _ => true

end Sys2Proof

namespace Sys2Proof

/-! ### The shapes of words -/

/-- A guard names one of the eight depths (02 R23). -/
def Head.Fits (h : Head) : Prop := ∀ g, h.guard = some g → g.depth < 8

/-- The head reads back, whatever the other fields are. -/
@[simp] theorem Raw.head_enc (h : Head) (op len l o d a b x imm c ext : Nat) :
    Raw.head ⟨l, (enc h op len).w, (enc h op len).gn, (enc h op len).gd, (enc h op len).ge, o, d, a, b, x, imm, c, ext⟩ = h := by
  obtain ⟨w, g⟩ := h
  cases g with
  | none => simp [Raw.head, enc]; rfl
  | some g => simp [Raw.head, enc]; rfl

@[simp] theorem enc_len (h : Head) (op len : Nat) : (enc h op len).len = len := rfl
@[simp] theorem enc_op (h : Head) (op len : Nat) : (enc h op len).op = op := rfl
@[simp] theorem enc_d (h : Head) (op len : Nat) : (enc h op len).d = 0 := rfl
@[simp] theorem enc_a (h : Head) (op len : Nat) : (enc h op len).a = 0 := rfl
@[simp] theorem enc_b (h : Head) (op len : Nat) : (enc h op len).b = 0 := rfl
@[simp] theorem enc_x (h : Head) (op len : Nat) : (enc h op len).x = 0 := rfl
@[simp] theorem enc_imm (h : Head) (op len : Nat) : (enc h op len).imm = 0 := rfl
@[simp] theorem enc_c (h : Head) (op len : Nat) : (enc h op len).c = 0 := rfl
@[simp] theorem enc_ext (h : Head) (op len : Nat) : (enc h op len).ext = 0 := rfl

theorem enc_fits {h : Head} (hh : h.Fits) {op len d a b x imm c ext : Nat} (hl : 1 ≤ len ∧ len ≤ 3) (hop : op < 1024)
    (hd : d < 512) (ha : a < 512) (hb : b < 512) (hx : x < 2 ^ 19) (hi : imm < 2 ^ 32) (hc : c < 512) (he : ext < 2 ^ 55)
    (h2 : len ≠ 2 → imm = 0) (h3 : len ≠ 3 → c = 0 ∧ ext = 0) :
    Raw.Fits { enc h op len with d := d, a := a, b := b, x := x, imm := imm, c := c, ext := ext } := by
  obtain ⟨w, g⟩ := h
  refine ⟨hl, b2n_lt _, ?_, ?_, b2n_lt _, hop, hd, ha, hb, hx, hi, hc, he, h2, fun h => (h3 h).1, fun h => (h3 h).2⟩
  · cases g with
    | none => exact Nat.two_pos
    | some g => exact b2n_lt g.neg
  · cases g with
    | none => exact Nat.succ_pos 7
    | some g => exact hh g rfl

theorem Src.fld_lt {b : Src} (h : b.inRange = true) : b.fld < 512 := by
  cases b with
  | op o => exact Opnd.idx_lt h
  | imm w => exact Nat.succ_pos _
theorem Src.immNat_lt (b : Src) : b.immNat < 2 ^ 32 := by
  cases b with
  | op o => exact Nat.two_pow_pos _
  | imm w => exact w.isLt
theorem Src.len_pos (b : Src) : 1 ≤ b.len ∧ b.len ≤ 3 := by cases b <;> simp [len]
theorem Src.immNat_eq_zero {b : Src} (h : b.len ≠ 2) : b.immNat = 0 := by cases b <;> simp_all [len, immNat]
@[simp] theorem Src.len_mem (b : Src) : b.len ∈ [1, 2] := by cases b <;> simp [len]

/-- A last source reads back from its three parts (04 R71). -/
@[simp] theorem Src.ofFields {b : Src} (h : b.inRange = true) :
    (if b.len = 2 then Src.imm (BitVec.ofNat 32 b.immNat) else .op (Opnd.ofIdx b.fld)) = b := by
  cases b with
  | op o => exact congrArg Src.op (Opnd.ofIdx_idx h)
  | imm w => exact congrArg Src.imm (BitVec.ofNat_toNat 32 w)

theorem Raw.accept_of_mem {r : Raw} {lens : List Nat} (i : Instr) (h : r.len ∈ lens) : r.accept lens i = some i := by
  simp [Raw.accept, h]

section
variable {h : Head} {op x : Nat} {d a b c : Opnd} {y : Src} {i : Instr}

theorem enc2_fits (hh : h.Fits) (hop : op < 1024) (hd : d.inRange = true) (ha : a.inRange = true) (hy : y.inRange = true)
    (hx : x < 2 ^ 19) : (enc2 h op d a y x).Fits :=
  enc_fits hh y.len_pos hop (Opnd.idx_lt hd) (Opnd.idx_lt ha) (Src.fld_lt hy) hx y.immNat_lt (Nat.succ_pos _) (Nat.two_pow_pos _)
    Src.immNat_eq_zero fun _ => ⟨rfl, rfl⟩

@[simp] theorem enc2_op : (enc2 h op d a y x).op = op := rfl
@[simp] theorem enc2_x : (enc2 h op d a y x).x = x := rfl
@[simp] theorem enc2_head : (enc2 h op d a y x).head = h := Raw.head_enc ..
@[simp] theorem enc2_oD : (enc2 h op d a y x).oD = Opnd.ofIdx d.idx := rfl
@[simp] theorem enc2_oA : (enc2 h op d a y x).oA = Opnd.ofIdx a.idx := rfl
@[simp] theorem enc2_sB (hy : y.inRange = true) : (enc2 h op d a y x).sB = y := Src.ofFields hy
@[simp] theorem enc2_accept : (enc2 h op d a y x).accept [1, 2] i = some i := Raw.accept_of_mem _ y.len_mem

theorem enc1_fits (hh : h.Fits) (hop : op < 1024) (hd : d.inRange = true) (hy : y.inRange = true) (hx : x < 2 ^ 19) :
    (enc1 h op d y x).Fits :=
  enc_fits hh y.len_pos hop (Opnd.idx_lt hd) (Src.fld_lt hy) (Nat.succ_pos _) hx y.immNat_lt (Nat.succ_pos _) (Nat.two_pow_pos _)
    Src.immNat_eq_zero fun _ => ⟨rfl, rfl⟩

@[simp] theorem enc1_op : (enc1 h op d y x).op = op := rfl
@[simp] theorem enc1_x : (enc1 h op d y x).x = x := rfl
@[simp] theorem enc1_head : (enc1 h op d y x).head = h := Raw.head_enc ..
@[simp] theorem enc1_oD : (enc1 h op d y x).oD = Opnd.ofIdx d.idx := rfl
@[simp] theorem enc1_sA (hy : y.inRange = true) : (enc1 h op d y x).sA = y := Src.ofFields hy
@[simp] theorem enc1_accept : (enc1 h op d y x).accept [1, 2] i = some i := Raw.accept_of_mem _ y.len_mem

theorem enc3_fits (hh : h.Fits) (hop : op < 1024) (hd : d.inRange = true) (ha : a.inRange = true) (hb : b.inRange = true)
    (hc : c.inRange = true) (hx : x < 2 ^ 19) : (enc3 h op d a b c x).Fits :=
  enc_fits hh (by decide) hop (Opnd.idx_lt hd) (Opnd.idx_lt ha) (Opnd.idx_lt hb) hx (Nat.two_pow_pos _) (Opnd.idx_lt hc)
    (Nat.two_pow_pos _) (fun _ => rfl) (fun h => absurd rfl h)

@[simp] theorem enc3_op : (enc3 h op d a b c x).op = op := rfl
@[simp] theorem enc3_x : (enc3 h op d a b c x).x = x := rfl
@[simp] theorem enc3_head : (enc3 h op d a b c x).head = h := Raw.head_enc ..
@[simp] theorem enc3_oD : (enc3 h op d a b c x).oD = Opnd.ofIdx d.idx := rfl
@[simp] theorem enc3_oA : (enc3 h op d a b c x).oA = Opnd.ofIdx a.idx := rfl
@[simp] theorem enc3_oB : (enc3 h op d a b c x).oB = Opnd.ofIdx b.idx := rfl
@[simp] theorem enc3_oC : (enc3 h op d a b c x).oC = Opnd.ofIdx c.idx := rfl
@[simp] theorem enc3_accept : (enc3 h op d a b c x).accept [3] i = some i := rfl
@[simp] theorem enc3_accept_short : (enc3 h op d a b c x).accept [1, 3] i = some i := rfl
end

section
variable {h : Head} {op x d a b : Nat} {i : Instr}

theorem encR_fits (hh : h.Fits) (hop : op < 1024) (hd : d < 512) (ha : a < 512) (hb : b < 512) (hx : x < 2 ^ 19) :
    (encR h op d a b x).Fits :=
  enc_fits hh (by decide) hop hd ha hb hx (Nat.two_pow_pos _) (Nat.succ_pos _) (Nat.two_pow_pos _) (fun _ => rfl) fun _ => ⟨rfl, rfl⟩

@[simp] theorem encR_op : (encR h op d a b x).op = op := rfl
@[simp] theorem encR_len : (encR h op d a b x).len = 1 := rfl
@[simp] theorem encR_x : (encR h op d a b x).x = x := rfl
@[simp] theorem encR_head : (encR h op d a b x).head = h := Raw.head_enc ..
@[simp] theorem encR_oD : (encR h op d a b x).oD = Opnd.ofIdx d := rfl
@[simp] theorem encR_oA : (encR h op d a b x).oA = Opnd.ofIdx a := rfl
@[simp] theorem encR_oB : (encR h op d a b x).oB = Opnd.ofIdx b := rfl
@[simp] theorem encR_accept {lens : List Nat} : (encR h op d a b x).accept (1 :: lens) i = some i :=
  Raw.accept_of_mem _ List.mem_cons_self

def MemExt.inRange : MemExt → Bool
  | .wide _ _ sd => sd.inRange
  | _ => true

theorem memExt_lt {off : Word} {se : Bool} {sd : Opnd} (h : sd.inRange = true) : memExt off se sd < 2 ^ 55 := by
  have := Opnd.idx_lt h; have := b2n_lt se; have := off.isLt
  unfold memExt; omega

theorem encMem_fits {m : MemMod} {e : MemExt} (hh : h.Fits) (hop : op < 1024) (hd : d < 512) (ha : a < 512) (hb : b < 512)
    (hx : m.bits < 2 ^ 19) (he : e.inRange = true) : (encMem h op d a b m e).Fits := by
  cases e with
  | short => exact encR_fits hh hop hd ha hb hx
  | imm w =>
    exact enc_fits hh (by decide) hop hd ha hb hx w.isLt (Nat.succ_pos _) (Nat.two_pow_pos _) (fun h => absurd rfl h)
      fun _ => ⟨rfl, rfl⟩
  | wide off se sd =>
    exact enc_fits hh (by decide) hop hd ha hb hx (Nat.two_pow_pos _) (Nat.succ_pos _) (memExt_lt he) (fun _ => rfl)
      fun h => absurd rfl h

/-- The three parts of EXT in a memory form (10 R209). -/
theorem memExt_reads {off : Word} {se : Bool} {sd : Opnd} (h : sd.inRange = true) :
    Opnd.ofIdx (bits (memExt off se sd) 8 0) = sd ∧ bit (memExt off se sd) 9 = se ∧
      BitVec.ofNat 32 (bits (memExt off se sd) 41 10) = off := by
  have := Opnd.idx_lt h; have := b2n_lt se; have := off.isLt
  simp (disch := omega) [memExt, -Nat.reducePow]

@[simp] theorem encMem_op {m : MemMod} {e : MemExt} : (encMem h op d a b m e).op = op := by cases e <;> rfl
@[simp] theorem encMem_x {m : MemMod} {e : MemExt} : (encMem h op d a b m e).x = m.bits := by cases e <;> rfl
@[simp] theorem encMem_head {m : MemMod} {e : MemExt} : (encMem h op d a b m e).head = h := by cases e <;> exact Raw.head_enc ..
@[simp] theorem encMem_oD {m : MemMod} {e : MemExt} : (encMem h op d a b m e).oD = Opnd.ofIdx d := by cases e <;> rfl
@[simp] theorem encMem_oA {m : MemMod} {e : MemExt} : (encMem h op d a b m e).oA = Opnd.ofIdx a := by cases e <;> rfl
@[simp] theorem encMem_oB {m : MemMod} {e : MemExt} : (encMem h op d a b m e).oB = Opnd.ofIdx b := by cases e <;> rfl
@[simp] theorem encMem_accept {m : MemMod} {e : MemExt} : (encMem h op d a b m e).accept [1, 2, 3] i = some i := by cases e <;> rfl
@[simp] theorem encMem_mext {m : MemMod} {e : MemExt} (he : e.inRange = true) : (encMem h op d a b m e).mext = e := by
  cases e with
  | short => rfl
  | imm w => exact congrArg MemExt.imm (BitVec.ofNat_toNat 32 w)
  | wide off se sd =>
    obtain ⟨h1, h2, h3⟩ := memExt_reads (off := off) (se := se) he
    exact congr (congr (congrArg MemExt.wide h3) h2) h1

theorem encBr_fits {t : BrTarget} {c : BrCond} (hh : h.Fits) (hop : op < 1024) (hd : d < 512) (ha : a < 512) (hc : c.cond ≤ 2) :
    (encBr h op d a t c).Fits := by
  have := b2n_lt c.u
  have hb : c.bits < 2 ^ 3 := by unfold BrCond.bits; omega
  cases t with
  | off o =>
    have := o.isLt
    exact encR_fits hh hop hd ha (Nat.succ_pos _) (by omega)
  | imm w =>
    exact enc_fits hh (by decide) hop hd ha (Nat.succ_pos _) (by omega) w.isLt (Nat.succ_pos _) (Nat.two_pow_pos _)
      (fun h => absurd rfl h) fun _ => ⟨rfl, rfl⟩

@[simp] theorem encBr_op {t : BrTarget} {c : BrCond} : (encBr h op d a t c).op = op := by cases t <;> rfl
@[simp] theorem encBr_head {t : BrTarget} {c : BrCond} : (encBr h op d a t c).head = h := by cases t <;> exact Raw.head_enc ..
@[simp] theorem encBr_oD {t : BrTarget} {c : BrCond} : (encBr h op d a t c).oD = Opnd.ofIdx d := by cases t <;> rfl
@[simp] theorem encBr_oA {t : BrTarget} {c : BrCond} : (encBr h op d a t c).oA = Opnd.ofIdx a := by cases t <;> rfl
@[simp] theorem encBr_accept {t : BrTarget} {c : BrCond} : (encBr h op d a t c).accept [1, 2] i = some i := by cases t <;> rfl

/-- A branch condition reads back, from OFF's word and from IMM32's. -/
theorem BrCond.read {c : BrCond} (hc : c.cond ≤ 2) (r : Raw) (o : Nat) (hx : r.x = c.bits + o * 2 ^ 3) :
    r.brCond c.reg = c := by
  have := b2n_lt c.u
  simp (disch := omega) [Raw.brCond, hx, BrCond.bits, -Nat.reducePow]

@[simp] theorem encBr_brCond {t : BrTarget} {c : BrCond} (hc : c.cond ≤ 2) : (encBr h op d a t c).brCond c.reg = c := by
  cases t with
  | off o => exact BrCond.read hc _ o.toNat rfl
  | imm w => exact BrCond.read hc _ 0 (by simp [encBr])
@[simp] theorem encBr_brTarget {t : BrTarget} {c : BrCond} (hc : c.cond ≤ 2) : (encBr h op d a t c).brTarget = t := by
  cases t with
  | off o =>
    have := b2n_lt c.u; have := o.isLt
    have hx : bits (c.bits + o.toNat * 2 ^ 3) 18 3 = o.toNat := bits_at (by unfold BrCond.bits; omega) (by omega)
    exact congrArg BrTarget.off ((congrArg (BitVec.ofNat 16) hx).trans (BitVec.ofNat_toNat 16 o))
  | imm w => exact congrArg BrTarget.imm (BitVec.ofNat_toNat 32 w)
end

end Sys2Proof

namespace Sys2Proof

/-! ### What an encoding needs -/

/-- What a word needs to have an encoding: operands of the name space and modifiers that check 7 takes. -/
structure Instr.Encodable (i : Instr) : Prop where
  opnds : ∀ u ∈ i.uses, u.o.inRange = true
  mods  : i.modifiersOk = true

/-- The encoding of `i` keeps to its fields and is read as `i` again. -/
def Instr.ReadsBack (i : Instr) : Prop := i.raw.Fits ∧ parse i.raw = some i

theorem Instr.head_fits_of_modifiersOk {i : Instr} (h : i.modifiersOk = true) : i.head.Fits := by
  intro g hg
  have h := (Bool.and_eq_true _ _ ▸ h).1
  rw [hg] at h
  simp only [Bool.and_eq_true, decide_eq_true_eq] at h
  omega

theorem forall_useS {f : Fld} {y : Src} {t : Ty} : (∀ u ∈ useS f y t, u.o.inRange = true) ↔ y.inRange = true := by
  cases y <;> simp [useS, useT, Src.inRange]
theorem forall_useU {f : Fld} {y : Src} {p : Bool} : (∀ u ∈ useU f y p, u.o.inRange = true) ↔ y.inRange = true := by
  cases y <;> simp [useU, Src.inRange]

namespace Instr.Encodable
variable {i : Instr} {f f₁ f₂ f₃ f₄ : Fld} {o₁ o₂ o₃ o₄ : Opnd} {n₁ n₂ n₃ n₄ : Nat} {p p₁ p₂ p₃ p₄ c₁ c₂ c₃ c₄ : Bool}
  {k₁ k₂ k₃ k₄ : Kind} {y : Src} {t : Ty}

theorem head (he : i.Encodable) : i.head.Fits := Instr.head_fits_of_modifiersOk he.mods

/-- What check 7 asks for besides the guard's part. -/
theorem checks (he : i.Encodable) {g m : Bool} (h : i.modifiersOk = (g && m)) : m = true := (Bool.and_eq_true_iff.1 (h ▸ he.mods)).2

/-! The operands of a form lie in the name space, told by the register fields it uses. -/

theorem opnds₁ (he : i.Encodable) (h : i.uses = [⟨f₁, o₁, n₁, p₁, k₁, c₁⟩]) : o₁.inRange = true := by
  simpa [h] using he.opnds
theorem opnds₂ (he : i.Encodable) (h : i.uses = [⟨f₁, o₁, n₁, p₁, k₁, c₁⟩, ⟨f₂, o₂, n₂, p₂, k₂, c₂⟩]) :
    o₁.inRange = true ∧ o₂.inRange = true := by
  simpa [h] using he.opnds
theorem opnds₃ (he : i.Encodable) (h : i.uses = [⟨f₁, o₁, n₁, p₁, k₁, c₁⟩, ⟨f₂, o₂, n₂, p₂, k₂, c₂⟩, ⟨f₃, o₃, n₃, p₃, k₃, c₃⟩]) :
    o₁.inRange = true ∧ o₂.inRange = true ∧ o₃.inRange = true := by
  simpa [h] using he.opnds
theorem opnds₄ (he : i.Encodable) (h : i.uses =
      [⟨f₁, o₁, n₁, p₁, k₁, c₁⟩, ⟨f₂, o₂, n₂, p₂, k₂, c₂⟩, ⟨f₃, o₃, n₃, p₃, k₃, c₃⟩, ⟨f₄, o₄, n₄, p₄, k₄, c₄⟩]) :
    o₁.inRange = true ∧ o₂.inRange = true ∧ o₃.inRange = true ∧ o₄.inRange = true := by
  simpa [h] using he.opnds
theorem opndsS (he : i.Encodable) (h : i.uses = useS f y t) : y.inRange = true :=
  forall_useS.1 (h ▸ he.opnds)
theorem opndsU (he : i.Encodable) (h : i.uses = useU f y p) : y.inRange = true :=
  forall_useU.1 (h ▸ he.opnds)
theorem opnds₁S (he : i.Encodable) (h : i.uses = ⟨f₁, o₁, n₁, p₁, k₁, c₁⟩ :: useS f y t) : o₁.inRange = true ∧ y.inRange = true := by
  simpa [h, forall_useS] using he.opnds
theorem opnds₁U (he : i.Encodable) (h : i.uses = ⟨f₁, o₁, n₁, p₁, k₁, c₁⟩ :: useU f y p) : o₁.inRange = true ∧ y.inRange = true := by
  simpa [h, forall_useU] using he.opnds
theorem opnds₂S (he : i.Encodable) (h : i.uses = [⟨f₁, o₁, n₁, p₁, k₁, c₁⟩, ⟨f₂, o₂, n₂, p₂, k₂, c₂⟩] ++ useS f y t) :
    o₁.inRange = true ∧ o₂.inRange = true ∧ y.inRange = true := by
  simpa [h, forall_useS] using he.opnds
end Instr.Encodable

theorem Ty.known_of_isInt {t : Ty} (h : t.isInt = true) : t.known = true := by revert h; cases t <;> simp [isInt, isI, isN, signed, known]
theorem Ty.known_of_isI {t : Ty} (h : t.isI = true) : t.known = true := Ty.known_of_isInt (by simp [isInt, h])
theorem Ty.known_of_isRaw {t : Ty} (h : t.isRaw = true) : t.known = true := by
  revert h; cases t <;> simp [isRaw, isI, isN, isB, signed, known]
theorem Ty.known_of_isWideRaw {t : Ty} (h : t.isWideRaw = true) : t.known = true := by revert h; cases t <;> simp [isWideRaw, known]
theorem Ty.known_of_isF3 {t : Ty} (h : t.isF3 = true) : t.known = true := by revert h; cases t <;> simp [isF3, known]
theorem Ty.known_of_isFloat {t : Ty} (h : t.isFloat = true) : t.known = true := by revert h; cases t <;> simp [isFloat, known]
theorem Ty.known_of_isPlane {t : Ty} (h : t.isPlane = true) : t.known = true := by revert h; cases t <;> simp [isPlane, known]
theorem Ty.known_of_isResult {t : Ty} (h : t.isResult = true) : t.known = true := by revert h; cases t <;> simp [isResult, known]
theorem Ty.known_of_isDeltaIn {t : Ty} (h : t.isDeltaIn = true) : t.known = true := by revert h; cases t <;> simp [isDeltaIn, known]
theorem Ty.known_of_cvtOk {t : Ty} (h : t.cvtOk = true) : t.known = true := by
  revert h; cases t <;> simp [cvtOk, isInt, isI, isN, isFloat, signed, known]
theorem Ty.known_of_scanOk {t : Ty} {op : ScanOp} {sat : Bool} (h : scanOk t op sat = true) : t.known = true ∧ op.known = true := by
  revert h; cases op <;> cases t <;> simp [scanOk, isWideRaw, known, ScanOp.known]
theorem Ty.known_of_accepts {t : Ty} {o : Aop} (h : o.accepts t = true) : t.known = true := by
  revert h; cases o <;> cases t <;> simp [Aop.accepts, bigInt, isWideRaw, known]
theorem Rnd.known_of_plain {r : Rnd} (h : r.plain = true) : r.known = true := by revert h; cases r <;> simp [plain, known]

/-! ### Group 0x0 (04 R77) -/

section
variable (h : Head) (t : Ty) (d a b c : Opnd) (y : Src)

theorem addSub_readsBack (m : AddMod) : ∀ i ∈ [Instr.iadd h t d a y m, .isub h t d a y m], i.Encodable → i.ReadsBack := by
  intro i hi he
  have := b2n_lt m.sat; have := b2n_lt m.cin; have := b2n_lt m.cout
  fin_cases hi
  all_goals
    obtain ⟨hd, ha, hy⟩ := he.opnds₂S rfl
    have hm : (t.isInt && _) = true := he.checks rfl
    have ht := Ty.known_of_isInt (Bool.and_eq_true_iff.1 hm).1
    have := Ty.code_lt ht
    refine ⟨enc2_fits he.head (by decide) hd ha hy (by unfold AddMod.bits; omega), ?_⟩
    show parse (enc2 ..) = _
    simp (disch := omega) [parse, parseInteger, Raw.ty, AddMod.bits, ← Nat.add_assoc, -Nat.reducePow]

theorem imul_readsBack (sat wide : Bool) (he : (Instr.imul h t d a y sat wide).Encodable) : (Instr.imul h t d a y sat wide).ReadsBack := by
  obtain ⟨hd, ha, hy⟩ := he.opnds₂S rfl
  have hm : (t.isInt && _ && _) = true := he.checks rfl
  simp only [Bool.and_eq_true] at hm
  have ht := Ty.known_of_isInt hm.1.1
  have := Ty.code_lt ht; have := b2n_lt sat; have := b2n_lt wide
  refine ⟨enc2_fits he.head (by decide) hd ha hy (by omega), ?_⟩
  show parse (enc2 ..) = _
  simp (disch := omega) [parse, parseInteger, Raw.ty, -Nat.reducePow]

theorem imad_readsBack (sat wide : Bool) (he : (Instr.imad h t d a b c sat wide).Encodable) :
    (Instr.imad h t d a b c sat wide).ReadsBack := by
  obtain ⟨hd, ha, hb, hc⟩ := he.opnds₄ rfl
  have hm : (t.isInt && _) = true := he.checks rfl
  have ht := Ty.known_of_isInt (Bool.and_eq_true_iff.1 hm).1
  have := Ty.code_lt ht; have := b2n_lt sat; have := b2n_lt wide
  refine ⟨enc3_fits he.head (by decide) hd ha hb hc (by omega), ?_⟩
  show parse (enc3 ..) = _
  simp (disch := omega) [parse, parseInteger, Raw.ty, -Nat.reducePow]

theorem intTwo_readsBack : ∀ i ∈ [Instr.imulhi h t d a y, .idiv h t d a y, .irem h t d a y, .imin h t d a y, .imax h t d a y],
    i.Encodable → i.ReadsBack := by
  intro i hi he
  fin_cases hi
  all_goals
    obtain ⟨hd, ha, hy⟩ := he.opnds₂S rfl
    have ht : t.known = true := Ty.known_of_isInt (he.checks rfl)
    have := Ty.code_lt ht
    refine ⟨enc2_fits he.head (by decide) hd ha hy (by omega), ?_⟩
    show parse (enc2 ..) = _
    simp (disch := omega) [parse, parseInteger, Raw.ty]

theorem intOne_readsBack (sat : Bool) : ∀ i ∈ [Instr.iabs h t d a sat, .ineg h t d a sat], i.Encodable → i.ReadsBack := by
  intro i hi he
  have := b2n_lt sat
  fin_cases hi
  all_goals
    obtain ⟨hd, ha⟩ := he.opnds₂ rfl
    have ht : t.known = true := Ty.known_of_isI (he.checks rfl)
    have := Ty.code_lt ht
    refine ⟨encR_fits he.head (by decide) (Opnd.idx_lt hd) (Opnd.idx_lt ha) (by decide) (by omega), ?_⟩
    show parse (encR ..) = _
    simp (disch := omega) [parse, parseInteger, Raw.ty, -Nat.reducePow]

theorem isad_readsBack (sat : Bool) (he : (Instr.isad h t d a b c sat).Encodable) : (Instr.isad h t d a b c sat).ReadsBack := by
  obtain ⟨hd, ha, hb, hc⟩ := he.opnds₄ rfl
  have ht : t.known = true := Ty.known_of_isInt (he.checks rfl)
  have := Ty.code_lt ht; have := b2n_lt sat
  refine ⟨enc3_fits he.head (by decide) hd ha hb hc (by omega), ?_⟩
  show parse (enc3 ..) = _
  simp (disch := omega) [parse, parseInteger, Raw.ty, -Nat.reducePow]

theorem mov_readsBack (he : (Instr.mov h t d y).Encodable) : (Instr.mov h t d y).ReadsBack := by
  obtain ⟨hd, hy⟩ := he.opnds₁S rfl
  have ht : t.known = true := Ty.known_of_isRaw (he.checks rfl)
  have := Ty.code_lt ht
  refine ⟨enc1_fits he.head (by decide) hd hy (by omega), ?_⟩
  show parse (enc1 ..) = _
  simp (disch := omega) [parse, parseInteger, Raw.ty]

theorem sel_readsBack (depth : Nat) (neg : Bool) (he : (Instr.sel h t d a y depth neg).Encodable) :
    (Instr.sel h t d a y depth neg).ReadsBack := by
  obtain ⟨hd, ha, hy⟩ := he.opnds₂S rfl
  have hm : (t.isRaw && decide (depth ≤ 15)) = true := he.checks rfl
  simp only [Bool.and_eq_true, decide_eq_true_eq] at hm
  have ht := Ty.known_of_isRaw hm.1
  have := Ty.code_lt ht; have := b2n_lt neg
  refine ⟨enc2_fits he.head (by decide) hd ha hy (by omega), ?_⟩
  show parse (enc2 ..) = _
  simp (disch := omega) [parse, parseInteger, Raw.ty, -Nat.reducePow]

/-! ### Group 0x1 (04 R83) -/

theorem bitTwo_readsBack : ∀ i ∈ [Instr.and h t d a y, .or h t d a y, .xor h t d a y, .rotl h t d a y], i.Encodable → i.ReadsBack := by
  intro i hi he
  fin_cases hi
  all_goals
    obtain ⟨hd, ha, hy⟩ := he.opnds₂S rfl
    have ht : t.known = true := Ty.known_of_isRaw (he.checks rfl)
    have := Ty.code_lt ht
    refine ⟨enc2_fits he.head (by decide) hd ha hy (by omega), ?_⟩
    show parse (enc2 ..) = _
    simp (disch := omega) [parse, parseBits, Raw.ty]

theorem bitOne_readsBack : ∀ i ∈ [Instr.not h t d a, .popc h t d a, .clz h t d a, .brev h t d a], i.Encodable → i.ReadsBack := by
  intro i hi he
  fin_cases hi
  all_goals
    obtain ⟨hd, ha⟩ := he.opnds₂ rfl
    have ht : t.known = true := Ty.known_of_isRaw (he.checks rfl)
    have := Ty.code_lt ht
    refine ⟨encR_fits he.head (by decide) (Opnd.idx_lt hd) (Opnd.idx_lt ha) (by decide) (by omega), ?_⟩
    show parse (encR ..) = _
    simp (disch := omega) [parse, parseBits, Raw.ty]

theorem shift_readsBack (wrap : Bool) : ∀ i ∈ [Instr.shl h t d a y wrap, .shr h t d a y wrap, .sar h t d a y wrap],
    i.Encodable → i.ReadsBack := by
  intro i hi he
  have := b2n_lt wrap
  fin_cases hi
  all_goals
    obtain ⟨hd, ha, hy⟩ := he.opnds₂S rfl
    have ht : t.known = true := Ty.known_of_isRaw (he.checks rfl)
    have := Ty.code_lt ht
    refine ⟨enc2_fits he.head (by decide) hd ha hy (by omega), ?_⟩
    show parse (enc2 ..) = _
    simp (disch := omega) [parse, parseBits, Raw.ty, -Nat.reducePow]

theorem bfe_readsBack (f : BitField) (he : (Instr.bfe h t d a f).Encodable) : (Instr.bfe h t d a f).ReadsBack := by
  have hm : (t.isWideRaw && _) = true := he.checks rfl
  rw [Bool.and_eq_true] at hm
  have ht := Ty.known_of_isWideRaw hm.1
  have := Ty.code_lt ht
  cases f with
  | imm pos len =>
    obtain ⟨hd, ha⟩ := he.opnds₂ rfl
    obtain ⟨hp, hl⟩ : pos ≤ 63 ∧ len ≤ 64 := by simpa using hm.2
    refine ⟨encR_fits he.head (by decide) (Opnd.idx_lt hd) (Opnd.idx_lt ha) (Nat.succ_pos _) (by rw [BitField.bits]; omega), ?_⟩
    show parse (encR ..) = _
    simp (disch := omega) [parse, parseBits, Raw.ty, Raw.bitField, BitField.bits, bit_above, ← Nat.add_assoc, -Nat.reducePow]
  | reg p =>
    obtain ⟨hd, ha, hp⟩ := he.opnds₃ rfl
    refine ⟨encR_fits he.head (by decide) (Opnd.idx_lt hd) (Opnd.idx_lt ha) (Opnd.idx_lt hp) (by rw [BitField.bits]; omega), ?_⟩
    show parse (encR ..) = _
    simp (disch := omega) [parse, parseBits, Raw.ty, Raw.bitField, BitField.bits, -Nat.reducePow]

theorem bfi_readsBack (f : BitField) (he : (Instr.bfi h t d a b f).Encodable) : (Instr.bfi h t d a b f).ReadsBack := by
  have hm : ((t == .b32 || t == .b64) && _) = true := he.checks rfl
  simp only [Bool.and_eq_true, Bool.or_eq_true, beq_iff_eq] at hm
  have ht : t.known = true := by rcases hm.1 with rfl | rfl <;> rfl
  have := Ty.code_lt ht
  cases f with
  | imm pos len =>
    obtain ⟨hd, ha, hb⟩ := he.opnds₃ rfl
    obtain ⟨hp, hl⟩ : pos ≤ 63 ∧ len ≤ 64 := by simpa using hm.2
    refine ⟨encR_fits he.head (by decide) (Opnd.idx_lt hd) (Opnd.idx_lt ha) (Opnd.idx_lt hb) (by rw [BitField.bits]; omega), ?_⟩
    show parse (encR ..) = _
    simp (disch := omega) [parse, parseBits, Raw.ty, Raw.bitField, BitField.bits, bit_above, ← Nat.add_assoc, -Nat.reducePow]
  | reg p =>
    obtain ⟨hd, ha, hb, hp⟩ := he.opnds₄ rfl
    refine ⟨enc3_fits he.head (by decide) hd ha hb hp (by rw [BitField.bits]; omega), ?_⟩
    show parse (enc3 ..) = _
    simp (disch := omega) [parse, parseBits, Raw.ty, Raw.bitField, BitField.bits, -Nat.reducePow]

theorem lea_readsBack (sh : Nat) (he : (Instr.lea h t d a y sh).Encodable) : (Instr.lea h t d a y sh).ReadsBack := by
  obtain ⟨hd, ha, hy⟩ := he.opnds₂S rfl
  have hm : ((t == .i32 || t == .n32 || t == .b64) && decide (sh ≤ 7)) = true := he.checks rfl
  simp only [Bool.and_eq_true, Bool.or_eq_true, beq_iff_eq, decide_eq_true_eq] at hm
  have ht : t.known = true := by rcases hm.1 with (rfl | rfl) | rfl <;> rfl
  have := Ty.code_lt ht
  refine ⟨enc2_fits he.head (by decide) hd ha hy (by omega), ?_⟩
  show parse (enc2 ..) = _
  simp (disch := omega) [parse, parseBits, Raw.ty, -Nat.reducePow]

theorem lop3_readsBack (tt : Nat) (he : (Instr.lop3 h t d a b c tt).Encodable) : (Instr.lop3 h t d a b c tt).ReadsBack := by
  obtain ⟨hd, ha, hb, hc⟩ := he.opnds₄ rfl
  have hm : ((t == .b32 || t == .b64) && decide (tt ≤ 255)) = true := he.checks rfl
  simp only [Bool.and_eq_true, Bool.or_eq_true, beq_iff_eq, decide_eq_true_eq] at hm
  have ht : t.known = true := by rcases hm.1 with rfl | rfl <;> rfl
  have := Ty.code_lt ht
  refine ⟨enc3_fits he.head (by decide) hd ha hb hc (by omega), ?_⟩
  show parse (enc3 ..) = _
  simp (disch := omega) [parse, parseBits, Raw.ty, -Nat.reducePow]

/-! ### Group 0x2 (04 R89) -/

theorem compare_readsBack (cond : Cond) (p : CmpDst) : ∀ i ∈ [Instr.cmp h t a y cond p, .fcmp h t a y cond p], i.Encodable → i.ReadsBack := by
  intro i hi he
  obtain ⟨ht, hc, hp, hd⟩ : t.known = true ∧ cond.known = true ∧ p.comb ≤ 2 ∧ (p.set = true ∨ p.d = .v 0) := by
    fin_cases hi
    · have hm : (t.isRaw && _ && _ && _ && (p.set || p.d == .v 0)) = true := he.checks rfl
      simp only [Bool.and_eq_true, Bool.or_eq_true, beq_iff_eq, decide_eq_true_eq] at hm
      obtain ⟨⟨⟨⟨ht, hc⟩, hp⟩, -⟩, hd⟩ := hm
      exact ⟨Ty.known_of_isRaw ht, by cases cond <;> simp_all [Cond.known], hp, hd⟩
    · have hm : (t.isFloat && _ && _ && _ && _ && (p.set || p.d == .v 0)) = true := he.checks rfl
      simp only [Bool.and_eq_true, Bool.or_eq_true, beq_iff_eq, decide_eq_true_eq] at hm
      obtain ⟨⟨⟨⟨⟨ht, -⟩, hc⟩, hp⟩, -⟩, hd⟩ := hm
      exact ⟨Ty.known_of_isFloat ht, by cases cond <;> simp_all [Cond.known], hp, hd⟩
  have ho : ∀ u ∈ (if p.set then [useD p.d .n32] else []) ++ [useT .a a t] ++ useS .b y t, u.o.inRange = true := by
    fin_cases hi <;> exact he.opnds
  simp only [List.forall_mem_append, List.forall_mem_singleton, forall_useS] at ho
  obtain ⟨⟨hs, (ha : a.inRange = true)⟩, hy⟩ := ho
  have hd : p.d.inRange = true := by
    rcases hd with hd | hd
    · simpa [hd, useD] using hs
    · rw [hd]; rfl
  have := Ty.code_lt ht; have := Cond.code_lt hc; have := b2n_lt p.set
  fin_cases hi
  all_goals
    refine ⟨enc2_fits he.head (by decide) hd ha hy (by rw [CmpDst.bits]; omega), ?_⟩
    show parse (enc2 ..) = _
    simp (disch := omega) [parse, parsePred, Raw.ty, Raw.cmpDst, CmpDst.bits, ← Nat.add_assoc, -Nat.reducePow]
end

end Sys2Proof

namespace Sys2Proof
section
variable (h : Head) (t : Ty) (d a b c : Opnd) (y : Src)

theorem ppush_readsBack (he : (Instr.ppush h a).Encodable) : (Instr.ppush h a).ReadsBack := by
  have ha := he.opnds₁ rfl
  refine ⟨encR_fits he.head (by decide) (by decide) (Opnd.idx_lt ha) (by decide) (by decide), ?_⟩
  show parse (encR ..) = _
  simp [parse, parsePred, ha]

theorem ppop_readsBack (n : Nat) (set : Bool) (he : (Instr.ppop h n set d).Encodable) : (Instr.ppop h n set d).ReadsBack := by
  have hm : (decide (1 ≤ n ∧ n ≤ 16) && (set || d == .v 0)) = true := he.checks rfl
  simp only [Bool.and_eq_true, Bool.or_eq_true, decide_eq_true_eq, beq_iff_eq] at hm
  obtain ⟨hn, hd⟩ := hm
  have hd : d.inRange = true := by
    rcases hd with rfl | rfl
    · exact he.opnds₁ rfl
    · rfl
  have := b2n_lt set
  refine ⟨encR_fits he.head (by decide) (Opnd.idx_lt hd) (by decide) (by decide) (by omega), ?_⟩
  show parse (encR ..) = _
  simp (disch := omega) [parse, parsePred, Nat.sub_add_cancel, -Nat.reducePow]

theorem pmov_readsBack (k : Nat) (neg : Bool) (he : (Instr.pmov h k neg).Encodable) : (Instr.pmov h k neg).ReadsBack := by
  have hk : k ≤ 15 := of_decide_eq_true (he.checks rfl)
  have := b2n_lt neg
  refine ⟨encR_fits he.head (by decide) (by decide) (by decide) (by decide) (by omega), ?_⟩
  show parse (encR ..) = _
  simp (disch := omega) [parse, parsePred, -Nat.reducePow]

theorem pset_readsBack (k : Nat) (he : (Instr.pset h k a).Encodable) : (Instr.pset h k a).ReadsBack := by
  have ha := he.opnds₁ rfl
  have hk : k ≤ 15 := of_decide_eq_true (he.checks rfl)
  refine ⟨encR_fits he.head (by decide) (by decide) (Opnd.idx_lt ha) (by decide) (by omega), ?_⟩
  show parse (encR ..) = _
  simp (disch := omega) [parse, parsePred, -Nat.reducePow]

theorem plop_readsBack (k j tt : Nat) (rep : Bool) (he : (Instr.plop h k j tt rep).Encodable) : (Instr.plop h k j tt rep).ReadsBack := by
  have hm : (decide (k ≤ 15) && decide (j ≤ 15) && decide (tt ≤ 15)) = true := he.checks rfl
  simp only [Bool.and_eq_true, decide_eq_true_eq] at hm
  have := b2n_lt rep
  refine ⟨encR_fits he.head (by decide) (by decide) (by decide) (by decide) (by omega), ?_⟩
  show parse (encR ..) = _
  simp (disch := omega) [parse, parsePred, -Nat.reducePow]

/-! ### Groups 0x3 and 0x4 (05 R110) -/

theorem FMod.known_of_ok {m : FMod} {r s nc two : Bool} (hm : m.ok r s nc two = true) : m.rnd.known = true := by
  simp only [FMod.ok, Bool.and_eq_true, Bool.or_eq_true, beq_iff_eq] at hm
  rcases hm.1.1.1 with hr | ⟨-, hr⟩
  · rw [hr]; rfl
  · exact Rnd.known_of_plain hr

theorem FMod.flags_lt (m : FMod) :
    b2n m.sat < 2 ∧ b2n m.na < 2 ∧ b2n m.nb < 2 ∧ b2n m.nc < 2 ∧ b2n m.aa < 2 ∧ b2n m.ab < 2 :=
  ⟨b2n_lt _, b2n_lt _, b2n_lt _, b2n_lt _, b2n_lt _, b2n_lt _⟩

/-- X of groups 0x3 and 0x4 keeps to its field, and the type and the modifiers read back. -/
theorem fmod_reads {t : Ty} {m : FMod} (ht : t.known = true) (hm : m.rnd.known = true) :
    let x := t.code + m.bits
    x < 2 ^ 19 ∧ Ty.ofCode (bits x 4 0) = t ∧
      (⟨Rnd.ofCode (bits x 12 10), bit x 13, bit x 14, bit x 15, bit x 16, bit x 17, bit x 18⟩ : FMod) = m := by
  have := Ty.code_lt ht; have := Rnd.code_lt hm; have := m.flags_lt
  refine ⟨by rw [FMod.bits]; omega, ?_⟩
  simp (disch := omega) [FMod.bits, ← Nat.add_assoc, -Nat.reducePow]

theorem floatTwo_readsBack (m : FMod) : ∀ i ∈ [Instr.fadd h t d a y m, .fsub h t d a y m, .fmul h t d a y m, .fdiv h t d a y m,
    .fmin h t d a y m, .fmax h t d a y m], i.Encodable → i.ReadsBack := by
  intro i hi he
  fin_cases hi
  all_goals
    obtain ⟨hd, ha, hy⟩ := he.opnds₂S rfl
    have hm : (t.isF3 && _ && m.ok _ _ _ _) = true := he.checks rfl
    simp only [Bool.and_eq_true] at hm
    obtain ⟨hx, hty, hr⟩ := fmod_reads (Ty.known_of_isF3 hm.1.1) (FMod.known_of_ok hm.2)
    refine ⟨enc2_fits he.head (by decide) hd ha hy hx, ?_⟩
    show parse (enc2 ..) = _
    simp [parse, parseFloat, hd, ha, hy, Raw.ty, Raw.fmod, hty, hr]

theorem floatOne_readsBack (m : FMod) : ∀ i ∈ [Instr.frcp h t d a m, .frsq h t d a m, .fsqrt h t d a m, .fexp2 h t d a m,
    .flog2 h t d a m, .fsin h t d a m, .fcos h t d a m], i.Encodable → i.ReadsBack := by
  intro i hi he
  fin_cases hi
  all_goals
    obtain ⟨hd, ha⟩ := he.opnds₂ rfl
    have hm : (t.isF3 && m.ok _ _ _ _) = true := he.checks rfl
    rw [Bool.and_eq_true] at hm
    obtain ⟨hx, hty, hr⟩ := fmod_reads (Ty.known_of_isF3 hm.1) (FMod.known_of_ok hm.2)
    refine ⟨encR_fits he.head (by decide) (Opnd.idx_lt hd) (Opnd.idx_lt ha) (by decide) hx, ?_⟩
    show parse (encR ..) = _
    simp [parse, parseFloat, hd, ha, Raw.ty, Raw.fmod, hty, hr]

theorem ffma_readsBack (m : FMod) (he : (Instr.ffma h t d a b c m).Encodable) : (Instr.ffma h t d a b c m).ReadsBack := by
  obtain ⟨hd, ha, hb, hc⟩ := he.opnds₄ rfl
  have hm : (t.isF3 && m.ok _ _ _ _) = true := he.checks rfl
  rw [Bool.and_eq_true] at hm
  obtain ⟨hx, hty, hr⟩ := fmod_reads (Ty.known_of_isF3 hm.1) (FMod.known_of_ok hm.2)
  refine ⟨enc3_fits he.head (by decide) hd ha hb hc hx, ?_⟩
  show parse (enc3 ..) = _
  simp [parse, parseFloat, hd, ha, hb, hc, Raw.ty, Raw.fmod, hty, hr]

theorem doubleTwo_readsBack (m : FMod) : ∀ i ∈ [Instr.faddF64 h t d a b m, .fsubF64 h t d a b m, .fmulF64 h t d a b m,
    .fdivF64 h t d a b m, .fminF64 h t d a b m, .fmaxF64 h t d a b m], i.Encodable → i.ReadsBack := by
  intro i hi he
  fin_cases hi
  all_goals
    obtain ⟨hd, ha, hb⟩ := he.opnds₃ rfl
    have hm : (t == .f64 && m.ok _ _ _ _) = true := he.checks rfl
    simp only [Bool.and_eq_true, beq_iff_eq] at hm
    obtain ⟨hx, hty, hr⟩ := fmod_reads (t := t) (hm.1 ▸ rfl) (FMod.known_of_ok hm.2)
    refine ⟨encR_fits he.head (by decide) (Opnd.idx_lt hd) (Opnd.idx_lt ha) (Opnd.idx_lt hb) hx, ?_⟩
    show parse (encR ..) = _
    simp [parse, parseDouble, hd, ha, hb, Raw.ty, Raw.fmod, hty, hr]

theorem doubleOne_readsBack (m : FMod) : ∀ i ∈ [Instr.frcpF64 h t d a m, .frsqF64 h t d a m, .fsqrtF64 h t d a m],
    i.Encodable → i.ReadsBack := by
  intro i hi he
  fin_cases hi
  all_goals
    obtain ⟨hd, ha⟩ := he.opnds₂ rfl
    have hm : (t == .f64 && m.ok _ _ _ _) = true := he.checks rfl
    simp only [Bool.and_eq_true, beq_iff_eq] at hm
    obtain ⟨hx, hty, hr⟩ := fmod_reads (t := t) (hm.1 ▸ rfl) (FMod.known_of_ok hm.2)
    refine ⟨encR_fits he.head (by decide) (Opnd.idx_lt hd) (Opnd.idx_lt ha) (by decide) hx, ?_⟩
    show parse (encR ..) = _
    simp [parse, parseDouble, hd, ha, Raw.ty, Raw.fmod, hty, hr]

theorem ffmaF64_readsBack (m : FMod) (he : (Instr.ffmaF64 h t d a b c m).Encodable) : (Instr.ffmaF64 h t d a b c m).ReadsBack := by
  obtain ⟨hd, ha, hb, hc⟩ := he.opnds₄ rfl
  have hm : (t == .f64 && m.ok _ _ _ _) = true := he.checks rfl
  simp only [Bool.and_eq_true, beq_iff_eq] at hm
  obtain ⟨hx, hty, hr⟩ := fmod_reads (t := t) (hm.1 ▸ rfl) (FMod.known_of_ok hm.2)
  refine ⟨enc3_fits he.head (by decide) hd ha hb hc hx, ?_⟩
  show parse (enc3 ..) = _
  simp [parse, parseDouble, hd, ha, hb, hc, Raw.ty, Raw.fmod, hty, hr]

/-! ### Group 0x5 (05 R115) -/

/-- The fields of group 0x5 hold assigned codes. -/
structure CvtMod.Known (m : CvtMod) : Prop where
  dt   : m.dt.known = true
  st   : m.st.known = true
  rnd  : m.rnd.known = true
  elem : m.elem < 8

theorem CvtMod.known_of_cvtOk {m : CvtMod} (hm : m.cvtOk = true) : m.Known := by
  simp only [CvtMod.cvtOk, Bool.and_eq_true, beq_iff_eq] at hm
  obtain ⟨⟨⟨hd, hs⟩, he⟩, hr⟩ := hm
  refine ⟨Ty.known_of_cvtOk hd, Ty.known_of_cvtOk hs, ?_, by omega⟩
  revert hr
  cases m.rnd <;> simp [Rnd.plain, Rnd.known]

theorem CvtMod.known_of_dotOk {m : CvtMod} {four : Bool} (hm : m.dotOk four = true) : m.Known := by
  simp only [CvtMod.dotOk, Bool.and_eq_true, beq_iff_eq] at hm
  obtain ⟨he, hm⟩ := hm
  have he : m.elem < 8 := by omega
  split at hm
  next hd =>
    simp only [Bool.and_eq_true] at hm
    refine ⟨hd ▸ rfl, ?_, Rnd.known_of_plain hm.1.1, he⟩
    have hs := hm.2
    revert hs
    cases four <;> cases m.st <;> simp [Ty.known]
  next hd =>
    simp only [Bool.and_eq_true, beq_iff_eq] at hm
    exact ⟨hd ▸ rfl, by rw [hm.2]; cases four <;> rfl, hm.1 ▸ rfl, he⟩
  next hd =>
    simp only [Bool.and_eq_true, beq_iff_eq] at hm
    exact ⟨hd ▸ rfl, by rw [hm.2]; cases four <;> rfl, hm.1 ▸ rfl, he⟩
  next => cases hm

theorem CvtMod.known_of_packedTy {m : CvtMod} (hm : m.packedTy = true) : m.dt.known = true ∧ m.st.known = true := by
  simp only [CvtMod.packedTy, Bool.and_eq_true, beq_iff_eq] at hm
  obtain ⟨hs, hd⟩ := hm
  refine ⟨?_, hs ▸ rfl⟩
  revert hd
  cases m.dt <;> simp [Ty.known]

theorem CvtMod.known_of_paddOk {m : CvtMod} (hm : m.paddOk = true) : m.Known := by
  simp only [CvtMod.paddOk, Bool.and_eq_true, beq_iff_eq] at hm
  obtain ⟨⟨ht, he⟩, hr⟩ := hm
  refine ⟨(known_of_packedTy ht).1, (known_of_packedTy ht).2, ?_, by omega⟩
  revert hr
  cases m.rnd <;> simp [Rnd.plain, Rnd.known]

theorem CvtMod.known_of_pminOk {m : CvtMod} (hm : m.pminOk = true) : m.Known := by
  simp only [CvtMod.pminOk, Bool.and_eq_true, beq_iff_eq, decide_eq_true_eq] at hm
  obtain ⟨⟨⟨ht, he⟩, hr⟩, -⟩ := hm
  exact ⟨(known_of_packedTy ht).1, (known_of_packedTy ht).2, hr ▸ rfl, by omega⟩

theorem CvtMod.known_of_packOk {m : CvtMod} (hm : m.packOk = true) : m.Known := by
  simp only [CvtMod.packOk, Bool.and_eq_true, beq_iff_eq] at hm
  obtain ⟨⟨hs, hd⟩, hr⟩ := hm
  have hr : m.rnd.known = true := by revert hr; cases m.rnd <;> simp [Rnd.plain, Rnd.known]
  split at hd
  all_goals simp only [decide_eq_true_eq, beq_iff_eq, Bool.false_eq_true] at hd
  all_goals exact ⟨by simp_all [Ty.known], hs ▸ rfl, hr, by omega⟩

theorem CvtMod.known_of_unpackOk {m : CvtMod} (hm : m.unpackOk = true) : m.Known := by
  simp only [CvtMod.unpackOk, Bool.and_eq_true, beq_iff_eq, decide_eq_true_eq] at hm
  obtain ⟨⟨⟨ht, he⟩, hr⟩, -⟩ := hm
  have hs : 4 ≤ m.st.width := by cases m.st <;> simp [Ty.width]
  have h8 : m.elem < 8 := by nlinarith
  refine ⟨?_, ?_, hr ▸ rfl, h8⟩
  · revert ht; cases m.dt <;> simp [Ty.known]
  · revert ht; cases m.st <;> cases m.dt <;> simp [Ty.known]

/-- X of group 0x5 keeps to its field and reads back. -/
theorem cvtMod_reads {m : CvtMod} (hm : m.Known) : m.bits < 2 ^ 19 ∧
    (⟨Ty.ofCode (bits m.bits 4 0), Ty.ofCode (bits m.bits 9 5), Rnd.ofCode (bits m.bits 12 10), bit m.bits 13,
      bits m.bits 16 14⟩ : CvtMod) = m := by
  obtain ⟨hd, hs, hr, he⟩ := hm
  have := Ty.code_lt hd; have := Ty.code_lt hs; have := Rnd.code_lt hr; have := b2n_lt m.sat
  refine ⟨by rw [CvtMod.bits]; omega, ?_⟩
  simp (disch := omega) [CvtMod.bits, -Nat.reducePow]

theorem cvt_readsBack (m : CvtMod) (he : (Instr.cvt h d a m).Encodable) : (Instr.cvt h d a m).ReadsBack := by
  obtain ⟨hd, ha⟩ := he.opnds₂ rfl
  obtain ⟨hx, hm⟩ := cvtMod_reads (CvtMod.known_of_cvtOk (he.checks rfl))
  refine ⟨encR_fits he.head (by decide) (Opnd.idx_lt hd) (Opnd.idx_lt ha) (by decide) hx, ?_⟩
  show parse (encR ..) = _
  simp [parse, parseConvert, hd, ha, Raw.cvt, Raw.ty, hm]

theorem dot_readsBack (m : CvtMod) : ∀ i ∈ [Instr.dot2 h d a b c m, .dot4 h d a b c m], i.Encodable → i.ReadsBack := by
  intro i hi he
  fin_cases hi
  all_goals
    obtain ⟨hd, ha, hb, hc⟩ := he.opnds₄ rfl
    obtain ⟨hx, hm⟩ := cvtMod_reads (CvtMod.known_of_dotOk (m := m) (he.checks rfl))
    refine ⟨enc3_fits he.head (by decide) hd ha hb hc hx, ?_⟩
    show parse (enc3 ..) = _
    simp [parse, parseConvert, hd, ha, hb, hc, Raw.cvt, Raw.ty, hm]

theorem packedTwo_readsBack (m : CvtMod) : ∀ i ∈ [Instr.padd h d a y m, .pmax h d a y m, .pmin h d a y m], i.Encodable → i.ReadsBack := by
  intro i hi he
  have hk : m.Known := by
    fin_cases hi
    · exact CvtMod.known_of_paddOk (he.checks rfl)
    · exact CvtMod.known_of_pminOk (he.checks rfl)
    · exact CvtMod.known_of_pminOk (he.checks rfl)
  obtain ⟨hx, hm⟩ := cvtMod_reads hk
  fin_cases hi
  all_goals
    obtain ⟨hd, ha, hy⟩ := he.opnds₂S rfl
    refine ⟨enc2_fits he.head (by decide) hd ha hy hx, ?_⟩
    show parse (enc2 ..) = _
    simp [parse, parseConvert, hd, ha, hy, Raw.cvt, Raw.ty, hm]

theorem pack_readsBack (m : CvtMod) (he : (Instr.pack h d a b m).Encodable) : (Instr.pack h d a b m).ReadsBack := by
  obtain ⟨hd, ha, hb⟩ := he.opnds₃ rfl
  obtain ⟨hx, hm⟩ := cvtMod_reads (CvtMod.known_of_packOk (he.checks rfl))
  refine ⟨encR_fits he.head (by decide) (Opnd.idx_lt hd) (Opnd.idx_lt ha) (Opnd.idx_lt hb) hx, ?_⟩
  show parse (encR ..) = _
  simp [parse, parseConvert, hd, ha, hb, Raw.cvt, Raw.ty, hm]

theorem unpack_readsBack (m : CvtMod) (he : (Instr.unpack h d a m).Encodable) : (Instr.unpack h d a m).ReadsBack := by
  obtain ⟨hd, ha⟩ := he.opnds₂ rfl
  obtain ⟨hx, hm⟩ := cvtMod_reads (CvtMod.known_of_unpackOk (he.checks rfl))
  refine ⟨encR_fits he.head (by decide) (Opnd.idx_lt hd) (Opnd.idx_lt ha) (by decide) hx, ?_⟩
  show parse (encR ..) = _
  simp [parse, parseConvert, hd, ha, Raw.cvt, Raw.ty, hm]

theorem seed_readsBack (mix : Bool) (he : (Instr.seed h y mix).Encodable) : (Instr.seed h y mix).ReadsBack := by
  have hy := he.opndsS rfl
  have := b2n_lt mix
  refine ⟨enc1_fits (d := .v 0) he.head (by decide) rfl hy (by omega), ?_⟩
  show parse (enc1 h 0x148 (.v 0) y _) = _
  simp [parse, parseConvert, hy, -Nat.reducePow]

end

end Sys2Proof

namespace Sys2Proof
section
variable (h : Head) (t : Ty) (d a b c : Opnd) (y : Src)

/-! ### Group 0x6 (04 R93) -/

theorem vote_readsBack (mode : VoteMode) (psrc : Bool) (pdepth : Nat) (pneg : Bool) (he : (Instr.vote h d a mode psrc pdepth pneg).Encodable) :
    (Instr.vote h d a mode psrc pdepth pneg).ReadsBack := by
  have ho : ∀ u ∈ useK .d d _ :: (if psrc then [] else [useT .a a .n32]), u.o.inRange = true := he.opnds
  have hm : (decide (pdepth ≤ 15) && (!psrc || a == .v 0)) = true := he.checks rfl
  simp only [Bool.and_eq_true, decide_eq_true_eq, Bool.or_eq_true, beq_iff_eq, Bool.not_eq_true'] at hm
  rw [List.forall_mem_cons] at ho
  obtain ⟨(hd : d.inRange = true), ho⟩ := ho
  have ha : a.inRange = true := by
    rcases hm.2 with rfl | rfl
    · exact ho (useT .a a .n32) (List.mem_singleton.2 rfl)
    · rfl
  have := mode.code_lt; have := b2n_lt psrc; have := b2n_lt pneg
  refine ⟨encR_fits he.head (by decide) (Opnd.idx_lt hd) (Opnd.idx_lt ha) (by decide) (by omega), ?_⟩
  show parse (encR ..) = _
  simp (disch := omega) [parse, parseCross, -Nat.reducePow]

theorem shfl_readsBack (mode : ShflMode) (seg : Nat) (he : (Instr.shfl h t d a y mode seg).Encodable) :
    (Instr.shfl h t d a y mode seg).ReadsBack := by
  obtain ⟨hd, ha, hy⟩ := he.opnds₂S rfl
  have hm : ((t == .b32 || t == .b64) && decide (seg ≤ 5)) = true := he.checks rfl
  simp only [Bool.and_eq_true, Bool.or_eq_true, beq_iff_eq, decide_eq_true_eq] at hm
  have ht : t.known = true := by rcases hm.1 with rfl | rfl <;> rfl
  have := Ty.code_lt ht; have := mode.code_lt
  refine ⟨enc2_fits he.head (by decide) hd ha hy (by omega), ?_⟩
  show parse (enc2 ..) = _
  simp (disch := omega) [parse, parseCross, Raw.ty, -Nat.reducePow]

theorem bcast_readsBack (last : Bool) (he : (Instr.bcast h t d a last).Encodable) : (Instr.bcast h t d a last).ReadsBack := by
  obtain ⟨hd, ha⟩ := he.opnds₂ rfl
  have hm : (t == .b32 || t == .b64) = true := he.checks rfl
  simp only [Bool.or_eq_true, beq_iff_eq] at hm
  have ht : t.known = true := by rcases hm with rfl | rfl <;> rfl
  have := Ty.code_lt ht; have := b2n_lt last
  refine ⟨encR_fits he.head (by decide) (Opnd.idx_lt hd) (Opnd.idx_lt ha) (by decide) (by omega), ?_⟩
  show parse (encR ..) = _
  simp (disch := omega) [parse, parseCross, Raw.ty, -Nat.reducePow]

theorem scan_readsBack (op : ScanOp) (excl sat : Bool) (he : (Instr.scan h t d a op excl sat).Encodable) :
    (Instr.scan h t d a op excl sat).ReadsBack := by
  obtain ⟨hd, ha⟩ := he.opnds₂ rfl
  obtain ⟨ht, ho⟩ := Ty.known_of_scanOk (t := t) (op := op) (sat := sat) (he.checks rfl)
  have := Ty.code_lt ht; have := ScanOp.code_lt ho; have := b2n_lt excl; have := b2n_lt sat
  refine ⟨encR_fits he.head (by decide) (Opnd.idx_lt hd) (Opnd.idx_lt ha) (by decide) (by omega), ?_⟩
  show parse (encR ..) = _
  simp (disch := omega) [parse, parseCross, Raw.ty, -Nat.reducePow]

theorem fold_readsBack (op : ScanOp) (sat : Bool) (he : (Instr.fold h t d a op sat).Encodable) : (Instr.fold h t d a op sat).ReadsBack := by
  obtain ⟨hd, ha⟩ := he.opnds₂ rfl
  obtain ⟨ht, ho⟩ := Ty.known_of_scanOk (t := t) (op := op) (sat := sat) (he.checks rfl)
  have := Ty.code_lt ht; have := ScanOp.code_lt ho; have := b2n_lt sat
  refine ⟨encR_fits he.head (by decide) (Opnd.idx_lt hd) (Opnd.idx_lt ha) (by decide) (by omega), ?_⟩
  show parse (encR ..) = _
  simp (disch := omega) [parse, parseCross, Raw.ty, -Nat.reducePow]

/-! ### Group 0x7 (06 R121 to R138) -/

/-- The condition register of a branch that passes check 7 is one of its operands. -/
theorem BrCond.reg_inRange {q : BrCond} {f : Fld} (hq : q.ok = true) (ho : ∀ u ∈ q.uses f, u.o.inRange = true) : q.reg.inRange = true := by
  simp only [BrCond.ok, Bool.and_eq_true, Bool.or_eq_true, beq_iff_eq] at hq
  unfold BrCond.uses at ho
  split at ho
  · exact ho _ (List.mem_singleton.2 rfl)
  · split at ho
    · exact ho _ (List.mem_singleton.2 rfl)
    · simp_all

theorem BrCond.cond_le {q : BrCond} (hq : q.ok = true) : q.cond ≤ 2 := by
  simp only [BrCond.ok, Bool.and_eq_true, decide_eq_true_eq] at hq
  exact hq.1

theorem bra_readsBack (tgt : BrTarget) (q : BrCond) (he : (Instr.bra h tgt q).Encodable) : (Instr.bra h tgt q).ReadsBack := by
  have hm : (tgt.ok && q.ok) = true := he.checks rfl
  have hq := (Bool.and_eq_true_iff.1 hm).2
  have hr := BrCond.reg_inRange hq he.opnds
  have hc := BrCond.cond_le hq
  refine ⟨encBr_fits he.head (by decide) (by decide) (Opnd.idx_lt hr) hc, ?_⟩
  show parse (encBr ..) = _
  simp [parse, parseControl, hr, hc]

theorem call_readsBack (tgt : BrTarget) (q : BrCond) (he : (Instr.call h d tgt q).Encodable) : (Instr.call h d tgt q).ReadsBack := by
  have ho : ∀ u ∈ useK .d d _ :: q.uses .a, u.o.inRange = true := he.opnds
  rw [List.forall_mem_cons] at ho
  obtain ⟨(hd : d.inRange = true), ho⟩ := ho
  have hm : (tgt.ok && q.ok) = true := he.checks rfl
  have hq := (Bool.and_eq_true_iff.1 hm).2
  have hr := BrCond.reg_inRange hq ho
  have hc := BrCond.cond_le hq
  refine ⟨encBr_fits he.head (by decide) (Opnd.idx_lt hd) (Opnd.idx_lt hr) hc, ?_⟩
  show parse (encBr ..) = _
  simp [parse, parseControl, hd, hr, hc]

theorem register_branch_readsBack (q : BrCond) : ∀ i ∈ [Instr.brx h a q, .ret h a q], i.Encodable → i.ReadsBack := by
  intro i hi he
  have := b2n_lt q.u
  fin_cases hi
  all_goals
    have ho : ∀ u ∈ (if q.u then useK .a a .uniform else useT .a a .n32) :: q.uses .b, u.o.inRange = true := he.opnds
    rw [List.forall_mem_cons, apply_ite Use.o] at ho
    obtain ⟨(ha : (if q.u = true then a else a).inRange = true), ho⟩ := ho
    rw [ite_self] at ha
    have hq : q.ok = true := he.checks rfl
    have hr := BrCond.reg_inRange hq ho
    have hc := BrCond.cond_le hq
    refine ⟨encR_fits he.head (by decide) (by decide) (Opnd.idx_lt ha) (Opnd.idx_lt hr) (by rw [BrCond.bits]; omega), ?_⟩
    show parse (encR ..) = _
    simp (disch := omega) [parse, parseControl, Raw.brCond, BrCond.bits, -Nat.reducePow]

theorem bare_readsBack : ∀ i ∈ [Instr.exit h, .xgrow h, .xshrink h, .olnext h], i.Encodable → i.ReadsBack := by
  intro i hi he
  fin_cases hi
  all_goals
    refine ⟨encR_fits he.head (by decide) (by decide) (by decide) (by decide) (by decide), ?_⟩
    show parse (encR ..) = _
    simp [parse, parseControl]

theorem spawn_readsBack (entry : Word) (tmo blk : Nat) (he : (Instr.spawn h a entry tmo blk).Encodable) :
    (Instr.spawn h a entry tmo blk).ReadsBack := by
  have ha := he.opnds₁ rfl
  have hm : (_ && decide (tmo ≤ 15) && decide (blk ≤ 5)) = true := he.checks rfl
  simp only [Bool.and_eq_true, decide_eq_true_eq] at hm
  refine ⟨enc_fits he.head (by decide) (by decide) (Nat.succ_pos _) (Opnd.idx_lt ha) (Nat.succ_pos _) (by omega) entry.isLt
    (Nat.succ_pos _) (Nat.two_pow_pos _) (fun h => absurd rfl h) fun _ => ⟨rfl, rfl⟩, ?_⟩
  show parse { enc h 0x1C5 2 with a := _, x := _, imm := _ } = _
  simp (disch := omega) [parse, parseControl, Raw.accept, Raw.oA, -Nat.reducePow]

theorem oneSource_readsBack : ∀ i ∈ [Instr.meet h a, .fetchw h a], i.Encodable → i.ReadsBack := by
  intro i hi he
  fin_cases hi
  all_goals
    have ha := he.opnds₁ rfl
    refine ⟨encR_fits he.head (by decide) (by decide) (Opnd.idx_lt ha) (by decide) (by decide), ?_⟩
    show parse (encR ..) = _
    simp [parse, parseControl, ha]

theorem launch_readsBack (he : (Instr.launch h d a b).Encodable) : (Instr.launch h d a b).ReadsBack := by
  obtain ⟨hd, ha, hb⟩ := he.opnds₃ rfl
  refine ⟨encR_fits he.head (by decide) (Opnd.idx_lt hd) (Opnd.idx_lt ha) (Opnd.idx_lt hb) (by decide), ?_⟩
  show parse (encR ..) = _
  simp [parse, parseControl, hd, ha, hb]

theorem nop_readsBack (len : Len) (he : (Instr.nop h len).Encodable) : (Instr.nop h len).ReadsBack := by
  have hl : ∀ l, 1 ≤ l ∧ l ≤ 3 → (enc h 0x1CB l).Fits := fun l hl =>
    enc_fits he.head hl (by decide) (Nat.succ_pos _) (Nat.succ_pos _) (Nat.succ_pos _) (Nat.two_pow_pos _) (Nat.two_pow_pos _)
      (Nat.succ_pos _) (Nat.two_pow_pos _) (fun _ => rfl) fun _ => ⟨rfl, rfl⟩
  have hh : ∀ l, (enc h 0x1CB l).head = h := fun l => Raw.head_enc h 0x1CB l ..
  cases len with
  | l64 => exact ⟨hl 1 (by decide), by simp [Instr.raw, parse, parseControl, Raw.accept, hh]⟩
  | l96 => exact ⟨hl 2 (by decide), by simp [Instr.raw, parse, parseControl, Raw.accept, hh]⟩
  | l128 => exact ⟨hl 3 (by decide), by simp [Instr.raw, parse, parseControl, Raw.accept, hh]⟩

theorem rqpop_readsBack (he : (Instr.rqpop h d).Encodable) : (Instr.rqpop h d).ReadsBack := by
  have hd := he.opnds₁ rfl
  refine ⟨encR_fits he.head (by decide) (Opnd.idx_lt hd) (by decide) (by decide) (by decide), ?_⟩
  show parse (encR ..) = _
  simp [parse, parseControl, hd]

theorem olfor_readsBack (e : Word) (he : (Instr.olfor h d a e).Encodable) : (Instr.olfor h d a e).ReadsBack := by
  obtain ⟨hd, ha⟩ := he.opnds₂ rfl
  refine ⟨enc_fits he.head (by decide) (by decide) (Opnd.idx_lt hd) (Opnd.idx_lt ha) (Nat.succ_pos _) (Nat.two_pow_pos _) e.isLt
    (Nat.succ_pos _) (Nat.two_pow_pos _) (fun h => absurd rfl h) fun _ => ⟨rfl, rfl⟩, ?_⟩
  show parse { enc h 0x1D0 2 with d := _, a := _, imm := _ } = _
  simp [parse, parseControl, Raw.accept, Raw.oD, Raw.oA, hd, ha]

theorem olpost_readsBack (op : Nat) : ∀ i ∈ [Instr.olpostMill h a b op, .olpostPort h a b op], i.Encodable → i.ReadsBack := by
  intro i hi he
  fin_cases hi
  all_goals
    obtain ⟨ha, hb⟩ := he.opnds₂ rfl
    have hm : (_ && decide (op < 1024)) = true := he.checks rfl
    simp only [Bool.and_eq_true, decide_eq_true_eq] at hm
    refine ⟨enc_fits he.head (by decide) (by decide) (Nat.succ_pos _) (Opnd.idx_lt ha) (Opnd.idx_lt hb) (by simp) (Nat.two_pow_pos _)
      (Nat.succ_pos _) (by omega) (fun _ => rfl) fun h => absurd rfl h, ?_⟩
    show parse { enc h 0x1D2 3 with a := _, b := _, x := _, ext := _ } = _
    have : bits 0 6 5 = 0 := rfl
    have : bits (2 ^ 5) 6 5 = 1 := rfl
    simp (disch := omega) [parse, parseControl, Raw.accept, Raw.oA, Raw.oB, PostQ.ofCode, *, -Nat.reducePow]

theorem olpostRec_readsBack (he : (Instr.olpostRec h a b).Encodable) : (Instr.olpostRec h a b).ReadsBack := by
  obtain ⟨ha, hb⟩ := he.opnds₂ rfl
  refine ⟨enc_fits he.head (by decide) (by decide) (Nat.succ_pos _) (Opnd.idx_lt ha) (Opnd.idx_lt hb) (by decide) (Nat.two_pow_pos _)
    (Nat.succ_pos _) (Nat.two_pow_pos _) (fun _ => rfl) fun h => absurd rfl h, ?_⟩
  show parse { enc h 0x1D2 3 with a := _, b := _, x := 64 } = _
  have : bits 64 6 5 = 2 := rfl
  simp [parse, parseControl, Raw.accept, Raw.oA, Raw.oB, PostQ.ofCode, ha, hb, this]

theorem olpermit_readsBack (q : PostQ) (he : (Instr.olpermit h q y).Encodable) : (Instr.olpermit h q y).ReadsBack := by
  have hy := he.opndsS rfl
  have := q.code_lt
  refine ⟨enc1_fits (d := .v 0) he.head (by decide) rfl hy (by omega), ?_⟩
  show parse (enc1 h 0x1D3 (.v 0) y _) = _
  simp (disch := omega) [parse, parseControl, -Nat.reducePow]

end

end Sys2Proof

namespace Sys2Proof
section
variable (h : Head) (t : Ty) (d a b c : Opnd) (y : Src)

/-! ### Groups 0x8 and 0x9 (10 R210) -/

/-- The fields of a memory form hold assigned codes. -/
structure MemMod.Known (m : MemMod) : Prop where
  ty    : m.ty.known = true
  sp    : m.sp.known = true
  ord   : m.ord.known = true
  cache : m.cache < 4
  vec   : m.vec < 4

theorem MemMod.known_of_ldstOk {m : MemMod} {load : Bool} (hm : m.ldstOk load = true) : m.Known := by
  simp only [MemMod.ldstOk, Bool.and_eq_true, Bool.or_eq_true, decide_eq_true_eq, beq_iff_eq] at hm
  obtain ⟨⟨⟨⟨⟨⟨⟨ht, hs⟩, -⟩, hc⟩, hv⟩, ho⟩, -⟩, -⟩ := hm
  refine ⟨Ty.known_of_isRaw ht, hs, ?_, by omega, by omega⟩
  rcases ho with (ho | ho) | ho <;> rw [ho]
  · rfl
  · rfl
  · cases load <;> rfl

theorem MemMod.aop_lt {m : MemMod} {t : Ty} (hm : m.aop.accepts t = true) : m.vec * 4 + m.cache < 10 := by
  unfold MemMod.aop at hm
  split at hm
  case h_11 => exact absurd hm Bool.false_ne_true
  all_goals omega

theorem MemMod.known_of_atomOk {m : MemMod} (hm : m.atomOk = true) : m.Known := by
  simp only [MemMod.atomOk, Bool.and_eq_true, decide_eq_true_eq] at hm
  obtain ⟨⟨⟨⟨hs, ho⟩, ha⟩, hc⟩, -⟩ := hm
  have := MemMod.aop_lt ha
  exact ⟨Ty.known_of_accepts ha, hs, ho, by omega, by omega⟩

theorem MemMod.known_of_casOk {m : MemMod} (hm : m.casOk = true) : m.Known := by
  simp only [MemMod.casOk, Bool.and_eq_true, beq_iff_eq] at hm
  obtain ⟨⟨⟨⟨⟨⟨hs, ho⟩, ht⟩, -⟩, hv⟩, hc⟩, -⟩ := hm
  exact ⟨Ty.known_of_isWideRaw ht, hs, ho, by omega, by omega⟩

/-- X of the memory forms keeps to its field and reads back. -/
theorem memMod_reads {m : MemMod} (hm : m.Known) : m.bits < 2 ^ 19 ∧
    (⟨Ty.ofCode (bits m.bits 4 0), Space.ofCode (bits m.bits 7 5), Ord.ofCode (bits m.bits 10 8), Scope.ofCode (bits m.bits 13 11),
      bits m.bits 15 14, bits m.bits 17 16, bit m.bits 18⟩ : MemMod) = m := by
  obtain ⟨ht, hs, ho, hc, hv⟩ := hm
  have := Ty.code_lt ht; have := Space.code_lt hs; have := Ord.code_lt ho; have := m.scope.code_lt; have := b2n_lt m.nr
  refine ⟨by rw [MemMod.bits]; omega, ?_⟩
  simp (disch := omega) [MemMod.bits, -Nat.reducePow]

theorem forall_useSd {se gang : Bool} {sd : Opnd} (hs : (se || sd == .v 0) = true) (ho : ∀ u ∈ useSd se sd gang, u.o.inRange = true) :
    sd.inRange = true := by
  cases se with
  | true => exact ho _ (List.mem_singleton.2 rfl)
  | false => rw [beq_iff_eq.1 hs]; rfl

theorem MemExt.inRange_of_ok {e : MemExt} {gang : Bool} (he : e.ok = true) (ho : ∀ u ∈ e.uses gang, u.o.inRange = true) :
    e.inRange = true := by
  cases e with
  | wide off se sd => exact forall_useSd he ho
  | _ => rfl

@[simp] theorem useMemD_o (o : Opnd) (t : Ty) (n : Nat) : (useMemD o t n).o = o := rfl
@[simp] theorem useAddr_o (o : Opnd) (m : MemMod) : (useAddr o m).o = o := by unfold useAddr; split <;> rfl
@[simp] theorem useT_o (f : Fld) (o : Opnd) (t : Ty) : (useT f o t).o = o := rfl

theorem ld_readsBack (m : MemMod) (e : MemExt) (he : (Instr.ld h d a m e).Encodable) : (Instr.ld h d a m e).ReadsBack := by
  have ho : ∀ u ∈ [useMemD d _ _, useAddr a m] ++ e.uses _, u.o.inRange = true := he.opnds
  simp only [List.forall_mem_append, List.forall_mem_cons, useMemD_o, useAddr_o] at ho
  obtain ⟨⟨hd, ha, -⟩, ho⟩ := ho
  have hm : (m.ldstOk true && e.ok) = true := he.checks rfl
  rw [Bool.and_eq_true] at hm
  have hr := MemExt.inRange_of_ok hm.2 ho
  obtain ⟨hx, hm⟩ := memMod_reads (MemMod.known_of_ldstOk hm.1)
  refine ⟨encMem_fits he.head (by decide) (Opnd.idx_lt hd) (Opnd.idx_lt ha) (by decide) hx hr, ?_⟩
  show parse (encMem ..) = _
  simp [parse, parseMemory, Raw.mem, Raw.ty, hd, ha, hr, hm]

theorem st_readsBack (m : MemMod) (e : MemExt) (he : (Instr.st h a b m e).Encodable) : (Instr.st h a b m e).ReadsBack := by
  have ho : ∀ u ∈ [useAddr a m, ⟨.b, b, _, _, _, _⟩] ++ e.uses _, u.o.inRange = true := he.opnds
  simp only [List.forall_mem_append, List.forall_mem_cons, useAddr_o] at ho
  obtain ⟨⟨ha, hb, -⟩, ho⟩ := ho
  have hm : (m.ldstOk false && e.ok) = true := he.checks rfl
  rw [Bool.and_eq_true] at hm
  have hr := MemExt.inRange_of_ok hm.2 ho
  obtain ⟨hx, hm⟩ := memMod_reads (MemMod.known_of_ldstOk hm.1)
  refine ⟨encMem_fits he.head (by decide) (by decide) (Opnd.idx_lt ha) (Opnd.idx_lt hb) hx hr, ?_⟩
  show parse (encMem ..) = _
  simp [parse, parseMemory, Raw.mem, Raw.ty, ha, hb, hr, hm]

theorem pref_readsBack (m : MemMod) (off : Option Word) (he : (Instr.pref h a m off).Encodable) : (Instr.pref h a m off).ReadsBack := by
  have ho : ∀ u ∈ [useAddr a m], u.o.inRange = true := he.opnds
  rw [List.forall_mem_singleton, useAddr_o] at ho
  have hm : (m.ty == .b8 && m.ord == .relaxed && _ && _ && m.vec == 0 && decide (m.cache ≤ 2) &&
    (m.sp == .g || m.sp == .k || m.sp == .f)) = true := he.checks rfl
  simp only [Bool.and_eq_true, Bool.or_eq_true, beq_iff_eq, decide_eq_true_eq] at hm
  obtain ⟨⟨⟨⟨⟨⟨ht, hor⟩, -⟩, -⟩, hv⟩, hc⟩, hs⟩ := hm
  have hs : m.sp.known = true := by rcases hs with (hs | hs) | hs <;> rw [hs] <;> rfl
  obtain ⟨hx, hm⟩ := memMod_reads ⟨ht ▸ rfl, hs, hor ▸ rfl, by omega, by omega⟩
  cases off with
  | none =>
    refine ⟨encMem_fits (e := .short) he.head (by decide) (by decide) (Opnd.idx_lt ho) (by decide) hx rfl, ?_⟩
    show parse (encR ..) = _
    simp [parse, parseMemory, Raw.mem, Raw.ty, ho, hm]
  | some w =>
    refine ⟨encMem_fits (e := .imm w) he.head (by decide) (by decide) (Opnd.idx_lt ho) (by decide) hx rfl, ?_⟩
    show parse { enc h 0x202 2 with d := 0, a := _, b := 0, x := _, imm := _ } = _
    simp [parse, parseMemory, Raw.accept, Raw.oA, Raw.mem, Raw.ty, ho, hm]

theorem cacheOp_readsBack (level : Nat) : ∀ i ∈ [Instr.cflush h a b level, .cinval h a b level], i.Encodable → i.ReadsBack := by
  intro i hi he
  fin_cases hi
  all_goals
    obtain ⟨ha, hb⟩ := he.opnds₂ rfl
    have hl : level ≤ 2 := of_decide_eq_true (he.checks rfl)
    refine ⟨encR_fits he.head (by decide) (by decide) (Opnd.idx_lt ha) (Opnd.idx_lt hb) (by omega), ?_⟩
    show parse (encR ..) = _
    simp (disch := omega) [parse, parseMemory, -Nat.reducePow]

theorem atom_readsBack (m : MemMod) (e : MemExt) (he : (Instr.atom h d a b m e).Encodable) : (Instr.atom h d a b m e).ReadsBack := by
  have ho : ∀ u ∈ [if m.nr then useK .d d .zero else useMemD d _ _, useAddr a m, useT .b b _] ++ e.uses _, u.o.inRange = true := he.opnds
  simp only [List.forall_mem_append, List.forall_mem_cons, useAddr_o, useT_o, apply_ite Use.o] at ho
  obtain ⟨⟨(hd : (if m.nr = true then d else d).inRange = true), ha, hb, -⟩, ho⟩ := ho
  rw [ite_self] at hd
  have hm : (m.atomOk && e.ok) = true := he.checks rfl
  rw [Bool.and_eq_true] at hm
  have hr := MemExt.inRange_of_ok hm.2 ho
  obtain ⟨hx, hm⟩ := memMod_reads (MemMod.known_of_atomOk hm.1)
  refine ⟨encMem_fits he.head (by decide) (Opnd.idx_lt hd) (Opnd.idx_lt ha) (Opnd.idx_lt hb) hx hr, ?_⟩
  show parse (encMem ..) = _
  simp [parse, parseAtomic, Raw.mem, Raw.ty, hd, ha, hb, hr, hm]

theorem atomcas_readsBack (m : MemMod) (off : Word) (se : Bool) (sd : Opnd) (he : (Instr.atomcas h d a b c m off se sd).Encodable) :
    (Instr.atomcas h d a b c m off se sd).ReadsBack := by
  have ho : ∀ u ∈ [useMemD d _ _, useAddr a m, useT .b b _, useT .c c _] ++ useSd se sd _, u.o.inRange = true := he.opnds
  simp only [List.forall_mem_append, List.forall_mem_cons, useAddr_o, useT_o, useMemD_o] at ho
  obtain ⟨⟨hd, ha, hb, hc, -⟩, ho⟩ := ho
  have hm : (m.casOk && (se || sd == .v 0)) = true := he.checks rfl
  rw [Bool.and_eq_true] at hm
  have hr := forall_useSd hm.2 ho
  obtain ⟨hx, hm⟩ := memMod_reads (MemMod.known_of_casOk hm.1)
  obtain ⟨h1, h2, h3⟩ := memExt_reads (off := off) (se := se) hr
  refine ⟨enc_fits (op := 0x241) (len := 3) he.head (by decide) (by decide) (Opnd.idx_lt hd) (Opnd.idx_lt ha) (Opnd.idx_lt hb) hx
    (Nat.two_pow_pos _) (Opnd.idx_lt hc) (memExt_lt hr) (fun _ => rfl) fun h => absurd rfl h, ?_⟩
  show parse { enc h 0x241 3 with d := _, a := _, b := _, x := _, c := _, ext := _ } = _
  simp [parse, parseAtomic, Raw.accept, Raw.oD, Raw.oA, Raw.oB, Raw.oC, Raw.mem, Raw.ty, encMem, hd, ha, hb, hc, hm, h1, h2, h3]

theorem fence_readsBack (ord : Ord) (scope : Scope) (he : (Instr.fence h ord scope).Encodable) : (Instr.fence h ord scope).ReadsBack := by
  have hm : (ord.known && _) = true := he.checks rfl
  have ho := (Bool.and_eq_true_iff.1 hm).1
  have := Ord.code_lt ho; have := scope.code_lt
  refine ⟨encR_fits he.head (by decide) (by decide) (by decide) (by decide) (by omega), ?_⟩
  show parse (encR ..) = _
  simp (disch := omega) [parse, parseAtomic, Raw.ord, Raw.scope, -Nat.reducePow]

theorem xfence_readsBack (p q : PathClass) (he : (Instr.xfence h p q).Encodable) : (Instr.xfence h p q).ReadsBack := by
  have hm : (_ && _) = true := he.checks rfl
  rw [Bool.and_eq_true] at hm
  have hp : p.known = true := by have := hm.1; revert this; cases p <;> simp [PathClass.known]
  have hq : q.known = true := by have := hm.2; revert this; cases q <;> simp [PathClass.known]
  have := PathClass.code_lt hp; have := PathClass.code_lt hq
  refine ⟨encR_fits he.head (by decide) (by decide) (by decide) (by decide) (by omega), ?_⟩
  show parse (encR ..) = _
  simp (disch := omega) [parse, parseAtomic, -Nat.reducePow]

end

end Sys2Proof

namespace Sys2Proof
section
variable (h : Head) (t : Ty) (d a b c : Opnd) (y : Src)

/-! ### Groups 0xA and 0xB (07 R147, 11 R230, R244) -/

theorem typedCommand_readsBack (nh : Bool) : ∀ i ∈ [Instr.mload h t d y nh, .mrun h t d y nh, .mepi h t d y nh, .mdelta h t d y nh],
    i.Encodable → i.ReadsBack := by
  intro i hi he
  have ht : t.known = true := by
    fin_cases hi
    · exact Ty.known_of_isPlane (he.checks rfl)
    · exact Ty.known_of_isPlane (he.checks rfl)
    · exact Ty.known_of_isResult (he.checks rfl)
    · exact Ty.known_of_isDeltaIn (he.checks rfl)
  have := Ty.code_lt ht; have := b2n_lt nh
  fin_cases hi
  all_goals
    obtain ⟨hd, hy⟩ := he.opnds₁U rfl
    refine ⟨enc1_fits he.head (by decide) hd hy (by omega), ?_⟩
    show parse (enc1 ..) = _
    simp (disch := omega) [parse, parseMill, parseSlot, Raw.ty, -Nat.reducePow]

theorem mswap_readsBack (nh : Bool) (he : (Instr.mswap h d nh).Encodable) : (Instr.mswap h d nh).ReadsBack := by
  have hd := he.opnds₁ rfl
  have := b2n_lt nh
  refine ⟨encR_fits he.head (by decide) (Opnd.idx_lt hd) (by decide) (by decide) (by omega), ?_⟩
  show parse (encR ..) = _
  simp (disch := omega) [parse, parseMill, -Nat.reducePow]

theorem mchainLink_readsBack (nh : Bool) (len : Nat) (he : (Instr.mchainLink h d nh len).Encodable) :
    (Instr.mchainLink h d nh len).ReadsBack := by
  have hd := he.opnds₁ rfl
  have hl : 1 ≤ len ∧ len ≤ 4 := of_decide_eq_true (he.checks rfl)
  have := b2n_lt nh
  refine ⟨encR_fits he.head (by decide) (Opnd.idx_lt hd) (by decide) (by decide) (by omega), ?_⟩
  show parse (encR ..) = _
  simp (disch := omega) [parse, parseMill, bits_above, Nat.sub_add_cancel, -Nat.reducePow]

theorem mchainJoin_readsBack (nh : Bool) (he : (Instr.mchainJoin h d a nh).Encodable) : (Instr.mchainJoin h d a nh).ReadsBack := by
  obtain ⟨hd, ha⟩ := he.opnds₂ rfl
  have := b2n_lt nh
  refine ⟨encR_fits he.head (by decide) (Opnd.idx_lt hd) (Opnd.idx_lt ha) (by decide) (by omega), ?_⟩
  show parse (encR ..) = _
  simp (disch := omega) [parse, parseMill, -Nat.reducePow]

theorem mchainUnlink_readsBack (nh : Bool) (he : (Instr.mchainUnlink h d nh).Encodable) : (Instr.mchainUnlink h d nh).ReadsBack := by
  have hd := he.opnds₁ rfl
  have := b2n_lt nh
  refine ⟨encR_fits he.head (by decide) (Opnd.idx_lt hd) (by decide) (by decide) (by omega), ?_⟩
  show parse (encR ..) = _
  simp (disch := omega) [parse, parseMill, -Nat.reducePow]

theorem maccz_readsBack (nh : Bool) (mask : Nat) (he : (Instr.maccz h d nh mask).Encodable) : (Instr.maccz h d nh mask).ReadsBack := by
  have hd := he.opnds₁ rfl
  have hl : 1 ≤ mask ∧ mask ≤ 15 := of_decide_eq_true (he.checks rfl)
  have := b2n_lt nh
  refine ⟨encR_fits he.head (by decide) (Opnd.idx_lt hd) (by decide) (by decide) (by omega), ?_⟩
  show parse (encR ..) = _
  simp (disch := omega) [parse, parseMill, -Nat.reducePow]

theorem maccrd_readsBack (acc mem : Nat) (he : (Instr.maccrd h d a acc mem).Encodable) : (Instr.maccrd h d a acc mem).ReadsBack := by
  obtain ⟨hd, ha⟩ := he.opnds₂ rfl
  have hm : (decide (acc ≤ 3) && decide (mem ≤ 3)) = true := he.checks rfl
  simp only [Bool.and_eq_true, decide_eq_true_eq] at hm
  refine ⟨encR_fits he.head (by decide) (Opnd.idx_lt hd) (Opnd.idx_lt ha) (by decide) (by omega), ?_⟩
  show parse (encR ..) = _
  simp (disch := omega) [parse, parseMill, -Nat.reducePow]

theorem slotOp_readsBack : ∀ i ∈ [Instr.slotbind h d y, .slotdrop h d y, .slotq h d y], i.Encodable → i.ReadsBack := by
  intro i hi he
  fin_cases hi
  all_goals
    obtain ⟨hd, hy⟩ := he.opnds₁U rfl
    refine ⟨enc1_fits he.head (by decide) hd hy (by decide), ?_⟩
    show parse (enc1 ..) = _
    simp [parse, parseSlot, hd, hy]

/-! ### Group 0xC (13 R273) -/

theorem lseal_readsBack (k : Bool) (he : (Instr.lseal h d a b k).Encodable) : (Instr.lseal h d a b k).ReadsBack := by
  obtain ⟨hd, ha, hb⟩ := he.opnds₃ rfl
  have := b2n_lt k
  refine ⟨encR_fits he.head (by decide) (Opnd.idx_lt hd) (Opnd.idx_lt ha) (Opnd.idx_lt hb) (by omega), ?_⟩
  show parse (encR ..) = _
  simp (disch := omega) [parse, parsePorter, -Nat.reducePow]

theorem transfer_readsBack (nh urg : Bool) : ∀ i ∈ [Instr.tcopy h d y nh urg, .a2av h d y nh urg], i.Encodable → i.ReadsBack := by
  intro i hi he
  have := b2n_lt nh; have := b2n_lt urg
  fin_cases hi
  all_goals
    obtain ⟨hd, hy⟩ := he.opnds₁U rfl
    refine ⟨enc1_fits he.head (by decide) hd hy (by omega), ?_⟩
    show parse (enc1 ..) = _
    simp (disch := omega) [parse, parsePorter, -Nat.reducePow]

theorem bseal_readsBack (record : Bool) (he : (Instr.bseal h d y record).Encodable) : (Instr.bseal h d y record).ReadsBack := by
  have ho : ∀ u ∈ useK .d d .s :: (if record then useU .a y else []), u.o.inRange = true := he.opnds
  rw [List.forall_mem_cons] at ho
  obtain ⟨(hd : d.inRange = true), ho⟩ := ho
  have hm : (record || _) = true := he.checks rfl
  have hy : y.inRange = true := by
    cases record with
    | true => exact forall_useU.1 ho
    | false =>
      cases y with
      | op o => rw [show o = .v 0 from beq_iff_eq.1 hm]; rfl
      | imm w => rfl
  have := b2n_lt record
  refine ⟨enc1_fits he.head (by decide) hd hy (by omega), ?_⟩
  show parse (enc1 ..) = _
  simp (disch := omega) [parse, parsePorter, -Nat.reducePow]

theorem bwait_readsBack (he : (Instr.bwait h y).Encodable) : (Instr.bwait h y).ReadsBack := by
  have hy := he.opndsU rfl
  refine ⟨enc1_fits (d := .v 0) he.head (by decide) rfl hy (Nat.two_pow_pos _), ?_⟩
  show parse (enc1 h 0x304 (.v 0) y 0) = _
  simp [parse, parsePorter, hy]

/-! ### Group 0xD (15 R338 to R340) -/

theorem known_of_cntOrd {o : Ord} {sc : Scope} {os : List Ord} (hm : cntOrd o sc os = true) (hk : ∀ p ∈ os, p.known = true) :
    o.known = true := by
  simp only [cntOrd, Bool.and_eq_true, List.contains_iff_mem] at hm
  exact hk o hm.1

/-- X of the counter forms keeps to its field and reads back. -/
theorem cntBits_reads {cop : Nat} {nr : Bool} {o : Ord} {sc : Scope} (hc : cop < 4) (ho : o.known = true) :
    let x := cntBits cop nr o sc
    x < 2 ^ 14 ∧ bits x 6 5 = cop ∧ bit x 7 = nr ∧ Ord.ofCode (bits x 10 8) = o ∧ Scope.ofCode (bits x 13 11) = sc := by
  have := Ord.code_lt ho; have := sc.code_lt; have := b2n_lt nr
  refine ⟨by rw [cntBits]; omega, ?_⟩
  simp (disch := omega) [cntBits, -Nat.reducePow]

@[simp] theorem useK_o (f : Fld) (o : Opnd) (k : Kind) (p : Bool) (n : Nat) : (useK f o k p n).o = o := rfl
@[simp] theorem useCntD_o (o : Opnd) (nr : Bool) : (useCntD o nr).o = o := by unfold useCntD; split <;> rfl

theorem cntRd_readsBack (o : Ord) (sc : Scope) (he : (Instr.cntRd h d a o sc).Encodable) : (Instr.cntRd h d a o sc).ReadsBack := by
  obtain ⟨hd, ha⟩ := he.opnds₂ rfl
  have ho : o.known = true := known_of_cntOrd (sc := sc) (os := [.relaxed, .acq]) (he.checks rfl) (by decide)
  obtain ⟨hx, hc, -, ho, hs⟩ := cntBits_reads (cop := 0) (nr := false) (sc := sc) (by decide) ho
  refine ⟨encR_fits he.head (by decide) (Opnd.idx_lt hd) (Opnd.idx_lt ha) (by decide) (by omega), ?_⟩
  show parse (encR ..) = _
  simp [parse, parseCounter, Raw.ord, Raw.scope, hd, ha, hc, ho, hs]

theorem cntWrite_readsBack (nr : Bool) (o : Ord) (sc : Scope) : ∀ i ∈ [Instr.cntAdd h d a y nr o sc, .cntSet h d a y nr o sc],
    i.Encodable → i.ReadsBack := by
  intro i hi he
  obtain ⟨⟨hd, ha, -⟩, hy⟩ : (d.inRange = true ∧ a.inRange = true ∧ _) ∧ y.inRange = true := by
    have ho : ∀ u ∈ [useCntD d nr, useK .a a .uniform] ++ useU .b y true, u.o.inRange = true := by
      fin_cases hi <;> exact he.opnds
    simpa only [List.forall_mem_append, List.forall_mem_cons, useCntD_o, useK_o, forall_useU] using ho
  have ho : o.known = true := by
    fin_cases hi
    · exact known_of_cntOrd (sc := sc) (os := [.relaxed, .acq, .rel, .ar]) (he.checks rfl) (by decide)
    · exact known_of_cntOrd (sc := sc) (os := [.relaxed, .rel]) (he.checks rfl) (by decide)
  fin_cases hi
  · obtain ⟨hx, hc, hn, ho, hs⟩ := cntBits_reads (cop := 1) (nr := nr) (sc := sc) (by decide) ho
    refine ⟨enc2_fits he.head (by decide) hd ha hy (by omega), ?_⟩
    show parse (enc2 ..) = _
    simp [parse, parseCounter, Raw.ord, Raw.scope, hd, ha, hy, hc, hn, ho, hs]
  · obtain ⟨hx, hc, hn, ho, hs⟩ := cntBits_reads (cop := 2) (nr := nr) (sc := sc) (by decide) ho
    refine ⟨enc2_fits he.head (by decide) hd ha hy (by omega), ?_⟩
    show parse (enc2 ..) = _
    simp [parse, parseCounter, Raw.ord, Raw.scope, hd, ha, hy, hc, hn, ho, hs]

theorem cntwait_readsBack (o : Ord) (sc : Scope) (tmo : Nat) (he : (Instr.cntwait h d a y o sc tmo).Encodable) :
    (Instr.cntwait h d a y o sc tmo).ReadsBack := by
  have ho : ∀ u ∈ [useCntD d false, useK .a a .uniform] ++ useU .b y true, u.o.inRange = true := he.opnds
  simp only [List.forall_mem_append, List.forall_mem_cons, useCntD_o, useK_o, forall_useU] at ho
  obtain ⟨⟨hd, ha, -⟩, hy⟩ := ho
  have hm : (cntOrd o sc [.relaxed, .acq] && decide (tmo ≤ 15)) = true := he.checks rfl
  simp only [Bool.and_eq_true, decide_eq_true_eq] at hm
  obtain ⟨hx, -, -, ho, hs⟩ := cntBits_reads (cop := 0) (nr := false) (sc := sc) (by decide) (known_of_cntOrd hm.1 (by decide))
  refine ⟨enc2_fits he.head (by decide) hd ha hy (by omega), ?_⟩
  show parse (enc2 ..) = _
  simp (disch := omega) [parse, parseCounter, Raw.ord, Raw.scope, ho, hs, -Nat.reducePow]

theorem trigTransfer_readsBack (urg : Bool) (sc : Scope) : ∀ i ∈ [Instr.trigTcopy h d a b c urg sc, .trigA2av h d a b c urg sc],
    i.Encodable → i.ReadsBack := by
  intro i hi he
  have := b2n_lt urg; have := sc.code_lt
  fin_cases hi
  all_goals
    obtain ⟨hd, ha, hb, hc⟩ := he.opnds₄ rfl
    refine ⟨enc3_fits he.head (by decide) hd ha hb hc (by omega), ?_⟩
    show parse (enc3 ..) = _
    simp (disch := omega) [parse, parseCounter, Raw.scope, -Nat.reducePow]

theorem trigAdd_readsBack (sc : Scope) (n : Word) (he : (Instr.trigAdd h d a b c sc n).Encodable) : (Instr.trigAdd h d a b c sc n).ReadsBack := by
  obtain ⟨hd, ha, hb, hc⟩ := he.opnds₄ rfl
  have := sc.code_lt; have := n.isLt
  refine ⟨enc_fits (op := 0x341) (len := 3) he.head (by decide) (by decide) (Opnd.idx_lt hd) (Opnd.idx_lt ha) (Opnd.idx_lt hb)
    (x := 2 * 2 ^ 5 + sc.code * 2 ^ 11) (by omega) (Nat.two_pow_pos _) (Opnd.idx_lt hc) (by omega) (fun _ => rfl) fun h => absurd rfl h, ?_⟩
  show parse { enc h 0x341 3 with d := _, a := _, b := _, x := 2 * 2 ^ 5 + sc.code * 2 ^ 11, c := _, ext := _ } = _
  simp (disch := omega) [parse, parseCounter, Raw.accept, Raw.oD, Raw.oA, Raw.oB, Raw.oC, Raw.scope, enc3, -Nat.reducePow]

theorem trigCancel_readsBack (he : (Instr.trigCancel h d a).Encodable) : (Instr.trigCancel h d a).ReadsBack := by
  obtain ⟨hd, ha⟩ := he.opnds₂ rfl
  refine ⟨enc3_fits (b := .v 0) (c := .v 0) he.head (by decide) hd ha rfl rfl (by decide), ?_⟩
  show parse (enc3 h 0x341 d a (.v 0) (.v 0) 96) = _
  have : bits 96 7 5 = 3 := rfl
  simp [parse, parseCounter, hd, ha, this]

theorem future_readsBack : ∀ i ∈ [Instr.ftest h d a, .fwait h d a, .fcancel h d a], i.Encodable → i.ReadsBack := by
  intro i hi he
  fin_cases hi
  all_goals
    obtain ⟨hd, ha⟩ := he.opnds₂ rfl
    refine ⟨encR_fits he.head (by decide) (Opnd.idx_lt hd) (Opnd.idx_lt ha) (by decide) (by decide), ?_⟩
    show parse (encR ..) = _
    simp [parse, parseCounter, hd, ha]

/-! ### Group 0xE (16 R357, 14 R308, R313) -/

theorem trap_readsBack (code : Nat) (he : (Instr.trap h code).Encodable) : (Instr.trap h code).ReadsBack := by
  have hc : code ≤ 255 := of_decide_eq_true (he.checks rfl)
  refine ⟨encR_fits he.head (by decide) (by decide) (by decide) (by decide) (by omega), ?_⟩
  show parse (encR ..) = _
  simp (disch := omega) [parse, parseSystem, -Nat.reducePow]

theorem sysrd_readsBack (he : (Instr.sysrd h d y).Encodable) : (Instr.sysrd h d y).ReadsBack := by
  obtain ⟨hd, hy⟩ := he.opnds₁U rfl
  refine ⟨enc1_fits he.head (by decide) hd hy (by decide), ?_⟩
  show parse (enc1 ..) = _
  simp [parse, parseSystem, hd, hy]

theorem eret_readsBack (he : (Instr.eret h).Encodable) : (Instr.eret h).ReadsBack := by
  refine ⟨encR_fits he.head (by decide) (by decide) (by decide) (by decide) (by decide), ?_⟩
  show parse (encR ..) = _
  simp [parse, parseSystem]

theorem syswr_readsBack (he : (Instr.syswr h y b).Encodable) : (Instr.syswr h y b).ReadsBack := by
  have ho : ∀ u ∈ useU .a y ++ [useK .b b .uniform true], u.o.inRange = true := he.opnds
  simp only [List.forall_mem_append, List.forall_mem_singleton, useK_o, forall_useU] at ho
  obtain ⟨hy, hb⟩ := ho
  refine ⟨enc_fits he.head y.len_pos (by decide) (Nat.succ_pos _) (Src.fld_lt hy) (Opnd.idx_lt hb) (Nat.two_pow_pos _) y.immNat_lt
    (Nat.succ_pos _) (Nat.two_pow_pos _) Src.immNat_eq_zero fun _ => ⟨rfl, rfl⟩, ?_⟩
  show parse { enc h 0x3A0 y.len with a := _, b := _, imm := _ } = _
  cases y with
  | op o =>
    have ho : o.inRange = true := hy
    simp [parse, parseSystem, Raw.accept, Raw.sA, Raw.oA, Raw.oB, Src.len, Src.fld, ho, hb]
  | imm w => simp [parse, parseSystem, Raw.accept, Raw.sA, Raw.oB, Src.len, Src.immNat, hb]

theorem segwr_readsBack (sp : Space) (he : (Instr.segwr h d a b sp).Encodable) : (Instr.segwr h d a b sp).ReadsBack := by
  obtain ⟨hd, ha, hb⟩ := he.opnds₃ rfl
  have hs : sp.known = true := he.checks rfl
  have := Space.code_lt hs
  refine ⟨encR_fits he.head (by decide) (Opnd.idx_lt hd) (Opnd.idx_lt ha) (Opnd.idx_lt hb) (by omega), ?_⟩
  show parse (encR ..) = _
  simp (disch := omega) [parse, parseSystem, -Nat.reducePow]

theorem rngwr_readsBack (idx ctx : Nat) (he : (Instr.rngwr h d a idx ctx).Encodable) : (Instr.rngwr h d a idx ctx).ReadsBack := by
  obtain ⟨hd, ha⟩ := he.opnds₂ rfl
  have hm : (decide (idx ≤ 7) && decide (ctx ≤ 63)) = true := he.checks rfl
  simp only [Bool.and_eq_true, decide_eq_true_eq] at hm
  refine ⟨encR_fits he.head (by decide) (Opnd.idx_lt hd) (Opnd.idx_lt ha) (by decide) (by omega), ?_⟩
  show parse (encR ..) = _
  simp (disch := omega) [parse, parseSystem, bit_above, -Nat.reducePow]

theorem rngwrClr_readsBack (idx ctx : Nat) (he : (Instr.rngwrClr h d idx ctx).Encodable) : (Instr.rngwrClr h d idx ctx).ReadsBack := by
  have hd := he.opnds₁ rfl
  have hm : (decide (idx ≤ 7) && decide (ctx ≤ 63)) = true := he.checks rfl
  simp only [Bool.and_eq_true, decide_eq_true_eq] at hm
  refine ⟨encR_fits he.head (by decide) (Opnd.idx_lt hd) (by decide) (by decide) (by omega), ?_⟩
  show parse (encR ..) = _
  simp (disch := omega) [parse, parseSystem, -Nat.reducePow]

theorem tcinvRange_readsBack (ctx : Nat) (he : (Instr.tcinvRange h d a b ctx).Encodable) : (Instr.tcinvRange h d a b ctx).ReadsBack := by
  obtain ⟨hd, ha, hb⟩ := he.opnds₃ rfl
  have hc : ctx ≤ 63 := of_decide_eq_true (he.checks rfl)
  refine ⟨encR_fits he.head (by decide) (Opnd.idx_lt hd) (Opnd.idx_lt ha) (Opnd.idx_lt hb) (by omega), ?_⟩
  show parse (encR ..) = _
  simp (disch := omega) [parse, parseSystem, -Nat.reducePow]

theorem tcinvRegion_readsBack (ctx : Nat) (he : (Instr.tcinvRegion h d a ctx).Encodable) : (Instr.tcinvRegion h d a ctx).ReadsBack := by
  obtain ⟨hd, ha⟩ := he.opnds₂ rfl
  have hc : ctx ≤ 63 := of_decide_eq_true (he.checks rfl)
  refine ⟨encR_fits he.head (by decide) (Opnd.idx_lt hd) (Opnd.idx_lt ha) (by decide) (by omega), ?_⟩
  show parse (encR ..) = _
  simp (disch := omega) [parse, parseSystem, -Nat.reducePow]

theorem tcinvAll_readsBack (ctx : Nat) : ∀ i ∈ [Instr.tcinvCtx h d ctx, .tcinvRank h d ctx], i.Encodable → i.ReadsBack := by
  intro i hi he
  fin_cases hi
  all_goals
    have hd := he.opnds₁ rfl
    have hc : ctx ≤ 63 := of_decide_eq_true (he.checks rfl)
    refine ⟨encR_fits he.head (by decide) (Opnd.idx_lt hd) (by decide) (by decide) (by omega), ?_⟩
    show parse (encR ..) = _
    simp (disch := omega) [parse, parseSystem, -Nat.reducePow]

theorem millImage_readsBack : ∀ i ∈ [Instr.mspill h d a, .mfill h d a], i.Encodable → i.ReadsBack := by
  intro i hi he
  fin_cases hi
  all_goals
    obtain ⟨hd, ha⟩ := he.opnds₂ rfl
    refine ⟨encR_fits he.head (by decide) (Opnd.idx_lt hd) (Opnd.idx_lt ha) (by decide) (by decide), ?_⟩
    show parse (encR ..) = _
    simp [parse, parseSystem, hd, ha]

end

end Sys2Proof

namespace Sys2Proof

/-! ### Every used field names a register -/

/-- Each of these fields names at least one register. -/
def AllPos (us : List Use) : Prop := ∀ u ∈ us, 0 < u.n

@[simp] theorem allPos_nil : AllPos [] := fun _ hu => absurd hu List.not_mem_nil
@[simp] theorem allPos_cons {u : Use} {us : List Use} : AllPos (u :: us) ↔ 0 < u.n ∧ AllPos us := List.forall_mem_cons
@[simp] theorem allPos_append {us vs : List Use} : AllPos (us ++ vs) ↔ AllPos us ∧ AllPos vs := List.forall_mem_append

@[simp] theorem useD_pos (o : Opnd) (t : Ty) : 0 < (useD o t).n := by unfold useD; split <;> exact Nat.succ_pos _
@[simp] theorem useT_pos (f : Fld) (o : Opnd) (t : Ty) : 0 < (useT f o t).n := by unfold useT; split <;> exact Nat.succ_pos _
@[simp] theorem useK_pos (f : Fld) (o : Opnd) (k : Kind) (p : Bool) (n : Nat) : 0 < (useK f o k p n).n ↔ 0 < n := by
  cases p <;> simp [useK]
@[simp] theorem useMemD_pos (o : Opnd) (t : Ty) (n : Nat) : 0 < (useMemD o t n).n ↔ 0 < n := by
  unfold useMemD; split <;> simp
@[simp] theorem vecCount_pos (v : Nat) : 0 < vecCount v := by unfold vecCount; split <;> exact Nat.succ_pos _
@[simp] theorem useAddr_pos (a : Opnd) (m : MemMod) : 0 < (useAddr a m).n := by unfold useAddr; split <;> exact useT_pos ..
@[simp] theorem useCntD_pos (d : Opnd) (nr : Bool) : 0 < (useCntD d nr).n := by cases nr <;> simp [useCntD]
@[simp] theorem allPos_useS (f : Fld) (y : Src) (t : Ty) : AllPos (useS f y t) := by cases y <;> simp [useS]
@[simp] theorem allPos_useU (f : Fld) (y : Src) (p : Bool) : AllPos (useU f y p) := by cases y <;> cases p <;> simp [useU]
@[simp] theorem allPos_useSd (se : Bool) (sd : Opnd) (g : Bool) : AllPos (useSd se sd g) := by cases se <;> simp [useSd]
@[simp] theorem MemExt.allPos_uses (e : MemExt) (g : Bool) : AllPos (e.uses g) := by cases e <;> simp [MemExt.uses]
@[simp] theorem BrCond.allPos_uses (c : BrCond) (f : Fld) : AllPos (c.uses f) := by unfold BrCond.uses; split_ifs <;> simp

@[simp] theorem allPos_ite {c : Prop} [Decidable c] {us vs : List Use} :
    AllPos (if c then us else vs) ↔ (c → AllPos us) ∧ (¬c → AllPos vs) := by split <;> simp_all
theorem Use.n_ite_pos {c : Prop} [Decidable c] {u v : Use} : 0 < (if c then u else v).n ↔ (c → 0 < u.n) ∧ (¬c → 0 < v.n) := by
  split <;> simp_all

theorem Instr.allPos_uses (i : Instr) : AllPos i.uses := by
  cases i <;> dsimp only [Instr.uses, useH]
  case bfe f => cases f <;> simp
  case bfi f => cases f <;> simp
  case st m _ => cases m.ty.is64 <;> simp
  all_goals simp [Use.n_ite_pos]

/-- An operand that obeys its form's rules lies in the name space (02 R28). -/
theorem Use.inRange_of_ok {u : Use} (hn : 0 < u.n) (h : u.ok = true) : u.o.inRange = true := by
  obtain ⟨f, o, n, p, k, nc⟩ := u
  cases o with
  | special r => rfl
  | unassigned i => cases h
  | reserved i => cases h
  | v n | s n | const n =>
    simp only [Use.ok, Bool.and_eq_true, decide_eq_true_eq] at h
    simp only [Opnd.inRange, decide_eq_true_eq]
    dsimp only at hn
    omega

theorem Instr.inRange_of_operandsOk {i : Instr} (h : i.operandsOk = true) : ∀ u ∈ i.uses, u.o.inRange = true :=
  fun u hu => Use.inRange_of_ok (i.allPos_uses u hu) (List.all_eq_true.1 h u hu)

theorem Instr.inRange_of_outriderOperandsOk {i : Instr} (h : i.outriderOperandsOk = true) : ∀ u ∈ i.uses, u.o.inRange = true := by
  intro u hu
  have h := List.all_eq_true.1 h u hu
  split at h
  next n hn =>
    simp only [Bool.and_eq_true, decide_eq_true_eq] at h
    simp only [hn, Opnd.inRange, decide_eq_true_eq]
    omega
  next k hk =>
    simp only [Bool.and_eq_true, decide_eq_true_eq] at h
    simpa [hk, Opnd.inRange] using h.2
  next => cases h

/-! ### Every word reads back -/

/-- Every instruction word that has an encoding is read back from it (02 R22 to R39). -/
theorem Instr.Encodable.readsBack {i : Instr} (he : i.Encodable) (hw : i.isWord = true) : i.ReadsBack := by
  cases i with
  | iadd h t d a y m | isub h t d a y m => exact addSub_readsBack h t d a y m _ (by simp) he
  | imul => exact imul_readsBack _ _ _ _ _ _ _ he
  | imad => exact imad_readsBack _ _ _ _ _ _ _ _ he
  | imulhi h t d a y | idiv h t d a y | irem h t d a y | imin h t d a y | imax h t d a y =>
    exact intTwo_readsBack h t d a y _ (by simp) he
  | iabs h t d a sat | ineg h t d a sat => exact intOne_readsBack h t d a sat _ (by simp) he
  | isad => exact isad_readsBack _ _ _ _ _ _ _ he
  | mov => exact mov_readsBack _ _ _ _ he
  | sel => exact sel_readsBack _ _ _ _ _ _ _ he
  | and h t d a y | or h t d a y | xor h t d a y | rotl h t d a y => exact bitTwo_readsBack h t d a y _ (by simp) he
  | not h t d a | popc h t d a | clz h t d a | brev h t d a => exact bitOne_readsBack h t d a _ (by simp) he
  | shl h t d a y w | shr h t d a y w | sar h t d a y w => exact shift_readsBack h t d a y w _ (by simp) he
  | bfe => exact bfe_readsBack _ _ _ _ _ he
  | bfi => exact bfi_readsBack _ _ _ _ _ _ he
  | lea => exact lea_readsBack _ _ _ _ _ _ he
  | lop3 => exact lop3_readsBack _ _ _ _ _ _ _ he
  | cmp h t a y c p | fcmp h t a y c p => exact compare_readsBack h t a y c p _ (by simp) he
  | ppush => exact ppush_readsBack _ _ he
  | ppop => exact ppop_readsBack _ _ _ _ he
  | pmov => exact pmov_readsBack _ _ _ he
  | pset => exact pset_readsBack _ _ _ he
  | plop => exact plop_readsBack _ _ _ _ _ he
  | fadd h t d a y m | fsub h t d a y m | fmul h t d a y m | fdiv h t d a y m | fmin h t d a y m | fmax h t d a y m =>
    exact floatTwo_readsBack h t d a y m _ (by simp) he
  | frcp h t d a m | frsq h t d a m | fsqrt h t d a m | fexp2 h t d a m | flog2 h t d a m | fsin h t d a m | fcos h t d a m =>
    exact floatOne_readsBack h t d a m _ (by simp) he
  | ffma => exact ffma_readsBack _ _ _ _ _ _ _ he
  | faddF64 h t d a b m | fsubF64 h t d a b m | fmulF64 h t d a b m | fdivF64 h t d a b m | fminF64 h t d a b m | fmaxF64 h t d a b m =>
    exact doubleTwo_readsBack h t d a b m _ (by simp) he
  | frcpF64 h t d a m | frsqF64 h t d a m | fsqrtF64 h t d a m => exact doubleOne_readsBack h t d a m _ (by simp) he
  | ffmaF64 => exact ffmaF64_readsBack _ _ _ _ _ _ _ he
  | cvt => exact cvt_readsBack _ _ _ _ he
  | dot2 h d a b c m | dot4 h d a b c m => exact dot_readsBack h d a b c m _ (by simp) he
  | padd h d a y m | pmax h d a y m | pmin h d a y m => exact packedTwo_readsBack h d a y m _ (by simp) he
  | pack => exact pack_readsBack _ _ _ _ _ he
  | unpack => exact unpack_readsBack _ _ _ _ he
  | seed => exact seed_readsBack _ _ _ he
  | vote => exact vote_readsBack _ _ _ _ _ _ _ he
  | shfl => exact shfl_readsBack _ _ _ _ _ _ _ he
  | bcast => exact bcast_readsBack _ _ _ _ _ he
  | scan => exact scan_readsBack _ _ _ _ _ _ _ he
  | fold => exact fold_readsBack _ _ _ _ _ _ he
  | bra => exact bra_readsBack _ _ _ he
  | call => exact call_readsBack _ _ _ _ he
  | brx h a q | ret h a q => exact register_branch_readsBack h a q _ (by simp) he
  | exit h | xgrow h | xshrink h | olnext h => exact bare_readsBack h _ (by simp) he
  | spawn => exact spawn_readsBack _ _ _ _ _ he
  | meet h a | fetchw h a => exact oneSource_readsBack h a _ (by simp) he
  | launch => exact launch_readsBack _ _ _ _ he
  | nop => exact nop_readsBack _ _ he
  | rqpop => exact rqpop_readsBack _ _ he
  | olfor => exact olfor_readsBack _ _ _ _ he
  | olpostMill h a b op | olpostPort h a b op => exact olpost_readsBack h a b op _ (by simp) he
  | olpostRec => exact olpostRec_readsBack _ _ _ he
  | olpermit => exact olpermit_readsBack _ _ _ he
  | ld => exact ld_readsBack _ _ _ _ _ he
  | st => exact st_readsBack _ _ _ _ _ he
  | pref => exact pref_readsBack _ _ _ _ he
  | cflush h a b l | cinval h a b l => exact cacheOp_readsBack h a b l _ (by simp) he
  | atom => exact atom_readsBack _ _ _ _ _ _ he
  | atomcas => exact atomcas_readsBack _ _ _ _ _ _ _ _ _ he
  | fence => exact fence_readsBack _ _ _ he
  | xfence => exact xfence_readsBack _ _ _ he
  | mload h t d y nh | mrun h t d y nh | mepi h t d y nh | mdelta h t d y nh => exact typedCommand_readsBack h t d y nh _ (by simp) he
  | mswap => exact mswap_readsBack _ _ _ he
  | mchainLink => exact mchainLink_readsBack _ _ _ _ he
  | mchainJoin => exact mchainJoin_readsBack _ _ _ _ he
  | mchainUnlink => exact mchainUnlink_readsBack _ _ _ he
  | maccz => exact maccz_readsBack _ _ _ _ he
  | maccrd => exact maccrd_readsBack _ _ _ _ _ he
  | slotbind h d y | slotdrop h d y | slotq h d y => exact slotOp_readsBack h d y _ (by simp) he
  | lseal => exact lseal_readsBack _ _ _ _ _ he
  | tcopy h d y nh u | a2av h d y nh u => exact transfer_readsBack h d y nh u _ (by simp) he
  | bseal => exact bseal_readsBack _ _ _ _ he
  | bwait => exact bwait_readsBack _ _ he
  | cntRd => exact cntRd_readsBack _ _ _ _ _ he
  | cntAdd h d a y nr o sc | cntSet h d a y nr o sc => exact cntWrite_readsBack h d a y nr o sc _ (by simp) he
  | cntwait => exact cntwait_readsBack _ _ _ _ _ _ _ he
  | trigTcopy h d a b c u sc | trigA2av h d a b c u sc => exact trigTransfer_readsBack h d a b c u sc _ (by simp) he
  | trigAdd => exact trigAdd_readsBack _ _ _ _ _ _ _ he
  | trigCancel => exact trigCancel_readsBack _ _ _ he
  | ftest h d a | fwait h d a | fcancel h d a => exact future_readsBack h d a _ (by simp) he
  | trap => exact trap_readsBack _ _ he
  | sysrd => exact sysrd_readsBack _ _ _ he
  | eret => exact eret_readsBack _ he
  | syswr => exact syswr_readsBack _ _ _ he
  | segwr => exact segwr_readsBack _ _ _ _ _ he
  | rngwr => exact rngwr_readsBack _ _ _ _ _ he
  | rngwrClr => exact rngwrClr_readsBack _ _ _ _ he
  | tcinvRange => exact tcinvRange_readsBack _ _ _ _ _ he
  | tcinvRegion => exact tcinvRegion_readsBack _ _ _ _ he
  | tcinvCtx h d c | tcinvRank h d c => exact tcinvAll_readsBack h d c _ (by simp) he
  | mspill h d a | mfill h d a => exact millImage_readsBack h d a _ (by simp) he
  | _ => cases hw

end Sys2Proof

namespace Sys2Proof

/-! ### Unused register fields (`Raw.fieldsOk`) -/

/-- A field that is empty or names no v register. -/
def FreeField (n : Nat) : Prop := n = 0 ∨ 320 ≤ n

theorem freeField_zero : FreeField 0 := .inl rfl

/-- No v register in A, B or C, and an empty D where D must be zero, is enough where no memory form is. -/
theorem Raw.fieldsOk_of_free {r : Raw} (hop : [0x200, 0x201, 0x240].contains r.op = false) (ha : FreeField r.a) (hb : FreeField r.b)
    (hc : FreeField r.c) (hd : [0x304, 0x380, 0x382, 0x3A0].contains r.op = false ∨ r.d = 0) : r.fieldsOk = true := by
  simp only [FreeField] at ha hb hc
  simp only [List.contains_cons, List.contains_nil, Bool.or_false, Bool.or_eq_false_iff, beq_eq_false_iff_ne] at hop hd
  obtain ⟨h0, h1, h2⟩ := hop
  unfold Raw.fieldsOk
  rw [if_neg h0, if_neg h1, if_neg h2]
  rcases hd with ⟨d0, d1, d2, d3⟩ | hd
  · simp [ha, hb, hc, d0, d1, d2, d3]
  · simp [ha, hb, hc, hd]

theorem Instr.freeField_of_uniform {i : Instr} (ho : i.operandsOk = true) {f : Fld} {o : Opnd} {n : Nat} {p nc : Bool}
    (hu : (⟨f, o, n, p, .uniform, nc⟩ : Use) ∈ i.uses) : FreeField o.idx :=
  Use.uniform_idx (List.all_eq_true.1 ho _ hu)

theorem Src.freeField_fld {i : Instr} (ho : i.operandsOk = true) {f : Fld} {y : Src} {p : Bool} (hu : ∀ u ∈ useU f y p, u ∈ i.uses) :
    FreeField y.fld := by
  cases y with
  | op o => exact Instr.freeField_of_uniform ho (hu _ (List.mem_singleton.2 rfl))
  | imm w => exact freeField_zero

theorem Instr.fieldsOk_raw {i : Instr} (ho : i.operandsOk = true) (hm : i.modifiersOk = true) : i.raw.fieldsOk = true := by
  have he : i.Encodable := ⟨Instr.inRange_of_operandsOk ho, hm⟩
  cases i with
  | bra h tgt q | call h d tgt q => cases tgt <;> exact Raw.fieldsOk_of_op (by dsimp only [Instr.raw, encBr, enc]; decide)
  | bfi h t d a b f => cases f <;> exact Raw.fieldsOk_of_op (by dsimp only [Instr.raw, enc3, encR, enc]; decide)
  | ld h d a m e | st h a b m e | atom h d a b m e => cases e <;> rfl
  | pref h a m off => cases off <;> exact Raw.fieldsOk_of_op (by dsimp only [Instr.raw, encMem, enc]; decide)
  | mload h t d y nh | mrun h t d y nh | mepi h t d y nh | mdelta h t d y nh | slotbind h d y | slotdrop h d y | slotq h d y
  | tcopy h d y nh u | a2av h d y nh u | sysrd h d y =>
    exact Raw.fieldsOk_of_free rfl (Src.freeField_fld ho fun _ => .tail _) freeField_zero freeField_zero (.inl rfl)
  | bwait h y => exact Raw.fieldsOk_of_free rfl (Src.freeField_fld ho fun _ => id) freeField_zero freeField_zero (.inr rfl)
  | bseal h d y record =>
    refine Raw.fieldsOk_of_free rfl ?_ freeField_zero freeField_zero (.inl rfl)
    have hm : (record || _) = true := he.checks rfl
    cases record with
    | true => exact Src.freeField_fld ho fun _ => .tail _
    | false =>
      cases y with
      | op o => exact .inl (congrArg Opnd.idx (beq_iff_eq.1 hm))
      | imm w => exact freeField_zero
  | lseal h d a b k | segwr h d a b sp | tcinvRange h d a b c =>
    exact Raw.fieldsOk_of_free rfl (Instr.freeField_of_uniform ho (.tail _ (.head _)))
      (Instr.freeField_of_uniform ho (.tail _ (.tail _ (.head _)))) freeField_zero (.inl rfl)
  | cntRd h d a o sc | trigCancel h d a | rngwr h d a x c | tcinvRegion h d a c | mspill h d a | mfill h d a =>
    exact Raw.fieldsOk_of_free rfl (Instr.freeField_of_uniform ho (.tail _ (.head _))) freeField_zero freeField_zero (.inl rfl)
  | cntAdd h d a y nr o sc | cntSet h d a y nr o sc | cntwait h d a y o sc tmo =>
    exact Raw.fieldsOk_of_free rfl (Instr.freeField_of_uniform ho (.tail _ (.head _)))
      (Src.freeField_fld ho fun _ hu => .tail _ (.tail _ hu)) freeField_zero (.inl rfl)
  | trigTcopy h d a b c u sc | trigA2av h d a b c u sc | trigAdd h d a b c sc n =>
    exact Raw.fieldsOk_of_free rfl (Instr.freeField_of_uniform ho (.tail _ (.head _)))
      (Instr.freeField_of_uniform ho (.tail _ (.tail _ (.head _)))) (Instr.freeField_of_uniform ho (.tail _ (.tail _ (.tail _ (.head _)))))
      (.inl rfl)
  | syswr h y b =>
    exact Raw.fieldsOk_of_free rfl (Src.freeField_fld ho fun _ hu => List.mem_append_left _ hu)
      (Instr.freeField_of_uniform ho (List.mem_append_right _ (.head _))) freeField_zero (.inr rfl)
  | trap | eret => exact Raw.fieldsOk_of_free rfl freeField_zero freeField_zero freeField_zero (.inr rfl)
  | rngwrClr | tcinvCtx | tcinvRank => exact Raw.fieldsOk_of_free rfl freeField_zero freeField_zero freeField_zero (.inl rfl)
  | _ => exact Raw.fieldsOk_of_op (by dsimp only [Instr.raw, enc1, enc2, enc3, encR, encMem, enc]; decide)

end Sys2Proof

namespace Sys2Proof

open Sys2Proof.Machine

/-! ### Decoding what was encoded -/

theorem Instr.readsBack_of_wf {i : Instr} (hi : i.wf = true) : i.ReadsBack := by
  simp only [Instr.wf, Bool.and_eq_true] at hi
  obtain ⟨⟨⟨hw, -⟩, ho⟩, hm⟩ := hi
  exact Encodable.readsBack ⟨inRange_of_operandsOk ho, hm⟩ hw

theorem Instr.readsBack_of_wfOutrider {i : Instr} (hi : i.wfOutrider = true) : i.ReadsBack := by
  simp only [Instr.wfOutrider, Bool.and_eq_true] at hi
  obtain ⟨⟨⟨hw, ho⟩, hm⟩, -⟩ := hi
  exact Encodable.readsBack ⟨inRange_of_outriderOperandsOk ho, hm⟩ hw

theorem Instr.ReadsBack.ofBytes_encode {i : Instr} (hi : i.ReadsBack) (rest : List Byte) : Raw.ofBytes (encode i ++ rest) = i.raw :=
  Raw.ofBytes_bytes hi.1 rest

theorem Instr.ReadsBack.len_ne_zero {i : Instr} (hi : i.ReadsBack) : i.raw.len ≠ 0 := by
  have := hi.1.len
  omega

theorem parse_none_of_group15 {r : Raw} (h : r.op / 64 = 15) : parse r = none := by simp [parse, h]

theorem Instr.ReadsBack.group_ne_15 {i : Instr} (hi : i.ReadsBack) : i.raw.op / 64 ≠ 15 := fun h => by
  have := hi.2
  rw [parse_none_of_group15 h] at this
  cases this

/-- A word of a gang passes every check, at level S and, unless it is privileged, at level U. -/
theorem decode_raw {i : Instr} (hi : i.wf = true) {priv : Bool} (hp : priv = false → privileged i = false) : decode priv i.raw = .ok i := by
  have hr := Instr.readsBack_of_wf hi
  simp only [Instr.wf, Bool.and_eq_true, Bool.not_eq_true'] at hi
  obtain ⟨⟨⟨-, hol⟩, ho⟩, hm⟩ := hi
  have hs : ¬(i.raw.op / 64 = 14 ∧ bit i.raw.op 5 = true ∧ (!priv) = true) := by
    rintro ⟨h14, h5, hs⟩
    have := hp (by simpa using hs)
    simp [privileged, h14, h5] at this
  rw [decode, if_neg hr.len_ne_zero, if_neg hr.group_ne_15, if_neg hs, hr.2]
  simp [hol, ho, Instr.fieldsOk_raw ho hm, hm]

theorem Raw.withoutQ3_of_op {r : Raw} (h : r.op ≠ 0x1D2) : r.withoutQ3 = r := if_neg fun hr => h hr.1

/-- A form of the Outrider has a mnemonic of its and neither guard nor marker; it is of no privileged group, and of an `olpost` the queue is assigned. -/
theorem Instr.outriderForm_facts {i : Instr} (hf : i.outriderForm = true) (hm : i.modifiersOk = true) :
    i.outriderMnemonic = true ∧ i.head.guard = none ∧ i.head.w = false ∧ i.raw.op / 64 ≠ 14 ∧ i.raw.withoutQ3 = i.raw := by
  have hg : i.gangWide = true → i.head.guard = none := fun hw => by
    have h := (Bool.and_eq_true_iff.1 hm).1
    cases hh : i.head.guard with
    | none => rfl
    | some g => rw [hh, hw] at h; cases h
  have hm := (Bool.and_eq_true_iff.1 hm).2
  cases i with
  | mov h t d a | iadd h t d a b m | isub h t d a b m | imul h t d a b s w | and h t d a b | or h t d a b | shl h t d a b w
  | shr h t d a b w =>
    dsimp only [Instr.outriderForm] at hf
    simp only [Bool.and_eq_true, Option.isNone_iff_eq_none, Bool.not_eq_true', and_assoc] at hf
    obtain ⟨hgd, hw, -⟩ := hf
    refine ⟨rfl, hgd, hw, ?_, Raw.withoutQ3_of_op ?_⟩
    all_goals dsimp only [Instr.raw, enc1, enc2, enc]; decide
  | nop h len | exit h =>
    dsimp only [Instr.outriderForm] at hf
    simp only [Bool.and_eq_true, Option.isNone_iff_eq_none, Bool.not_eq_true'] at hf
    refine ⟨rfl, hf.1, hf.2, ?_, Raw.withoutQ3_of_op ?_⟩
    all_goals dsimp only [Instr.raw, encR, enc]; decide
  | bra h tgt c =>
    dsimp only [Instr.outriderForm] at hf
    simp only [Bool.and_eq_true, Option.isNone_iff_eq_none, Bool.not_eq_true'] at hf
    refine ⟨rfl, hf.1.1, hf.1.2, ?_, Raw.withoutQ3_of_op ?_⟩
    all_goals cases tgt <;> dsimp only [Instr.raw, encBr, enc] <;> decide
  | olfor h d a e | olnext h | olpermit h q a =>
    refine ⟨rfl, hg rfl, Bool.not_eq_true' _ ▸ (show (!h.w) = true from hm), ?_, Raw.withoutQ3_of_op ?_⟩
    all_goals dsimp only [Instr.raw, encR, enc]; decide
  | olpostRec h a b =>
    refine ⟨rfl, hg rfl, Bool.not_eq_true' _ ▸ (show (!h.w) = true from hm), ?_, if_neg ?_⟩
    all_goals dsimp only [Instr.raw, enc]; decide
  | olpostMill h a b op | olpostPort h a b op =>
    refine ⟨rfl, hg rfl, Bool.not_eq_true' _ ▸ (Bool.and_eq_true_iff.1 (show (!h.w && _) = true from hm)).1, ?_, if_neg ?_⟩
    all_goals dsimp only [Instr.raw, enc]; decide
  | _ => cases hf

theorem decodeOutrider_raw {i : Instr} (hi : i.wfOutrider = true) : decodeOutrider i.raw = .ok i := by
  have hr := Instr.readsBack_of_wfOutrider hi
  simp only [Instr.wfOutrider, Bool.and_eq_true] at hi
  obtain ⟨⟨⟨-, ho⟩, hm⟩, hf⟩ := hi
  obtain ⟨hmn, hg, hw, h14, hq⟩ := Instr.outriderForm_facts hf hm
  rw [decodeOutrider, if_neg hr.len_ne_zero, if_neg hr.group_ne_15, if_neg fun h => h14 h.1, hr.2]
  simp [hmn, ho, hm, hg, hw, hq, hf]

/-- Settles O56: every word keeps to its fields, so that its bytes give it back, whatever follows, and the opcode map and the checks read
from it the instruction it was made from. -/
theorem decodeEncodes : Obligations.DecodeEncodes := by
  intro i rest
  constructor
  · intro hi
    have hs := decode_raw hi (priv := true) nofun
    rw [decodeBytes, (Instr.readsBack_of_wf hi).ofBytes_encode, hs]
    exact ⟨rfl, rfl, fun hp => decode_raw hi fun _ => hp⟩
  · intro hi
    rw [(Instr.readsBack_of_wfOutrider hi).ofBytes_encode]
    exact decodeOutrider_raw hi

end Sys2Proof

namespace Sys2Proof

open Sys2Proof.Machine

/-! ### The worked words (02 R22, R23) -/

/-- Settles O55: each byte string is decoded, and the instruction compared, by evaluation. -/
theorem decodeWords : Obligations.DecodeWords := by
  refine ⟨?_, ?_, ?_, ?_, ?_, ?_, ?_, ?_, ?_, ?_, ?_, ?_, ?_, ?_, ?_, ?_⟩
  all_goals rfl

end Sys2Proof

namespace Sys2Proof

open Sys2Proof.Machine

/-! ### The checks of the decoder, one outcome each (02 R41) -/

section Checks

variable {priv : Bool} {r : Raw} {i : Instr}

theorem decode_len_zero (h : r.len = 0) : decode priv r = .reject .illegalLen := by simp [decode, h]

theorem decode_reservedGroup (h0 : r.len ≠ 0) (h15 : r.op / 64 = 15) : decode priv r = .reject .reservedGroup := by simp [decode, h0, h15]

theorem decode_priv (h0 : r.len ≠ 0) (h14 : r.op / 64 = 14) (hb : bit r.op 5 = true) (hp : priv = false) : decode priv r = .reject .priv := by
  simp [decode, h0, h14, hb, hp]

/-- Outside group 14's privileged half the level plays no part. -/
theorem decode_level (h : r.op / 64 ≠ 14 ∨ bit r.op 5 = false) : decode false r = decode true r := by
  have hn (q : Bool) : ¬(r.op / 64 = 14 ∧ bit r.op 5 = true ∧ (!q) = true) := fun ⟨h1, h2, _⟩ => h.elim (· h1) fun hf => by simp [h2] at hf
  unfold decode
  rw [if_neg (hn false), if_neg (hn true)]

/-- A word that is not of the privileged half of group 14, or stands at level S, passes the check of its level. -/
theorem passes_level (hl : r.op / 64 ≠ 14 ∨ bit r.op 5 = false ∨ priv = true) : ¬(r.op / 64 = 14 ∧ bit r.op 5 = true ∧ (!priv) = true) :=
  fun ⟨h1, h2, h3⟩ => by rcases hl with h | h | h <;> simp_all

variable (h0 : r.len ≠ 0) (h15 : r.op / 64 ≠ 15) (hl : r.op / 64 ≠ 14 ∨ bit r.op 5 = false ∨ priv = true)
include h0 h15 hl

theorem decode_unassigned (hp : parse r = none) : decode priv r = .reject .unassignedOp := by
  rw [decode, if_neg h0, if_neg h15, if_neg (passes_level hl), hp]

variable (hp : parse r = some i)
include hp

theorem decode_outriderOnly (ho : i.outriderOnly = true) : decode priv r = .reject .unassignedOp := by
  rw [decode, if_neg h0, if_neg h15, if_neg (passes_level hl), hp]
  exact if_pos ho

variable (ho : i.outriderOnly = false)
include ho

theorem decode_badOperand (hk : i.operandsOk = false ∨ r.fieldsOk = false) : decode priv r = .reject .badOperand := by
  rw [decode, if_neg h0, if_neg h15, if_neg (passes_level hl), hp]
  rcases hk with hk | hk <;> simp [ho, hk]

variable (hk : i.operandsOk = true) (hf : r.fieldsOk = true)
include hk hf

theorem decode_badMod (hm : i.modifiersOk = false ∨ i.raw ≠ r) : decode priv r = .badMod i := by
  rw [decode, if_neg h0, if_neg h15, if_neg (passes_level hl), hp]
  rcases hm with hm | hm <;> simp [ho, hk, hf, hm]

theorem decode_accepts (hm : i.modifiersOk = true) (hr : i.raw = r) : decode priv r = .ok i := by
  rw [decode, if_neg h0, if_neg h15, if_neg (passes_level hl), hp]
  simp [ho, hk, hf, hm, hr]

end Checks

/-- What passes every check is well formed and stands exactly as it is encoded. -/
theorem decode_ok {priv : Bool} {r : Raw} {i : Instr} (h : decode priv r = .ok i) :
    i.wf = true ∧ i.raw = r ∧ (priv = false → privileged i = false) := by
  obtain ⟨_, hd⟩ | ⟨_, _, hd⟩ | ⟨_, _, _, _, hd⟩ | ⟨-, -, hpriv, ⟨_, hd⟩ | ⟨j, hp, ⟨_, hd⟩ | ⟨_, _, hd⟩ | ⟨ho, hk, hm, hr, hd⟩ | ⟨_, _, _, hd⟩⟩⟩ :=
    decode_cases priv r
  all_goals cases hd.symm.trans h
  refine ⟨?_, hr, fun hpf => ?_⟩
  · simp [Instr.wf, parse_isWord hp, ho, (Bool.and_eq_true_iff.1 hk).1, hm]
  · rw [privileged, hr]
    simpa [hpf] using hpriv

/-! ### Register fields that break their rule -/

/-- A register field no form of `iadd` takes, of its destination or its first source. -/
theorem Instr.operandsOk_iadd_false {h : Head} {t : Ty} {d a : Opnd} {b : Src} {m : AddMod}
    (hbad : (∃ k, d = .const k) ∨ (∃ k, d = .reserved k ∨ a = .reserved k) ∨ (t.is64 = true ∧ ∃ k, k % 2 = 1 ∧ (d = .v k ∨ a = .v k))) :
    (Instr.iadd h t d a b m).operandsOk = false := by
  have huse : (useD d t).ok = false ∨ (useT .a a t).ok = false := by
    obtain ⟨k, rfl⟩ | ⟨k, rfl | rfl⟩ | ⟨ht, k, hk, rfl | rfl⟩ := hbad
    · exact .inl rfl
    · exact .inl rfl
    · exact .inr rfl
    · exact .inl (by simp [Use.ok, useD, ht, hk])
    · exact .inr (by simp [Use.ok, useT, ht, hk])
  show List.all ([useD d t, useT .a a t] ++ useS .b b t) Use.ok = false
  rcases huse with hu | hu <;> simp [hu]

/-! ### The window part of check 6 -/

theorem State.decoded_badMod {s : State} {uid gid : Nat} {p : Party} {g : Gang} {i : Instr} {bs : List Byte}
    (hp : s.party? uid = some p) (hg : p.gang? gid = some g) (hd : decode g.level (Raw.ofBytes bs) = .badMod i) :
    s.decoded (.gang uid gid) bs = .illegalEncoding (if windowOk i (p.members g) then .reservedMod else .badOperand) (Raw.ofBytes bs) := by
  have hl : (s.gang? uid gid).any (·.level) = g.level := by simp [State.gang?, hp, hg]
  simp only [State.decoded, hl, hd, hp, hg, Option.any_some]
  cases windowOk i (p.members g) <;> rfl

/-- Settles O57: each clause is one outcome of the decoder. -/
theorem decodeChecks : Obligations.DecodeChecks := by
  intro priv r
  refine ⟨decode_len_zero, decode_reservedGroup, decode_priv, fun h0 h15 hl => ⟨decode_unassigned h0 h15 hl, fun i hp =>
    ⟨decode_outriderOnly h0 h15 hl hp, fun ho => ⟨decode_badOperand h0 h15 hl hp ho, ?_, fun hk hf =>
      ⟨decode_badMod h0 h15 hl hp ho hk hf, decode_accepts h0 h15 hl hp ho hk hf⟩⟩⟩⟩,
    fun s uid gid p g i bs => State.decoded_badMod, decode_level, fun i => decode_ok⟩
  rintro h t d a b m rfl hbad
  exact decode_badOperand h0 h15 hl hp ho (.inl (Instr.operandsOk_iadd_false hbad))

end Sys2Proof

namespace Sys2Proof.Machine

/-! ### Counting events (15 R348) -/

theorem State.party?_congr {s t : State} (h : t.parties = s.parties) (u : Nat) : t.party? u = s.party? u := by rw [State.party?, h]; rfl

@[simp] theorem State.count_parties (s : State) (c : CoreRef) (ev n ctx : Nat) : (s.count c ev n ctx).parties = s.parties := by
  unfold State.count; dsimp only; split <;> rfl
@[simp] theorem State.count_regs (s : State) (c : CoreRef) (ev n ctx : Nat) : (s.count c ev n ctx).regs = s.regs := by
  unfold State.count; dsimp only; split <;> rfl
@[simp] theorem State.countParty_parties (s : State) (u ev n : Nat) : (s.countParty u ev n).parties = s.parties := by
  unfold State.countParty; split <;> simp
@[simp] theorem State.countParty_regs (s : State) (u ev n : Nat) : (s.countParty u ev n).regs = s.regs := by
  unfold State.countParty; split <;> simp
@[simp] theorem State.party?_countParty (s : State) (u ev n v : Nat) : (s.countParty u ev n).party? v = s.party? v :=
  State.party?_congr (s.countParty_parties u ev n) v

/-! ### What an update does to what it names -/

theorem State.party?_onParty_self {s : State} {u : Nat} {p : Party} (hp : s.party? u = some p) {f : Party → Party} (hf : ∀ p, (f p).uid = p.uid) :
    (s.onParty u f).party? u = some (f p) := by simp [State.party?_onParty s u u f hf, hp]
theorem Party.gang?_onGang_self {p : Party} {n : Nat} {g : Gang} (hg : p.gang? n = some g) {f : Gang → Gang} (hf : ∀ g, (f g).gid = g.gid) :
    (p.onGang n f).gang? n = some (f g) := by simp [Party.gang?_onGang p n n f hf, hg]

theorem Party.crew?_onCrew (p : Party) (m n : Nat) (f : Crew → Crew) (hf : ∀ c, (f c).num = c.num) :
    (p.onCrew m f).crew? n = (p.crew? n).map fun c => if n = m then f c else c :=
  find_map_key (fun c : Crew => c.num) f hf n m p.crews
theorem Party.crew?_onCrew_self {p : Party} {n : Nat} {c : Crew} (hc : p.crew? n = some c) {f : Crew → Crew} (hf : ∀ c, (f c).num = c.num) :
    (p.onCrew n f).crew? n = some (f c) := by simp [Party.crew?_onCrew p n n f hf, hc]

/-! ### Words that return (02 R34, 03 R58) -/

theorem State.putWord_held {s : State} {b : BlockRef} (hg : s.genAt b.lane b.blk = b.gen) (hb : (s.heldBlocks b.lane).contains b.blk = true)
    (a : Access) (r crew : Nat) (w : Word) : s.putWord a (.v b r crew) w = s.setReg b.lane b.blk r w :=
  if_pos (by simpa [hg] using hb)

/-- What is dropped leaves STALEDROP with the crew it was issued by. -/
theorem State.putWord_stale {s : State} {b : BlockRef} (h : ¬(s.genAt b.lane b.blk = b.gen ∧ (s.heldBlocks b.lane).contains b.blk = true))
    (a : Access) (r crew : Nat) (w : Word) :
    s.putWord a (.v b r crew) w = (s.onParty a.uid fun p => p.orGstat s.clock crew staleDrop).countParty a.uid 0x0F 1 :=
  if_neg (by simpa using h)

end Sys2Proof.Machine

namespace Sys2Proof

open Sys2Proof.Machine

/-- Settles O16: the two branches of `putWord`. -/
theorem returnedWords : Obligations.ReturnedWords := by
  intro s a r crew b w held
  refine ⟨fun h => State.putWord_held h.1 h.2 a r crew w, fun h => ?_⟩
  rw [State.putWord_stale h]
  refine ⟨by simp, fun p c hp hc => ⟨p.orGstat s.clock crew staleDrop, c.orGstat s.clock staleDrop, ?_, ?_, rfl⟩⟩
  · rw [State.party?_countParty]
    exact State.party?_onParty_self hp fun _ => rfl
  · exact Party.crew?_onCrew_self hc fun _ => rfl

end Sys2Proof

namespace Sys2Proof.Machine

/-! ### Privileged words (02 R40) -/

/-- The words of group 14 with bit 5 set are those that issue as privileged ones; every other word's opcode is of another group or half. -/
theorem exec_privileged_levelU {s : State} {i : Instr} {x : Turn} (hp : privileged i = true) (ht : s.turnOf = some x) (hl : x.g.level = false) :
    exec i s = .next (s.encodingTrap x.uid x.gid .priv i.raw) := by
  cases i with
  | syswr | segwr | rngwr | rngwrClr | tcinvRange | tcinvRegion | tcinvCtx | tcinvRank | mspill | mfill =>
    exact State.privIssue_levelU ht hl _
  | bra | call | ld | st | pref | atom => simp [privileged, Instr.raw] at hp
  | bfi h t d a b f => cases f <;> exact absurd hp (by dsimp only [privileged, Instr.raw, enc3, encR, enc]; decide)
  | _ => exact absurd hp (by dsimp only [privileged, Instr.raw, enc1, enc2, enc3, encR, enc, encMem]; decide)

end Sys2Proof.Machine

namespace Sys2Proof

open Sys2Proof.Machine

/-- Settles O18: the ten privileged forms issue through `privIssue`, which traps at level U. -/
theorem privilegedAtU : Obligations.PrivilegedAtU := fun _ _ _ _ hp ht hl => exec_privileged_levelU hp ht hl

end Sys2Proof

namespace Sys2Proof.Machine

/-! ### A gang's fibres at an address (06 R124) -/

@[simp] theorem Party.gang?_setPc (p : Party) (g : Gang) (a : Word) (n : Nat) : (p.setPc g a).gang? n = p.gang? n := rfl

theorem Party.fibre?_setPc (p : Party) (g : Gang) (a : Word) (n : Nat) :
    (p.setPc g a).fibre? n = (p.fibre? n).map fun f => if n ∈ g.fibres then { f with pc := a } else f := by
  have hfid (f : Fibre) : (if g.fibres.contains f.fid then { f with pc := a } else f).fid = f.fid := by split <;> rfl
  have hpred : (fun f : Fibre => f.fid == n) ∘ (fun f => if g.fibres.contains f.fid then { f with pc := a } else f) = fun f => f.fid == n :=
    funext fun f => by simp only [Function.comp, hfid]
  rw [Party.fibre?, Party.setPc, List.find?_map, hpred]
  refine Option.map_congr fun f hf => ?_
  have : f.fid = n := by simpa using List.find?_some hf
  simp [this]

theorem Party.fibre?_congr {p q : Party} (h : q.fibres = p.fibres) (n : Nat) : q.fibre? n = p.fibre? n := by rw [Party.fibre?, h]; rfl

@[simp] theorem Party.fibre?_onGang (p : Party) (m n : Nat) (f : Gang → Gang) : (p.onGang m f).fibre? n = p.fibre? n := rfl

/-! ### Issuing (06 R120, R126) -/

/-- An issue changes of the party only the Sieve's view of the gang that issued. -/
theorem State.party?_stampIssue {s : State} {uid gid : Nat} {p : Party} {g : Gang} (hp : s.party? uid = some p) (hg : p.gang? gid = some g) :
    ∃ q, (s.stampIssue uid gid).party? uid = some q ∧ q.fibres = p.fibres ∧ ∃ c, q.gang? gid =
      some { g with ready := s.clock.toNat, age := 0, wait := none, boundary := false, cls := c } :=
  ⟨_, State.party?_onParty_self (s := { s.tick with issued := s.laneIssued uid gid }) hp fun _ => rfl, rfl, _,
    Party.gang?_onGang_self hg fun _ => rfl⟩

/-! ### Entry to level S (16 R350) -/

/-- A gang whose entry does not end its party goes to SENTRY at level S; its emulation fields stay. -/
theorem State.enterS_enters {s : State} {uid gid : Nat} {p : Party} {g : Gang} (hp : s.party? uid = some p) (hg : p.gang? gid = some g)
    (hl : g.level = false) (sepc : Word) (es : List LogEntry) :
    ∃ q h, (s.enterS uid gid sepc es).party? uid = some q ∧ q.gang? gid = some h ∧
      h.emu = g.emu ∧ h.level = true ∧ h.sepc = sepc ∧ h.slog = es := by
  obtain ⟨q, hq, -, c, hk⟩ := State.party?_stampIssue hp hg
  rw [State.enterS, hp]
  simp only [hg, hl, Bool.false_and, Bool.false_eq_true, if_false]
  have hq' : ({ s.stampIssue uid gid with growq := (s.stampIssue uid gid).growq.filter fun w => !(w.2.1 == uid && w.2.2 == gid) } : State).party? uid = some q := hq
  have h1 := State.party?_onParty_self hq' (f := fun p => p.setPc g (s.stampIssue uid gid).sys.sentry) fun _ => rfl
  exact ⟨_, _, State.party?_onParty_self h1 fun _ => rfl, Party.gang?_onGang_self ((Party.gang?_setPc ..).trans hk) fun _ => rfl, rfl, rfl, rfl, rfl⟩

end Sys2Proof.Machine

namespace Sys2Proof

open Sys2Proof.Machine

/-! ### Encoding traps at level U (02 R41, R42, 16 R353) -/

section Trap

variable {s : State} {x : Turn} (ht : s.turnOf = some x) (hp : s.pendingFaults x.uid x.g = [])
  (ho : s.outstanding x.uid x.g = false) (r : Raw)
include ht hp ho

theorem encodingTrap_priv : s.encodingTrap x.uid x.gid .priv r =
    s.enterS x.uid x.gid (nextPc x.pc r) [issueLog r x.pc 0x03 0 0 0 .none x.g.logged] := by
  obtain ⟨-, hu, hg, -, hpc⟩ := State.turnOf_some ht
  rw [State.encodingTrap, hu]
  simp [hg, hp, ho, hpc, Cause.emulate?]

theorem encodingTrap_fetchSplit : s.encodingTrap x.uid x.gid .fetchSplit r =
    s.enterS x.uid x.gid x.pc [issueLog r x.pc 0x02 0 0 0 .none x.g.logged] := by
  obtain ⟨-, hu, hg, -, hpc⟩ := State.turnOf_some ht
  rw [State.encodingTrap, hu]
  simp [hg, hp, ho, hpc, Cause.emulate?]

variable {cause : Cause} {k : Nat} (hk : Cause.emulate? cause = some k) (hl : x.g.level = false)
include hk hl

theorem encodingTrap_emulated : s.encodingTrap x.uid x.gid cause r =
    let s' := s.onGang x.uid x.gid fun g => { g with emu := emuFields k r x.pc }
    let entry := ((s.ctx? x.p.ctx).map (·.emu)).getD 0
    if entry = 0 then s'.enterS x.uid x.gid (nextPc x.pc r) [issueLog r x.pc 0x01 k 0 0 .none x.g.logged]
    else (s'.stampIssue x.uid x.gid).onParty x.uid fun p => p.setPc x.g entry := by
  obtain ⟨-, hu, hg, -, hpc⟩ := State.turnOf_some ht
  have hctx (f : Gang → Gang) : (s.onGang x.uid x.gid f).ctx? x.p.ctx = s.ctx? x.p.ctx := rfl
  rw [State.encodingTrap, hu]
  simp only [hg, hp, ho, hpc, hk, hl, hctx, List.isEmpty_nil, Bool.not_true, Bool.false_eq_true, if_false, Bool.false_or, beq_iff_eq]

/-- The emulation fields hold the word, and the gang goes to the emulation entry, or where there is none to the supervisor. -/
theorem encodingTrap_emulates :
    let entry := ((s.ctx? x.p.ctx).map (·.emu)).getD 0
    ∃ q g, (s.encodingTrap x.uid x.gid cause r).party? x.uid = some q ∧ q.gang? x.gid = some g ∧ g.emu = emuFields k r x.pc ∧
      (entry ≠ 0 → g.level = false ∧ ∀ fid f, x.p.fibre? fid = some f →
        q.fibre? fid = some (if fid ∈ x.g.fibres then { f with pc := entry } else f)) ∧
      (entry = 0 → g.level = true ∧ g.sepc = nextPc x.pc r ∧ g.slog = [issueLog r x.pc 0x01 k 0 0 .none x.g.logged]) := by
  intro entry
  obtain ⟨-, hu, hg, -, -⟩ := State.turnOf_some ht
  rw [encodingTrap_emulated ht hp ho r hk hl]
  have hu' := State.party?_onParty_self hu (f := fun p => p.onGang x.gid fun g => { g with emu := emuFields k r x.pc }) fun _ => rfl
  have hg' := Party.gang?_onGang_self hg (f := fun g => { g with emu := emuFields k r x.pc }) fun _ => rfl
  by_cases he : entry = 0
  · rw [if_pos he]
    obtain ⟨q, g, hq, hg, hemu, hlv, hse, hes⟩ := State.enterS_enters hu' hg' hl (nextPc x.pc r) [issueLog r x.pc 0x01 k 0 0 .none x.g.logged]
    exact ⟨q, g, hq, hg, hemu, fun h => absurd he h, fun _ => ⟨hlv, hse, hes⟩⟩
  · rw [if_neg he]
    obtain ⟨q, hq, hf, c, hc⟩ := State.party?_stampIssue hu' hg'
    refine ⟨_, _, State.party?_onParty_self hq fun _ => rfl, hc, rfl, fun _ => ⟨hl, fun fid f hfid => ?_⟩, fun h => absurd h he⟩
    rw [Party.fibre?_setPc, Party.fibre?_congr hf, Party.fibre?_onGang, hfid, Option.map_some]

end Trap

/-- Settles O36: where nothing is to be taken or waited for first, the trap of each cause. -/
theorem encodingTraps : Obligations.EncodingTraps := by
  intro s x r cause ht hl hp ho
  refine ⟨fun k hk => ?_, fun h => h ▸ encodingTrap_priv ht hp ho r, fun h => h ▸ encodingTrap_fetchSplit ht hp ho r⟩
  obtain ⟨q, g, hq, hg, hemu, hU, hS⟩ := encodingTrap_emulates ht hp ho r hk hl
  refine ⟨q, g, hq, hg, ?_, ?_, ?_, ?_, ?_, ?_, ?_, hU, hS⟩
  all_goals rw [hemu]; rfl

end Sys2Proof

namespace Sys2Proof.Machine

/-! ### Fibres that do not come back

What the operations on gangs, queues and logs leave of a party's fibres: at most those it had. -/

/-- `q` is `p` with no fibre that `p` does not have. -/
def Party.Sheds (p q : Party) : Prop := q.uid = p.uid ∧ ∀ n, p.fibre? n = none → q.fibre? n = none

/-- `t` holds the parties of `s`, none with a new fibre. -/
def State.Sheds (s t : State) : Prop := ∃ f : Party → Party, (∀ p : Party, p.Sheds (f p)) ∧ t.parties = s.parties.map f

/-- Fibre `n` of party `uid` is gone. -/
def State.Gone (s : State) (uid n : Nat) : Prop := ∀ q, s.party? uid = some q → q.fibre? n = none

theorem Party.Sheds.refl (p : Party) : p.Sheds p := ⟨rfl, fun _ h => h⟩
theorem Party.Sheds.trans {p q r : Party} (h : p.Sheds q) (k : q.Sheds r) : p.Sheds r := ⟨k.1.trans h.1, fun n hn => k.2 n (h.2 n hn)⟩
theorem Party.sheds_of_fibres {p q : Party} (hu : q.uid = p.uid) (hf : q.fibres = p.fibres) : p.Sheds q := ⟨hu, fun n hn => by rwa [Party.fibre?, hf]⟩

theorem Party.sheds_setPc (p : Party) (g : Gang) (a : Word) : p.Sheds (p.setPc g a) := ⟨rfl, fun n hn => by rw [Party.fibre?_setPc, hn]; rfl⟩

theorem Party.sheds_addGang (p : Party) (now : DWord) (g : Gang) : p.Sheds (p.addGang now g) := by
  unfold Party.addGang; split <;> exact Party.sheds_of_fibres rfl rfl

/-- A change of fibres that keeps their numbers. -/
theorem Party.sheds_mapFibres (p : Party) (f : Fibre → Fibre) (hf : ∀ k, (f k).fid = k.fid) : p.Sheds { p with fibres := p.fibres.map f } :=
  ⟨rfl, fun n hn => by simpa [Party.fibre?, hf] using hn⟩

theorem Party.sheds_filterFibres (p : Party) (keep : Fibre → Bool) : p.Sheds { p with fibres := p.fibres.filter keep } :=
  ⟨rfl, fun n hn => by
    simp only [Party.fibre?, List.find?_eq_none, List.mem_filter] at hn ⊢
    exact fun k hk => hn k hk.1⟩

theorem State.sheds_of_parties {s t : State} (h : t.parties = s.parties) : s.Sheds t := ⟨id, Party.Sheds.refl, by simp [h]⟩
theorem State.Sheds.refl (s : State) : s.Sheds s := State.sheds_of_parties rfl
theorem State.Sheds.trans {s t u : State} (h : s.Sheds t) (k : t.Sheds u) : s.Sheds u := by
  obtain ⟨f, hf, ht⟩ := h
  obtain ⟨g, hg, hu⟩ := k
  exact ⟨g ∘ f, fun p => (hf p).trans (hg _), by rw [hu, ht, List.map_map]⟩

/-- What a step after it leaves of the parties stays so. -/
theorem State.Sheds.congr {s t u : State} (h : s.Sheds t) (e : u.parties = t.parties) : s.Sheds u := h.trans (State.sheds_of_parties e)

theorem State.sheds_onParty (s : State) (u : Nat) {f : Party → Party} (hf : ∀ p : Party, p.Sheds (f p)) : s.Sheds (s.onParty u f) :=
  ⟨fun p => if p.uid == u then f p else p, fun p => by beta_reduce; split; exacts [hf p, .refl p], rfl⟩

theorem State.sheds_onGang (s : State) (u n : Nat) (f : Gang → Gang) : s.Sheds (s.onGang u n f) :=
  s.sheds_onParty u fun _ => Party.sheds_of_fibres rfl rfl

theorem State.sheds_foldl {α : Type} {f : State → α → State} (hf : ∀ (s : State) a, s.Sheds (f s a)) (l : List α) (s : State) : s.Sheds (l.foldl f s) := by
  induction l generalizing s with
  | nil => exact .refl s
  | cons a l ih => exact (hf s a).trans (ih _)

theorem State.Sheds.party? {s t : State} (h : s.Sheds t) {u : Nat} {q : Party} (hq : t.party? u = some q) :
    ∃ p, s.party? u = some p ∧ p.Sheds q := by
  obtain ⟨f, hf, ht⟩ := h
  have hpred : (fun p : Party => p.uid == u) ∘ f = fun p => p.uid == u := funext fun p => by simp only [Function.comp, (hf p).1]
  rw [State.party?, ht, List.find?_map, hpred] at hq
  obtain ⟨p, hp, rfl⟩ := Option.map_eq_some_iff.1 hq
  exact ⟨p, hp, hf p⟩

theorem State.Gone.sheds {s t : State} {u n : Nat} (hg : s.Gone u n) (h : s.Sheds t) : t.Gone u n := fun _ hq => by
  obtain ⟨p, hp, hs⟩ := h.party? hq
  exact hs.2 n (hg p hp)

/-! ### Records, the end of a fibre, the end of a party -/

@[simp] theorem State.eventWrite_parties (s : State) (r : List Byte) : (s.eventWrite r).parties = s.parties := by
  unfold State.eventWrite; dsimp only; split <;> rfl

@[simp] theorem State.event_parties (s : State) (u : Nat) (a : DWord) (c b : Nat) (e : EventSrc) : (s.event u a c b e).parties = s.parties := by
  unfold State.event; dsimp only; split
  · exact State.eventWrite_parties ..
  · rfl

theorem State.sheds_releaseBlock (s : State) (l : LaneRef) (b : Nat) : s.Sheds (s.releaseBlock l b) := State.sheds_of_parties rfl

theorem State.sheds_endFibre (s : State) (u n : Nat) : s.Sheds (s.endFibre u n) := by
  unfold State.endFibre
  split
  · exact .refl s
  · split
    · exact .refl s
    · exact ((State.sheds_foldl (fun s b => s.sheds_releaseBlock _ b) _ s).congr rfl).trans
        (State.sheds_onParty _ _ fun p => p.sheds_filterFibres _)

theorem State.gone_onParty (s : State) {u n : Nat} {f : Party → Party} (hu : ∀ p, (f p).uid = p.uid) (hf : ∀ p, (f p).fibre? n = none) :
    (s.onParty u f).Gone u n := fun q hq => by
  rw [State.party?_onParty s u u f hu] at hq
  obtain ⟨p, -, rfl⟩ := Option.map_eq_some_iff.1 hq
  exact if_pos rfl ▸ hf p

/-- A fibre that has ended is gone. -/
theorem State.gone_endFibre (s : State) (u n : Nat) : (s.endFibre u n).Gone u n := by
  cases hp : s.party? u with
  | none => exact State.Gone.sheds (s := s) (fun q hq => by simp [hp] at hq) (s.sheds_endFibre u n)
  | some p =>
    cases hf : p.fibre? n with
    | none => exact State.Gone.sheds (s := s) (fun q hq => Option.some.inj (hp.symm.trans hq) ▸ hf) (s.sheds_endFibre u n)
    | some f =>
      rw [State.endFibre, hp]
      simp only [hf]
      exact State.gone_onParty _ (fun _ => rfl) fun p => by simp [Party.fibre?]

theorem State.sheds_partyFault (s : State) (u c : Nat) : s.Sheds (s.partyFault u c) := by
  unfold State.partyFault
  split
  · exact .refl s
  · split
    · exact .refl s
    · refine State.Sheds.congr ?_ (State.event_parties ..)
      exact s.sheds_onParty u fun _ => Party.sheds_of_fibres rfl rfl

theorem State.sheds_endParty (s : State) (u : Nat) (c : EndCause) : s.Sheds (s.endParty u c) := by
  unfold State.endParty
  split
  · exact .refl s
  · split
    · exact .refl s
    · refine State.Sheds.congr (t := State.onParty _ u _) ?_ (State.event_parties ..)
      exact (State.sheds_foldl (fun s (f : Fibre) => s.sheds_endFibre u f.fid) _ s).trans
        (State.sheds_onParty _ u fun _ => Party.sheds_of_fibres rfl rfl)

/-! ### Faults -/

theorem State.sheds_stampIssue (s : State) (u g : Nat) : s.Sheds (s.stampIssue u g) :=
  (State.sheds_of_parties (t := { s.tick with issued := s.laneIssued u g }) rfl).trans (State.sheds_onParty _ u fun _ => Party.sheds_of_fibres rfl rfl)

theorem State.sheds_enterS (s : State) (u g : Nat) (a : Word) (es : List LogEntry) : s.Sheds (s.enterS u g a es) := by
  unfold State.enterS
  split
  · exact .refl s
  · split
    · exact .refl s
    · split
      · exact s.sheds_endParty u _
      · exact (((s.sheds_stampIssue u g).congr rfl).trans (State.sheds_onParty _ u fun p => p.sheds_setPc _ _)).trans
          (State.sheds_onGang _ u g _)

theorem State.sheds_setAside (s : State) (u c : Nat) (as : List Access) : s.Sheds (s.setAside u c as) := by
  unfold State.setAside
  dsimp only
  split
  · exact State.sheds_of_parties rfl
  · exact (State.sheds_of_parties rfl).trans (State.sheds_onParty _ u fun _ => Party.sheds_of_fibres rfl rfl)

theorem State.sheds_takePending (s : State) (u g : Nat) (a : Word) (es : List LogEntry) : s.Sheds (s.takePending u g a es) := by
  unfold State.takePending
  split
  · exact .refl s
  · exact ((s.sheds_setAside u _ _).congr rfl).trans (State.sheds_enterS _ u g a _)

theorem State.sheds_faultAt (s : State) (u g : Nat) (a : Word) (e : LogEntry) : s.Sheds (s.faultAt u g a e) :=
  (s.sheds_takePending u g a [e]).congr (State.countParty_parties ..)

/-! ### Releases and deadlocks -/

theorem State.sheds_formGangs (u : Nat) (fs : List (Nat → Gang)) (s : State) : s.Sheds (s.formGangs u fs) := by
  induction fs generalizing s with
  | nil => exact .refl s
  | cons f fs ih =>
    refine State.Sheds.trans ?_ (ih _)
    have hadd : s.Sheds (s.fresh.2.onParty u fun p => p.addGang s.fresh.2.clock (f s.fresh.1)) :=
      (State.sheds_of_parties (t := s.fresh.2) rfl).trans (State.sheds_onParty _ u fun p => p.sheds_addGang _ _)
    dsimp only
    split
    · exact hadd.congr (State.countParty_parties ..)
    · exact hadd

theorem State.sheds_evaluateRelease (s : State) (u c : Nat) : s.Sheds (s.evaluateRelease u c) := by
  unfold State.evaluateRelease
  split
  · exact .refl s
  · dsimp only
    split
    · split
      exacts [s.sheds_partyFault u _, .refl s]
    · refine (State.sheds_onParty _ u fun p => p.sheds_mapFibres _ fun k => by split <;> rfl).trans (State.sheds_foldl (fun s a => ?_) _ _)
      split
      · exact .refl s
      · split
        · exact (State.sheds_formGangs u _ s).trans (State.sheds_onParty _ u fun _ => Party.sheds_of_fibres rfl rfl)
        · exact State.sheds_formGangs u _ s

theorem State.sheds_windowDeadlock (s : State) (l : LaneRef) : s.Sheds (s.windowDeadlock l) := by
  unfold State.windowDeadlock
  split
  · exact .refl s
  · split
    · exact .refl s
    · split
      · exact .refl s
      · split
        exacts [State.sheds_faultAt .., .refl s]

theorem State.sheds_spawnDeadlock (s : State) (u : Nat) : s.Sheds (s.spawnDeadlock u) := by
  unfold State.spawnDeadlock
  split
  · exact .refl s
  · dsimp only; split
    exacts [State.sheds_partyFault .., .refl s]

theorem State.sheds_futureExhaust (s : State) (u : Nat) : s.Sheds (s.futureExhaust u) := by
  unfold State.futureExhaust
  split
  · exact .refl s
  · dsimp only; split
    exacts [State.sheds_partyFault .., .refl s]

theorem State.sheds_deadlocks (s : State) (u c : Nat) : s.Sheds (s.deadlocks u c) := by
  unfold State.deadlocks
  split
  · exact .refl s
  · exact ((s.sheds_windowDeadlock _).trans (State.sheds_spawnDeadlock _ u)).trans (State.sheds_futureExhaust _ u)

end Sys2Proof.Machine

namespace Sys2Proof.Machine

/-! ### Fibres through their lives (06 R128, R129, R132, 03 R59, R60) -/

theorem State.sheds_orphans (s : State) (u n : Nat) : s.Sheds (s.orphans u n) := by
  unfold State.orphans
  dsimp only
  split
  · exact State.sheds_of_parties rfl
  · refine (State.sheds_of_parties rfl).trans (State.sheds_foldl (fun s a => ?_) _ _)
    split
    exacts [State.sheds_of_parties (State.event_parties ..), .refl s]

/-- Of fibres that are ended one after the other, each is gone. -/
theorem State.gone_endFibres (u : Nat) (fs : List Fibre) (s : State) {f : Fibre} (hf : f ∈ fs) :
    (fs.foldl (fun (s : State) f => (s.orphans u f.fid).endFibre u f.fid) s).Gone u f.fid := by
  induction fs generalizing s with
  | nil => cases hf
  | cons k fs ih =>
    rcases List.mem_cons.1 hf with rfl | hf
    · exact State.Gone.sheds (State.gone_endFibre _ u f.fid)
        (State.sheds_foldl (fun s (f : Fibre) => (s.sheds_orphans u f.fid).trans (State.sheds_endFibre _ u f.fid)) fs _)
    · exact ih _ hf

section Life

variable {s : State} {h : Head} {x : Turn}

theorem exec_nop {len : Len} (c : s.Clear (.nop h len) x) : exec (.nop h len) s = .next (s.advance x.uid x.gid (Instr.nop h len).raw) := by
  show execNop h len s = _
  rw [execNop, State.inOutrider_of_turn c.turn]
  exact State.issueNext_clear c _

theorem exec_exit (c : s.Clear (.exit h) x) (hl : x.g.level = false) :
    ∃ t, exec (.exit h) s = .next t ∧ ∀ f ∈ takeEffect h x.ms, t.Gone x.uid f.fid := by
  have hh : (Instr.exit h).head = h := rfl
  show ∃ t, execExit h s = _ ∧ _
  simp only [execExit, State.inOutrider_of_turn c.turn, State.issueFibre_clear c hl, Bool.false_eq_true, if_false]
  cases he : (takeEffect h x.ms).isEmpty
  · refine ⟨_, if_neg (by simp [hh, he]), fun f hf => ?_⟩
    refine State.Gone.sheds ?_ (State.sheds_deadlocks _ _ _)
    refine State.Gone.sheds ?_ (State.sheds_evaluateRelease _ _ _)
    exact (State.gone_endFibres x.uid _ _ hf).sheds (State.sheds_onParty _ _ fun _ => Party.sheds_of_fibres rfl rfl)
  · refine ⟨_, if_pos he, fun f hf => ?_⟩
    rw [List.isEmpty_iff.1 he] at hf
    cases hf

theorem exec_meet {a : Opnd} (c : s.Clear (.meet h a) x) (hl : x.g.level = false) (hfs : takeEffect h x.ms ≠ [])
    (hp : s.pendingFaults x.uid x.g = []) (ho : s.scalarPending x.uid x.g = false) :
    let fs := takeEffect h x.ms
    let m : Meet := { addr := x.pc, mask := meetMask x.g a, sregs := x.g.sregs, emu := x.g.emu }
    let s1 := fs.foldl (fun (r : State) f => r.onFibre x.uid f.fid fun f => { f with meet := some m, pc := x.pc })
      (s.advance x.uid x.gid (Instr.meet h a).raw)
    let s2 := (s1.onParty x.uid fun p => p.leave x.gid (fs.map (·.fid))).countParty x.uid 0x07 fs.length
    exec (.meet h a) s = .next ((s2.evaluateRelease x.uid x.g.crew).deadlocks x.uid x.g.crew) := by
  have hh : (Instr.meet h a).head = h := rfl
  show execMeet h a s = _
  simp [execMeet, State.issueFibre_clear c hl, hh, hfs, hp, ho]

theorem exec_spawn {a : Opnd} {entry : Word} {tmo blk : Nat} (c : s.Clear (.spawn h a entry tmo blk) x) (hl : x.g.level = false)
    (hw : x.g.wait = none) (hb : x.p.spawnBefore x.gid (x.pc + entry) none = false) (ho : s.overtaken (.bins x.uid) x.g.crew = false) {s' : State}
    (hs : s.placeRecords x (x.pc + entry) tmo (if blk = 0 then x.p.blocks else blk) a (takeEffect h x.ms) = ([], s')) :
    exec (.spawn h a entry tmo blk) s = .next ((if 0 < (takeEffect h x.ms).length then s'.serve (.bins x.uid) x.g.crew else s').advance x.uid x.gid
      (Instr.spawn h a entry tmo blk).raw) := by
  have hall : ((takeEffect h x.ms).filter fun f => !([] : List Nat).contains f.fid) = takeEffect h x.ms := List.filter_eq_self.2 fun _ _ => rfl
  have hh : (Instr.spawn h a entry tmo blk).head = h := rfl
  show execSpawn h a entry tmo blk s = _
  simp only [execSpawn, State.issueFibre_clear c hl, hw, ho, hb, Bool.false_eq_true, if_false]
  simp only [hh, hall, hs, List.length_nil, List.isEmpty_nil, if_true]

theorem exec_xgrow (c : s.Clear (.xgrow h) x) (hq : ∀ w ∈ s.growq, w.1 ≠ x.p.laneRef x.g.crew)
    (hn : growNeed (takeEffect h x.ms) ≤ (s.freeBlocks (x.p.laneRef x.g.crew)).length) :
    exec (.xgrow h) s = .next ((s.grow x.uid (x.p.laneRef x.g.crew) (takeEffect h x.ms)).advance x.uid x.gid (Instr.xgrow h).raw) := by
  have hnone : (s.growq.any fun w => w.1 == x.p.laneRef x.g.crew) = false := List.any_eq_false.2 fun w hw => by simpa using hq w hw
  have hh : (Instr.xgrow h).head = h := rfl
  show execXgrow h s = _
  rw [execXgrow, State.issue_clear c]
  cases he : (takeEffect h x.ms).isEmpty
  · simp only [hh, he, hnone, Bool.false_or, Bool.false_eq_true, if_false]
    exact if_neg fun hlt => Nat.not_lt.2 hn (of_decide_eq_true hlt)
  · simp [hh, List.isEmpty_iff.1 he, State.grow]

theorem exec_xshrink (c : s.Clear (.xshrink h) x) :
    exec (.xshrink h) s = .next ((s.shrink x.uid (x.p.laneRef x.g.crew) (takeEffect h x.ms)).advance x.uid x.gid (Instr.xshrink h).raw) :=
  State.issueNext_clear c _

end Life

end Sys2Proof.Machine

namespace Sys2Proof

open Sys2Proof.Machine

/-- Settles O21: each form's arm where nothing holds it back. -/
theorem fibreLife : Obligations.FibreLife := by
  intro s h len n tmo blk a entry x fs
  refine ⟨exec_nop, fun c hl => ?_, fun c hl hfs hp ho => exec_meet c hl hfs hp ho, fun c hl hw hb ho s' hs => exec_spawn c hl hw hb ho hs,
    exec_xgrow, exec_xshrink⟩
  obtain ⟨t, ht, hgone⟩ := exec_exit c hl
  exact ⟨t, ht, fun q hq f hf => hgone f hf q hq⟩

end Sys2Proof

namespace Sys2Proof.Machine

/-! ### Two parties of one number

`State.party?` finds the first party of a number alone, while a lane looks at every party that stands on its core. The statement about lanes says that a
lane whose parties, as `party?` finds them, hold no gang that has yet to come to it stays as it is; it does not ask that party numbers differ. -/

/-- A gang of no fibres, on crew 0, not in the lane's gang-ready set; it has yet to come to its lane or not. -/
def twinGang (starting : Bool) : Gang := { gid := 2, crew := 0, number := some 0, fibres := [], sregs := [], entered := false, starting := starting }

/-- Party 1 on core 0 of die 0, with that gang alone. -/
def twinParty (starting : Bool) : Party :=
  { uid := 1, core := ⟨0, 0⟩, slot := 0, ctx := 0, rank := 0, launch := none, unitid := 0, nfib := 0, blocks := 0, prio := 0, producer := 0
    code := 0, segBase := [], segLim := [], fibres := [], gangs := [twinGang starting], crews := [] }

/-- Two parties carry the number 1: the first, which `party?` finds, holds nothing that starts; the gang of the second has yet to come to the lane. -/
def twinState : State := { State.reset with parties := [twinParty false, twinParty true] }

theorem party?_twinState {u : Nat} {q : Party} (hq : twinState.party? u = some q) : q = twinParty false := by
  have huid : ((twinParty true).uid == u) = ((twinParty false).uid == u) := rfl
  cases hu : (twinParty false).uid == u
  · simp [State.party?, twinState, List.find?, huid, hu] at hq
  · simpa [State.party?, twinState, List.find?, hu] using hq.symm

/-- The second party's gang comes to its lane. -/
theorem mergeLane_twinState : twinState.mergeLane ⟨0, 0, 0⟩ ≠ twinState := by
  intro h
  have hp : (twinState.mergeLane ⟨0, 0, 0⟩).parties.map (fun p => p.gangs.map (·.starting)) = [[false], [false]] := by decide
  rw [h] at hp
  exact absurd hp (by decide)

end Sys2Proof.Machine

namespace Sys2Proof

open Sys2Proof.Machine

/-- Refutes O46: the clause that a lane with nothing to merge stays as it is fails where two parties carry one number. `twinState` meets its premise, which
speaks of the party that `party?` finds, and merging lane 0 lets the gang of the other come to the lane. -/
theorem not_laneEvents : ¬ Obligations.LaneEvents := by
  intro h
  obtain ⟨-, -, ⟨-, hquiet, -⟩, -⟩ := h twinState ⟨0, 0, 0⟩ ⟨0, 0⟩ 1 0 2 0 (twinParty false) (twinGang false) rfl rfl
  refine mergeLane_twinState (hquiet fun u q hq => ?_)
  rw [party?_twinState hq]
  decide

end Sys2Proof

namespace Sys2Proof.Machine

/-! ### Windows (03 R57 to R60) -/

theorem sget_of_unlisted {α : Type} (d : α) {m : Sparse α} {k : Nat} (h : ∀ c ∈ m, c.1 ≠ k) : sget d m k = d := by
  induction m with
  | nil => rfl
  | cons c t ih =>
    rw [sget, if_neg (h c List.mem_cons_self), ih fun e he => h e (List.mem_cons_of_mem c he), ite_self]

/-- A cleared block reads 0, whatever form the register file has. -/
theorem State.regAt_clearBlock (s : State) (l : LaneRef) (b : Nat) {r : Nat} (hr : r < 64) : (s.clearBlock l b).regAt l b r = 0 := by
  refine sget_of_unlisted 0 fun c hc hk => ?_
  have hout := (List.mem_filter.1 hc).2
  have hkey : regKey l b r = regKey l b 0 + r := rfl
  simp only [Bool.not_eq_true', decide_eq_false_iff_not] at hout
  omega

theorem State.fibre?_onFibre_self {s : State} {uid n : Nat} {p : Party} {f : Fibre} (hp : s.party? uid = some p) (hf : p.fibre? n = some f)
    {φ : Fibre → Fibre} (hφ : ∀ k, (φ k).fid = k.fid) :
    ∃ q, (s.onFibre uid n φ).party? uid = some q ∧ q.fibre? n = some (φ f) :=
  ⟨_, State.party?_onParty_self hp fun _ => rfl, by simp [Party.fibre?_onFibre p n n φ hφ, hf]⟩

section Windows

variable {s : State} {uid : Nat} {l : LaneRef} {f : Fibre}

theorem State.grow_notFull (h : f.blocks.length < 5) : s.grow uid l [f] = (s.clearBlock l ((s.freeBlocks l).headD 0)).onFibre uid f.fid fun k =>
    { k with blocks := k.blocks ++ [(s.freeBlocks l).headD 0], pred := pushPred k.pred true } := if_pos h

theorem State.grow_full (h : ¬f.blocks.length < 5) :
    s.grow uid l [f] = s.onFibre uid f.fid fun k => { k with pred := pushPred k.pred false } := if_neg h

theorem State.shrink_more (h : 1 < f.blocks.length) : s.shrink uid l [f] = (s.releaseBlock l (f.blocks.getLastD 0)).onFibre uid f.fid fun k =>
    { k with blocks := k.blocks.dropLast, pred := pushPred k.pred true } := if_pos h

theorem State.shrink_one (h : ¬1 < f.blocks.length) :
    s.shrink uid l [f] = s.onFibre uid f.fid fun k => { k with pred := pushPred k.pred false } := if_neg h

variable {p : Party} (hp : s.party? uid = some p) (hf : p.fibre? f.fid = some f)
include hp hf

theorem State.grow_fibre : ∃ q, (s.grow uid l [f]).party? uid = some q ∧ q.fibre? f.fid = some
    (if f.blocks.length < 5 then { f with blocks := f.blocks ++ [(s.freeBlocks l).headD 0], pred := pushPred f.pred true }
     else { f with pred := pushPred f.pred false }) := by
  split
  case isTrue h => rw [State.grow_notFull h]; exact State.fibre?_onFibre_self (s := s.clearBlock l _) hp hf fun _ => rfl
  case isFalse h => rw [State.grow_full h]; exact State.fibre?_onFibre_self hp hf fun _ => rfl

theorem State.shrink_fibre : ∃ q, (s.shrink uid l [f]).party? uid = some q ∧ q.fibre? f.fid = some
    (if 1 < f.blocks.length then { f with blocks := f.blocks.dropLast, pred := pushPred f.pred true }
     else { f with pred := pushPred f.pred false }) := by
  split
  case isTrue h => rw [State.shrink_more h]; exact State.fibre?_onFibre_self (s := s.releaseBlock l _) hp hf fun _ => rfl
  case isFalse h => rw [State.shrink_one h]; exact State.fibre?_onFibre_self hp hf fun _ => rfl

end Windows

end Sys2Proof.Machine

namespace Sys2Proof

open Sys2Proof.Machine

/-- Settles O22: what `grow` and `shrink` do to one fibre, to the block it is granted and to the generation of the block it gives back. -/
theorem windowsGrowAndShrink : Obligations.WindowsGrowAndShrink := by
  intro s uid l f p hp hf
  refine ⟨State.grow_fibre hp hf, fun h r hr => ?_, State.shrink_fibre hp hf, fun h hg => ?_⟩
  · rw [State.grow_notFull h]
    exact s.regAt_clearBlock l _ hr
  · rw [State.shrink_more h]
    exact (State.gens_releaseBlock hg l _ _).trans (if_pos rfl)

end Sys2Proof

namespace Sys2Proof.Machine

/-! ### Accesses in flight: results, the store queue, answers (03 R58, 12 R267, 10 R223) -/

theorem State.draw_one (s : State) : s.draw 1 = (0, s) := rfl
theorem State.draw_two (s : State) : s.draw 2 = (Config.choice s.draws % 2, { s with draws := s.draws + 1 }) := rfl

theorem State.access?_settleRead (s : State) (n k : Nat) (v : View) (more : List Nat) (h : s.access? k = none) : (s.settleRead n v more).access? k = none := by
  simp only [State.access?, State.settleRead, List.find?_map, Option.map_eq_none_iff] at h ⊢
  rw [← h]
  congr 1
  funext b
  simp only [Function.comp]
  split <;> rfl

/-- An access that has ended is out of flight. -/
theorem State.access?_finish (s : State) (a : Access) (ws : List Word) (st : Nat) : (s.finish a ws st).access? a.id = none :=
  State.access?_settleRead _ _ _ _ _ (by simp [State.access?])

section Access

variable {s : State} {id : Nat} {a : Access} (ha : s.access? id = some a)
include ha

theorem State.access?_id : a.id = id := by simpa using List.find?_some ha

theorem exec_resultReturn_done (hf : a.fid ≠ some engineFid) (hs : a.aside = false) {ws : List Word} {st : Nat} (hd : a.stage = .done ws st) :
    exec (.resultReturn id) s = .next (s.finish a ws st) := by
  show execResultReturn id s = _
  simp [execResultReturn, ha, hf, hs, hd]

theorem exec_resultReturn_load (hf : a.fid ≠ some engineFid) (hs : a.aside = false) (hr : a.stage = .ready) {t : Ty} {n : Nat} (ho : a.op = .load t n) :
    exec (.resultReturn id) s = if s.contended a then
      .next (({ s with draws := s.draws + 1 } : State).performLoad a t n (Config.choice s.draws % 2 == 1)) else .next (s.performLoad a t n) := by
  show execResultReturn id s = _
  cases hc : s.contended a <;> simp [execResultReturn, ha, hf, hs, hr, ho, hc, State.draw_one, State.draw_two]

theorem exec_walk (hw : a.stage = .toWalk) (hc : a.op.isCopy = false) (hs : a.aside = false) : exec (.walk id) s = .next (s.walkAccess a []) := by
  show execWalk id s = _
  simp [execWalk, ha, hw, hc, hs]

theorem exec_remoteTimeout {d : Nat} (hd : a.stage = .sent d) :
    exec (.remoteTimeout id) s = .next (if d ≤ s.clock.toNat then s.refuseSent a 0x10 0 else s) := by
  show execRemoteTimeout id s = _
  simp [execRemoteTimeout, ha, hd]

end Access

/-! ### The head of a store queue (12 R267) -/

/-- What a drain leaves of the queue once its head has been tried: an access that could not be performed keeps its place. -/
def State.afterHead (t : State) (a : Access) (uid crew id : Nat) : State := if t.access? id = some a then t else t.popStore uid crew id

section Head

variable {s : State} {uid crew id : Nat} {p : Party} {a : Access} (hp : s.party? uid = some p)
  (hh : (p.crew? crew).bind Crew.head? = some id) (ha : s.access? id = some a)
include hp hh ha

theorem exec_storeDrain_ended (hs : (∃ ws st, a.stage = .done ws st ∨ a.stage = .locked ws st) ∨ ∃ k j, a.stage = .refused k j) :
    exec (.storeDrain uid crew) s = .next (s.popStore uid crew id) := by
  show Host.Outcome.next (s.drainHead uid crew) = _
  obtain ⟨ws, st, hs | hs⟩ | ⟨k, j, hs⟩ := hs <;> simp [State.drainHead, hp, hh, ha, hs]

variable (hr : a.stage = .ready) (hl : s.loadsBefore a = false) (hk : s.lockedParts a = false) (hb : s.behind a = false)
  (hc : a.rels = [] ∨ s.coveredHead a = true)
include hr hl hk hb hc

theorem exec_storeDrain_remote (hq : a.parts.any Part.isRemote = true) (hw : s.awaits a = false) :
    exec (.storeDrain uid crew) s = .next (if a.staysHead then s.sendHead a else (s.sendHead a).popStore uid crew id) := by
  have hgo : (!a.rels.isEmpty && !s.coveredHead a) = false := by obtain h | h := hc <;> simp [h]
  show Host.Outcome.next (s.drainHead uid crew) = _
  simp only [State.drainHead, hp, hh, ha, hr, hl, hk, hb, hgo, hq, hw, Option.bind_some, Bool.or_self, Bool.false_eq_true, if_false, if_true]

/-- At this device only an atomic whose result another aims at draws, to tell which of the two lands last (02 R34). -/
theorem exec_storeDrain_local (hq : a.parts.any Part.isRemote = false) :
    let d := s.draw (if a.atomic && s.contended a then 2 else 1)
    exec (.storeDrain uid crew) s = .next ((d.2.performHead a (d.1 == 1)).afterHead a uid crew id) := by
  have hgo : (!a.rels.isEmpty && !s.coveredHead a) = false := by obtain h | h := hc <;> simp [h]
  show Host.Outcome.next (s.drainHead uid crew) = _
  simp only [State.drainHead, hp, hh, ha, hr, hl, hk, hb, hgo, hq, Option.bind_some, Bool.or_self, Bool.false_eq_true, if_false, beq_iff_eq]
  rfl

theorem exec_storeDrain_store (hq : a.parts.any Part.isRemote = false) {bs : List Byte} (ho : a.op = .store bs) :
    exec (.storeDrain uid crew) s = .next ((s.performStore a).afterHead a uid crew id) := by
  rw [exec_storeDrain_local hp hh ha hr hl hk hb hc hq]
  simp [Access.atomic, ho, State.performHead, State.draw_one]

theorem exec_storeDrain_seal (hq : a.parts.any Part.isRemote = false) {dst : Nat} (ho : a.op = .seal dst) :
    exec (.storeDrain uid crew) s = .next ((s.performSeal a).afterHead a uid crew id) := by
  rw [exec_storeDrain_local hp hh ha hr hl hk hb hc hq]
  simp [Access.atomic, ho, State.performHead, State.draw_one]

theorem exec_storeDrain_atomic (hq : a.parts.any Part.isRemote = false) (hm : a.atomic = true) :
    let s1 : State := if s.contended a then { s with draws := s.draws + 1 } else s
    exec (.storeDrain uid crew) s = .next ((s1.performHead a (s.contended a && Config.choice s.draws % 2 == 1)).afterHead a uid crew id) := by
  rw [exec_storeDrain_local hp hh ha hr hl hk hb hc hq]
  cases ht : s.contended a <;> simp [hm, State.draw_one, State.draw_two]

end Head

/-! ### Answers from other devices (10 R221 to R223, 16 R362) -/

section Reply

variable {s : State} {id : Nat}

theorem exec_remoteReply_gone (h : id < 2 ^ 65) (ha : s.access? (id / 16) = none) (rep : Reply) :
    exec (.remoteReply id rep) s = .next (s.linkEvent 0x0318) := by
  show execRemoteReply id rep s = _
  rw [execRemoteReply, if_neg (by omega), if_neg (by omega), if_neg (by omega), ha]

variable {a : Access} (ha : s.access? (id / 16) = some a) {d : Nat} (hd : a.stage = .sent d)
include ha hd

theorem exec_hold (h : id < 2 ^ 64) : exec (.hold id) s = .next (s.setAccess { a with stage := .sent (s.clock.toNat + a.limit) }) := by
  show execHold id s = _
  simp only [execHold, if_neg (Nat.not_le.2 h), ha, hd]

variable (h : id < 2 ^ 65) {q : Part} (hq : a.parts[id % 16]? = some q)
include h hq

theorem exec_remoteReply_late (hlate : d < s.clock.toNat) (rep : Reply) : exec (.remoteReply id rep) s = .next (s.linkEvent 0x0318) := by
  show execRemoteReply id rep s = _
  rw [execRemoteReply, if_neg (by omega), if_neg (by omega), if_neg (by omega), ha]
  simp [hd, hq, hlate]

variable (hr : q.isRemote = true) (hin : s.clock.toNat ≤ d)
include hr hin

theorem exec_remoteReply_nack (cls : Nat) : exec (.remoteReply id (.nack cls)) s = .next (s.refuseSent a 0x0F cls) := by
  show execRemoteReply id _ s = _
  rw [execRemoteReply, if_neg (by omega), if_neg (by omega), if_neg (by omega), ha]
  simp [hd, hq, hr, Nat.not_lt.2 hin]

theorem exec_remoteReply_data (bs : List Byte) (st : Nat) (rels : List Release) :
    let b := { a with parts := a.parts.set (id % 16) { q with place := .got bs st }, heard := a.heard ++ rels }
    exec (.remoteReply id (.data bs st rels)) s = .next (if b.parts.any Part.isRemote then s.setAccess b else s.answered b) := by
  show execRemoteReply id _ s = _
  rw [execRemoteReply, if_neg (by omega), if_neg (by omega), if_neg (by omega), ha]
  simp only [hd, hq, hr, Nat.not_lt.2 hin, Bool.not_true, Bool.false_or, decide_false, Bool.false_eq_true, if_false]

end Reply

/-! ### Announcements (01 R12) -/

theorem exec_heraldDelivery {s : State} {die : Nat} {h : Announcement} {hs : List Announcement} (hh : (s.die die).herald = h :: hs) :
    exec (.heraldDelivery die) s =
      .next (if h.at_ + 16 = s.clock.toNat then s.onDie die fun d => { d with herald := d.herald.drop 1 } else s) := by
  show execHeraldDelivery die s = _
  rw [execHeraldDelivery, hh]
  rfl

/-! ### Counters at their home (15 R334, R338, R339) -/

theorem State.cntStep_add (s : State) (die k : Nat) (n : DWord) (src : Issuer) (ord : Ord) (sc : Scope) (v : View) (counts : List CntEdge) :
    let c := (s.die die).counter k
    s.cntStep die k (.add n) src ord sc v counts = (c, (s.setCounter die k
      { c with value := c.value + n, rels := c.rels ++ (if ordReleases ord then [⟨sc, src, v⟩] else []), edges := c.edges ++ counts }).counterWritten die k) := by
  cases h : ordReleases ord <;> simp [State.cntStep, h]

/-- The state once a request has been taken up. -/
def State.takeReq (s : State) (id : Nat) : State := { s with cntReqs := s.cntReqs.filter fun q => q.id != id }

theorem State.counterHome_cntReqs (s : State) (rs : List CntReq) (ctx num : Nat) :
    ({ s with cntReqs := rs } : State).counterHome ctx num = s.counterHome ctx num := rfl
theorem State.access?_cntReqs_draws (s : State) (rs : List CntReq) (n : Nat) :
    ({ s with cntReqs := rs, draws := n } : State).access? = s.access? := rfl

section Counter

variable {s : State} {id : Nat} {r : CntReq}

/-- Nothing holds the request back: no earlier one of its issuer on its counter, no earlier fault of its access, nothing that a release still covers. -/
structure State.CntFree (s : State) (r : CntReq) : Prop where
  before : s.cntBefore r = false
  access : ∀ b, r.access.bind s.access? = some b → b.aside = false ∧ (b.rels = [] ∨ s.coveredHead b = true)

theorem State.CntFree.goes (h : s.CntFree r) :
    (s.cntBefore r || (r.access.bind s.access?).any fun a => a.aside || (!a.rels.isEmpty && !s.coveredHead a)) = false := by
  rw [h.before, Bool.false_or]
  cases ha : r.access.bind s.access? with
  | none => rfl
  | some b =>
    obtain ⟨hs, hc | hc⟩ := h.access b ha <;> simp [hs, hc]

variable (hr : s.cntReqs.find? (fun q => q.id == id) = some r) (hf : s.CntFree r)
include hr hf

theorem exec_counterOperation_home {home k : Nat} (hk : s.counterHome r.ctx r.num = some (home, k)) (hc : ∀ die idx gen uid, r.op ≠ .cancel die idx gen uid)
    (hm : ∀ t, r.op ≠ .arm t) :
    let step := (s.takeReq id).cntStep home k r.op r.src r.ord r.scope (((r.access.bind s.access?).map (·.view)).getD r.view)
      (if r.access.isNone && r.ord == .relaxed then ⟨r.src, r.view⟩ :: r.more else [])
    exec (.counterOperation id) s = .next (step.2.cntAnswer r step.1) := by
  show execCounterOperation id s = _
  cases ho : r.op with
  | cancel die idx gen uid => exact absurd ho (hc die idx gen uid)
  | arm t => exact absurd ho (hm t)
  | _ => simp only [execCounterOperation, hr, hf.goes, ho, State.counterHome_cntReqs, hk, Bool.false_eq_true, if_false]; rfl

theorem exec_counterOperation_homeless (hk : s.counterHome r.ctx r.num = none) {n : DWord} (ho : r.op = .add n ∨ r.op = .set n) :
    let t := ({ s.takeReq id with draws := s.draws + 1 } : State).linkEvent 0x031C
    let x := Config.freeWord s.draws
    (r.access.bind s.access? = none → exec (.counterOperation id) s = .next t) ∧
    ∀ b, r.access.bind s.access? = some b → exec (.counterOperation id) s = .next (t.finish b [x.setWidth 32, (x >>> 32).setWidth 32] 0) := by
  intro t x
  have hgo := hf.goes
  show (_ → execCounterOperation id s = _) ∧ ∀ _, _ → execCounterOperation id s = _
  refine ⟨fun ha => ?_, fun b ha => ?_⟩
  all_goals
    rw [ha] at hgo
    obtain ho | ho := ho
    all_goals
      simp only [execCounterOperation, hr, hgo, ho, State.counterHome_cntReqs, hk, State.drawWord, State.access?_cntReqs_draws, ha, Bool.false_eq_true, if_false]
      rfl

end Counter

section Cntwait

variable {s : State} {uid gid : Nat} {p : Party} {g : Gang} (hp : s.party? uid = some p) (hg : p.gang? gid = some g)
  {num since limit dest : Nat} {th : DWord} {acq : Bool} {sc : Scope} {raw : Raw}
  (hw : g.wait = some (.counter num th since limit dest acq sc raw)) (hl : limit ≠ 0) (ht : since + limit ≤ s.clock.toNat)
include hp hg hw hl ht

theorem exec_cntwaitTimeout_home {home k : Nat} (hk : s.counterHome p.ctx num = some (home, k)) :
    exec (.cntwaitTimeout uid gid) s = .next (s.endCntwait p g ((s.die home).counter k) dest none raw) := by
  show execCntwaitTimeout uid gid s = _
  simp only [execCntwaitTimeout, hp, hg, hw, hk, hl, Nat.not_lt.2 ht, or_self, if_false]

theorem exec_cntwaitTimeout_homeless (hk : s.counterHome p.ctx num = none) :
    exec (.cntwaitTimeout uid gid) s =
      .next (({ s with draws := s.draws + 1 } : State).endCntwait p g { value := Config.freeWord s.draws } dest none raw) := by
  show execCntwaitTimeout uid gid s = _
  simp only [execCntwaitTimeout, hp, hg, hw, hk, hl, Nat.not_lt.2 ht, or_self, if_false, State.drawWord]

end Cntwait

end Sys2Proof.Machine

namespace Sys2Proof

open Sys2Proof.Machine

/-- Settles O47: for each occurrence, its arm under the conditions of its clause. -/
theorem accessEvents : Obligations.AccessEvents := by
  intro s id uid crew gid die a p g r hp hg
  refine ⟨fun ha hf hs => ⟨fun ws st hd => ⟨exec_resultReturn_done ha hf hs hd, ?_⟩, fun t n hr ho => ?_⟩, fun hh ha hr hl hk hb hc => ⟨fun hq => ?_, ?_⟩,
    exec_storeDrain_ended hp, exec_walk, fun d q h ha hd hq hr => ⟨fun hin => ⟨?_, ?_⟩, exec_remoteReply_late ha hd h hq⟩, fun rep h ha => exec_remoteReply_gone h ha rep,
    fun d ha hd => exec_remoteTimeout ha hd, fun d h ha hd => exec_hold ha hd h, fun h hs => exec_heraldDelivery,
    fun hr hb hf => ⟨fun home k hk => ⟨?_, ?_, ?_⟩, fun n hk ho => ?_⟩, ?_, ?_⟩
  · exact State.access?_id ha ▸ s.access?_finish a ws st
  · rw [exec_resultReturn_load ha hf hs hr ho]
    exact ⟨fun hc => if_neg (by simp [hc]), fun hc => ⟨_, if_pos hc⟩⟩
  · refine ⟨fun bs ho => exec_storeDrain_store hp hh ha hr hl hk hb hc hq ho, fun dst ho => exec_storeDrain_seal hp hh ha hr hl hk hb hc hq ho,
      s.contended a && Config.choice s.draws % 2 == 1, fun hn => by simp [hn], fun op t b ho => ?_, fun t b k ho => ?_⟩
    · rw [exec_storeDrain_atomic hp hh ha hr hl hk hb hc hq (by simp [Access.atomic, ho]), State.performHead, ho]
      rfl
    · rw [exec_storeDrain_atomic hp hh ha hr hl hk hb hc hq (by simp [Access.atomic, ho]), State.performHead, ho]
      rfl
  · exact exec_storeDrain_remote hp hh ha hr hl hk hb hc
  · exact exec_remoteReply_nack ha hd h hq hr hin
  · exact exec_remoteReply_data ha hd h hq hr hin
  · intro ho
    rw [exec_counterOperation_home hr ⟨hb, hf⟩ hk (by simp [ho]) (by simp [ho]), ho]
    rfl
  · intro n ho
    rw [exec_counterOperation_home hr ⟨hb, hf⟩ hk (by simp [ho]) (by simp [ho]), ho, State.cntStep_add]
    rfl
  · intro n ho
    rw [exec_counterOperation_home hr ⟨hb, hf⟩ hk (by simp [ho]) (by simp [ho]), ho]
    rfl
  · obtain ⟨hnone, hsome⟩ := exec_counterOperation_homeless hr ⟨hb, hf⟩ hk ho
    cases ha : r.access.bind s.access? with
    | none => exact ⟨0, 0, hnone ha⟩
    | some b => exact ⟨_, _, hsome b ha⟩
  · exact fun num th since limit dest acq sc raw home k hw hl ht hk => exec_cntwaitTimeout_home hp hg hw hl ht hk
  · exact fun num th since limit dest acq sc raw hw hl ht hk => ⟨_, exec_cntwaitTimeout_homeless hp hg hw hl ht hk⟩

end Sys2Proof

namespace Sys2Proof.Machine

/-! ### What a register form leaves alone (03 R51 to R53, 04 R72, R73)

The steps of a register form, one after the other, each change no more than the form may. A relation between two states says so; it holds of every
step and goes on from step to step. -/

/-- The fibres on which a register form takes effect, or the gang of a gang-wide one. -/
def formFibres (i : Instr) (x : Turn) : List Fibre := if i.gangWide then x.ms else takeEffect i.head x.ms

/-- The place of a register in the lane files is one of those that D names on the fibres of the form. -/
def DstKey (i : Instr) (x : Turn) (key : Nat) : Prop :=
  ∃ f ∈ formFibres i x, ∃ n k j b, (Opnd.v n, k) ∈ dstRegs i ∧ j < k ∧ f.blocks[(n + j) / 64]? = some b ∧
    key = regKey (x.p.laneOf f.crew) b ((n + j) % 64)

section Keeps

variable (i : Instr) (d : Opnd) (x : Turn)

/-- What a form may change of a fibre, its `$pc` aside. -/
structure Fibre.Keeps (f f' : Fibre) : Prop where
  rest : { f' with pred := f.pred, exec := f.exec, srs := f.srs } = f
  exec : d ≠ .special .exec → f'.exec = f.exec
  pred : f.fid ∉ (formFibres i x).map (·.fid) ∨ (changesPred i = false ∧ d ≠ .special .pred) → f'.pred = f.pred
  srs  : f.fid ∉ (formFibres i x).map (·.fid) ∨ changesSrs i = false → f'.srs = f.srs

/-- What a form and the issue of its word may change of a gang. -/
structure Gang.Keeps (g g' : Gang) : Prop where
  gid    : g'.gid = g.gid
  level  : g'.level = g.level
  emu    : g'.emu = g.emu
  fibres : g'.fibres = g.fibres
  number : g'.number = g.number
  slog   : g'.slog = g.slog
  sepc   : g'.sepc = g.sepc
  ssave  : g'.ssave = g.ssave
  sregs  : ∀ j, (∀ n k, (Opnd.s n, k) ∈ dstRegs i → j < n ∨ n + k ≤ j) → g'.sregs.getD j 0 = g.sregs.getD j 0
  other  : d ≠ .special .prio → g.gid ≠ x.gid → g' = g

/-- What a form may change of its party, the `$pc` of its fibres aside. -/
structure Party.Keeps (p q : Party) : Prop where
  same   : SameParty p q
  route  : d ≠ .special .route → q.route = p.route
  crews  : d ≠ .special .gstat → d ≠ .special .prio → q.crews = p.crews
  gangs  : ∃ γ : Gang → Gang, q.gangs = p.gangs.map γ ∧ ∀ g, Gang.Keeps i d x g (γ g)
  fibres : ∃ φ : Fibre → Fibre, q.fibres = p.fibres.map φ ∧ ∀ f, Fibre.Keeps i d x f (φ f)

/-- What a form may change of the state, the `$pc` of its fibres aside. -/
structure State.Keeps (s t : State) : Prop where
  device  : SameDevice s t
  flight  : t.flight = s.flight
  tables  : d ≠ .special .emu → t.tables = s.tables
  regs    : swf 0 s.regs = true → swf 0 t.regs = true ∧ ∀ key, ¬DstKey i x key → sget 0 t.regs key = sget 0 s.regs key
  parties : ∃ π : Party → Party, t.parties = s.parties.map π ∧ ∀ p, Party.Keeps i d x p (π p) ∧ (p.uid ≠ x.uid → π p = p)

end Keeps

section Steps

variable {i : Instr} {d : Opnd} {x : Turn}

/-! ### Nothing changed, and one change after another -/

theorem Fibre.Keeps.refl (f : Fibre) : Fibre.Keeps i d x f f := ⟨rfl, fun _ => rfl, fun _ => rfl, fun _ => rfl⟩
theorem Gang.Keeps.refl (g : Gang) : Gang.Keeps i d x g g := ⟨rfl, rfl, rfl, rfl, rfl, rfl, rfl, rfl, fun _ _ => rfl, fun _ _ => rfl⟩
theorem Party.Keeps.refl (p : Party) : Party.Keeps i d x p p :=
  ⟨rfl, fun _ => rfl, fun _ _ => rfl, ⟨id, by simp, .refl⟩, ⟨id, by simp, .refl⟩⟩

theorem Fibre.Keeps.fid {f f' : Fibre} (h : Fibre.Keeps i d x f f') : f'.fid = f.fid := (congrArg Fibre.fid h.rest :)
theorem Fibre.Keeps.pc {f f' : Fibre} (h : Fibre.Keeps i d x f f') : f'.pc = f.pc := (congrArg Fibre.pc h.rest :)
theorem Party.Keeps.uid {p q : Party} (h : Party.Keeps i d x p q) : q.uid = p.uid := (congrArg Party.uid h.same :)
theorem Party.Keeps.core {p q : Party} (h : Party.Keeps i d x p q) : q.core = p.core := (congrArg Party.core h.same :)

theorem Fibre.Keeps.trans {f g h : Fibre} (a : Fibre.Keeps i d x f g) (b : Fibre.Keeps i d x g h) : Fibre.Keeps i d x f h where
  rest := by rw [← a.rest, ← b.rest]
  exec hd := (b.exec hd).trans (a.exec hd)
  pred hd := (b.pred (a.fid ▸ hd)).trans (a.pred hd)
  srs hd := (b.srs (a.fid ▸ hd)).trans (a.srs hd)

theorem Gang.Keeps.trans {f g h : Gang} (a : Gang.Keeps i d x f g) (b : Gang.Keeps i d x g h) : Gang.Keeps i d x f h where
  gid := b.gid.trans a.gid
  level := b.level.trans a.level
  emu := b.emu.trans a.emu
  fibres := b.fibres.trans a.fibres
  number := b.number.trans a.number
  slog := b.slog.trans a.slog
  sepc := b.sepc.trans a.sepc
  ssave := b.ssave.trans a.ssave
  sregs j hj := (b.sregs j hj).trans (a.sregs j hj)
  other hd hg := (b.other hd (a.gid ▸ hg)).trans (a.other hd hg)

theorem SameParty.trans {p q r : Party} (a : SameParty p q) (b : SameParty q r) : SameParty p r := by
  unfold SameParty at *
  rw [← a, ← b]

theorem Party.Keeps.trans {p q r : Party} (a : Party.Keeps i d x p q) (b : Party.Keeps i d x q r) : Party.Keeps i d x p r where
  same := a.same.trans b.same
  route hd := (b.route hd).trans (a.route hd)
  crews h1 h2 := (b.crews h1 h2).trans (a.crews h1 h2)
  gangs := by
    obtain ⟨γ, hq, hγ⟩ := a.gangs
    obtain ⟨δ, hr, hδ⟩ := b.gangs
    exact ⟨δ ∘ γ, by rw [hr, hq, List.map_map], fun g => (hγ g).trans (hδ _)⟩
  fibres := by
    obtain ⟨φ, hq, hφ⟩ := a.fibres
    obtain ⟨ψ, hr, hψ⟩ := b.fibres
    exact ⟨ψ ∘ φ, by rw [hr, hq, List.map_map], fun f => (hφ f).trans (hψ _)⟩

theorem SameDevice.trans {s t u : State} (a : SameDevice s t) (b : SameDevice t u) : SameDevice s u where
  clock := b.clock.trans a.clock
  mem := b.mem.trans a.mem
  poison := b.poison.trans a.poison
  failing := b.failing.trans a.failing
  gens := b.gens.trans a.gens
  dies := b.dies.trans a.dies
  sys := b.sys.trans a.sys
  live := b.live.trans a.live
  requests := b.requests.trans a.requests
  cntReqs := b.cntReqs.trans a.cntReqs
  ports := b.ports.trans a.ports
  steward := b.steward.trans a.steward
  sent := b.sent.trans a.sent
  stamp := b.stamp.trans a.stamp
  past := b.past.trans a.past
  fences := b.fences.trans a.fences
  cores c := (b.cores c).trans (a.cores c)

/-- What `SameDevice` does not speak of may change. -/
theorem SameDevice.update (s : State) (ps : List Party) (rs : Sparse Word) (ts : Tables) (is : List LaneRef) (n : Nat) :
    SameDevice s { s with parties := ps, regs := rs, tables := ts, issued := is, changes := n } :=
  ⟨rfl, rfl, rfl, rfl, rfl, rfl, rfl, rfl, rfl, rfl, rfl, rfl, rfl, rfl, rfl, rfl, fun _ => rfl⟩

theorem State.Keeps.refl (s : State) : State.Keeps i d x s s :=
  ⟨.update s s.parties s.regs s.tables s.issued s.changes, rfl, fun _ => rfl, fun h => ⟨h, fun _ _ => rfl⟩, ⟨id, by simp, fun p => ⟨.refl p, fun _ => rfl⟩⟩⟩

theorem State.Keeps.trans {s t u : State} (a : State.Keeps i d x s t) (b : State.Keeps i d x t u) : State.Keeps i d x s u where
  device := a.device.trans b.device
  flight := b.flight.trans a.flight
  tables hd := (b.tables hd).trans (a.tables hd)
  regs h := by
    obtain ⟨ht, hst⟩ := a.regs h
    obtain ⟨hu, htu⟩ := b.regs ht
    exact ⟨hu, fun key hk => (htu key hk).trans (hst key hk)⟩
  parties := by
    obtain ⟨π, ht, hπ⟩ := a.parties
    obtain ⟨ρ, hu, hρ⟩ := b.parties
    refine ⟨ρ ∘ π, by rw [hu, ht, List.map_map], fun p => ⟨(hπ p).1.trans (hρ _).1, fun hp => ?_⟩⟩
    have hp' := (hπ p).2 hp
    rw [Function.comp, hp']
    exact (hρ p).2 hp

/-! ### Look-ups in what is left -/

theorem find?_map_of_key {α : Type} (key : α → Nat) {f : α → α} (hf : ∀ a, key (f a) = key a) (n : Nat) (l : List α) :
    (l.map f).find? (fun a => key a == n) = (l.find? fun a => key a == n).map f := by
  rw [List.find?_map, show (fun a => key a == n) ∘ f = fun a => key a == n from funext fun a => by simp [hf]]

theorem State.Keeps.party? {s t : State} (h : State.Keeps i d x s t) :
    ∃ π : Party → Party, (∀ u, t.party? u = (s.party? u).map π) ∧ ∀ p, Party.Keeps i d x p (π p) ∧ (p.uid ≠ x.uid → π p = p) := by
  obtain ⟨π, ht, hπ⟩ := h.parties
  exact ⟨π, fun u => by rw [State.party?, ht]; exact find?_map_of_key Party.uid (fun p => (hπ p).1.uid) u s.parties, hπ⟩

theorem Party.Keeps.fibre? {p q : Party} (h : Party.Keeps i d x p q) :
    ∃ φ : Fibre → Fibre, (∀ n, q.fibre? n = (p.fibre? n).map φ) ∧ ∀ f, Fibre.Keeps i d x f (φ f) := by
  obtain ⟨φ, hq, hφ⟩ := h.fibres
  exact ⟨φ, fun n => by rw [Party.fibre?, hq]; exact find?_map_of_key Fibre.fid (fun f => (hφ f).fid) n p.fibres, hφ⟩

theorem Party.Keeps.gang? {p q : Party} (h : Party.Keeps i d x p q) :
    ∃ γ : Gang → Gang, (∀ n, q.gang? n = (p.gang? n).map γ) ∧ ∀ g, Gang.Keeps i d x g (γ g) := by
  obtain ⟨γ, hq, hγ⟩ := h.gangs
  exact ⟨γ, fun n => by rw [Party.gang?, hq]; exact find?_map_of_key Gang.gid (fun g => (hγ g).gid) n p.gangs, hγ⟩

theorem Party.Keeps.pcOf {p q : Party} (h : Party.Keeps i d x p q) {g k : Gang} (hg : Gang.Keeps i d x g k) : q.pcOf k = p.pcOf g := by
  obtain ⟨φ, hq, hφ⟩ := h.fibre?
  have hm : q.members k = (p.members g).map φ := by
    rw [Party.members, Party.members, hg.fibres, List.map_filterMap]
    exact List.filterMap_congr fun n _ => hq n
  rw [Party.pcOf, Party.pcOf, hm, List.head?_map, Option.map_map]
  exact congrArg (Option.getD · 0) (Option.map_congr fun f _ => (hφ f).pc)

/-- The party of the turn stands on its core. -/
def State.AtCore (s : State) (x : Turn) : Prop := ∀ p, s.party? x.uid = some p → p.core = x.p.core

theorem State.Keeps.atCore {s t : State} (h : State.Keeps i d x s t) (hs : s.AtCore x) : t.AtCore x := by
  obtain ⟨π, ht, hπ⟩ := h.party?
  intro q hq
  rw [ht] at hq
  obtain ⟨p, hp, rfl⟩ := Option.map_eq_some_iff.1 hq
  exact (hπ p).1.core.trans (hs p hp)

theorem State.keeps_foldl {α : Type} {f : State → α → State} {l : List α} (hf : ∀ a ∈ l, ∀ s : State, s.AtCore x → State.Keeps i d x s (f s a)) :
    ∀ s : State, s.AtCore x → State.Keeps i d x s (l.foldl f s) := by
  induction l with
  | nil => exact fun s _ => .refl s
  | cons a l ih =>
    intro s hs
    have h := hf a List.mem_cons_self s hs
    exact h.trans (ih (fun b hb => hf b (List.mem_cons_of_mem a hb)) _ (h.atCore hs))

/-! ### Changes of the party of the turn -/

theorem State.keeps_onParty (s : State) {f : Party → Party} (hf : ∀ p, Party.Keeps i d x p (f p)) : State.Keeps i d x s (s.onParty x.uid f) := by
  refine ⟨.update s _ s.regs s.tables s.issued s.changes, rfl, fun _ => rfl, fun h => ⟨h, fun _ _ => rfl⟩, ⟨fun p => if p.uid == x.uid then f p else p, rfl, fun p => ⟨?_, fun hp => ?_⟩⟩⟩
  · beta_reduce
    split
    exacts [hf p, .refl p]
  · simp [hp]

theorem Party.keeps_mapFibres (p : Party) {φ : Fibre → Fibre} (hφ : ∀ f, Fibre.Keeps i d x f (φ f)) : Party.Keeps i d x p { p with fibres := p.fibres.map φ } :=
  ⟨rfl, fun _ => rfl, fun _ _ => rfl, ⟨id, by simp, .refl⟩, ⟨φ, rfl, hφ⟩⟩

theorem Party.keeps_mapGangs (p : Party) {γ : Gang → Gang} (hγ : ∀ g, Gang.Keeps i d x g (γ g)) : Party.Keeps i d x p { p with gangs := p.gangs.map γ } :=
  ⟨rfl, fun _ => rfl, fun _ _ => rfl, ⟨γ, rfl, hγ⟩, ⟨id, by simp, .refl⟩⟩

theorem State.keeps_onFibre (s : State) {n : Nat} {φ : Fibre → Fibre} (hφ : ∀ f, f.fid = n → Fibre.Keeps i d x f (φ f)) :
    State.Keeps i d x s (s.onFibre x.uid n φ) :=
  s.keeps_onParty fun p => p.keeps_mapFibres fun f => by
    split
    case isTrue h => exact hφ f (by simpa using h)
    case isFalse => exact .refl f

theorem State.keeps_onGang (s : State) {γ : Gang → Gang} (hγ : ∀ g, g.gid = x.gid → Gang.Keeps i d x g (γ g)) :
    State.Keeps i d x s (s.onGang x.uid x.gid γ) :=
  s.keeps_onParty fun p => p.keeps_mapGangs fun g => by
    split
    case isTrue h => exact hγ g (by simpa using h)
    case isFalse => exact .refl g

/-! ### Issue -/

theorem Core.count_ne_default {k : Core} (h : k.pmcs.isEmpty = false) (add : Nat × Pmc → Nat × Pmc) : { k with pmcs := k.pmcs.map add } ≠ ({} : Core) := by
  intro hk
  have := congrArg Core.pmcs hk
  simp_all

/-- Counting changes performance counters alone. -/
theorem State.core_count (s : State) (c : CoreRef) (ev n ctx : Nat) (e : CoreRef) :
    { (s.count c ev n ctx).core e with pmcs := [] } = { s.core e with pmcs := [] } := by
  unfold State.count
  dsimp only
  split
  · rfl
  · rename_i h
    rw [State.setCore, State.core, sset, if_neg (Core.count_ne_default (by simpa using h) _)]
    by_cases he : coreKey e = coreKey c
    · simp only [he, sget_sput_self]
      rw [State.core, State.core, he]
    · simp only [sget_sput_ne _ _ _ he]
      rfl

theorem State.keeps_count (s : State) (c : CoreRef) (ev n ctx : Nat) : State.Keeps i d x s (s.count c ev n ctx) := by
  have hc := s.core_count c ev n ctx
  unfold State.count at *
  dsimp only at *
  split
  · exact .refl s
  · rename_i h
    rw [if_neg h] at hc
    exact ⟨⟨rfl, rfl, rfl, rfl, rfl, rfl, rfl, rfl, rfl, rfl, rfl, rfl, rfl, rfl, rfl, rfl, hc⟩, rfl, fun _ => rfl, fun h => ⟨h, fun _ _ => rfl⟩,
      ⟨id, by simp, fun p => ⟨.refl p, fun _ => rfl⟩⟩⟩

theorem State.keeps_countParty (s : State) (u ev n : Nat) : State.Keeps i d x s (s.countParty u ev n) := by
  unfold State.countParty
  split
  exacts [s.keeps_count .., .refl s]

theorem State.keeps_stampIssue (s : State) : State.Keeps i d x s (s.stampIssue x.uid x.gid) := by
  have htick : State.Keeps i d x s { s.tick with issued := s.laneIssued x.uid x.gid } :=
    ⟨.update s s.parties s.regs s.tables _ _, rfl, fun _ => rfl, fun h => ⟨h, fun _ _ => rfl⟩, ⟨id, by simp, fun p => ⟨.refl p, fun _ => rfl⟩⟩⟩
  refine htick.trans (State.keeps_onParty _ fun p => p.keeps_mapGangs fun g => ?_)
  split
  case isTrue h => exact ⟨rfl, rfl, rfl, rfl, rfl, rfl, rfl, rfl, fun _ _ => rfl, fun _ hg => absurd (by simpa using h) hg⟩
  case isFalse => exact .refl g

/-! ### Writing D -/

/-- The words stay within what D names. -/
def FitsDst (i : Instr) (d : Opnd) (ws : List Word) : Prop := ws = [] ∨ ∃ k, (d, k) ∈ dstRegs i ∧ ws.length ≤ k

theorem State.keeps_setReg (s : State) {l : LaneRef} {b r : Nat} (h : DstKey i x (regKey l b r)) (w : Word) : State.Keeps i d x s (s.setReg l b r w) :=
  ⟨.update s s.parties _ s.tables s.issued s.changes, rfl, fun _ => rfl,
    fun hs => ⟨swf_sset _ w hs, fun key hk => (State.regs_setReg hs l b r w key).trans (if_neg fun he => hk (by rwa [he]))⟩, ⟨id, by simp, fun p => ⟨.refl p, fun _ => rfl⟩⟩⟩

theorem State.keeps_setVregs {p : Party} (hp : p.core = x.p.core) {f : Fibre} (hf : f ∈ formFibres i x) {n k : Nat} (hd : (Opnd.v n, k) ∈ dstRegs i) :
    ∀ (ws : List Word) (j : Nat), j + ws.length ≤ k → ∀ s : State, State.Keeps i d x s (s.setVregs p f (n + j) ws)
  | [], _, _, s => .refl s
  | w :: ws, j, hj, s => by
    rw [List.length_cons] at hj
    refine State.Keeps.trans (t := s.setVreg p f (n + j) w) ?_ (State.keeps_setVregs hp hf hd ws (j + 1) (by omega) _)
    unfold State.setVreg
    split
    case h_1 b hb =>
      have hl : p.laneOf f.crew = x.p.laneOf f.crew := by rw [Party.laneOf, Party.laneOf, hp]
      exact s.keeps_setReg ⟨f, hf, n, k, j, b, hd, by omega, hb, by rw [hl]⟩ w
    case h_2 => exact .refl s

theorem Fibre.keeps_writeSpecial {r : SReg} {f : Fibre} (hf : f.fid ∈ (formFibres i x).map (·.fid)) (w : Word) :
    Fibre.Keeps i (.special r) x f (f.writeSpecial r w) := by
  cases r with
  | exec => exact ⟨rfl, fun h => absurd rfl h, fun _ => rfl, fun _ => rfl⟩
  | pred => exact ⟨rfl, fun _ => rfl, fun h => (h.elim (absurd hf) fun h => absurd rfl h.2), fun _ => rfl⟩
  | _ => exact .refl f

theorem State.keeps_writeFibre {s : State} (hs : s.AtCore x) {f : Fibre} (hf : f ∈ formFibres i x) {ws : List Word} (hw : FitsDst i d ws) :
    State.Keeps i d x s (s.writeFibre x.uid f d ws) := by
  cases d with
  | v n =>
    rw [State.writeFibre]
    split
    case h_1 p hp =>
      obtain rfl | ⟨k, hk, hl⟩ := hw
      · exact .refl s
      · exact State.keeps_setVregs (hs p hp) hf hk ws 0 (by omega) s
    case h_2 => exact .refl s
  | special r =>
    cases ws with
    | nil => exact .refl s
    | cons w ws => exact s.keeps_onFibre fun k hk => Fibre.keeps_writeSpecial (List.mem_map.2 ⟨f, hf, hk.symm⟩) w
  | _ => exact .refl s

theorem getD_setSregs : ∀ (ws l : List Word) (n j : Nat), j < n ∨ n + ws.length ≤ j → (setSregs l n ws).getD j 0 = l.getD j 0
  | [], _, _, _, _ => rfl
  | w :: ws, l, n, j, h => by
    rw [List.length_cons] at h
    rw [setSregs, getD_setSregs ws _ (n + 1) j (by omega), List.getD_eq_getElem?_getD, List.getElem?_set_ne (by omega), ← List.getD_eq_getElem?_getD]

theorem Gang.keeps_setSregs {n : Nat} {g : Gang} (hg : g.gid = x.gid) {ws : List Word} (hw : FitsDst i (.s n) ws) :
    Gang.Keeps i d x g { g with sregs := setSregs g.sregs n ws } := by
  refine ⟨rfl, rfl, rfl, rfl, rfl, rfl, rfl, rfl, fun j hj => ?_, fun _ h => absurd hg h⟩
  obtain rfl | ⟨k, hk, hl⟩ := hw
  · rfl
  · exact getD_setSregs ws g.sregs n j ((hj n k hk).imp_right (by omega))

theorem Party.keeps_writePrio (p : Party) (crew : Nat) (v : Word) : Party.Keeps i (.special .prio) x p (p.writePrio crew v) := by
  refine ⟨rfl, fun _ => rfl, fun _ h => absurd rfl h, ⟨_, rfl, fun g => ?_⟩, ⟨id, by simp [Party.writePrio], .refl⟩⟩
  split
  · exact ⟨rfl, rfl, rfl, rfl, rfl, rfl, rfl, rfl, fun _ _ => rfl, fun h => absurd rfl h⟩
  · exact .refl g

theorem Party.keeps_route (p : Party) (v : DWord) : Party.Keeps i (.special .route) x p { p with route := v } :=
  ⟨rfl, fun h => absurd rfl h, fun _ _ => rfl, ⟨id, by simp, .refl⟩, ⟨id, by simp, .refl⟩⟩

theorem State.keeps_writeEmu (s : State) (ctx : Nat) (v : Word) : State.Keeps i (.special .emu) x s (s.writeEmu ctx v) := by
  unfold State.writeEmu State.onCtx
  split
  · exact ⟨.update s s.parties s.regs _ s.issued s.changes, rfl, fun h => absurd rfl h, fun h => ⟨h, fun _ _ => rfl⟩, ⟨id, by simp [State.setCtx], fun p => ⟨.refl p, fun _ => rfl⟩⟩⟩
  · exact .refl s

theorem State.keeps_writeShared (s : State) (crew : Nat) (r : SReg) (k : Nat) (v : Word) :
    State.Keeps i (.special r) x s (s.writeShared x.uid crew r k v) := by
  unfold State.writeShared
  split
  · exact s.keeps_onParty fun p => ⟨rfl, fun _ => rfl, fun h => absurd rfl h, ⟨id, by simp [Party.onCrew], .refl⟩, ⟨id, by simp [Party.onCrew], .refl⟩⟩
  · exact s.keeps_onParty fun p => p.keeps_writePrio crew v
  · split
    exacts [s.keeps_writeEmu .., .refl s]
  · exact s.keeps_onParty fun p => p.keeps_route _
  · exact s.keeps_onParty fun p => p.keeps_route _
  · exact .refl s

theorem State.keeps_writeSpecialGang (s : State) (r : SReg) (ws : List Word) : State.Keeps i (.special r) x s (s.writeSpecialGang x.uid x.gid r ws) := by
  unfold State.writeSpecialGang
  split
  · exact .refl s
  · dsimp only
    split
    · refine s.keeps_onParty fun p => p.keeps_mapFibres fun f => ?_
      split
      · exact ⟨rfl, fun h => absurd rfl h, fun _ => rfl, fun _ => rfl⟩
      · exact .refl f
    · exact (s.keeps_writeShared _ _ _ _).trans (State.keeps_writeShared _ _ _ _ _)

theorem State.keeps_writeGang (s : State) {ws : List Word} (hw : FitsDst i d ws) : State.Keeps i d x s (s.writeGang x.uid x.gid d ws) := by
  cases d with
  | s n => exact s.keeps_onGang fun g hg => Gang.keeps_setSregs hg hw
  | special r =>
    rw [State.writeGang]
    split
    exacts [.refl s, s.keeps_writeSpecialGang r ws]
  | _ => exact .refl s

/-! ### The effect of a form -/

/-- An effect that is no more than a form's: its words fit D, and it changes `$pred` and `$srs` only where the form does. -/
structure Effect.Fits (i : Instr) (d : Opnd) (e : Effect) : Prop where
  ws   : FitsDst i d e.ws
  pred : changesPred i = false → ∀ p, e.pred.apply p = p
  srs  : changesSrs i = false → e.srs = none

theorem Fibre.keeps_fx {e : Effect} (he : e.Fits i d) {f : Fibre} (hf : f.fid ∈ (formFibres i x).map (·.fid)) : Fibre.Keeps i d x f (f.fx e) :=
  ⟨rfl, fun _ => rfl, fun h => h.elim (absurd hf) fun h => he.pred h.1 _, fun h => h.elim (absurd hf) fun h => by simp [Fibre.fx, he.srs h]⟩

theorem State.keeps_applyFibre {s : State} (hs : s.AtCore x) {f : Fibre} (hf : f ∈ formFibres i x) {e : Effect} (he : e.Fits i d) :
    State.Keeps i d x s (s.applyFibre x.uid f d e) := by
  have hfx (s : State) : State.Keeps i d x s (s.onFibre x.uid f.fid (·.fx e)) :=
    s.keeps_onFibre fun k hk => Fibre.keeps_fx he (List.mem_map.2 ⟨f, hf, hk.symm⟩)
  unfold State.applyFibre
  split
  · exact (State.keeps_writeFibre hs hf he.ws).trans (hfx _)
  · exact (hfx s).trans (State.keeps_writeFibre ((hfx s).atCore hs) hf he.ws)

theorem State.keeps_applyGang {s : State} (hs : s.AtCore x) {f0 : Fibre} {e : Effect} (he : e.Fits i d) (hg : i.gangWide = true) :
    State.Keeps i d x s (s.applyGang x.uid x.gid x.ms f0 d e) := by
  refine (State.keeps_foldl (fun f hf s _ => s.keeps_onFibre fun k hk => ?_) s hs).trans (State.keeps_writeGang _ he.ws)
  have hk : k.fid ∈ (formFibres i x).map (·.fid) := List.mem_map.2 ⟨f, by rwa [formFibres, if_pos hg], hk.symm⟩
  exact ⟨rfl, fun _ => rfl, fun h => h.elim (absurd hk) fun h => he.pred h.1 _, fun h => h.elim (absurd hk) fun h => by simp [he.srs h]⟩

theorem State.keeps_applyForm {s : State} (hs : s.AtCore x) {fx : Fibre → Effect} (he : ∀ f, (fx f).Fits i d) :
    State.Keeps i d x s (s.applyForm i x d fx) := by
  unfold State.applyForm
  split
  case isTrue hg =>
    split
    exacts [State.keeps_applyGang hs (he _) hg, .refl s]
  case isFalse hg =>
    exact State.keeps_foldl (fun f hf s hs => State.keeps_applyFibre hs (by rwa [formFibres, if_neg hg]) (he f)) s hs

/-! ### The fixed-latency forms, one by one -/

theorem length_dstWords (t : Ty) (v : Int) : (dstWords t v).length = if t.is64 then 2 else 1 := by
  unfold dstWords
  dsimp only
  split
  · rfl
  · split <;> rfl

theorem length_codeWords (t : Ty) (c : Nat) : (codeWords t c).length = if t.is64 then 2 else 1 := by
  unfold codeWords
  split <;> rfl

theorem FitsDst.of_useK {k : Kind} {pair : Bool} (hu : useK .d d k pair ∈ i.uses) {ws : List Word}
    (hl : ws.length ≤ if k == .quad then 4 else if pair then 2 else 1) : FitsDst i d ws :=
  .inr ⟨_, List.mem_map.2 ⟨useK .d d k pair, List.mem_filter.2 ⟨hu, rfl⟩, rfl⟩, hl⟩

/-- A form with D of type `t` writes no more words than that type has registers. -/
theorem FitsDst.of_useD {t : Ty} (hu : useD d t ∈ i.uses) {ws : List Word} (hl : ws.length ≤ if t.is64 then 2 else 1) : FitsDst i d ws :=
  .inr ⟨_, List.mem_map.2 ⟨useD d t, List.mem_filter.2 ⟨hu, rfl⟩, rfl⟩, hl⟩

theorem FitsDst.dstWords {t : Ty} (hu : useD d t ∈ i.uses) (v : Int) : FitsDst i d (dstWords t v) := .of_useD hu (length_dstWords t v).le
theorem FitsDst.codeWords {t : Ty} (hu : useD d t ∈ i.uses) (c : Nat) : FitsDst i d (codeWords t c) := .of_useD hu (length_codeWords t c).le
theorem FitsDst.of_length_one {t : Ty} (hu : useD d t ∈ i.uses) {ws : List Word} (hl : ws.length = 1) : FitsDst i d ws :=
  .of_useD hu (by rw [hl]; split <;> decide)
theorem FitsDst.wide (hu : useD d .i64 ∈ i.uses) (t : Ty) (v : Int) : FitsDst i d (Machine.dstWords (wideTy t) v) :=
  .of_useD hu (by rw [length_dstWords, wideTy]; split <;> exact le_rfl)

theorem CvtMod.dotOk_width {m : CvtMod} {four : Bool} (h : m.dotOk four = true) : m.dt.is64 = false := by
  obtain ⟨-, h⟩ := Bool.and_eq_true_iff.1 h
  split at h <;> simp_all [Ty.is64, Ty.width]

theorem CvtMod.unpackOk_width {m : CvtMod} (h : m.unpackOk = true) : m.dt.is64 = false := by
  simp only [CvtMod.unpackOk, Bool.and_eq_true] at h
  obtain ⟨⟨⟨h, -⟩, -⟩, -⟩ := h
  split at h <;> simp_all [Ty.is64, Ty.width]

theorem length_dotWords (n : Nat) {m : CvtMod} (hm : m.dt.is64 = false) (a b c : Nat) : (dotWords n m a b c).length = 1 := by
  unfold dotWords
  split
  · simp [length_dstWords, hm]
  · simp [length_codeWords, hm]

theorem Instr.modifiersOk_of_wf {i : Instr} (h : i.wf = true) : i.modifiersOk = true := (Bool.and_eq_true_iff.1 h).2

/-- A form that writes D alone. -/
theorem Effect.Fits.words {ws : List Word} (hw : FitsDst i d ws) : Effect.Fits i d { ws := ws } := ⟨hw, fun _ _ => rfl, fun _ => rfl⟩

/-- A form that changes `$pred`, and with it perhaps D. -/
theorem Effect.Fits.moves {ws : List Word} (hw : FitsDst i d ws) (hp : changesPred i = true) {pred : PredFx} {late : Bool} :
    Effect.Fits i d { ws := ws, pred := pred, late := late } := ⟨hw, fun h => absurd (h.symm.trans hp) (by decide), fun _ => rfl⟩

/-- Where neither carry comes in or goes out, `$pred` stays. -/
theorem PredFx.apply_carry {cin cout : Bool} (h : (cin || cout) = false) (v : Bool) (p : BitVec 16) :
    ({ pops := b2n cin, push := if cout then some v else none } : PredFx).apply p = p := by
  obtain ⟨rfl, rfl⟩ := Bool.or_eq_false_iff.1 h
  rfl

/-- `cmp` and `fcmp` name D where they put their result there. -/
theorem CmpDst.mem_uses {p : CmpDst} (hs : p.set = true) (us vs : List Use) :
    useD p.d .n32 ∈ (if p.set then [useD p.d .n32] else []) ++ us ++ vs := by simp [hs]

theorem Effect.Fits.compare {p : CmpDst} (hu : p.set = true → useD p.d .n32 ∈ i.uses) (hp : changesPred i = !p.set) (f : Fibre) (v : Bool) :
    Effect.Fits i p.d (placeCompare f p v) := by
  unfold placeCompare
  split
  case isTrue h => exact .words (.dstWords (hu h) _)
  case isFalse h =>
    have hp : changesPred i = true := by simpa [h] using hp
    split <;> exact .moves (.inl rfl) hp

theorem Effect.Fits.cvt {m : CvtMod} (hu : useD d m.dt ∈ i.uses) (hs : changesSrs i = (m.rnd == .sr)) (code : Nat) (srs : Word) :
    Effect.Fits i d (cvtEffect m code srs) := by
  unfold cvtEffect
  dsimp only
  split
  · split <;> exact .words (.dstWords hu _)
  · split
    · exact .words (.codeWords hu _)
    · exact ⟨.codeWords hu _, fun _ _ => rfl, fun h => by simp [← hs, h]⟩

/-! ### The fixed-latency forms, one by one -/

/-- A form that issues has an effect on each fibre that is no more than its own, and goes on past its word. -/
def FormRuns (s : State) (i : Instr) (d : Opnd) (x : Turn) : Prop :=
  ∃ fx : Fibre → Effect, exec i s = .next ((s.applyForm i x d fx).advance x.uid x.gid i.raw) ∧ ∀ f, (fx f).Fits i d

theorem FormRuns.of_regForm {s : State} (c : s.Clear i x) {fx : Turn → Fibre → Effect} (he : exec i s = s.regForm i d fx) (hf : ∀ f, (fx x f).Fits i d) :
    FormRuns s i d x := ⟨fx x, he.trans (State.regForm_clear c d fx), hf⟩

/-- The same of a form that the Outrider has too. -/
theorem FormRuns.of_shared {s : State} (c : s.Clear i x) {fx : Turn → Fibre → Effect} {o : Out} (he : exec i s = if s.inOutrider then o else s.regForm i d fx)
    (hf : ∀ f, (fx x f).Fits i d) : FormRuns s i d x :=
  .of_regForm c (he.trans (if_neg (by simp [State.inOutrider_of_turn c.turn]))) hf

theorem exec_regDst {s : State} (hw : i.wf = true) (hd : regDst i = some d) (c : s.Clear i x) : FormRuns s i d x := by
  have hm := Instr.modifiersOk_of_wf hw
  cases i with
  | iadd | isub =>
    cases hd
    exact .of_shared c rfl fun f => ⟨.dstWords (.head _) _, fun h p => PredFx.apply_carry h _ p, fun _ => rfl⟩
  | imul h t d a b sat wide =>
    cases hd
    cases wide
    · exact .of_shared c rfl fun f => .words (.dstWords (.head _) _)
    · exact .of_shared c rfl fun f => .words (.wide (.head _) t _)
  | imad h t d a b e sat wide =>
    cases hd
    cases wide
    · exact .of_regForm c rfl fun f => .words (.dstWords (.head _) _)
    · exact .of_regForm c rfl fun f => .words (.wide (.head _) t _)
  | mov | and | or | shl | shr =>
    cases hd
    exact .of_shared c rfl fun f => .words (.dstWords (.head _) _)
  | imulhi | imin | imax | iabs | ineg | isad | sel | xor | not | sar | rotl | popc | clz | brev | bfe | bfi | lea | lop3 =>
    cases hd
    exact .of_regForm c rfl fun f => .words (.dstWords (.head _) _)
  | fadd | fsub | fmul | ffma | fmin | fmax | faddF64 | fsubF64 | fmulF64 | ffmaF64 | fminF64 | fmaxF64 | scan | fold =>
    cases hd
    exact .of_regForm c rfl fun f => .words (.codeWords (.head _) _)
  | cmp h t a b cond p | fcmp h t a b cond p =>
    cases hd
    exact .of_regForm c rfl fun f => .compare (fun hs => CmpDst.mem_uses hs _ _) rfl f _
  | ppush | pmov | pset | plop =>
    cases hd
    exact .of_regForm c rfl fun f => .moves (.inl rfl) rfl
  | ppop h n set d =>
    cases hd
    cases set
    · exact .of_regForm c rfl fun f => .moves (.inl rfl) rfl
    · exact .of_regForm c rfl fun f => .moves (ws := dstWords .n32 _) (.dstWords (.head _) _) rfl
  | seed =>
    cases hd
    exact .of_regForm c rfl fun f => ⟨.inl rfl, fun _ _ => rfl, fun h => nomatch h⟩
  | cvt h d a m =>
    cases hd
    exact .of_regForm c rfl fun f => .cvt (.head _) rfl _ f.srs
  | dot2 h d a b e m | dot4 h d a b e m =>
    cases hd
    have hw := CvtMod.dotOk_width (Bool.and_eq_true_iff.1 hm).2
    exact .of_regForm c rfl fun f => .words (.of_length_one (.head _) (length_dotWords _ hw _ _ _))
  | padd =>
    cases hd
    exact .of_regForm c rfl fun f => .words (.of_length_one (.head _) rfl)
  | pmax h d a b m | pmin h d a b m =>
    cases hd
    exact .of_regForm c rfl fun f => ⟨.of_length_one (.head _) rfl, fun h p => by
      have h : (m.elem == 1) = false := h
      simp [h, PredFx.apply, popPreds], fun _ => rfl⟩
  | pack h d a b m =>
    cases hd
    exact .of_regForm c rfl fun f => ⟨.of_length_one (.head _) rfl, fun _ _ => rfl, fun h => if_neg (by
      have h : (m.rnd == .sr) = false := h
      simp [h])⟩
  | unpack h d a m =>
    cases hd
    have hw := CvtMod.unpackOk_width (Bool.and_eq_true_iff.1 hm).2
    exact .of_regForm c rfl fun f => .words (.of_length_one (.head _) (by
      split
      · rw [length_dstWords, hw]; rfl
      · rfl))
  | vote h d a mode psrc k neg =>
    cases hd
    exact .of_regForm c rfl fun f => .words (.of_useK (.head _) (by cases mode <;> exact le_rfl))
  | shfl =>
    cases hd
    exact .of_regForm c rfl fun f => .moves (.dstWords (.head _) _) rfl
  | bcast h t d a last =>
    cases hd
    exact .of_regForm c rfl fun f => .words (.of_useK (.head _) (length_dstWords t _).le)
  | _ => cases hd

/-! ### Past the word -/

/-- A party whose gang `gid` goes on past a word. -/
def Party.goOn (p : Party) (gid : Nat) (r : Raw) : Party := (p.gang? gid).elim p fun g => p.setPc g (nextPc (p.pcOf g) r)

theorem State.advance_eq (s : State) (uid gid : Nat) (r : Raw) :
    s.advance uid gid r = ((s.stampIssue uid gid).countParty uid 0x02 1).onParty uid (·.goOn gid r) := by
  refine congrArg (State.onParty _ uid) (funext fun p => ?_)
  rw [Party.goOn]
  cases p.gang? gid <;> rfl

theorem Party.goOn_uid (p : Party) (gid : Nat) (r : Raw) : (p.goOn gid r).uid = p.uid := by
  unfold Party.goOn
  cases p.gang? gid <;> rfl

/-- Wherever its `$pc` stands then. -/
theorem Fibre.Keeps.restPc {f f' : Fibre} (h : Fibre.Keeps i d x f f') : { f' with pc := f.pc, pred := f.pred, exec := f.exec, srs := f.srs } = f :=
  congrArg (fun k : Fibre => { k with pc := f.pc }) h.rest

theorem Party.Keeps.gang?_ne {p q : Party} (h : Party.Keeps i d x p q) (hd : d ≠ .special .prio) {gid : Nat} (hg : gid ≠ x.gid) :
    q.gang? gid = p.gang? gid := by
  obtain ⟨γ, hq, hγ⟩ := h.gang?
  rw [hq]
  cases hp : p.gang? gid with
  | none => rfl
  | some g =>
    have hid : g.gid = gid := by simpa using List.find?_some hp
    rw [Option.map_some, (hγ g).other hd (hid ▸ hg)]

/-- A fibre of the party, once gang `k` stands past its word. -/
theorem Party.Keeps.fibre?_setPc {p q : Party} (h : Party.Keeps i d x p q) {fid : Nat} {f : Fibre} (hf : p.fibre? fid = some f) (k : Gang) (a : Word) :
    ∃ f', (q.setPc k a).fibre? fid = some (if fid ∈ k.fibres then { f' with pc := a } else f') ∧ Fibre.Keeps i d x f f' := by
  obtain ⟨φ, hq, hφ⟩ := h.fibre?
  exact ⟨φ f, by rw [Party.fibre?_setPc, hq, hf]; rfl, hφ f⟩

section Frame

variable {s t : State} (hk : State.Keeps i d x s t)
include hk

/-- The other parties. -/
theorem State.Keeps.party?_ne {uid : Nat} (h : uid ≠ x.uid) (r : Raw) : (t.onParty x.uid (·.goOn x.gid r)).party? uid = s.party? uid := by
  obtain ⟨π, ht, hπ⟩ := hk.party?
  rw [State.party?_onParty _ _ _ _ fun p => p.goOn_uid _ _, ht, Option.map_map]
  cases hp : s.party? uid with
  | none => rfl
  | some p =>
    have hu : p.uid = uid := by simpa using List.find?_some hp
    simp [h, (hπ p).2 (hu ▸ h)]

/-- The party of the turn: its gang stands past the word. -/
theorem State.Keeps.party?_self (hp : s.party? x.uid = some x.p) (hg : x.p.gang? x.gid = some x.g) (hpc : x.pc = x.p.pcOf x.g) (r : Raw) :
    ∃ q k, (t.onParty x.uid (·.goOn x.gid r)).party? x.uid = some (q.setPc k (nextPc x.pc r)) ∧ Party.Keeps i d x x.p q ∧
      q.gang? x.gid = some k ∧ Gang.Keeps i d x x.g k := by
  obtain ⟨π, ht, hπ⟩ := hk.party?
  obtain ⟨hq, -⟩ := hπ x.p
  obtain ⟨γ, hgang, hγ⟩ := hq.gang?
  have hgq : (π x.p).gang? x.gid = some (γ x.g) := by rw [hgang, hg, Option.map_some]
  have htq : t.party? x.uid = some (π x.p) := by rw [ht, hp, Option.map_some]
  refine ⟨π x.p, γ x.g, ?_, hq, hgq, hγ x.g⟩
  rw [State.party?_onParty_self htq fun p => p.goOn_uid _ _, Party.goOn, hgq, hpc, ← hq.pcOf (hγ x.g)]
  rfl

end Frame

end Steps

end Sys2Proof.Machine

namespace Sys2Proof

open Sys2Proof.Machine

/-- Settles O14: a form's effect changes no more than the form may, one step after the other, and then its gang goes on past the word. -/
theorem registerFormFrame : Obligations.RegisterFormFrame := by
  intro s t i d x hw hd c hr he fs
  obtain ⟨-, hp, hg, -, hpc⟩ := State.turnOf_some c.turn
  obtain ⟨fx, hrun, hfit⟩ := exec_regDst hw hd c
  have hs : s.AtCore x := fun p hp' => by rw [Option.some.inj (hp'.symm.trans hp)]
  have hk : State.Keeps i d x s (((s.applyForm i x d fx).stampIssue x.uid x.gid).countParty x.uid 0x02 1) :=
    ((State.keeps_applyForm hs hfit).trans (State.keeps_stampIssue _)).trans (State.keeps_countParty _ _ _ _)
  obtain rfl : _ = t := Host.Outcome.next.inj (hrun.symm.trans he)
  rw [State.advance_eq]
  refine ⟨hk.device.trans (.update _ _ _ _ _ _), fun loc => by rw [State.byteAt, State.onParty_mem, hk.device.mem]; rfl, hk.flight, hk.tables,
    fun key h => (hk.regs hr).2 key ?_, fun uid hu => hk.party?_ne hu _, ?_⟩
  · rintro ⟨f, hf, n, k, j, b, hm, hj, hb, rfl⟩
    exact h f hf n k j b hm hj hb rfl
  · obtain ⟨q, k, hq, hkp, hqg, hkg⟩ := hk.party?_self hp hg hpc i.raw
    refine ⟨_, hq, hkp.same, hkp.route, hkp.crews, fun hne gid hgid => hkp.gang?_ne hne hgid,
      ⟨k, hqg, hkg.level, hkg.emu, hkg.fibres, hkg.number, hkg.slog, hkg.sepc, hkg.ssave, hkg.sregs⟩, fun fid f hf => ?_⟩
    obtain ⟨f', hf', hkf⟩ := hkp.fibre?_setPc hf k (nextPc x.pc i.raw)
    refine ⟨_, hf', ?_⟩
    obtain rfl : f.fid = fid := by simpa using List.find?_some hf
    rw [hkg.fibres]
    split
    · exact ⟨hkf.restPc, rfl, hkf.exec, hkf.pred, hkf.srs⟩
    · exact ⟨hkf.restPc, hkf.pc, hkf.exec, hkf.pred, hkf.srs⟩

end Sys2Proof

namespace Sys2Proof.Machine

/-! ### Values built bit by bit (04 R84, R86, R87) -/

theorem foldl_add_eq_sum (g : Nat → Nat) (w : Nat) : (List.range w).foldl (fun r k => r + g k) 0 = ∑ k ∈ Finset.range w, g k := by
  induction w with
  | zero => rfl
  | succ w ih => rw [List.range_succ, List.foldl_append, List.foldl_cons, List.foldl_nil, ih, Finset.sum_range_succ]

theorem sum_bits_lt (c : Nat → Bool) (w : Nat) : ∑ k ∈ Finset.range w, b2n (c k) * 2 ^ k < 2 ^ w := by
  induction w with
  | zero => exact Nat.one_pos
  | succ w ih =>
    have hc : b2n (c w) * 2 ^ w ≤ 1 * 2 ^ w := Nat.mul_le_mul_right _ (Nat.le_of_lt_succ (b2n_lt _))
    rw [Finset.sum_range_succ, Nat.pow_succ]
    omega

/-- A bit added above leaves the lower ones. -/
theorem bit_sum_bits (c : Nat → Bool) {w k : Nat} (h : k < w) : bit (∑ j ∈ Finset.range w, b2n (c j) * 2 ^ j) k = c k := by
  induction w with
  | zero => exact absurd h (Nat.not_lt_zero k)
  | succ w ih =>
    rw [Finset.sum_range_succ]
    obtain hk | rfl := Nat.lt_succ_iff_lt_or_eq.1 h
    · rw [bit_below hk, ih hk]
    · exact bit_at (sum_bits_lt c k)

theorem bit_foldl_bits (c : Nat → Bool) {w k : Nat} (h : k < w) :
    bit ((List.range w).foldl (fun r k => r + b2n (c k) * 2 ^ k) 0) k = c k := by
  rw [foldl_add_eq_sum, bit_sum_bits c h]

theorem bit_bfiVal (a v pos len : Nat) {w k : Nat} (h : k < w) :
    bit (bfiVal w a v pos len) k = if pos ≤ k ∧ k < pos + len then bit v (k - pos) else bit a k := by
  rw [bfiVal, bit_foldl_bits (fun j => if pos ≤ j ∧ j < pos + len then bit v (j - pos) else bit a j) h]

/-- The reversed number, summed from the other end. -/
theorem bit_brevVal (u : Nat) {w k : Nat} (h : k < w) : bit (brevVal w u) k = bit u (w - 1 - k) := by
  have hrev : brevVal w u = ∑ j ∈ Finset.range w, b2n (bit u (w - 1 - j)) * 2 ^ j := by
    rw [brevVal, foldl_add_eq_sum, ← Finset.sum_range_reflect]
    refine Finset.sum_congr rfl fun j hj => ?_
    rw [Nat.sub_sub_self (Nat.le_sub_one_of_lt (Finset.mem_range.1 hj))]
  rw [hrev, bit_sum_bits _ h]

theorem lt_two_pow_of_bit_false {u w : Nat} (h : u < 2 ^ (w + 1)) (hb : bit u w = false) : u < 2 ^ w := by
  have hdiv : u / 2 ^ w < 2 := Nat.div_lt_of_lt_mul (by rwa [← Nat.pow_succ])
  have hmod : u / 2 ^ w % 2 ≠ 1 := by simpa [bit] using hb
  rw [Nat.mod_eq_of_lt hdiv] at hmod
  exact (Nat.div_eq_zero_iff_lt (Nat.two_pow_pos w)).1 (Nat.lt_one_iff.1 (Nat.lt_of_le_of_ne (Nat.le_of_lt_succ hdiv) hmod))

/-- The leading zeros stop at the highest one of a number of `w` bits. -/
theorem clzVal_spec {u w : Nat} (h : u < 2 ^ w) : u < 2 ^ (w - clzVal u w) ∧ (clzVal u w < w → bit u (w - 1 - clzVal u w) = true) := by
  induction w with
  | zero => exact ⟨h, fun h0 => absurd h0 (Nat.not_lt_zero _)⟩
  | succ w ih =>
    rw [clzVal]
    split
    case isTrue hb => exact ⟨h, fun _ => hb⟩
    case isFalse hb =>
      obtain ⟨hlt, hone⟩ := ih (lt_two_pow_of_bit_false h (by simpa using hb))
      rw [show w + 1 - (1 + clzVal u w) = w - clzVal u w by omega, show w + 1 - 1 - (1 + clzVal u w) = w - 1 - clzVal u w by omega]
      exact ⟨hlt, fun hc => hone (by omega)⟩

/-! ### The predicate shift register (03 R53, 04 R76, R91) -/

theorem getLsbD_pushPred_zero (p : BitVec 16) (v : Bool) : (pushPred p v).getLsbD 0 = v := by cases v <;> simp [pushPred]

theorem getLsbD_pushPred_succ (p : BitVec 16) (v : Bool) {k : Nat} (h : k < 15) : (pushPred p v).getLsbD (k + 1) = p.getLsbD k := by
  have hk : k + 1 < 16 := by omega
  cases v <;> simp [pushPred, hk, BitVec.getLsbD_eq_getElem (show k < 16 by omega)]

theorem getLsbD_popPred (p : BitVec 16) (k : Nat) : (popPred p).getLsbD k = p.getLsbD (k + 1) := by simp [popPred, Nat.add_comm]

theorem getLsbD_setEntry (p : BitVec 16) (v : Bool) {k : Nat} (h : k < 16) (j : Nat) :
    (setEntry p k v).getLsbD j = if j = k then v else p.getLsbD j := by
  have hone : (1#16 <<< k).getLsbD j = decide (j = k) := by
    rw [← BitVec.twoPow_eq, BitVec.getLsbD_twoPow]
    simp [h, eq_comm]
  cases v
  · rw [setEntry, if_neg Bool.false_ne_true, BitVec.getLsbD_and, BitVec.getLsbD_not, hone]
    by_cases hj : j < 16
    · by_cases hk : j = k <;> simp [hj, hk]
    · simp [hj, BitVec.getLsbD_of_ge p j (Nat.le_of_not_lt hj)]
  · rw [setEntry, if_pos rfl, BitVec.getLsbD_or, hone]
    by_cases hk : j = k <;> simp [hk]

end Sys2Proof.Machine

namespace Sys2Proof

open Sys2Proof.Machine

/-- Settles O7: the three values that the model sums bit by bit, the count by induction on the width, and the three moves of `$pred`. -/
theorem bitValues : Obligations.BitValues :=
  ⟨fun _ _ _ _ _ _ h => bit_foldl_bits _ h, fun _ u _ h => bit_brevVal u h, fun _ a v pos len _ h => bit_bfiVal a v pos len h, fun _ _ h => clzVal_spec h,
    fun p v k j => ⟨getLsbD_pushPred_zero p v, getLsbD_pushPred_succ p v, getLsbD_popPred p k, fun h => getLsbD_setEntry p v h j⟩⟩

end Sys2Proof

namespace Sys2Proof.Machine

/-! ### Words written to consecutive registers (03 R57, 04 R72) -/

/-- One place of the lane files holds one register of one block. -/
theorem regKey_inj {l : LaneRef} {b c r q : Nat} (hr : r < 64) (hq : q < 64) (h : regKey l b r = regKey l c q) : b = c ∧ r = q := by
  unfold regKey at h
  omega

theorem State.setVreg_of_block {s : State} {p : Party} {f : Fibre} {n b : Nat} (hb : f.blocks[n / 64]? = some b) (w : Word) :
    s.setVreg p f n w = s.setReg (p.laneOf f.crew) b (n % 64) w := by rw [State.setVreg, hb]

theorem State.vreg_of_block {s : State} {p : Party} {f : Fibre} {n b : Nat} (hb : f.blocks[n / 64]? = some b) :
    s.vreg p f n = s.regAt (p.laneOf f.crew) b (n % 64) := by rw [State.vreg, hb]

theorem Fibre.block_of_lt {f : Fibre} {n : Nat} (h : n < 64 * f.blocks.length) : ∃ b, f.blocks[n / 64]? = some b :=
  ⟨_, List.getElem?_eq_getElem (Nat.div_lt_of_lt_mul h)⟩

section Vregs

variable {p : Party} {f : Fibre}

theorem State.swf_setVreg {s : State} (hs : swf 0 s.regs = true) (n : Nat) (w : Word) : swf 0 (s.setVreg p f n w).regs = true := by
  unfold State.setVreg
  split
  exacts [swf_sset _ w hs, hs]

/-- The blocks of a window differ, so that two of its registers lie at two places. -/
theorem State.vreg_setVreg {s : State} (hs : swf 0 s.regs = true) (hf : f.blocks.Nodup) {n m : Nat} (hn : n < 64 * f.blocks.length)
    (hm : m < 64 * f.blocks.length) (w : Word) : (s.setVreg p f n w).vreg p f m = if m = n then w else s.vreg p f m := by
  obtain ⟨b, hb⟩ := Fibre.block_of_lt hn
  obtain ⟨c, hc⟩ := Fibre.block_of_lt hm
  have hplace : regKey (p.laneOf f.crew) c (m % 64) = regKey (p.laneOf f.crew) b (n % 64) ↔ m = n := by
    refine ⟨fun h => ?_, fun h => ?_⟩
    · obtain ⟨rfl, hr⟩ := regKey_inj (Nat.mod_lt _ (by decide)) (Nat.mod_lt _ (by decide)) h
      have hq : m / 64 = n / 64 := (List.getElem?_inj (Nat.div_lt_of_lt_mul hm) hf).1 (hc.trans hb.symm)
      omega
    · subst h
      rw [Option.some.inj (hb.symm.trans hc)]
  rw [State.setVreg_of_block hb, State.vreg_of_block hc, State.vreg_of_block hc, State.regAt, State.regs_setReg hs]
  simp only [hplace]
  rfl

theorem State.vreg_setVregs (hf : f.blocks.Nodup) {m : Nat} (hm : m < 64 * f.blocks.length) :
    ∀ (ws : List Word) (n : Nat) (s : State), swf 0 s.regs = true → n + ws.length ≤ 64 * f.blocks.length →
      (s.setVregs p f n ws).vreg p f m = if n ≤ m ∧ m < n + ws.length then ws.getD (m - n) 0 else s.vreg p f m
  | [], n, s, _, _ => (if_neg (by simp)).symm
  | w :: ws, n, s, hs, hn => by
    rw [List.length_cons] at hn ⊢
    rw [State.setVregs, State.vreg_setVregs hf hm ws (n + 1) _ (State.swf_setVreg hs n w) (by omega), State.vreg_setVreg hs hf (by omega) hm]
    obtain hlt | rfl | hgt := Nat.lt_trichotomy m n
    · rw [if_neg (by omega), if_neg (by omega), if_neg (by omega)]
    · rw [if_neg (by omega), if_pos rfl, if_pos (by omega), Nat.sub_self]; rfl
    · have hiff : n + 1 ≤ m ∧ m < n + 1 + ws.length ↔ n ≤ m ∧ m < n + (ws.length + 1) := by omega
      rw [if_neg (Nat.ne_of_gt hgt), show m - n = m - (n + 1) + 1 by omega, List.getD_cons_succ]
      simp only [hiff]

end Vregs

theorem length_setSregs : ∀ (ws l : List Word) (n : Nat), (setSregs l n ws).length = l.length
  | [], _, _ => rfl
  | w :: ws, l, n => by rw [setSregs, length_setSregs ws, List.length_set]

/-- What was written reads back; `getD_setSregs` says the rest. -/
theorem getD_setSregs_written : ∀ (ws l : List Word) (n j : Nat), n + ws.length ≤ l.length → j < ws.length → (setSregs l n ws).getD (n + j) 0 = ws.getD j 0
  | [], _, _, _, _, hj => absurd hj (Nat.not_lt_zero _)
  | w :: ws, l, n, 0, hl, _ => by
    rw [List.length_cons] at hl
    rw [setSregs, getD_setSregs ws _ (n + 1) (n + 0) (by omega)]
    simp [List.getD_eq_getElem?_getD, show n < l.length by omega]
  | w :: ws, l, n, j + 1, hl, hj => by
    rw [List.length_cons] at hl hj
    rw [setSregs, ← Nat.add_assoc, Nat.add_right_comm, getD_setSregs_written ws (l.set n w) (n + 1) j (by rw [List.length_set]; omega) (by omega)]
    rfl

end Sys2Proof.Machine

namespace Sys2Proof

open Sys2Proof.Machine

/-- Settles O13: by induction on the words, register after register. -/
theorem resultsReadBack : Obligations.ResultsReadBack := by
  refine ⟨fun s uid n p f ws hs hp hf hn j hj => ?_, fun l ws n hl => ⟨length_setSregs ws l n, fun j => ?_⟩⟩
  · rw [State.writeFibre, hp]
    dsimp only
    rw [State.vreg_setVregs hf (by omega) ws n s hs hn, if_pos (by omega), Nat.add_sub_cancel_left]
  · split
    case isTrue h =>
      obtain ⟨i, rfl⟩ := Nat.exists_eq_add_of_le h.1
      rw [getD_setSregs_written ws l n i hl (by omega), Nat.add_sub_cancel_left]
    case isFalse h => exact getD_setSregs ws l n j (by omega)

end Sys2Proof

namespace Sys2Proof.Machine

/-! ### What an outstanding form leaves alone (02 R34, 04 R80) -/

/-- A result of the turn whose value is known and that stands among the results in flight. -/
def Turn.IsOwed (x : Turn) (a : Access) : Prop :=
  a.uid = x.uid ∧ a.gid = x.gid ∧ a.pc = x.pc ∧ ∃ ws, a.op = .value ws ∧ a.stage = .done ws 0

/-- All that comes to a state is results of the turn, one for each entry of `fids`, and the names they take. -/
def State.OwesTo (x : Turn) (s : State) (fids : List (Option Nat)) (t : State) : Prop :=
  ∃ n as, t = { s with nextId := n, flight := s.flight ++ as } ∧ as.map (·.fid) = fids ∧ ∀ a ∈ as, x.IsOwed a

section Owed

variable {i : Instr} {x : Turn}

theorem State.owesTo_nil (s : State) (n : Nat) : State.OwesTo x s [] { s with nextId := n } :=
  ⟨n, [], by rw [List.append_nil], rfl, fun _ h => nomatch h⟩

theorem State.OwesTo.trans {s t u : State} {k l : List (Option Nat)} (h : State.OwesTo x s k t) (h' : State.OwesTo x t l u) : State.OwesTo x s (k ++ l) u := by
  obtain ⟨n, as, rfl, rfl, ha⟩ := h
  obtain ⟨m, bs, rfl, rfl, hb⟩ := h'
  exact ⟨m, as ++ bs, by rw [List.append_assoc], List.map_append, fun a h => (List.mem_append.1 h).elim (ha a) (hb a)⟩

theorem State.owesTo_owe (s : State) (insn : Nat) (fid : Option Nat) (dest : List DestReg) (ws : List Word) :
    State.OwesTo x s [fid] (s.owe x i insn fid dest ws) :=
  ⟨s.nextId + 1, [_], rfl, rfl, fun _ h => List.mem_singleton.1 h ▸ ⟨rfl, rfl, rfl, ws, rfl, rfl⟩⟩

theorem State.owesTo_foldl (insn : Nat) (dest : Fibre → List DestReg) (ws : Fibre → List Word) (l : List Fibre) :
    ∀ s : State, State.OwesTo x s (l.map fun f => some f.fid) (l.foldl (fun s f => s.owe x i insn (some f.fid) (dest f) (ws f)) s) := by
  induction l with
  | nil => exact fun s => s.owesTo_nil s.nextId
  | cons f l ih => exact fun s => (s.owesTo_owe insn (some f.fid) (dest f) (ws f)).trans (ih _)

/-- To whom a form owes results: to each fibre it takes effect on, to the gang, or to each fibre its bit of a gang-wide `$exec`. -/
def owedFids (i : Instr) (x : Turn) (d : Opnd) : List (Option Nat) :=
  if i.gangWide then
    if d = .special .exec then (supplier x.ms).elim [] (fun _ => x.ms.map fun f => some f.fid) else (supplier x.ms).toList.map fun _ => none
  else (takeEffect i.head x.ms).map fun f => some f.fid

theorem State.owesTo_oweAll (s : State) (d : Opnd) (ws : Fibre → List Word) : State.OwesTo x s (owedFids i x d) (s.oweAll i x d ws) := by
  have hfresh : State.OwesTo x s [] s.fresh.2 := s.owesTo_nil (s.nextId + 1)
  unfold State.oweAll owedFids
  dsimp only
  split
  case isFalse => exact hfresh.trans (State.owesTo_foldl _ _ _ _ _)
  case isTrue =>
    cases supplier x.ms with
    | none => simpa using hfresh
    | some f0 =>
      by_cases hd : d = .special .exec
      · simp only [hd]
        exact hfresh.trans (State.owesTo_foldl _ (fun _ => [.special .exec 0]) (fun f => [x.g.execBit ((ws f0).getD 0 0) f]) _ _)
      · simp only [hd, beq_iff_eq, if_false]
        exact hfresh.trans (State.owesTo_owe _ _ _ _ _)

end Owed

/-- A function of 05 R114 uses up draws beside what it owes. -/
theorem State.approxForm_clear {s : State} {i : Instr} {x : Turn} (c : s.Clear i x) (t : Ty) (d a : Opnd) (m : FMod) (op : XVal → Approx) :
    ∃ ws, s.approxForm i t d a m op = .next { (s.oweAll i x d ws).advance x.uid x.gid i.raw with draws := s.draws + 32 } :=
  ⟨_, s.issue_clear c _⟩

/-- The outstanding forms (04 R80, 05 R113, R114). -/
def owedForms (h : Head) (ty : Ty) (d a b : Opnd) (y : Src) (m : FMod) : List Instr :=
  [.idiv h ty d a y, .irem h ty d a y, .fdiv h ty d a y m, .frcp h ty d a m, .frsq h ty d a m, .fsqrt h ty d a m,
    .fexp2 h ty d a m, .flog2 h ty d a m, .fsin h ty d a m, .fcos h ty d a m,
    .fdivF64 h ty d a b m, .frcpF64 h ty d a m, .frsqF64 h ty d a m, .fsqrtF64 h ty d a m]

theorem exec_owedForm_eq {h : Head} {ty : Ty} {d a b : Opnd} {y : Src} {m : FMod} {i : Instr} (s : State)
    (hi : i ∈ owedForms h ty d a b y m) :
    i.head = h ∧ ((∃ ws, exec i s = s.oweForm i d ws) ∨ ∃ op, exec i s = s.approxForm i ty d a m op) := by
  simp only [owedForms, List.mem_cons, List.not_mem_nil, or_false] at hi
  obtain rfl | rfl | rfl | rfl | rfl | rfl | rfl | rfl | rfl | rfl | rfl | rfl | rfl | rfl := hi
  iterate 6 exact ⟨rfl, .inl ⟨_, rfl⟩⟩
  · exact ⟨rfl, .inr ⟨fun v => .near (xexp2 v), rfl⟩⟩
  · exact ⟨rfl, .inr ⟨fun v => .near (xlog2 v), rfl⟩⟩
  · exact ⟨rfl, .inr ⟨approxSin, rfl⟩⟩
  · exact ⟨rfl, .inr ⟨approxCos, rfl⟩⟩
  all_goals exact ⟨rfl, .inl ⟨_, rfl⟩⟩

/-- An outstanding form that issues owes its words, and its gang goes on. -/
theorem exec_owedForm {h : Head} {ty : Ty} {d a b : Opnd} {y : Src} {m : FMod} {i : Instr} {s : State} {x : Turn}
    (hi : i ∈ owedForms h ty d a b y m) (c : s.Clear i x) :
    i.head = h ∧ ∃ ws n, exec i s = .next { (s.oweAll i x d ws).advance x.uid x.gid i.raw with draws := n } := by
  obtain ⟨hh, ⟨ws, h⟩ | ⟨op, h⟩⟩ := exec_owedForm_eq s hi
  · exact ⟨hh, ws x, ((s.oweAll i x d (ws x)).advance x.uid x.gid i.raw).draws, h.trans (State.oweForm_clear c d ws)⟩
  · obtain ⟨ws, h'⟩ := State.approxForm_clear c ty d a m op
    exact ⟨hh, ws, s.draws + 32, h.trans h'⟩

/-! ### Past a word (06 R120) -/

section Advance

variable {s : State} {x : Turn}

/-- What an issue restarts of the gang that issued. -/
def Party.stamped (p : Party) (gid now : Nat) : Party :=
  p.onGang gid fun g => { g with ready := now, age := 0, wait := none, boundary := false, cls := ((p.crew? g.crew).map (·.prio)).getD 0 }

theorem Party.gang?_stamped_self {p : Party} {gid : Nat} {g : Gang} (hg : p.gang? gid = some g) (now : Nat) :
    (p.stamped gid now).gang? gid =
      some { g with ready := now, age := 0, wait := none, boundary := false, cls := ((p.crew? g.crew).map (·.prio)).getD 0 } :=
  Party.gang?_onGang_self hg fun _ => rfl

theorem Party.gang?_stamped_ne (p : Party) {gid n : Nat} (h : n ≠ gid) (now : Nat) : (p.stamped gid now).gang? n = p.gang? n := by
  rw [Party.stamped, Party.gang?_onGang]
  · simp [h]
  · exact fun _ => rfl

/-- A gang that goes on past a word changes of its party the Sieve's view of itself and the `$pc` of its fibres. -/
theorem State.party?_advance_self (hp : s.party? x.uid = some x.p) (hg : x.p.gang? x.gid = some x.g) (hpc : x.pc = x.p.pcOf x.g) (r : Raw) :
    (s.advance x.uid x.gid r).party? x.uid = some ((x.p.stamped x.gid s.clock.toNat).setPc x.g (nextPc x.pc r)) := by
  have hst : (s.stampIssue x.uid x.gid).party? x.uid = some (x.p.stamped x.gid s.clock.toNat) :=
    State.party?_onParty_self (s := { s.tick with issued := s.laneIssued x.uid x.gid }) hp fun _ => rfl
  rw [State.advance_eq, State.party?_onParty_self ((State.party?_countParty ..).trans hst) fun p => p.goOn_uid _ _, Party.goOn,
    Party.gang?_stamped_self hg, hpc]
  rfl

/-- Outside the party of the turn an issue changes performance counters and what the Sieve goes by. -/
theorem State.keeps_issue (s : State) : State.Keeps (.nop {} .l64) (.const 0) x s ((s.stampIssue x.uid x.gid).countParty x.uid 0x02 1) :=
  (State.keeps_stampIssue s).trans (State.keeps_countParty _ _ _ _)

theorem State.party?_advance_ne {uid : Nat} (h : uid ≠ x.uid) (r : Raw) : (s.advance x.uid x.gid r).party? uid = s.party? uid := by
  rw [State.advance_eq, s.keeps_issue.party?_ne h]

/-- Results in flight, names and draws are not of what `SameDevice` speaks of. -/
theorem SameDevice.owed (s : State) (fl : List Access) (k n : Nat) : SameDevice s { s with flight := fl, nextId := k, draws := n } :=
  ⟨rfl, rfl, rfl, rfl, rfl, rfl, rfl, rfl, rfl, rfl, rfl, rfl, rfl, rfl, rfl, rfl, fun _ => rfl⟩

theorem SameDevice.sameBytes {t : State} (h : SameDevice s t) : SameBytes s t := fun loc => by rw [State.byteAt, h.mem]; rfl

theorem State.sameDevice_advance (s : State) (x : Turn) (r : Raw) : SameDevice s (s.advance x.uid x.gid r) := by
  rw [State.advance_eq]
  exact s.keeps_issue.device.trans (.update _ _ _ _ _ _)

theorem State.flight_advance (s : State) (x : Turn) (r : Raw) : (s.advance x.uid x.gid r).flight = s.flight := by
  rw [State.advance_eq]
  exact s.keeps_issue (x := x).flight

theorem State.tables_advance (s : State) (x : Turn) (r : Raw) : (s.advance x.uid x.gid r).tables = s.tables := by
  rw [State.advance_eq]
  exact (s.keeps_issue (x := x)).tables (nomatch ·)

theorem State.regs_advance (s : State) (x : Turn) (r : Raw) : (s.advance x.uid x.gid r).regs = s.regs := by
  rw [State.advance_eq, State.onParty_regs, State.countParty_regs]
  rfl

end Advance

end Sys2Proof.Machine

namespace Sys2Proof

open Sys2Proof.Machine

/-- Settles O15: what the form owes joins the results in flight, and its gang goes on past the word. -/
theorem owedFormFrame : Obligations.OwedFormFrame := by
  intro s t h ty d a b y m i x hi c he fids
  obtain ⟨-, hp, hg, -, hpc⟩ := State.turnOf_some c.turn
  obtain ⟨rfl, ws, n, hrun⟩ := exec_owedForm hi c
  obtain rfl : _ = t := Host.Outcome.next.inj (hrun.symm.trans he)
  obtain ⟨k, as, hu, hfids, has⟩ := s.owesTo_oweAll (i := i) (x := x) d ws
  generalize s.oweAll i x d ws = u at hu ⊢
  have hpu : u.party? x.uid = some x.p := hu ▸ hp
  have hdev : SameDevice s { u.advance x.uid x.gid i.raw with draws := n } :=
    (hu ▸ SameDevice.owed s _ k s.draws).trans ((u.sameDevice_advance x i.raw).trans (.owed _ _ _ n))
  refine ⟨hdev, hdev.sameBytes, ?_, ?_, ⟨as, ?_, hfids, has⟩, fun uid h => ?_,
    ⟨_, State.party?_advance_self hpu hg hpc i.raw, rfl, rfl, rfl, fun gid h => ?_, ?_, fun fid f hf => ?_⟩⟩
  · exact (u.regs_advance x i.raw).trans (hu ▸ rfl)
  · exact (u.tables_advance x i.raw).trans (hu ▸ rfl)
  · exact (u.flight_advance x i.raw).trans (hu ▸ rfl)
  · exact (State.party?_advance_ne h i.raw).trans (hu ▸ rfl)
  · exact (Party.gang?_setPc ..).trans (x.p.gang?_stamped_ne h _)
  · exact ⟨_, (Party.gang?_setPc ..).trans (Party.gang?_stamped_self hg _), rfl, rfl, rfl, rfl⟩
  · refine ⟨_, (Party.fibre?_setPc ..).trans (congrArg _ hf), ?_⟩
    split
    exacts [⟨rfl, rfl⟩, ⟨rfl, rfl⟩]

end Sys2Proof

namespace Sys2Proof.Machine

/-! ### A form gives what its arm computes -/

section Forms

variable {s : State} {i : Instr} {d : Opnd}

theorem Gives.of_regForm {fx : Turn → Fibre → Effect} (he : exec i s = s.regForm i d fx) : Gives s i d fx :=
  fun _ c => he.trans (State.regForm_clear c d fx)

/-- A form that the Outrider has too: a gang's word is not Outrider code. -/
theorem Gives.of_shared {fx : Turn → Fibre → Effect} {o : Out} (he : exec i s = if s.inOutrider then o else s.regForm i d fx) : Gives s i d fx :=
  fun _ c => (he.trans (if_neg (by simp [State.inOutrider_of_turn c.turn]))).trans (State.regForm_clear c d fx)

theorem Owes.of_oweForm {ws : Turn → Fibre → List Word} (he : exec i s = s.oweForm i d ws) : Owes s i d ws :=
  fun _ c => he.trans (State.oweForm_clear c d ws)

end Forms

/-- Where a comparison puts its result (04 R90): to D as 0 or 1, as a push, or combined with entry 0. -/
theorem placeCompare_eq (f : Fibre) (p : CmpDst) (r : Bool) :
    placeCompare f p r = if p.set then ({ ws := [if r then 1 else 0] } : Effect)
      else if p.comb = 0 then { pred := { push := some r } }
      else if p.comb = 1 then { pred := { entry := some (0, f.predAt 0 && r) } }
      else { pred := { entry := some (0, f.predAt 0 || r) } } := by
  unfold placeCompare
  split
  · cases r <;> rfl
  · split <;> simp_all

end Sys2Proof.Machine

namespace Sys2Proof

open Sys2Proof.Machine

/-- Settles O1: each arm is, for a gang, the register form of the clause's effect. -/
theorem sumsAndDifferences : Obligations.SumsAndDifferences :=
  fun _ _ _ _ _ _ _ => ⟨.of_shared rfl, .of_shared rfl⟩

/-- Settles O2: each arm is the register form of the clause's effect, or owes the clause's words. -/
theorem productsAndQuotients : Obligations.ProductsAndQuotients :=
  fun _ _ _ _ _ _ _ _ _ _ => ⟨.of_shared rfl, .of_regForm rfl, .of_regForm rfl, .of_oweForm rfl, .of_oweForm rfl⟩

/-- Settles O3: each arm is, for a gang, the register form of the clause's effect. -/
theorem extremesAndMoves : Obligations.ExtremesAndMoves :=
  fun _ _ _ _ _ _ _ _ _ _ _ => ⟨.of_regForm rfl, .of_regForm rfl, .of_regForm rfl, .of_regForm rfl, .of_regForm rfl, .of_shared rfl, .of_regForm rfl⟩

/-- Settles O4: each arm is, for a gang, the register form of the clause's effect. -/
theorem logicForms : Obligations.LogicForms :=
  fun _ _ _ _ _ _ _ _ _ => ⟨.of_shared rfl, .of_shared rfl, .of_regForm rfl, .of_regForm rfl, .of_regForm rfl, .of_regForm rfl⟩

/-- Settles O5: each arm is, for a gang, the register form of the clause's effect. -/
theorem shiftForms : Obligations.ShiftForms :=
  fun _ _ _ _ _ _ _ => ⟨.of_shared rfl, .of_shared rfl, .of_regForm rfl, .of_regForm rfl⟩

/-- Settles O6: each arm is the register form of the clause's effect. -/
theorem bitFieldForms : Obligations.BitFieldForms :=
  fun _ _ _ _ _ _ _ => ⟨.of_regForm rfl, .of_regForm rfl, .of_regForm rfl, .of_regForm rfl, .of_regForm rfl⟩

/-- Settles O8: each arm is the register form of the clause's effect, the comparisons' after `placeCompare_eq`. -/
theorem predicateForms : Obligations.PredicateForms := by
  intro s h t d a y cond p i j k n neg set place
  have hplace : place = fun f r => placeCompare f p r := funext fun f => funext fun r => (placeCompare_eq f p r).symm
  rw [hplace]
  exact ⟨.of_regForm rfl, .of_regForm rfl, .of_regForm rfl, .of_regForm rfl, .of_regForm rfl, .of_regForm rfl, .of_regForm rfl⟩

/-- Settles O12: each arm is the register form of the clause's effect. -/
theorem crossFibreForms : Obligations.CrossFibreForms :=
  fun _ _ _ _ _ _ _ _ _ _ _ _ _ _ _ _ => ⟨.of_regForm rfl, .of_regForm rfl, .of_regForm rfl, .of_regForm rfl, .of_regForm rfl⟩

end Sys2Proof

namespace Sys2Proof.Machine

/-! ### Forms of the number formats (05) -/

section NumberForms

variable {s : State} {i : Instr} {x : Turn} {d a : Opnd}

/-- A function of 05 R114 owes each fibre the allowed value that the fibre's own draw picks (log 7). -/
theorem State.approxForm_picks (c : s.Clear i x) (t : Ty) (d a : Opnd) (m : FMod) (op : XVal → Approx) :
    ∃ pick : Fibre → Nat, s.approxForm i t d a m op = .next { (s.oweAll i x d fun f =>
        let r := (fmtOf t).choose (op (fopnd s x f t (.op a) m.aa m.na)) (pick f)
        codeWords t (if m.sat then satUnit (fmtOf t) r else r)).advance x.uid x.gid i.raw with draws := s.draws + 32 } :=
  ⟨fun f => Config.choice (s.draws + x.g.slotOf f.fid), s.issue_clear c _⟩

/-- `pmin` and `pmax` write both halves first; under DEC they then push dec(0) and dec(1) (05 R119). -/
theorem Gives.of_pminForm {isMin : Bool} {y : Src} {m : CvtMod} (he : exec i s = s.pminForm i isMin d a y m) :
    Gives s i d fun x f =>
      let half := fun k => pminHalf isMin m.dt (elemAt m.dt (readPacked s x f m.dt (.op a)) k) (elemAt m.dt (readPacked s x f m.dt y) k)
      { ws := [w32 ((half 0).1 + 2 ^ 16 * (half 1).1)], late := true
        pred := if m.elem = 1 then { first := some (half 0).2, push := some (half 1).2 } else {} } := by
  refine .of_regForm (he.trans ?_)
  simp only [State.pminForm, beq_iff_eq]

end NumberForms

end Sys2Proof.Machine

namespace Sys2Proof

open Sys2Proof.Machine

/-- Settles O9: each arm is the register form of the clause's words, or owes them where 05 R113 has the result outstanding. -/
theorem floatForms : Obligations.FloatForms :=
  fun _ _ _ _ _ _ _ _ _ =>
    ⟨.of_regForm rfl, .of_regForm rfl, .of_regForm rfl, .of_regForm rfl, .of_regForm rfl, .of_regForm rfl,
      .of_oweForm rfl, .of_oweForm rfl, .of_oweForm rfl, .of_oweForm rfl,
      .of_regForm rfl, .of_regForm rfl, .of_regForm rfl, .of_regForm rfl, .of_regForm rfl, .of_regForm rfl,
      .of_oweForm rfl, .of_oweForm rfl, .of_oweForm rfl, .of_oweForm rfl⟩

/-- Settles O10: each of the four arms is the approximate form of its own function. -/
theorem elementaryForms : Obligations.ElementaryForms := by
  intro s h t d a m x forms e he c
  simp only [forms, List.mem_cons, List.not_mem_nil, or_false] at he
  obtain rfl | rfl | rfl | rfl := he
  · exact State.approxForm_picks c t d a m fun v => .near (xexp2 v)
  · exact State.approxForm_picks c t d a m fun v => .near (xlog2 v)
  · exact State.approxForm_picks c t d a m approxSin
  · exact State.approxForm_picks c t d a m approxCos

/-- Settles O11: each arm is the register form of the clause's effect, those of `pmax` and `pmin` after `Gives.of_pminForm`. -/
theorem conversionForms : Obligations.ConversionForms :=
  fun _ _ _ _ _ _ _ _ _ =>
    ⟨.of_regForm rfl, .of_regForm rfl, .of_regForm rfl, .of_regForm rfl, .of_pminForm rfl, .of_pminForm rfl, .of_regForm rfl, .of_regForm rfl,
      .of_regForm rfl⟩

end Sys2Proof

namespace Sys2Proof.Machine

/-! ### Fibres sent to their own addresses (06 R122) -/

/-- A party of which each fibre of `ms` has been put at its target. -/
def Party.sendTo (p : Party) (target : Fibre → Word) (ms : List Fibre) : Party :=
  ms.foldl (fun p f => p.onFibre f.fid fun k => { k with pc := target f }) p

section Send

variable {target : Fibre → Word}

theorem Party.sendTo_uid (p : Party) (ms : List Fibre) : (p.sendTo target ms).uid = p.uid := by
  induction ms generalizing p with
  | nil => rfl
  | cons f ms ih => exact ih _

theorem Party.gang?_sendTo (p : Party) (ms : List Fibre) (n : Nat) : (p.sendTo target ms).gang? n = p.gang? n := by
  induction ms generalizing p with
  | nil => rfl
  | cons f ms ih => exact ih _

theorem Party.fibre?_sendTo_of_notMem (p : Party) {ms : List Fibre} {n : Nat} (h : n ∉ ms.map (·.fid)) : (p.sendTo target ms).fibre? n = p.fibre? n := by
  induction ms generalizing p with
  | nil => rfl
  | cons f ms ih =>
    obtain ⟨hn, hms⟩ := not_or.1 (mt List.mem_cons.2 h)
    refine (ih _ hms).trans ((Party.fibre?_onFibre p _ _ _ ?_).trans ?_)
    · exact fun _ => rfl
    · simp [hn]

/-- A fibre that is sent keeps everything but its `$pc`. -/
theorem Party.fibre?_sendTo (p : Party) {ms : List Fibre} (hn : (ms.map (·.fid)).Nodup) {f : Fibre} (hf : f ∈ ms) :
    (p.sendTo target ms).fibre? f.fid = (p.fibre? f.fid).map fun k => { k with pc := target f } := by
  induction ms generalizing p with
  | nil => cases hf
  | cons e ms ih =>
    obtain ⟨he, hms⟩ := List.nodup_cons.1 hn
    have hsend := Party.fibre?_onFibre p e.fid f.fid (fun k => { k with pc := target e }) fun _ => rfl
    rcases List.mem_cons.1 hf with rfl | hf
    · exact (Party.fibre?_sendTo_of_notMem _ he).trans (by simpa using hsend)
    · have hne : f.fid ≠ e.fid := fun h => he (List.mem_map.2 ⟨f, hf, h⟩)
      exact (ih _ hms hf).trans (by simp [hsend, hne])

theorem State.party?_foldl_send (u : Nat) (ms : List Fibre) (s : State) :
    (ms.foldl (fun s f => s.onFibre u f.fid fun k => { k with pc := target f }) s).party? u = (s.party? u).map (·.sendTo target ms) := by
  induction ms generalizing s with
  | nil => exact Option.map_id'.symm ▸ rfl
  | cons f ms ih =>
    refine (ih _).trans ?_
    have hf := State.party?_onParty s u u (·.onFibre f.fid fun k => { k with pc := target f }) fun p => p.onFibre_uid _ _
    rw [show (s.onFibre u f.fid _).party? u = _ from hf, Option.map_map]
    exact Option.map_congr fun p _ => congrArg (Party.sendTo · target ms) (if_pos rfl)

/-- The members of a gang once they have been sent: as they were, each at its target. -/
theorem Party.members_sendTo {p : Party} {g : Gang} {ms : List Fibre} (hn : (ms.map (·.fid)).Nodup) (hg : g.fibres = ms.map (·.fid))
    (hp : ∀ f ∈ ms, (p.fibre? f.fid).isSome = true) :
    ∃ sent : Fibre → Fibre, (p.sendTo target ms).members g = ms.map sent ∧ ∀ f, (sent f).pc = target f ∧ (sent f).fid = f.fid := by
  refine ⟨fun f => { (p.fibre? f.fid).getD f with pc := target f }, ?_, fun f => ⟨rfl, ?_⟩⟩
  · rw [Party.members, hg, List.filterMap_map, ← List.filterMap_eq_map]
    refine List.filterMap_congr fun f hf => ?_
    obtain ⟨k, hk⟩ := Option.isSome_iff_exists.1 (hp f hf)
    simp [Party.fibre?_sendTo p hn hf, hk]
  · change ((p.fibre? f.fid).getD f).fid = f.fid
    cases hk : p.fibre? f.fid with
    | none => rfl
    | some k => simpa using List.find?_some hk

end Send

/-! ### Splits (06 R124, 03 R54) -/

/-- What `pcsOf` does for one fibre: an address that it has not met yet comes last. -/
def addPc (l : List Word) (f : Fibre) : List Word := if l.contains f.pc then l else l ++ [f.pc]

theorem pcsOf_eq (ms : List Fibre) : pcsOf ms = ms.foldl addPc [] := rfl

theorem addPc_extends (l : List Word) (f : Fibre) : l <+: addPc l f := by
  unfold addPc
  split
  exacts [⟨[], List.append_nil _⟩, ⟨_, rfl⟩]

theorem mem_addPc {a : Word} {l : List Word} {f : Fibre} : a ∈ addPc l f ↔ a ∈ l ∨ f.pc = a := by
  unfold addPc
  split
  case isTrue h => exact ⟨.inl, fun h' => h'.elim id fun e => e ▸ List.contains_iff_mem.1 h⟩
  case isFalse => simp [eq_comm]

theorem foldl_addPc_extends (ms : List Fibre) (l : List Word) : l <+: ms.foldl addPc l := by
  induction ms generalizing l with
  | nil => exact ⟨[], List.append_nil _⟩
  | cons f ms ih => exact (addPc_extends l f).trans (ih _)

theorem mem_pcsOf {a : Word} {ms : List Fibre} : a ∈ pcsOf ms ↔ ∃ f ∈ ms, f.pc = a := by
  have hmem : ∀ (ms : List Fibre) (l : List Word), a ∈ ms.foldl addPc l ↔ a ∈ l ∨ ∃ f ∈ ms, f.pc = a := by
    intro ms
    induction ms with
    | nil => simp
    | cons f ms ih => intro l; simp [ih, mem_addPc, or_assoc]
  simpa [pcsOf_eq] using hmem ms []

theorem head?_pcsOf (ms : List Fibre) : (pcsOf ms).head? = ms.head?.map (·.pc) := by
  cases ms with
  | nil => rfl
  | cons f ms =>
    obtain ⟨l, hl⟩ := foldl_addPc_extends ms [f.pc]
    rw [show pcsOf (f :: ms) = [f.pc] ++ l from hl.symm]
    rfl

/-- A gang that stands for another one's fibres: of its crew, with a copy of its s registers and emulation fields. -/
def Gang.CopyOf (k g : Gang) : Prop := k.crew = g.crew ∧ k.sregs = g.sregs ∧ k.emu = g.emu

/-- A newly formed gang comes behind the others, with a number or none. -/
theorem Party.addGang_gangs (p : Party) (now : DWord) (g : Gang) : ∃ n, (p.addGang now g).gangs = p.gangs ++ [{ g with number := n }] := by
  unfold Party.addGang
  split
  exacts [⟨_, rfl⟩, ⟨none, rfl⟩]

theorem Party.addGang_fibres (p : Party) (now : DWord) (g : Gang) : (p.addGang now g).fibres = p.fibres := by
  unfold Party.addGang
  split <;> rfl

theorem Party.addGang_uid (p : Party) (now : DWord) (g : Gang) : (p.addGang now g).uid = p.uid := by
  unfold Party.addGang
  split <;> rfl

/-- Gangs that are formed come behind those of the party, and leave its fibres alone. -/
theorem State.party?_formGangs (u : Nat) (fs : List (Nat → Gang)) {s : State} {p : Party} (hp : s.party? u = some p) :
    ∃ q, (s.formGangs u fs).party? u = some q ∧ q.fibres = p.fibres ∧ p.gangs <+: q.gangs ∧
      ∀ form ∈ fs, ∃ k ∈ q.gangs, ∃ gid n, k = { form gid with number := n } := by
  induction fs generalizing s p with
  | nil => exact ⟨p, hp, rfl, ⟨[], List.append_nil _⟩, fun _ h => nomatch h⟩
  | cons form fs ih =>
    let s1 := s.fresh.2.onParty u fun p => p.addGang s.fresh.2.clock (form s.fresh.1)
    have h1 : s1.party? u = some (p.addGang s.clock (form s.nextId)) := State.party?_onParty_self (s := s.fresh.2) hp fun p => p.addGang_uid _ _
    have h2 : (if (s1.gang? u s.fresh.1).any fun g => g.number.isNone then s1.countParty u 0x06 1 else s1).party? u =
        some (p.addGang s.clock (form s.nextId)) := by
      split
      exacts [(State.party?_countParty ..).trans h1, h1]
    obtain ⟨q, hq, hfib, hpre, hform⟩ := ih h2
    obtain ⟨n, hn⟩ := p.addGang_gangs s.clock (form s.nextId)
    rw [hn] at hpre
    refine ⟨q, hq, hfib.trans (p.addGang_fibres _ _), List.IsPrefix.trans ⟨_, rfl⟩ hpre, fun f hf => ?_⟩
    rcases List.mem_cons.1 hf with rfl | hf
    · exact ⟨_, hpre.subset (List.mem_append_right _ (List.mem_singleton_self _)), s.nextId, n, rfl⟩
    · exact hform f hf

section Split

variable {s : State} {u gid : Nat} {p : Party} {g : Gang}

/-- The fibres of a gang that stand at an address. -/
def Party.sideAt (p : Party) (g : Gang) (a : Word) : List Nat := ((p.members g).filter fun f => f.pc == a).map (·.fid)

theorem Party.sideAt_of_forall {a : Word} (hall : (p.members g).map (·.fid) = g.fibres) (h : ∀ f ∈ p.members g, f.pc = a) : p.sideAt g a = g.fibres := by
  rw [Party.sideAt, List.filter_eq_self.2 fun f hf => by simpa using h f hf, hall]

/-- A split leaves the fibres of its party where they stand. -/
theorem State.split_fibres (hp : s.party? u = some p) (gid : Nat) : ∃ q, (s.split u gid).party? u = some q ∧ q.fibres = p.fibres := by
  rw [State.split, hp]
  dsimp only
  split
  · exact ⟨p, hp, rfl⟩
  · split
    · exact ⟨p, hp, rfl⟩
    · exact ⟨p, hp, rfl⟩
    · obtain ⟨q, hq, hfib, -⟩ := State.party?_formGangs u _ ((State.party?_countParty ..).trans (State.party?_onParty_self hp fun p => p.onGang_uid _ _))
      exact ⟨q, hq, hfib⟩

/-- Where the members of a gang stand apart, those at the first address keep the gang, and each other address gets a gang of its own. -/
theorem State.split_parts (hp : s.party? u = some p) (hg : p.gang? gid = some g) {a b : Word} {l : List Word} (h : pcsOf (p.members g) = a :: b :: l) :
    ∃ q, (s.split u gid).party? u = some q ∧ q.gang? gid = some { g with fibres := p.sideAt g a, boundary := true } ∧
      ∀ c ∈ b :: l, ∃ k ∈ q.gangs, k.fibres = p.sideAt g c ∧ k.CopyOf g := by
  have hkeep := Party.gang?_onGang_self hg (f := fun k => { k with fibres := p.sideAt g a, boundary := true }) fun _ => rfl
  rw [State.split, hp]
  simp only [hg, h]
  obtain ⟨q, hq, -, hpre, hform⟩ := State.party?_formGangs u _
    ((State.party?_countParty ..).trans (State.party?_onParty_self hp fun p => p.onGang_uid _ _))
  refine ⟨q, hq, hpre.find?_eq_some hkeep, fun c hc => ?_⟩
  obtain ⟨k, hk, _, _, rfl⟩ := hform _ (List.mem_map_of_mem hc)
  exact ⟨_, hk, rfl, rfl, rfl, rfl⟩

/-- Where the members of a gang stand together, nothing is split. -/
theorem State.split_whole (hp : s.party? u = some p) (hg : p.gang? gid = some g) (h : (pcsOf (p.members g)).length ≤ 1) : s.split u gid = s := by
  rw [State.split, hp]
  simp only [hg]
  match pcsOf (p.members g), h with
  | [], _ => rfl
  | [_], _ => rfl

/-- Of the gang `gid` that `g` was in party `p`, party `q` holds for each fibre a gang of those that stand where it stands; the gang of the first keeps
its number. -/
def Party.SplitFrom (q p : Party) (gid : Nat) (g : Gang) : Prop :=
  (∀ f, (p.members g).head? = some f → ∃ k, q.gang? gid = some k ∧ k.number = g.number ∧ k.fibres = p.sideAt g f.pc ∧ k.CopyOf g) ∧
  ∀ f ∈ p.members g, ∃ k ∈ q.gangs, k.fibres = p.sideAt g f.pc ∧ k.CopyOf g

theorem Party.splitFrom_self (hg : p.gang? gid = some g) (hall : (p.members g).map (·.fid) = g.fibres) {a : Word} (ha : ∀ f ∈ p.members g, f.pc = a) :
    p.SplitFrom p gid g :=
  have hside {f : Fibre} (hf : f ∈ p.members g) : g.fibres = p.sideAt g f.pc :=
    (Party.sideAt_of_forall hall fun e he => (ha e he).trans (ha f hf).symm).symm
  ⟨fun _ hf => ⟨g, hg, rfl, hside (List.mem_of_head? hf), rfl, rfl, rfl⟩,
    fun _ hf => ⟨g, List.mem_of_find?_eq_some hg, hside hf, rfl, rfl, rfl⟩⟩

theorem State.split_sides (hp : s.party? u = some p) (hg : p.gang? gid = some g) (hall : (p.members g).map (·.fid) = g.fibres) :
    ∃ q, (s.split u gid).party? u = some q ∧ q.SplitFrom p gid g := by
  have hmem {f : Fibre} (hf : f ∈ p.members g) : f.pc ∈ pcsOf (p.members g) := mem_pcsOf.2 ⟨f, hf, rfl⟩
  have whole (hlen : (pcsOf (p.members g)).length ≤ 1) {a : Word} (ha : ∀ f ∈ p.members g, f.pc = a) :
      ∃ q, (s.split u gid).party? u = some q ∧ q.SplitFrom p gid g :=
    ⟨p, (State.split_whole hp hg hlen).symm ▸ hp, Party.splitFrom_self hg hall ha⟩
  match hpcs : pcsOf (p.members g) with
  | [] => exact whole (by simp [hpcs]) (a := 0) fun f hf => absurd (hpcs ▸ hmem hf) List.not_mem_nil
  | [a] => exact whole (by simp [hpcs]) fun f hf => List.mem_singleton.1 (hpcs ▸ hmem hf)
  | a :: b :: l =>
    obtain ⟨q, hq, hk, hnew⟩ := State.split_parts hp hg hpcs
    refine ⟨q, hq, fun f hf => ⟨_, hk, rfl, ?_, rfl, rfl, rfl⟩, fun f hf => ?_⟩
    · have ha : some a = some f.pc := by simpa [hpcs, hf] using head?_pcsOf (p.members g)
      rw [Option.some.inj ha]
    · rcases List.mem_cons.1 (hpcs ▸ hmem hf) with ha | hb
      · exact ⟨_, List.mem_of_find?_eq_some hk, ha ▸ rfl, rfl, rfl, rfl⟩
      · exact hnew _ hb

end Split

/-! ### Transfers (06 R122, R124) -/

section Transfer

variable {s s' : State} {x : Turn} {taken : Bool} {target : Fibre → Word}

/-- The gang of the turn divides under these targets. -/
def Turn.Divides (x : Turn) (target : Fibre → Word) : Prop := ∃ f ∈ x.ms, target f ≠ target (x.ms.headD f)

theorem Turn.any_target_ne (x : Turn) (target : Fibre → Word) :
    (x.ms.any fun f => decide (target f ≠ target (x.ms.headD f))) = true ↔ x.Divides target := by
  simp [Turn.Divides]

theorem State.transfer_pending (h : x.Divides target) (hp : s.pendingFaults x.uid x.g ≠ []) :
    s.transfer s' x taken target = s.takePending x.uid x.gid x.pc := by
  rw [State.transfer, (x.any_target_ne target).2 h]
  exact if_pos (by simpa using hp)

theorem State.transfer_awaits (h : x.Divides target) (hp : s.pendingFaults x.uid x.g = []) (ho : s.scalarPending x.uid x.g = true) :
    s.transfer s' x taken target = s.hold x.uid x.gid .marker := by
  rw [State.transfer, (x.any_target_ne target).2 h, hp, ho]
  rfl

/-- A state whose gang of the turn has issued and been sent to its targets, before it splits. -/
def State.sendAll (s : State) (x : Turn) (taken : Bool) (target : Fibre → Word) : State :=
  (x.ms.foldl (fun s f => s.onFibre x.uid f.fid fun k => { k with pc := target f }) ((s.stampIssue x.uid x.gid).countParty x.uid 0x02 1)).onGang
    x.uid x.gid fun g => { g with boundary := taken }

theorem State.transfer_goes (h : ¬x.Divides target ∨ (s.pendingFaults x.uid x.g = [] ∧ s.scalarPending x.uid x.g = false)) :
    s.transfer s' x taken target = (s'.sendAll x taken target).split x.uid x.gid := by
  rw [State.transfer]
  rcases h with h | ⟨hp, ho⟩
  · rw [Bool.eq_false_iff.2 (mt (x.any_target_ne target).1 h)]
    rfl
  · rw [hp, ho]
    simp [State.sendAll]

/-- A party whose fibres of the turn have been sent. -/
def Party.sent (p : Party) (x : Turn) (now : Nat) (taken : Bool) (target : Fibre → Word) : Party :=
  ((p.stamped x.gid now).sendTo target x.ms).onGang x.gid fun g => { g with boundary := taken }

theorem State.party?_sendAll {p : Party} (hp : s'.party? x.uid = some p) :
    (s'.sendAll x taken target).party? x.uid = some (p.sent x s'.clock.toNat taken target) := by
  have hst : (s'.stampIssue x.uid x.gid).party? x.uid = some (p.stamped x.gid s'.clock.toNat) :=
    State.party?_onParty_self (s := { s'.tick with issued := s'.laneIssued x.uid x.gid }) hp fun _ => rfl
  refine State.party?_onParty_self ((State.party?_foldl_send x.uid x.ms _).trans ?_) fun p => p.onGang_uid _ _
  rw [State.party?_countParty, hst, Option.map_some]

theorem Party.fibre?_sent (p : Party) (hn : (x.ms.map (·.fid)).Nodup) (now : Nat) {f : Fibre} (hf : f ∈ x.ms) :
    (p.sent x now taken target).fibre? f.fid = (p.fibre? f.fid).map fun k => { k with pc := target f } :=
  Party.fibre?_sendTo (p.stamped x.gid now) hn hf

theorem Party.gang?_sent {p : Party} {g : Gang} (hg : p.gang? x.gid = some g) (now : Nat) :
    ∃ k, (p.sent x now taken target).gang? x.gid = some k ∧ k.number = g.number ∧ k.fibres = g.fibres ∧ k.CopyOf g :=
  ⟨_, Party.gang?_onGang_self ((Party.gang?_sendTo ..).trans (Party.gang?_stamped_self hg now)) fun _ => rfl, rfl, rfl, rfl, rfl, rfl⟩

/-- The fibres of the turn that go where `f` goes. -/
def Turn.sideOf (x : Turn) (target : Fibre → Word) (f : Fibre) : List Nat := (x.ms.filter fun h => decide (target h = target f)).map (·.fid)

/-- The members of the gang once sent stand as their targets say. -/
theorem Party.members_sent {p : Party} (hn : (x.ms.map (·.fid)).Nodup) (hp : ∀ f ∈ x.ms, (p.fibre? f.fid).isSome = true) (now : Nat) {k : Gang}
    (hk : k.fibres = x.ms.map (·.fid)) :
    ∃ sent : Fibre → Fibre, (p.sent x now taken target).members k = x.ms.map sent ∧ (∀ f, (sent f).pc = target f) ∧ (∀ f, (sent f).fid = f.fid) ∧
      ∀ f, (p.sent x now taken target).sideAt k (target f) = x.sideOf target f := by
  obtain ⟨sent, hms, hat⟩ := Party.members_sendTo (p := p.stamped x.gid now) (target := target) hn hk hp
  have hms' : (p.sent x now taken target).members k = x.ms.map sent := hms
  refine ⟨sent, hms', fun f => (hat f).1, fun f => (hat f).2, fun f => ?_⟩
  rw [Party.sideAt, hms', List.filter_map, List.map_map, Turn.sideOf]
  have hpred : (fun f' : Fibre => f'.pc == target f) ∘ sent = fun h => decide (target h = target f) := funext fun h => by simp [(hat h).1, beq_eq_decide]
  have hfid : (fun f' : Fibre => f'.fid) ∘ sent = fun f => f.fid := funext fun h => (hat h).2
  rw [hpred, hfid]

/-- Each fibre of the turn stands at its own target after a transfer, and is otherwise as it was. -/
theorem State.transfer_fibre (h : ¬x.Divides target ∨ (s.pendingFaults x.uid x.g = [] ∧ s.scalarPending x.uid x.g = false))
    (hn : (x.ms.map (·.fid)).Nodup) {p : Party} (hp : s'.party? x.uid = some p) {f : Fibre} (hf : f ∈ x.ms) {f' : Fibre} (hf' : p.fibre? f.fid = some f') :
    ∃ q, (s.transfer s' x taken target).party? x.uid = some q ∧ q.fibre? f.fid = some { f' with pc := target f } := by
  obtain ⟨q, hq, hfib⟩ := State.split_fibres (State.party?_sendAll (taken := taken) (target := target) hp) x.gid
  refine ⟨q, (State.transfer_goes h).symm ▸ hq, ?_⟩
  rw [Party.fibre?_congr hfib, Party.fibre?_sent p hn _ hf, hf', Option.map_some]

/-- The gang of the turn divides into the sides that go to one address each. -/
theorem State.transfer_sides (h : ¬x.Divides target ∨ (s.pendingFaults x.uid x.g = [] ∧ s.scalarPending x.uid x.g = false))
    (hn : (x.ms.map (·.fid)).Nodup) {p : Party} (hp : s'.party? x.uid = some p) {g : Gang} (hg : p.gang? x.gid = some g)
    (hfs : g.fibres = x.ms.map (·.fid)) (hall : ∀ f ∈ x.ms, (p.fibre? f.fid).isSome = true) :
    ∃ q, (s.transfer s' x taken target).party? x.uid = some q ∧
      (∀ f, x.ms.head? = some f → ∃ k, q.gang? x.gid = some k ∧ k.number = g.number ∧ k.fibres = x.sideOf target f ∧ k.CopyOf g) ∧
      ∀ f ∈ x.ms, ∃ k ∈ q.gangs, k.fibres = x.sideOf target f ∧ k.CopyOf g := by
  obtain ⟨k, hk, hnum, hkf, hcrew, hsr, hemu⟩ := Party.gang?_sent (taken := taken) (target := target) hg s'.clock.toNat
  obtain ⟨sent, hms, hpc, hfid, hside⟩ := Party.members_sent (taken := taken) (target := target) hn hall s'.clock.toNat (hkf.trans hfs)
  have hcopy {k' : Gang} (c : k'.CopyOf k) : k'.CopyOf g := ⟨c.1.trans hcrew, c.2.1.trans hsr, c.2.2.trans hemu⟩
  have hids : ((p.sent x s'.clock.toNat taken target).members k).map (·.fid) = k.fibres := by
    rw [hms, List.map_map, hkf, hfs]
    exact List.map_congr_left fun f _ => hfid f
  obtain ⟨q, hq, hfirst, heach⟩ := State.split_sides (State.party?_sendAll hp) hk hids
  refine ⟨q, (State.transfer_goes h).symm ▸ hq, fun f hf => ?_, fun f hf => ?_⟩
  · obtain ⟨k', hk', hn', hf', hc⟩ := hfirst (sent f) (by rw [hms, List.head?_map, hf]; rfl)
    exact ⟨k', hk', hn'.trans hnum, by rw [hf', hpc, hside], hcopy hc⟩
  · obtain ⟨k', hk', hf', hc⟩ := heach (sent f) (hms ▸ List.mem_map_of_mem hf)
    exact ⟨k', hk', by rw [hf', hpc, hside], hcopy hc⟩

end Transfer

end Sys2Proof.Machine

namespace Sys2Proof

open Sys2Proof.Machine

/-- Settles O20: a transfer that goes sends each fibre of the turn and splits its gang by where the fibres then stand. -/
theorem transferTargets : Obligations.TransferTargets := by
  intro s s' x taken target _ hn t differ ready
  refine ⟨State.transfer_pending, State.transfer_awaits, fun h p hp => ⟨fun f hf f' hf' => ?_, ?_⟩⟩
  · obtain ⟨q, hq, hqf⟩ := State.transfer_fibre (taken := taken) h hn hp hf hf'
    exact ⟨q, _, hq, hqf, rfl, rfl⟩
  · intro g hg hfs hall side
    obtain ⟨q, hq, hfirst, heach⟩ := State.transfer_sides (taken := taken) h hn hp hg hfs hall
    refine ⟨q, hq, fun f hf => ?_, heach⟩
    obtain ⟨k, hk, hnum, hkf, -, hsr, -⟩ := hfirst f hf
    exact ⟨k, hk, hnum, hkf, hsr⟩

end Sys2Proof

namespace Sys2Proof.Machine

/-! ### Branches (06 R121 to R123) -/

theorem brCondTaken_iff (c : BrCond) (v : Nat) : BrCondTaken c v = true ↔ c.cond = 0 ∨ (c.cond = 1 ∧ v ≠ 0) ∨ (2 ≤ c.cond ∧ v = 0) := by
  unfold BrCondTaken
  split
  case h_1 h => simp [h]
  case h_2 h => simp [h]
  case h_3 h0 h1 =>
    have h2 : 2 ≤ c.cond := (Nat.two_le_iff _).2 ⟨h0, h1⟩
    simp [h2, show c.cond ≠ 0 from h0, show c.cond ≠ 1 from h1]

theorem brTargetAt_off (pc : Word) (o : BitVec 16) : BrTargetAt pc (.off o) = pc + 4 * o.signExtend 32 := congrArg (pc + ·) (BitVec.mul_comm ..)

section Branch

variable {s : State} {i : Instr} {x : Turn} {br : BrCond} {link : Option Opnd} {tgt : Turn → Fibre → Word}

/-- A uniform branch that issues goes by the one value that the gang tests. -/
theorem State.branchForm_uniform (c : s.Clear i x) (hu : br.u = true) {f0 : Fibre} (hf : supplier x.ms = some f0) :
    s.branchForm i br link tgt = .next (
      if BrCondTaken br (read32 s x.p x.g f0 (.op br.reg)) = true then
        if (tgt x f0).toNat % 4 = 0 then
          s.transfer (link.elim s fun l => s.writeGang x.uid x.gid l [nextPc x.pc i.raw]) x true fun _ => tgt x f0
        else s.badTarget x i 0 (x.g.logged [(tgt x f0).zeroExtend 64] ((tgt x f0).zeroExtend 64))
      else s.advance x.uid x.gid i.raw) := by
  rw [State.branchForm, if_pos hu, State.issue_clear c, hf]
  dsimp only
  cases BrCondTaken br (read32 s x.p x.g f0 (.op br.reg)) with
  | false => rfl
  | true => by_cases h : (tgt x f0).toNat % 4 = 0 <;> cases link <;> simp [h]

/-- A per-fibre branch that issues at level U goes by the take-effect set. -/
theorem State.branchForm_perFibre (c : s.Clear i x) (hu : br.u = false) (hl : x.g.level = false) :
    s.branchForm i br link tgt = .next (
      if ∃ f ∈ takeEffect i.head x.ms, (tgt x f).toNat % 4 ≠ 0 then
        s.badTarget x i (maskOf ((takeEffect i.head x.ms).map fun f => x.g.slotOf f.fid))
          ((takeEffect i.head x.ms).map fun f => ⟨f.fid, [(tgt x f).zeroExtend 64], (tgt x f).zeroExtend 64, []⟩)
      else s.transfer (link.elim s fun l => (takeEffect i.head x.ms).foldl (fun r f => r.writeFibre x.uid f l [nextPc x.pc i.raw]) s) x
        (!(takeEffect i.head x.ms).isEmpty) fun f => if (takeEffect i.head x.ms).contains f then tgt x f else nextPc x.pc i.raw) := by
  rw [State.branchForm, if_neg (by simp [hu]), State.issueFibre_clear c hl]
  by_cases h : ∃ f ∈ takeEffect i.head x.ms, (tgt x f).toNat % 4 ≠ 0
  · rw [if_pos h]
    exact if_pos (List.any_eq_true.2 (by simpa using h))
  · rw [if_neg h]
    refine (if_neg (mt List.any_eq_true.1 (by simpa using h))).trans ?_
    cases link <;> rfl

end Branch

/-- What a branch of one of the four forms does where it issues: `dest` is the address a fibre computes, `link` where the return address goes. -/
structure BranchGoes (s : State) (i : Instr) (x : Turn) (br : BrCond) (link : Option Opnd) (dest : Fibre → Word) : Prop where
  uniform : br.u = true → ∀ f0, supplier x.ms = some f0 →
    let taken := br.cond = 0 ∨ (br.cond = 1 ∧ read32 s x.p x.g f0 (.op br.reg) ≠ 0) ∨ (2 ≤ br.cond ∧ read32 s x.p x.g f0 (.op br.reg) = 0)
    (¬taken → exec i s = .next (s.advance x.uid x.gid i.raw)) ∧
    (taken → (dest f0).toNat % 4 ≠ 0 → exec i s = .next (s.badTarget x i 0 (x.g.logged [(dest f0).zeroExtend 64] ((dest f0).zeroExtend 64)))) ∧
    (taken → (dest f0).toNat % 4 = 0 →
      exec i s = .next (s.transfer (link.elim s fun l => s.writeGang x.uid x.gid l [nextPc x.pc i.raw]) x true fun _ => dest f0))
  perFibre : br.u = false → x.g.level = false →
    let fs := takeEffect i.head x.ms
    ((∃ f ∈ fs, (dest f).toNat % 4 ≠ 0) → exec i s = .next (s.badTarget x i (maskOf (fs.map fun f => x.g.slotOf f.fid))
      (fs.map fun f => ⟨f.fid, [(dest f).zeroExtend 64], (dest f).zeroExtend 64, []⟩))) ∧
    ((∀ f ∈ fs, (dest f).toNat % 4 = 0) → exec i s = .next (s.transfer
      (link.elim s fun l => fs.foldl (fun r f => r.writeFibre x.uid f l [nextPc x.pc i.raw]) s) x (!fs.isEmpty)
      fun f => if fs.contains f then dest f else nextPc x.pc i.raw))

theorem BranchGoes.of_branchForm {s : State} {i : Instr} {x : Turn} {br : BrCond} {link : Option Opnd} {tgt : Turn → Fibre → Word} (c : s.Clear i x)
    (hx : exec i s = s.branchForm i br link tgt) : BranchGoes s i x br link (tgt x) where
  uniform hu f0 hf := by
    rw [hx, State.branchForm_uniform c hu hf, ← brCondTaken_iff]
    exact ⟨fun ht => by rw [if_neg ht], fun ht h4 => by rw [if_pos ht, if_neg h4], fun ht h4 => by rw [if_pos ht, if_pos h4]⟩
  perFibre hu hl := by
    rw [hx, State.branchForm_perFibre c hu hl]
    exact ⟨fun h => by rw [if_pos h], fun h => by rw [if_neg fun ⟨f, hf, h4⟩ => h4 (h f hf)]⟩

section Exec

variable (s : State) (h : Head) (d a : Opnd) (tgt : BrTarget) (br : BrCond)

theorem exec_bra (ho : s.inOutrider = false) :
    exec (.bra h tgt br) s = s.branchForm (.bra h tgt br) br none fun t _ => BrTargetAt t.pc tgt := if_neg (by simp [ho])
theorem exec_brx : exec (.brx h a br) s = s.branchForm (.brx h a br) br none fun t f => w32 (read32 s t.p t.g f (.op a)) := rfl
theorem exec_call : exec (.call h d tgt br) s = s.branchForm (.call h d tgt br) br (some d) fun t _ => BrTargetAt t.pc tgt := rfl
theorem exec_ret : exec (.ret h a br) s = s.branchForm (.ret h a br) br none fun t f => w32 (read32 s t.p t.g f (.op a)) := rfl

end Exec

end Sys2Proof.Machine

namespace Sys2Proof

open Sys2Proof.Machine

/-- Settles O19: each of the four forms is the branch form of its own target. -/
theorem branches : Obligations.Branches := by
  intro s h d a tgt br x rel reg wide forms e he c
  have hrel : BrTargetAt x.pc tgt = rel := by
    cases tgt with
    | off o => exact brTargetAt_off x.pc o
    | imm w => rfl
  simp only [forms, List.mem_cons, List.not_mem_nil, or_false] at he
  obtain rfl | rfl | rfl | rfl := he
  · have g := BranchGoes.of_branchForm c (exec_bra s h tgt br (State.inOutrider_of_turn c.turn))
    rw [hrel] at g
    exact ⟨g.uniform, g.perFibre⟩
  · have g := BranchGoes.of_branchForm c (exec_brx s h a br)
    exact ⟨g.uniform, g.perFibre⟩
  · have g := BranchGoes.of_branchForm c (exec_call s h d tgt br)
    rw [hrel] at g
    exact ⟨g.uniform, g.perFibre⟩
  · have g := BranchGoes.of_branchForm c (exec_ret s h a br)
    exact ⟨g.uniform, g.perFibre⟩

end Sys2Proof

namespace Sys2Proof.Machine

/-! ### Outrider code (06 R137) -/

section OutriderForms

variable {s : State} {i : Instr} {d : Opnd} {v : Outrider → Int}

theorem OlGives.of_olForm (h : exec i s = s.olForm i d v) : OlGives s i d v := fun _ r => h.trans (State.olForm_eq r i d v)

/-- A form that gangs have too. -/
theorem OlGives.of_shared {o : Out} (h : exec i s = if s.inOutrider then s.olForm i d v else o) : OlGives s i d v :=
  fun _ r => (h.trans (if_pos (State.inOutrider_of_runs r))).trans (State.olForm_eq r i d v)

end OutriderForms

end Sys2Proof.Machine

namespace Sys2Proof

open Sys2Proof.Machine

/-- Settles O24: each arm is, for an Outrider, the form of the clause's value. -/
theorem outriderArithmetic : Obligations.OutriderArithmetic :=
  fun _ _ _ _ _ _ _ _ _ =>
    ⟨.of_shared rfl, .of_shared rfl, .of_shared rfl, .of_shared rfl, .of_shared rfl, .of_shared rfl, .of_shared rfl, .of_shared rfl⟩

end Sys2Proof

namespace Sys2Proof.Machine

/-! ### The Outrider's control forms (06 R137, R138) -/

section OutriderControl

variable {s : State} {c : CoreRef} (r : s.OlRuns c) (h : Head)
include r

theorem exec_nop_outrider (len : Len) : exec (.nop h len) s = .next (s.onOutrider c (olAdvance (Instr.nop h len).raw)) :=
  (if_pos (State.inOutrider_of_runs r)).trans (State.olRun_eq r _)

theorem exec_exit_outrider : exec (.exit h) s = .next (s.onOutrider c fun o => { o with running := false, loops := [], waiting := false }) :=
  (if_pos (State.inOutrider_of_runs r)).trans (State.olRun_eq r _)

theorem exec_bra_outrider (tgt : BrTarget) (br : BrCond) :
    exec (.bra h tgt br) s = .next (s.onOutrider c fun _ =>
      let o := (s.core c).outrider
      if BrCondTaken br (olRead o .n64 (.op br.reg)).toNat then { o with opc := BrTargetAt o.opc tgt } else olAdvance (Instr.bra h tgt br).raw o) :=
  (if_pos (State.inOutrider_of_runs r)).trans (State.olRun_eq r _)

theorem exec_olfor (n : Nat) (a : Opnd) (ex : Word) :
    let o := (s.core c).outrider
    let i := Instr.olfor h (.v n) a ex
    let k := olRead o .n64 (.op a)
    exec i s = .next (
      if k = 0 then s.onOutrider c fun _ => { o with opc := o.opc + ex }
      else if 4 ≤ o.loops.length then s.olFault c .loopDepth
      else s.onOutrider c fun _ => { o with
        o := o.o.set n 0, loops := { idx := n, count := k, body := nextPc o.opc i.raw, exit := o.opc + ex } :: o.loops, opc := nextPc o.opc i.raw }) :=
  State.olRun_eq r _

theorem exec_olnext_empty (he : (s.core c).outrider.loops = []) : exec (.olnext h) s = .next (s.olFault c .loopEmpty) := by
  refine (State.olRun_eq r _).trans ?_
  simp only [he]

theorem exec_olnext_cons {l : Loop} {ls : List Loop} (he : (s.core c).outrider.loops = l :: ls) :
    let o := (s.core c).outrider
    let v := o.o.getD l.idx 0 + 1
    exec (.olnext h) s = .next (s.onOutrider c fun _ =>
      if v < l.count then { o with o := o.o.set l.idx v, opc := l.body }
      else { o with o := o.o.set l.idx v, loops := ls, opc := nextPc o.opc (Instr.olnext h).raw }) := by
  refine (State.olRun_eq r _).trans ?_
  simp only [he]

theorem exec_olpermit (q : PostQ) (y : Src) :
    let o := (s.core c).outrider
    let v := (olRead o .n64 y).toNat
    exec (.olpermit h q y) s = .next (
      if v = 0 ∨ PostQ.depth q < v then s.olFault c .badPermit
      else s.onOutrider c fun _ => olAdvance (Instr.olpermit h q y).raw (match q with
        | .mill => { o with mill := { o.mill with limit := v } }
        | .port => { o with port := { o.port with limit := v } }
        | .record => { o with recs := { o.recs with limit := v } }
        | .bad => o)) :=
  State.olRun_eq r _

end OutriderControl

end Sys2Proof.Machine

namespace Sys2Proof

open Sys2Proof.Machine

/-- Settles O25: each arm's branches, one for each clause. -/
theorem outriderControl : Obligations.OutriderControl := by
  intro s c h len tgt br n a y ex q r o next put
  refine ⟨exec_nop_outrider r h len, exec_exit_outrider r h, ?_, ?_, ⟨exec_olnext_empty r h, ?_⟩, ?_⟩
  · intro v taken
    have htaken : BrCondTaken br v.toNat = true ↔ taken := by
      have hv : v.toNat = 0 ↔ v = 0 := BitVec.toNat_inj (y := 0)
      rw [brCondTaken_iff, ne_eq, hv]
    rw [exec_bra_outrider r h]
    refine ⟨fun ht => ?_, fun ht => ?_⟩
    · rw [if_pos (htaken.2 ht)]
      cases tgt with
      | off w => rw [brTargetAt_off]
      | imm w => rfl
    · rw [if_neg (mt htaken.1 ht)]
      rfl
  · intro k i
    rw [exec_olfor r h]
    exact ⟨fun hk => by rw [if_pos hk], fun hk hl => by rw [if_neg hk, if_pos hl], fun hk hl => by rw [if_neg hk, if_neg (Nat.not_le.2 hl)]⟩
  · intro l ls he v
    rw [exec_olnext_cons r h he]
    exact ⟨fun hv => by rw [if_pos hv], fun hv => by rw [if_neg (BitVec.not_lt.2 hv)]⟩
  · intro v i go
    rw [exec_olpermit r h]
    refine ⟨fun hv => by rw [if_pos hv], fun h1 hq => ?_⟩
    rw [if_neg fun hv => hv.elim (Nat.ne_of_gt h1) (Nat.not_lt.2 hq)]
    cases q <;> rfl

end Sys2Proof

namespace Sys2Proof.Machine

/-! ### Posts by the Outrider (06 R138, 12 R263, R269) -/

theorem Mill.foreign_of_owner {m : Mill} {ctx : Nat} (h : ∀ k, m.owner = some k → k = ctx) : m.foreign ctx = false := by
  rw [Mill.foreign, Option.any_eq_false]
  exact fun k hk => by simp [h k hk]

section Posts

variable {s : State} {c : CoreRef} (r : s.OlRuns c) (h : Head) (a b : Opnd) (op : Nat)
include r

section Engines

variable {p : Party} (hp : s.party? (s.core c).outrider.uid = some p) {e : Instr}
include hp

section Mill

variable (he : postInstr op ((olRead (s.core c).outrider .n64 (.op b)).toNat % 2 ^ 19) false = .ok e) {f : MillForm}
  (hf : millFormOf e ((olRead (s.core c).outrider .n64 (.op a)).toNat % 2 ^ 32) = some f)
include he hf

theorem exec_olpostMill_noPermit (hl : (s.core c).outrider.mill.limit ≤ (s.core c).outrider.mill.out) : exec (.olpostMill h a b op) s = .next s := by
  refine (State.olRun_eq r _).trans (congrArg _ ?_)
  simp only [hp, he, hf]
  rw [if_pos (by simp [hl])]

theorem exec_olpostMill_posts (hl : (s.core c).outrider.mill.out < (s.core c).outrider.mill.limit)
    (hown : ∀ k, (s.core c).mill.owner = some k → k = p.ctx) (hover : s.overtaken (.engine c .mill) (requestPlace p.prio 16) = false) :
    let s1 := (s.fresh.2.serve (.engine c .mill) (requestPlace p.prio 16)).onOutrider c fun o => { o with mill := { o.mill with out := o.mill.out + 1 } }
    s1.queueRoom c .mill = true → s1.engineWaits c .mill p.uid = false →
    exec (.olpostMill h a b op) s = .next ((s1.onMill c fun m => { m with
      queue := m.queue ++ [{ id := s.nextId, op := f.op, uid := p.uid, ctx := p.ctx, posted := true }]
      owner := some p.ctx }).onOutrider c (olAdvance (Instr.olpostMill h a b op).raw)) := by
  intro s1 hroom hwait
  refine (State.olRun_eq r _).trans (congrArg _ ?_)
  simp only [hp, he, hf]
  rw [if_neg (by simp [hl, hover]), if_neg (by simp [Mill.foreign_of_owner hown])]
  exact if_pos (by rw [hroom, hwait]; rfl)

end Mill

section Port

variable (he : postInstr op ((olRead (s.core c).outrider .n64 (.op b)).toNat % 2 ^ 19) true = .ok e)
include he

theorem exec_olpostPort_noPermit (hl : (s.core c).outrider.port.limit ≤ (s.core c).outrider.port.out) : exec (.olpostPort h a b op) s = .next s := by
  refine (State.olRun_eq r _).trans (congrArg _ ?_)
  simp only [hp, he]
  rw [if_pos (by simp [hl])]

theorem exec_olpostPort_posts (hl : (s.core c).outrider.port.out < (s.core c).outrider.port.limit) :
    let off := (olRead (s.core c).outrider .n64 (.op a)).toNat % 2 ^ 32
    let cs := s.claims p (op == 770) off
    cs.length ≤ p.freeScore.length → s.overtaken (.engine c .porter) (requestPlace p.prio 16) = false →
    let s1 := (s.fresh.2.serve (.engine c .porter) (requestPlace p.prio 16)).onOutrider c fun o => { o with port := { o.port with out := o.port.out + 1 } }
    s1.queueRoom c .porter = true → s1.engineWaits c .porter p.uid = false →
    exec (.olpostPort h a b op) s = .next (((s1.onParty p.uid fun p => p.claim 0 0 s.nextId cs).portPush c
      { id := s.nextId, a2av := op == 770, uid := p.uid, ctx := p.ctx, off := off, posted := true }).onOutrider c
        (olAdvance (Instr.olpostPort h a b op).raw)) := by
  intro off cs hcs hover s1 hroom hwait
  refine (State.olRun_eq r _).trans (congrArg _ ?_)
  have hgo : (decide ((s.core c).outrider.port.limit ≤ (s.core c).outrider.port.out) || decide (p.freeScore.length < cs.length) ||
      s.overtaken (.engine c .porter) (requestPlace p.prio 16)) = false := by
    rw [decide_eq_false (Nat.not_le.2 hl), decide_eq_false (Nat.not_lt.2 hcs), hover]
    rfl
  simp only [hp, he]
  rw [if_neg (Bool.eq_false_iff.1 hgo)]
  exact if_pos (by rw [hroom, hwait]; rfl)

end Port

end Engines

theorem exec_olpostRec_noPermit (hl : (s.core c).outrider.recs.limit ≤ (s.core c).outrider.recs.out) : exec (.olpostRec h a b) s = .next s :=
  (State.olRun_eq r _).trans (congrArg _ (if_pos hl))

theorem exec_olpostRec_posts (hl : (s.core c).outrider.recs.out < (s.core c).outrider.recs.limit) :
    let o := (s.core c).outrider
    exec (.olpostRec h a b) s = .next ((s.onParty o.uid fun p => { p with records := p.records ++
      [BitVec.ofNat 128 ((olRead o .n64 (.op a)).toNat + (olRead o .n64 (.op b)).toNat % 2 ^ 63 * 2 ^ 64)] }).onOutrider c fun o =>
        olAdvance (Instr.olpostRec h a b).raw { o with recs := { o.recs with out := o.recs.out + 1 } }) :=
  (State.olRun_eq r _).trans (congrArg _ (if_neg (Nat.not_le.2 hl)))

end Posts

end Sys2Proof.Machine

namespace Sys2Proof

open Sys2Proof.Machine

/-- Settles O45: each arm with a permit and without one. -/
theorem outriderPosts : Obligations.OutriderPosts := by
  intro s c h a b op p r o hp arg mod
  refine ⟨fun e f he hf => ⟨exec_olpostMill_noPermit r h a b op hp he hf, exec_olpostMill_posts r h a b op hp he hf⟩,
    fun e he => ⟨exec_olpostPort_noPermit r h a b op hp he, exec_olpostPort_posts r h a b op hp he⟩,
    exec_olpostRec_noPermit r h a b, fun hl => ⟨_, exec_olpostRec_posts r h a b hl, by simp, _, State.party?_onParty_self hp fun _ => rfl, rfl⟩⟩

end Sys2Proof

namespace Sys2Proof.Machine

/-! ### Requests of work (06 R134, R135, 12 R252) -/

section Requests

variable {s : State} {h : Head} {x : Turn}

theorem exec_fetchw {a : Opnd} (c : s.Clear (.fetchw h a) x) (h16 : uniform32 s x (.op a) % 16 = 0)
    (hseg : uniform32 s x (.op a) + 16 ≤ (x.p.segLim.getD 0 0).toNat) (h4 : x.p.withdraw.length < 4) :
    exec (.fetchw h a) s = .next ((s.onParty x.uid fun p => { p with withdraw := p.withdraw ++ [uniform32 s x (.op a)] }).advance x.uid x.gid
      (Instr.fetchw h a).raw) := by
  refine (State.issue_clear c _).trans (congrArg _ ?_)
  rw [State.fetchwTry, if_neg (by simp [h16]), if_neg (Nat.not_lt.2 hseg), if_neg (Nat.not_le.2 h4), State.conclude]

variable {d a b : Opnd} {f : Fibre} (c : s.Clear (.launch h d a b) x) (hf : supplier x.ms = some f)
include c hf

theorem exec_launch_unknown (hq : s.launchable x.p.ctx (read32 s x.p x.g f (.op b)) = false) :
    exec (.launch h d a b) s = .next ((s.fresh.2.owe x (.launch h d a b) s.fresh.1 none (s.destOf x.p f d 1) [2]).advance
      x.uid x.gid (Instr.launch h d a b).raw) := by
  refine (State.issue_clear c _).trans ?_
  simp only [hf]
  exact if_neg (by simp [hq])

theorem exec_launch_known (hq : s.launchable x.p.ctx (read32 s x.p x.g f (.op b)) = true) :
    exec (.launch h d a b) s = .next (s.launchGo x (.launch h d a b) (read64 s x.p x.g f (.op a)) (read32 s x.p x.g f (.op b)) (s.destOf x.p f d 1)) := by
  refine (State.issue_clear c _).trans ?_
  simp only [hf]
  exact if_pos hq

end Requests

theorem State.wait_hold {s : State} {uid gid : Nat} {g : Gang} (hg : s.gang? uid gid = some g) (w : Wait) :
    ((s.hold uid gid w).gang? uid gid).bind (·.wait) = some w := by
  have h := State.gang?_onGang s uid uid gid gid (fun g => { g with wait := some w }) fun _ => rfl
  rw [hg] at h
  rw [show (s.hold uid gid w).gang? uid gid = _ from h]
  simp

/-- A launch on its way leaves a request behind the stores that its party's crews have queued, and a copy to make, and its gang waits for that. -/
theorem State.launchGo_leaves {s : State} {x : Turn} (ht : s.turnOf = some x) (i : Instr) (v : DWord) (q : Nat) (dest : List DestReg) :
    let t := s.launchGo x i v q dest
    ∃ id, (t.gang? x.uid x.gid).bind (·.wait) = some (.launch id) ∧ t.mem = s.mem ∧
      ∃ r acc, t.requests = s.requests ++ [r] ∧ t.flight = s.flight ++ [acc] ∧ r.id = id ∧ acc.id = id ∧ r.ctx = x.p.ctx ∧ r.q = q ∧
        r.addr = v ∧ r.owed = (x.p.crews.flatMap fun c => c.storeq.flatten) ∧ acc.dest = dest := by
  obtain ⟨-, hp, hg, -, -⟩ := State.turnOf_some ht
  have hgang : s.gang? x.uid x.gid = some x.g := by rw [State.gang?, hp, Option.bind_some, hg]
  exact ⟨s.nextId + 1, State.wait_hold (s := { s with nextId := s.nextId + 2, flight := _, requests := _ }) hgang _, rfl, _, _, rfl, rfl, rfl, rfl, rfl, rfl,
    rfl, rfl, rfl⟩

/-! ### Records (06 R136, 12 R269) -/

/-- A gang that goes on past a word leaves its party's records. -/
theorem State.records_advance {s : State} {uid gid : Nat} {p q : Party} (hp : s.party? uid = some p) (r : Raw) (hq : (s.advance uid gid r).party? uid = some q) :
    q.records = p.records := by
  have hst := State.party?_onParty_self (s := { s.tick with issued := s.laneIssued uid gid }) hp (f := (·.stamped gid s.clock.toNat)) fun _ => rfl
  have hadv := State.party?_onParty_self ((State.party?_countParty _ uid 0x02 1 uid).trans hst) (f := (·.goOn gid r)) fun p => p.goOn_uid _ _
  obtain rfl := Option.some.inj (hq.symm.trans ((congrArg (State.party? · uid) (s.advance_eq uid gid r)).trans hadv))
  unfold Party.goOn
  cases (p.stamped gid s.clock.toNat).gang? gid <;> rfl

theorem State.party?_onOutrider (s : State) (c : CoreRef) (g : Outrider → Outrider) (u : Nat) : (s.onOutrider c g).party? u = s.party? u := rfl

section Records

variable {s : State} {h : Head} {d : Opnd} {x : Turn} {f : Fibre}

/-- Gang `x` is given words for D of an instruction that it goes on past. -/
def State.giveWords (s : State) (x : Turn) (i : Instr) (insn : Nat) (dest : List DestReg) (ws : List Word) : State :=
  (s.owe x i insn none dest ws).advance x.uid x.gid i.raw

theorem State.flight_giveWords (s : State) (x : Turn) (i : Instr) (insn : Nat) (dest : List DestReg) (ws : List Word) :
    ∃ c, (s.giveWords x i insn dest ws).flight = s.flight ++ [c] ∧ c.dest = dest ∧ c.op = .value ws :=
  ⟨_, (State.flight_advance _ x i.raw).trans rfl, rfl, rfl⟩

theorem State.records_giveWords {s : State} {x : Turn} {p q : Party} (hp : s.party? x.uid = some p) {i : Instr} {insn : Nat} {dest : List DestReg}
    {ws : List Word} (hq : (s.giveWords x i insn dest ws).party? x.uid = some q) : q.records = p.records :=
  State.records_advance (s := s.owe x i insn none dest ws) hp i.raw hq

/-- Since when the gang waits for a record: since now where it has not waited. -/
def State.rqSince (s : State) (x : Turn) : Nat := match x.g.wait with | some (.rqpop n _) => n | _ => s.nextId

theorem State.rqSince_of_not_waiting (hw : ¬∃ n k, x.g.wait = some (.rqpop n k)) : s.rqSince x = s.nextId := by
  unfold State.rqSince
  split
  next hwait => exact absurd ⟨_, _, hwait⟩ hw
  next => rfl

/-- What a gang whose turn it is at its party's records does: it takes the oldest; with none it waits for the Outrider, or is told that none runs. -/
def State.rqTake (s : State) (x : Turn) (i : Instr) (insn since : Nat) (dest : List DestReg) : State :=
  match x.p.records with
  | r :: rs => ((s.onParty x.uid fun p => { p with records := rs }).onOutrider x.p.core fun o =>
      if o.uid = x.uid then { o with recs := { o.recs with out := o.recs.out - 1 } } else o).giveWords x i insn dest (recordWords r)
  | [] => if s.outriderRuns x.p then s.hold x.uid x.gid (.rqpop since s.changes) else s.giveWords x i insn dest [0, 0, 0, 0x80000000]

theorem State.rqTake_cons {p : Party} (hp : s.party? x.uid = some p) {r : BitVec 128} {rs : List (BitVec 128)} (hr : x.p.records = r :: rs) (i : Instr)
    (insn since : Nat) (dest : List DestReg) :
    (∀ q, (s.rqTake x i insn since dest).party? x.uid = some q → q.records = rs) ∧
    ∃ c, (s.rqTake x i insn since dest).flight = s.flight ++ [c] ∧ c.dest = dest ∧ c.op = .value (recordWords r) := by
  simp only [State.rqTake, hr]
  have hpt := State.party?_onParty_self hp (f := fun p => { p with records := rs }) fun _ => rfl
  exact ⟨fun q hq => State.records_giveWords (p := { p with records := rs }) ((State.party?_onOutrider ..).trans hpt) hq, State.flight_giveWords ..⟩

theorem State.rqTake_nil (hr : x.p.records = []) (ho : s.outriderRuns x.p = false) (i : Instr) (insn since : Nat) (dest : List DestReg) :
    ∃ c, (s.rqTake x i insn since dest).flight = s.flight ++ [c] ∧ c.dest = dest ∧ c.op = .value [0, 0, 0, 0x80000000] := by
  rw [State.rqTake, hr]
  simp only [ho, Bool.false_eq_true, if_false]
  exact State.flight_giveWords ..

/-- A gang that waited at the records already, or that nobody has overtaken there, has its turn; `sv` is what has been served in this clk. -/
theorem exec_rqpop (c : s.Clear (.rqpop h d) x) (hf : supplier x.ms = some f) (hb : x.p.rqBefore x.gid (s.rqSince x) = false)
    (hturn : (∃ n k, x.g.wait = some (.rqpop n k)) ∨ s.overtaken (.records x.uid) x.g.crew = false) :
    ∃ sv, exec (.rqpop h d) s = .next
      (({ s.fresh.2 with served := sv } : State).rqTake x (.rqpop h d) s.nextId (s.rqSince x) (s.destOf x.p f d 4)) := by
  rw [show exec (.rqpop h d) s = _ from State.issue_clear c _]
  by_cases hw : ∃ n k, x.g.wait = some (.rqpop n k)
  · obtain ⟨n, k, hw⟩ := hw
    rw [show s.rqSince x = n by rw [State.rqSince, hw]] at hb ⊢
    refine ⟨s.served, ?_⟩
    simp only [hf, hw, hb, Bool.false_and, Bool.false_eq_true, if_false]
    unfold State.rqTake
    cases x.p.records with
    | cons => rfl
    | nil => exact (apply_ite Host.Outcome.next _ _ _).symm
  · rw [State.rqSince_of_not_waiting hw] at hb ⊢
    refine ⟨(s.fresh.2.serve (.records x.uid) x.g.crew).served, ?_⟩
    simp only [hf]
    split
    next hwait => exact absurd ⟨_, _, hwait⟩ hw
    next =>
      have hb' : x.p.rqBefore x.gid s.fresh.1 = false := hb
      simp only [hturn.resolve_left hw, hb', Bool.and_false, Bool.false_eq_true, if_false, if_true]
      unfold State.rqTake
      cases x.p.records with
      | cons => rfl
      | nil => exact (apply_ite Host.Outcome.next _ _ _).symm

end Records

end Sys2Proof.Machine

namespace Sys2Proof

open Sys2Proof.Machine

/-- Settles O23: each form's arm where nothing holds it back. -/
theorem queueForms : Obligations.QueueForms := by
  intro s h d a b x f hf
  refine ⟨exec_fetchw, fun c => ⟨exec_launch_unknown c hf, fun hq => ?_⟩, fun c hb hturn => ?_⟩
  · obtain ⟨id, hleft⟩ := State.launchGo_leaves c.turn (.launch h d a b) (read64 s x.p x.g f (.op a)) (read32 s x.p x.g f (.op b)) (s.destOf x.p f d 1)
    exact ⟨_, id, exec_launch_known c hf hq, hleft⟩
  · obtain ⟨-, hp, -⟩ := State.turnOf_some c.turn
    obtain ⟨sv, hrun⟩ := exec_rqpop c hf hb hturn
    exact ⟨fun r rs hr => ⟨_, hrun, State.rqTake_cons (s := { s.fresh.2 with served := sv }) hp hr _ _ _ _⟩,
      fun hr ho => ⟨_, hrun, State.rqTake_nil (s := { s.fresh.2 with served := sv }) hr ho _ _ _ _⟩⟩

end Sys2Proof

namespace Sys2Proof.Machine

/-! ### Mill and slot forms (07 R143, R144, R160, R168, 12 R263) -/

/-- Memory, the lane files and the cores of two states are the same. -/
structure State.SameFiles (s t : State) : Prop where
  mem   : t.mem = s.mem
  regs  : t.regs = s.regs
  cores : t.cores = s.cores

theorem State.SameFiles.refl (s : State) : s.SameFiles s := ⟨rfl, rfl, rfl⟩

theorem State.SameFiles.trans {s t u : State} (h : s.SameFiles t) (k : t.SameFiles u) : s.SameFiles u :=
  ⟨k.mem.trans h.mem, k.regs.trans h.regs, k.cores.trans h.cores⟩

/-- The block a form names starts at a multiple of 16 and ends inside the segment of space g (07 R143). -/
def MillForm.Fits (f : MillForm) (p : Party) : Prop := f.size = 0 ∨ (f.off % 16 = 0 ∧ f.off + f.size ≤ (p.segLim.getD 0 0).toNat)

theorem blockCheck_of_fits {p : Party} {f : MillForm} (h : f.Fits p) : blockCheck p f = 0 := by
  obtain hsize | ⟨hoff, hend⟩ := h
  · exact if_pos hsize
  · rw [blockCheck, if_neg (not_not.2 hoff), if_neg (Nat.not_lt.2 hend), ite_self]

theorem blockCheck_of_not_fits {p : Party} {f : MillForm} (h : ¬f.Fits p) : blockCheck p f = if f.off % 16 ≠ 0 then 0x07 else 0x05 := by
  obtain ⟨hsize, hblock⟩ := not_or.1 h
  rw [blockCheck, if_neg hsize]
  split
  case isTrue => rfl
  case isFalse hoff => exact if_pos (Nat.not_le.1 fun hend => hblock ⟨not_not.1 hoff, hend⟩)

theorem Mill.full_eq_false {m : Mill} (hspill : m.spilling = none) (hroom : m.queue.length < 16) : m.full = false := by
  simp [Mill.full, hspill, hroom]

theorem Mill.foreign_of_other {m : Mill} {ctx o : Nat} (h : m.owner = some o) (ho : o ≠ ctx) : m.foreign ctx = true := by
  simp [Mill.foreign, h, ho]

section Mill

variable {s : State} {i : Instr} {x : Turn} {f : MillForm}

/-! #### What accepting a command changes -/

theorem State.sameFiles_oweResults (s : State) (x : Turn) (i : Instr) (insn : Nat) (f : MillForm) (rows : Fibre → List DestReg) :
    s.SameFiles (s.oweResults x i insn f rows) := by
  unfold State.oweResults
  cases f.res with
  | handle | none => exact .refl s
  | words n => cases supplier x.ms <;> exact ⟨rfl, rfl, rfl⟩
  | rows => exact List.foldlRecOn _ _ (.refl s) fun t ht _ _ => ht.trans ⟨rfl, rfl, rfl⟩

/-- A core whose Mill has a command queued is a listed one, whatever the table held. -/
theorem State.core_onMill_of_ne_nil (s : State) (c : CoreRef) (g : Mill → Mill) (h : (g (s.core c).mill).queue ≠ []) :
    (s.onMill c g).core c = { s.core c with mill := g (s.core c).mill } := by
  have hne : { s.core c with mill := g (s.core c).mill } ≠ ({} : Core) := fun hk => h (congrArg (fun k : Core => k.mill.queue) hk)
  rw [State.onMill, State.onCore, State.setCore, State.core, sset, if_neg hne, sget_sput_self]

/-- The command that an accepted form queues. -/
structure MillCmd.Queues (cmd : MillCmd) (x : Turn) (f : MillForm) : Prop where
  op     : cmd.op = f.op
  uid    : cmd.uid = x.uid
  ctx    : cmd.ctx = x.p.ctx
  owed   : cmd.owed = x.p.queuedStores x.g.crew
  future : cmd.future = if f.res = .handle then x.p.freeFuture else none

/-- Beside one command at the end of its Mill's queue, and the owner, an acceptance changes no byte, register or core. -/
theorem State.millAccept_queues (s : State) (i : Instr) (x : Turn) (f : MillForm) (rows : Fibre → List DestReg) :
    ∃ s' cmd, s.SameFiles s' ∧ cmd.Queues x f ∧ s.millAccept i x f rows =
      s'.onMill x.p.core fun m => { m with queue := m.queue ++ [cmd], owner := some (m.owner.getD x.p.ctx) } := by
  have hfresh : s.SameFiles s.fresh.2.fresh.2 := ⟨rfl, rfl, rfl⟩
  refine ⟨_, _, ?_, ⟨rfl, rfl, rfl, rfl, ?_⟩, rfl⟩
  · split
    · cases supplier x.ms <;> exact ⟨rfl, rfl, rfl⟩
    · exact hfresh.trans (State.sameFiles_oweResults ..)
  · simp only [beq_iff_eq]

theorem State.mill_advance (s : State) (x : Turn) (r : Raw) (c : CoreRef) : ((s.advance x.uid x.gid r).core c).mill = (s.core c).mill :=
  (congrArg Core.mill ((s.sameDevice_advance x r).cores c) :)

/-- What an accepted form leaves when its gang has gone on. -/
theorem State.millAccept_advance (s : State) (i : Instr) (x : Turn) (f : MillForm) (rows : Fibre → List DestReg) (r : Raw) :
    let t := (s.millAccept i x f rows).advance x.uid x.gid r
    SameBytes s t ∧ t.regs = s.regs ∧ ∃ cmd, cmd.Queues x f ∧
      (t.core x.p.core).mill.queue = (s.core x.p.core).mill.queue ++ [cmd] ∧
      (t.core x.p.core).mill.owner = some ((s.core x.p.core).mill.owner.getD x.p.ctx) := by
  intro t
  obtain ⟨s', cmd, hsame, hcmd, hacc⟩ := s.millAccept_queues i x f rows
  have hcore : s'.core x.p.core = s.core x.p.core := by rw [State.core, hsame.cores]; rfl
  have hmill : (t.core x.p.core).mill =
      { (s.core x.p.core).mill with queue := (s.core x.p.core).mill.queue ++ [cmd], owner := some ((s.core x.p.core).mill.owner.getD x.p.ctx) } := by
    rw [State.mill_advance, hacc, State.core_onMill_of_ne_nil _ _ _ (by simp), hcore]
  refine ⟨fun loc => ?_, ?_, cmd, hcmd, congrArg Mill.queue hmill, congrArg Mill.owner hmill⟩
  · rw [State.sameDevice_advance _ x r |>.sameBytes loc, hacc, State.byteAt, State.onMill_mem, hsame.mem, ← State.byteAt]
  · rw [State.regs_advance, hacc, State.onMill_regs, hsame.regs]

/-! #### Steps 2 to 5 of 07 R143 -/

theorem State.millTry_accepts (hfit : f.Fits x.p) (hown : ∀ o, (s.core x.p.core).mill.owner = some o → o = x.p.ctx)
    (hfull : (s.core x.p.core).mill.full = false) (hwait : s.engineWaits x.p.core .mill x.uid = false)
    (hturn : s.overtaken (.engine x.p.core .mill) (requestPlace x.g.effective x.g.crew) = false)
    (hfut : f.res = .handle → x.p.freeFuture.isSome = true) :
    s.millTry i x f false = (true,
      ((s.serve (.engine x.p.core .mill) (requestPlace x.g.effective x.g.crew)).unawait x.p.core x.uid x.gid).millAccept i x f
        fun g => s.destOf x.p g f.d 4) := by
  have hroom : (f.res == .handle && x.p.freeFuture.isNone) = false := by
    rw [Bool.and_eq_false_imp]
    exact fun hr => Option.isNone_eq_false_iff.2 (hfut (eq_of_beq hr))
  simp [State.millTry, blockCheck_of_fits hfit, Mill.foreign_of_owner hown, hturn, hfull, hwait, hroom]

theorem State.millTry_badBlock (hfit : ¬f.Fits x.p) :
    s.millTry i x f false = (false, (s.unawait x.p.core x.uid x.gid).faultAt x.uid x.gid (nextPc x.pc i.raw)
      (s.millLog i x f (if f.off % 16 ≠ 0 then 0x07 else 0x05) 0)) := by
  have hbad := blockCheck_of_not_fits hfit
  have hne : blockCheck x.p f ≠ 0 := by rw [hbad]; split <;> decide
  rw [State.millTry, if_pos hne, hbad]

theorem State.millTry_otherOwner (hfit : f.Fits x.p) {o : Nat} (hown : (s.core x.p.core).mill.owner = some o) (ho : o ≠ x.p.ctx)
    (hmem : (s.core x.p.core).mill.isMember = false) :
    s.millTry i x f false = (false, (s.unawait x.p.core x.uid x.gid).faultAt x.uid x.gid (nextPc x.pc i.raw) (s.millLog i x f 0x0D o)) := by
  simp [State.millTry, blockCheck_of_fits hfit, Mill.foreign_of_other hown ho, hmem, hown]

theorem State.millTry_otherOwner_member (hfit : f.Fits x.p) {o : Nat} (hown : (s.core x.p.core).mill.owner = some o) (ho : o ≠ x.p.ctx)
    (hmem : (s.core x.p.core).mill.isMember = true) :
    s.millTry i x f false = (false, (s.unawait x.p.core x.uid x.gid).holdAgain x.uid x.gid) := by
  simp [State.millTry, blockCheck_of_fits hfit, Mill.foreign_of_other hown ho, hmem]

/-! #### The instructions of groups 0xA and 0xB -/

/-- An instruction with a Mill form issues as one. -/
theorem exec_eq_millIssue {a : Nat} (hf : millFormOf i a = some f) (s : State) : exec i s = s.millIssue i := by
  unfold millFormOf at hf
  dsimp only at hf
  split at hf
  iterate 13 exact rfl
  cases hf

theorem exec_millForm (hf : millFormOf i (((millOperand i).map (uniform32 s x)).getD 0) = some f) (c : s.Clear i x) :
    exec i s = .next (if (s.millTry i x f false).1 then (s.millTry i x f false).2.advance x.uid x.gid i.raw else (s.millTry i x f false).2) := by
  rw [exec_eq_millIssue hf, State.millIssue, State.issue_clear c]
  simp only [hf]

end Mill

end Sys2Proof.Machine

namespace Sys2Proof

open Sys2Proof.Machine

/-- Settles O43: the thirteen instructions are those of `millFormOf`, and each outcome is one branch of `millTry`. -/
theorem millForms : Obligations.MillForms := by
  intro s h ty d a y nh len mask acc mem x arg arga res forms m line place u out e he c f t fits
  have hform : millFormOf e.1 (((millOperand e.1).map (uniform32 s x)).getD 0) = some f := by
    simp only [forms, List.mem_cons, List.not_mem_nil, or_false] at he
    obtain rfl | rfl | rfl | rfl | rfl | rfl | rfl | rfl | rfl | rfl | rfl | rfl | rfl := he
    all_goals rfl
  have hexec := exec_millForm hform c
  refine ⟨fun hfit hown hspill hroom hwait hturn hfut => ?_, fun hfit => ?_, fun o hfit hown ho => ⟨fun hmem => ?_, fun hmem => ?_⟩⟩
  · rw [State.millTry_accepts hfit hown (Mill.full_eq_false hspill hroom) hwait hturn hfut] at hexec
    obtain ⟨hbytes, hregs, cmd, hcmd, hqueue, howner⟩ := u.millAccept_advance e.1 x f (fun g => s.destOf x.p g f.d 4) e.1.raw
    exact ⟨hexec, hbytes, hregs, cmd, hqueue, hcmd.op, hcmd.uid, hcmd.ctx, hcmd.owed, hcmd.future, howner⟩
  · rw [State.millTry_badBlock hfit] at hexec
    exact hexec
  · rw [State.millTry_otherOwner hfit hown ho hmem] at hexec
    exact hexec
  · rw [State.millTry_otherOwner_member hfit hown ho hmem] at hexec
    exact hexec

end Sys2Proof

namespace Sys2Proof.Machine

/-! ### Where words issue (02 R31, R34, R40, 10 R222) -/

section Issue

variable {s : State} {i : Instr} {x : Turn}

/-- A word of a gang issues: a privileged one at level S only. -/
def State.Issues (s : State) (i : Instr) : Prop :=
  ∃ go, exec i s = s.issue i go ∨ (privileged i = true ∧ exec i s = s.privIssue i go)

theorem State.Issues.of_issue {go : Turn → Out} (h : exec i s = s.issue i go) : s.Issues i := ⟨go, .inl h⟩

/-- The same of a form that the Outrider has too. -/
theorem State.Issues.of_shared (hs : s.inOutrider = false) {o : Out} {go : Turn → Out} (h : exec i s = if s.inOutrider then o else s.issue i go) :
    s.Issues i := .of_issue (h.trans (if_neg (by simp [hs])))

theorem State.Issues.of_privIssue {go : Turn → Out} (hp : privileged i = true) (h : exec i s = s.privIssue i go) : s.Issues i := ⟨go, .inr ⟨hp, h⟩⟩

/-- A transfer issues whether its condition is the gang's or each fibre's. -/
theorem State.branchForm_issues (s : State) (i : Instr) (c : BrCond) (link : Option Opnd) (tgt : Turn → Fibre → Word) :
    ∃ go, s.branchForm i c link tgt = s.issue i go := by
  unfold State.branchForm
  split
  exacts [⟨_, rfl⟩, ⟨_, rfl⟩]

theorem State.Issues.of_branchForm {c : BrCond} {link : Option Opnd} {tgt : Turn → Fibre → Word} (h : exec i s = s.branchForm i c link tgt) : s.Issues i := by
  obtain ⟨go, hgo⟩ := s.branchForm_issues i c link tgt
  exact .of_issue (h.trans hgo)

theorem exec_outriderOnly (ho : i.outriderOnly = true) (s : State) : ∃ f, exec i s = s.olRun f := by
  cases i with
  | olfor | olnext | olpostMill | olpostPort | olpostRec | olpermit => exact ⟨_, rfl⟩
  | _ => cases ho

theorem State.issues_of_word (hw : i.isWord = true) (ho : i.outriderOnly = false) (hs : s.inOutrider = false) : s.Issues i := by
  cases i with
  | iadd | isub | imul | mov | and | or | shl | shr | nop | exit => exact .of_shared hs rfl
  | bra => exact .of_branchForm (if_neg (by simp [hs]))
  | brx => exact .of_branchForm (exec_brx ..)
  | call => exact .of_branchForm (exec_call ..)
  | ret => exact .of_branchForm (exec_ret ..)
  | syswr | segwr | rngwr | rngwrClr | tcinvRange | tcinvRegion | tcinvCtx | tcinvRank | mspill | mfill =>
    exact .of_privIssue (by dsimp only [privileged, Instr.raw, enc1, enc2, encR, enc]; decide) rfl
  | olfor | olnext | olpostMill | olpostPort | olpostRec | olpermit => cases ho
  | imulhi | imad | idiv | irem | imin | imax | iabs | ineg | isad | sel | xor | not | sar | rotl | popc | clz | brev | bfe | bfi | lea | lop3
  | cmp | fcmp | ppush | ppop | pmov | pset | plop | fadd | fsub | fmul | ffma | fmin | fmax | fdiv | frcp | frsq | fsqrt | fexp2 | flog2 | fsin | fcos
  | faddF64 | fsubF64 | fmulF64 | ffmaF64 | fminF64 | fmaxF64 | fdivF64 | frcpF64 | frsqF64 | fsqrtF64
  | cvt | dot2 | dot4 | padd | pmax | pmin | pack | unpack | seed | vote | shfl | bcast | scan | fold
  | spawn | meet | xgrow | xshrink | fetchw | launch | rqpop | ld | st | pref | cflush | cinval | atom | atomcas | fence | xfence
  | mload | mswap | mrun | mchainLink | mchainJoin | mchainUnlink | mepi | maccz | maccrd | mdelta | slotbind | slotdrop | slotq
  | lseal | tcopy | a2av | bseal | bwait | cntRd | cntAdd | cntSet | cntwait | trigTcopy | trigA2av | trigAdd | trigCancel
  | ftest | fwait | fcancel | trap | sysrd | eret => exact .of_issue rfl
  | _ => cases hw

/-- A word that the level allows issues as any other. -/
theorem State.Issues.exec_eq_issue (h : s.Issues i) (ht : s.turnOf = some x) (hl : x.g.level = true ∨ privileged i = false) :
    ∃ go, exec i s = s.issue i go := by
  obtain ⟨go, h | ⟨hp, h⟩⟩ := h
  · exact ⟨go, h⟩
  · have hS : x.g.level = true := hl.resolve_right (by simp [hp])
    exact ⟨go, h.trans (by simp [State.privIssue, ht, hS])⟩

section Agentless

variable (ha : s.agent = .none)
include ha

theorem State.turnOf_agentless : s.turnOf = none := by simp [State.turnOf, ha]

theorem State.issue_agentless (i : Instr) (go : Turn → Out) : s.issue i go = .refused .noIssuer := by simp [State.issue, State.turnOf_agentless ha]

theorem State.privIssue_agentless (i : Instr) (go : Turn → Out) : s.privIssue i go = .refused .noIssuer := by
  simp [State.privIssue, State.turnOf_agentless ha]

theorem State.olRun_agentless (f : CoreRef → Outrider → State) : s.olRun f = .refused .noIssuer := by simp [State.olRun, State.olOf, ha]

/-- With nobody to issue it, a word of a gang or of the Outrider is refused. -/
theorem exec_agentless (hw : i.isWord = true) : exec i s = .refused .noIssuer := by
  cases ho : i.outriderOnly with
  | true =>
    obtain ⟨f, h⟩ := exec_outriderOnly ho s
    rw [h, State.olRun_agentless ha]
  | false =>
    obtain ⟨go, h | ⟨-, h⟩⟩ := State.issues_of_word (s := s) hw ho (by simp [State.inOutrider, ha])
    · rw [h, State.issue_agentless ha]
    · rw [h, State.privIssue_agentless ha]

end Agentless

end Issue

end Sys2Proof.Machine

namespace Sys2Proof

open Sys2Proof.Machine

/-- Settles O17: every word of a gang goes through `State.issue`, which asks for the three in their order. -/
theorem issueHeldBack : Obligations.IssueHeldBack := by
  refine ⟨fun s i hw ha => exec_agentless ha hw, fun s i x hw ho ht hl => ?_⟩
  obtain ⟨go, h⟩ := (State.issues_of_word hw ho (State.inOutrider_of_turn ht)).exec_eq_issue ht hl
  rw [h, State.issue, ht]
  refine ⟨fun htake => ?_, fun htake hmark hout => ?_, fun htake hmark hwin => ?_⟩
  · exact if_pos htake
  · simp [htake, hmark, hout]
  · have hwait : (i.head.w && s.outstanding x.uid x.g) = false := by simpa using hmark
    simp [htake, hwait, hwin]

end Sys2Proof

namespace Sys2Proof

open Sys2Proof.Machine

/-- Settles O27: the four forms issue through `State.memIssue`, each with its own request. -/
theorem memoryForms : Obligations.MemoryForms := by
  intro s h d a b c m e off se sd x disp addr n w stat ra rv base forms r hr hc hp
  have haddr : ∀ k, memAddr s x m.sp a k = addr k := fun k => funext fun f => by simp only [memAddr, addr, beq_iff_eq]
  have hdisp : MemOff e = disp := by cases e <;> rfl
  have hreq : ∃ req, exec r.1 s = s.memIssue r.1 req ∧ req x = r.2 := by
    simp only [forms, List.mem_cons, List.not_mem_nil, or_false] at hr
    obtain rfl | rfl | rfl | rfl := hr
    all_goals
      refine ⟨_, rfl, ?_⟩
      simp only [haddr, hdisp]
      rfl
  obtain ⟨req, hexec, hreq⟩ := hreq
  have hord : r.2.ord = m.ord := by
    simp only [forms, List.mem_cons, List.not_mem_nil, or_false] at hr
    obtain rfl | rfl | rfl | rfl := hr
    all_goals rfl
  have hmem := State.memIssue_clear hc req hp
  rw [← hexec, hreq, hord] at hmem
  exact hmem

end Sys2Proof

namespace Sys2Proof.Machine

/-! ### The values of atomics (10 R219) -/

section AtomicValues

variable {t : Ty} {o b : Nat}

theorem bit_eq_testBit (u k : Nat) : bit u k = u.testBit k := by
  rw [Nat.testBit_eq_decide_div_mod_eq]
  rfl

/-- The signed value of w bits is their unsigned one modulo 2^w. -/
theorem tyVal_modEq (t : Ty) (u : Nat) : tyVal t u ≡ u [ZMOD 2 ^ t.width] := by
  unfold tyVal
  split
  · exact Int.modEq_iff_dvd.2 ⟨1, by ring⟩
  · rfl

theorem tyVal_mod_modEq (t : Ty) (u : Nat) : tyVal t (u % 2 ^ t.width) ≡ u [ZMOD 2 ^ t.width] := by
  refine (tyVal_modEq t _).trans ?_
  push_cast
  exact Int.mod_modEq _ _

theorem Ty.not_isFloat_of_isInt (h : t.isInt = true) : t.isFloat = false := by
  revert h
  cases t <;> simp [Ty.isInt, Ty.isI, Ty.isN, Ty.signed, Ty.isFloat]

theorem atomValue_add_modEq (hf : t.isFloat = false) : tyVal t (atomValue .add t o b) ≡ tyVal t o + tyVal t b [ZMOD 2 ^ t.width] := by
  have hval : atomValue .add t o b = (o + b) % 2 ^ t.width := by simp [atomValue, hf]
  rw [hval]
  refine (tyVal_mod_modEq t _).trans ?_
  push_cast
  exact ((tyVal_modEq t o).add (tyVal_modEq t b)).symm

theorem atomValue_sub_modEq (hb : b < 2 ^ t.width) : tyVal t (atomValue .sub t o b) ≡ tyVal t o - tyVal t b [ZMOD 2 ^ t.width] := by
  refine (tyVal_mod_modEq t _).trans ?_
  have hcast : ((o + 2 ^ t.width - b : Nat) : Int) = (o - b : Int) + 2 ^ t.width := by
    rw [Nat.cast_sub (by omega)]
    push_cast
    ring
  rw [hcast]
  exact Int.add_modEq_right.trans ((tyVal_modEq t o).sub (tyVal_modEq t b)).symm

theorem tyVal_atomValue_min (hf : t.isFloat = false) : tyVal t (atomValue .min t o b) = min (tyVal t o) (tyVal t b) := by
  simp only [atomValue, hf, Bool.false_eq_true, if_false]
  split
  · rw [min_eq_right (by omega)]
  · rw [min_eq_left (by omega)]

theorem tyVal_atomValue_max (hf : t.isFloat = false) : tyVal t (atomValue .max t o b) = max (tyVal t o) (tyVal t b) := by
  simp only [atomValue, hf, Bool.false_eq_true, if_false]
  split
  · rw [max_eq_right (by omega)]
  · rw [max_eq_left (by omega)]

/-- The bitwise forms, on patterns of any type. -/
theorem bit_atomValue (k : Nat) : bit (atomValue .and t o b) k = (bit o k && bit b k) ∧ bit (atomValue .or t o b) k = (bit o k || bit b k) ∧
    bit (atomValue .xor t o b) k = (bit o k != bit b k) := by
  simp only [bit_eq_testBit]
  exact ⟨Nat.testBit_and .., Nat.testBit_or .., Nat.testBit_xor ..⟩

/-- Values of w bits give a value of w bits. -/
theorem atomValue_lt {op : Aop} (ho : o < 2 ^ t.width) (hb : b < 2 ^ t.width) (hf : t.isFloat = false) (hop : ∀ n, op ≠ .rsv n) :
    atomValue op t o b < 2 ^ t.width := by
  have hpos := Nat.two_pow_pos t.width
  cases op with
  | add => simpa [atomValue, hf] using Nat.mod_lt _ hpos
  | sub => exact Nat.mod_lt _ hpos
  | min | max =>
    simp only [atomValue, hf, Bool.false_eq_true, if_false]
    split <;> assumption
  | and => exact Nat.and_lt_two_pow _ hb
  | or => exact Nat.or_lt_two_pow ho hb
  | xor => exact Nat.xor_lt_two_pow ho hb
  | exch => exact hb
  | inc | dec =>
    simp only [atomValue]
    split <;> omega
  | rsv n => exact absurd rfl (hop n)

end AtomicValues

end Sys2Proof.Machine

namespace Sys2Proof

open Sys2Proof.Machine

/-- Settles O31: each operation's own lemma, the sums modulo 2^w. -/
theorem atomicValues : Obligations.AtomicValues := by
  intro t o b ho hb m
  refine ⟨fun hi => ?_, ⟨rfl, fun k => bit_atomValue k⟩, fun hf => ?_, fun op hf hop => ?_⟩
  · have hf := Ty.not_isFloat_of_isInt hi
    exact ⟨Int.emod_eq_emod_iff_emod_sub_eq_zero.1 (atomValue_add_modEq hf), Int.emod_eq_emod_iff_emod_sub_eq_zero.1 (atomValue_sub_modEq hb),
      tyVal_atomValue_min hf, tyVal_atomValue_max hf, rfl, rfl⟩
  · exact ⟨if_pos hf, if_pos hf, if_pos hf⟩
  · have hlt := atomValue_lt ho hb hf hop
    show (atomValue op t o b : Int) < 2 ^ t.width
    exact mod_cast hlt

end Sys2Proof

namespace Sys2Proof.Machine

/-! ### Caches and fences (10 R217, R218, R224, R225) -/

section Caches

variable {s : State} {i : Instr} {x : Turn} {a b : Opnd} {f : Fibre}

/-- A local address: of no rank, of the rank that names the device itself, or of the device's own rank in the job (08 R171). -/
def Turn.Here (x : Turn) (y : DWord) : Prop := y.getLsbD 63 = false ∨ fld y 62 46 = rankSelf ∨ fld y 62 46 = x.p.rank

/-- A range register of the context in which the gang's accesses to space g translate maps the byte. -/
def State.Maps (s : State) (x : Turn) (y : DWord) : Prop :=
  ∃ c, s.ctx? (if x.g.level then s.sys.sctx else x.p.ctx) = some c ∧ c.inRange (fld y 45 0) = true

theorem State.maps_iff (s : State) (x : Turn) (y : DWord) :
    s.Maps x y ↔ ((s.ctx? (s.accessCtx x.p x.g.level .g)).any fun c => c.inRange (fld y 45 0)) = true := by
  rw [State.Maps, State.accessCtx, beq_self_eq_true, Bool.and_true, Option.any_eq_true]

theorem Turn.here_iff (x : Turn) (y : DWord) : x.Here y ↔ (!y.getLsbD 63 || fld y 62 46 == rankSelf || fld y 62 46 == x.p.rank) = true := by
  simp [Turn.Here, or_assoc]

theorem State.cacheForm_clear (c : s.Clear i x) (hf : supplier x.ms = some f) :
    s.cacheForm i a b = .next (s.conclude x i (s.cacheTry x i (read64 s x.p x.g f (.op a)) (read32 s x.p x.g f (.op b)))) := by
  rw [State.cacheForm, s.issue_clear c]
  simp only [hf]

variable {y : DWord} {n : Nat}

theorem State.cacheTry_nothing (s : State) (x : Turn) (i : Instr) (y : DWord) : s.cacheTry x i y 0 = .go s := rfl

theorem State.cacheTry_badForm (hn : n ≠ 0) (hb : y.getLsbD 63 = false) (hr : fld y 62 46 ≠ 0) :
    s.cacheTry x i y n = .fault (x.faultLog i 0x08 [y, w64 n] y) s := by
  have hform : (!y.getLsbD 63 && fld y 62 46 != 0) = true := by rw [hb]; simpa using hr
  simp only [State.cacheTry, hn, hform, if_false, if_true]
  rfl

theorem State.cacheTry_unmapped (hn : n ≠ 0) (hb : y.getLsbD 63 = true ∨ fld y 62 46 = 0) (hh : x.Here y) (hm : ¬s.Maps x y) :
    s.cacheTry x i y n = .fault (x.faultLog i 0x0A [y, w64 n] y) s := by
  have hform : (!y.getLsbD 63 && fld y 62 46 != 0) = false := by rcases hb with h | h <;> simp [h]
  rw [Turn.here_iff] at hh
  rw [State.maps_iff, Bool.not_eq_true] at hm
  simp only [State.cacheTry, hn, hform, hh, hm, checkClass]
  rfl

theorem State.cacheTry_mapped (hb : y.getLsbD 63 = true ∨ fld y 62 46 = 0) (hm : x.Here y → s.Maps x y) : s.cacheTry x i y n = .go s := by
  have hform : (!y.getLsbD 63 && fld y 62 46 != 0) = false := by rcases hb with h | h <;> simp [h]
  have hheld : ((!y.getLsbD 63 || fld y 62 46 == rankSelf || fld y 62 46 == x.p.rank) &&
      !((s.ctx? (s.accessCtx x.p x.g.level .g)).any fun c => c.inRange (fld y 45 0))) = false := by
    rw [Turn.here_iff, State.maps_iff] at hm
    rw [Bool.and_eq_false_imp]
    intro h
    rw [hm h]
    rfl
  simp only [State.cacheTry, hform, hheld, Bool.false_eq_true, if_false, ite_self]

end Caches

section Fences

variable {s : State} {h : Head} {ord : Ord} {sc : Scope} {ca cb : PathClass} {x : Turn}

/-- What fences leave alone: memory, the lane registers, the accesses in flight, the dies and the system registers. -/
structure State.SameStores (s t : State) : Prop where
  mem    : t.mem = s.mem
  regs   : t.regs = s.regs
  flight : t.flight = s.flight
  dies   : t.dies = s.dies
  sys    : t.sys = s.sys

theorem State.SameStores.refl (s : State) : s.SameStores s := ⟨rfl, rfl, rfl, rfl, rfl⟩

theorem State.SameStores.trans {s t u : State} (h : s.SameStores t) (k : t.SameStores u) : s.SameStores u :=
  ⟨k.mem.trans h.mem, k.regs.trans h.regs, k.flight.trans h.flight, k.dies.trans h.dies, k.sys.trans h.sys⟩

theorem State.sameStores_foldl {α : Type} {f : State → α → State} (hf : ∀ (s : State) a, s.SameStores (f s a)) (l : List α) :
    ∀ s : State, s.SameStores (l.foldl f s) := by
  induction l with
  | nil => exact .refl
  | cons a l ih => exact fun s => (hf s a).trans (ih _)

theorem State.sameStores_onParty (s : State) (u : Nat) (f : Party → Party) : s.SameStores (s.onParty u f) := ⟨rfl, rfl, rfl, rfl, rfl⟩

theorem State.sameStores_advance (s : State) (x : Turn) (r : Raw) : s.SameStores (s.advance x.uid x.gid r) :=
  have h := s.sameDevice_advance x r
  ⟨h.mem, s.regs_advance x r, s.flight_advance x r, h.dies, h.sys⟩

/-- A sequential fence takes its place in the order of fences, and other devices may be told. -/
theorem State.sameStores_scFences (s : State) (x : Turn) (sc : Scope) (fs : List Fibre) : s.SameStores (s.scFences x sc fs) :=
  State.sameStores_foldl (fun s _ => by
    dsimp only [State.scFence]
    split
    all_goals exact ⟨rfl, rfl, rfl, rfl, rfl⟩) fs s

/-- A fibre past a fence: what it has read as released is before its later accesses, and its next write releases. -/
def Fibre.fenced (x : Turn) (ord : Ord) (sc : Scope) (f : Fibre) : Fibre :=
  { f with view := if ord = .acq ∨ ord = .ar then f.base.acquire x.p.rank (fibreIssuer x.p f) sc f.lastRel else f.view
           relNext := if ord = .rel ∨ ord = .ar then some sc else f.relNext }

/-- The gang's fibres past a fence. -/
def State.fenceAll (s : State) (x : Turn) (ord : Ord) (sc : Scope) : State :=
  x.ms.foldl (fun (r : State) f => r.onFibre x.uid f.fid (Fibre.fenced x ord sc)) s

theorem State.sameStores_fenceAll (s : State) (x : Turn) (ord : Ord) (sc : Scope) : s.SameStores (s.fenceAll x ord sc) :=
  State.sameStores_foldl (fun s _ => s.sameStores_onParty x.uid _) x.ms s

/-- A fence that waits for nothing. -/
theorem exec_fence_passes (c : s.Clear (.fence h ord sc) x) (hp : s.pendingFaults x.uid x.g = [])
    (ha : ordAcquires ord = true → s.openReads x.uid x.g = false) (hr : ordReleases ord = true → s.covered x = true) :
    exec (.fence h ord sc) s =
      .next (((if ordSequential ord then s.scFences x sc x.ms else s).fenceAll x ord sc).advance x.uid x.gid (Instr.fence h ord sc).raw) := by
  have hwait : ((ordAcquires ord && s.openReads x.uid x.g) || (ordReleases ord && !s.covered x)) = false := by
    rw [Bool.or_eq_false_iff, Bool.and_eq_false_imp, Bool.and_eq_false_imp]
    exact ⟨ha, fun h => by rw [hr h]; rfl⟩
  have hrun : exec (.fence h ord sc) s = _ := s.issue_clear c _
  rw [hrun]
  simp only [hp, hwait, List.isEmpty_nil, Bool.not_true, Bool.false_eq_true, if_false]
  cases ord <;> rfl

/-- A fence that waits for accesses before it. -/
theorem exec_fence_waits (c : s.Clear (.fence h ord sc) x) (hp : s.pendingFaults x.uid x.g = [])
    (hw : ((ordAcquires ord && s.openReads x.uid x.g) || (ordReleases ord && !s.covered x)) = true) :
    exec (.fence h ord sc) s = .next (s.holdAgain x.uid x.gid) := by
  have hrun : exec (.fence h ord sc) s = _ := s.issue_clear c _
  rw [hrun]
  simp only [hp, hw, List.isEmpty_nil, Bool.not_true, Bool.false_eq_true, if_false, if_true]

theorem exec_xfence_same (c : s.Clear (.xfence h ca cb) x) (hab : ca = cb) :
    exec (.xfence h ca cb) s = .next (s.advance x.uid x.gid (Instr.xfence h ca cb).raw) := by
  have hrun : exec (.xfence h ca cb) s = _ := s.issue_clear c _
  rw [hrun, if_pos (beq_iff_eq.2 hab)]

theorem exec_xfence_waits (c : s.Clear (.xfence h .core cb) x) (hab : PathClass.core ≠ cb) (hp : s.pendingFaults x.uid x.g = [])
    (hc : s.covered x = false) : exec (.xfence h .core cb) s = .next (s.holdAgain x.uid x.gid) := by
  have hrun : exec (.xfence h .core cb) s = _ := s.issue_clear c _
  rw [hrun]
  simp [hab, hp, hc]

/-- An `xfence` that waits for nothing tells its second class what the first has done. -/
theorem exec_xfence_passes (c : s.Clear (.xfence h ca cb) x) (hab : ca ≠ cb)
    (hc : ca = .core → s.pendingFaults x.uid x.g = [] ∧ s.covered x = true) : ∃ t, exec (.xfence h ca cb) s = .next t ∧ s.SameStores t := by
  have hfault : (ca == .core && !(s.pendingFaults x.uid x.g).isEmpty) = false := by
    rw [Bool.and_eq_false_imp]
    intro h
    rw [(hc (beq_iff_eq.1 h)).1]
    rfl
  have hwait : (ca == .core && !s.covered x) = false := by
    rw [Bool.and_eq_false_imp]
    intro h
    rw [(hc (beq_iff_eq.1 h)).2]
    rfl
  have hrun : exec (.xfence h ca cb) s = _ := s.issue_clear c _
  simp only [beq_eq_false_iff_ne.2 hab, hfault, hwait, Bool.false_eq_true, if_false] at hrun
  refine ⟨_, hrun, State.SameStores.trans ?_ (State.sameStores_advance _ x _)⟩
  cases cb with
  | core => exact State.sameStores_foldl (fun s _ => s.sameStores_onParty x.uid _) x.ms s
  | mill | port | ol | fab | rsv => exact ⟨rfl, rfl, rfl, rfl, rfl⟩

end Fences

end Sys2Proof.Machine

namespace Sys2Proof

open Sys2Proof.Machine

/-- Settles O33: each form's arm where nothing holds it back. -/
theorem fencesAndCaches : Obligations.FencesAndCaches := by
  intro s h a b m off level ord sc ca cb x
  refine ⟨fun c => State.issueNext_clear c _, fun i hi c f hf => ?_, fun c hp => ⟨fun ⟨ha, hr⟩ => ⟨fun hsc => ?_, ?_⟩, fun hr hc => ?_, fun ha ho => ?_⟩,
    fun c => ⟨exec_xfence_same c, fun hc => ?_, fun hcore hab hp hc => ?_⟩⟩
  · have hexec : exec i s = .next (s.conclude x i (s.cacheTry x i (read64 s x.p x.g f (.op a)) (read32 s x.p x.g f (.op b)))) := by
      simp only [List.mem_cons, List.not_mem_nil, or_false] at hi
      obtain rfl | rfl := hi
      all_goals exact State.cacheForm_clear c hf
    refine ⟨fun hn => ?_, fun hn hb hr => ?_, fun hn hb hh hm => ?_, fun _ hb hm => ?_⟩
    · rw [hexec, hn, State.cacheTry_nothing]
      rfl
    · rw [hexec, State.cacheTry_badForm hn hb hr]
      rfl
    · rw [hexec, State.cacheTry_unmapped hn hb hh hm]
      rfl
    · rw [hexec, State.cacheTry_mapped hb hm]
      rfl
  · have hseq : ordSequential ord = false := by cases ord with
      | sc => exact absurd rfl hsc
      | relaxed | acq | rel | ar | rsv => rfl
    rw [exec_fence_passes c hp ha hr, hseq]
    rfl
  · have hfence : s.SameStores (if ordSequential ord then s.scFences x sc x.ms else s) := by
      split
      exacts [s.sameStores_scFences x sc x.ms, .refl s]
    obtain ⟨hmem, hregs, hflight, hdies, hsys⟩ :=
      (hfence.trans (State.sameStores_fenceAll _ x ord sc)).trans (State.sameStores_advance _ x (Instr.fence h ord sc).raw)
    exact ⟨_, exec_fence_passes c hp ha hr, hmem, hregs, hflight, hdies, hsys⟩
  · exact exec_fence_waits c hp (by simp [hr, hc])
  · exact exec_fence_waits c hp (by simp [ha, ho])
  · by_cases hab : ca = cb
    · obtain ⟨hmem, hregs, hflight, hdies, hsys⟩ := s.sameStores_advance x (Instr.xfence h ca cb).raw
      exact ⟨_, exec_xfence_same c hab, hmem, hregs, hflight, hdies, hsys⟩
    · obtain ⟨t, ht, hmem, hregs, hflight, hdies, hsys⟩ := exec_xfence_passes c hab fun h => hc h hab
      exact ⟨t, ht, hmem, hregs, hflight, hdies, hsys⟩
  · subst hcore
    exact exec_xfence_waits c hab hp hc

end Sys2Proof

namespace Sys2Proof.Machine

/-! ### A load of a party that is not placed (10 R213) -/

/-- A party whose one fibre follows the open read 11 (09 R191). -/
def bystander : Party :=
  { uid := 1, core := ⟨0, 0⟩, slot := 0, ctx := 0, rank := 0, launch := none, unitid := 0, nfib := 1, blocks := 1, prio := 0, producer := 0
    code := 0, segBase := List.replicate 6 0, segLim := List.replicate 6 0x1000, crews := [], gangs := []
    fibres := [{ fid := 0, cfid := 0, crew := 0, pc := 0, srs := 1, blocks := [0], after := [11] }] }

/-- A device on which it alone is placed, with a context whose rank table reaches rank 1: bit 63 of the entry's first word, and one path. -/
def bystanderState : State :=
  { State.reset with parties := [bystander], nextId := 10, tables := { contexts := [(0, { num := 0 })] }
                     mem := [(8192 + 64 + 7, 0x80), (8192 + 64 + 33, 0x80)] }

/-- The turn of a gang of party 7, which is not of the state. -/
def strayTurn : Turn :=
  let g : Gang := { gid := 2, crew := 0, number := some 0, fibres := [0], sregs := [] }
  let f : Fibre := { fid := 0, cfid := 0, crew := 0, pc := 0, srs := 1, blocks := [0] }
  { uid := 7, gid := 2, p := { bystander with uid := 7, fibres := [f], gangs := [g] }, g := g, ms := [f], pc := 0 }

/-- A load of one word at address 0 of rank 1 (08 R171). -/
def strayLoad : Instr := .ld {} (.v 0) (.v 2) { ty := .b32, sp := .g } .short
def strayReq : MemReq :=
  { sp := .g, size := 4, wr := false, strict := false, ord := .relaxed, scope := .dev, addr := fun _ => 2 ^ 63 + 2 ^ 46, op := fun _ => .load .b32 1 }

/-- The state after that load has departed and the gang has gone on. -/
def strayDeparts : State :=
  let plan := bystanderState.memPlan strayLoad strayTurn strayReq
  (plan.2.memGo strayLoad strayTurn strayReq (plan.1.map (·.2))).advance strayTurn.uid strayTurn.gid strayLoad.raw

/-- The load of a party that is not placed is dropped, and what followed it follows nothing any more. -/
theorem followed_strayDeparts : ((strayDeparts.party? 1).bind (·.fibre? 0)).map (·.after) = some [] := by decide

theorem followed_bystanderState : ((bystanderState.party? 1).bind (·.fibre? 0)).map (·.after) = some [11] := by decide

end Sys2Proof.Machine

namespace Sys2Proof

open Sys2Proof.Machine

/-- Refutes O28: the statement does not ask that the turn be one of the state. The load of a party that is not placed is dropped when it is to be sent, and
the fibre of another party that followed an open read of its name follows it no more. -/
theorem not_departingAccessFrame : ¬ Obligations.DepartingAccessFrame := by
  intro h
  obtain ⟨-, -, -, -, -, -, -, -, -, -, hparties⟩ := h bystanderState strayLoad strayTurn strayReq
  have hafter : ((strayDeparts.party? 1).bind (·.fibre? 0)).map (·.after) = ((bystanderState.party? 1).bind (·.fibre? 0)).map (·.after) :=
    congrArg (fun q : Option Party => (q.bind (·.fibre? 0)).map (·.after)) (hparties 1 (by decide))
  rw [followed_strayDeparts, followed_bystanderState] at hafter
  exact absurd hafter (by decide)

end Sys2Proof

namespace Sys2Proof.Machine

/-! ### One write at one location (08 R187, 10 R216, R220) -/

section Store

variable {s : State} {l n : Nat}

/-- Bytes as they stand now: no write is newer. -/
theorem State.bytesAsOf_stamp (hp : ∀ w ∈ s.past, w.stamp ≤ s.stamp) (l n : Nat) : s.bytesAsOf s.stamp l n = s.bytesAt l n := by
  unfold State.bytesAsOf
  cases h : s.past with
  | nil => rfl
  | cons w ws => exact if_pos (hp w (h ▸ List.mem_cons_self))

/-- Every byte after a write. -/
theorem State.byteAt_write (hm : Memory.wf s.mem = true) (src : Issuer) (v : View) (rels : List Release) (atom : Option Scope) (l : Nat) (bs : List Byte)
    (preds : List Nat) (a : Nat) :
    (s.write src v rels atom l bs preds).byteAt a = if l ≤ a ∧ a < l + bs.length then bs.getD (a - l) 0 else s.byteAt a :=
  sget_memPut l bs hm a

variable {src : Issuer} {v : View} {rels : List Release} {atom : Option Scope} {bs : List Byte} {preds : List Nat}

/-- A store that meets no error, to a page of no weight version and no replica, is a write. -/
theorem State.store_sound (h : ∀ u ∈ touchedUnits l bs.length, u ∉ s.failing) :
    s.store src v rels atom l none none bs preds = (false, s.write src v rels atom l bs preds) := by
  have hbad : (touchedUnits l bs.length).filter s.failing.contains = [] := by simpa [List.filter_eq_nil_iff] using h
  simp [State.store, State.bumpVersion, hbad]

/-- A store that meets an uncorrectable error is lost. -/
theorem State.store_failing (h : ∃ u ∈ touchedUnits l bs.length, u ∈ s.failing) : (s.store src v rels atom l none none bs preds).1 = true := by
  obtain ⟨u, hu, hf⟩ := h
  have hbad : ((touchedUnits l bs.length).filter s.failing.contains).isEmpty = false := by
    rw [List.isEmpty_eq_false_iff_exists_mem]
    exact ⟨u, List.mem_filter.2 ⟨hu, by simpa using hf⟩⟩
  simp [State.store, State.bumpVersion, hbad]

end Store

/-! ### An atomic at its location (10 R220) -/

section Atomic

variable {s : State} {own : Nat} {src : Issuer} {v : View} {ord : Ord} {sc : Scope} {rels : Release → List Release} {l n : Nat} {new : Nat → Nat}

/-- What an atomic of issuer `src` knows once it has read its location as it stands now. -/
def State.atomicLearn (s : State) (own : Nat) (src : Issuer) (v : View) (ord : Ord) (sc : Scope) (l n : Nat) : View :=
  s.learn own src v l n s.stamp (s.writeAt s.stamp l n) (if ordAcquires ord then some sc else none)

/-- The store of an atomic's new value. -/
def State.atomicStore (s : State) (own : Nat) (src : Issuer) (v : View) (ord : Ord) (sc : Scope) (rels : Release → List Release) (l n : Nat)
    (new : Nat → Nat) : Bool × State :=
  let known := s.atomicLearn own src v ord sc l n
  s.store src known (((s.writeAt s.stamp l n).map (·.rels)).getD [] ++ rels ⟨sc, src, known⟩) (some sc) l none none
    (leBytes n (new (leNat (s.bytesAt l n))))

/-- An atomic that reads its location as it stands now takes that value, and stores the new one. -/
theorem State.atomicAt_now (hw : s.wild l = false) (hp : ∀ w ∈ s.past, w.stamp ≤ s.stamp) (hs : s.poisonIn l n = false) :
    let r := s.atomicAt [s.stamp] own src v ord sc rels l none none n new
    let put := s.atomicStore own src v ord sc rels l n new
    r.1.old = leNat (s.bytesAt l n) ∧ r.1.status = (if put.1 then 2 else 0) ∧ r.2 = put.2 := by
  simp only [State.atomicAt, hs, Bool.false_eq_true, if_false, List.length_singleton, State.draw_one, List.getD_cons_zero, State.wildBytes, hw,
    State.bytesAsOf_stamp hp, true_and]
  exact ⟨rfl, rfl⟩

end Atomic

/-! ### A store at one location (10 R216) -/

section StoreFrame

@[simp] theorem State.settleRead_mem (s : State) (id : Nat) (v : View) (more : List Nat) : (s.settleRead id v more).mem = s.mem := rfl
@[simp] theorem State.dropAccess_mem (s : State) (id : Nat) : (s.dropAccess id).mem = s.mem := rfl
@[simp] theorem State.tookValue_mem (s : State) (a : Access) (r : Found) : (s.tookValue a r).mem = s.mem := rfl
@[simp] theorem State.passView_mem (s : State) (a : Access) (v : View) : (s.passView a v).mem = s.mem := rfl
@[simp] theorem State.passSlots_mem (s : State) (a : Access) (v : View) : (s.passSlots a v).mem = s.mem := rfl

@[simp] theorem State.followStore_mem (s : State) (a : Access) (v : View) : (s.followStore a v).mem = s.mem := by
  unfold State.followStore
  split <;> rfl

@[simp] theorem State.followStore_tables (s : State) (a : Access) (v : View) : (s.followStore a v).tables = s.tables := by
  unfold State.followStore
  split <;> rfl

@[simp] theorem State.countParty_mem (s : State) (u ev n : Nat) : (s.countParty u ev n).mem = s.mem := by
  unfold State.countParty State.count
  split
  · dsimp only
    split <;> rfl
  · rfl

@[simp] theorem State.writeShared_mem (s : State) (u crew : Nat) (r : SReg) (k : Nat) (w : Word) : (s.writeShared u crew r k w).mem = s.mem := by
  unfold State.writeShared State.writeEmu
  split
  case h_3 => split <;> simp
  all_goals rfl

@[simp] theorem State.putWord_mem (s : State) (a : Access) (d : DestReg) (w : Word) : (s.putWord a d w).mem = s.mem := by
  unfold State.putWord
  split
  · split <;> simp
  · simp
  · split
    · split <;> simp
    · simp

@[simp] theorem State.putWords_mem (a : Access) (ds : List (DestReg × Word)) : ∀ s : State, (s.putWords a ds).mem = s.mem := by
  induction ds with
  | nil => exact fun _ => rfl
  | cons d ds ih => exact fun s => (ih _).trans (s.putWord_mem a d.1 d.2)

@[simp] theorem State.finish_mem (s : State) (a : Access) (ws : List Word) (st : Nat) : (s.finish a ws st).mem = s.mem := by
  unfold State.finish
  dsimp only
  split <;> simp

/-- Refusing the access of a fibre that lives writes no record. -/
theorem State.refuse_mem {a : Access} (h : a.fibs ≠ []) (s : State) (cls sub : Nat) : (s.refuse a cls sub).mem = s.mem := by
  have horphan : a.orphan = false := by simpa [Access.orphan] using h
  simp [State.refuse, horphan]

variable {s : State} {a : Access} {p : Party} {va l : Nat} {bs : List Byte}

/-- The one part of a store that meets no error is written, and known under the write's stamp. -/
theorem State.storeParts_one (ho : a.op = .store bs) (hf : ∀ u ∈ touchedUnits l bs.length, u ∉ s.failing) (src : Issuer) (rels : List Release)
    (preds : List Nat) : s.storeParts a src rels preds [⟨va, bs.length, .loc l none none⟩] 0 =
      (false, [⟨l, bs.length, s.stamp + 1⟩], s.write src a.view rels none l bs preds) := by
  simp only [State.storeParts, ho, List.drop_zero, List.take_length, Option.map_none, State.store_sound hf, Bool.or_false]
  rfl

/-- A store at one location without an error there changes memory as its write does. -/
theorem State.performStore_mem (hp : s.party? a.uid = some p) (ho : a.op = .store bs) (hq : a.parts = [⟨va, bs.length, .loc l none none⟩])
    (hf : ∀ u ∈ touchedUnits l bs.length, u ∉ s.failing) :
    (s.performStore a).mem = (s.write (a.issuer p) a.view (a.releases p) none l bs (s.openBefore a)).mem := by
  have hhere : a.parts.any Part.isRemote = false := by rw [hq]; rfl
  simp only [State.performStore, hp, hhere, Bool.false_eq_true, if_false, State.giveWrite, ho]
  rw [hq, State.storeParts_one ho hf]
  have htables (t : State) (v : View) : (((t.passView a v).followStore a v).passSlots a v).tables = t.tables := State.followStore_tables ..
  rw [if_neg (by rw [htables]; exact lt_irrefl _)]
  simp

end StoreFrame

end Sys2Proof.Machine

namespace Sys2Proof

open Sys2Proof.Machine

/-- Settles O29: the store is one write, and what follows it touches no byte. -/
theorem storesPerform : Obligations.StoresPerform := by
  intro s a p va l bs hm hp ho hq hf b
  rw [State.byteAt, State.performStore_mem hp ho hq hf]
  exact State.byteAt_write hm _ _ _ _ l bs _ b

/-- Settles O32: the atomic takes the bytes that stand there, and its store is that of `State.store`. -/
theorem atomicStep : Obligations.AtomicStep := by
  intro s own src v ord sc rels l n new hm hw hp r old
  refine ⟨fun hs => (State.atomicAt_now hw hp hs).1, fun hs hf => ?_, fun hs hf => ?_, fun hs => ?_⟩
  · obtain ⟨-, hst, hr⟩ := State.atomicAt_now (ord := ord) (sc := sc) (rels := rels) (new := new) hw hp hs
    rw [State.atomicStore, State.store_sound (by rwa [length_leBytes])] at hst hr
    refine ⟨hst, fun b => ?_⟩
    rw [hr, State.byteAt_write hm, length_leBytes]
  · obtain ⟨-, hst, -⟩ := State.atomicAt_now (ord := ord) (sc := sc) (rels := rels) (new := new) hw hp hs
    rwa [State.atomicStore, State.store_failing (by rwa [length_leBytes]), if_pos rfl] at hst
  · have hr : r = _ := if_pos hs
    rw [hr]
    exact ⟨rfl, rfl⟩

end Sys2Proof

namespace Sys2Proof.Machine

/-! ### Views (09 R191, R195) -/

theorem View.subset_join (v w : View) : v ⊆ View.join v w := by
  unfold View.join
  induction w generalizing v with
  | nil => exact List.Subset.refl v
  | cons f w ih =>
    refine List.Subset.trans ?_ (ih _)
    beta_reduce
    split
    exacts [List.Subset.refl v, List.subset_cons_self f v]

theorem View.subset_acquire (own : Nat) (src : Issuer) (sc : Scope) (rels : List Release) (v : View) : v ⊆ v.acquire own src sc rels := by
  unfold View.acquire
  induction rels generalizing v with
  | nil => exact List.Subset.refl v
  | cons r rels ih =>
    refine List.Subset.trans ?_ (ih _)
    beta_reduce
    split
    exacts [View.subset_join v r.view, List.Subset.refl v]

/-- A reader forgets nothing. -/
theorem State.subset_learn (s : State) (own : Nat) (src : Issuer) (v : View) (loc n t : Nat) (w : Option Past) (acq : Option Scope) :
    v ⊆ s.learn own src v loc n t w acq := by
  have hread := View.subset_join v [⟨loc, n, t⟩]
  unfold State.learn
  cases w with
  | none => exact hread
  | some w =>
    have hcore : v ⊆ (if sameCore src w.src then View.join (View.join (View.join v [⟨loc, n, t⟩]) w.view)
        ((s.past.filter fun p => decide (p.stamp ≤ w.stamp) && sameCore src p.src).map Past.fact) else View.join v [⟨loc, n, t⟩]) := by
      split
      · exact List.Subset.trans hread (List.Subset.trans (View.subset_join _ _) (View.subset_join _ _))
      · exact hread
    cases acq with
    | none => exact hcore
    | some sc => exact List.Subset.trans hcore (View.subset_acquire own src sc w.rels _)

theorem View.le_bound {v : View} {f : Fact} (hf : f ∈ v) {lo len : Nat} (h : f.lo < lo + len ∧ lo < f.lo + f.len) : f.stamp ≤ v.bound lo len := by
  have hstep (b : Nat) (g : Fact) : b ≤ if g.lo < lo + len ∧ lo < g.lo + g.len then max b g.stamp else b := by
    split
    exacts [le_max_left .., le_rfl]
  have hmono (v : View) : ∀ b, b ≤ v.foldl (fun b f => if f.lo < lo + len ∧ lo < f.lo + f.len then max b f.stamp else b) b := by
    induction v with
    | nil => exact fun b => le_rfl
    | cons g v ih => exact fun b => (hstep b g).trans (ih _)
  unfold View.bound
  generalize 0 = b
  induction v generalizing b with
  | nil => cases hf
  | cons g v ih =>
    rcases List.mem_cons.1 hf with rfl | hf
    · exact le_trans (by beta_reduce; rw [if_pos h]; exact le_max_right ..) (hmono v _)
    · exact ih hf _

/-! ### Atomic units (09 R189) -/

/-- Units that are not empty and lie in a range. -/
def UnitsIn (l len : Nat) (us : List (Nat × Nat)) : Prop := ∀ u ∈ us, l ≤ u.1 ∧ u.1 + u.2 ≤ l + len ∧ 0 < u.2

theorem unitsIn_go (fuel l n : Nat) : UnitsIn l n (coreUnits.go fuel l n) := by
  induction fuel generalizing l n with
  | zero => exact fun u hu => nomatch hu
  | succ fuel ih =>
    intro u hu
    unfold coreUnits.go at hu
    split at hu
    · cases hu
    · split at hu
      all_goals
        rcases List.mem_cons.1 hu with rfl | hu
        · dsimp only
          omega
        · obtain ⟨hlo, hhi, hpos⟩ := ih _ _ u hu
          omega

theorem unitsIn_coreUnits (l n : Nat) : UnitsIn l n (coreUnits l n) := by
  unfold coreUnits
  split
  · rename_i h
    intro u hu
    obtain rfl := List.mem_singleton.1 hu
    simp only [Bool.and_eq_true, Bool.or_eq_true, beq_iff_eq] at h
    dsimp only
    omega
  · exact unitsIn_go n l n

theorem unitsIn_bytes (l n : Nat) : UnitsIn l n ((List.range n).map fun j => (l + j, 1)) := by
  intro u hu
  obtain ⟨j, hj, rfl⟩ := List.mem_map.1 hu
  have := List.mem_range.1 hj
  dsimp only
  omega

theorem State.bytesAt_coreUnits (s : State) (l n : Nat) : (coreUnits l n).flatMap (fun u => s.bytesAt u.1 u.2) = s.bytesAt l n := by
  unfold coreUnits
  split
  · simp
  · exact s.bytesAt_units n l n le_rfl

theorem State.bytesAt_singles (s : State) (l n : Nat) :
    ((List.range n).map fun j => (l + j, 1)).flatMap (fun u => s.bytesAt u.1 u.2) = s.bytesAt l n := by
  induction n with
  | zero => rfl
  | succ n ih => rw [List.range_succ, List.map_append, List.flatMap_append, ih, State.bytesAt_append]; rfl

/-! ### A load with nothing to choose from (10 R215, 09 R196) -/

/-- Access `a`, which knows `v`, takes the bytes of a range as they stand: it follows every write that touches them, no frame of theirs stands under a
second address (14 R306), and it binds no other read. -/
structure State.ReadsNow (s : State) (a : Access) (v : View) (l len : Nat) : Prop where
  early  : a.early = []
  others : ∀ b ∈ s.flight, b.reads = true → b.open_ = true → b.id = a.id ∨ (a.sameFibre b = false ∧ b.id ∉ a.after)
  tame   : ∀ b, l ≤ b → b < l + len → s.wild b = false
  writes : ∀ w ∈ s.past, w.stamp ≤ s.stamp ∧ (w.lo < l + len → l < w.lo + w.old.length →
    a.id ∉ w.preds ∧ ∃ f ∈ v, f.lo ≤ l ∧ l + len ≤ f.lo + f.len ∧ w.stamp ≤ f.stamp)

/-- What a read has found with one more unit, which it takes as it stands now. -/
def State.addUnit (s : State) (own : Nat) (src : Issuer) (a : Access) (u : Nat × Nat) (r : Loaded) : Loaded :=
  let w := s.writeAt s.stamp u.1 u.2
  { view := s.learn own src r.view u.1 u.2 s.stamp w (acqOf a), plain := s.learn own src r.plain u.1 u.2 s.stamp w none
    rels := r.rels ++ (w.map (·.rels)).getD [], read := ⟨u.1, u.2, s.stamp⟩ :: r.read, after := (r.after ++ predsOf src w).eraseDups
    bytes := r.bytes ++ s.bytesAt u.1 u.2, bad := r.bad }

section ReadsNow

variable {s : State} {a : Access} {v : View} {l len : Nat} (h : s.ReadsNow a v l len)
include h

variable {r : View} {loc n : Nat} (hr : v ⊆ r) (hlo : l ≤ loc) (hhi : loc + n ≤ l + len) (hn : 0 < n)

section Unit

include hr hlo hhi hn

/-- The one time at which a unit of the range can be read is now. -/
theorem State.ReadsNow.readStamps : s.readStamps r loc n = [s.stamp] := by
  have hnone : (s.past.filter fun w => decide (r.bound loc n < w.stamp) && decide (w.lo < loc + n ∧ loc < w.lo + w.old.length)) = [] := by
    refine List.filter_eq_nil_iff.2 fun w hw hsel => ?_
    simp only [Bool.and_eq_true, decide_eq_true_eq] at hsel
    obtain ⟨hnew, hwlo, hwhi⟩ := hsel
    obtain ⟨-, f, hf, hflo, hfhi, hstamp⟩ := (h.writes w hw).2 (by omega) (by omega)
    have := View.le_bound (hr hf) (lo := loc) (len := n) ⟨by omega, by omega⟩
    omega
  simp only [State.readStamps, hnone, List.map_nil]

omit hr hn in
theorem State.ReadsNow.maySee (src : Issuer) (t : Nat) : a.maySee src (s.writeAt t loc n) = true := by
  cases hw : s.writeAt t loc n with
  | none => rfl
  | some w =>
    have hsel := List.find?_some hw
    simp only [Bool.and_eq_true, decide_eq_true_eq] at hsel
    obtain ⟨-, hwlo, hwhi⟩ := hsel
    obtain ⟨hid, -⟩ := (h.writes w (List.mem_of_find?_eq_some hw)).2 (by omega) (by omega)
    simp [Access.maySee, hid]

theorem State.ReadsNow.fitStamps (own : Nat) (src : Issuer) : s.fitStamps own src a r loc n = [s.stamp] := by
  simp [State.fitStamps, h.readStamps hr hlo hhi hn, h.maySee hlo hhi, h.early, earlyOk]

omit hr hlo hhi hn in
theorem State.ReadsNow.leavesOpen (own : Nat) (src : Issuer) (loc n t : Nat) (r : View) : s.leavesOpen own src a loc n t r = true := by
  refine List.all_eq_true.2 fun b hb => ?_
  by_cases hopen : b.reads = true ∧ b.open_ = true
  · rcases h.others b hb hopen.1 hopen.2 with hid | ⟨hsame, hafter⟩
    · simp [hid]
    · simp [hsame, hafter]
  · have hskip : (b.id == a.id || !b.reads || !b.open_) = true := by
      simp only [Bool.or_eq_true, beq_iff_eq, Bool.not_eq_true']
      simp only [not_and_or, Bool.not_eq_true] at hopen
      tauto
    rw [if_pos hskip]

theorem State.ReadsNow.loadUnit (own : Nat) (src : Issuer) :
    s.loadUnit own src a r loc n = some (s.bytesAt loc n, s.stamp, s.writeAt s.stamp loc n, s) := by
  have hpast : ∀ w ∈ s.past, w.stamp ≤ s.stamp := fun w hw => (h.writes w hw).1
  simp [State.loadUnit, h.fitStamps hr hlo hhi hn, h.leavesOpen, State.draw_one, State.bytesAsOf_stamp hpast]

end Unit

/-- Units of the range give their bytes, and leave the state as it is. -/
theorem State.ReadsNow.loadUnits (own : Nat) (src : Issuer) {us : List (Nat × Nat)} (hus : UnitsIn l len us) :
    ∀ r : Loaded, v ⊆ r.view → ∃ r', s.loadUnits own src a us r = some (r', s) ∧
      r'.bytes = r.bytes ++ us.flatMap (fun u => s.bytesAt u.1 u.2) ∧ r'.bad = r.bad := by
  induction us with
  | nil => exact fun r _ => ⟨r, rfl, by simp, rfl⟩
  | cons u us ih =>
    intro r hr
    obtain ⟨hlo, hhi, hn⟩ := hus u List.mem_cons_self
    have htame : s.wild u.1 = false := h.tame u.1 hlo (by omega)
    have hstep : s.loadUnits own src a (u :: us) r = s.loadUnits own src a us (s.addUnit own src a u r) := by
      rw [State.loadUnits, h.loadUnit hr hlo hhi hn]
      simp only [State.wildBytes, htame, Bool.false_eq_true, if_false]
      rfl
    obtain ⟨r', hload, hbytes, hbad⟩ :=
      ih (fun w hw => hus w (List.mem_cons_of_mem u hw)) (s.addUnit own src a u r) (List.Subset.trans hr (s.subset_learn ..))
    refine ⟨r', hstep.trans hload, ?_, hbad⟩
    rw [hbytes, List.flatMap_cons, ← List.append_assoc]
    rfl

end ReadsNow

section Load

variable {s : State} {a : Access} {p : Party} {va l n : Nat} {w : Option Nat} {t : Ty}

/-- What a load knows of its range: of the constant cache it is what was there at its party's placement (08 R178). -/
def Access.knows (a : Access) (p : Party) (l len : Nat) : View := if a.sp = .k then [⟨l, len, p.born⟩] else a.view

/-- The units in which a load takes its range: single bytes from the constant cache. -/
def Access.unitsOf (a : Access) (l len : Nat) : List (Nat × Nat) := if a.sp == .k then (List.range len).map fun j => (l + j, 1) else coreUnits l len

/-- The one part of a load with nothing to choose from gives its bytes. -/
theorem State.ReadsNow.loadParts {len : Nat} (h : s.ReadsNow a (a.knows p l len) l len) :
    ∃ r, s.loadParts p a [⟨va, len, .loc l w none⟩] { view := a.view, plain := a.view } = some (r, s) ∧ r.bytes = s.bytesAt l len ∧
      r.bad = s.poisonIn l len := by
  have hunits : UnitsIn l len (a.unitsOf l len) := by
    unfold Access.unitsOf
    split
    exacts [unitsIn_bytes l len, unitsIn_coreUnits l len]
  have hstand : (a.unitsOf l len).flatMap (fun u => s.bytesAt u.1 u.2) = s.bytesAt l len := by
    unfold Access.unitsOf
    split
    exacts [s.bytesAt_singles l len, s.bytesAt_coreUnits l len]
  let r₀ : Loaded := { view := a.knows p l len, plain := a.knows p l len, bad := s.poisonIn l len }
  obtain ⟨r, hload, hbytes, hbad⟩ := h.loadUnits p.rank (a.issuer p) hunits r₀ (List.Subset.refl _)
  refine ⟨r, ?_, hbytes.trans hstand, hbad⟩
  simp only [Access.unitsOf, r₀, Access.knows, beq_iff_eq] at hload
  simp only [State.loadParts, beq_iff_eq, Option.isSome_none, Bool.false_eq_true, if_false, Bool.false_or, hload]

/-- A load with nothing to wait for and nothing to choose from reports the elements that stand there, or their poison. -/
theorem State.ReadsNow.performLoad (hp : s.party? a.uid = some p) (hq : a.parts = [⟨va, t.width / 8 * n, .loc l w none⟩]) (hset : a.aside = false)
    (hl : s.loadsBefore a = false) (ha : s.atomsBefore a = false) (hb : s.behind a = false) (hf : a.sp = .k ∨ s.forward a = .none)
    (h : s.ReadsNow a (a.knows p l (t.width / 8 * n)) l (t.width / 8 * n)) :
    ∃ r, s.performLoad a t n = (s.tookValue a r).report a (elemWords t (s.bytesAt l (t.width / 8 * n)) n)
      (if s.poisonIn l (t.width / 8 * n) then 1 else 0) := by
  obtain ⟨r, hload, hbytes, hbad⟩ := State.ReadsNow.loadParts (va := va) (w := w) h
  have hopen : s.lockedParts a = false := by simp [State.lockedParts, hq]
  have hhere : [(⟨va, t.width / 8 * n, .loc l w none⟩ : Part)].any Part.isRemote = false := rfl
  have hown : (if a.sp == .k then .none else s.forward a) = Forward.none := by
    rcases hf with hk | hk <;> simp [hk]
  refine ⟨{ r.toFound with view := if ordAcquires a.ord then r.view.acquire p.rank (a.issuer p) a.scope a.heard else r.view, rels := r.rels ++ a.heard }, ?_⟩
  rw [← hbytes, ← hbad]
  simp only [State.performLoad, hp, hset, hl, ha, hb, hopen, hown, hhere, hq, hload, Bool.or_false, Bool.false_and, Bool.false_eq_true, if_false]

theorem State.report_sound (s : State) (a : Access) (ws : List Word) : s.report a ws 0 = s.finish a ws 0 := by simp [State.report]

/-- Poison goes to SD under `.stat`. -/
theorem State.report_poison_stat (hse : a.se = true) (s : State) (ws : List Word) : s.report a ws 1 = s.finish a [] 1 := by simp [State.report, hse]

/-- Without `.stat` it is DATA_POISON. -/
theorem State.report_poison (hse : a.se = false) (s : State) (ws : List Word) : s.report a ws 1 = s.refuse a 0x11 1 := by simp [State.report, hse]

theorem State.report_mem (h : a.fibs ≠ []) (s : State) (ws : List Word) (st : Nat) : (s.report a ws st).mem = s.mem := by
  unfold State.report
  split
  · exact s.finish_mem a _ st
  · rw [State.refuse_mem h]
    split
    exacts [rfl, s.putWords_mem a _]

end Load

end Sys2Proof.Machine

namespace Sys2Proof

open Sys2Proof.Machine

/-- Settles O30: the load takes each unit as it stands now, and reports what it took or its poison. -/
theorem loadsPerform : Obligations.LoadsPerform := by
  intro s a p va l n w t len known hp _ hq hset hl ha hb hf hearly hothers htame hpast
  obtain ⟨r, h⟩ := State.ReadsNow.performLoad hp hq hset hl ha hb hf ⟨hearly, hothers, htame, hpast⟩
  refine ⟨r, fun hs => ?_, fun hs hse => ?_, fun hs hse => ?_, fun hfibs loc => ?_⟩
  · rw [h, hs, if_neg Bool.false_ne_true, State.report_sound]
  · rw [h, hs, if_pos rfl, State.report_poison_stat hse]
  · rw [h, hs, if_pos rfl, State.report_poison hse]
  · rw [State.byteAt, h, State.report_mem hfibs]
    rfl

end Sys2Proof

namespace Sys2Proof.Machine

/-! ### A load into a plane that lists an element twice (07 R149) -/

/-- The column of one f64 element that an `mload` reads at offset 0 of its party's scratchpad. -/
def zeroColumn : Part := ⟨vaOfLoc (locScratch ⟨0, 0⟩ 0), 8, .loc (locScratch ⟨0, 0⟩ 0) none none⟩

/-- An `mload` of row 0: its block gives KN 1, K0 0 and STRIDE 0, so that all 32 columns are that one. -/
def zeroLoad : MillRun :=
  { cmd := { id := 9, op := .load .f64 0, uid := 1, ctx := 0 }, block := [0, 0, 0, 0x10] ++ List.replicate 28 0, cores := [⟨0, 0⟩]
    reads := List.replicate 32 [zeroColumn] }

/-- A shadow plane whose table lists the element of row 0 and column 0 twice. -/
def twiceListed : Plane := { fmt := some .f64, data := [(0, 1), (0, 2)] }

/-- The device on which that load runs, to that plane; every byte of memory is 0. -/
def twiceState : State :=
  { State.reset with parties := [bystander], cores := [(0, { mill := { shadow := twiceListed, loading := some zeroLoad } })] }

/-- The device once it has run. -/
def twiceLoaded : State := twiceState.runLoad ⟨0, 0⟩ .loading bystander zeroLoad .f64

/-- A +0 is stored by taking the element out of the table: the second listing then shows. -/
theorem code_twiceLoaded : (twiceLoaded.core ⟨0, 0⟩).mill.shadow.code 0 0 = 2 := by decide

end Sys2Proof.Machine

namespace Sys2Proof

open Sys2Proof.Machine

/-- Refutes O49: the statement does not ask that a plane's table be in canonical form. `zeroLoad` loads a +0 where the shadow plane of `twiceState` lists an
element twice, and the plane then holds the second listing's code. -/
theorem not_engineEvents : ¬ Obligations.EngineEvents := by
  intro h
  obtain ⟨-, -, -, hresolves, -⟩ := h twiceState ⟨0, 0⟩ .loading .mill 0 0 1 0 bystander zeroLoad.cmd zeroLoad
    { slot := 0, cmd := { id := 0, a2av := false, uid := 0, ctx := 0, off := 0 }, shape := [] }
  obtain ⟨-, -, hload, -⟩ := hresolves rfl rfl (by decide) rfl rfl rfl
  obtain ⟨hexec, hplane⟩ := hload .f64 0 rfl
  obtain ⟨t, ht, hcodes⟩ := hplane _ _ _ _ _ _ rfl (by decide) (by decide) rfl rfl (by decide) (by decide) (by decide)
  obtain rfl : twiceLoaded = t := Host.Outcome.next.inj (hexec.symm.trans ht)
  obtain ⟨-, hcode⟩ := hcodes 0 ⟨0, 0⟩ rfl
  obtain ⟨hzero, -⟩ := hcode 0 0 (0, false) (by decide) (by decide)
  exact absurd (code_twiceLoaded.symm.trans hzero) (by decide)

end Sys2Proof

namespace Sys2Proof.Machine

/-! ### Doorbells and `launch` requests (12 R251 to R253) -/

theorem exec_doorbell {s : State} {ctx : Nat} {c : Context} (hc : s.ctx? ctx = some c) (q v : Nat) :
    let d := c.queueAt q
    let step := (w32 v - d.tail).toNat
    exec (.doorbell ctx q v) s = .next (if d.mode && decide (q < 16 ∧ 0 < step ∧ step + (d.tail - d.head).toNat ≤ 2 ^ d.size)
      then s.setCtx (c.setQueue q { d with tail := w32 v }) else s.linkEvent 0x031B) := by
  show execDoorbell ctx q v s = _
  simp only [execDoorbell, hc]
  split <;> rfl

section Request

variable {s : State} {id : Nat} {r : LaunchReq} {a : Access} {p : Party} {g : Gang}

/-- A request whose gang waits and which nothing holds back is granted. -/
theorem exec_launchRequest_granted (hb : s.unitBlocked unitCommand = false) (hr : s.requests.find? (fun r => r.id == id) = some r)
    (ha : s.access? id = some a) (hp : s.party? r.uid = some p) (hg : s.gang? r.uid r.gid = some g) (hw : g.wait = some (.launch r.id))
    (hstores : (p.crews.any fun e => e.storeq.flatten.any r.owed.contains) = false) (hline : s.overtaken (.queue r.ctx r.q) r.place = false)
    (hqueue : ∀ o ∈ s.requests, o.id ≠ id → o.ctx = r.ctx → o.q = r.q → ∃ k, s.gang? o.uid o.gid = some k ∧ k.wait = some (.launch o.id)) :
    exec (.launchRequest id) s = .next ((s.serve (.queue r.ctx r.q) r.place).launchGrant r a p g) := by
  have hasks : ((s.gang? r.uid r.gid).filter fun g => g.wait == some (.launch r.id)) = some g := by simp [hg, hw]
  have hbusy : (s.requests.any fun o => o.id != id && o.ctx == r.ctx && o.q == r.q &&
      ((s.gang? o.uid o.gid).filter fun g => g.wait == some (.launch o.id)).isNone) = false := by
    refine List.any_eq_false.2 fun o ho hgoes => ?_
    simp only [Bool.and_eq_true, bne_iff_ne, beq_iff_eq] at hgoes
    obtain ⟨⟨⟨hid, hctx⟩, hq⟩, hnone⟩ := hgoes
    obtain ⟨k, hk, hwait⟩ := hqueue o ho hid hctx hq
    simp [hk, hwait] at hnone
  show execLaunchRequest id s = _
  simp only [execLaunchRequest, hr, ha, hp, hb, hasks, hbusy, hstores, hline, Bool.or_false, Bool.false_eq_true, if_false]

theorem State.launchGrant_closed (h : s.launchable r.ctx r.q = false) :
    s.launchGrant r a p g = ((s.endWait r.uid r.gid a.raw).dropRequest r.id).finish a [2] 0 := by
  simp [State.launchGrant, h]

variable (h : s.launchable r.ctx r.q = true)
include h

theorem State.launchGrant_full
    (hfull : let d := ((s.ctx? r.ctx).map fun c => c.queueAt r.q).getD {}; 2 ^ d.size ≤ (d.tail - d.head).toNat) :
    s.launchGrant r a p g = ((s.endWait r.uid r.gid a.raw).dropRequest r.id).finish a [1] 0 := by
  simp only [State.launchGrant, h, Bool.not_true, Bool.false_eq_true, if_false]
  exact if_pos hfull

theorem State.launchGrant_checked
    (hroom : let d := ((s.ctx? r.ctx).map fun c => c.queueAt r.q).getD {}; (d.tail - d.head).toNat < 2 ^ d.size)
    {f : Fibre} (hf : supplier (p.ownersOf a) = some f) {k : Nat} {parts : List Part} {u : State}
    (hk : s.checkPacket p f a.lvl (cutAt64K a.addr.toInt 256) = (k, parts, u)) :
    s.launchGrant r a p g = if k ≠ 0 then u.launchFault r a g (checkClass k)
      else ((u.endWait r.uid r.gid a.raw).setAccess { a with parts := parts }).launchCopy r { a with parts := parts } p := by
  simp only [State.launchGrant, h, Bool.not_true, Bool.false_eq_true, if_false]
  rw [if_neg (Nat.not_le.2 hroom)]
  simp only [hf, hk]

end Request

/-! ### Packets (12 R255, R256) -/

section Packet

variable {s : State}

theorem exec_packetRead_none (h : s.nextQueue = none) : exec .packetRead s = .next s := by
  show execPacketRead s = _
  simp only [execPacketRead, h]

variable {c : Context} {q : Nat} {rs : List Part} {t : State} (hb : s.unitBlocked unitCommand = false) (hq : s.nextQueue = some (c, q))
  (hs : (c.queueAt q).stop = none)
  (hat : s.cpLocate c (c.num, q) ((c.queueAt q).base.toNat + 256 * ((c.queueAt q).head.toNat % 2 ^ (c.queueAt q).size)) 256 false = (.ok rs, t))
include hb hq hs hat

theorem exec_packetRead_poison (hp : t.partsPoison rs = true) :
    exec .packetRead s = .next ((({ t with turn := c.num * 16 + q + 1 } : State).cpDone (c.num, q)).passSlot c.num q) := by
  show execPacketRead s = _
  simp [execPacketRead, hq, hb, hs, hat, hp]

variable (hp : t.partsPoison rs = false)
include hp

theorem exec_packetRead_rejected (hk : t.packetCause c (t.partsBytes rs) ≠ 0) :
    exec .packetRead s = .next (((t.cpDone (c.num, q)).passSlot c.num q).takePacket c q (t.partsBytes rs) [] (t.packetCause c (t.partsBytes rs))) := by
  show execPacketRead s = _
  simp [execPacketRead, hq, hb, hs, hat, hp, hk]

theorem exec_packetRead_taken (hk : t.packetCause c (t.partsBytes rs) = 0) {es : List Edge} {form read : Bool} {u : State}
    (hl : t.readLists c q false (pkEdges (t.partsBytes rs)) = (.done es form read, u)) :
    exec .packetRead s = .next (((u.cpDone (c.num, q)).passSlot c.num q).takePacket c q (t.partsBytes rs) es
      (if form = false then 6 else if pkUnit (t.partsBytes rs) = true ∧ u.anyCompany = false then 7 else if read = false then 8 else 0)) := by
  show execPacketRead s = _
  simp [execPacketRead, hq, hb, hs, hat, hp, hk, hl]

end Packet

/-! ### Live launches (12 R257, R258, R260) -/

theorem find_idx_map {f : Launch → Launch} (hf : ∀ l, (f l).idx = l.idx) (n : Nat) (ls : List Launch) :
    (ls.map f).find? (fun l => l.idx == n) = (ls.find? fun l => l.idx == n).map f := by
  rw [List.find?_map]
  congr 2
  funext l
  simp [hf]

theorem State.idx_of_launch? {s : State} {n : Nat} {l : Launch} (h : s.launch? n = some l) : l.idx = n := by
  simpa using List.find?_some h

theorem State.launch?_congr {s t : State} (h : t.live = s.live) (n : Nat) : t.launch? n = s.launch? n := by
  rw [State.launch?, h]
  rfl

theorem State.launch?_onLaunch_self {s : State} {n : Nat} {l : Launch} (h : s.launch? n = some l) {f : Launch → Launch} (hf : ∀ l, (f l).idx = l.idx) :
    (s.onLaunch n f).launch? n = some (f l) := by
  have hkeep : ∀ l : Launch, (if l.idx = n then f l else l).idx = l.idx := fun l => by split <;> simp [hf]
  have hfind : s.live.find? (fun l => l.idx == n) = some l := h
  refine (find_idx_map hkeep n s.live).trans ?_
  rw [hfind, Option.map_some, if_pos (State.idx_of_launch? h)]

/-- `markFirst` changes no more of a launch than when it came to stand first. -/
theorem State.launch?_markFirst {s : State} {n : Nat} {l : Launch} (h : s.launch? n = some l) :
    ∃ k, s.markFirst.launch? n = some { l with ready := k } := by
  have hfind : s.live.find? (fun l => l.idx == n) = some l := h
  unfold State.markFirst State.launch?
  rw [find_idx_map (fun l => by split <;> rfl), hfind, Option.map_some]
  split
  exacts [⟨_, rfl⟩, ⟨_, rfl⟩]

section Live

variable {s : State} {lt : Nat} {l : Launch} (hb : s.unitBlocked unitCommand = false) (hl : s.launch? lt = some l)
include hb hl

theorem exec_bufferListApplication (hw : l.state = .waiting) (he : ∀ e ∈ l.edges, e.waits = none) {c : Context} (hc : s.ctx? l.ctx = some c) :
    let v := l.edges.flatMap fun e => (e.ranges.filter fun r => localBuffer c r.1).flatMap fun r => s.rangeView c r.1 r.2 e.preds
    exec (.bufferListApplication lt) s = .next ((s.onTables fun t => { t with
        lines := t.lines.filter fun k => !(l.edges.flatMap (·.ranges)).any fun r => k.inRange c r.1 r.2 }).onLaunch lt fun l =>
      { l with state := .placing, view := v }).markFirst := by
  have hedges : (l.edges.any fun e => e.waits.isSome) = false := List.any_eq_false.2 fun e h => by simp [he e h]
  show execBufferListApplication lt s = _
  simp [execBufferListApplication, hl, hw, hedges, hb, hc]

theorem exec_unitPlacement {core : CoreRef} {base : Nat} (hleft : l.left = true) (hfit : s.unitFits l core base = true) (hmay : s.mayPlace l = true)
    (hres : s.mustReserve l = false) :
    exec (.unitPlacement lt core base) s = .next (((if pkUnit l.packet then companyCores core.die (companyOf core.core) else [core]).foldl
      (fun (s : State) k => s.placeParty l k base) s).onLaunch lt fun m =>
        { m with next := m.next + 1, placed := m.placed + 1, reserve := none, ready := 0 }).markFirst := by
  show execUnitPlacement lt core base s = _
  simp [execUnitPlacement, hl, hleft, hfit, hmay, hres, hb]

omit hb in
theorem exec_unitPlacement_unfit {core : CoreRef} {base : Nat} (hfit : s.unitFits l core base = false) :
    exec (.unitPlacement lt core base) s = .next s := by
  show execUnitPlacement lt core base s = _
  simp [execUnitPlacement, hl, hfit]

theorem exec_companyReservation {die comp : Nat} (hdue : s.reserveDue l = true) (hfree : s.reservable die comp = true) :
    exec (.companyReservation lt die comp) s = .next (s.onLaunch lt fun m => { m with reserve := some (die, comp) }) := by
  show execCompanyReservation lt die comp s = _
  simp [execCompanyReservation, hl, hdue, hfree, hb]

theorem exec_launchCompletion (hf : l.finished = true) (hd : pkDoneaddr l.packet = 0) :
    let status := if l.status ≠ 0 then l.status else if l.err then 2 else 0
    let t := if pkDcen l.packet then s.countUp l.ctx (pkDonecnt l.packet) commandIssuer .dev
      (View.join (s.launchView l) ((s.past.take 1).map Past.fact)) else s
    exec (.launchCompletion lt) s =
      .next ({ (if l.id = 0 then t else t.onCtx l.ctx fun c => { c with done := sput c.done l.id l.parties }) with
        live := (t.live.filter fun m => m.idx != lt).map (Launch.release lt status l.parties) } : State).markFirst := by
  intro status t
  have hrecord : s.completionRecord l status = (true, s) := by simp [State.completionRecord, hd]
  show execLaunchCompletion lt s = _
  simp only [execLaunchCompletion, hl, hf, hb, Bool.not_true, Bool.or_false, Bool.false_eq_true, if_false]
  rw [hrecord]

end Live

/-! ### Work withdrawal (12 R271) -/

/-- The state once the answer to a party's oldest `fetchw` stands in its mailbox: UNIT, STATUS and 0, then the DONE word, which releases them. -/
def State.mailboxWritten (s : State) (uid loc : Nat) (rest : List Nat) (unit status : Nat) : State :=
  let t := (s.onParty uid fun p => { p with withdraw := rest }).write commandIssuer [] [] none loc (bytesOf 4 unit ++ bytesOf 4 status ++ bytesOf 4 0)
  t.write commandIssuer [⟨loc, 12, t.stamp⟩] [⟨.dev, commandIssuer, [⟨loc, 12, t.stamp⟩]⟩] none (loc + 12) (bytesOf 4 1)

theorem length_bytesOf (n v : Nat) : (bytesOf n v).length = n := length_leBytes n v

theorem memPut_append (m : List Host.Cell) (l : Nat) (a b : List Byte) : memPut m l (a ++ b) = memPut (memPut m l a) (l + a.length) b := by
  induction a generalizing m l with
  | nil => rfl
  | cons x a ih => rw [List.cons_append, memPut, ih, memPut, List.length_cons, Nat.add_right_comm, Nat.add_assoc]

/-- What then stands in the mailbox. -/
def mailboxBytes (unit status : Nat) : List Byte := bytesOf 4 unit ++ bytesOf 4 status ++ bytesOf 4 0 ++ bytesOf 4 1

theorem length_mailboxBytes (unit status : Nat) : (mailboxBytes unit status).length = 16 := by
  simp only [mailboxBytes, List.length_append, length_bytesOf]

section Mailbox

variable {s : State} {uid loc unit status : Nat} {rest : List Nat}

/-- The 16 bytes of the mailbox are one run of memory. -/
theorem State.mailboxWritten_mem : (s.mailboxWritten uid loc rest unit status).mem = memPut s.mem loc (mailboxBytes unit status) := by
  rw [mailboxBytes, memPut_append]
  simp only [List.length_append, length_bytesOf]
  rfl

theorem State.bytesAt_mailbox (hm : Memory.wf s.mem = true) :
    (s.mailboxWritten uid loc rest unit status).bytesAt loc 16 = mailboxBytes unit status := by
  have h := s.bytesAt_memPut loc (mailboxBytes unit status) hm
  rw [length_mailboxBytes] at h
  exact (State.bytesAt_congr (s := { s with mem := memPut s.mem loc (mailboxBytes unit status) }) (t := s.mailboxWritten uid loc rest unit status)
    State.mailboxWritten_mem loc 16).trans h

theorem State.byteAt_mailbox (hm : Memory.wf s.mem = true) {b : Nat} (hb : b < loc ∨ loc + 16 ≤ b) :
    (s.mailboxWritten uid loc rest unit status).byteAt b = s.byteAt b := by
  rw [State.byteAt, State.mailboxWritten_mem, sget_memPut loc _ hm, length_mailboxBytes, if_neg (by omega)]
  rfl

theorem State.party?_mailbox {p : Party} (hp : s.party? uid = some p) :
    (s.mailboxWritten uid loc rest unit status).party? uid = some { p with withdraw := rest } := by
  have hparties : (s.mailboxWritten uid loc rest unit status).parties = (s.onParty uid fun p => { p with withdraw := rest }).parties := rfl
  exact (State.party?_congr hparties uid).trans (State.party?_onParty_self hp fun _ => rfl)

theorem State.launch?_mailbox (s : State) (uid loc : Nat) (rest : List Nat) (unit status n : Nat) :
    (s.mailboxWritten uid loc rest unit status).launch? n = s.launch? n := State.launch?_congr rfl n

end Mailbox

/-- What a party's oldest `fetchw` is answered: UNIT and STATUS. -/
def State.withdrawal (s : State) (p : Party) : Nat × Nat :=
  match p.launch.bind s.launch? with
  | none => (0, 1)
  | some l => if l.err ∨ l.status ≠ 0 then (0, 2) else if l.next < pkNunits l.packet then (l.next, 0) else (0, 1)

theorem State.withdrawal_none {s : State} {p : Party} (h : p.launch = none) : s.withdrawal p = (0, 1) := by
  simp [State.withdrawal, h]

section Withdrawal

variable {s : State} {p : Party} {l : Launch} (h : p.launch.bind s.launch? = some l)
include h

theorem State.withdrawal_failed (hf : l.err = true ∨ l.status ≠ 0) : s.withdrawal p = (0, 2) := by
  simp [State.withdrawal, h, hf]

variable (he : l.err = false) (hs : l.status = 0)
include he hs

theorem State.withdrawal_exhausted (hn : pkNunits l.packet ≤ l.next) : s.withdrawal p = (0, 1) := by
  simp [State.withdrawal, h, he, hs, Nat.not_lt.2 hn]

theorem State.withdrawal_unit (hn : l.next < pkNunits l.packet) : s.withdrawal p = (l.next, 0) := by
  simp [State.withdrawal, h, he, hs, hn]

end Withdrawal

/-- The launch of a party notes the unit that the party has withdrawn. -/
def State.noteWithdrawn (s : State) (uid : Nat) (l : Option Launch) (unit status : Nat) : State :=
  match l, status with
  | some l, 0 => (s.onLaunch l.idx fun m => { m with next := m.next + 1, withdrawn := m.withdrawn ++ [(unit, uid)] }).markFirst
  | _, _ => s

theorem State.noteWithdrawn_mem_parties (s : State) (uid : Nat) (l : Option Launch) (unit status : Nat) :
    (s.noteWithdrawn uid l unit status).mem = s.mem ∧ (s.noteWithdrawn uid l unit status).parties = s.parties := by
  unfold State.noteWithdrawn
  split
  exacts [⟨rfl, rfl⟩, ⟨rfl, rfl⟩]

/-- A launch whose unit was granted has that unit behind it, and names the party that has it. -/
theorem State.launch?_noteWithdrawn {s : State} {n : Nat} {l : Launch} (h : s.launch? n = some l) (uid unit : Nat) :
    ∃ k, (s.noteWithdrawn uid (some l) unit 0).launch? n =
      some { l with next := l.next + 1, withdrawn := l.withdrawn ++ [(unit, uid)], ready := k } := by
  obtain rfl := State.idx_of_launch? h
  exact State.launch?_markFirst (State.launch?_onLaunch_self
    (f := fun m => { m with next := m.next + 1, withdrawn := m.withdrawn ++ [(unit, uid)] }) h fun _ => rfl)

/-- A store within a range that meets no error is a write. -/
theorem State.store_within {s t : State} {a n l : Nat} {bs : List Byte} (hf : ∀ u ∈ touchedUnits a n, u ∉ s.failing) (hfail : t.failing = s.failing)
    (hlo : a ≤ l) (hhi : l + bs.length ≤ a + n) (src : Issuer) (v : View) (rels : List Release) :
    t.store src v rels none l none none bs [] = (false, t.write src v rels none l bs []) := by
  refine State.store_sound fun u hu => ?_
  rw [mem_touchedUnits] at hu
  rw [hfail]
  exact hf u ((mem_touchedUnits ..).2 (by omega))

section Fetchw

variable {s : State} {uid o : Nat} {p : Party} {rest : List Nat} (hb : s.unitBlocked unitCommand = false) (hp : s.party? uid = some p)
  (hw : p.withdraw = o :: rest) (hs : p.suspended = false)
  (hf : ∀ u ∈ touchedUnits (locScratch p.core ((p.segBase.getD 0 0).toNat + o)) 16, u ∉ s.failing)
include hb hp hw hs hf

theorem exec_fetchwAnswer {unit st : Nat} (hg : s.withdrawal p = (unit, st)) :
    exec (.fetchwAnswer uid) s = .next ((s.mailboxWritten uid (locScratch p.core ((p.segBase.getD 0 0).toNat + o)) rest unit st).noteWithdrawn uid
      (p.launch.bind s.launch?) unit st) := by
  show execFetchwAnswer uid s = _
  unfold execFetchwAnswer
  have hput {t : State} (ht : t.failing = s.failing) {l : Nat} {bs : List Byte} := State.store_within (l := l) (bs := bs) hf ht
  -- Named anew, `State.store` cannot unfold while the kernel checks the steps below: it would compute the units of an address that is not known.
  obtain ⟨store, hstore⟩ : ∃ store, store = @State.store := ⟨_, rfl⟩
  rw [← hstore] at hput ⊢
  simp only [hp, hw, hs, hb, Bool.or_false, Bool.false_eq_true, if_false]
  generalize locScratch p.core ((p.segBase.getD 0 0).toNat + o) = loc at hput ⊢
  let t := s.onParty uid fun p => { p with withdraw := rest }
  let u := t.write commandIssuer [] [] none loc (bytesOf 4 unit ++ bytesOf 4 st ++ bytesOf 4 0)
  have hfirst := hput (t := t) rfl (bs := bytesOf 4 unit ++ bytesOf 4 st ++ bytesOf 4 0) le_rfl (by simp [length_bytesOf]) commandIssuer [] []
  have hdone := hput (t := u) rfl (l := loc + 12) (bs := bytesOf 4 1) (by omega) (by simp [length_bytesOf]) commandIssuer [⟨loc, 12, u.stamp⟩]
    [⟨.dev, commandIssuer, [⟨loc, 12, u.stamp⟩]⟩]
  simp only [t, u] at hfirst hdone
  unfold State.withdrawal at hg
  cases hl : p.launch.bind s.launch? with
  | none =>
    obtain ⟨rfl, rfl⟩ : 0 = unit ∧ 1 = st := by simpa only [hl, Prod.mk.injEq] using hg
    simp only [hfirst, hdone, Bool.false_eq_true, if_false]
    rfl
  | some l =>
    simp only [hl] at hg
    simp only [hg, hfirst, hdone, Bool.false_eq_true, if_false]
    rfl

/-- The answer stands in the mailbox, the request is gone, and no other byte has changed. -/
theorem State.fetchwAnswer_runs (hm : Memory.wf s.mem = true) {unit st : Nat} (hg : s.withdrawal p = (unit, st)) {P : State → Prop}
    (hP : P ((s.mailboxWritten uid (locScratch p.core ((p.segBase.getD 0 0).toNat + o)) rest unit st).noteWithdrawn uid
      (p.launch.bind s.launch?) unit st)) :
    let loc := locScratch p.core ((p.segBase.getD 0 0).toNat + o)
    s.Runs (.fetchwAnswer uid) fun t => P t ∧ t.bytesAt loc 16 = mailboxBytes unit st ∧
      (∀ b, b < loc ∨ loc + 16 ≤ b → t.byteAt b = s.byteAt b) ∧ ∃ q, t.party? uid = some q ∧ q.withdraw = rest := by
  intro loc
  obtain ⟨hmem, hparties⟩ := (s.mailboxWritten uid loc rest unit st).noteWithdrawn_mem_parties uid (p.launch.bind s.launch?) unit st
  refine ⟨_, exec_fetchwAnswer hb hp hw hs hf hg, hP, ?_, fun b hout => ?_, _, (State.party?_congr hparties uid).trans (State.party?_mailbox hp), rfl⟩
  · rw [State.bytesAt_congr hmem]
    exact State.bytesAt_mailbox hm
  · rw [State.byteAt, hmem]
    exact State.byteAt_mailbox hm hout

end Fetchw

/-! ### Retirement (12 R259) -/

theorem State.foldl_onMill_cores (f : Mill → Mill) (ks : List CoreRef) (s : State) :
    ∃ cs, ks.foldl (fun (s : State) k => s.onMill k f) s = { s with cores := cs } := by
  induction ks generalizing s with
  | nil => exact ⟨s.cores, rfl⟩
  | cons k ks ih => exact (ih _).imp fun _ h => h

/-- Dissolving a chain changes the cores alone. -/
theorem State.unlink_cores (s : State) (c : CoreRef) : ∃ cs, s.unlink c = { s with cores := cs } := by
  unfold State.unlink
  split
  · split
    exacts [State.foldl_onMill_cores _ _ s, ⟨s.cores, rfl⟩]
  · exact ⟨s.cores, rfl⟩

theorem State.unlinkOf_cores (s : State) (uid : Nat) : ∃ cs, s.unlinkOf uid = { s with cores := cs } := by
  unfold State.unlinkOf
  generalize s.cores.filter _ = es
  induction es generalizing s with
  | nil => exact ⟨s.cores, rfl⟩
  | cons e es ih =>
    obtain ⟨cs, h⟩ := s.unlink_cores ⟨e.1 / 64, e.1 % 64⟩
    rw [List.foldl_cons, h]
    exact ih _

/-- The device once a party has left it: its accesses, its Outrider, its chains and itself. -/
def State.withoutParty (s : State) (p : Party) : State :=
  ((({ s with flight := s.flight.filter fun a => a.uid != p.uid } : State).onCore p.core fun k =>
    { k with outrider := if k.outrider.uid == p.uid && p.outrider then {} else k.outrider }).unlinkOf p.uid).removeParty p

theorem State.unitOf_single {p : Party} (h : p.company = false) (s : State) : s.unitOf p = [p] := by
  simp [State.unitOf, h]

section Retirement

variable {s : State} {p : Party} (hcomp : p.company = false) (hover : p.over_ = true)
include hcomp hover

theorem State.removeParty_mem_live : (s.removeParty p).mem = s.mem ∧ (s.removeParty p).live = s.live := by
  simp [State.removeParty, State.unitOf_single hcomp, hover, State.onParty]

theorem State.party?_removeParty : (s.removeParty p).party? p.uid = none := by
  simp only [State.removeParty, State.unitOf_single hcomp, List.all_cons, hover, List.all_nil, Bool.and_true, if_true, State.party?,
    List.find?_eq_none, List.mem_filter]
  rintro q ⟨hq, hkept⟩ hid
  obtain ⟨q', -, rfl⟩ := List.mem_map.1 hq
  rw [beq_iff_eq] at hid
  by_cases h : q'.uid = p.uid
  · simp [h] at hkept
  · simp [h] at hid

theorem State.withoutParty_keeps : (s.withoutParty p).party? p.uid = none ∧ (s.withoutParty p).mem = s.mem ∧ (s.withoutParty p).live = s.live := by
  obtain ⟨cs, h⟩ := (({ s with flight := s.flight.filter fun a => a.uid != p.uid } : State).onCore p.core fun k =>
    { k with outrider := if k.outrider.uid == p.uid && p.outrider then {} else k.outrider }).unlinkOf_cores p.uid
  unfold State.withoutParty
  rw [h]
  exact ⟨State.party?_removeParty hcomp hover, State.removeParty_mem_live hcomp hover⟩

theorem exec_partyRetirement (hp : s.party? p.uid = some p) (hs : p.suspended = false) (he : p.entering = none) (hr : p.retired = false)
    (ho : (s.outriderRuns p && !p.ended) = false) (hd : s.commandsDone p = true) :
    exec (.partyRetirement p.uid) s = .next (p.launch.elim (s.withoutParty p) fun n => (s.withoutParty p).onLaunch n fun l =>
      { l with ended := l.ended + 1 + (l.withdrawn.filter fun w => w.2 == p.uid).length }) := by
  show execPartyRetirement p.uid s = _
  have hrest : [p].filter (fun q => q.uid != p.uid && !q.retired) = [] := by simp
  have hbusy : (p.suspended || p.entering.isSome || p.retired || !p.over_ || (s.outriderRuns p && !p.ended) || !s.commandsDone p) = false := by
    simp [hs, he, hr, hover, ho, hd]
  simp only [execPartyRetirement, hp, hbusy, Bool.false_eq_true, if_false, State.unitOf_single hcomp, hrest, List.isEmpty_nil, if_true]
  cases p.launch with
  | none => rfl
  | some n => rfl

end Retirement

end Sys2Proof.Machine

namespace Sys2Proof

open Sys2Proof.Machine

/-- Settles O51: for each occurrence of the command processor, what it does under the conditions of its clause. -/
theorem launchEvents : Obligations.LaunchEvents := by
  intro s ctx q v id lt base die comp uid core c l p hb
  refine ⟨fun hc => exec_doorbell hc q v, fun r a g hr ha hp hg hw hstores hline hqueue => ?_,
    ⟨exec_packetRead_none, fun rs t hq hs hat => ⟨exec_packetRead_poison hb hq hs hat, fun hsound =>
      ⟨exec_packetRead_rejected hb hq hs hat hsound, fun es form read u hk hl => exec_packetRead_taken hb hq hs hat hsound hk hl⟩⟩⟩,
    fun hl => ⟨fun hw he hc => exec_bufferListApplication hb hl hw he hc, exec_unitPlacement hb hl, exec_unitPlacement_unfit hl,
      fun hleft hunit hfirst hres hdie hcomp hready hdue hav hfree => ?_, fun hf hd _ => exec_launchCompletion hb hl hf hd⟩,
    fun hp => ⟨fun o rest hw hs => ?_, fun hs he hr hover ho hd hcomp => ?_⟩⟩
  · intro t d answer
    rw [exec_launchRequest_granted hb hr ha hp hg hw hstores hline hqueue]
    refine ⟨fun hclosed => ?_, fun hopen hfull => ?_, fun hopen hroom f k parts u hf hk => ?_⟩
    · rw [State.launchGrant_closed hclosed]
    · rw [State.launchGrant_full hopen hfull]
    · rw [State.launchGrant_checked hopen hroom hf hk]
  · refine exec_companyReservation hb hl ?_ ?_
    · simp [State.reserveDue, hleft, hunit, hfirst, hres, hready, hdue, State.idx_of_launch? hl]
    · rw [State.reservable, hav]
      simpa [hdie, hcomp] using hfree
  · intro loc answers hf hm
    have hruns {unit st : Nat} (hg : s.withdrawal p = (unit, st)) {P : State → Prop} :=
      State.fetchwAnswer_runs hb hp hw hs hf hm hg (P := P)
    refine ⟨fun hn => hruns (State.withdrawal_none hn) trivial, fun hpl hl => ?_⟩
    have hbind : p.launch.bind s.launch? = some l := by rw [hpl, Option.bind_some, hl]
    have hkept : ∀ unit st, ((s.mailboxWritten uid loc rest unit st).launch? lt).map (·.withdrawn) = some l.withdrawn := fun _ _ => by
      rw [State.launch?_mailbox, hl, Option.map_some]
    refine ⟨fun hfail => hruns (State.withdrawal_failed hbind hfail) ?_, fun he hs => ⟨fun hn => hruns (State.withdrawal_exhausted hbind he hs hn) ?_,
      fun hn => hruns (State.withdrawal_unit hbind he hs hn) ?_⟩⟩
    · rw [hbind]
      exact hkept 0 2
    · rw [hbind]
      exact hkept 0 1
    · rw [hbind]
      obtain ⟨k, hnoted⟩ := State.launch?_noteWithdrawn ((s.launch?_mailbox uid loc rest l.next 0 lt).trans hl) uid l.next
      exact ⟨_, hnoted, rfl, rfl, rfl⟩
  · obtain rfl : p.uid = uid := by simpa using List.find?_some hp
    obtain ⟨hgone, hmem, hlive⟩ := State.withoutParty_keeps (s := s) hcomp hover
    refine ⟨_, exec_partyRetirement hcomp hover hp hs he hr ho hd, ?_⟩
    cases hn : p.launch with
    | none => exact ⟨hgone, hmem, fun h => by cases h⟩
    | some n =>
      refine ⟨hgone, hmem, fun h hl => ?_⟩
      obtain rfl : n = lt := Option.some.inj h
      exact ⟨_, State.launch?_onLaunch_self ((State.launch?_congr hlive n).trans hl) fun _ => rfl, rfl⟩

end Sys2Proof

namespace Sys2Proof.Machine

/-! ### Transfers at their acceptance (13 R274) -/

section Port

variable {s : State} {i : Instr} {x : Turn} {f : PortForm}

/-- Since when the gang waits for scoreboard entries: since now where it has not waited. -/
def State.scoreSince (s : State) (x : Turn) : Nat := match x.g.wait with | some (.score n _) => n | _ => s.nextId

theorem State.portTry_accepts (hcrew : x.g.crew = x.p.producer) (hoff : offsetCheck x.p f.off 64 = 0)
    (hrec : s.recordsOwed x.p x.g.crew f.a2av f.off = false) (hroom : (s.core x.p.core).portQueued < 32)
    (hwait : s.engineWaits x.p.core .porter x.uid = false)
    (hturn : s.overtaken (.engine x.p.core .porter) (requestPlace x.g.effective x.g.crew) = false)
    (hfut : f.nh = false → x.p.freeFuture.isSome = true) (hfree : (s.claims x.p f.a2av f.off).length ≤ x.p.freeScore.length)
    (hscore : s.claims x.p f.a2av f.off = [] ∨ x.p.scoreBefore x.gid (s.scoreSince x) = false)
    (hfull : (x.p.stream (x.g.number.getD 0)).full = false) :
    s.portTry i x f false = (true, ((s.unawait x.p.core x.uid x.gid).serve (.engine x.p.core .porter)
      (requestPlace x.g.effective x.g.crew)).portAccept i x f (s.claims x.p f.a2av f.off)) := by
  have hhandle : (!f.nh && x.p.freeFuture.isNone) = false := by
    rw [Bool.and_eq_false_imp]
    exact fun hn => Option.isNone_eq_false_iff.2 (hfut (by simpa using hn))
  have hclaim : (decide (x.p.freeScore.length < (s.claims x.p f.a2av f.off).length) ||
      (!(s.claims x.p f.a2av f.off).isEmpty && x.p.scoreBefore x.gid (s.scoreSince x))) = false := by
    rw [decide_eq_false (Nat.not_lt.2 hfree), Bool.false_or]
    obtain h | h := hscore <;> simp [h]
  have hqueue : (decide (32 ≤ (s.core x.p.core).portQueued) || (!false && s.engineWaits x.p.core .porter x.uid)) = false := by
    simp [hroom, hwait]
  refine (if_neg (not_not.2 hcrew)).trans ((if_neg (not_not.2 hoff)).trans ((if_neg ?_).trans ((if_neg (Bool.eq_false_iff.1 hqueue)).trans
    ((if_neg (Bool.eq_false_iff.1 hhandle)).trans ((if_neg (Bool.eq_false_iff.1 hclaim)).trans (if_neg (Bool.eq_false_iff.1 hfull)))))))
  simp [hturn, hrec]

/-- An instruction with a Porter form issues as one. -/
theorem exec_eq_portIssue {a : Nat} (hf : portFormOf i a = some f) (s : State) : exec i s = s.portIssue i := by
  unfold portFormOf at hf
  split at hf
  iterate 2 exact rfl
  cases hf

theorem exec_portForm (hf : portFormOf i (((portOperand i).map (uniform32 s x)).getD 0) = some f) (c : s.Clear i x) :
    exec i s = .next (if (s.portTry i x f false).1 then (s.portTry i x f false).2.advance x.uid x.gid i.raw else (s.portTry i x f false).2) := by
  rw [exec_eq_portIssue hf, State.portIssue, State.issue_clear c]
  simp only [hf]

end Port

/-! ### `lseal` departs as one access (13 R279, 10 R213, R214) -/

theorem any_contains_comm {α : Type} [BEq α] [LawfulBEq α] (l m : List α) : l.any m.contains = m.any l.contains := by
  rw [Bool.eq_iff_iff]
  simp only [List.any_eq_true, List.contains_iff_mem]
  exact exists_congr fun _ => and_comm

section Seal

variable {s : State} {x : Turn} {a : Access}

theorem Access.open_of_isSent (h : a.stage.isSent = true) : a.open_ = true := by
  unfold Access.open_
  cases hs : a.stage with
  | done | refused => rw [hs] at h; cases h
  | _ => rfl

/-- Every access of the party that has still to be performed is of an earlier instruction and of other fibres. -/
def State.Apart (s : State) (a : Access) : Prop :=
  ∀ b ∈ s.flight, b.uid = a.uid → b.open_ = true → b.insn < a.insn ∧ a.sameFibre b = false

theorem State.Apart.sameFibre_false (h : s.Apart a) {b : Access} (hb : b ∈ s.flight) (ho : b.open_ = true) : a.sameFibre b = false := by
  by_cases hu : b.uid = a.uid
  · exact (h b hb hu ho).2
  · simp [Access.sameFibre, Ne.symm hu]

theorem State.awaits_of_apart (h : s.Apart a) : s.awaits a = false := by
  refine List.any_eq_false.2 fun b hb hwait => ?_
  simp only [Bool.and_eq_true, Bool.or_eq_true, beq_iff_eq, decide_eq_true_eq] at hwait
  obtain ⟨hsent, ⟨⟨-, hsame⟩, -⟩ | ⟨⟨⟨⟨hinsn, huid⟩, -⟩, -⟩, -⟩⟩ := hwait
  · exact Bool.false_ne_true ((h.sameFibre_false hb (Access.open_of_isSent hsent)).symm.trans hsame)
  · exact Nat.lt_irrefl _ (hinsn ▸ (h b hb huid (Access.open_of_isSent hsent)).1)

theorem State.awaitsStore_of_apart (h : s.Apart a) : s.awaitsStore a = false := by
  rw [State.awaitsStore, Bool.and_eq_false_imp]
  refine fun _ => List.any_eq_false.2 fun b hb hwait => ?_
  simp only [Bool.and_eq_true] at hwait
  obtain ⟨⟨⟨⟨-, hopen⟩, -⟩, hsame⟩, -⟩ := hwait
  exact Bool.false_ne_true ((h.sameFibre_false hb hopen).symm.trans hsame)

/-- No access of the gang's own fibres is an acquire that has still to be performed. -/
theorem State.noAcquire_of_apart (h : s.Apart a) (hu : a.uid = x.uid) (hf : a.fibs = x.g.fibres) :
    ((s.itemsOf x.uid x.g).any fun b => b.open_ && b.reads && ordAcquires b.ord && !b.aside) = false := by
  refine List.any_eq_false.2 fun b hb hwait => ?_
  obtain ⟨hb, hgang⟩ := List.mem_filter.1 hb
  simp only [Bool.and_eq_true] at hwait
  obtain ⟨⟨⟨hopen, -⟩, -⟩, -⟩ := hwait
  have hsame := h.sameFibre_false hb hopen
  rw [Access.sameFibre, hu, hf, any_contains_comm, BEq.comm] at hsame
  exact Bool.false_ne_true (hsame.symm.trans hgang)

/-- A relaxed access departs where its gang has no fault to take, it meets no claimed range and no open access, and its store queue
has room (12 R267). -/
theorem State.memWait_go (hfault : s.pendingFaults x.uid x.g = []) (hscore : a.parts.any x.p.scoreHit = false) (hapart : s.Apart a)
    (hu : a.uid = x.uid) (hf : a.fibs = x.g.fibres) (hroom : s.queued (crewOf x.p x.g) + unitCount [a] ≤ 64) : s.memWait x [a] .relaxed = .go := by
  have hfull : (([a].any (·.stores)) && decide (64 < s.queued (crewOf x.p x.g) + unitCount ([a].filter (·.stores)))) = false := by
    cases hs : a.stores <;> simp [hs, Nat.not_lt.2 hroom]
  refine (if_neg ?_).trans ((if_neg ?_).trans ((if_neg ?_).trans (if_neg (Bool.eq_false_iff.1 hfull))))
  iterate 2 simp [hfault]
  · simp [hscore, State.awaits_of_apart hapart, State.awaitsStore_of_apart hapart, State.noAcquire_of_apart hapart hu hf, ordSequential]

/-- A seal that departs joins the accesses in flight and its crew's store queue; nothing is performed yet (12 R267). -/
theorem State.depart_seal (s : State) (uid crew : Nat) {dst : Nat} (ho : a.op = .seal dst) :
    (∃ b, (s.depart uid crew [a]).flight = s.flight ++ [b] ∧ b.op = a.op ∧ b.parts = a.parts ∧ b.uid = a.uid ∧ b.gid = a.gid ∧ b.dest = a.dest) ∧
    (s.depart uid crew [a]).mem = s.mem := by
  simp [State.depart, ho, Access.stores]

end Seal

section Lseal

variable {s : State} {h : Head} {d a b : Opnd} {k : Bool} {x : Turn} {f : Fibre}

/-- The access that an `lseal` makes of its two extents, before it departs, and the state that has named it. -/
def State.sealAccess (u : State) (x : Turn) (i : Instr) (f : Fibre) (d : Opnd) (k : Bool) (src dst : Nat) (parts : List Part) : Access × State :=
  let r := u.fresh.2.newAccess x i u.fresh.1 none (.seal dst) (u.fresh.2.destOf x.p f d 1)
  ({ r.1 with sp := if k then .k else .s, addr := w64 src, parts := parts, srcs := [w64 src, w64 dst], view := x.p.viewOf x.ms }, r.2)

/-- Past its checks an `lseal` departs where nothing holds its access back. -/
theorem State.lsealTry_go {i : Instr} {src dst : Nat} {c1 c2 : Nat × List Part × State} (hsrc : src % 16 = 0) (hdst : dst % 16 = 0)
    (h1 : s.checkMem x.p f x.g.level (if k then .k else .s) src 64 false false = c1)
    (h2 : c1.2.2.checkMem x.p f x.g.level .s dst 64 true false = c2) (hcs : c1.1 = 0) (hcd : c2.1 = 0) :
    let r := c2.2.2.sealAccess x i f d k src dst (c1.2.1 ++ c2.2.1)
    r.2.memWait x [r.1] .relaxed = .go → s.lsealTry x i f d k src dst = .go (r.2.depart x.uid x.g.crew [r.1]) := by
  intro r hgo
  obtain ⟨ks, ps, s1⟩ := c1
  obtain ⟨kd, pd, s2⟩ := c2
  obtain rfl : ks = 0 := hcs
  obtain rfl : kd = 0 := hcd
  have hdef : @State.lsealTry = @State.lsealTry := rfl
  conv_rhs at hdef => delta State.lsealTry
  rw [hdef]
  -- The checks become an unknown function, so that nothing compares what they compute.
  obtain ⟨check, hcheck⟩ : ∃ g, g = @State.checkMem := ⟨_, rfl⟩
  rw [← hcheck] at h1 h2 ⊢
  dsimp only [r, State.sealAccess] at h2 hgo ⊢
  rw [h1]
  dsimp only
  rw [h2]
  dsimp only
  rw [if_neg (not_not.2 hsrc), if_neg (not_not.2 hdst), if_neg (not_not.2 rfl), if_neg (not_not.2 rfl), hgo]

/-- With no fault to take, no claimed range met, no open access of its own fibres and room in the store queue, nothing holds the access back, and it alone
joins what is in flight. -/
theorem State.sealAccess_departs (u : State) (i : Instr) (f : Fibre) (d : Opnd) (k : Bool) (src dst : Nat) {parts : List Part}
    (hfault : u.pendingFaults x.uid x.g = [])
    (hopen : ∀ b ∈ u.flight, b.uid = x.uid → b.open_ = true → b.insn < u.nextId ∧ b.fibs.any x.g.fibres.contains = false)
    (hscore : parts.any x.p.scoreHit = false)
    (hroom : u.queued (crewOf x.p x.g) + (parts.flatMap fun q => touchedUnits q.va q.len).eraseDups.length ≤ 64) :
    let r := u.sealAccess x i f d k src dst parts
    let t := (r.2.depart x.uid x.g.crew [r.1]).advance x.uid x.gid i.raw
    r.2.memWait x [r.1] .relaxed = .go ∧ ∃ acc, t.flight = u.flight ++ [acc] ∧ acc.op = .seal dst ∧ acc.parts = parts ∧ acc.uid = x.uid ∧
      acc.gid = x.gid ∧ acc.dest = u.destOf x.p f d 1 ∧ SameBytes u t := by
  intro r t
  have hflight : r.2.flight = u.flight := rfl
  have hparts : r.1.parts = parts := rfl
  have huid : r.1.uid = x.uid := rfl
  have hfibs : r.1.fibs = x.g.fibres := rfl
  have hapart : r.2.Apart r.1 := fun b hb hu ho => by
    obtain ⟨hinsn, hother⟩ := hopen b (hflight ▸ hb) hu ho
    refine ⟨hinsn, ?_⟩
    rw [Access.sameFibre, any_contains_comm, hfibs, hother, Bool.and_false]
  refine ⟨State.memWait_go hfault (hparts ▸ hscore) hapart huid hfibs ?_, ?_⟩
  · rwa [unitCount, List.flatMap_singleton, hparts]
  · obtain ⟨⟨acc, hfl, hop, hps, hau, hag, had⟩, hmem⟩ := r.2.depart_seal x.uid x.g.crew (a := r.1) (dst := dst) rfl
    refine ⟨acc, (State.flight_advance _ x i.raw).trans hfl, hop, hps, hau, hag, had, fun loc => ?_⟩
    rw [(State.sameDevice_advance _ x i.raw).sameBytes loc, State.byteAt, hmem]
    rfl

theorem exec_lseal (c : s.Clear (.lseal h d a b k) x) (hf : supplier x.ms = some f) {t : State}
    (ht : s.lsealTry x (.lseal h d a b k) f d k (uniform32 s x (.op a)) (uniform32 s x (.op b)) = .go t) :
    exec (.lseal h d a b k) s = .next (t.advance x.uid x.gid (Instr.lseal h d a b k).raw) := by
  refine (State.issue_clear c _).trans ?_
  simp only [hf, ht]
  rfl

end Lseal

/-! ### Batches (13 R298, R300) -/

theorem Stream.sealed_close_opened (st : Stream) (r : Option Nat) : (st.opened.close r).sealed ≠ [] := by
  unfold Stream.opened Stream.close
  cases ho : st.openB <;> simp [ho]

theorem Party.stream_setStream (p : Party) (n : Nat) {st : Stream} (h : st.sealed ≠ []) : (p.setStream n st).stream n = st := by
  have hne : st ≠ {} := fun hd => h (congrArg Stream.sealed hd)
  rw [Party.setStream, Party.stream, sset, if_neg hne, sget_sput_self]

section Batches

variable {s : State} {h : Head} {d : Opnd} {y : Src} {rec : Bool} {x : Turn}

/-- The state of a party whose stream has been given a new value. -/
def State.withStream (s : State) (uid n : Nat) (st : Stream) : State := s.onParty uid fun p => p.setStream n st

/-- A gang that is given words and goes on leaves its party's streams as they are. -/
theorem State.stream_giveWords (ht : s.turnOf = some x) (n : Nat) {st : Stream} (hst : st.sealed ≠ []) (i : Instr) (insn : Nat) (dest : List DestReg)
    (ws : List Word) : ∃ q, ((s.withStream x.uid n st).fresh.2.giveWords x i insn dest ws).party? x.uid = some q ∧ q.stream n = st := by
  obtain ⟨-, hp, hg, -, hpc⟩ := State.turnOf_some ht
  have hset : (s.withStream x.uid n st).party? x.uid = some (x.p.setStream n st) := State.party?_onParty_self hp (f := (·.setStream n st)) fun _ => rfl
  have hgo := State.party?_advance_self (s := (s.withStream x.uid n st).fresh.2.owe x i insn none dest ws) (x := { x with p := x.p.setStream n st })
    hset hg hpc i.raw
  exact ⟨_, hgo, x.p.stream_setStream n hst⟩

theorem exec_bseal {f : Fibre} (c : s.Clear (.bseal h d y rec) x) (hf : supplier x.ms = some f) (hcrew : x.g.crew = x.p.producer)
    (hoff : rec = true → offsetCheck x.p (uniform32 s x y) 16 = 0) (hroom : (x.p.stream (x.g.number.getD 0)).sealed.length < 64) :
    let st := (x.p.stream (x.g.number.getD 0)).opened
    exec (.bseal h d y rec) s = .next ((s.withStream x.uid (x.g.number.getD 0)
      (st.close (if rec then some (uniform32 s x y) else none))).fresh.2.giveWords x (.bseal h d y rec) s.nextId (s.destOf x.p f d 1)
        [w32 ((st.openB.map (·.num)).getD 0)]) := by
  intro st
  have hcheck : (rec && offsetCheck x.p (uniform32 s x y) 16 != 0) = false := by
    rw [Bool.and_eq_false_imp]
    exact fun hr => by simp [hoff hr]
  refine (State.issue_clear c _).trans (congrArg _ ?_)
  rw [State.bsealTry, if_neg (not_not.2 hcrew), if_neg (Bool.eq_false_iff.1 hcheck), if_neg (Nat.not_le.2 hroom)]
  simp only [hf]
  rfl

theorem exec_bwait_goes (c : s.Clear (.bwait h y) x) (hcrew : x.g.crew = x.p.producer)
    (hn : (x.p.stream (x.g.number.getD 0)).sealed.length ≤ uniform32 s x y) :
    exec (.bwait h y) s = .next ((s.onMembers x.uid x.gid fun m =>
      { m with portSeen := View.join m.portSeen (x.p.stream (x.g.number.getD 0)).view }).advance x.uid x.gid (Instr.bwait h y).raw) := by
  refine (State.issue_clear c _).trans (congrArg _ ?_)
  rw [State.bwaitTry, if_neg (not_not.2 hcrew), if_neg (Nat.not_lt.2 hn), State.conclude]

theorem exec_bwait_waits (c : s.Clear (.bwait h y) x) (hcrew : x.g.crew = x.p.producer)
    (hn : uniform32 s x y < (x.p.stream (x.g.number.getD 0)).sealed.length) : exec (.bwait h y) s = .next (s.holdAgain x.uid x.gid) := by
  refine (State.issue_clear c _).trans (congrArg _ ?_)
  rw [State.bwaitTry, if_neg (not_not.2 hcrew), if_pos hn, State.conclude]

end Batches

/-! ### Instructions on futures (07 R165) -/

section Futures

variable {s : State} {x : Turn} {f : Fibre}

/-- Gang `x` is given a status of one word and goes on. -/
def State.giveFuture (t : State) (x : Turn) (i : Instr) (f : Fibre) (d : Opnd) (w : Word) : State :=
  t.fresh.2.giveWords x i t.fresh.1 (t.fresh.2.destOf x.p f d 1) [w]

section Form

variable {i : Instr} {d a : Opnd} {go : Turn → Nat → Future → Option (Word × State)} (c : s.Clear i x) (hf : supplier x.ms = some f)
include c

include hf in
theorem State.futureForm_stale (hw : x.p.handle (uniform32 s x (.op a)) = none) :
    s.futureForm i d a go = .next (s.giveFuture x i f d (statusWord futStale 0 false)) := by
  refine (State.issue_clear c _).trans ?_
  dsimp only
  rw [hw, hf]
  rfl

variable {n : Nat} (hw : x.p.handle (uniform32 s x (.op a)) = some n)
include hw

include hf in
theorem State.futureForm_answers {w : Word} {t : State} (hgo : go x n (x.p.future n) = some (w, t)) :
    s.futureForm i d a go = .next (t.giveFuture x i f d w) := by
  refine (State.issue_clear c _).trans ?_
  dsimp only
  rw [hw, hf]
  dsimp only
  rw [hgo]
  rfl

theorem State.futureForm_waits {q : Nat} (hd : d = .s q) (hgo : go x n (x.p.future n) = none) :
    s.futureForm i d a go = .next (((s.stampIssue x.uid x.gid).hold x.uid x.gid (.future n q)).deadlocks x.uid x.g.crew) := by
  subst hd
  refine (State.issue_clear c _).trans ?_
  dsimp only
  rw [hw]
  dsimp only
  rw [hgo]

end Form

variable {h : Head} {d a : Opnd}

/-- The three instructions are one form, and on a resolved entry each gives its status and frees it. -/
theorem exec_futureForm {i : Instr} (hi : i ∈ [Instr.ftest h d a, .fwait h d a, .fcancel h d a]) : ∃ go, exec i s = s.futureForm i d a go ∧
    ∀ (x : Turn) (n : Nat) (fu : Future), fu.resolved = true → go x n fu = some (fu.word, (s.seeStatus x.uid x.gid fu).onParty x.uid (·.consume n)) := by
  simp only [List.mem_cons, List.not_mem_nil, or_false] at hi
  obtain rfl | rfl | rfl := hi
  · exact ⟨_, show execFtest h d a s = _ from rfl, fun x n fu hr => by simp only [hr, if_true]⟩
  · exact ⟨_, show execFwait h d a s = _ from rfl, fun x n fu hr => by simp only [hr, if_true]⟩
  · exact ⟨_, show execFcancel h d a s = _ from rfl, fun x n fu hr => by simp only [hr, if_true]⟩

variable (hf : supplier x.ms = some f) {n : Nat} (hw : x.p.handle (uniform32 s x (.op a)) = some n)
include hw

include hf in
theorem exec_ftest_pending (c : s.Clear (.ftest h d a) x) (hr : (x.p.future n).resolved = false) :
    exec (.ftest h d a) s = .next (s.giveFuture x (.ftest h d a) f d (x.p.future n).word) := by
  show execFtest h d a s = _
  exact State.futureForm_answers c hf hw (by rw [hr]; rfl)

theorem exec_fwait_pending (c : s.Clear (.fwait h d a) x) (hr : (x.p.future n).resolved = false) {q : Nat} (hd : d = .s q) :
    exec (.fwait h d a) s = .next (((s.stampIssue x.uid x.gid).hold x.uid x.gid (.future n q)).deadlocks x.uid x.g.crew) := by
  show execFwait h d a s = _
  exact State.futureForm_waits c hw hd (by rw [hr]; rfl)

include hf in
/-- A command that has started drops its result when it ends. -/
theorem exec_fcancel_started (c : s.Clear (.fcancel h d a) x) (hr : (x.p.future n).resolved = false)
    (hc : s.cancelCommand x.p.core x.uid n (x.p.future n).engine = none) :
    exec (.fcancel h d a) s = .next ((s.onParty x.uid fun p => p.setFuture n { x.p.future n with drop := true }).giveFuture x (.fcancel h d a) f d
      (statusWord futPending 0 false)) := by
  show execFcancel h d a s = _
  exact State.futureForm_answers c hf hw (by simp only [hr, hc, Bool.false_eq_true, if_false])

include hf in
theorem exec_fcancel_queued (c : s.Clear (.fcancel h d a) x) (hr : (x.p.future n).resolved = false) {t : State}
    (hc : s.cancelCommand x.p.core x.uid n (x.p.future n).engine = some t) (hwaits : x.p.fwaiters n = []) :
    exec (.fcancel h d a) s = .next ((t.onParty x.uid (·.consume n)).giveFuture x (.fcancel h d a) f d (statusWord futCancelled 0 false)) := by
  show execFcancel h d a s = _
  exact State.futureForm_answers c hf hw (by simp only [hr, hc, hwaits, Bool.false_eq_true, if_false, List.foldl_nil])

end Futures

end Sys2Proof.Machine

namespace Sys2Proof

open Sys2Proof.Machine

/-- Settles O44: each form's arm where nothing holds it back. -/
theorem porterForms : Obligations.PorterForms := by
  intro s h d a b y rec k nh urg x f hf
  refine ⟨?_, ?_, ?_, ?_, ?_⟩
  · intro e he c pf cs line place since hcrew hoff hrec hroom hwait hturn hfut hfree hscore hfull
    have hform : portFormOf e.1 (((portOperand e.1).map (uniform32 s x)).getD 0) = some pf := by
      simp only [List.mem_cons, List.not_mem_nil, or_false] at he
      obtain rfl | rfl := he
      all_goals rfl
    rw [exec_portForm hform c, State.portTry_accepts hcrew hoff hrec hroom hwait hturn hfut hfree hscore hfull]
    rfl
  · intro i src dst p1 p2 parts u c hsrc hdst hp1 hp2 hfault hopen hscore hroom
    obtain ⟨hgo, acc, hdeparts⟩ := u.sealAccess_departs i f d k src dst hfault hopen hscore hroom
    exact ⟨_, exec_lseal c hf (State.lsealTry_go (c1 := p1) (c2 := p2) hsrc hdst rfl rfl hp1 hp2 hgo), acc, hdeparts⟩
  · intro i off num st c hcrew hoff hroom
    obtain ⟨acc, hfl, hdest, hop⟩ := State.flight_giveWords
      (s.withStream x.uid num (st.close (if rec then some off else none))).fresh.2 x i s.nextId (s.destOf x.p f d 1) [w32 ((st.openB.map (·.num)).getD 0)]
    exact ⟨_, exec_bseal c hf hcrew hoff hroom, s.stream_giveWords c.turn num ((x.p.stream num).sealed_close_opened _) i _ _ _,
      acc, hfl, hdest, hop, (State.sameDevice_advance _ x i.raw).mem⟩
  · intro i st c hcrew
    exact ⟨exec_bwait_goes c hcrew, exec_bwait_waits c hcrew⟩
  · intro w give forms
    refine ⟨fun hw i hi c => ?_, fun n hw => ?_⟩
    · obtain ⟨go, hexec, -⟩ := exec_futureForm hi
      exact hexec.trans (State.futureForm_stale c hf hw)
    · intro fu
      refine ⟨fun hr i hi c => ?_, fun hr => ⟨fun c => exec_ftest_pending hf hw c hr, fun c q hd => exec_fwait_pending hw c hr hd,
        fun c => exec_fcancel_started hf hw c hr, fun c t ht hwaits => exec_fcancel_queued hf hw c hr ht hwaits⟩⟩
      obtain ⟨go, hexec, hgo⟩ := exec_futureForm hi
      exact hexec.trans (State.futureForm_answers c hf hw (hgo x n fu hr))

end Sys2Proof

namespace Sys2Proof.Machine

/-! ### Tiles combine element by element (13 R286) -/

/-- Pieces of one length, one after another: the value of the one at place `k`. -/
theorem leAt_flatMap {α : Type} {g : α → List Byte} {n : Nat} (hg : ∀ a, (g a).length = n) {l : List α} {k : Nat} {a : α} (hk : l[k]? = some a) :
    leAt (l.flatMap g) (k * n) n = leNat (g a) := by
  induction l generalizing k with
  | nil => simp at hk
  | cons b l ih =>
    rw [List.flatMap_cons]
    cases k with
    | zero =>
      obtain rfl : b = a := by simpa using hk
      rw [leAt_append_left _ _ _ _ (by simp [hg]), leAt, Nat.zero_mul, List.drop_zero, List.take_of_length_le (hg b).le]
    | succ k =>
      rw [leAt_append_right _ _ _ _ (by rw [hg, Nat.succ_mul]; omega), hg, Nat.succ_mul, Nat.add_sub_cancel]
      exact ih (by simpa using hk)

theorem tileElems_getElem? {es k : Nat} {bs : List Byte} (hes : 0 < es) (hk : (k + 1) * es ≤ bs.length) :
    (tileElems es bs)[k]? = some (leAt bs (k * es) es) := by
  rw [tileElems, List.getElem?_map, List.getElem?_range ((Nat.le_div_iff_mul_le hes).2 hk), Option.map_some]

/-- Element `k` of two tiles combined is the two tiles' elements `k` combined, as wide as an element is. -/
theorem leAt_combineTiles (red : Nat) (t : Ty) {a b : List Byte} {k : Nat} (hes : 0 < t.width / 8) (hlen : a.length = b.length)
    (hk : (k + 1) * (t.width / 8) ≤ a.length) :
    leAt (combineTiles red t a b) (k * (t.width / 8)) (t.width / 8) =
      combine red t (leAt a (k * (t.width / 8)) (t.width / 8)) (leAt b (k * (t.width / 8)) (t.width / 8)) % 2 ^ (8 * (t.width / 8)) := by
  have hzip : ((tileElems (t.width / 8) a).zip (tileElems (t.width / 8) b))[k]? =
      some (leAt a (k * (t.width / 8)) (t.width / 8), leAt b (k * (t.width / 8)) (t.width / 8)) :=
    List.getElem?_zip_eq_some.2 ⟨tileElems_getElem? hes hk, tileElems_getElem? hes (hlen ▸ hk)⟩
  rw [combineTiles, leAt_flatMap (fun _ => length_leBytes _ _) hzip, leNat_leBytes, show 256 = 2 ^ 8 from rfl, ← pow_mul]

/-- The sum of integers wraps at the width of the type, which is as wide as an element is or wider. -/
theorem combine_sum_mod {t : Ty} (hf : t.isFloat = false) (u v : Nat) : combine 1 t u v % 2 ^ (8 * (t.width / 8)) = (u + v) % 2 ^ (8 * (t.width / 8)) := by
  simp only [combine, hf, Bool.false_eq_true, if_false]
  exact Nat.mod_mod_of_dvd _ (pow_dvd_pow 2 (Nat.mul_div_le _ _))

/-! ### Messages of a collective (13 R287 to R296, R302) -/

section Stranger

variable {s : State} {m : MsgHead} (hat : s.collAt m = none)
include hat

theorem exec_handshake_early {body : Handshake} (hearly : s.tables.early.contains (m, body) = false) (hjob : (s.jobCtx? m.job).isSome = true) :
    exec (.handshake m body) s = .next (s.onTables fun t => { t with early := t.early ++ [(m, body)] }) := by
  show execHandshake m body s = _
  have hnone : (s.jobCtx? m.job).isNone = false := Option.isNone_eq_false_iff.2 hjob
  simp only [execHandshake, hat, hearly, hnone, Bool.or_self, Bool.false_eq_true, if_false]

theorem exec_withdrawal_early : exec (.withdrawal m) s =
    .next (s.onTables fun t => { t with early := t.early.filter fun y => !sameSender y.1 m || y.2.kind == 255 }) := by
  show execWithdrawal m s = _
  simp only [execWithdrawal, hat]

end Stranger

section Participant

variable {s : State} {m : MsgHead} {d : Nat} {e : Collective} {x : Transfer} {p : Party} (hat : s.collAt m = some (d, e, x, p))
include hat

theorem exec_abortNotice : exec (.abortNotice m) s = .next ((s.abortColl d e 1).ackTo x e m abortId) := by
  show execAbortNotice m s = _
  simp only [execAbortNotice, hat]

theorem exec_messageAcknowledgement_message {id : Nat} (hid : id < 2 ^ 32) : exec (.messageAcknowledgement m id) s =
    .next (s.setColl d { e with unacked := e.unacked.filter fun u => u.id != msgId d e.idx id }) := by
  show execMessageAcknowledgement m id s = _
  simp only [execMessageAcknowledgement, hat]
  exact if_neg fun h => Nat.not_le.2 hid h.1

/-- A sender's word that its block for this member has ended without an error. -/
theorem exec_messageAcknowledgement_block (hx : x.cmd.a2av = true) :
    exec (.messageAcknowledgement m (2 ^ 32)) s = .next (s.setColl d { e with blocks := natAdd e.blocks m.src }) := by
  show execMessageAcknowledgement m (2 ^ 32) s = _
  simp only [execMessageAcknowledgement, hat]
  rw [if_pos ⟨le_rfl, hx⟩, if_pos trivial]

theorem exec_withdrawal : exec (.withdrawal m) s = .next (if e.begun then s else s.setColl d { e with hands := sdel e.hands m.src }) := by
  show execWithdrawal m s = _
  simp only [execWithdrawal, hat]

variable (ha : e.abort = none)
include ha

theorem exec_handshake (body : Handshake) : exec (.handshake m body) s =
    .next ((s.setColl d { e with hands := sput e.hands m.src body }).beginColl d { e with hands := sput e.hands m.src body }) := by
  show execHandshake m body s = _
  simp only [execHandshake, hat, ha, Option.isSome_none, Bool.false_eq_true, if_false]

variable (hbegun : e.begun = true) (hp : p.ended = false)

section Reduction

variable {tile : TileMsg}

omit ha in
/-- A merged contribution is for nobody where SWITCH_MERGE has not been negotiated, or with DET (00 R4, 17 R375). -/
theorem exec_contribution_unmerged (hmerged : tile.bitmap ≠ 2 ^ m.src)
    (hneg : s.steward.negfeat.getLsbD 33 = false ∨ (shapeOf x.shape).det = true) : exec (.contribution m tile) s = .next s := by
  have hdrop : (tile.bitmap != 2 ^ m.src && (!s.steward.negfeat.getLsbD 33 || (shapeOf x.shape).det)) = true := by
    rw [Bool.and_eq_true, Bool.or_eq_true, Bool.not_eq_true']
    exact ⟨by simpa using hmerged, hneg⟩
  show execContribution m tile s = _
  simp only [execContribution, hat, hdrop, if_true, ite_self]

variable (hx : x.cmd.a2av = false)
include hbegun hp hx

theorem exec_contribution_applied
    (hmerged : tile.bitmap ≠ 2 ^ m.src → s.steward.negfeat.getLsbD 33 = true ∧ (shapeOf x.shape).det = false)
    (htile : tile.tile < (layoutOf x.src).tiles) (howner : (shapeOf x.shape).owner tile.tile = e.self) {t : State}
    (ht : s.applyTile x p e.core e m.src tile = (.ok, t) ∨ s.applyTile x p e.core e m.src tile = (.wait, t)) :
    exec (.contribution m tile) s = .next t := by
  have hkeep : (tile.bitmap != 2 ^ m.src && (!s.steward.negfeat.getLsbD 33 || (shapeOf x.shape).det)) = false := by
    rw [Bool.and_eq_false_imp]
    intro h
    obtain ⟨hneg, hdet⟩ := hmerged (by simpa using h)
    simp [hneg, hdet]
  have hmine : (!e.begun || x.cmd.a2av || decide ((layoutOf x.src).tiles ≤ tile.tile) || (shapeOf x.shape).owner tile.tile != e.self) = false := by
    simp [hbegun, hx, htile, howner]
  show execContribution m tile s = _
  simp only [execContribution, hat, ha, hp, hkeep, hmine, Option.isSome_none, Bool.or_self, Bool.false_eq_true, if_false]
  obtain ht | ht := ht
  · simp only [ht]
  · simp only [ht]

section Final

variable (hmode : (shapeOf x.shape).mode = 2) (htile : tile.tile < (layoutOf x.dst).tiles)
include hmode htile

omit hat in
theorem final_isFor : (e.abort.isSome || p.ended || !e.begun || x.cmd.a2av || (shapeOf x.shape).mode != 2 ||
    decide ((layoutOf x.dst).tiles ≤ tile.tile)) = false := by
  simp [ha, hp, hbegun, hx, hmode, htile]

theorem exec_final_again (hfinal : e.finals.contains tile.tile = true) :
    exec (.final m tile) s = .next (s.ackTo x e m (finalId tile.tile e.self)) := by
  show execFinal m tile s = _
  simp only [execFinal, hat, final_isFor ha hbegun hp hx hmode htile, hfinal, Bool.false_eq_true, if_false, if_true]

theorem exec_final_placed (hfinal : e.finals.contains tile.tile = false) (hbusy : e.busy tile.tile = false) {ps : List (List Part)} {t : State}
    (hparts : s.chunkParts x p tile.tile = (.ok, ps, t)) :
    let w := t.writeTile x p e.core tile.tile ps tile.bytes tile.poison
    exec (.final m tile) s = .next (w.2.2.tileWritten e.core x p e ⟨tile.tile, tile.tile, [m.src], tile.bitmap, true, tile.bytes, tile.poison⟩
      (w.1, w.2.1)) := by
  show execFinal m tile s = _
  simp only [execFinal, hat, final_isFor ha hbegun hp hx hmode htile, hfinal, hbusy, hparts, Bool.false_eq_true, if_false]

end Final

end Reduction

section Exchange

variable (hx : x.cmd.a2av = true)
include hbegun hp hx

theorem exec_countMessage (hnew : sfind e.counts m.src = none) (n : Nat) :
    let e' := { e with counts := sput e.counts m.src n }
    exec (.countMessage m n) s = .next (((s.setColl d e').ackTo x e' m (countId e.self)).answerCounts p e.core x e') := by
  show execCountMessage m n s = _
  simp only [execCountMessage, hat, ha, hbegun, hp, hx, hnew, Option.isSome_none, Bool.not_true, Bool.or_self, Bool.false_eq_true, if_false]

theorem exec_offsetReply (hnew : e.replyOf m.src = none) (off : Option Nat) : exec (.offsetReply m off) s =
    .next ((s.setColl d { e with replies := e.replies ++ [(m.src, off)] }).ackTo x e m (offsetId e.self)) := by
  show execOffsetReply m off s = _
  simp only [execOffsetReply, hat, ha, hbegun, hp, hx, hnew, Option.isSome_none, Bool.not_true, Bool.or_self, Bool.false_eq_true, if_false]

end Exchange

end Participant

theorem exec_collectiveAckTimeout {s : State} {c : CoreRef} {slot : Nat} {y : Transfer} {k : Collective} (hy : s.xferAt c slot = some y)
    (hk : s.collOf c y = some k) (id : Nat) : exec (.collectiveAckTimeout c slot id) s =
      .next (if k.unacked.any fun u => u.id == msgId c.die k.idx id && decide (u.deadline ≤ s.clock.toNat) then s.abortColl c.die k 3 else s) := by
  show execCollectiveAckTimeout c slot id s = _
  simp only [execCollectiveAckTimeout, hy, hk]
  exact (apply_ite Host.Outcome.next _ _ _).symm

end Sys2Proof.Machine

namespace Sys2Proof

open Sys2Proof.Machine

/-- Settles O50: the elements of combined tiles, and each message's arm under the conditions of its clause. -/
theorem collectiveEvents : Obligations.CollectiveEvents := by
  intro s m body tile d n id off e x p
  refine ⟨?_, fun hat => exec_handshake_early hat, exec_withdrawal_early, fun hat =>
    ⟨fun ha => exec_handshake hat ha body, fun ha hbegun hp hx => ⟨fun hmerged hneg => exec_contribution_unmerged hat hmerged hneg,
      fun hmerged htile howner t ht => exec_contribution_applied hat ha hbegun hp hx hmerged htile howner ht,
      fun hmode htile => ⟨exec_final_again hat ha hbegun hp hx hmode htile,
        fun ps t hfinal hbusy hparts => exec_final_placed hat ha hbegun hp hx hmode htile hfinal hbusy hparts⟩⟩,
    exec_abortNotice hat, exec_messageAcknowledgement_message hat, exec_messageAcknowledgement_block hat,
    fun c slot y k hy hk => exec_collectiveAckTimeout hy hk id,
    fun ha hbegun hp hx => ⟨fun hnew => exec_countMessage hat ha hbegun hp hx hnew n, fun hnew => exec_offsetReply hat ha hbegun hp hx hnew off⟩,
    exec_withdrawal hat⟩⟩
  intro red k t a b es u v f into hes hlen hk
  have hinto {w : Nat} (h : combine red t u v % 2 ^ (8 * es) = w % 2 ^ (8 * es)) : into w := (leAt_combineTiles red t hes hlen hk).trans h
  have hsame {w : Nat} (h : combine red t u v = w) : into w := hinto (congrArg (· % 2 ^ (8 * es)) h)
  refine ⟨fun hf => ⟨?_, ?_, ?_⟩, fun hf => ⟨?_, ?_, ?_⟩, ?_, ?_, ?_⟩
  all_goals rintro rfl
  iterate 3 exact hsame (if_pos hf)
  · exact hinto (combine_sum_mod hf u v)
  iterate 2 exact hsame (if_neg (Bool.eq_false_iff.1 hf))
  all_goals exact hsame rfl

end Sys2Proof

namespace Sys2Proof.Machine

/-! ### Words written with their fields (14 R325) -/

theorem toNat_w64 {x : Nat} (h : x < 2 ^ 64) : (w64 x).toNat = x := Nat.mod_eq_of_lt h

/-! ### What has been sent stays sent -/

@[simp] theorem State.emit_sent (s : State) (m : Sent) : (s.emit m).sent = m :: s.sent := rfl

/-- A step that takes no message back. -/
def SendsOnly {α : Type} (f : State → α → State) : Prop := ∀ s a m, m ∈ s.sent → m ∈ (f s a).sent

theorem SendsOnly.emit {α : Type} (g : α → Sent) : SendsOnly fun (s : State) a => s.emit (g a) := fun _ _ _ h => List.mem_cons_of_mem _ h

section Sends

variable {α : Type} {f : State → α → State} {l : List α} {m : Sent} (hf : SendsOnly f)
include hf

theorem SendsOnly.mem_foldl {s : State} (h : m ∈ s.sent) : m ∈ (l.foldl f s).sent := by
  induction l generalizing s with
  | nil => exact h
  | cons a l ih => exact ih (hf s a m h)

/-- What one step of many sends has been sent after them all. -/
theorem SendsOnly.mem_foldl_of_mem {a : α} (ha : a ∈ l) (hm : ∀ s, m ∈ (f s a).sent) (s : State) : m ∈ (l.foldl f s).sent := by
  induction l generalizing s with
  | nil => cases ha
  | cons b l ih =>
    rw [List.foldl_cons]
    cases ha with
    | head => exact hf.mem_foldl (hm s)
    | tail _ ha => exact ih ha _

end Sends

/-! ### Inbound packets (14 R316, R317) -/

theorem exec_inboundPacket_unknown {s : State} {q : Packet} (h : s.jobCtx? q.job = none) :
    exec (.inboundPacket q) s = .next ((s.linkEvent 0x0319).answer q (.nack XFault.noContext.code)) := by
  show execInboundPacket q s = _
  simp only [execInboundPacket, State.inbound, h]

/-- Other devices' packets are not refused a region that is open to them. -/
theorem Context.opens_region {k : Context} {q : Packet} (hinb : ∀ r, sfind k.regions q.region = some r → r.inb = true) :
    ((sfind k.regions q.region).any fun r => !r.inb && decide (q.offset < r.limit)) = false := by
  cases hr : sfind k.regions q.region with
  | none => rfl
  | some r => simp [hinb r hr]

section Inbound

variable {s t : State} {q : Packet} {k : Context} (hk : s.jobCtx? q.job = some k) (hops : q.hops < 3) (hcnt : ∀ a b v, q.op ≠ .cnt a b v)
  (hfence : q.op ≠ .fence)
include hk hops hcnt hfence

/-- A packet other than a counter's and a fence's goes on to its page. -/
theorem exec_inboundPacket_access : exec (.inboundPacket q) s = .next (s.inboundAt k q []) := by
  show execInboundPacket q s = _
  simp only [execInboundPacket, State.inbound, hk, if_neg (Nat.not_le.2 hops)]

variable (hspan : q.offset % 65536 + pktSpan q.op ≤ 65536) (hinb : ∀ r, sfind k.regions q.region = some r → r.inb = true)
include hspan hinb

theorem exec_inboundPacket_performed {l : Nat} {w rp : Option Nat}
    (ht : s.translate k q.region q.offset (pktKind q.op) (some q.init) [] = (.loc l w rp, t)) :
    exec (.inboundPacket q) s = .next (t.performPacket k q l w rp) := by
  rw [exec_inboundPacket_access hk hops hcnt hfence, State.inboundAt, if_neg (Nat.not_lt.2 hspan), Context.opens_region hinb, ht]
  rfl

theorem exec_inboundPacket_peer {r g o : Nat} (ht : s.translate k q.region q.offset (pktKind q.op) (some q.init) [] = (.peer r g o, t)) :
    exec (.inboundPacket q) s = .next (if t.pieceRefused k q then t.answer q (.data [] 0) else t.forwardPacket k q r g o) := by
  rw [exec_inboundPacket_access hk hops hcnt hfence, State.inboundAt, if_neg (Nat.not_lt.2 hspan), Context.opens_region hinb, ht]
  rfl

end Inbound

/-- A packet passed on is the same access, once more hopped, at the address the leaf gives. -/
theorem State.forwardPacket_sends (t : State) (k : Context) (q : Packet) (r g o : Nat) :
    ∃ p f, (t.forwardPacket k q r g o).sent = .packet r p :: t.sent ∧ p.hops = q.hops + 1 ∧ p.region = g ∧ p.offset = o ∧ p.op = q.op ∧
      p.init = q.init ∧ p.tag = q.tag ∧ (t.forwardPacket k q r g o).tables.forwarded = t.tables.forwarded ++ [f] :=
  ⟨_, _, rfl, rfl, rfl, rfl, rfl, rfl, rfl, rfl⟩

/-! ### Held faults (14 R323 to R325) -/

/-- The device once each remote initiator that an entry keeps waiting has been told to hold. -/
def State.holdSent (s : State) (e : Pending) : State :=
  e.locks.foldl (fun (s : State) k => s.emit (.hold k.2.2.1.rank k.2.2.1.tag))
    (e.inbound.foldl (fun (s : State) p => if p.init = hostInit ∨ p.tag = 0 then s else s.emit (.hold p.init p.tag)) s)

theorem State.mem_holdSent (s : State) (e : Pending) :
    (∀ b ∈ e.inbound, b.init ≠ hostInit → b.tag ≠ 0 → Sent.hold b.init b.tag ∈ (s.holdSent e).sent) ∧
    ∀ k ∈ e.locks, Sent.hold k.2.2.1.rank k.2.2.1.tag ∈ (s.holdSent e).sent := by
  have hpackets : SendsOnly fun (s : State) (p : Packet) => if p.init = hostInit ∨ p.tag = 0 then s else s.emit (.hold p.init p.tag) := by
    intro s p m h
    dsimp only
    split
    · exact h
    · exact List.mem_cons_of_mem _ h
  have hlocks := SendsOnly.emit fun k : Nat × Nat × HomeAsk × List Byte => Sent.hold k.2.2.1.rank k.2.2.1.tag
  refine ⟨fun b hb hhost htag => hlocks.mem_foldl (hpackets.mem_foldl_of_mem hb (fun s => ?_) s),
    fun k hk => hlocks.mem_foldl_of_mem hk (fun s => List.mem_cons_self) _⟩
  rw [if_neg (by simp [hhost, htag])]
  exact List.mem_cons_self

section Pending

variable {s : State} {tok : Nat} {e : Pending} (he : s.pendingOf tok = some e)
include he

theorem State.freply_resume {x : DWord} (htok : fld x 31 0 = tok) (hop : fld x 63 62 = 0) (v : View) :
    s.freply x v = ({ s with sys := { s.sys with freply := x &&& fieldMask [(63, 62), (55, 48), (31, 0)] } } : State).resumeEntry e v := by
  have hnamed : ∀ y, ({ s with sys := y } : State).pendingOf tok = some e := fun _ => he
  simp only [State.freply, htok, hop, hnamed]

theorem State.freply_nack {x : DWord} (htok : fld x 31 0 = tok) (hop : fld x 63 62 = 1) (v : View) :
    s.freply x v = ({ s with sys := { s.sys with freply := x &&& fieldMask [(63, 62), (55, 48), (31, 0)] } } : State).refuseEntry e (fld x 55 48) := by
  have hnamed : ∀ y, ({ s with sys := y } : State).pendingOf tok = some e := fun _ => he
  simp only [State.freply, htok, hop, hnamed]

theorem exec_freplyResume (htok : tok < 2 ^ 32) :
    ∃ v x, exec (.freplyResume tok) s = .next (({ s with sys := { s.sys with freply := x } } : State).resumeEntry e v) := by
  have hval : (w64 tok).toNat = tok := toNat_w64 (by omega)
  have hop : fld (w64 tok) 63 62 = 0 := by rw [fld, bits, hval]; omega
  refine ⟨[⟨0, 2 ^ 42, s.stamp⟩], w64 tok &&& fieldMask [(63, 62), (55, 48), (31, 0)], ?_⟩
  show execFreplyResume tok s = _
  rw [execFreplyResume, State.freply_resume he (by rw [fld, bits, hval]; omega) hop]

theorem exec_freplyNack (htok : tok < 2 ^ 32) (cls : Nat) :
    ∃ x, exec (.freplyNack tok cls) s = .next (({ s with sys := { s.sys with freply := x } } : State).refuseEntry e (cls % 256)) := by
  have hval : (w64 (2 ^ 62 + cls % 256 * 2 ^ 48 + tok)).toNat = 2 ^ 62 + cls % 256 * 2 ^ 48 + tok := toNat_w64 (by omega)
  have hop : fld (w64 (2 ^ 62 + cls % 256 * 2 ^ 48 + tok)) 63 62 = 1 := by rw [fld, bits, hval]; omega
  have hcls : fld (w64 (2 ^ 62 + cls % 256 * 2 ^ 48 + tok)) 55 48 = cls % 256 := by rw [fld, bits, hval]; omega
  refine ⟨w64 (2 ^ 62 + cls % 256 * 2 ^ 48 + tok) &&& fieldMask [(63, 62), (55, 48), (31, 0)], ?_⟩
  show execFreplyNack tok cls s = _
  rw [execFreplyNack, State.freply_nack he (by rw [fld, bits, hval]; omega) hop, hcls]

theorem exec_holdInterval (hdue : e.lastHold + 2500 ≤ s.clock.toNat) :
    exec (.holdInterval tok) s = .next ((s.holdSent e).setPending tok fun e => { e with lastHold := e.lastHold + 2500 }) := by
  show execHoldInterval tok s = _
  simp only [execHoldInterval, he, if_neg (Nat.not_lt.2 hdue)]
  rfl

theorem exec_holdExpired : exec (.holdExpired tok) s =
    .next (if e.since + s.sys.fhold < s.clock.toNat then s.refuseEntry e XFault.holdExpired.code else s) := by
  show execHoldExpired tok s = _
  simp only [execHoldExpired, he]

end Pending

/-! ### Grants (09 R207, 14 R319) -/

/-- The directory's entry of a page. -/
def State.sharerOf (s : State) (ctx region page : Nat) : Option Sharer :=
  s.tables.sharers.find? fun h => h.ctx == ctx && h.region == region && h.page == page

/-- Revocations sent one after another all name the job that the context has now. -/
theorem State.foldl_revoke (ctx region page : Nat) (l : List Nat) (s : State) :
    l.foldl (fun (s : State) r => s.emit (.revoke r (s.jobOf ctx) region page)) s =
      l.foldl (fun (t : State) r => t.emit (.revoke r (s.jobOf ctx) region page)) s := by
  induction l generalizing s with
  | nil => rfl
  | cons a l ih => exact ih _

/-- The other holders of a page that is to be recalled, and have not been asked, are told to give it up. -/
theorem State.recall_revokes {s : State} {ctx region page rank r : Nat} {h : Sharer} (hs : s.sharerOf ctx region page = some h) (hr : r ∈ h.holders)
    (hne : r ≠ rank) (hp : r ∉ h.pending) : Sent.revoke r (s.jobOf ctx) region page ∈ (s.recall ctx region page true (some rank)).2.sent := by
  have hother : r ∈ h.holders.filter fun r => some rank != some r := List.mem_filter.2 ⟨hr, by simpa using Ne.symm hne⟩
  have hask : r ∈ (h.holders.filter fun r => some rank != some r).filter fun r => !h.pending.contains r := List.mem_filter.2 ⟨hother, by simpa using hp⟩
  have hsome : (h.holders.filter fun r => some rank != some r).isEmpty = false := List.isEmpty_eq_false_iff.2 (List.ne_nil_of_mem hother)
  have hfind : s.tables.sharers.find? (fun h => h.ctx == ctx && h.region == region && h.page == page) = some h := hs
  simp only [State.recall, hfind, hsome, Bool.true_or, Bool.not_true, Bool.or_self, Bool.false_eq_true, if_false]
  show _ ∈ State.sent (List.foldl _ s _)
  rw [State.foldl_revoke]
  exact (SendsOnly.emit fun r => Sent.revoke r (s.jobOf ctx) region page).mem_foldl_of_mem hask (fun _ => List.mem_cons_self) s

/-- The home performs the access itself where it records no grant. -/
def State.turnedAway (s : State) (job region page rank : Nat) (write : Bool) : State := s.emit (.reply rank (grantTag job region page write) (.nack 0))

section Cached

variable {s : State} {c : Context} {job region page rank : Nat} {write : Bool} (hc : s.jobCtx? job = some c)

include hc

section Unshared

variable (hs : s.sharerOf c.num region (c.pageOf region (page * 65536)) = none)
include hs

theorem exec_cachedRequest_recorded (hroom : s.tables.sharers.length < 65536) : exec (.cachedRequest job region page rank write) s =
    .next ((s.onTables fun t => { t with sharers := t.sharers ++ [{ ctx := c.num, region := region, page := c.pageOf region (page * 65536), write := write
                                                                    holders := [rank] }] }).emit (.grant rank job region page write)) := by
  unfold State.sharerOf at hs
  show execCachedRequest job region page rank write s = _
  simp only [execCachedRequest, hc, hs, if_neg (Nat.not_le.2 hroom)]

theorem exec_cachedRequest_full (hfull : 65536 ≤ s.tables.sharers.length) :
    exec (.cachedRequest job region page rank write) s = .next (s.turnedAway job region page rank write) := by
  unfold State.sharerOf at hs
  show execCachedRequest job region page rank write s = _
  simp only [execCachedRequest, hc, hs, if_pos hfull, State.turnedAway]

end Unshared

variable {h : Sharer} (hs : s.sharerOf c.num region (c.pageOf region (page * 65536)) = some h)
include hs

theorem exec_cachedRequest_recalls {r : Nat} (hr : r ∈ h.holders) (hne : r ≠ rank) : exec (.cachedRequest job region page rank true) s =
    .next ((s.recall c.num region (c.pageOf region (page * 65536)) true (some rank)).2.later
      (.cachedRequest job region (c.pageOf region (page * 65536)) rank true)) := by
  have hother : (h.holders.filter (· != rank)).isEmpty = false :=
    List.isEmpty_eq_false_iff.2 (List.ne_nil_of_mem (List.mem_filter.2 ⟨hr, by simpa using hne⟩))
  unfold State.sharerOf at hs
  show execCachedRequest job region page rank true s = _
  simp only [execCachedRequest, hc, hs, hother, Bool.true_or, Bool.not_false, Bool.and_self, if_true]

variable (hw : h.write = false)
include hw

/-- A reader joins the readers that a page has. -/
theorem exec_cachedRequest_shared (hroom : h.holders.length < 8) :
    let h' := { h with holders := if h.holders.contains rank then h.holders else h.holders ++ [rank] }
    exec (.cachedRequest job region page rank false) s =
      .next ((s.onTables fun t => { t with sharers := t.sharers.map fun g => if g == h then h' else g }).emit (.grant rank job region page false)) := by
  unfold State.sharerOf at hs
  show execCachedRequest job region page rank false s = _
  have hfits : (!h.holders.contains rank && decide (8 ≤ h.holders.length)) = false := by simp [hroom]
  simp only [execCachedRequest, hc, hs, hw, hfits, Bool.or_self, Bool.false_and, Bool.false_eq_true, if_false]

theorem exec_cachedRequest_crowded (hnew : rank ∉ h.holders) (hfull : 8 ≤ h.holders.length) :
    exec (.cachedRequest job region page rank false) s = .next (s.turnedAway job region page rank false) := by
  unfold State.sharerOf at hs
  show execCachedRequest job region page rank false s = _
  have hcrowd : (!h.holders.contains rank && decide (8 ≤ h.holders.length)) = true := by simp [hnew, hfull]
  simp only [execCachedRequest, hc, hs, hw, hcrowd, Bool.or_self, Bool.false_and, Bool.false_eq_true, if_false, if_true, State.turnedAway]

end Cached

/-! ### Revocations (09 R207) -/

/-- The lines of one page of another device. -/
def Held.ofPage (ctx region page home : Nat) (k : Held) : Bool := k.ctx == ctx && k.region == region && k.page == page && k.home == home

theorem Held.ofPage_iff {ctx region page home : Nat} {k : Held} :
    k.ofPage ctx region page home = true ↔ k.ctx = ctx ∧ k.region = region ∧ k.page = page ∧ k.home = home := by
  simp [Held.ofPage, and_assoc]

/-- An access on its way to another device is left alone. -/
theorem Access.walkAgain_of_isSent {a : Access} (h : a.stage.isSent = true) (mine : Held → Bool) (lines : List Held) : a.walkAgain mine lines = a := by
  unfold Access.walkAgain
  cases hst : a.stage with
  | sent d => rfl
  | _ => rw [hst] at h; cases h

/-- An access that translates again was not on its way, and is not now. -/
theorem Access.walkAgain_isSent (a : Access) (mine : Held → Bool) (lines : List Held) : (a.walkAgain mine lines).stage.isSent = a.stage.isSent := by
  unfold Access.walkAgain
  dsimp only
  split
  · next h =>
    rw [Bool.and_eq_true, beq_iff_eq] at h
    rw [h.1]
    rfl
  · rfl

/-- The accesses on their way to a page are the same ones after the others have been told to translate again. -/
theorem State.pageBusy_walkAgain (s : State) (c : Context) (region page home : Nat) (mine : Held → Bool) :
    ({ s with flight := s.flight.map fun a => a.walkAgain mine s.tables.lines } : State).pageBusy c region page home = s.pageBusy c region page home := by
  simp only [State.pageBusy, List.any_map]
  refine congrArg (s.flight.any ·) (funext fun a => ?_)
  rw [Function.comp_apply, Access.walkAgain_isSent]
  cases h : a.stage.isSent with
  | false => rfl
  | true => rw [Access.walkAgain_of_isSent h]

/-- The accesses after a revocation: those not yet sent to the page translate again. -/
def State.walkingAgain (s : State) (c : Context) (region page home : Nat) : List Access :=
  s.flight.map fun a => a.walkAgain (Held.ofPage c.num region page home) s.tables.lines

/-- A directory entry without a holder of its page. -/
def Sharer.without (h : Sharer) (ctx region page rank : Nat) : Sharer :=
  if h.ctx == ctx && h.region == region && h.page == page
  then { h with holders := h.holders.filter (· != rank), pending := h.pending.filter (· != rank) } else h

theorem Sharer.notMem_without {h : Sharer} {ctx region page rank : Nat} (hctx : (h.without ctx region page rank).ctx = ctx)
    (hreg : (h.without ctx region page rank).region = region) (hpage : (h.without ctx region page rank).page = page) :
    rank ∉ (h.without ctx region page rank).holders := by
  unfold Sharer.without at *
  split
  · simp
  · next hother =>
    rw [if_neg hother] at hctx hreg hpage
    simp [hctx, hreg, hpage] at hother

section Revocation

variable {s : State} {c : Context} {job : Nat} (hc : s.jobCtx? job = some c) (region page home : Nat)

include hc

theorem exec_revocation : exec (.revocation job region page home) s = .next (
    let t : State := { s with flight := s.walkingAgain c region page home }
    if s.pageBusy c region page home then
      (t.onTables fun u => { u with lines := u.lines.map fun k => if k.ofPage c.num region page home then { k with revoked := true } else k }).later
        (.revocation job region page home)
    else (t.onTables fun u => { u with lines := u.lines.filter fun k => !k.ofPage c.num region page home }).tick.emit (.revoked home job region page)) := by
  show execRevocation job region page home s = _
  simp only [execRevocation, hc]
  rw [State.pageBusy_walkAgain]
  split <;> rfl

theorem State.revocation_waits (hbusy : s.pageBusy c region page home = true) : s.Runs (.revocation job region page home) fun t =>
    t.sent = s.sent ∧ t.flight = s.walkingAgain c region page home ∧ ∀ k ∈ t.tables.lines, k.ofPage c.num region page home = true → k.revoked = true := by
  refine ⟨_, (exec_revocation hc region page home).trans (congrArg _ (if_pos hbusy)), rfl, rfl, fun k hk hmine => ?_⟩
  obtain ⟨k₀, -, rfl⟩ := List.mem_map.1 hk
  split
  · rfl
  · next h => rw [if_neg h] at hmine; exact absurd hmine h

theorem State.revocation_acknowledges (hidle : s.pageBusy c region page home = false) : s.Runs (.revocation job region page home) fun t =>
    t.sent = .revoked home job region page :: s.sent ∧ t.flight = s.walkingAgain c region page home ∧
      ∀ k ∈ t.tables.lines, k.ofPage c.num region page home = false := by
  refine ⟨_, (exec_revocation hc region page home).trans (congrArg _ (if_neg (by rw [hidle]; decide))), rfl, rfl, fun k hk => ?_⟩
  simpa using (List.mem_filter.1 hk).2

theorem exec_revocationAcknowledgement (rank : Nat) : exec (.revocationAcknowledgement job region page rank) s =
    .next (s.onTables fun t => { t with
      sharers := (t.sharers.map (·.without c.num region (c.pageOf region (page * 65536)) rank)).filter fun h => !h.holders.isEmpty }).tick := by
  show execRevocationAcknowledgement job region page rank s = _
  simp only [execRevocationAcknowledgement, hc]
  rfl

end Revocation

/-! ### Replicas (09 R206, 14 R321) -/

section Replica

variable {s t : State} {c : Context} {job : Nat} (hc : s.jobCtx? job = some c) {region off : Nat} {home : HomeAsk}
include hc

theorem exec_replicaLock (data : List Byte) : exec (.replicaLock job region off home data) s = .next (s.lockReplica c region off home data []) := by
  show execReplicaLock job region off home data s = _
  simp only [execReplicaLock, hc]

theorem exec_replicaLock_held {f : XFault} (hl : s.replicaLeaf c region off [] = (.error f, t)) (data : List Byte) :
    let held := t.holdFault c region off f 6 true home.rank fun e => { e with locks := e.locks ++ [(region, off, home, data)] }
    exec (.replicaLock job region off home data) s =
      .next (if held.1.isSome then held.2 else held.2.emit (.reply home.rank home.tag (.nack XFault.destBusy.code))) := by
  intro held
  rw [exec_replicaLock hc, State.lockReplica, hl]
  show Host.Outcome.next (match held with | (some _, s) => s | (none, s) => s.emit _) = _
  rcases held with ⟨_ | tok, u⟩ <;> rfl

theorem exec_replicaLock_taken {w : DWord} (hl : s.replicaLeaf c region off [] = (.ok w, t)) (data : List Byte) :
    let lock : Locked := ⟨c.num, region, c.pageOf region off, home.rank⟩
    let l := fld w 38 16 * 65536 + off % 2 ^ (((sfind c.regions region).map Region.pageBits).getD 16)
    exec (.replicaLock job region off home data) s = .next (((t.onTables fun u => { u with
      locked := if u.locked.contains lock then u.locked else u.locked ++ [lock] }).store { cls := .fab, remote := some home.rank }
        [⟨l, data.length, t.stamp⟩] [] none l (c.weightOf w) none data).2.emit (.reply home.rank home.tag (.data [] 0))) := by
  intro lock l
  rw [exec_replicaLock hc, State.lockReplica, hl]
  rfl

theorem exec_replicaUnlock : exec (.replicaUnlock job region off home) s =
    .next ((s.onTables fun t => { t with locked := t.locked.filter fun k => k != ⟨c.num, region, c.pageOf region off, home.rank⟩ }).tick.emit
      (.reply home.rank home.tag (.data [] 0))) := by
  show execReplicaUnlock job region off home s = _
  simp only [execReplicaUnlock, hc]

end Replica

end Sys2Proof.Machine

namespace Sys2Proof

open Sys2Proof.Machine

/-- Settles O48: for each occurrence at the Customs unit, what it does under the conditions of its clause. -/
theorem customsEvents : Obligations.CustomsEvents := by
  intro s tok cls job region page rank off home tag write data q e c
  refine ⟨exec_inboundPacket_unknown, fun k hk hops hcnt hfence hspan hinb =>
    ⟨fun l w rp t ht => exec_inboundPacket_performed hk hops hcnt hfence hspan hinb ht,
      fun r g o t ht => ⟨exec_inboundPacket_peer hk hops hcnt hfence hspan hinb ht, t.forwardPacket_sends k q r g o⟩⟩,
    fun htok he => ⟨exec_freplyResume he htok, exec_freplyNack he htok cls⟩,
    fun he => ⟨fun hdue => ⟨_, exec_holdInterval he hdue, s.mem_holdSent e⟩, exec_holdExpired he⟩, fun hc => ?_⟩
  have hmine : (fun k : Held => decide (k.ctx = c.num ∧ k.region = region ∧ k.page = page ∧ k.home = home)) = Held.ofPage c.num region page home :=
    funext fun k => (Bool.eq_iff_iff.2 (decide_eq_true_iff.trans Held.ofPage_iff.symm))
  refine ⟨fun hs hroom => ⟨_, exec_cachedRequest_recorded hc hs hroom, rfl, rfl⟩, fun hs hfull => ⟨_, exec_cachedRequest_full hc hs hfull, rfl, rfl⟩,
    fun h hs => ⟨?_, ?_, ?_⟩, ⟨fun hbusy => ?_, fun hidle => ?_⟩, ⟨_, exec_revocationAcknowledgement hc region page rank, fun h hh => ?_⟩,
    fun f t hl => exec_replicaLock_held hc hl data, fun w t hl => exec_replicaLock_taken hc hl data, ⟨_, exec_replicaUnlock hc, rfl, fun k hk => ?_⟩⟩
  · rintro rfl hw hroom
    exact ⟨_, exec_cachedRequest_shared hc hs hw hroom, rfl⟩
  · rintro rfl hw hnew hfull
    exact ⟨_, exec_cachedRequest_crowded hc hs hw hnew hfull, rfl, rfl⟩
  · rintro rfl ⟨r, hr, hne⟩
    exact ⟨_, exec_cachedRequest_recalls hc hs hr hne, fun r hr hne hp => State.recall_revokes hs hr hne hp⟩
  · obtain ⟨t, ht, hsent, hflight, hlines⟩ := State.revocation_waits hc region page home hbusy
    refine ⟨t, ht, hsent, ?_, fun k hk hmk => hlines k hk (Held.ofPage_iff.2 hmk)⟩
    rw [hmine]
    exact hflight
  · obtain ⟨t, ht, hsent, hflight, hlines⟩ := State.revocation_acknowledges hc region page home hidle
    refine ⟨t, ht, hsent, ?_, fun k hk hmk => Bool.false_ne_true ((hlines k hk).symm.trans (Held.ofPage_iff.2 hmk))⟩
    rw [hmine]
    exact hflight
  · obtain ⟨h₀, -, rfl⟩ := List.mem_map.1 (List.mem_filter.1 hh).1
    exact Sharer.notMem_without
  · simpa using (List.mem_filter.1 hk).2

end Sys2Proof

namespace Sys2Proof.Machine

/-! ### The table port (14 R303 to R309, R315, R321) -/

/-- TACC once an operation of the port is over. -/
def State.taccDone (s : State) (v : DWord) (err : Bool) : State := { s with sys := { s.sys with tacc := statusBits taccFields v err } }

/-- Word `k` of TDAT. -/
def State.tdatAt (s : State) (k : Nat) : DWord := s.sys.tdat.getD k 0

section Port

variable {s : State} {v : DWord} (hz : zeroes v 49 32 = true)
include hz

section Read

variable (hr : v.getLsbD 61 = false)
include hr

theorem exec_tableRead_found {ws : List DWord} (he : s.tableEntry v = some ws) :
    exec (.tableRead v) s = .next (({ s with sys := { s.sys with tdat := (ws ++ [0, 0, 0, 0]).take 4 } } : State).taccDone v false) := by
  show execTableRead v s = _
  simp only [execTableRead, State.portFor, State.tableAccess, hz, hr, he, BEq.rfl, Option.all_none, Bool.and_self, Bool.not_true, Bool.false_eq_true, if_true,
    if_false, State.taccDone]

theorem exec_tableRead_refused (he : s.tableEntry v = none) : exec (.tableRead v) s = .next (s.taccDone v true) := by
  show execTableRead v s = _
  simp only [execTableRead, State.portFor, State.tableAccess, hz, hr, he, BEq.rfl, Option.all_none, Bool.and_self, Bool.not_true, Bool.false_eq_true, if_true,
    if_false, State.taccDone]

end Read

section Write

variable (hw : v.getLsbD 61 = true) {k : Nat} (hk : fld v 60 56 = k)
include hw hk

theorem State.portFor_taken {t : State} (ht : s.tableWrite v = some t) : s.portFor v true (some k) = .next (t.taccDone v false) := by
  simp only [State.portFor, State.tableAccess, hz, hw, hk, ht, BEq.rfl, Option.all_some, Bool.and_self, Bool.not_true, Bool.false_eq_true, if_true, if_false,
    State.taccDone]

theorem State.portFor_refused (ht : s.tableWrite v = none) : s.portFor v true (some k) = .next (s.taccDone v true) := by
  simp only [State.portFor, State.tableAccess, hz, hw, hk, ht, BEq.rfl, Option.all_some, Bool.and_self, Bool.not_true, Bool.false_eq_true, if_true, if_false,
    State.taccDone]

end Write

end Port

section Entries

variable {s : State} {v : DWord}

/-- The words of TDAT past an entry of three words are zero, and so are those past one of two. -/
theorem State.tdat_past_three (h3 : s.tdatAt 3 = 0) : (((List.range 4).drop 3).all fun k => s.sys.tdat.getD k 0 == 0) = true := by
  show (s.tdatAt 3 == 0 && true) = true
  rw [h3]
  rfl

theorem State.tdat_past_two (h2 : s.tdatAt 2 = 0) (h3 : s.tdatAt 3 = 0) : (((List.range 4).drop 2).all fun k => s.sys.tdat.getD k 0 == 0) = true := by
  show (s.tdatAt 2 == 0 && (s.tdatAt 3 == 0 && true)) = true
  rw [h2, h3]
  rfl

theorem State.tableWrite_region (hk : fld v 60 56 = 0) (hi : fld v 31 0 < 64) (h2 : s.tdatAt 2 = 0) (h3 : s.tdatAt 3 = 0) :
    s.tableWrite v = s.writeRegion (fld v 55 50) (fld v 31 0) (s.tdatAt 0) (s.tdatAt 1) := by
  simp only [State.tableWrite, hk, hi, State.tdat_past_two h2 h3, decide_true, Bool.and_self, if_true]
  rfl

theorem State.tableWrite_window (hk : fld v 60 56 = 1) (hi : fld v 31 0 < 256) (h3 : s.tdatAt 3 = 0) :
    s.tableWrite v = s.writeWindow (fld v 31 0) (s.tdatAt 0) (s.tdatAt 1) (s.tdatAt 2) := by
  simp only [State.tableWrite, hk, hi, State.tdat_past_three h3, decide_true, Bool.and_self, if_true]
  rfl

theorem State.tableWrite_context (hk : fld v 60 56 = 2) (hi : fld v 31 0 = 0) (h2 : s.tdatAt 2 = 0) (h3 : s.tdatAt 3 = 0) :
    s.tableWrite v = s.writeContext (fld v 55 50) (s.tdatAt 0) (s.tdatAt 1) := by
  simp only [State.tableWrite, hk, hi, State.tdat_past_two h2 h3, decide_true, Bool.and_self, if_true]
  rfl

theorem State.tableWrite_replica (hk : fld v 60 56 = 3) (hi : fld v 31 0 < 4096) : s.tableWrite v = s.writeReplica (fld v 31 0) s.sys.tdat := by
  simp [State.tableWrite, hk, hi]

end Entries

section Regions

variable {s : State} {ctx i : Nat} {w0 w1 : DWord}

theorem State.writeRegion_refused (h : regionOf w0 w1 = none) : s.writeRegion ctx i w0 w1 = none := by
  rw [State.writeRegion, h]
  rfl

/-- A region's entry replaced, or taken away where the words do not make it PRESENT. -/
def State.regionPut (s : State) (ctx i : Nat) (ws : List DWord) (r : Option Region) : State :=
  ((s.setCtxAny { s.ctxAny ctx with regions := match r with
    | some a => sput (s.ctxAny ctx).regions i a
    | none => sdel (s.ctxAny ctx).regions i }).cutWalks ctx i 0 (2 ^ 40)).keepRaw (rawKey 0 ctx i) ws

theorem State.writeRegion_taken {r : Option Region} (h : regionOf w0 w1 = some r) :
    s.writeRegion ctx i w0 w1 = some (s.regionPut ctx i [w0, w1] r) := by
  rw [State.writeRegion, h]
  rfl

end Regions

section Replicas

variable {s : State} {i : Nat} {ws : List DWord}

theorem State.writeReplica_refused (h : replicaOf ws = none) : s.writeReplica i ws = none := by
  rw [State.writeReplica, h]
  rfl

/-- A replica descriptor replaced, or taken away where the words do not make it VALID. -/
def State.replicaPut (s : State) (i : Nat) (ws : List DWord) (r : Option Replica) : State :=
  (s.onTables fun t => { t with replicas := match r with
    | some e => sput t.replicas i e
    | none => sdel t.replicas i }).keepRaw (rawKey 3 0 i) ws

theorem State.writeReplica_taken {r : Option Replica} (h : replicaOf ws = some r) : s.writeReplica i ws = some (s.replicaPut i ws r) := by
  rw [State.writeReplica, h]
  rfl

end Replicas

section Windows

variable {s : State} {i : Nat} {w0 w1 w2 : DWord}

theorem State.writeWindow_refused (h : s.windowCopied i = true ∨ windowOfWords w0 w1 w2 = none) : s.writeWindow i w0 w1 w2 = none := by
  obtain h | h := h
  · simp [State.writeWindow, h]
  · simp [State.writeWindow, h]

/-- The windows with a new table, and the words that an entry of it was written with. -/
def State.windowsPut (s : State) (i : Nat) (ws : List DWord) (t : Sparse Window) : State :=
  (s.onTables fun u => { u with windows := t }).keepRaw (rawKey 1 0 i) ws

variable (hc : s.windowCopied i = false) {n : Window} (hn : windowOfWords w0 w1 w2 = some n)
include hc hn

theorem State.writeWindow_valid (hv : w0.getLsbD 63 = true) : s.writeWindow i w0 w1 w2 =
    if s.windowFits i n then some (s.windowsPut i [w0, w1, w2] (sput s.tables.windows i n)) else none := by
  simp only [State.writeWindow, hc, hn, hv, Bool.false_eq_true, if_true, if_false, State.windowsPut]

theorem State.writeWindow_invalid (hv : w0.getLsbD 63 = false) : s.writeWindow i w0 w1 w2 =
    if s.windowShape n then some (s.windowsPut i [w0, w1, w2] (sdel s.tables.windows i)) else none := by
  simp only [State.writeWindow, hc, hn, hv, Bool.false_eq_true, if_false, State.windowsPut]

end Windows

/-- What a write of the port comes to, by whether the entry takes it. -/
theorem State.portFor_ite {s t : State} {v : DWord} (hz : zeroes v 49 32 = true) (hw : v.getLsbD 61 = true) {k : Nat} (hk : fld v 60 56 = k) {b : Bool}
    (ht : s.tableWrite v = if b then some t else none) : s.portFor v true (some k) = .next (if b then t.taccDone v false else s.taccDone v true) := by
  cases b with
  | false => exact State.portFor_refused hz hw hk ht
  | true => exact State.portFor_taken hz hw hk ht

theorem exec_regionAttributeWrite {s : State} {v : DWord} (h : s.regionOpen v = false) :
    exec (.regionAttributeWrite v) s = s.portFor v true (some 0) := by
  show execRegionAttributeWrite v s = _
  simp [execRegionAttributeWrite, h]

theorem exec_regionAttributeWrite_waits {s : State} {v : DWord} (h : s.regionOpen v = true) :
    exec (.regionAttributeWrite v) s = .next (s.later (.regionAttributeWrite v)) := by
  show execRegionAttributeWrite v s = _
  simp [execRegionAttributeWrite, h]

/-! ### Contexts, VALID or not -/

section Contexts

variable (s : State) (c : Context)

/-- Writing a context changes the tables alone. -/
theorem State.setCtxAny_tables : ∃ t, s.setCtxAny c = { s with tables := t } := by
  unfold State.setCtxAny
  split
  exacts [⟨_, rfl⟩, ⟨_, rfl⟩]

@[simp] theorem State.setCtxAny_sys : (s.setCtxAny c).sys = s.sys := by
  obtain ⟨t, h⟩ := s.setCtxAny_tables c
  rw [h]

@[simp] theorem State.setCtxAny_mem : (s.setCtxAny c).mem = s.mem := by
  obtain ⟨t, h⟩ := s.setCtxAny_tables c
  rw [h]

/-- A context reads back as it was written. -/
theorem State.ctxAny_setCtxAny {n : Nat} (hn : c.num = n) : (s.setCtxAny c).ctxAny n = c := by
  subst hn
  unfold State.setCtxAny
  split
  · simp [State.ctxAny, State.ctx?, State.setCtx, State.onTables]
  · next h =>
    have hnone : sfind s.tables.contexts c.num = none := by simpa [State.ctx?] using h
    simp [State.ctxAny, State.ctx?, State.onTables, hnone]

end Contexts

/-! ### The counter map and the version windows (15 R333, R344) -/

/-- The device with a value in CMACC. -/
def State.setCmacc (s : State) (x : DWord) : State := { s with sys := { s.sys with cmacc := x } }

section Cmacc

variable {s : State} {v : DWord}

theorem exec_cmaccRead (h : v.getLsbD 61 = false) : exec (.cmaccRead v) s = .next (s.setCmacc (s.cmaccReadValue v)) := by
  show execCmaccRead v s = _
  simp only [execCmaccRead, State.counterMap, h, Bool.not_false, if_true, State.setCmacc]

theorem State.cmapInstall_taken (h : (s.cmapEntry v).isSome = true) : s.cmapInstall v = none := by
  simp [State.cmapInstall, h]

/-- A counter page group that no context maps is mapped with its counters at zero. -/
theorem State.cmapInstall_free (h : s.cmapEntry v = none) (hfree : ∀ e ∈ s.allCtxs, ∀ k ∈ e.cmap, k.2 ≠ (fld v 47 46, fld v 45 40)) :
    s.cmapInstall v = some ((s.setCtxAny { s.ctxAny (fld v 59 54) with
      cmap := sput (s.ctxAny (fld v 59 54)).cmap (fld v 53 48) (fld v 47 46, fld v 45 40) }).onDie (fld v 47 46) fun d =>
        { d with counters := d.counters.filter fun k => k.1 / 64 != fld v 45 40 }) := by
  have hany : (s.allCtxs.any fun d => d.cmap.any fun x => x.2 == (fld v 47 46, fld v 45 40)) = false := by
    rw [List.any_eq_false]
    intro e he
    rw [Bool.not_eq_true, List.any_eq_false]
    intro k hk
    rw [beq_iff_eq]
    exact hfree e he k hk
  simp only [State.cmapInstall, h, hany, Option.isSome_none, Bool.or_self, Bool.false_eq_true, if_false]

theorem State.cmapRemove_absent (h : s.cmapEntry v = none) : s.cmapRemove v = some s := by
  simp [State.cmapRemove, h]

theorem State.cmapRemove_present {e : Nat × Nat} (h : s.cmapEntry v = some e) : s.cmapRemove v =
    if (s.die e.1).triggers.any fun t => t.counter / 64 == e.2 then none
    else some (s.setCtxAny { s.ctxAny (fld v 59 54) with cmap := sdel (s.ctxAny (fld v 59 54)).cmap (fld v 53 48) }) := by
  simp only [State.cmapRemove, h]

variable (hw : v.getLsbD 61 = true)
include hw

theorem exec_cmaccInstall (hv : v.getLsbD 60 = true) : exec (.cmaccInstall v) s = .next (((s.cmapInstall v).map
    (·.setCmacc (statusBits cmaccFields v false))).getD (s.setCmacc (statusBits cmaccFields s.sys.cmacc true))) := by
  show execCmaccInstall v s = _
  cases h : s.cmapInstall v <;>
    simp only [execCmaccInstall, State.counterMap, hw, hv, h, Bool.not_true, Bool.and_self, Bool.false_eq_true, if_true, if_false, State.setCmacc,
      Option.map_some, Option.map_none, Option.getD_some, Option.getD_none]

theorem exec_cmaccRemove (hv : v.getLsbD 60 = false) : exec (.cmaccRemove v) s = .next (((s.cmapRemove v).map
    (·.setCmacc (statusBits cmaccFields v false))).getD (s.setCmacc (statusBits cmaccFields s.sys.cmacc true))) := by
  show execCmaccRemove v s = _
  cases h : s.cmapRemove v <;>
    simp only [execCmaccRemove, State.counterMap, hw, hv, h, Bool.not_true, Bool.not_false, Bool.and_self, Bool.false_eq_true, if_true, if_false, State.setCmacc,
      Option.map_some, Option.map_none, Option.getD_some, Option.getD_none]

end Cmacc

section Vwin

variable {s : State} {v : DWord}

theorem exec_vwinWrite_past (h : 65536 < fld v 43 28 + fld v 11 0) :
    exec (.vwinWrite v) s = .next { s with sys := { s.sys with vwin := statusBits vwinFields s.sys.vwin true } } := by
  show execVwinWrite v s = _
  simp [execVwinWrite, State.setVwin, h]

theorem exec_vwinWrite_taken (h : fld v 43 28 + fld v 11 0 ≤ 65536)
    (hfree : ∀ e ∈ s.allCtxs, e.num ≠ fld v 61 56 → rangesMeet e.vbase e.vsize (fld v 43 28) (fld v 11 0) = false)
    (hslots : ∀ e ∈ s.dies, ∀ k ∈ e.slots, k.ctx ≠ fld v 61 56) : exec (.vwinWrite v) s =
      .next { s.setCtxAny { s.ctxAny (fld v 61 56) with vbase := fld v 43 28, vsize := fld v 11 0 } with
        sys := { s.sys with vwin := w64 (put (fld v 61 56) 56 + put (fld v 43 28) 28 + fld v 11 0) } } := by
  have hbound : (s.dies.any fun d => d.slots.any fun e => e.ctx == fld v 61 56) = false := by
    simpa using hslots
  have hmeets : (s.allCtxs.any fun c => c.num != fld v 61 56 && rangesMeet c.vbase c.vsize (fld v 43 28) (fld v 11 0)) = false := by
    simpa using hfree
  show execVwinWrite v s = _
  simp only [execVwinWrite, State.setVwin, hbound, hmeets, Nat.not_lt.2 h, Bool.false_eq_true, or_self, if_false]
  rw [State.setCtxAny_sys]

end Vwin

/-! ### Near memory, its grants and the arena (08 R179 to R181) -/

theorem State.byteAt_clearRange {s : State} (hm : Memory.wf s.mem = true) (l n x : Nat) :
    (s.clearRange l n).byteAt x = if l ≤ x ∧ x < l + n then 0 else s.byteAt x := sget_memClear l n hm x

/-- What a range has outside another is cleared, and no other byte. -/
theorem State.byteAt_clearOutside {s : State} (hm : Memory.wf s.mem = true) (base lo len lo' len' x : Nat) :
    (s.clearOutside base lo len lo' len').byteAt x =
      if (base + lo ≤ x ∧ x < base + (lo + len)) ∧ ¬(base + lo' ≤ x ∧ x < base + (lo' + len')) then 0 else s.byteAt x := by
  have hclear (l n : Nat) : Memory.wf (s.clearRange l n).mem = true := wf_memClear l n hm
  unfold State.clearOutside
  dsimp only
  by_cases hbelow : lo < lo' <;> by_cases habove : lo' + len' < lo + len
  · rw [if_pos hbelow, if_pos habove, State.byteAt_clearRange (hclear ..), State.byteAt_clearRange hm, ← ite_or]
    exact if_congr (by omega) rfl rfl
  · rw [if_pos hbelow, if_neg habove, State.byteAt_clearRange hm]
    exact if_congr (by omega) rfl rfl
  · rw [if_neg hbelow, if_pos habove, State.byteAt_clearRange hm]
    exact if_congr (by omega) rfl rfl
  · rw [if_neg hbelow, if_neg habove]
    exact (if_neg (by omega)).symm

theorem foldl_max_le_iff {α : Type} (f : α → Nat) (l : List α) (a b : Nat) :
    l.foldl (fun m c => max m (f c)) a ≤ b ↔ a ≤ b ∧ ∀ c ∈ l, f c ≤ b := by
  induction l generalizing a with
  | nil => simp
  | cons c l ih => rw [List.foldl_cons, ih, List.forall_mem_cons, max_le_iff, and_assoc]

/-- The end of the highest grant of a die. -/
def State.grantTop (s : State) (die : Nat) : Nat :=
  s.allCtxs.foldl (fun m c => max m (((sfind c.ngrant die).map fun g => (g.1 + g.2) * unitGrant).getD 0)) 0

theorem State.grantTop_le_iff {s : State} {die b : Nat} :
    s.grantTop die ≤ b ↔ ∀ e ∈ s.allCtxs, ∀ g, sfind e.ngrant die = some g → (g.1 + g.2) * unitGrant ≤ b := by
  rw [State.grantTop, foldl_max_le_iff]
  constructor
  · rintro ⟨-, h⟩ e he g hg
    simpa [hg] using h e he
  · refine fun h => ⟨Nat.zero_le _, fun e he => ?_⟩
    cases hg : sfind e.ngrant die with
    | none => exact Nat.zero_le _
    | some g => exact h e he g hg

section Nearcarve

variable {s : State} {die : Nat} {v : DWord}

theorem State.setNearcarve_refused (h : 8 < fld v 3 0 ∨ fld v 3 0 * unitNear < s.grantTop die) :
    s.setNearcarve die v = s.onDie die fun d => { d with nearBusy := true } := if_pos h

theorem State.setNearcarve_taken (hn : fld v 3 0 ≤ 8) (htop : s.grantTop die ≤ fld v 3 0 * unitNear) : s.setNearcarve die v =
    (s.clearRange (locNear die (min (fld v 3 0) (s.die die).nearcarve * unitNear))
      ((max (fld v 3 0) (s.die die).nearcarve - min (fld v 3 0) (s.die die).nearcarve) * unitNear)).onDie die fun d =>
        { d with nearcarve := fld v 3 0, nearBusy := false } := if_neg (not_or.2 ⟨Nat.not_lt.2 hn, Nat.not_lt.2 htop⟩)

/-- Near memory newly carved, or given up, reads as zero from now on; no other byte and no other die has changed. -/
theorem State.setNearcarve_changes (hm : Memory.wf s.mem = true) (hd : die < s.dies.length) (hn : fld v 3 0 ≤ 8)
    (htop : s.grantTop die ≤ fld v 3 0 * unitNear) :
    let n := fld v 3 0
    let old := (s.die die).nearcarve
    let t := s.setNearcarve die v
    t.die die = { s.die die with nearcarve := n, nearBusy := false } ∧ (∀ k, k ≠ die → t.die k = s.die k) ∧
    (∀ x, old * 2 ^ 26 ≤ x → x < n * 2 ^ 26 → t.byteAt (locNear die x) = 0) ∧
    ∀ x, x < locNear die (min n old * 2 ^ 26) ∨ locNear die (max n old * 2 ^ 26) ≤ x → t.byteAt x = s.byteAt x := by
  intro n old t
  have ht : t = _ := State.setNearcarve_taken hn htop
  have hbyte (x : Nat) : t.byteAt x =
      if locNear die (min n old * unitNear) ≤ x ∧ x < locNear die (min n old * unitNear) + (max n old - min n old) * unitNear then 0 else s.byteAt x := by
    rw [ht]
    exact State.byteAt_clearRange hm _ _ x
  refine ⟨?_, fun k hk => ?_, fun x hlo hhi => ?_, fun x hx => ?_⟩
  · rw [ht]
    exact State.die_onDie _ die _ hd
  · rw [ht]
    exact State.die_onDie_ne _ die k _ hk
  · refine (hbyte _).trans (if_pos ?_)
    simp only [locNear, unitNear]
    omega
  · refine (hbyte x).trans (if_neg ?_)
    simp only [locNear, unitNear] at hx ⊢
    omega

end Nearcarve

section Arena

variable {s : State} {die : Nat} {v : DWord}

theorem State.setArena_refused (h : (s.die die).slots ≠ []) : s.setArena die v = s.onDie die fun d => { d with arenaBusy := true } :=
  if_pos (.inr (.inr (by simpa using h)))

theorem State.setArena_taken (hsize : fld v 20 9 ≤ 2048) (hlo : die * 2 ^ 37 ≤ fld v 38 21 * 2 ^ 21)
    (hhi : (fld v 38 21 + fld v 20 9) * 2 ^ 21 ≤ (die + 1) * 2 ^ 37) (h : (s.die die).slots = []) : s.setArena die v =
    (s.clearRange (fld v 38 21 * 2 ^ 21) (fld v 20 9 * 2 ^ 21)).onDie die fun d =>
      { d with arenaBase := fld v 38 21, arenaSize := fld v 20 9, arenaBusy := false } := by
  refine if_neg (not_or.2 ⟨Nat.not_lt.2 hsize, not_or.2 ⟨?_, ?_⟩⟩)
  · rw [Bool.not_eq_false, decide_eq_true_iff]
    exact ⟨hlo, hhi⟩
  · simp [h]

/-- An arena is cleared as it is placed; no other byte and no other die has changed. -/
theorem State.setArena_changes (hm : Memory.wf s.mem = true) (hd : die < s.dies.length) (hsize : fld v 20 9 ≤ 2048)
    (hlo : die * 2 ^ 37 ≤ fld v 38 21 * 2 ^ 21) (hhi : (fld v 38 21 + fld v 20 9) * 2 ^ 21 ≤ (die + 1) * 2 ^ 37) (h : (s.die die).slots = []) :
    let base := fld v 38 21
    let size := fld v 20 9
    let t := s.setArena die v
    t.die die = { s.die die with arenaBase := base, arenaSize := size, arenaBusy := false } ∧ (∀ k, k ≠ die → t.die k = s.die k) ∧
    ∀ x, t.byteAt x = if base * 2 ^ 21 ≤ x ∧ x < (base + size) * 2 ^ 21 then 0 else s.byteAt x := by
  intro base size t
  have ht : t = _ := State.setArena_taken hsize hlo hhi h
  rw [ht]
  refine ⟨State.die_onDie _ die _ hd, fun k hk => State.die_onDie_ne _ die k _ hk, fun x => ?_⟩
  rw [Nat.add_mul]
  exact State.byteAt_clearRange hm _ _ x

end Arena

section Ngrant

variable {s : State} {ctx die : Nat} {v : DWord}

theorem State.setNgrant_refused (h : (s.die die).nearcarve * unitNear < (fld v 29 16 + fld v 13 0) * unitGrant) :
    s.setNgrant ctx die v = s.setCtxAny { s.ctxAny ctx with
      ngBusy := if (s.ctxAny ctx).ngBusy.contains die then (s.ctxAny ctx).ngBusy else die :: (s.ctxAny ctx).ngBusy } := if_pos (.inl h)

theorem State.setNgrant_taken (hfit : (fld v 29 16 + fld v 13 0) * unitGrant ≤ (s.die die).nearcarve * unitNear)
    (hfree : ∀ e ∈ s.allCtxs, e.num ≠ ctx → ∀ g, sfind e.ngrant die = some g → rangesMeet g.1 g.2 (fld v 29 16) (fld v 13 0) = false)
    (hidle : ∀ p ∈ s.parties, p.retired = false → p.image = none → p.ctx = ctx → p.core.die = die → p.segLim.getD 2 0 = 0) :
    let old := (sfind (s.ctxAny ctx).ngrant die).getD (0, 0)
    s.setNgrant ctx die v =
      (s.clearOutside (locNear die 0) (fld v 29 16 * unitGrant) (fld v 13 0 * unitGrant) (old.1 * unitGrant) (old.2 * unitGrant)).setCtxAny
        { s.ctxAny ctx with ngrant := sset (0, 0) (s.ctxAny ctx).ngrant die (fld v 29 16, fld v 13 0), ngBusy := (s.ctxAny ctx).ngBusy.filter (· != die) } := by
  refine if_neg (not_or.2 ⟨Nat.not_lt.2 hfit, not_or.2 ⟨?_, ?_⟩⟩)
  · rw [Bool.not_eq_true, List.any_eq_false]
    intro e he
    rw [Bool.and_eq_true, not_and, bne_iff_ne]
    intro hne
    cases hg : sfind e.ngrant die with
    | none => simp
    | some g => simpa using hfree e he hne g hg
  · rw [Bool.not_eq_true, List.any_eq_false]
    intro p hp h
    simp only [Bool.and_eq_true, Bool.not_eq_true', Option.isNone_iff_eq_none, beq_iff_eq, bne_iff_ne] at h
    obtain ⟨⟨⟨⟨hr, hi⟩, hc⟩, hd⟩, hl⟩ := h
    exact hl (hidle p hp hr hi hc hd)

/-- What a grant adds is cleared, and no other byte. -/
theorem State.setNgrant_changes (hm : Memory.wf s.mem = true) (hnum : (s.ctxAny ctx).num = ctx)
    (hfit : (fld v 29 16 + fld v 13 0) * unitGrant ≤ (s.die die).nearcarve * unitNear)
    (hfree : ∀ e ∈ s.allCtxs, e.num ≠ ctx → ∀ g, sfind e.ngrant die = some g → rangesMeet g.1 g.2 (fld v 29 16) (fld v 13 0) = false)
    (hidle : ∀ p ∈ s.parties, p.retired = false → p.image = none → p.ctx = ctx → p.core.die = die → p.segLim.getD 2 0 = 0) :
    let base := fld v 29 16
    let size := fld v 13 0
    let c := s.ctxAny ctx
    let old := (sfind c.ngrant die).getD (0, 0)
    let t := s.setNgrant ctx die v
    t.ctxAny ctx = { c with ngrant := sset (0, 0) c.ngrant die (base, size), ngBusy := c.ngBusy.filter (· != die) } ∧
    ∀ x, t.byteAt x = if (locNear die (base * 2 ^ 16) ≤ x ∧ x < locNear die ((base + size) * 2 ^ 16)) ∧
      ¬(locNear die (old.1 * 2 ^ 16) ≤ x ∧ x < locNear die ((old.1 + old.2) * 2 ^ 16)) then 0 else s.byteAt x := by
  intro base size c old t
  have ht : t = _ := State.setNgrant_taken hfit hfree hidle
  rw [ht]
  constructor
  · exact State.ctxAny_setCtxAny _ _ hnum
  · intro x
    rw [State.byteAt, State.setCtxAny_mem]
    refine (State.byteAt_clearOutside hm ..).trans (if_congr ?_ rfl rfl)
    simp only [locNear, unitGrant, base, size, old, c]
    omega

end Ngrant

theorem exec_launchQueueDescriptorWrite {ctx q w : Nat} (hc : ctx < 64) (hq : q < 16) (hw : w < 4) (s : State) (v : DWord) :
    exec (.launchQueueDescriptorWrite ctx q w v) s =
      .next (s.setCtxAny ((s.ctxAny ctx).setQueue q (((s.ctxAny ctx).queueAt q).write w v))).tick := by
  show execLaunchQueueDescriptorWrite ctx q w v s = _
  rw [execLaunchQueueDescriptorWrite, if_pos ⟨hc, hq, hw⟩]
  rfl

/-- HEAD is read-only while the queue is enabled (12 R250). -/
theorem LaunchQueue.write_head_of_en {d : LaunchQueue} (h : d.en = true) (v : DWord) : d.write 2 v = d := if_pos h

/-! ### Operations on parties (16 R363 to R367) -/

section PartyOp

variable {s t : State} {v : DWord} {i : Instr} {op : Nat} (hop : pctlOp v = op)
include hop

theorem State.partyEvent_done (h : s.partyOp v none = (.done, t)) : s.partyEvent op v i = .next t := by
  simp only [State.partyEvent, hop, ne_eq, not_true_eq_false, if_false, h]

theorem State.partyEvent_wait (h : s.partyOp v none = (.wait, t)) : s.partyEvent op v i = .next (t.later i) := by
  simp only [State.partyEvent, hop, ne_eq, not_true_eq_false, if_false, h]

end PartyOp

theorem State.pstat_setPstat_ok (s : State) (v : DWord) (n : Nat) : (s.setPstat v .ok n).sys.pstat = w64 (n * 256) := congrArg w64 (Nat.add_zero _)

/-- An occurrence of the device has no party that issues it. -/
theorem any_none_beq_some (ps : List Party) : (ps.any fun q => (none : Option Nat) == some q.uid) = false := List.any_eq_false.2 fun _ _ => Bool.false_ne_true

section Named

variable {s : State} {v : DWord}

theorem State.partyOp_suspend (h : pctlOp v = 1) : s.partyOp v none = s.suspend v none := by simp only [State.partyOp, h]
theorem State.partyOp_restore (h : pctlOp v = 2) : s.partyOp v none = s.restore v := by simp only [State.partyOp, h]

theorem exec_pctl_noParty (hp : s.partyAt (pctlCore v) (pctlSlot v) = none) :
    ∀ e ∈ [(1, Instr.pctlSuspend v), (3, .pctlEnd v), (4, .pctlAbortx v)], pctlOp v = e.1 → exec e.2 s = .next (s.setPstat v .noParty 0) := by
  intro e he hop
  simp only [List.mem_cons, List.not_mem_nil, or_false] at he
  obtain rfl | rfl | rfl := he
  · exact State.partyEvent_done hop (by simp only [State.partyOp, hop, State.suspend, hp])
  · exact State.partyEvent_done hop (by simp only [State.partyOp, hop, hp])
  · exact State.partyEvent_done hop (by simp only [State.partyOp, hop, hp])

variable {a : Party} (hp : s.partyAt (pctlCore v) (pctlSlot v) = some a)
include hp

section AtS

variable (hS : (s.suspendSet a).any (fun b => b.gangs.any (·.level)) = true)
include hS

theorem exec_pctlEnd_atS (hop : pctlOp v = 3) : exec (.pctlEnd v) s = .next (s.setPstat v .atS (s.suspendSet a).length) :=
  State.partyEvent_done hop (by simp only [State.partyOp, hop, hp, any_none_beq_some, hS, Bool.false_eq_true, if_false, if_true])

theorem exec_pctlAbortx_atS (hop : pctlOp v = 4) : exec (.pctlAbortx v) s = .next (s.setPstat v .atS (s.suspendSet a).length) :=
  State.partyEvent_done hop (by simp only [State.partyOp, hop, hp, any_none_beq_some, hS, Bool.false_eq_true, if_false, if_true])

end AtS

section AtU

variable (hU : (s.suspendSet a).any (fun b => b.gangs.any (·.level)) = false)
include hU

theorem exec_pctlEnd_ends (hop : pctlOp v = 3) :
    exec (.pctlEnd v) s = .next ((s.endParty a.uid .ended).setPstat v .ok (s.suspendSet a).length) :=
  State.partyEvent_done hop (by simp only [State.partyOp, hop, hp, any_none_beq_some, hU, Bool.false_eq_true, if_false])

theorem exec_pctlAbortx_aborts (hop : pctlOp v = 4) :
    exec (.pctlAbortx v) s = .next ((s.abortParty a).setPstat v .ok (s.suspendSet a).length) :=
  State.partyEvent_done hop (by simp only [State.partyOp, hop, hp, any_none_beq_some, hU, Bool.false_eq_true, if_false])

end AtU

end Named

/-- The members of a party's suspension set that have not ended. -/
def State.liveSet (s : State) (a : Party) : List Party := (s.suspendSet a).filter fun b => !b.ended

/-- The images of a set that has settled are written, one after the other, and its members taken off their cores. -/
def State.saveSet (s : State) (v : DWord) (set : List Party) : State :=
  (set.map fun q => (q.core.die, s.linksOf q.core)).foldl (fun (s : State) e => s.clearLinks e.1 e.2)
    ((List.range set.length).foldl (fun (s : State) i => match set[i]? with
      | some q => s.saveParty q.uid (pctlArea v) set.length i
      | none => s) s)

/-- The device once what has not started of some stopped parties is out of the Mills' queues. -/
def State.takeMills (s : State) (set : List Party) : State := set.foldl (fun (t : State) b => t.takeMill b) s

section Suspend

variable {s : State} {v : DWord} {a : Party} (hp : s.partyAt (pctlCore v) (pctlSlot v) = some a) (hop : pctlOp v = 1)

include hp hop

theorem exec_pctlSuspend_empty (hl : s.liveSet a = []) : exec (.pctlSuspend v) s = .next (s.setPstat v .ok 0) := by
  unfold State.liveSet at hl
  refine State.partyEvent_done hop ?_
  rw [State.partyOp_suspend hop]
  simp only [State.suspend, hp, hl, List.isEmpty_nil, if_true]

variable (hl : s.liveSet a ≠ [])
include hl

section Stop

variable (hs : a.suspended = false)
include hs

theorem exec_pctlSuspend_atS (hS : (s.liveSet a).any (fun b => b.gangs.any (·.level)) = true) :
    exec (.pctlSuspend v) s = .next (s.setPstat v .atS (s.liveSet a).length) := by
  have hne : (s.liveSet a).isEmpty = false := List.isEmpty_eq_false_iff.2 hl
  unfold State.liveSet at *
  refine State.partyEvent_done hop ?_
  rw [State.partyOp_suspend hop]
  simp only [State.suspend, hp, hne, hs, any_none_beq_some, hS, Bool.false_eq_true, if_false, if_true]

variable (hU : (s.liveSet a).any (fun b => b.gangs.any (·.level)) = false)
include hU

theorem exec_pctlSuspend_badArea (hbad : s.areasOk (pctlArea v) (s.liveSet a).length = false) :
    exec (.pctlSuspend v) s = .next (s.setPstat v .badArea (s.liveSet a).length) := by
  have hne : (s.liveSet a).isEmpty = false := List.isEmpty_eq_false_iff.2 hl
  unfold State.liveSet at *
  refine State.partyEvent_done hop ?_
  rw [State.partyOp_suspend hop]
  simp only [State.suspend, hp, hne, hs, any_none_beq_some, hU, hbad, Bool.false_eq_true, Bool.not_false, if_false, if_true]

theorem exec_pctlSuspend_stops (hok : s.areasOk (pctlArea v) (s.liveSet a).length = true) :
    exec (.pctlSuspend v) s = .next (((s.liveSet a).foldl (fun (t : State) b => t.stopParty b) s).later (.pctlSuspend v)) := by
  have hne : (s.liveSet a).isEmpty = false := List.isEmpty_eq_false_iff.2 hl
  unfold State.liveSet at *
  refine State.partyEvent_wait hop ?_
  rw [State.partyOp_suspend hop]
  simp only [State.suspend, hp, hne, hs, any_none_beq_some, hU, hok, Bool.false_eq_true, Bool.not_true, if_false]

end Stop

section Save

variable (hs : a.suspended = true)
include hs

theorem exec_pctlSuspend_waits (hw : ((s.liveSet a).filter (·.suspended)).all (s.takeMills ((s.liveSet a).filter (·.suspended))).settled = false) :
    exec (.pctlSuspend v) s = .next ((s.takeMills ((s.liveSet a).filter (·.suspended))).later (.pctlSuspend v)) := by
  have hne : (s.liveSet a).isEmpty = false := List.isEmpty_eq_false_iff.2 hl
  unfold State.liveSet State.takeMills at *
  refine State.partyEvent_wait hop ?_
  rw [State.partyOp_suspend hop]
  simp only [State.suspend, hp, hne, hs, hw, Bool.false_eq_true, if_false, if_true]

theorem exec_pctlSuspend_saves (hw : ((s.liveSet a).filter (·.suspended)).all (s.takeMills ((s.liveSet a).filter (·.suspended))).settled = true) :
    exec (.pctlSuspend v) s = .next (((s.takeMills ((s.liveSet a).filter (·.suspended))).saveSet v ((s.liveSet a).filter (·.suspended))).setPstat v .ok
      ((s.liveSet a).filter (·.suspended)).length) := by
  have hne : (s.liveSet a).isEmpty = false := List.isEmpty_eq_false_iff.2 hl
  unfold State.liveSet State.takeMills at *
  refine State.partyEvent_done hop ?_
  rw [State.partyOp_suspend hop]
  simp only [State.suspend, hp, hne, hs, hw, Bool.false_eq_true, if_false, if_true]
  rfl

end Save

end Suspend

/-! ### RESTORE (16 R367) -/

section Restore

variable {s : State} {v : DWord}

/-- The parties that a RESTORE has placed are in it no longer. -/
def State.leaveRestore (s : State) (v : DWord) : State :=
  (s.entered v).foldl (fun (t : State) p => t.onParty p.uid fun p => { p with entering := none }) s

theorem State.restoreEnd_waits (h : (s.entered v).any (·.returning) = true) : s.restoreEnd v = (.wait, s) := by
  simp only [State.restoreEnd, h, if_true]

theorem State.restoreEnd_done (h : (s.entered v).any (·.returning) = false) :
    s.restoreEnd v = (.done, (s.leaveRestore v).setPstat v .ok (s.entered v).length) := by
  simp only [State.restoreEnd, h, Bool.false_eq_true, if_false, State.leaveRestore]

theorem State.restore_again (h : s.entered v ≠ []) : s.restore v = s.restoreEnd v := by
  simp only [State.restore, List.isEmpty_eq_false_iff.2 h, Bool.not_false, if_true]

variable (hop : pctlOp v = 2)
include hop

theorem exec_pctlRestore_done {t : State} (h : s.restore v = (.done, t)) : exec (.pctlRestore v) s = .next t :=
  State.partyEvent_done hop ((State.partyOp_restore hop).trans h)

theorem exec_pctlRestore_wait {t : State} (h : s.restore v = (.wait, t)) : exec (.pctlRestore v) s = .next (t.later (.pctlRestore v)) :=
  State.partyEvent_wait hop ((State.partyOp_restore hop).trans h)

end Restore

section RestoreFirst

variable {s : State} {v : DWord} (he : s.entered v = [])
include he

theorem State.restore_badArea (h : s.areasOk (pctlArea v) 1 = false) : s.restore v = (.done, s.setPstat v .badArea 0) := by
  simp only [State.restore, he, h, List.isEmpty_nil, Bool.not_true, Bool.not_false, Bool.false_eq_true, if_false, if_true]

variable (h1 : s.areasOk (pctlArea v) 1 = true)
include h1

theorem State.restore_badImg (h : s.imageSet (pctlArea v) = none) : s.restore v = (.done, s.setPstat v .badImg 0) := by
  simp only [State.restore, he, h1, h, List.isEmpty_nil, Bool.not_true, Bool.false_eq_true, if_false]

variable {xs : List SavedParty} (hx : s.imageSet (pctlArea v) = some xs)
include hx

theorem State.restore_badAreas (h : s.areasOk (pctlArea v) xs.length = false) : s.restore v = (.done, s.setPstat v .badArea xs.length) := by
  simp only [State.restore, he, h1, hx, h, List.isEmpty_nil, Bool.not_true, Bool.not_false, Bool.false_eq_true, if_false, if_true]

variable (hn : s.areasOk (pctlArea v) xs.length = true)
include hn

theorem State.restore_noRoom (h : s.restoreAll v xs.length 0 xs = none) : s.restore v = (.done, s.setPstat v .noRoom xs.length) := by
  simp only [State.restore, he, h1, hx, hn, h, List.isEmpty_nil, Bool.not_true, Bool.false_eq_true, if_false]

theorem State.restore_placed {t : State} (h : s.restoreAll v xs.length 0 xs = some t) : s.restore v = t.restoreEnd v := by
  simp only [State.restore, he, h1, hx, hn, h, List.isEmpty_nil, Bool.not_true, Bool.false_eq_true, if_false]

end RestoreFirst

/-- A set whose first member finds no room is not placed. -/
theorem State.restoreAll_noRoom {s : State} {v : DWord} {n : Nat} {xs : List SavedParty} {x : SavedParty} (hx : xs.head? = some x)
    (h : s.roomFor x.party (restoreTarget v n x.party) = false) (i : Nat) : s.restoreAll v n i xs = none := by
  cases xs with
  | nil => cases hx
  | cons y xs =>
    obtain rfl : y = x := Option.some.inj hx
    simp only [State.restoreAll, h, Bool.not_false, if_true]

/-! ### Operations on contexts (16 R370) -/

/-- RETIRE steps 1 to 3. -/
def State.emptied (s : State) (k : Nat) : State := ((s.retireParties k).retireLaunches k).retireParties k

section ContextOp

variable {s : State} {v : DWord}

theorem exec_ctxctlCreate (hop : ctxctlOp v = 1) : exec (.ctxctlCreate v) s =
    .next (if (s.ctx? (ctxctlCtx v)).isSome then s.setCtxstat v true else
      (s.onTables fun t => { t with
        contexts := sput t.contexts (ctxctlCtx v) { num := ctxctlCtx v, rank := ctxctlRank v }, idle := sdel t.idle (ctxctlCtx v)
        raw := t.raw.filter fun e => !rawOfContext (ctxctlCtx v) e.1 }).setCtxstat v false) := by
  show execCtxctlCreate v s = _
  cases h : (s.ctx? (ctxctlCtx v)).isSome <;>
    simp only [execCtxctlCreate, State.contextEvent, State.contextOp, hop, h, ne_eq, not_true_eq_false, Bool.false_eq_true, if_false, if_true,
      Nat.reduceEqDiff]

theorem exec_ctxctlSetrank (hop : ctxctlOp v = 3) : exec (.ctxctlSetrank v) s =
    .next ((s.setCtxAny { s.ctxAny (ctxctlCtx v) with rank := ctxctlRank v }).setCtxstat v false) := by
  show execCtxctlSetrank v s = _
  simp only [execCtxctlSetrank, State.contextEvent, State.contextOp, hop, ne_eq, not_true_eq_false, if_false, Nat.reduceEqDiff]

section Retire

variable (hop : ctxctlOp v = 2)
include hop

theorem exec_ctxctlRetire_own (h : ctxctlCtx v = s.sys.sctx) : exec (.ctxctlRetire v) s = .next (s.setCtxstat v true).wakePosts := by
  show execCtxctlRetire v s = _
  simp only [execCtxctlRetire, State.contextEvent, State.contextOp, hop, h, ne_eq, not_true_eq_false, if_false, if_true]

variable (hk : ctxctlCtx v ≠ s.sys.sctx)
include hk

theorem exec_ctxctlRetire_done (h : ((s.emptied (ctxctlCtx v)).parties.any fun p => p.ctx == ctxctlCtx v) = false) :
    exec (.ctxctlRetire v) s = .next (((s.emptied (ctxctlCtx v)).retireContext (ctxctlCtx v)).setCtxstat v false).wakePosts := by
  unfold State.emptied at *
  show execCtxctlRetire v s = _
  simp only [execCtxctlRetire, State.contextEvent, State.contextOp, hop, hk, h, ne_eq, not_true_eq_false, Bool.false_eq_true, if_false, if_true]

theorem exec_ctxctlRetire_waits (h : ((s.emptied (ctxctlCtx v)).parties.any fun p => p.ctx == ctxctlCtx v) = true) :
    exec (.ctxctlRetire v) s = .next ((s.emptied (ctxctlCtx v)).later (.ctxctlRetire v)) := by
  unfold State.emptied at *
  show execCtxctlRetire v s = _
  simp only [execCtxctlRetire, State.contextEvent, State.contextOp, hop, hk, h, ne_eq, not_true_eq_false, if_false, if_true]

end Retire

end ContextOp

/-! ### What a suspension leaves alone (16 R365) -/

section TakeMill

variable (s : State) (p : Party)

theorem State.takeMill_mem_regs : (s.takeMill p).mem = s.mem ∧ (s.takeMill p).regs = s.regs := by
  unfold State.takeMill
  split
  exacts [⟨rfl, rfl⟩, ⟨rfl, rfl⟩]

variable {s p}

/-- A party whose commands are taken out of a queue keeps all but what is saved for it. -/
theorem State.party?_takeMill (hp : s.party? p.uid = some p) : ∃ l, (s.takeMill p).party? p.uid = some { p with saved := l } := by
  unfold State.takeMill
  split
  · exact ⟨p.saved, hp⟩
  · exact ⟨_, State.party?_onParty_self ((State.party?_congr rfl p.uid).trans hp) (f := fun p => { p with saved := _ }) fun _ => rfl⟩

end TakeMill

theorem State.mem_suspendSet {s : State} {p q : Party} (h : q ∈ s.suspendSet p) : s.party? q.uid = some q := by
  obtain ⟨i, -, hi⟩ := List.mem_filterMap.1 h
  obtain ⟨u, -, hu⟩ := List.mem_filterMap.1 (List.mem_of_getElem? hi)
  obtain rfl : q.uid = u := by simpa using List.find?_some hu
  exact hu

/-- Releasing blocks moves their generations alone. -/
theorem State.foldl_releaseBlock (l : LaneRef) (bs : List Nat) (s : State) : ∃ g, bs.foldl (fun s b => s.releaseBlock l b) s = { s with gens := g } := by
  induction bs generalizing s with
  | nil => exact ⟨s.gens, rfl⟩
  | cons b bs ih => exact (ih _).imp fun _ h => h

theorem State.foldl_releaseBlocks (p : Party) (fs : List Fibre) (s : State) :
    ∃ g, fs.foldl (fun (s : State) f => f.blocks.foldl (fun s b => s.releaseBlock (p.laneOf f.crew) b) s) s = { s with gens := g } := by
  induction fs generalizing s with
  | nil => exact ⟨s.gens, rfl⟩
  | cons f fs ih =>
    obtain ⟨g, h⟩ := State.foldl_releaseBlock (p.laneOf f.crew) f.blocks s
    rw [List.foldl_cons, h]
    exact (ih _).imp fun _ h => h

/-- A party off its core carries the CRC of its image, and names a die of 4 or more. -/
theorem State.liftParty_lifts {s : State} {uid : Nat} {p : Party} (hp : s.party? uid = some p) (crc : Nat) : (s.liftParty uid crc).mem = s.mem ∧
    ∃ b, (s.liftParty uid crc).party? uid = some b ∧ b.image = some crc ∧ b.core = ⟨p.core.die + 4, p.core.core⟩ := by
  unfold State.liftParty
  simp only [hp]
  obtain ⟨g, hg⟩ := State.foldl_releaseBlocks p p.fibres { s with flight := s.flight.map fun a => if a.uid == uid then rebindAccess s.detach a else a }
  rw [hg]
  exact ⟨rfl, _, State.party?_onParty_self ((State.party?_congr rfl uid).trans hp) fun _ => rfl, rfl, rfl⟩

theorem State.noteImage_keeps (s : State) (uid crc : Nat) : (s.noteImage uid crc).mem = s.mem ∧ (s.noteImage uid crc).parties = s.parties := by
  unfold State.noteImage
  split
  exacts [⟨rfl, rfl⟩, ⟨rfl, rfl⟩]

theorem State.clearLinks_cores (s : State) (die : Nat) (ls : List (Nat × Link)) : ∃ cs, s.clearLinks die ls = { s with cores := cs } := by
  obtain ⟨cs, h⟩ := State.foldl_onMill_cores (fun m => { m with link := none }) (ls.map fun e => ⟨die, e.1⟩) s
  rw [List.foldl_map] at h
  exact ⟨cs, h⟩

/-! ### The bytes of an image (16 R366) -/

/-- A run of items between what stands before and after it. -/
theorem take_drop_append {α : Type} {a b : List α} (c : List α) {n k : Nat} (ha : a.length = n) (hb : b.length = k) :
    ((a ++ (b ++ c)).drop n).take k = b := by
  rw [List.drop_left' ha, List.take_left' hb]

theorem leAt_bytesOf (n x : Nat) (bs : List Byte) : leAt (bytesOf n x ++ bs) 0 n = x % 256 ^ n := by
  rw [leAt, List.drop_zero, List.take_left' (length_bytesOf n x)]
  exact leNat_leBytes n x

theorem leAt_skip {n k : Nat} (h : n ≤ k) (x m : Nat) (bs : List Byte) : leAt (bytesOf n x ++ bs) k m = leAt bs (k - n) m := by
  rw [leAt_append_right _ _ _ _ ((length_bytesOf n x).trans_le h), length_bytesOf]

@[simp] theorem length_imageHeader (p : Party) (ch : Bool) (setn seti size crc : Nat) : (imageHeader p ch setn seti size crc).length = 64 := by
  simp only [imageHeader, List.length_append, length_bytesOf]

/-- The fields of a header that a restore reads first, whatever follows it: its version, the place in the set with the context, and the CRC. -/
theorem imageHeader_fields (p : Party) (ch : Bool) (setn seti size crc : Nat) (bs : List Byte) :
    let h := imageHeader p ch setn seti size crc ++ bs
    leAt h 0 4 = 1 ∧ leAt h 8 4 = (setn * 2 ^ 16 + seti % 256 * 2 ^ 8 + p.ctx) % 2 ^ 32 ∧ leAt h 48 4 = crc % 2 ^ 32 := by
  simp only [imageHeader, List.append_assoc]
  refine ⟨leAt_bytesOf 4 1 _, ?_, ?_⟩
  · rw [leAt_skip (by decide), leAt_skip (by decide)]
    exact leAt_bytesOf 4 _ _
  · iterate 11 rw [leAt_skip (by decide)]
    exact leAt_bytesOf 4 _ _

@[simp] theorem Party.length_futureBytes (p : Party) : p.futureBytes.length = 256 := by
  simp only [Party.futureBytes, List.length_flatMap, length_bytesOf, List.map_const', List.length_range, List.sum_replicate_nat]

@[simp] theorem Party.length_scoreCells (p : Party) : p.scoreCells.length = 256 := by
  simp only [Party.scoreCells, List.length_flatMap, length_bytesOf, List.map_const', List.length_range, List.sum_replicate_nat]

theorem append_sections (h fs blocks gangs futures cells rest scratch bad : List Byte) :
    h ++ (fs ++ blocks ++ gangs ++ futures ++ cells ++ rest ++ scratch ++ bad) =
      (h ++ fs) ++ (blocks ++ ((gangs ++ futures ++ cells ++ rest) ++ (scratch ++ bad))) := by
  simp only [List.append_assoc]

/-- The sections of an image: header and fibre records, register blocks, the records after them, the scratch bytes and their poison. -/
theorem State.imageOf_sections (s : State) (p : Party) (setn seti : Nat) : ∃ a b c : List Byte,
    (s.imageOf p setn seti).1 = a ++ (p.byFid.flatMap (s.blockBytes p) ++ (b ++ (s.bytesAt (locScratch p.core p.scrBase) p.scrSize ++ c))) ∧
    a.length = 64 + p.fibreLen ∧ b.length = p.recordLen := by
  refine ⟨_, _, _, append_sections .., ?_, ?_⟩
  · rw [List.length_append, length_imageHeader, List.length_map, List.length_range]
  · simp only [List.length_append, List.length_map, List.length_range, Party.recordLen]
    rw [show (s.savedBytes p).futures.length = 256 from p.length_futureBytes, Party.length_scoreCells]
    omega

/-- What an image must hold of a party: its version, its place in the set and its context, its CRC, and the party's registers and scratch bytes. -/
structure ImageHolds (s : State) (p : Party) (setn seti : Nat) (bs : List Byte) (crc : Nat) : Prop where
  version : leAt bs 0 4 = 1
  place   : leAt bs 8 4 = (setn * 2 ^ 16 + seti % 256 * 2 ^ 8 + p.ctx) % 2 ^ 32
  crc     : leAt bs 48 4 = crc % 2 ^ 32
  blocks  : (bs.drop (64 + p.fibreLen)).take (p.byFid.flatMap (s.blockBytes p)).length = p.byFid.flatMap (s.blockBytes p)
  scratch : (bs.drop (64 + p.fibreLen + (p.byFid.flatMap (s.blockBytes p)).length + p.recordLen)).take p.scrSize =
    s.bytesAt (locScratch p.core p.scrBase) p.scrSize

/-- Making an image draws free bytes and changes nothing else. -/
theorem State.imageOf_holds (s : State) (p : Party) (setn seti : Nat) :
    ∃ bs crc n, s.imageOf p setn seti = (bs, crc, { s with draws := n }) ∧ ImageHolds s p setn seti bs crc := by
  obtain ⟨x, y, z, hr, hx, hy⟩ := s.imageOf_sections p setn seti
  obtain ⟨hversion, hplace, hcrc⟩ := imageHeader_fields ..
  refine ⟨_, _, _, rfl, hversion, hplace, hcrc, ?_, ?_⟩
  · refine (congrArg (fun bs : List Byte => (bs.drop _).take _) hr).trans ?_
    exact take_drop_append _ hx rfl
  · refine (congrArg (fun bs : List Byte => (bs.drop _).take _) (hr.trans ?_)).trans
      (take_drop_append (a := x ++ p.byFid.flatMap (s.blockBytes p) ++ y) z ?_ (s.length_bytesAt ..))
    · simp only [List.append_assoc]
    · rw [List.length_append, List.length_append, hx, hy]

/-! ### The image of a party that leaves its core (16 R365 steps 5 and 6) -/

/-- A party saved: its image stands at its place and nothing else in memory has changed; the party is off its core. -/
theorem State.saveParty_saves {s : State} {p : Party} (hp : s.party? p.uid = some p) {setn seti crc n : Nat} {bs : List Byte}
    (hr : s.imageOf p setn seti = (bs, crc, { s with draws := n })) (area : Nat) :
    (s.saveParty p.uid area setn seti).mem = memPut s.mem (area + seti * areaSize) bs ∧
    ∃ b, (s.saveParty p.uid area setn seti).party? p.uid = some b ∧ b.image = some crc ∧ b.core = ⟨p.core.die + 4, p.core.core⟩ := by
  have hput : (({ s with draws := n } : State).poke (area + seti * areaSize) bs).party? p.uid = some p := hp
  obtain ⟨hmem, b, hb, himage, hcore⟩ := State.liftParty_lifts hput crc
  obtain ⟨hkept, hparties⟩ := State.noteImage_keeps ((({ s with draws := n } : State).poke (area + seti * areaSize) bs).liftParty p.uid crc) p.uid crc
  have hsave : s.saveParty p.uid area setn seti =
      ((({ s with draws := n } : State).poke (area + seti * areaSize) bs).liftParty p.uid crc).noteImage p.uid crc := by
    simp only [State.saveParty, hp, hr]
  rw [hsave]
  exact ⟨hkept.trans hmem, b, (State.party?_congr hparties _).trans hb, himage, hcore⟩

/-- A set of one party: its image is written, then its links dissolve. -/
theorem State.saveSet_single (s : State) (v : DWord) (a : Party) :
    s.saveSet v [a] = (s.saveParty a.uid (pctlArea v) 1 0).clearLinks a.core.die (s.linksOf a.core) := rfl

/-- The device once a party that stood alone in its set has been saved. -/
def State.savedAlone (s : State) (v : DWord) (a : Party) : State := ((s.takeMill a).saveSet v [a]).setPstat v .ok 1

/-- Memory and parties are those that the save has left. -/
theorem State.savedAlone_keeps (s : State) (v : DWord) (a : Party) :
    (s.savedAlone v a).mem = ((s.takeMill a).saveParty a.uid (pctlArea v) 1 0).mem ∧
    (s.savedAlone v a).parties = ((s.takeMill a).saveParty a.uid (pctlArea v) 1 0).parties := by
  obtain ⟨cs, h⟩ := ((s.takeMill a).saveParty a.uid (pctlArea v) 1 0).clearLinks_cores a.core.die ((s.takeMill a).linksOf a.core)
  rw [State.savedAlone, State.saveSet_single, h]
  exact ⟨rfl, rfl⟩

theorem exec_pctlSuspend_alone {s : State} {v : DWord} {a : Party} (hp : s.partyAt (pctlCore v) (pctlSlot v) = some a) (hop : pctlOp v = 1)
    (hl : s.liveSet a ≠ []) (hs : a.suspended = true) (halone : (s.liveSet a).filter (·.suspended) = [a]) (hw : (s.takeMill a).settled a = true) :
    exec (.pctlSuspend v) s = .next (s.savedAlone v a) := by
  have hall : ((s.liveSet a).filter (·.suspended)).all (s.takeMills ((s.liveSet a).filter (·.suspended))).settled = true := by
    rw [halone]
    exact (Bool.and_true _).trans hw
  have hexec := exec_pctlSuspend_saves hp hop hl hs hall
  rw [halone] at hexec
  exact hexec

theorem State.savedAlone_holds {s : State} {a : Party} (hm : Memory.wf s.mem = true) (ha : s.party? a.uid = some a) (v : DWord) :
    ∃ (crc : Nat) (bs : List Byte) (b : Party), (s.savedAlone v a).party? a.uid = some b ∧ b.image = some crc ∧ b.core = ⟨a.core.die + 4, a.core.core⟩ ∧
      ImageHolds s a 1 0 bs crc ∧ (s.savedAlone v a).bytesAt (pctlArea v) bs.length = bs ∧
      ∀ x, x < pctlArea v ∨ pctlArea v + bs.length ≤ x → (s.savedAlone v a).byteAt x = s.byteAt x := by
  obtain ⟨l, hq⟩ := State.party?_takeMill ha
  obtain ⟨htmem, htregs⟩ := s.takeMill_mem_regs a
  obtain ⟨bs, crc, n, hr, hholds⟩ := (s.takeMill a).imageOf_holds { a with saved := l } 1 0
  obtain ⟨hmem, b, hb, himage, hcore⟩ := State.saveParty_saves (p := { a with saved := l }) hq hr (pctlArea v)
  obtain ⟨humem, huparties⟩ := s.savedAlone_keeps v a
  have hput : (s.savedAlone v a).mem = memPut s.mem (pctlArea v) bs := by
    rw [humem, hmem, htmem, Nat.zero_mul, Nat.add_zero]
  refine ⟨crc, bs, b, (State.party?_congr huparties _).trans hb, himage, hcore, ?_, ?_, fun x hx => ?_⟩
  · have hblock : (s.takeMill a).blockBytes { a with saved := l } = s.blockBytes a := by
      funext f
      simp only [State.blockBytes, State.regAt, htregs]
      rfl
    obtain ⟨hversion, hplace, hcrc, hblocks, hscratch⟩ := hholds
    rw [hblock] at hblocks hscratch
    rw [State.bytesAt_congr htmem] at hscratch
    exact ⟨hversion, hplace, hcrc, hblocks, hscratch⟩
  · rw [State.bytesAt_congr (s := { s with mem := memPut s.mem (pctlArea v) bs }) hput]
    exact s.bytesAt_memPut _ bs hm
  · rw [State.byteAt, hput, sget_memPut _ _ hm, if_neg (by omega)]
    rfl

end Sys2Proof.Machine

namespace Sys2Proof

open Sys2Proof.Machine

/-- Settles O52: for each occurrence of the supervisor's tables and operations, what it does under the conditions of its clause. -/
theorem tableEvents : Obligations.TableEvents := by
  intro s v ctx die q w reg port d i at_
  refine ⟨fun hr hz => ⟨fun ws he => exec_tableRead_found hz hr he, exec_tableRead_refused hz hr⟩, fun hw hz => ?writes, ?counterMap,
    ⟨exec_vwinWrite_past, exec_vwinWrite_taken⟩, fun hd => ?die,
    fun hc hq hw => ⟨exec_launchQueueDescriptorWrite hc hq hw s v, fun hen => LaunchQueue.write_head_of_en hen v⟩,
    ⟨fun e he hop hp => exec_pctl_noParty hp e he hop, fun a hp => ⟨?endsAtS, ?ends, fun hop => ?suspends⟩⟩,
    fun hop h => ?restoring, fun hop he h => exec_pctlRestore_done hop ((State.restore_again he).trans (State.restoreEnd_done h)),
    fun hop he => ?restores,
    exec_ctxctlCreate, fun hop => ⟨exec_ctxctlRetire_own hop, fun hk => ⟨exec_ctxctlRetire_done hop hk, exec_ctxctlRetire_waits hop hk⟩⟩,
    exec_ctxctlSetrank⟩
  case writes =>
    refine ⟨fun _ hopen => exec_regionAttributeWrite_waits hopen, fun hk hopen hi h2 h3 => ?_, fun hk hi h3 => ?_, fun hk hi h2 h3 => ?_, fun hk hi => ?_⟩
    · have hexec := exec_regionAttributeWrite hopen
      have hwrite := State.tableWrite_region hk hi h2 h3
      exact ⟨fun hr => hexec.trans (State.portFor_refused hz hw hk (hwrite.trans (State.writeRegion_refused hr))),
        fun r hr => hexec.trans (State.portFor_taken hz hw hk (hwrite.trans (State.writeRegion_taken hr)))⟩
    · have hwrite := State.tableWrite_window hk hi h3
      exact ⟨fun h => State.portFor_refused hz hw hk (hwrite.trans (State.writeWindow_refused h)), fun n hc hn =>
        ⟨fun hv => State.portFor_ite hz hw hk (hwrite.trans (State.writeWindow_valid hc hn hv)),
          fun hv => State.portFor_ite hz hw hk (hwrite.trans (State.writeWindow_invalid hc hn hv))⟩⟩
    · have hwrite := State.tableWrite_context hk hi h2 h3
      exact ⟨fun t ht => State.portFor_taken hz hw hk (hwrite.trans ht), fun h => State.portFor_refused hz hw hk (hwrite.trans h)⟩
    · have hwrite := State.tableWrite_replica (s := s) hk hi
      exact ⟨fun h => State.portFor_refused hz hw hk (hwrite.trans (State.writeReplica_refused h)),
        fun r h => State.portFor_taken hz hw hk (hwrite.trans (State.writeReplica_taken h))⟩
  case counterMap =>
    refine ⟨fun hw hv => ⟨fun h => ?_, fun h hfree => ?_⟩, fun hw hv => ⟨fun h => ?_, fun e h => ?_⟩, exec_cmaccRead⟩
    · rw [exec_cmaccInstall hw hv, State.cmapInstall_taken h]
      rfl
    · rw [exec_cmaccInstall hw hv, State.cmapInstall_free h hfree]
      rfl
    · rw [exec_cmaccRemove hw hv, State.cmapRemove_absent h]
      rfl
    · rw [exec_cmaccRemove hw hv, State.cmapRemove_present h]
      split_ifs
      · rfl
      · rfl
  case die =>
    refine ⟨⟨congrArg Host.Outcome.next (if_pos hd), congrArg Host.Outcome.next (if_pos hd)⟩, fun hn => State.setNearcarve_refused (.inl hn),
      State.setArena_refused, fun hc => congrArg Host.Outcome.next (if_pos ⟨hc, hd⟩), fun hm hlen => ⟨⟨?_, fun hn hg => ?_⟩,
        State.setArena_changes hm hlen, fun hnum => ⟨State.setNgrant_refused, State.setNgrant_changes hm hnum⟩⟩, rfl⟩
    · rintro ⟨e, he, g, hg, hlt⟩
      exact State.setNearcarve_refused (.inr (Nat.lt_of_not_le fun h => Nat.not_lt.2 (State.grantTop_le_iff.1 h e he g hg) hlt))
    · exact State.setNearcarve_changes hm hlen hn (State.grantTop_le_iff.2 hg)
  case endsAtS => exact fun hS => ⟨exec_pctlEnd_atS hp hS, exec_pctlAbortx_atS hp hS⟩
  case ends => exact fun hU => ⟨exec_pctlEnd_ends hp hU, exec_pctlAbortx_aborts hp hU⟩
  case suspends =>
    refine ⟨exec_pctlSuspend_empty hp hop, fun hl hs => ⟨exec_pctlSuspend_atS hp hop hl hs, fun hU =>
      ⟨exec_pctlSuspend_badArea hp hop hl hs hU, exec_pctlSuspend_stops hp hop hl hs hU⟩⟩, fun hl hs =>
      ⟨exec_pctlSuspend_waits hp hop hl hs, fun hw => ⟨_, exec_pctlSuspend_saves hp hop hl hs hw, State.pstat_setPstat_ok ..⟩, fun halone hw hm => ?_⟩⟩
    have hset : (s.liveSet a).filter (·.suspended) = [a] := halone
    have hlive : a ∈ s.liveSet a := (List.mem_filter.1 (hset ▸ List.mem_singleton_self a)).1
    have hsettled : (s.takeMill a).settled a = true := by
      show (s.takeMills [a]).settled a = true
      rw [← hset]
      exact hw
    obtain ⟨crc, bs, b, hb, himage, hcore, hholds, hbytes, hframe⟩ :=
      State.savedAlone_holds hm (State.mem_suspendSet (List.mem_filter.1 hlive).1) v
    refine ⟨_, exec_pctlSuspend_alone hp hop hl hs hset hsettled, crc, bs, b, hb, himage, hcore, hholds.version, ?_, hholds.crc, hholds.blocks,
      hholds.scratch, hbytes, hframe⟩
    have hplace := hholds.place
    omega
  case restoring =>
    refine exec_pctlRestore_wait hop ((State.restore_again fun he => ?_).trans (State.restoreEnd_waits h))
    rw [he] at h
    exact Bool.false_ne_true h
  case restores =>
    refine ⟨fun h => exec_pctlRestore_done hop (State.restore_badArea he h), fun h1 h => exec_pctlRestore_done hop (State.restore_badImg he h1 h),
      fun xs h1 hx => ⟨fun h => exec_pctlRestore_done hop (State.restore_badAreas he h1 hx h),
        fun hn => ⟨?_, fun h => ?_, fun t ht => ⟨fun h => ?_, fun h => ?_⟩⟩⟩⟩
    · rintro ⟨x, hx', hroom⟩
      exact exec_pctlRestore_done hop (State.restore_noRoom he h1 hx hn (State.restoreAll_noRoom hx' hroom 0))
    · exact exec_pctlRestore_done hop (State.restore_noRoom he h1 hx hn h)
    · exact exec_pctlRestore_wait hop ((State.restore_placed he h1 hx hn ht).trans (State.restoreEnd_waits h))
    · exact exec_pctlRestore_done hop ((State.restore_placed he h1 hx hn ht).trans (State.restoreEnd_done h))

end Sys2Proof

namespace Sys2Proof.Machine

/-! ### What an entry to level S changes (16 R350, R353, R354) -/

/-- A gang as its entry to level S leaves it. -/
def Gang.atS (g : Gang) (sepc : Word) (es : List LogEntry) : Gang :=
  { g with level := true, sprev := g.level, sepc := sepc, slog := es, redoWait := false, replaying := false, newlog := [] }

theorem Party.gang?_onGang_ne (p : Party) {m n : Nat} (h : n ≠ m) {f : Gang → Gang} (hf : ∀ g, (f g).gid = g.gid) :
    (p.onGang m f).gang? n = p.gang? n := by
  simp [Party.gang?_onGang p m n f hf, h]

/-- The party of a gang that is sent to an address, and the gang. -/
theorem State.party?_sendGang {s : State} {uid gid : Nat} {p : Party} (hp : s.party? uid = some p) (g : Gang) (a : Word) {f : Gang → Gang} :
    ((s.onParty uid fun p => p.setPc g a).onGang uid gid f).party? uid = some ((p.setPc g a).onGang gid f) :=
  State.party?_onParty_self (State.party?_onParty_self (f := fun p => p.setPc g a) hp fun _ => rfl) fun _ => rfl

theorem Party.gang?_sendGang {p : Party} {gid : Nat} {k : Gang} (hk : p.gang? gid = some k) (g : Gang) (a : Word) {f : Gang → Gang}
    (hf : ∀ g, (f g).gid = g.gid) : ((p.setPc g a).onGang gid f).gang? gid = some (f k) :=
  Party.gang?_onGang_self ((Party.gang?_setPc ..).trans hk) hf

section Entry

variable {s : State} {uid gid : Nat} {p : Party} {g : Gang} (hp : s.party? uid = some p) (hg : p.gang? gid = some g) (sepc : Word) {es : List LogEntry}
include hp hg

/-- At level S any fault but an encoding trap ends the party. -/
theorem State.enterS_ends (hl : g.level = true) (h : ∃ e ∈ es, e.cls ≠ 0x01) : s.enterS uid gid sepc es = s.endParty uid .supervisorFault := by
  have hall : (es.all fun e => e.cls == 0x01) = false := by simpa using h
  rw [State.enterS, hp]
  simp only [hg, hl, hall, Bool.not_false, Bool.and_self, if_true]

theorem State.enterS_eq (h : g.level = false ∨ ∀ e ∈ es, e.cls = 0x01) :
    s.enterS uid gid sepc es =
      (({ s.stampIssue uid gid with growq := s.growq.filter fun w => !(w.2.1 == uid && w.2.2 == gid) } : State).onParty uid fun p =>
        p.setPc g s.sys.sentry).onGang uid gid (·.atS sepc es) := by
  have hgo : (g.level && !(es.all fun e => e.cls == 0x01)) = false := by
    rcases h with h | h
    · rw [h]; rfl
    · rw [List.all_eq_true.2 fun e he => beq_iff_eq.2 (h e he)]; exact Bool.and_false _
  rw [State.enterS, hp]
  simp only [hg, hgo, Bool.false_eq_true, if_false]
  rfl

/-- The party of a gang that has entered level S. -/
theorem State.party?_enterS (h : g.level = false ∨ ∀ e ∈ es, e.cls = 0x01) :
    (s.enterS uid gid sepc es).party? uid = some (((p.stamped gid s.clock.toNat).setPc g s.sys.sentry).onGang gid (·.atS sepc es)) := by
  rw [State.enterS_eq hp hg sepc h]
  have hst : ({ s.stampIssue uid gid with growq := s.growq.filter fun w => !(w.2.1 == uid && w.2.2 == gid) } : State).party? uid =
      some (p.stamped gid s.clock.toNat) :=
    State.party?_onParty_self (s := { s.tick with issued := s.laneIssued uid gid }) hp fun _ => rfl
  exact State.party?_sendGang hst g s.sys.sentry

/-- The gang, the other gangs, the crews and the fibres of that party. -/
theorem State.enterS_party (h : g.level = false ∨ ∀ e ∈ es, e.cls = 0x01) :
    ∃ q k, (s.enterS uid gid sepc es).party? uid = some q ∧ q.gang? gid = some k ∧
      k.level = true ∧ k.sprev = g.level ∧ k.sepc = sepc ∧ k.slog = es ∧ k.sregs = g.sregs ∧ k.emu = g.emu ∧ k.ssave = g.ssave ∧ k.fibres = g.fibres ∧
      (∀ n, n ≠ gid → q.gang? n = p.gang? n) ∧ q.crews = p.crews ∧
      ∀ n f, p.fibre? n = some f → q.fibre? n = some (if n ∈ g.fibres then { f with pc := s.sys.sentry } else f) := by
  refine ⟨_, _, State.party?_enterS hp hg sepc h, Party.gang?_sendGang (Party.gang?_stamped_self hg _) g _ fun _ => rfl,
    rfl, rfl, rfl, rfl, rfl, rfl, rfl, rfl, fun n hn => ?_, rfl, fun n f hf => ?_⟩
  · exact (Party.gang?_onGang_ne _ hn (f := (·.atS sepc es)) fun _ => rfl).trans ((Party.gang?_setPc ..).trans (Party.gang?_stamped_ne p hn _))
  · rw [Party.fibre?_onGang, Party.fibre?_setPc, Party.stamped, Party.fibre?_onGang, hf]
    rfl

theorem State.sameDevice_enterS (h : g.level = false ∨ ∀ e ∈ es, e.cls = 0x01) : SameDevice s (s.enterS uid gid sepc es) := by
  rw [State.enterS_eq hp hg sepc h]
  exact ⟨rfl, rfl, rfl, rfl, rfl, rfl, rfl, rfl, rfl, rfl, rfl, rfl, rfl, rfl, rfl, rfl, fun _ => rfl⟩

end Entry

end Sys2Proof.Machine

namespace Sys2Proof

open Sys2Proof.Machine

/-- Settles O34: the entry of a gang at level U never ends its party. -/
theorem supervisorEntry : Obligations.SupervisorEntry := by
  intro s x sepc es ht hl
  obtain ⟨-, hp, hg, -, -⟩ := State.turnOf_some ht
  have hU : x.g.level = false ∨ ∀ e ∈ es, e.cls = 0x01 := .inl hl
  obtain ⟨q, g, hq, hgq, hlevel, hsprev, hentered⟩ := State.enterS_party hp hg sepc hU
  have heq := State.enterS_eq hp hg sepc hU
  exact ⟨State.sameDevice_enterS hp hg sepc hU, (congrArg State.regs heq :), (congrArg State.tables heq :), (congrArg State.flight heq :),
    q, g, hq, hgq, hlevel, hsprev.trans hl, hentered⟩

/-- Settles O35: what an entry at level S comes to, and which entries the traps make. -/
theorem supervisorFaults : Obligations.SupervisorFaults := by
  intro s x sepc es r cause ht hl
  obtain ⟨-, hp, hg, -, hpc⟩ := State.turnOf_some ht
  refine ⟨fun h => State.enterS_ends hp hg sepc hl h, fun h => ?_, fun hpend hout => ⟨fun k hk => ?_, fun hc => ?_⟩⟩
  · obtain ⟨q, g, hq, hgq, hlevel, hsprev, hsepc, hlog, hsregs, hemu, hsave, -, -, -, hfibres⟩ := State.enterS_party hp hg sepc (.inr h)
    exact ⟨q, g, hq, hgq, hlevel, hsprev.trans hl, hsepc, hlog, hsregs, hemu, hsave, hfibres⟩
  · rw [State.encodingTrap, hp]
    simp only [hg, hpend, hout, hk, hl, hpc, List.isEmpty_nil, Bool.not_true, Bool.false_eq_true, if_false, Bool.true_or, if_true]
  · rw [hc, encodingTrap_fetchSplit ht hpend hout r]
    exact State.enterS_ends hp hg _ hl ⟨_, List.mem_singleton_self _, fun h => nomatch h⟩

/-- Settles O38: ILLEGAL_ENCODING runs for the gang or the Outrider that fetched the word. -/
theorem illegalEncodings : Obligations.IllegalEncodings := by
  intro s cause r
  refine ⟨fun x ht => ?_, fun c hc => ?_⟩
  · show execIllegalEncoding cause r s = _
    simp [execIllegalEncoding, State.inOutrider_of_turn ht, ht]
  · show execIllegalEncoding cause r s = _
    rw [execIllegalEncoding, if_pos (State.inOutrider_of_runs hc), State.olRun_eq hc]

end Sys2Proof

namespace Sys2Proof.Machine

/-! ### The way back from level S and from an encoding trap (16 R355, R357, 02 R42) -/

@[simp] theorem State.count_mem (s : State) (c : CoreRef) (ev n ctx : Nat) : (s.count c ev n ctx).mem = s.mem := by
  unfold State.count; dsimp only; split <;> rfl

/-- Between state `s` and state `t` gang `gid` of party `uid`, which were `g` and `p`, keeps what its return goes by: its fibres, where it returns
to, and that no replay has faulted again. -/
structure State.Returning (uid gid : Nat) (p : Party) (g : Gang) (s t : State) : Prop where
  mem   : t.mem = s.mem
  regs  : t.regs = s.regs
  party : ∃ q k, t.party? uid = some q ∧ q.fibres = p.fibres ∧ q.gang? gid = some k ∧
    k.fibres = g.fibres ∧ k.sprev = g.sprev ∧ k.sepc = g.sepc ∧ k.newlog = []

section Returning

variable {uid gid : Nat} {p : Party} {g : Gang} {s t : State}

theorem State.Returning.self (hp : s.party? uid = some p) (hg : p.gang? gid = some g) (hn : g.newlog = []) : State.Returning uid gid p g s s :=
  ⟨rfl, rfl, p, g, hp, rfl, hg, rfl, rfl, rfl, hn⟩

theorem State.Returning.congr (h : State.Returning uid gid p g s t) {u : State} (hm : u.mem = t.mem) (hr : u.regs = t.regs) (hps : u.parties = t.parties) :
    State.Returning uid gid p g s u := by
  obtain ⟨q, k, hq, hrest⟩ := h.party
  exact ⟨hm.trans h.mem, hr.trans h.regs, q, k, (State.party?_congr hps uid).trans hq, hrest⟩

/-- A change of the gang that keeps these fields. -/
theorem State.Returning.onGang (h : State.Returning uid gid p g s t) {f : Gang → Gang}
    (hf : ∀ k, (f k).gid = k.gid ∧ (f k).fibres = k.fibres ∧ (f k).sprev = k.sprev ∧ (f k).sepc = k.sepc ∧ (f k).newlog = k.newlog) :
    State.Returning uid gid p g s (t.onGang uid gid f) := by
  obtain ⟨q, k, hq, hfibres, hk, hkf, hsprev, hsepc, hnew⟩ := h.party
  obtain ⟨-, ff, fs, fc, fn⟩ := hf k
  exact ⟨h.mem, h.regs, q.onGang gid f, f k, State.party?_onParty_self hq fun _ => rfl, hfibres, Party.gang?_onGang_self hk fun k => (hf k).1,
    ff.trans hkf, fs.trans hsprev, fc.trans hsepc, fn.trans hnew⟩

/-- Entries that are not to be replayed only leave the log. -/
theorem State.Returning.replayLog (granted : Bool) : ∀ {es : List LogEntry} {t : State}, (∀ e ∈ es, e.replay = false) →
    State.Returning uid gid p g s t → ∃ u, t.replayLog uid gid granted es = (true, u) ∧ State.Returning uid gid p g s u
  | [], t, _, h => ⟨t, rfl, h⟩
  | e :: es, t, he, h => by
    rw [State.replayLog, he e List.mem_cons_self]
    exact State.Returning.replayLog granted (fun e h => he e (List.mem_cons_of_mem _ h)) (h.onGang fun _ => ⟨rfl, rfl, rfl, rfl, rfl⟩)

/-- What was set aside comes back to flight and to the store queue of its crew. -/
theorem State.bringBack_parties (s : State) (hp : s.party? uid = some p) (g : Gang) :
    ∃ q, (s.bringBack uid g).party? uid = some q ∧ q.fibres = p.fibres ∧ q.gangs = p.gangs := by
  unfold State.bringBack
  dsimp only
  split
  · exact ⟨p, hp, rfl, rfl⟩
  · exact ⟨_, State.party?_onParty_self hp fun _ => rfl, rfl, rfl⟩

@[simp] theorem State.bringBack_mem (s : State) (uid : Nat) (g : Gang) : (s.bringBack uid g).mem = s.mem := by
  unfold State.bringBack; dsimp only; split <;> rfl
@[simp] theorem State.bringBack_regs (s : State) (uid : Nat) (g : Gang) : (s.bringBack uid g).regs = s.regs := by
  unfold State.bringBack; dsimp only; split <;> rfl

/-- A look at what is waiting at the Mills changes cores alone. -/
theorem State.wakePosts_cores (s : State) : ∃ cs, s.wakePosts = { s with cores := cs } := by
  unfold State.wakePosts
  generalize s.cores = es
  induction es generalizing s with
  | nil => exact ⟨s.cores, rfl⟩
  | cons e es ih => exact ih _

theorem Party.pc_setPc {p q : Party} (hf : q.fibres = p.fibres) {g k : Gang} (hg : k.fibres = g.fibres) (a : Word) {f : Fibre} (h : f ∈ p.members g) :
    ((q.setPc k a).fibre? f.fid).map (·.pc) = some a := by
  obtain ⟨n, hn, hfn⟩ := List.mem_filterMap.1 h
  have hid : f.fid = n := by simpa using List.find?_some hfn
  rw [Party.fibre?_setPc, Party.fibre?_congr hf, hid, hfn, hg]
  simp [hn]

/-- A gang that returns from level S. -/
def Gang.returned (g : Gang) : Gang := { g with level := g.sprev, slog := [], replaying := false, newlog := [] }

/-- The end of an `eret` at level S: the gang goes to SEPC at level SPREV with its log empty. -/
theorem State.Returning.resumeS (h : State.Returning uid gid p g s t) :
    (t.resumeS uid gid).mem = s.mem ∧ (t.resumeS uid gid).regs = s.regs ∧
    ∃ q k, (t.resumeS uid gid).party? uid = some q ∧ q.gang? gid = some k ∧ k.level = g.sprev ∧ k.slog = [] ∧
      ∀ f ∈ p.members g, (q.fibre? f.fid).map (·.pc) = some g.sepc := by
  obtain ⟨q, k, hq, hfibres, hk, hkf, hsprev, hsepc, -⟩ := h.party
  have hgang : t.gang? uid gid = some k := by rw [State.gang?, hq]; exact hk
  obtain ⟨q', hq', hf', c, hk'⟩ := State.party?_stampIssue hq hk
  have hissued : ((t.stampIssue uid gid).countParty uid 0x02 1).party? uid = some q' := (State.party?_countParty ..).trans hq'
  obtain ⟨b, hb, hbf, hbg⟩ : ∃ b, (if k.sprev then (t.stampIssue uid gid).countParty uid 0x02 1
      else ((t.stampIssue uid gid).countParty uid 0x02 1).bringBack uid k).party? uid = some b ∧ b.fibres = q'.fibres ∧ b.gangs = q'.gangs := by
    split
    · exact ⟨q', hissued, rfl, rfl⟩
    · exact State.bringBack_parties _ hissued k
  have hbk : b.gang? gid = some { k with ready := t.clock.toNat, age := 0, wait := none, boundary := false, cls := c } := by
    rw [Party.gang?, hbg]
    exact hk'
  rw [State.resumeS, hgang]
  refine ⟨?_, ?_, _, _, State.party?_sendGang (f := Gang.returned) hb k k.sepc, Party.gang?_sendGang hbk k k.sepc fun _ => rfl, hsprev, rfl, fun f hf => ?_⟩
  · dsimp only
    rw [State.onGang_mem, State.onParty_mem, ← h.mem]
    split <;> simp [State.stampIssue]
  · dsimp only
    rw [State.onGang_regs, State.onParty_regs, ← h.regs]
    split <;> simp [State.stampIssue]
  · rw [Party.fibre?_onGang, hsepc]
    exact Party.pc_setPc (hbf.trans (hf'.trans hfibres)) hkf _ hf

/-- With nothing to replay the return follows at once. -/
theorem State.Returning.eretGo {x : Turn} (h : State.Returning x.uid x.gid p g s t) (hlog : ∀ e ∈ x.g.slog, e.replay = false) (granted : Bool) :
    ∃ u, t.eretGo x granted = u.resumeS x.uid x.gid ∧ State.Returning x.uid x.gid p g s u := by
  obtain ⟨u, hu, hret⟩ := h.replayLog granted hlog
  obtain ⟨q, k, hq, -, hk, -, -, -, hnew⟩ := hret.party
  have hgang : u.gang? x.uid x.gid = some k := by rw [State.gang?, hq]; exact hk
  refine ⟨u, ?_, hret⟩
  rw [State.eretGo, hu]
  simp only [hgang, Option.map_some, Option.getD_some, hnew, List.isEmpty_nil, if_true]

end Returning

section Eret

variable {s : State} {x : Turn}

/-- `eret` at level S with nothing outstanding and nothing to replay. -/
theorem State.eretS_resumes (ht : s.turnOf = some x) (hout : s.outstanding x.uid x.g = false) (hlog : ∀ e ∈ x.g.slog, e.replay = false)
    (hnew : x.g.newlog = []) : ∃ u, s.eretS x = u.resumeS x.uid x.gid ∧ State.Returning x.uid x.gid x.p x.g s u := by
  obtain ⟨-, hp, hg, -, -⟩ := State.turnOf_some ht
  have hself := State.Returning.self hp hg hnew
  unfold State.eretS
  split
  · exact hself.eretGo hlog false
  · rw [hout]
    have hwake : State.Returning x.uid x.gid x.p x.g s (if x.g.freed then s.wakePosts else s) := by
      split
      · obtain ⟨cs, hcs⟩ := s.wakePosts_cores
        exact hself.congr (congrArg State.mem hcs :) (congrArg State.regs hcs :) (congrArg State.parties hcs :)
      · exact hself
    exact (hwake.onGang (f := fun g => { g with replaying := true, freed := false }) fun _ => ⟨rfl, rfl, rfl, rfl, rfl⟩).eretGo hlog false

/-- `eret` at level U goes on after the word that trapped. -/
theorem State.resumeU_resumes (ht : s.turnOf = some x) : (s.resumeU x.uid x.gid).mem = s.mem ∧ (s.resumeU x.uid x.gid).regs = s.regs ∧
    ∃ q, (s.resumeU x.uid x.gid).party? x.uid = some q ∧
      ∀ f ∈ x.ms, (q.fibre? f.fid).map (·.pc) = some (x.g.emu.xpc + w32 (lenBytes (bits x.g.emu.xop.toNat 11 10))) := by
  obtain ⟨-, hp, hg, hms, -⟩ := State.turnOf_some ht
  have hgang : s.gang? x.uid x.gid = some x.g := by rw [State.gang?, hp]; exact hg
  obtain ⟨q, hq, hqf, -⟩ := State.party?_stampIssue hp hg
  rw [State.resumeU, hgang]
  refine ⟨?_, ?_, _, State.party?_sendGang (f := fun g => { g with boundary := true }) ((State.party?_countParty ..).trans hq) x.g _, fun f hf => ?_⟩
  · simp [State.stampIssue]
  · simp [State.stampIssue]
  · rw [Party.fibre?_onGang]
    exact Party.pc_setPc hqf rfl _ (hms ▸ hf)

end Eret

end Sys2Proof.Machine

namespace Sys2Proof

open Sys2Proof.Machine

/-- Settles O37: the fault that `trap` takes, and `eret` from an encoding trap and from level S. -/
theorem trapAndReturn : Obligations.TrapAndReturn := by
  intro s h code x
  have heret (c : s.Clear (.eret h) x) : exec (.eret h) s = .next (if x.g.level then s.eretS x else s.resumeU x.uid x.gid) := State.issue_clear c _
  refine ⟨fun c => State.issue_clear c _, fun c hU => ?_, fun c hS hout hlog hnew => ?_⟩
  · obtain ⟨hmem, hregs, q, hq, hpc⟩ := State.resumeU_resumes c.turn
    exact ⟨_, q, by rw [heret c, hU]; rfl, hmem, hregs, hq, hpc⟩
  · obtain ⟨u, hu, hret⟩ := State.eretS_resumes c.turn hout hlog hnew
    obtain ⟨hmem, hregs, q, g, hq, hg, hlevel, hempty, hpc⟩ := hret.resumeS
    obtain ⟨-, -, -, hms, -⟩ := State.turnOf_some c.turn
    exact ⟨_, q, g, by rw [heret c, hS, ← hu]; rfl, hmem, hregs, hq, hg, hlevel, hempty, hms ▸ hpc⟩

end Sys2Proof

namespace Sys2Proof.Machine

/-! ### Views that are handed on (09 R191) -/

theorem View.subset_join_right (v w : View) : w ⊆ View.join v w := by
  unfold View.join
  induction w generalizing v with
  | nil => exact List.nil_subset _
  | cons f w ih =>
    refine List.cons_subset.2 ⟨View.subset_join _ w ?_, ih _⟩
    beta_reduce
    split
    case isTrue h => simpa using h
    case isFalse => exact List.mem_cons_self

theorem Party.fid_of_mem_members {p : Party} {g : Gang} {f : Fibre} (h : f ∈ p.members g) : p.fibre? f.fid = some f := by
  obtain ⟨n, -, hn⟩ := List.mem_filterMap.1 h
  have hid : f.fid = n := by simpa using List.find?_some hn
  rw [hid, hn]

/-- Fibres that come to know a view keep what they knew. -/
theorem State.know_foldl (v : View) (u : Nat) (ms : List Fibre) : ∀ {s : State} {p : Party}, s.party? u = some p →
    ∃ q, (ms.foldl (fun (s : State) f => s.onFibre u f.fid fun f => f.know v) s).party? u = some q ∧
      ∀ n k, p.fibre? n = some k → ∃ k', q.fibre? n = some k' ∧ k.view ⊆ k'.view ∧ (n ∈ ms.map (·.fid) → v ⊆ k'.view) := by
  induction ms with
  | nil => exact fun hp => ⟨_, hp, fun n k hk => ⟨k, hk, List.Subset.refl _, (nomatch ·)⟩⟩
  | cons f ms ih =>
    intro s p hp
    have hstep := State.party?_onParty_self hp (f := (·.onFibre f.fid fun f => f.know v)) fun _ => rfl
    obtain ⟨q, hq, hknow⟩ := ih hstep
    refine ⟨q, hq, fun n k hk => ?_⟩
    have hfirst := Party.fibre?_onFibre p f.fid n (fun f => f.know v) fun _ => rfl
    rw [hk, Option.map_some] at hfirst
    obtain ⟨k', hk', hview, hms⟩ := hknow n _ hfirst
    have hkeep : k.view ⊆ (if n = f.fid then k.know v else k).view := by
      split
      exacts [View.subset_join _ _, List.Subset.refl _]
    refine ⟨k', hk', List.Subset.trans hkeep hview, fun h => ?_⟩
    rcases List.mem_cons.1 h with rfl | h
    · rw [if_pos rfl] at hview
      exact List.Subset.trans (View.subset_join_right k.view v) hview
    · exact hms h

/-! ### `sysrd` (16 R357, R360, R361, 14 R324, 15 R348) -/

section Sysrd

variable {s : State} {x : Turn}

/-- Every fibre of the gang knows the records that a tail counts. -/
theorem State.acquireRecords_knows (ht : s.turnOf = some x) {n : Nat} (hn : n = 0x001A ∨ n = 0x020A) {m : Fibre} (hm : m ∈ x.ms)
    {w : Past} (hw : w ∈ s.past) (hsrc : w.src = deviceIssuer) :
    ∃ q k, (s.acquireRecords x n).party? x.uid = some q ∧ q.fibre? m.fid = some k ∧ w.fact ∈ k.view := by
  obtain ⟨-, hp, -, hms, -⟩ := State.turnOf_some ht
  obtain ⟨q, hq, hknow⟩ := State.know_foldl s.recordView x.uid x.ms hp
  obtain ⟨k, hk, -, hview⟩ := hknow m.fid m (Party.fid_of_mem_members (hms ▸ hm))
  refine ⟨q, k, ?_, hk, hview (List.mem_map_of_mem hm) (List.mem_map_of_mem (List.mem_filter.2 ⟨hw, by simp [hsrc]⟩))⟩
  rw [State.acquireRecords, if_pos hn]
  exact hq

/-- The counter that register `n` names is open to the gang's own context. -/
def State.pmcOpen (s : State) (x : Turn) (n : Nat) : Prop :=
  0x0408 ≤ n ∧ n ≤ 0x040F ∧ (sget {} (s.core x.p.core).pmcs (n - 0x0408)).sel.getLsbD 14 = true ∧ (sget {} (s.core x.p.core).pmcs (n - 0x0408)).ctx = x.p.ctx

theorem State.pmcOpen_iff (n : Nat) : (decide (0x0408 ≤ n ∧ n ≤ 0x040F) && (sget {} (s.core x.p.core).pmcs (n - 0x0408)).sel.getLsbD 14 &&
    (sget {} (s.core x.p.core).pmcs (n - 0x0408)).ctx == x.p.ctx) = true ↔ s.pmcOpen x n := by
  simp only [Bool.and_eq_true, decide_eq_true_eq, beq_iff_eq, and_assoc, State.pmcOpen]

variable {h : Head} {d : Opnd} {a : Src}

theorem exec_sysrd_reads (c : s.Clear (.sysrd h d a) x) {f : Fibre} (hf : supplier x.ms = some f)
    (hmay : x.g.level = true ∨ s.pmcOpen x (uniform32 s x a)) :
    let n := uniform32 s x a
    let v := s.sysRead x n
    let u := s.acquireRecords x n
    exec (.sysrd h d a) s = .next ((u.fresh.2.owe x (.sysrd h d a) u.fresh.1 none (u.fresh.2.destOf x.p f d 2)
      [v.setWidth 32, (v >>> 32).setWidth 32]).advance x.uid x.gid (Instr.sysrd h d a).raw) := by
  refine (State.issue_clear c _).trans ?_
  dsimp only
  rw [if_neg, hf]
  · rfl
  · rcases hmay with hS | hopen
    · rw [hS]
      exact Bool.false_ne_true
    · rw [(State.pmcOpen_iff _).2 hopen, Bool.not_true, Bool.and_false]
      exact Bool.false_ne_true

theorem exec_sysrd_priv (c : s.Clear (.sysrd h d a) x) (hU : x.g.level = false) (hmay : ¬s.pmcOpen x (uniform32 s x a)) :
    exec (.sysrd h d a) s = .next (s.encodingTrap x.uid x.gid .priv (Instr.sysrd h d a).raw) := by
  refine (State.issue_clear c _).trans (if_pos ?_)
  rw [hU, Bool.eq_false_iff.2 fun hopen => hmay ((State.pmcOpen_iff _).1 hopen)]
  rfl

end Sysrd

/-! ### `syswr` (16 R357, R360) -/

section Syswr

variable {s : State} {x : Turn} {h : Head} {a : Src} {b : Opnd}

theorem exec_syswr (c : s.Clear (.syswr h a b) x) (hS : x.g.level = true) :
    exec (.syswr h a b) s = match s.sysWrite x (uniform32 s x a) (uniform64 s x (.op b)) with
      | (.done, t) => .next (t.advance x.uid x.gid (Instr.syswr h a b).raw)
      | (.wait, t) => .next (t.holdAgain x.uid x.gid) := State.privIssue_clear c hS _

/-- With no record waiting for room in a ring, a plain register takes its value and nothing else happens. -/
theorem State.drain_empty {t : State} (heq : t.tables.eqWait = []) (hfq : t.tables.fqWait = []) : t.drainEvents.drainFaults = t := by
  have hevents : t.drainEvents = t := by rw [State.drainEvents, heq]; rfl
  rw [hevents, State.drainFaults, hfq]
  rfl

end Syswr

end Sys2Proof.Machine

namespace Sys2Proof

open Sys2Proof.Machine

/-- Settles O39: who may read, what a read of a tail acquires, and the item that each register names. -/
theorem systemReads : Obligations.SystemReads := by
  intro s h d a x f hf c i n v u pmc mine
  have isItem (k : Nat) {w : DWord} (hw : s.sysRead x k = w) : n = k → v = w := fun hn => (congrArg (s.sysRead x) hn).trans hw
  refine ⟨exec_sysrd_reads c hf, exec_sysrd_priv c, fun h1 h2 => if_neg (not_or.2 ⟨h1, h2⟩),
    fun hn m hm w hw hsrc => State.acquireRecords_knows c.turn hn hm hw hsrc, isItem 0x0001 rfl, fun h1 h2 => ?ssave,
    isItem 0x0010 rfl, isItem 0x0011 rfl, isItem 0x0012 rfl, isItem 0x0013 rfl, isItem 0x0018 rfl, isItem 0x0019 rfl, isItem 0x001A rfl, isItem 0x001B rfl,
    isItem 0x0021 rfl, isItem 0x0029 rfl, isItem 0x0200 rfl, fun h1 h2 => ?tdat, isItem 0x0208 rfl, isItem 0x0209 rfl, isItem 0x020A rfl, isItem 0x020C rfl,
    fun h1 h2 => ?selector, fun h1 h2 => if_pos ⟨h1, h2⟩, fun h1 h2 => ?errors⟩
  all_goals
    show s.sysRead x n = _
    interval_cases n <;> rfl

/-- Settles O40: `syswr` follows its register's operation; what the plain registers of the gang and of the device take. -/
theorem systemWrites : Obligations.SystemWrites := by
  intro s h a b x c hS n v
  have hexec := exec_syswr c hS
  have isWrite (k : Nat) {r : PartyEnd × State} (hr : s.sysWrite x k v = r) : n = k → s.sysWrite x n v = r := fun hn => hn ▸ hr
  refine ⟨fun t ht => ?_, fun t ht => ?_, isWrite 0x0001 rfl, isWrite 0x0000 rfl, fun _ heq hfq => ⟨isWrite 0x0010 ?_, isWrite 0x0011 ?_, isWrite 0x0012 ?_⟩⟩
  · rw [hexec, ht]
  · rw [hexec, ht]
  all_goals exact congrArg (Prod.mk PartyEnd.done) (State.drain_empty heq hfq)

end Sys2Proof

namespace Sys2Proof.Machine

/-! ### Bytes that are read (09 R196) -/

/-- A read of bytes advances the count of draws alone. -/
theorem State.readUnit_draws (s : State) (v : View) (l n : Nat) : ∃ k, (s.readUnit v l n).2.2.2 = { s with draws := k } := by
  unfold State.readUnit State.draw
  dsimp only
  split
  exacts [⟨s.draws, rfl⟩, ⟨_, rfl⟩]

theorem State.wildBytes_draws (s : State) (l : Nat) (bs : List Byte) : ∃ k, (s.wildBytes l bs).2 = { s with draws := k } := by
  unfold State.wildBytes
  split
  exacts [⟨_, rfl⟩, ⟨s.draws, rfl⟩]

theorem State.readUnits_draws (own : Nat) (src : Issuer) (acq : Option Scope) :
    ∀ (us : List (Nat × Nat)) (s : State) (v : View), ∃ k, (s.readUnits own src acq us v).2.2.2 = { s with draws := k }
  | [], s, _ => ⟨s.draws, rfl⟩
  | (l, n) :: us, s, v => by
    obtain ⟨k1, h1⟩ := s.readUnit_draws v l n
    obtain ⟨k2, h2⟩ := (s.readUnit v l n).2.2.2.wildBytes_draws l (s.readUnit v l n).1
    obtain ⟨k3, h3⟩ := State.readUnits_draws own src acq us ((s.readUnit v l n).2.2.2.wildBytes l (s.readUnit v l n).1).2
      (((s.readUnit v l n).2.2.2.wildBytes l (s.readUnit v l n).1).2.learn own src v l n (s.readUnit v l n).2.1 (s.readUnit v l n).2.2.1 acq)
    refine ⟨k3, h3.trans ?_⟩
    rw [h2, h1]

theorem State.readImage_draws (s : State) (c : CoreRef) (v : View) (addr : Nat) : ∃ k, (s.readImage c v addr).2 = { s with draws := k } :=
  State.readUnits_draws 0 deviceIssuer none _ s _

/-! ### A core's Mill -/

/-- A Mill that is not the empty one is listed with its core, whatever the table held. -/
theorem State.core_onMill_of_ne (s : State) (c : CoreRef) (f : Mill → Mill) (h : f (s.core c).mill ≠ {}) :
    (s.onMill c f).core c = { s.core c with mill := f (s.core c).mill } := by
  have hne : { s.core c with mill := f (s.core c).mill } ≠ ({} : Core) := fun hk => h (congrArg Core.mill hk)
  rw [State.onMill, State.onCore, State.setCore, State.core, sset, if_neg hne, sget_sput_self]

/-! ### `segwr` and the range registers (16 R359, 14 R308) -/

section Status

variable {s : State} {x : Turn} {h : Head} {d a b : Opnd}

theorem exec_segwr {sp : Space} {k : Nat} (c : s.Clear (.segwr h d a b sp) x) (hS : x.g.level = true) (hk : segIndex sp = some k) :
    exec (.segwr h d a b sp) s = if s.segBad x.p sp (uniform64 s x (.op a)) (uniform64 s x (.op b)) then
        .next (s.giveWord (.segwr h d a b sp) x d 1)
      else .next ((s.onParty x.uid fun p =>
          { p with segBase := p.segBase.set k (uniform64 s x (.op a)), segLim := p.segLim.set k (uniform64 s x (.op b)) }).giveWord
        (.segwr h d a b sp) x d 0) := by
  refine (State.privIssue_clear c hS _).trans ?_
  rw [hk]

theorem exec_rngwr {idx ctx : Nat} (c : s.Clear (.rngwr h d a idx ctx) x) (hS : x.g.level = true) :
    exec (.rngwr h d a idx ctx) s = .next ((s.writeRange idx ctx (uniform32 s x (.op a))).2.giveWord (.rngwr h d a idx ctx) x d
      (w32 (s.writeRange idx ctx (uniform32 s x (.op a))).1)) :=
  State.privIssue_clear c hS _

/-- Window `n` is one of context `ctx`. -/
def State.IsWindow (s : State) (ctx n : Nat) (w : Window) : Prop := n ≤ 255 ∧ sfind s.tables.windows n = some w ∧ w.ctx = ctx

/-- The copy that another range register holds meets a window. -/
def rangeMeets (idx : Nat) (w : Window) (e : Nat × RangeReg) : Prop :=
  e.1 ≠ idx ∧ e.2.copy.region = w.region ∧ rangesMeet e.2.copy.va e.2.copy.size w.va w.size = true

theorem State.writeRange_none {idx ctx n : Nat} (hw : ∀ w, ¬s.IsWindow ctx n w) : s.writeRange idx ctx n = (1, s) := by
  unfold State.writeRange
  dsimp only
  split
  · rfl
  · rename_i w hfind
    have hn : n ≤ 255 := by
      by_contra hn
      rw [if_neg hn] at hfind
      cases hfind
    rw [if_pos hn] at hfind
    exact if_pos fun hctx => hw w ⟨hn, hfind, hctx⟩

theorem State.writeRange_some {idx ctx n : Nat} {w : Window} (hw : s.IsWindow ctx n w) :
    ((∃ e ∈ (s.ctxAny ctx).ranges, rangeMeets idx w e) → s.writeRange idx ctx n = (2, s)) ∧
    ((∀ e ∈ (s.ctxAny ctx).ranges, ¬rangeMeets idx w e) → s.writeRange idx ctx n =
      (0, s.setCtxAny { s.ctxAny ctx with ranges := sput (s.ctxAny ctx).ranges idx { win := n, copy := w } })) := by
  obtain ⟨hn, hfind, hctx⟩ := hw
  have hany : ((s.ctxAny ctx).ranges.any fun e => e.1 != idx && e.2.copy.region == w.region && rangesMeet e.2.copy.va e.2.copy.size w.va w.size) = true ↔
      ∃ e ∈ (s.ctxAny ctx).ranges, rangeMeets idx w e := by
    simp [rangeMeets, and_assoc]
  unfold State.writeRange
  dsimp only
  rw [if_pos hn, hfind]
  dsimp only
  rw [if_neg (not_not.2 hctx)]
  refine ⟨fun he => if_pos (hany.2 he), fun he => if_neg fun hmeets => ?_⟩
  obtain ⟨e, hmem, hmeet⟩ := hany.1 hmeets
  exact he e hmem hmeet

/-! ### `tcinv` (14 R313) -/

/-- What walks and frames a `tcinv` cuts is in two tables that nothing else reads here. -/
theorem State.cutWalks_foldl (ctx lo hi : Nat) (rs : List Nat) : ∀ s : State, ∃ wc mp,
    rs.foldl (fun (s : State) r => s.cutWalks ctx r lo hi) s = s.onTables fun u => { u with walkCut := wc, mapped := mp } := by
  induction rs with
  | nil => exact fun s => ⟨s.tables.walkCut, s.tables.mapped, rfl⟩
  | cons r rs ih =>
    intro s
    obtain ⟨wc, mp, h⟩ := ih (s.cutWalks ctx r lo hi)
    exact ⟨wc, mp, h⟩

/-- The tables of a `tcinv` with its pages' lines and translations dropped. -/
def State.dropped (s : State) (ctx : Nat) (ps : PageSet) (wc : List (Nat × Nat × Nat × Nat × Nat)) (mp : List Mapping) : State :=
  s.onTables fun u => { u with
    walkCut := wc
    mapped := mp
    lines := u.lines.filter fun k => !(k.ctx == ctx && ps.holds k.ownReg k.ownPage)
    pages := u.pages.filter fun e => !(e.2.ctx == ctx && ps.holds e.2.region e.2.page) }

theorem State.invalidate_eq (hopen : s.openAccess x.uid x.g = false) (ctx : Nat) (ps : PageSet) : ∃ wc mp,
    let t := s.dropped ctx ps wc mp
    s.invalidate x ctx ps =
      if !(s.sharersIn ctx ps).isEmpty then (.wait, (s.sharersIn ctx ps).foldl (fun (s : State) h => (s.recall ctx h.region h.page true none).2) t)
      else if ps.regions.any fun r => s.translatedOpen ctx r ps.lo ps.hi then (.wait, t) else (.done, t) := by
  obtain ⟨wc, mp, hcut⟩ := State.cutWalks_foldl ctx ps.lo ps.hi ps.regions s
  refine ⟨wc, mp, ?_⟩
  rw [State.invalidate, hopen]
  simp only [Bool.false_eq_true, if_false]
  rw [hcut]
  rfl

/-- What a completed `tcinv` leaves: memory, registers, flight and parties, and of the tables no line or translation of its pages. -/
def Invalidated (ctx : Nat) (ps : PageSet) (s t : State) : Prop :=
  t.mem = s.mem ∧ t.regs = s.regs ∧ t.flight = s.flight ∧ t.parties = s.parties ∧
    (∀ l ∈ t.tables.lines, l.ctx = ctx → ps.holds l.ownReg l.ownPage = false) ∧
    ∀ p ∈ t.tables.pages, p.2.ctx = ctx → ps.holds p.2.region p.2.page = false

theorem State.invalidated_dropped (s : State) (ctx : Nat) (ps : PageSet) (wc : List (Nat × Nat × Nat × Nat × Nat)) (mp : List Mapping) :
    Invalidated ctx ps s (s.dropped ctx ps wc mp) := by
  refine ⟨rfl, rfl, rfl, rfl, fun l hl hctx => ?_, fun p hp hctx => ?_⟩
  · simpa [hctx] using (List.mem_filter.1 hl).2
  · simpa [hctx] using (List.mem_filter.1 hp).2

theorem State.invalidate_done (hopen : s.openAccess x.uid x.g = false) {ctx : Nat} {ps : PageSet} (hshared : s.sharersIn ctx ps = [])
    (hflight : ∀ r ∈ ps.regions, s.translatedOpen ctx r ps.lo ps.hi = false) :
    ∃ t, s.invalidate x ctx ps = (.done, t) ∧ Invalidated ctx ps s t := by
  obtain ⟨wc, mp, heq⟩ := State.invalidate_eq hopen ctx ps
  refine ⟨_, heq.trans ?_, s.invalidated_dropped ctx ps wc mp⟩
  have hany : (ps.regions.any fun r => s.translatedOpen ctx r ps.lo ps.hi) = false := List.any_eq_false.2 fun r hr => by simp [hflight r hr]
  rw [hshared, hany]
  rfl

theorem State.invalidate_waits (hopen : s.openAccess x.uid x.g = false) {ctx : Nat} {ps : PageSet} (hshared : s.sharersIn ctx ps ≠ []) :
    ∃ t, s.invalidate x ctx ps = (.wait, t) := by
  obtain ⟨wc, mp, heq⟩ := State.invalidate_eq hopen ctx ps
  refine ⟨_, heq.trans (if_pos ?_)⟩
  simpa using hshared

section Tcinv

variable {i : Instr} {ctx : Nat} {pages : Turn → Option PageSet} (c : s.Clear i x) (hS : x.g.level = true) (hopen : s.openAccess x.uid x.g = false)
include c hS hopen

theorem State.tcinvForm_outside (hp : pages x = none) : s.tcinvForm i d ctx pages = .next (s.giveWord i x d 5) := by
  refine (State.privIssue_clear c hS _).trans ?_
  rw [hp, hopen]
  rfl

theorem State.tcinvForm_done {ps : PageSet} (hp : pages x = some ps) (hshared : s.sharersIn ctx ps = [])
    (hflight : ∀ r ∈ ps.regions, s.translatedOpen ctx r ps.lo ps.hi = false) :
    ∃ t, s.tcinvForm i d ctx pages = .next (t.giveWord i x d 0) ∧ Invalidated ctx ps s t := by
  obtain ⟨t, ht, hinv⟩ := State.invalidate_done hopen hshared hflight
  refine ⟨t, (State.privIssue_clear c hS _).trans ?_, hinv⟩
  rw [hp]
  dsimp only
  rw [ht]

theorem State.tcinvForm_waits {ps : PageSet} (hp : pages x = some ps) (hshared : s.sharersIn ctx ps ≠ []) :
    ∃ t : State, s.tcinvForm i d ctx pages = .next (t.holdAgain x.uid x.gid) := by
  obtain ⟨t, ht⟩ := State.invalidate_waits hopen hshared
  refine ⟨t, (State.privIssue_clear c hS _).trans ?_⟩
  rw [hp]
  dsimp only
  rw [ht]

end Tcinv

theorem exec_tcinvRank {ctx : Nat} (c : s.Clear (.tcinvRank h d ctx) x) (hS : x.g.level = true) (hopen : s.openAccess x.uid x.g = false) :
    exec (.tcinvRank h d ctx) s =
      .next ((s.onTables fun u => { u with rankCut := sset 0 u.rankCut ctx s.stamp }).giveWord (.tcinvRank h d ctx) x d 0) := by
  refine (State.privIssue_clear c hS _).trans ?_
  rw [hopen]
  rfl

/-! ### `mspill` and `mfill` (16 R368) -/

/-- The device once no `mspill` waits at a Mill. -/
def State.unspilling (s : State) (c : CoreRef) : State := s.onMill c fun m => { m with spilling := none }

/-- A Mill that has been spilled: empty, unowned, with what it has written. -/
def Mill.spilled (m : Mill) (image : Fact) : Mill :=
  { m with active := {}, shadow := {}, tiles := [], owner := none, view := View.join m.view [image] }

/-- The device once a Mill's image has been written. -/
def State.writeMill (s : State) (x : Turn) (o addr : Nat) : State :=
  (s.unspilling x.p.core).write { cls := .mill, uid := x.uid, core := x.p.core } [] [] none addr (millImage (s.core x.p.core).mill o)

/-- Then the Mill is emptied, and the gang's fibres have seen the image. -/
def State.spillMill (s : State) (x : Turn) (o addr : Nat) : State :=
  let image : Fact := ⟨addr, millImageLen, s.stamp + 1⟩
  (((s.writeMill x o addr).onMill x.p.core (·.spilled image)).onMembers x.uid x.gid fun f =>
    { f with millSeen := View.join f.millSeen [image] }).gaveUp x.uid x.gid

section Spill

variable (hS : x.g.level = true)
include hS

theorem exec_mspill_badAddr (c : s.Clear (.mspill h d a) x) (haddr : s.millAddrOk (uniform64 s x (.op a)).toNat = false) :
    exec (.mspill h d a) s = .next ((s.unspilling x.p.core).giveWord (.mspill h d a) x d 3) := by
  refine (State.privIssue_clear c hS _).trans (if_pos ?_)
  rw [haddr]
  rfl

theorem exec_mfill_badAddr (c : s.Clear (.mfill h d a) x) (haddr : s.millAddrOk (uniform64 s x (.op a)).toNat = false) :
    exec (.mfill h d a) s = .next (s.giveWord (.mfill h d a) x d 3) := by
  refine (State.privIssue_clear c hS _).trans (if_pos ?_)
  rw [haddr]
  rfl

variable (haddr : s.millAddrOk (uniform64 s x (.op a)).toNat = true)
include haddr

theorem exec_mspill_linked (c : s.Clear (.mspill h d a) x) (hlink : (s.core x.p.core).mill.link ≠ none) :
    exec (.mspill h d a) s = .next ((s.unspilling x.p.core).giveWord (.mspill h d a) x d 2) := by
  refine (State.privIssue_clear c hS _).trans ?_
  dsimp only
  rw [haddr, Option.isSome_iff_ne_none.2 hlink]
  rfl

theorem exec_mfill_linked (c : s.Clear (.mfill h d a) x) (hlink : (s.core x.p.core).mill.link ≠ none) :
    exec (.mfill h d a) s = .next (s.giveWord (.mfill h d a) x d 2) := by
  refine (State.privIssue_clear c hS _).trans ?_
  dsimp only
  rw [haddr, Option.isSome_iff_ne_none.2 hlink]
  rfl

variable (hlink : (s.core x.p.core).mill.link = none)
include hlink

theorem exec_mspill_busy (c : s.Clear (.mspill h d a) x)
    (hbusy : (s.core x.p.core).mill.queue ≠ [] ∨ (s.core x.p.core).mill.loading ≠ none ∨ (s.core x.p.core).mill.streaming ≠ none) :
    exec (.mspill h d a) s = .next ((s.onMill x.p.core fun m => { m with spilling := some x.uid }).holdAgain x.uid x.gid) := by
  refine (State.privIssue_clear c hS _).trans ?_
  have hb : (!(s.core x.p.core).mill.queue.isEmpty || (s.core x.p.core).mill.loading.isSome || (s.core x.p.core).mill.streaming.isSome) = true := by
    simpa [Option.isSome_iff_ne_none, or_assoc] using hbusy
  dsimp only
  rw [haddr, hlink, hb]
  rfl

section Idle

variable (c : s.Clear (.mspill h d a) x) (hq : (s.core x.p.core).mill.queue = []) (hl : (s.core x.p.core).mill.loading = none)
  (hs : (s.core x.p.core).mill.streaming = none)
include c hq hl hs

theorem exec_mspill_unowned (ho : (s.core x.p.core).mill.owner = none) :
    exec (.mspill h d a) s = .next ((s.unspilling x.p.core).giveWord (.mspill h d a) x d 1) := by
  refine (State.privIssue_clear c hS _).trans ?_
  dsimp only
  rw [haddr, hlink, hq, hl, hs, ho]
  rfl

theorem exec_mspill_owned {o : Nat} (ho : (s.core x.p.core).mill.owner = some o) :
    exec (.mspill h d a) s = .next ((s.spillMill x o (uniform64 s x (.op a)).toNat).giveWord (.mspill h d a) x d 0) := by
  refine (State.privIssue_clear c hS _).trans ?_
  dsimp only
  rw [haddr, hlink, hq, hl, hs, ho]
  rfl

end Idle

theorem exec_mfill_owned (c : s.Clear (.mfill h d a) x) (ho : (s.core x.p.core).mill.owner ≠ none) :
    exec (.mfill h d a) s = .next (s.giveWord (.mfill h d a) x d 4) := by
  refine (State.privIssue_clear c hS _).trans ?_
  dsimp only
  rw [haddr, hlink, Option.isSome_iff_ne_none.2 ho]
  rfl

section Free

variable (c : s.Clear (.mfill h d a) x) (ho : (s.core x.p.core).mill.owner = none) {bs : List Byte} {s1 : State}
  (hread : s.readImage x.p.core (View.join x.view (x.seen (·.millSeen))) (uniform64 s x (.op a)).toNat = (bs, s1))
include c ho hread

theorem exec_mfill_free :
    exec (.mfill h d a) s = match (if s1.poisonIn (uniform64 s x (.op a)).toNat millImageLen then none else millOf bs) with
      | none => .next (s1.giveWord (.mfill h d a) x d 5)
      | some (ctx, act, sh, tiles) => .next (((s1.onMill x.p.core fun m =>
          { m with active := act, shadow := sh, tiles := tiles, owner := some ctx }).gaveUp x.uid x.gid).giveWord (.mfill h d a) x d 0) := by
  refine (State.privIssue_clear c hS _).trans ?_
  dsimp only
  rw [haddr, hlink, ho, hread]
  rfl

theorem exec_mfill_badImage (hbad : s1.poisonIn (uniform64 s x (.op a)).toNat millImageLen = true ∨ millOf bs = none) :
    exec (.mfill h d a) s = .next (s1.giveWord (.mfill h d a) x d 5) := by
  rw [exec_mfill_free hS haddr hlink c ho hread]
  rcases hbad with hpoison | hnone
  · rw [if_pos hpoison]
  · rw [hnone, ite_self]

theorem exec_mfill_loads {own : Nat} {act sh : Plane} {tiles : Sparse Tile} (hpoison : s1.poisonIn (uniform64 s x (.op a)).toNat millImageLen = false)
    (himage : millOf bs = some (own, act, sh, tiles)) : ∃ t : State, exec (.mfill h d a) s = .next (t.giveWord (.mfill h d a) x d 0) ∧ t.mem = s.mem ∧
      (t.core x.p.core).mill = { (s.core x.p.core).mill with active := act, shadow := sh, tiles := tiles, owner := some own } := by
  obtain ⟨n, hn⟩ := s.readImage_draws x.p.core (View.join x.view (x.seen (·.millSeen))) (uniform64 s x (.op a)).toNat
  rw [hread] at hn
  refine ⟨(s1.onMill x.p.core fun m => { m with active := act, shadow := sh, tiles := tiles, owner := some own }).gaveUp x.uid x.gid, ?_, ?_, ?_⟩
  · rw [exec_mfill_free hS haddr hlink c ho hread, hpoison, himage]
    rfl
  · exact (congrArg State.mem hn :)
  · have hcore := State.core_onMill_of_ne s1 x.p.core (fun m => { m with active := act, shadow := sh, tiles := tiles, owner := some own })
      fun h => nomatch (congrArg Mill.owner h :)
    have hsame : s1.core x.p.core = s.core x.p.core := (congrArg (State.core · x.p.core) hn :)
    refine (congrArg Core.mill hcore).trans ?_
    rw [hsame]

end Free

end Spill

/-- The bytes of memory after a Mill has been spilled, and the Mill. -/
theorem State.spillMill_keeps {o : Nat} (ho : (s.core x.p.core).mill.owner = some o) (addr : Nat) :
    (s.spillMill x o addr).mem = memPut s.mem addr (millImage (s.core x.p.core).mill o) ∧
    ((s.spillMill x o addr).core x.p.core).mill =
      { (s.core x.p.core).mill with spilling := none, active := {}, shadow := {}, tiles := [], owner := none
                                    view := View.join (s.core x.p.core).mill.view [⟨addr, millImageLen, s.stamp + 1⟩] } := by
  have hfree := State.core_onMill_of_ne s x.p.core (fun m => { m with spilling := none }) fun h => nomatch ho.symm.trans (congrArg Mill.owner h :)
  have hview (m : Mill) (f : Fact) : m.spilled f ≠ {} := fun h =>
    List.ne_nil_of_mem (View.subset_join_right m.view [f] List.mem_cons_self) (congrArg Mill.view h)
  have hcore := State.core_onMill_of_ne (s.writeMill x o addr) x.p.core (·.spilled ⟨addr, millImageLen, s.stamp + 1⟩) (hview _ _)
  have hwritten : (s.writeMill x o addr).core x.p.core = (s.unspilling x.p.core).core x.p.core := by
    rw [State.core, State.writeMill, State.write_cores, State.core]
  have hspilled : (s.spillMill x o addr).core x.p.core =
      ((s.writeMill x o addr).onMill x.p.core (·.spilled ⟨addr, millImageLen, s.stamp + 1⟩)).core x.p.core := by
    rw [State.core, State.spillMill, State.gaveUp, State.onGang_cores, State.onMembers, State.onParty_cores, State.core]
  refine ⟨?_, ?_⟩
  · simp only [State.spillMill, State.gaveUp, State.onGang_mem, State.onMembers, State.onParty_mem, State.onMill_mem, State.writeMill, State.write,
      State.unspilling]
  · rw [hspilled, hcore, hwritten, State.unspilling, hfree]
    rfl

end Status

end Sys2Proof.Machine

namespace Sys2Proof

open Sys2Proof.Machine

/-- Settles O41: each form of group 0xE that gives a status, outcome by outcome. -/
theorem statusForms : Obligations.StatusForms := by
  intro s h d a b sp k idx ctx x hS ua ub wa gives
  refine ⟨fun c hk => ⟨fun hbad => ?_, fun hbad => ?_⟩, fun c => ⟨fun hw => ?_, fun w hw => ⟨fun he => ?_, fun he => ?_⟩⟩,
    fun c => State.privIssue_clear c hS _, fun e he c hopen => ?tcinv, fun c hopen => exec_tcinvRank c hS hopen,
    fun e he c => ?address, fun c haddr hlink hq hl hs => ⟨exec_mspill_unowned hS haddr hlink c hq hl hs, fun o ho => ?spill⟩,
    fun c haddr hlink => exec_mspill_busy hS haddr hlink c, fun c haddr hlink => ⟨exec_mfill_owned hS haddr hlink c, fun ho bs s1 hread =>
      ⟨exec_mfill_badImage hS haddr hlink c ho hread, fun own act sh tiles => exec_mfill_loads hS haddr hlink c ho hread⟩⟩⟩
  · exact (exec_segwr c hS hk).trans (if_pos hbad)
  · exact (exec_segwr c hS hk).trans (if_neg (Bool.eq_false_iff.1 hbad))
  · exact (exec_rngwr c hS).trans (by rw [State.writeRange_none hw]; rfl)
  · exact (exec_rngwr c hS).trans (by rw [(State.writeRange_some hw).1 he]; rfl)
  · exact (exec_rngwr c hS).trans (by rw [(State.writeRange_some hw).2 he]; rfl)
  case tcinv =>
    have hform : ∃ pages : Turn → Option PageSet, exec e.1 s = s.tcinvForm e.1 d ctx pages ∧ pages x = e.2 := by
      simp only [List.mem_cons, List.not_mem_nil, or_false] at he
      obtain rfl | rfl | rfl := he
      exacts [⟨_, rfl, rfl⟩, ⟨_, rfl, rfl⟩, ⟨fun _ => some ⟨none, 0, 2 ^ 40⟩, rfl, rfl⟩]
    obtain ⟨pages, hexec, hpages⟩ := hform
    refine ⟨fun hnone => hexec.trans (State.tcinvForm_outside c hS hopen (hpages.trans hnone)), fun ps hps => ⟨fun hshared hflight => ?_, fun hshared => ?_⟩⟩
    · obtain ⟨t, ht, hinv⟩ := State.tcinvForm_done (d := d) c hS hopen (hpages.trans hps) hshared hflight
      exact ⟨t, hexec.trans ht, hinv⟩
    · rw [hexec]
      exact State.tcinvForm_waits c hS hopen (hpages.trans hps) hshared
  case address =>
    simp only [List.mem_cons, List.not_mem_nil, or_false] at he
    obtain rfl | rfl := he
    · exact ⟨exec_mspill_badAddr hS c, fun haddr => exec_mspill_linked hS haddr c⟩
    · exact ⟨exec_mfill_badAddr hS c, fun haddr => exec_mfill_linked hS haddr c⟩
  case spill => exact ⟨_, exec_mspill_owned hS haddr hlink c hq hl hs ho, State.spillMill_keeps ho _⟩

end Sys2Proof

namespace Sys2Proof.Machine

/-! ### A step and what it has fetched (16 R425) -/

/-- An occurrence comes next in a state, and finds another when its time has passed (log 19). -/
def State.ComesNext (s : State) (ev : Instr) (s0 : State) : Prop :=
  (∃ o rest, s.agenda = o :: rest ∧ ev = o.what ∧ s0 = ({ s.pass o.after with agenda := rest } : State).comes ev) ∨
    (s.agenda = [] ∧ s.choice = some ev ∧ s0 = (s.pass 1).comes ev)

theorem step_eq_happen {s s0 : State} {ev : Instr} (h : s.ComesNext ev s0) : step s = s0.happen ev := by
  unfold step
  rcases h with ⟨o, rest, ha, rfl, rfl⟩ | ⟨ha, hc, rfl⟩
  · rw [ha]
  · rw [ha, hc]

section Latched

variable {s s1 : State} {ev : Instr} {a : Agent} {bs : List Byte} (he : exec ev s = .next s1) (hl : s1.latch = some (a, bs))
include he hl

/-- What is latched runs for its agent in the same occurrence. -/
theorem State.happen_next {t : State} (ht : exec (s1.decoded a bs) { s1 with latch := none, agent := a } = .next t) :
    s.happen ev = .next (t.settle ev) := by
  rw [State.happen, he]
  simp only [hl, ht]

theorem State.happen_fault {r : Fault} (hr : exec (s1.decoded a bs) { s1 with latch := none, agent := a } = .fault r) : s.happen ev = .fault r := by
  rw [State.happen, he]
  simp only [hl, hr]

theorem State.happen_refused {r : Refusal} (hr : exec (s1.decoded a bs) { s1 with latch := none, agent := a } = .refused r) :
    s.happen ev = .refused r := by
  rw [State.happen, he]
  simp only [hl, hr]

end Latched

theorem State.decoded_gang {s : State} {uid gid : Nat} {bs : List Byte} {i : Instr}
    (h : decode ((s.gang? uid gid).any (·.level)) (Raw.ofBytes bs) = .ok i) : s.decoded (.gang uid gid) bs = i := by
  rw [State.decoded]
  simp only [h]

theorem State.decoded_outrider {s : State} {c : CoreRef} {bs : List Byte} {i : Instr} (h : decodeOutrider (Raw.ofBytes bs) = .ok i) :
    s.decoded (.outrider c) bs = i := by
  unfold State.decoded
  simp only [h]

theorem State.quiet_settle (s : State) (ev : Instr) : (s.settle ev).quiet := by
  unfold State.settle
  split
  exacts [⟨rfl, rfl⟩, ⟨rfl, rfl⟩]

end Sys2Proof.Machine

namespace Sys2Proof

open Sys2Proof.Machine

/-- Settles O58: the occurrence that comes next happens, and what it latched is decoded and run. -/
theorem stepRunsDecoded : Obligations.StepRunsDecoded := by
  intro s s0 s1 ev i a bs hnext hexec hlatch hdecode
  have hi : s1.decoded a bs = i := by
    rcases hdecode with ⟨uid, gid, rfl, h⟩ | ⟨c, rfl, h⟩
    exacts [State.decoded_gang h, State.decoded_outrider h]
  rw [step_eq_happen hnext]
  subst hi
  exact ⟨fun t ht => ⟨State.happen_next hexec hlatch ht, t.quiet_settle ev⟩, fun r hr => State.happen_fault hexec hlatch hr,
    fun r hr => State.happen_refused hexec hlatch hr⟩

end Sys2Proof

namespace Sys2Proof.Machine

/-! ### An increment that returns nothing and names a special register (15 R338) -/

/-- A gang of one fibre, whose s registers are 0, and its party. -/
def countingGang : Gang := { gid := 2, crew := 0, number := some 0, fibres := [0], sregs := [] }
def countingFibre : Fibre := { fid := 0, cfid := 0, crew := 0, pc := 0, srs := 1, blocks := [0] }
def countingParty : Party :=
  { uid := 1, core := ⟨0, 0⟩, slot := 0, ctx := 0, rank := 0, launch := none, unitid := 0, nfib := 1, blocks := 1, prio := 0, producer := 0
    code := 0, segBase := [], segLim := [], fibres := [countingFibre], gangs := [countingGang], crews := [] }

/-- The device on which it is about to issue; its context maps the references 0 to 63 to the first counters of die 0. -/
def countingState : State :=
  { State.reset with parties := [countingParty], nextId := 10, agent := .gang 1 2
                     tables := { contexts := [(0, { num := 0, cmap := [(0, (0, 0))] })] } }

def countingTurn : Turn := { uid := 1, gid := 2, p := countingParty, g := countingGang, ms := [countingFibre], pc := 0 }

/-- `cnt.add` of 1 under NR on the counter that s0 names, with D naming `$gstat`: a word that the decoder refuses, for D is empty under NR. -/
def silentAdd : Instr := .cntAdd {} (.special .gstat) (.s 0) (.op (.const 1)) true .relaxed .dev

theorem clear_silentAdd : countingState.Clear silentAdd countingTurn := ⟨rfl, rfl, fun h => (nomatch h), by decide⟩

/-- The destinations of what is in flight after a word has run. -/
def destsAfter (i : Instr) (s : State) : List (List DestReg) :=
  match exec i s with
  | .next t => t.flight.map (·.dest)
  | _ => []

theorem destsAfter_next {i : Instr} {s t : State} (h : exec i s = .next t) : destsAfter i s = t.flight.map (·.dest) := by
  rw [destsAfter, h]

/-- Nothing is owed to `$gstat`. -/
theorem destsAfter_silentAdd : destsAfter silentAdd countingState = [[]] := by decide

end Sys2Proof.Machine

namespace Sys2Proof

open Sys2Proof.Machine

/-- Refutes O42: the statement does not ask that the word be well formed. It has an add under NR owe its result to the destinations of D, none of its
words; for a special register `State.destOf` gives one even of no words, while `silentAdd` owes nothing, as NR says. -/
theorem not_counterForms : ¬ Obligations.CounterForms := by
  intro h
  obtain ⟨hmapped, -⟩ := h countingState {} (.special .gstat) (.s 0) (.const 0) (.const 0) (.op (.const 1)) true false .relaxed .dev 0 0 countingTurn
    countingFibre rfl
  obtain ⟨-, hadd, -⟩ := hmapped (by decide) (by decide) 0 0 (by decide)
  obtain ⟨t, ht, ⟨r, acc, -, hflight, -, -, -, -, hdest, -⟩, -⟩ := hadd clear_silentAdd ⟨rfl, rfl, fun h => nomatch h⟩
  have howed : t.flight.map (·.dest) = [[]] := (destsAfter_next ht).symm.trans destsAfter_silentAdd
  rw [hflight, List.map_append, List.map_singleton, hdest] at howed
  exact absurd howed (by decide)

end Sys2Proof

namespace Sys2Proof.Machine

/-! ### Ports (17 R376 to R380) -/

@[simp] theorem State.eventWrite_ports (s : State) (r : List Byte) : (s.eventWrite r).ports = s.ports := by
  unfold State.eventWrite; dsimp only; split <;> rfl
@[simp] theorem State.event_ports (s : State) (u : Nat) (a : DWord) (c b : Nat) (e : EventSrc) : (s.event u a c b e).ports = s.ports := by
  unfold State.event; dsimp only; split <;> simp
@[simp] theorem State.notice_ports (s : State) (k a b : Nat) : (s.notice k a b).ports = s.ports := by
  unfold State.notice; dsimp only; split <;> rfl

/-- A port that is not as at reset is listed, whatever the table held. -/
theorem State.port_setPort_of_ne (s : State) (k : Nat) {p : Port} (h : p ≠ {}) : (s.setPort k p).port k = p := by
  rw [State.port, State.setPort, sset, if_neg h, sget_sput_self]

/-- A port that has gone down keeps a mark of it. -/
theorem State.up_portDown (s : State) (k cause : Nat) : ((s.portDown k cause).port k).up = false := by
  have hports : (s.portDown k cause).ports = (s.setPort k { s.port k with up := false, cause := cause, down := true }).ports := by
    rw [State.portDown, State.notice_ports, State.linkRecord, State.event_ports]
  have hport := s.port_setPort_of_ne k (p := { s.port k with up := false, cause := cause, down := true }) fun h => nomatch (congrArg Port.down h :)
  rw [State.port, hports]
  exact congrArg Port.up hport

section Ports

variable {s : State} {port : Nat}

theorem State.byStewardNow_free {i : Instr} {o : Out} (h : s.unitBlocked unitSteward = false) : s.byStewardNow i o = o := by
  rw [State.byStewardNow, h]
  rfl

/-- The Steward waits with a record. -/
theorem State.byStewardNow_waits {i : Instr} {o : Out} (h : s.unitBlocked unitSteward = true) : s.byStewardNow i o = .next (s.later i) := by
  rw [State.byStewardNow, h]
  rfl

section LinkStart

variable {a b : BitVec 256} {ids : LinkIds} {prot : Bool} {width : Nat}

theorem exec_linkStart (hp : port < 24) (hw : s.steward.offline = false) (verified : Bool) :
    exec (.linkStart port verified a b ids prot width) s = s.byStewardNow (.linkStart port verified a b ids prot width)
      (if !verified then .next (s.portDown port 4)
       else
        let s' := s.setPort port { up := true, width := width % 8, prot := prot, keyTx := some a, keyRx := some b, linkids := ids }
        let s' := if (s.port port).down then s'.linkRecord port 0 else s'
        .next (s'.notice 2 port (width % 8))) :=
  if_neg (not_or.2 ⟨Nat.not_le.2 hp, Bool.eq_false_iff.1 hw⟩)

theorem exec_linkStart_offline (hw : s.steward.offline = true) (verified : Bool) : exec (.linkStart port verified a b ids prot width) s = .next s :=
  if_pos (.inr hw)

end LinkStart

theorem exec_linkDown {cause : Nat} (hu : (s.port port).up = true) (hp : port < 24) (hc : cause = 1 ∨ cause = 2) :
    exec (.linkDown port cause) s = s.byStewardNow (.linkDown port cause) (.next (s.portDown port cause)) := by
  refine if_pos ?_
  rw [hu]
  rcases hc with rfl | rfl
  all_goals simp [hp]

theorem exec_linkDown_down {cause : Nat} (hu : (s.port port).up = false) : exec (.linkDown port cause) s = .next s := by
  refine if_neg ?_
  rw [hu]
  exact Bool.false_ne_true

section LaneLoss

variable {good : Nat} (hu : (s.port port).up = true) (hp : port < 16)
include hu hp

theorem exec_laneLoss (hg : good < 4) : exec (.laneLoss port good) s =
    if good < 2 then s.byStewardNow (.laneLoss port good) (.next (s.portDown port 2)) else .next (s.setPort port { s.port port with width := 2 }) :=
  if_neg (by simp [hu]; omega)

end LaneLoss

/-! ### The protection layer (17 R378, R379) -/

section Flit

variable {header payload tag : List Byte} (hu : (s.port port).up = true)
include hu

theorem exec_flitTransmit_open (hp : (s.port port).prot = false) : exec (.flitTransmit port header payload) s = .next (s.emit (.flit port 0 payload 0)) := by
  show execFlitTransmit port header payload s = _
  rw [execFlitTransmit]
  simp only [hu, hp, Bool.not_true, Bool.not_false, Bool.false_eq_true, if_false, if_true]

theorem exec_flitReceive_open (hp : (s.port port).prot = false) :
    exec (.flitReceive port true header payload tag) s = .next (s.emit (.passed port payload)) := by
  show execFlitReceive port true header payload tag s = _
  rw [execFlitReceive]
  simp only [hu, hp, Bool.not_true, Bool.not_false, Bool.false_eq_true, if_false, if_true]

variable (hp : (s.port port).prot = true) {key : BitVec 256}
include hp

theorem exec_flitTransmit_sealed (hk : (s.port port).keyTx = some key) (hseq : (s.port port).txseq.toNat + 1 < 2 ^ 62) :
    let q := s.port port
    let sealed := Config.gcmSeal key (q.linkids.tx ++ q.txseq) header payload
    exec (.flitTransmit port header payload) s =
      .next ((s.emit (.flit port q.txseq sealed.1 sealed.2)).setPort port { q with txseq := q.txseq + 1 }) := by
  have hnext : ((s.port port).txseq + 1).toNat ≠ 2 ^ 62 := by
    rw [BitVec.toNat_add]
    simp
    omega
  show execFlitTransmit port header payload s = _
  rw [execFlitTransmit]
  simp only [hu, hp, hk, Bool.not_true, Bool.false_eq_true, if_false, if_neg hnext]
  rfl

/-- A port once a slot has come in: RXSEQ advances, and failures older than 2^20 slots are forgotten. -/
def Port.received (q : Port) : Port :=
  { q with rxseq := q.rxseq + 1, fails := q.fails.filter fun n => decide (q.rxseq.toNat < n + 2 ^ 20) }

/-- A port once a slot has failed authentication. -/
def Port.refused (q : Port) : Port :=
  { q.received with authfail := min (q.authfail + 1) (2 ^ 32 - 1), fails := q.received.fails ++ [q.rxseq.toNat] }

variable (hk : (s.port port).keyRx = some key)
include hk

theorem exec_flitReceive_badCrc : exec (.flitReceive port false header payload tag) s = .next (s.setPort port (s.port port).received) := by
  show execFlitReceive port false header payload tag s = _
  rw [execFlitReceive]
  simp only [hu, hp, hk, Port.received, Bool.not_true, Bool.not_false, Bool.false_eq_true, if_false, if_true]

theorem exec_flitReceive_opened {plain : List Byte}
    (hopen : Config.gcmOpen key ((s.port port).linkids.rx ++ (s.port port).rxseq) header payload tag = some plain) :
    exec (.flitReceive port true header payload tag) s = .next ((s.setPort port (s.port port).received).emit (.passed port plain)) := by
  have hiv : Config.gcmOpen key (flitIv (s.port port).linkids.rx (s.port port).rxseq) header payload tag = some plain := hopen
  show execFlitReceive port true header payload tag s = _
  rw [execFlitReceive]
  simp only [hu, hp, hk, hiv, Port.received, Bool.not_true, Bool.false_eq_true, if_false]

theorem exec_flitReceive_refused (hopen : Config.gcmOpen key ((s.port port).linkids.rx ++ (s.port port).rxseq) header payload tag = none) :
    exec (.flitReceive port true header payload tag) s = .next (if 16 ≤ (s.port port).refused.fails.length then
      (s.setPort port (s.port port).refused).portDown port 3 else s.setPort port (s.port port).refused) := by
  have hiv : Config.gcmOpen key (flitIv (s.port port).linkids.rx (s.port port).rxseq) header payload tag = none := hopen
  show execFlitReceive port true header payload tag s = _
  rw [execFlitReceive]
  simp only [hu, hp, hk, hiv, Port.refused, Port.received, Bool.not_true, Bool.false_eq_true, if_false]

end Flit

end Ports

/-! ### The host's requests for memory (17 R381) -/

theorem State.hostMemory_masked {s : State} {ctx : Nat} (h : bit s.sys.hbmask.toNat ctx = false) (dev : Option Nat) (region off : Nat) (op : PktOp) (tag : Nat) :
    s.hostMemory dev ctx region off op tag = s.emit (.hostReply tag (.nack XFault.noContext.code)) := by
  rw [State.hostMemory, h]
  rfl

/-- The packet that a host's request becomes. -/
def hostPacket (j : Nat) (region off : Nat) (op : PktOp) (tag : Nat) : Packet :=
  { job := j, init := hostInit, region := region, offset := off, op := op, tag := tag, scope := .sys }

theorem State.hostMemory_open {s : State} {ctx : Nat} {c : Context} {j : Nat} (h : bit s.sys.hbmask.toNat ctx = true) (hctx : ctx < 64)
    (hc : s.ctx? ctx = some c) (hj : c.job = some j) (region off : Nat) (op : PktOp) (tag : Nat) :
    (∀ r, s.hostMemory (some r) ctx region off op tag = s.emit (.packet r (hostPacket j region off op tag))) ∧
    s.hostMemory none ctx region off op tag = s.inbound (hostPacket j region off op tag) [] := by
  have hjob : (s.ctx? ctx).bind (·.job) = some j := by rw [hc]; exact hj
  have hopen : (bit s.sys.hbmask.toNat ctx && decide (ctx < 64)) = true := by simp [h, hctx]
  unfold State.hostMemory
  simp only [hopen, hjob, if_true]
  exact ⟨fun _ => rfl, rfl⟩

end Sys2Proof.Machine

namespace Sys2Proof.Machine

/-! ### The mailbox (17 R382, R383) -/

section Command

variable {s : State} {code : Nat} {always : Bool} {run : Steward → Steward} (hgo : s.steward.cmd.getLsbD 31 = true)
  (hfree : s.unitBlocked unitSteward = false) (hcode : s.steward.cmd.toNat % 65536 = code)
include hgo hfree hcode

theorem State.command_eq : s.command code always run =
    if 1024 < s.steward.len then .next (s.onSteward fun w => w.answer resultBadArg [])
    else if s.steward.offline && !always then .next (s.onSteward fun w => w.answer resultOffline [])
    else .next (s.onSteward run) :=
  if_neg (by simp [hgo, hfree, hcode])

theorem State.command_tooLong (hlen : 1024 < s.steward.len) : s.command code always run = .next (s.onSteward fun w => w.answer resultBadArg []) :=
  (State.command_eq hgo hfree hcode).trans (if_pos hlen)

variable (hlen : s.steward.len ≤ 1024)
include hlen

theorem State.command_offline (hoff : s.steward.offline = true) :
    s.command code false run = .next (s.onSteward fun w => w.answer resultOffline []) := by
  rw [State.command_eq hgo hfree hcode, if_neg (Nat.not_lt.2 hlen), hoff]
  rfl

theorem State.command_runs (h : s.steward.offline = false ∨ always = true) : s.command code always run = .next (s.onSteward run) := by
  have hserves : (s.steward.offline && !always) = false := by
    rcases h with h | h
    all_goals simp [h]
  rw [State.command_eq hgo hfree hcode, if_neg (Nat.not_lt.2 hlen), hserves]
  rfl

end Command

/-! ### UNLOCK (17 R388) -/

/-- The device after an UNLOCK has wiped its keys: the cause of the ports' going down is drawn. -/
def State.wiped (s : State) : State :=
  let s1 := s.onSteward fun v => Steward.answer { v with nonce := none } resultOk []
  { s1 with draws := s.draws + 1, ports := s.ports.map fun p => (p.1, { p.2 with keyTx := none, keyRx := none }) }

/-- What a good token opens. -/
def Steward.unlocked (v : Steward) (token : List Byte) : Steward :=
  { v.extendM 6 (sha256 token) with
    tenantKeys := false, dbgopen := true, debugPort := true, devfeat := setField v.devfeat 36 36 1
    negfeat := if v.negDone then setField v.negfeat 36 36 1 else v.negfeat }

section Unlock

variable {s : State} (hgo : s.steward.cmd.getLsbD 31 = true) (hfree : s.unitBlocked unitSteward = false)
  (hcode : s.steward.cmd.toNat % 65536 = 5) (hlen : s.steward.len ≤ 1024)
include hgo hfree hcode hlen

theorem exec_unlock_refused (htoken : s.tokenGood (s.steward.req 0 112) = false) :
    exec .unlock s = .next (s.onSteward fun v => Steward.answer { v with nonce := none } resultRefused []) := by
  show execUnlock s = _
  unfold execUnlock
  simp only [htoken, Bool.and_false, Bool.false_eq_true, if_false, State.command_runs hgo hfree hcode hlen (.inr rfl), Bool.not_false, if_true]

theorem exec_unlock_opens (htoken : s.tokenGood (s.steward.req 0 112) = true) :
    ∃ n, exec .unlock s = .next ((((s.ports.filter fun p => p.2.up).map (·.1)).foldl (fun (t : State) k => t.portDown k n) s.wiped).onSteward
      (·.unlocked (s.steward.req 0 112))) := by
  have hrun : (decide (s.steward.cmd.getLsbD 31 = true ∧ s.steward.cmd.toNat % 65536 = 5 ∧ s.steward.len ≤ 1024) && !s.unitBlocked unitSteward &&
      s.tokenGood (s.steward.req 0 112)) = true := by
    simp only [hgo, hcode, hlen, hfree, htoken, and_self, decide_true, Bool.not_false, Bool.and_self]
  refine ⟨(Config.freeWord s.draws).toNat % 16, ?_⟩
  show execUnlock s = _
  unfold execUnlock
  simp only [hrun, if_true, State.command_runs hgo hfree hcode hlen (.inr rfl), Bool.not_true, Bool.false_eq_true, if_false]
  rfl

end Unlock

/-! ### MEASUREMENTS (17 R386, R387) -/

theorem length_bytes256 (x : BitVec 256) : (bytes256 x).length = 32 := by
  rw [bytes256, List.length_reverse, length_leBytes]

/-- What stands before the digest of an answer with one measurement: eight bytes of the message and seven of the block. -/
def measurementHead (i len : Nat) : List Byte :=
  bytesOf 1 0x13 ++ bytesOf 1 0x60 ++ bytesOf 1 0 ++ bytesOf 1 0 ++ bytesOf 1 1 ++ bytesOf 3 len ++
    (bytesOf 1 (i + 1) ++ bytesOf 1 1 ++ bytesOf 2 35 ++ bytesOf 1 0 ++ bytesOf 2 32)

theorem length_measurementHead (i len : Nat) : (measurementHead i len).length = 15 := by
  simp only [measurementHead, List.length_append, bytesOf, length_leBytes]

theorem spdmMeasurements_one (w : Steward) {req : List Byte} {i : Nat} (hi : i < 16) (hreq : leAt req 3 1 = i + 1) (nonce : List Byte) :
    ∃ len post, spdmMeasurements w req nonce = measurementHead i len ++ (bytes256 (w.m.getD i 0) ++ post) := by
  have hasked : measurementsAsked (leAt req 3 1) = some [i] := by
    rw [hreq, measurementsAsked, if_neg (Nat.succ_ne_zero i), if_neg (by omega), if_pos (by omega)]
    rfl
  refine ⟨(measurementBlock w.m i).length, ?_⟩
  unfold spdmMeasurements
  rw [hasked]
  simp only [List.flatMap_cons, List.flatMap_nil, List.append_nil, List.isEmpty_cons, List.length_singleton, Bool.false_eq_true, if_false]
  generalize (measurementBlock w.m i).length = len
  by_cases hsign : bit (leAt req 2 1) 0 = true
  · rw [if_pos hsign]
    generalize List.take 64 _ = signature
    exact ⟨nonce ++ (bytesOf 2 0 ++ signature), by simp only [measurementHead, measurementBlock, List.append_assoc]⟩
  · rw [if_neg hsign]
    exact ⟨nonce ++ bytesOf 2 0, by simp only [measurementHead, measurementBlock, List.append_assoc]⟩

theorem Steward.spdmAnswer_measures {w : Steward} {req : List Byte} (hstage : w.spdm.stage = 3) (hcode : leAt req 1 1 = 0xE0) (nonce : List Byte) :
    (w.spdmAnswer req nonce).1 = spdmMeasurements w req nonce := by
  have hreq : spdmRequest req = some .getMeasurements := by
    rw [spdmRequest, hcode]
    rfl
  have htakes : w.spdm.takes .getMeasurements = true := by
    show (w.spdm.stage == 3) = true
    rw [hstage]
    rfl
  unfold Steward.spdmAnswer
  rw [hreq]
  dsimp only
  rw [htakes]
  rfl

theorem Steward.spdmAnswer_digest {w : Steward} {req : List Byte} (hstage : w.spdm.stage = 3) (hcode : leAt req 1 1 = 0xE0) {i : Nat} (hi : i < 16)
    (hreq : leAt req 3 1 = i + 1) (nonce : List Byte) : ((w.spdmAnswer req nonce).1.drop 15).take 32 = bytes256 (w.m.getD i 0) := by
  obtain ⟨len, post, hanswer⟩ := spdmMeasurements_one w hi hreq nonce
  rw [Steward.spdmAnswer_measures hstage hcode, hanswer, List.drop_left' (length_measurementHead i len), List.take_left' (length_bytes256 _)]

end Sys2Proof.Machine

namespace Sys2Proof.Machine

/-! ### The mailbox commands (17 R383) -/

/-- What the Steward's record becomes is its function's value at the record that stands. -/
theorem State.onSteward_congr {s : State} {f g : Steward → Steward} (h : f s.steward = g s.steward) : s.onSteward f = s.onSteward g :=
  congrArg (fun w => { s with steward := w }) h

section Commands

variable {s : State} (hgo : s.steward.cmd.getLsbD 31 = true) (hlen : s.steward.len ≤ 1024) (hfree : s.unitBlocked unitSteward = false)
include hgo hlen hfree

/-- A command whose effect is given at the record that stands. -/
theorem State.command_runs_at {code : Nat} {always : Bool} {run g : Steward → Steward} (hcode : s.steward.cmd.toNat % 65536 = code)
    (h : s.steward.offline = false ∨ always = true) (hrun : run s.steward = g s.steward) : s.command code always run = .next (s.onSteward g) :=
  (State.command_runs hgo hfree hcode hlen h).trans (congrArg Host.Outcome.next (State.onSteward_congr hrun))

/-- The commands that need the device in service. -/
theorem exec_commands_offline (hoff : s.steward.offline = true) :
    (s.steward.cmd.toNat % 65536 = 1 → exec .negotiate s = .next (s.onSteward fun w => w.answer resultOffline [])) ∧
    (s.steward.cmd.toNat % 65536 = 2 → exec .extend s = .next (s.onSteward fun w => w.answer resultOffline [])) ∧
    (s.steward.cmd.toNat % 65536 = 3 → exec .powercap s = .next (s.onSteward fun w => w.answer resultOffline [])) :=
  ⟨fun hcode => State.command_offline hgo hfree hcode hlen hoff, fun hcode => State.command_offline hgo hfree hcode hlen hoff,
    fun hcode => State.command_offline hgo hfree hcode hlen hoff⟩

theorem exec_unlock_answers (hcode : s.steward.cmd.toNat % 65536 = 5) :
    ∃ n, exec .unlock s = .next (if s.tokenGood (s.steward.req 0 112) then
      (((s.ports.filter fun p => p.2.up).map (·.1)).foldl (fun (t : State) k => t.portDown k n) s.wiped).onSteward (·.unlocked (s.steward.req 0 112))
      else s.onSteward fun v => Steward.answer { v with nonce := none } resultRefused []) := by
  cases htoken : s.tokenGood (s.steward.req 0 112)
  case false => exact ⟨0, exec_unlock_refused hgo hfree hcode hlen htoken⟩
  case true => exact exec_unlock_opens hgo hfree hcode hlen htoken

theorem exec_spdm (hcode : s.steward.cmd.toNat % 65536 = 6) :
    ∃ nonce, exec .spdm s = .next (({ s with draws := s.draws + 4 } : State).onSteward fun v =>
      let x := s.steward.spdmAnswer (s.steward.req 0 s.steward.len) nonce
      Steward.answer { v with spdm := x.2 } resultOk (x.1.take 0x400)) :=
  ⟨_, State.command_runs_at (s := { s with draws := s.draws + 4 }) hgo hlen hfree hcode (.inr rfl) rfl⟩

theorem exec_unknown (hcode : s.steward.cmd.toNat % 65536 = 0 ∨ 6 < s.steward.cmd.toNat % 65536) :
    exec .unknown s = .next (s.onSteward fun v => v.answer resultUnknown []) :=
  (if_neg (by omega)).trans (State.command_runs hgo hfree rfl hlen (.inr rfl))

end Commands

theorem exec_powerEstimate (s : State) (watts : Nat) :
    exec (.powerEstimate watts) s = .next (if decide (s.steward.pwrcap < watts) == s.steward.throttle then s
      else (s.onSteward fun v => { v with throttle := decide (s.steward.pwrcap < watts) }).notice 5 (b2n (decide (s.steward.pwrcap < watts))) watts) := by
  show execPowerEstimate watts s = _
  unfold execPowerEstimate
  dsimp only
  split
  · rfl
  · rfl

theorem exec_flitReceive_protected {s : State} {port : Nat} {header payload tag : List Byte} {key : BitVec 256} (hu : (s.port port).up = true)
    (hp : (s.port port).prot = true) (hk : (s.port port).keyRx = some key) :
    exec (.flitReceive port true header payload tag) s =
      .next (match Config.gcmOpen key ((s.port port).linkids.rx ++ (s.port port).rxseq) header payload tag with
        | some plain => (s.setPort port (s.port port).received).emit (.passed port plain)
        | none => if 16 ≤ (s.port port).refused.fails.length then (s.setPort port (s.port port).refused).portDown port 3
          else s.setPort port (s.port port).refused) := by
  cases hopen : Config.gcmOpen key ((s.port port).linkids.rx ++ (s.port port).rxseq) header payload tag with
  | none => exact exec_flitReceive_refused hu hp hk hopen
  | some plain => exact exec_flitReceive_opened hu hp hk hopen

end Sys2Proof.Machine

namespace Sys2Proof

open Sys2Proof.Machine

/-- Settles O54: the Steward waits with its record or acts, a port and its protection layer go by the port's state alone, and a mailbox command by what
`State.command` checks first. -/
theorem stewardEvents : Obligations.StewardEvents := by
  unfold Obligations.StewardEvents
  intro s k port cause good iod rank watts lc width off len tag ctx region image sig header payload tagb a b nonce prot pk op linkids w q
  refine ⟨?boot, ⟨_, rfl⟩, ?acts, ?waits, fun hoff => exec_linkStart_offline hoff prot, exec_linkDown_down, ?lane, ?plain, ?sealed, ?slot, ?gateway, ?host, rfl,
    exec_powerEstimate s watts, fun hgo hlen hfree hcode => State.command_tooLong hgo hfree hcode hlen,
    fun i n hi hstage hcode hreq => Steward.spdmAnswer_digest hstage hcode hi hreq _, ?mailbox⟩
  case boot =>
    rintro hon rfl hk
    exact if_neg (not_or.2 ⟨Bool.eq_false_iff.1 hon, not_or.2 ⟨not_not.2 rfl, Nat.not_lt.2 hk⟩⟩)
  case acts =>
    intro hfree
    refine ⟨fun hp hon => ?_, fun hp hon => ?_, fun hu hp hc => ?_, fun hu hp hg => ?_, s.up_portDown port cause⟩
    · rw [exec_linkStart hp hon, State.byStewardNow_free hfree]
      rfl
    · rw [exec_linkStart hp hon, State.byStewardNow_free hfree]
      rfl
    · rw [exec_linkDown hu hp hc, State.byStewardNow_free hfree]
    · rw [exec_laneLoss hu hp (by omega), if_pos hg, State.byStewardNow_free hfree]
  case waits =>
    refine fun hblocked => ⟨fun hp hon => ?_, fun hu hp hc => ?_⟩
    · rw [exec_linkStart hp hon, State.byStewardNow_waits hblocked]
    · rw [exec_linkDown hu hp hc, State.byStewardNow_waits hblocked]
  case lane => exact fun hu hp hlow hhigh => (exec_laneLoss hu hp hhigh).trans (if_neg (Nat.not_lt.2 hlow))
  case plain => exact fun hu hp => ⟨exec_flitTransmit_open hu hp, exec_flitReceive_open hu hp⟩
  case sealed => exact fun key hu hp hk hseq => exec_flitTransmit_sealed hu hp hk hseq
  case slot => exact fun key hu hp hk => ⟨exec_flitReceive_badCrc hu hp hk, exec_flitReceive_protected hu hp hk⟩
  case gateway => exact fun hiod => ⟨if_neg (Nat.not_le.2 hiod), if_neg (Nat.not_le.2 hiod)⟩
  case host =>
    refine ⟨rfl, rfl, rfl, rfl, fun dev hmask => ?_, fun c j hmask hctx hc hj => ?_⟩
    · exact congrArg Host.Outcome.next (State.hostMemory_masked hmask dev region off op tag)
    · obtain ⟨hfar, hnear⟩ := State.hostMemory_open hmask hctx hc hj region off op tag
      exact ⟨congrArg Host.Outcome.next (hfar rank), congrArg Host.Outcome.next hnear⟩
  case mailbox =>
    intro hgo hlen hfree
    have hruns := @State.command_runs_at s hgo hlen hfree
    exact ⟨exec_commands_offline hgo hlen hfree,
      fun hon => ⟨fun hcode => hruns hcode (.inl hon) rfl, fun hcode => hruns hcode (.inl hon) rfl, fun hcode => hruns hcode (.inl hon) rfl⟩,
      fun hcode => hruns hcode (.inr rfl) rfl, exec_unlock_answers hgo hlen hfree, exec_spdm hgo hlen hfree, exec_unknown hgo hlen hfree⟩

end Sys2Proof
